-- ==== Sys2Proof/Word.lean ====
section
/-! DEFINITION. The word types of the Aelrovos (R11, R23, R50): bytes, 32-bit registers, 64-bit views and addresses,
128-bit views and 96-bit instruction words. -/

namespace Sys2Proof

/-- One byte of memory. -/
abbrev Byte := BitVec 8

/-- A vector or scalar register (R11, R18). -/
abbrev W32 := BitVec 32

/-- A `d` or `sd` view, and a virtual address (R11, R23). -/
abbrev W64 := BitVec 64

/-- A `q` view, a long name, and the widest operand (R11, R25). -/
abbrev W128 := BitVec 128

/-- An instruction word (R50). -/
abbrev IWord := BitVec 96

end Sys2Proof
end

