-- ==== Sys2Proof/Config.lean ====
section
/-! DEFINITION. What the spec leaves open or names without defining: uninterpreted constants. None has a body, so no proof
can rest on a value of one. The assumption log names each (entries 1 and 3). -/

namespace Sys2Proof.Config

/-- DESIGN CHOICE (log 1): the pattern proposed for `frcp`, `frsq`, `fex2`, `flg2`, `fsin`, `fcos` (0 to 5), where R137 only
bounds the result. Arguments: operation, type code, operand pattern. -/
opaque sfuPattern : Nat → Nat → Nat → Nat

/-- DESIGN CHOICE (log 3): a fresh free value, applied to the state's counter. -/
opaque freeValue : Nat → BitVec 512

/-- PRESUMED (log 11): QARMA-128 (R354, R356): by key and tweak, a permutation of the blocks. The spec names the cipher and does not define
it. -/
opaque qarma128 : BitVec 256 → BitVec 128 → Equiv.Perm (BitVec 128)

/-- PRESUMED (log 11): SHAKE256 of a byte string, the first 576 bits of its output (R355, R359, R360, R363). -/
opaque shake256 : List Byte → BitVec 576

/-- PRESUMED (log 11): the device secret in fuses, of 256 bits (R359). -/
opaque deviceSecret : BitVec 256

/-- PRESUMED (log 11): the digest of the root's public key that the boot ROM holds, and the package's certificate (R359). -/
opaque rootDigest : BitVec 512
opaque certificate : List Byte

/-- PRESUMED (log 11): the Falcon-1024 key pair, public then secret, that a seed gives (R359). -/
opaque falconKeys : List Byte → List Byte × List Byte

/-- PRESUMED (log 11): whether a Falcon-1024 signature of a byte string verifies: public key, byte string, signature (R360, R361). -/
opaque falconVerify : List Byte → List Byte → List Byte → Bool

/-- PRESUMED (log 11): a Falcon-1024 signature: secret key, byte string, randomness (R360, R362). -/
opaque falconSign : List Byte → List Byte → List Byte → List Byte

/-- PRESUMED (log 11): the root's public key and the public key that a certificate holds, and its signature over that key (R359). -/
opaque certificateParts : List Byte → List Byte × List Byte × List Byte

/-- PRESUMED (log 11): the ML-KEM-1024 key pair, encapsulation key then decapsulation key, that a seed gives (R359, R360). -/
opaque mlkemKeys : List Byte → List Byte × List Byte

/-- PRESUMED (log 11): ML-KEM-1024 encapsulation: key and randomness give the ciphertext and the shared secret (R360). -/
opaque mlkemEncap : List Byte → List Byte → List Byte × List Byte

/-- PRESUMED (log 11): ML-KEM-1024 decapsulation: key and ciphertext, none where it fails (R360, R370). -/
opaque mlkemDecap : List Byte → List Byte → Option (List Byte)

/-- PRESUMED (log 11): AES-256-GCM tag of a frame (R343): key, salt and FSEQ, plaintext flits, additional data. -/
opaque gcmTag : BitVec 256 → BitVec 96 → List (BitVec 512) → BitVec 256 → BitVec 128

/-- PRESUMED (log 11): AES-256-GCM ciphertext of a frame's flits (R343): key, salt and FSEQ, plaintext flits. -/
opaque gcmCipher : BitVec 256 → BitVec 96 → List (BitVec 512) → List (BitVec 512)

/-- DESIGN CHOICE (log 6): the tag over an image's header and tile segment (R305). -/
opaque imageTag : List Byte → BitVec 128

/-- DESIGN CHOICE (log 6): the silicon stepping and the microcode level of the tiles (R306). -/
opaque stepping : BitVec 16
opaque ucode : BitVec 16

/-- DESIGN CHOICE (log 6): whether a physical tile has a repaired row or column, and the hash of its array repair map (R306). -/
opaque repaired : Nat → Bool
opaque repairHash : Nat → BitVec 32

/-- DESIGN CHOICE (log 6): the 4 KiB pages of an image's tile segment less one, modulo 64, for a revision word (R304). -/
opaque tileSegmentPages : BitVec 64 → Nat

/-- DESIGN CHOICE (log 6): the bytes of a segment of an image as memory shows them, by a fresh value and the segment: 0 to 5 for a
partition's, 6 for the tile's (R304, R354). -/
opaque segmentBytes : BitVec 512 → Nat → List Byte

end Sys2Proof.Config
end

