-- ==== Sys2Proof/Syntax.lean ====
section
/-! DEFINITION. The operations of the Aelrovos: one constructor of `Instr` per row of the table of operations and events.
The first 138 are instructions, whose arguments are the fields of their format (R50, R55); the others are the operations of
the units, of the service kernel, of the hosts and of the fabric, whose arguments are what the row leaves to its agent. -/

namespace Sys2Proof

/-- The type codes of R56. -/
inductive Ty where
  | b32 | b8 | b16 | b64 | b128 | u32 | s32 | u64 | s64 | f16 | bf16 | f32 | f64 | f16x2 | gf8 | d8
  deriving DecidableEq, Repr

/-- The rounding codes of R57; the reserved codes have no constructor. -/
inductive Rnd where
  | rne | rtz | rup | rdn | rna | sr
  deriving DecidableEq, Repr

/-- The scope codes of R58. -/
inductive Scope where
  | wave | team | cluster | die | dev | fabric
  deriving DecidableEq, Repr

/-- The order kinds of R58. -/
inductive Ord where
  | rlx | acq | rel | acqrel
  deriving DecidableEq, Repr

/-- The cache hints of R58, which affect speed only. -/
inductive Hint where
  | none | keep | evict | bypass
  deriving DecidableEq, Repr

/-- The hardware traps of R39. -/
inductive TrapKind where
  | illegal | target | parity | misalign | xlate | protect | stray | unnameable | noname | sealed | partialMask | token
  | backing | budget | world | bindfail | poison
  deriving DecidableEq, Repr

/-- The fields every format shares (R50): guard, negation, scalar mark, lookahead, hold. -/
structure Hd where
  pg : BitVec 4
  pn : Bool
  s : Bool
  la : BitVec 4
  h : BitVec 2
  deriving DecidableEq, Repr

/-- Format V (R55). -/
structure VForm where
  hd : Hd
  d : BitVec 10
  a : BitVec 10
  b : BitVec 10
  c : BitVec 10
  ty : Ty
  rnd : Rnd
  sat : Bool
  ska : Bool
  skb : Bool
  skc : Bool
  sub : BitVec 4
  deriving DecidableEq, Repr

/-- Format I (R55). -/
structure IForm where
  hd : Hd
  d : BitVec 10
  a : BitVec 10
  imm : W32
  ty : Ty
  rnd : Rnd
  ska : Bool
  sat : Bool
  imod : BitVec 13
  deriving DecidableEq, Repr

/-- The layout of `lop3` (R71). -/
structure LopForm where
  hd : Hd
  d : BitVec 10
  a : BitVec 10
  b : BitVec 10
  c : BitVec 10
  ty : Ty
  rnd : Rnd
  ska : Bool
  sat : Bool
  table : BitVec 8
  deriving DecidableEq, Repr

/-- Format M (R55). -/
structure MForm where
  hd : Hd
  d : BitVec 10
  a : BitVec 10
  b : BitVec 10
  c : BitVec 10
  off : BitVec 22
  wt : Ty
  hint : Hint
  scope : Scope
  ord : Ord
  deriving DecidableEq, Repr

/-- The M-op layout (R172). -/
structure MopForm where
  hd : Hd
  d : BitVec 10
  a : BitVec 10
  b : BitVec 10
  c : BitVec 10
  opc : BitVec 6
  off : BitVec 16
  wt : Ty
  hint : Hint
  scope : Scope
  ord : Ord
  deriving DecidableEq, Repr

/-- Format J (R55). -/
structure JForm where
  hd : Hd
  d : BitVec 10
  disp : BitVec 30
  deriving DecidableEq, Repr

/-- Format E (R55). -/
structure EForm where
  hd : Hd
  d : BitVec 10
  a : BitVec 10
  b : BitVec 10
  c : BitVec 10
  tid : BitVec 16
  emod : BitVec 18
  deriving DecidableEq, Repr

/-- The layout of `hpush` (R142). -/
structure HpushForm where
  hd : Hd
  mreg : BitVec 10
  disp : BitVec 30
  mtch : W32
  deriving DecidableEq, Repr

/-- The layout of `perf` (R142). -/
structure PerfForm where
  hd : Hd
  pay : BitVec 10
  nreg : BitVec 10
  rn : Bool
  k : BitVec 11
  name : W32
  deriving DecidableEq, Repr

/-- Format Y as `trap` uses it (R55, R168). -/
structure TrapForm where
  hd : Hd
  d : BitVec 10
  a : BitVec 10
  b : BitVec 10
  c : BitVec 10
  name : W32
  deriving DecidableEq, Repr

/-- The answers of the service kernel to a fault record (R290). -/
inductive FaultStatus where
  | resolved | xlate | protect | poison | noname
  deriving DecidableEq, Repr

/-- Why a team ends with an error (R170, R230, R259). -/
inductive EndReason where
  | trap (k : TrapKind) (pc : W64)
  | unhandled (name : W32)
  | halt (pc : W64)
  | quiesced
  | reset
  | contextEnd
  deriving DecidableEq, Repr

/-- Where the dispatcher puts a team (R263): the team, its tile and the first of its banks. -/
structure Placement where
  team : Nat
  tile : Nat
  bank : Nat
  deriving DecidableEq, Repr

/-- The packet types of R334; a reply carries `reply`. -/
inductive PacketType where
  | read | write | atomic | xa | rstf | grant | recall | page | launch | commit | abort | manager | team | advert
  /-- Any code that R334 does not list. -/
  | unlisted
  deriving DecidableEq, Repr

/-- A fabric packet (R332). `data` is the payload, one byte each. -/
structure Packet where
  typ : PacketType
  reply : Bool
  src : BitVec 12
  dst : BitVec 12
  addr : W64
  aux : W64
  seq : BitVec 16
  rtag : Nat
  world : BitVec 6
  tier : Nat
  hop : Nat
  sq : Bool
  echo : Bool
  opc : BitVec 6
  wt : Ty
  scope : Scope
  ord : Ord
  status : BitVec 2
  /-- Bits [27:0] of the header. -/
  resv : BitVec 28
  data : List Byte
  deriving DecidableEq, Repr

/-- A frame on a Bysum link (R342): ciphertext flits, the flits they stand for, each by its packet and place there, and the fields of the
tag flit. -/
structure Frame where
  flits : List (BitVec 512)
  plain : List (Packet × Nat)
  gtag : BitVec 128
  fseq : W64
  aseq : W64
  nak : Bool
  cred : List Nat
  deriving DecidableEq, Repr

/-- What the loader is told of a `.tensor` statement of a code object (R323): where its record stands in the object, and how many of its value
bytes are the last statement's. -/
structure TensorMark where
  off : Nat
  last : Nat
  deriving DecidableEq, Repr

/-- What the service kernel writes under an invalidation (R291): the page-table entry of the page, the frame-map entry of a physical page. -/
structure Entries where
  leaf : Option W64
  frame : Option (Nat × BitVec 128)
  deriving DecidableEq, Repr

/-- Where a becalmed team's region and its context go (R272). -/
structure CalmPlaces where
  region : BitVec 52
  context : BitVec 52
  deriving DecidableEq, Repr

/-- Where a new context has its root page tables and its threads' private spaces (R281, R283). -/
structure ContextPlaces where
  tables : BitVec 52
  arena : Nat
  deriving DecidableEq, Repr

/-- Whose request the package answers: the port, the function, and the ID that the host chose, or its number for an access through a DAX window
(R364, R368, R373). -/
structure HostReq where
  port : Nat
  fn : Nat
  id : W64
  deriving DecidableEq, Repr

/-- A request by the function of a port on which it came, and the ID that the host chose (R364, R368). -/
structure FnReq where
  fn : Nat
  id : W64
  deriving DecidableEq, Repr

/-- A message taken from a queue of a device function: the queue, the port it is for where it is a vsock's, and its bytes (R365, R369). -/
structure QueueMessage where
  queue : Nat
  service : Nat
  bytes : List Byte
  deriving DecidableEq, Repr

/-- An object of a context, whose file a host maps (R372, R373). -/
structure ObjectFile where
  ctx : Nat
  obj : W64
  deriving DecidableEq, Repr

/-- Bytes of a firmware upload, with the signature of the image that they may complete (R361, R378). -/
structure Upload where
  bytes : List Byte
  signature : List Byte
  deriving DecidableEq, Repr

/-- What the other end of a link sends in a handshake (R360): its certificate, its encapsulation key or, where it is end H, its ciphertext, and
its signature. -/
structure Handshake where
  certificate : List Byte
  kem : List Byte
  signature : List Byte
  deriving DecidableEq, Repr

/-- The protocol versions a link's end supports (R345). -/
structure Versions where
  lo : Nat
  hi : Nat
  deriving DecidableEq, Repr

/-- The other end of a link at its training: its node and port, and the free slots of its buffers by channel (R344, R360). -/
structure LinkEnd where
  node : Nat
  port : Nat
  free : List Nat
  deriving DecidableEq, Repr

/-- The arrays a soft error may strike (R298). -/
inductive SoftArray where
  | cleanLine | l2 | scratchpad | hbm | regfile
  deriving DecidableEq, Repr

/-- The operations, one constructor per row of the table. -/
inductive Instr where
  -- integer class (R103)
  | nop
  | iadd (f : VForm) | iaddImm (f : IForm) | isub (f : VForm) | isubImm (f : IForm)
  | imul (f : VForm) | imulImm (f : IForm) | imad (f : VForm) | imulhi (f : VForm)
  | idiv (f : VForm) | irem (f : VForm)
  | imin (f : VForm) | iminImm (f : IForm) | imax (f : VForm) | imaxImm (f : IForm)
  | iabs (f : VForm) | ineg (f : VForm) | iadd3 (f : VForm) | iaddc (f : VForm) | lea (f : VForm)
  | icmp (f : VForm) | icmpImm (f : IForm) | isel (f : VForm)
  -- bit class
  | and (f : VForm) | andImm (f : IForm) | or (f : VForm) | orImm (f : IForm)
  | xor (f : VForm) | xorImm (f : IForm) | not (f : VForm) | lop3 (f : LopForm)
  | shl (f : VForm) | shlImm (f : IForm) | shr (f : VForm) | shrImm (f : IForm)
  | sar (f : VForm) | sarImm (f : IForm) | rot (f : VForm) | rotImm (f : IForm)
  | bfe (f : VForm) | bfi (f : VForm) | popc (f : VForm) | clz (f : VForm) | brev (f : VForm)
  -- floating point (R127)
  | fadd (f : VForm) | faddImm (f : IForm) | fsub (f : VForm) | fsubImm (f : IForm)
  | fmul (f : VForm) | fmulImm (f : IForm) | ffma (f : VForm)
  | fmin (f : VForm) | fminImm (f : IForm) | fmax (f : VForm) | fmaxImm (f : IForm)
  | fabs (f : VForm) | fneg (f : VForm) | fcmp (f : VForm) | fcmpImm (f : IForm)
  | fclass (f : VForm) | fscale (f : VForm) | frnd (f : VForm)
  | fdiv (f : VForm) | fsqrt (f : VForm) | frcp (f : VForm) | frsq (f : VForm)
  | fex2 (f : VForm) | flg2 (f : VForm) | fsin (f : VForm) | fcos (f : VForm)
  -- moves, conversion, lane operations, predicates
  | mov (f : VForm) | movi (f : IForm) | cvt (f : VForm)
  | shuf (f : VForm) | bcast (f : VForm) | vote (f : VForm) | ballot (f : VForm) | shp (f : VForm)
  | rdsr (f : IForm)
  | pand (f : VForm) | por (f : VForm) | pxor (f : VForm) | pnot (f : VForm) | pmov (f : VForm)
  -- control and effects (R141)
  | bra (f : JForm) | brx (f : VForm) | call (f : JForm) | callx (f : VForm) | ret (f : VForm)
  | join (f : VForm) | yield (f : VForm) | exit (f : VForm)
  | hpush (f : HpushForm) | hpop (f : VForm) | perf (f : PerfForm)
  | resumet (f : VForm) | resumec (f : VForm) | resumek (f : VForm) | dropt (f : VForm) | tinfo (f : VForm)
  | trap (f : TrapForm)
  -- memory (R171)
  | ld (f : MForm) | st (f : MForm) | ldp (f : MForm) | stp (f : MForm) | ldt (f : MForm) | pref (f : MForm)
  | nameof (f : VForm) | ptreq (f : VForm)
  | atom (f : MopForm) | atomc (f : MForm) | red (f : MopForm) | rstf (f : MForm)
  | exadd (f : MForm) | exclr (f : MForm) | exrnd (f : MopForm)
  -- engines, synchronisation, tensor table, system (R198)
  | fence (f : MForm) | bar (f : VForm) | bara (f : VForm) | barw (f : VForm)
  | cbdef (f : VForm) | cbacq (f : VForm) | cbrel (f : VForm) | waitp (f : MForm)
  | icinv (f : MForm) | ifence (f : VForm)
  | cpy (f : EForm) | cpym (f : EForm) | cpyw (f : EForm) | mma (f : EForm) | mmasp (f : EForm)
  | cwait (f : EForm) | tset (f : EForm) | tget (f : EForm) | tseal (f : EForm) | publ (f : EForm)
  | cctl (f : MopForm) | halt (f : VForm)
  -- issue, waits and traps
  | issueCycle (tile part : Nat)
  | activeSetExchange (tile part : Nat)
  | groupPromotion (wave : Nat) (pc : W64)
  | trapDelivery (wave : Nat)
  | joinRelease (wave : Nat)
  | barrierPhaseComplete (bar : Nat)
  | waitpRelease (wave lane : Nat)
  | cbacqRelease (wave lane : Nat)
  -- engine commands
  | cbSlotClaim (tile cmd : Nat)
  | commandAccept (tile cmd : Nat)
  | commandFinish (tile cmd : Nat)
  | commandFailure (tile cmd landed : Nat) (why : FaultStatus)
  -- memory system
  | faultAnswer (die : Nat) (seq : W32) (status : FaultStatus) (fix : Option W64)
  | translationInvalidate (ctx : Nat) (page : Option W64) (entries : Entries)
  | pageSectorArrival (page sector frame : Nat)
  | pageDepart (page : Nat)
  | watermarkDeparture (world : Nat)
  | counterHalving (stack : Nat)
  | codeBind (ctx : Nat) (obj : W64) (ok : Bool)
  | retentionExit (tile : Nat)
  -- launches and teams
  | launchSubmit (world : Nat) (record : BitVec 2048)
  | launchEligibility (launch : Nat)
  | dispatchRound (die : Nat) (grants : List Placement)
  | launchAging (launch : Nat)
  | freeSlotAdvert (die : Nat)
  | teamTransfer (team die : Nat) (accepted : Bool)
  | shareComplete (launch : Nat)
  | becalm (team : Nat) (places : CalmPlaces)
  | teamWake (team : Nat)
  | teamEnd (team : Nat) (reason : EndReason)
  -- the service kernel
  | serviceDelivery (wave lane : Nat)
  | svcLaunch (wave lane : Nat)
  | svcAlloc (wave lane : Nat)
  | svcConsole (wave lane : Nat)
  | objectQuery (wave lane : Nat)
  | objectEvict (wave lane : Nat)
  | objectPin (wave lane : Nat)
  | objectUnpin (wave lane : Nat)
  | objectRetire (wave lane : Nat)
  | objectMakeWritable (wave lane : Nat)
  | privateGrowth (wave lane : Nat) (granted : Bool)
  -- the freeze unit
  | freeze (tile : Nat) (image : BitVec 52)
  | quiesce (tile : Nat) (pmask : BitVec 6)
  | restore (tile : Nat) (image : BitVec 52)
  | stop (tile : Nat)
  | start (tile : Nat)
  | discard (tile : Nat) (image : BitVec 52)
  | freezeDone (tile : Nat)
  | fzpcStop (tile n : Nat)
  | sliceRetry (wave lane : Nat)
  -- control space
  | worldConfigWrite (tile off : Nat) (value : W64)
  | arrayZeroingDone (tile : Nat)
  | registerWrite (addr value : W64)
  -- host devices
  | functionLevelReset (port world : Nat)
  | launchFile (port : Nat) (q : FnReq) (path : List Byte) (threads waves teams : W32) (prio : Byte)
  | launchRecord (port : Nat) (q : FnReq) (record : BitVec 2048)
  | takeConfig (r : HostReq)
  | giveConfig (r : HostReq)
  | create (r : HostReq) (world : W32)
  | destroy (r : HostReq) (world : W32)
  | grant (r : HostReq) (world : W32) (base length : W64)
  | revoke (r : HostReq) (world : W32) (base length : W64)
  | bind (r : HostReq) (world target : W32)
  | thresholds (r : HostReq) (world mask doldrums : W32) (cold : BitVec 16) (high low : Byte)
  | auth (r : HostReq) (world : W32) (authority : BitVec 16)
  | key (r : HostReq) (world : W32) (index mode : Byte) (ciphertext : List Byte) (wrapped : BitVec 256)
  | residencyQuery (r : HostReq) (ctx : Nat)
  | residencyReset (r : HostReq) (ctx : Nat)
  | pin (r : HostReq) (ctx : Nat) (name : W128) (offset length : W64)
  | evict (r : HostReq) (ctx : Nat) (name : W128) (offset length : W64)
  | attest (port : Nat) (q : FnReq) (nonce : BitVec 256)
  | queueNotify (port fn : Nat) (m : QueueMessage)
  | fileCreate (port fn : Nat) (id : W64) (path : List Byte) (tensors : List TensorMark)
  | fileWrite (r : HostReq) (ctx : Nat) (obj : W64) (offset : Nat) (bytes : List Byte) (close : Bool)
  | fileUnlink (r : HostReq) (ctx : Nat) (obj : W64)
  | fuseSetupmapping (r : HostReq) (file : ObjectFile) (offset length place : Nat)
  | fuseRemovemapping (port fn : Nat) (id : W64) (place length : Nat)
  | daxAccess (port fn : Nat) (id : W64) (place size : Nat) (bytes : Option (List Byte))
  -- the fabric
  | replyReceive (p : Packet)
  | readPacket (p : Packet)
  | writePacket (p : Packet)
  | atomicPacket (p : Packet)
  | xaPacket (p : Packet)
  | rstfPacket (p : Packet)
  | grantPacket (p : Packet)
  | recallPacket (p : Packet)
  | pagePacket (p : Packet)
  | teamPacket (p : Packet)
  | advertPacket (p : Packet)
  | launchPacket (p : Packet)
  | commitPacket (p : Packet)
  | abortPacket (p : Packet)
  | launchAnswerTimeout (launch package : Nat)
  | managerPacket (p : Packet)
  | managerElection (reachable : List Nat)
  | routeCompute (tables : List (Nat × List (Nat × BitVec 128)))
  | packetForward (port : Nat) (p : Packet)
  | outputGrant (port : Nat)
  | requestResend (dst tier : Nat) (seq : BitVec 16)
  | frameReceive (port : Nat) (fr : Frame)
  | frameClose (port : Nat)
  | nakResend (port : Nat) (aseq : W64)
  -- bring-up, power and errors
  | softError (array : SoftArray) (place : Nat) (bits : Nat)
  | memoryReply (wave lane : Nat)
  | restoreDone (tile : Nat)
  | contextCreate (world ctx : Nat) (places : ContextPlaces)
  | contextDestroy (ctx : Nat)
  -- rows that no other operation makes
  | heartbeat
  | overtemperature
  | replicaChange
  | powerOn (image signature : List Byte) (goodTiles : List Nat)
  | recoveryUpload (port : Nat) (u : Upload) (goodTiles : List Nat)
  | thermalThrottle (die : Nat)
  | d2dLinkTraining (die : Nat) (answer : BitVec 512)
  | isrStatusRead (port fn : Nat)
  | refusedRead (tile : Nat)
  | portLinkDown (port : Nat)
  | deviceFunctionReset (port fn : Nat)
  | featuresOk (port fn : Nat) (features : W64)
  | linkTraining (port : Nat) (versions : Versions) (other : LinkEnd)
  | linkDown (port : Nat)
  | linkHandshake (port : Nat) (certificate kem signature : List Byte)
  | linkRekey (port : Nat) (peer : Handshake)
  | retentionEntry (tile : Nat)
  deriving DecidableEq, Repr

end Sys2Proof
end

