-- ==== Sys2Proof/Machine/Operands.lean ====
section
/-! DEFINITION. The codes of the fields (R56 to R58), the operand columns of the encoding tables (R51, R103, R127, R141, R171,
R198) and the rule each operation's word must meet before it may execute (R61). -/

namespace Sys2Proof

/-! ## Field codes -/

/-- The 4-bit code of R56. -/
def Ty.code : Ty → BitVec 4
  | .b32 => 0x0 | .b8 => 0x1 | .b16 => 0x2 | .b64 => 0x3 | .b128 => 0x4 | .u32 => 0x5 | .s32 => 0x6 | .u64 => 0x7
  | .s64 => 0x8 | .f16 => 0x9 | .bf16 => 0xA | .f32 => 0xB | .f64 => 0xC | .f16x2 => 0xD | .gf8 => 0xE | .d8 => 0xF

/-- R56 read the other way; every code is a type. -/
def Ty.ofCode (c : BitVec 4) : Ty :=
  match c.toNat with
  | 0x0 => .b32 | 0x1 => .b8 | 0x2 => .b16 | 0x3 => .b64 | 0x4 => .b128 | 0x5 => .u32 | 0x6 => .s32 | 0x7 => .u64
  | 0x8 => .s64 | 0x9 => .f16 | 0xA => .bf16 | 0xB => .f32 | 0xC => .f64 | 0xD => .f16x2 | 0xE => .gf8 | _ => .d8

/-- The 3-bit code of R57. -/
def Rnd.code : Rnd → BitVec 3
  | .rne => 0 | .rtz => 1 | .rup => 2 | .rdn => 3 | .rna => 4 | .sr => 5

/-- R57; the reserved codes are refused. -/
def Rnd.ofCode (c : BitVec 3) : Option Rnd :=
  match c.toNat with
  | 0 => some .rne | 1 => some .rtz | 2 => some .rup | 3 => some .rdn | 4 => some .rna | 5 => some .sr | _ => none

/-- The 3-bit scope code of R58. -/
def Scope.code : Scope → BitVec 3
  | .wave => 0 | .team => 1 | .cluster => 2 | .die => 3 | .dev => 4 | .fabric => 5

/-- R58; the reserved codes are refused. -/
def Scope.ofCode (c : BitVec 3) : Option Scope :=
  match c.toNat with
  | 0 => some .wave | 1 => some .team | 2 => some .cluster | 3 => some .die | 4 => some .dev | 5 => some .fabric
  | _ => none

/-- The 3-bit order code of R58. -/
def Ord.code : Ord → BitVec 3
  | .rlx => 0 | .acq => 1 | .rel => 2 | .acqrel => 3

/-- R58; the reserved codes are refused. -/
def Ord.ofCode (c : BitVec 3) : Option Ord :=
  match c.toNat with
  | 0 => some .rlx | 1 => some .acq | 2 => some .rel | 3 => some .acqrel | _ => none

/-- The 2-bit hint code of R58. -/
def Hint.code : Hint → BitVec 2
  | .none => 0 | .keep => 1 | .evict => 2 | .bypass => 3

/-- R58; every hint code is allocated. -/
def Hint.ofCode (c : BitVec 2) : Hint :=
  match c.toNat with
  | 0 => .none | 1 => .keep | 2 => .evict | _ => .bypass

/-- Bits of one element of the type (R74). -/
def Ty.bits : Ty → Nat
  | .b8 | .gf8 | .d8 => 8
  | .b16 | .f16 | .bf16 => 16
  | .b32 | .u32 | .s32 | .f32 | .f16x2 => 32
  | .b64 | .u64 | .s64 | .f64 => 64
  | .b128 => 128

/-- Bytes of one element (R173). -/
def Ty.bytes (t : Ty) : Nat := t.bits / 8

/-- The signed integer types. -/
def Ty.signed : Ty → Bool
  | .s32 | .s64 => true
  | _ => false

/-- The integer types of R138. -/
def Ty.isInt : Ty → Bool
  | .u32 | .s32 | .u64 | .s64 => true
  | _ => false

/-- The float types of R138. -/
def Ty.isFloat : Ty → Bool
  | .f16 | .bf16 | .f32 | .f64 | .gf8 | .d8 => true
  | _ => false

/-- Trap codes of R39. -/
def TrapKind.code : TrapKind → W32
  | .illegal => 0xFFFF0001 | .target => 0xFFFF0002 | .parity => 0xFFFF0003 | .misalign => 0xFFFF0004
  | .xlate => 0xFFFF0005 | .protect => 0xFFFF0006 | .stray => 0xFFFF0007 | .unnameable => 0xFFFF0008
  | .noname => 0xFFFF0009 | .sealed => 0xFFFF000A | .partialMask => 0xFFFF000B | .token => 0xFFFF000C
  | .backing => 0xFFFF000D | .budget => 0xFFFF000E | .world => 0xFFFF000F | .bindfail => 0xFFFF0010
  | .poison => 0xFFFF0011

/-- The traps in ascending order of code (R176). -/
def TrapKind.all : List TrapKind :=
  [.illegal, .target, .parity, .misalign, .xlate, .protect, .stray, .unnameable, .noname, .sealed, .partialMask, .token,
   .backing, .budget, .world, .bindfail, .poison]

/-- The trap a code names (R39), none where the hardware raises no such code. -/
def TrapKind.ofCode (c : W32) : Option TrapKind := TrapKind.all.find? (fun k => k.code == c)

/-! ## Operands -/

/-- What a register field names once type, S and SK are known (R51). -/
inductive OpKind where
  | none | v | d | q | s | sd | p | lvl | imm
  deriving DecidableEq, Repr

/-- The operand columns of the encoding tables. -/
inductive Col where
  | none | r | w | v | d | q | s | sd | p | lvl | imm
  deriving DecidableEq, Repr

/-- A register field and what it names. -/
structure Opnd where
  kind : OpKind
  num : BitVec 10
  deriving DecidableEq, Repr

/-- The register a column stands for under a type, with S or the field's SK bit set (`scalar`) or not (R102, R125). -/
def Col.resolve (c : Col) (t : Ty) (scalar : Bool) : OpKind :=
  match c with
  | .none => .none
  | .r => if t.bits = 128 then .q else if t.bits = 64 then (if scalar then .sd else .d) else (if scalar then .s else .v)
  | .w => if scalar then .s else .v
  | .v => if scalar then .s else .v
  | .d => if scalar then .sd else .d
  | .q => .q
  | .s => .s
  | .sd => .sd
  | .p => .p
  | .lvl => .lvl
  | .imm => .imm

/-- Columns whose source an SK bit may mark as scalar (R55, R102). DESIGN CHOICE (log 71): the `v` of `shp`'s source in R103, a letter that
R102 does not define, is a vector register only, so that SKA = 1 is ILLEGAL there. -/
def Col.markable : Col → Bool
  | .r | .w => true
  | _ => false

/-- Whether a field's value is legal for what it names (R51). -/
def Opnd.legal (o : Opnd) : Bool :=
  match o.kind with
  | .none => o.num == 0
  | .v => true
  | .d => o.num.toNat % 2 == 0
  | .q => o.num.toNat % 4 == 0
  | .s => o.num.toNat < 128
  | .sd => o.num.toNat < 128 && o.num.toNat % 2 == 0
  | .p | .lvl => o.num.toNat < 16
  | .imm => true

/-- The register files. -/
inductive RegFile where
  | vec | scal | pred
  deriving DecidableEq, Repr

/-- A run of registers of one file. -/
structure RegRange where
  file : RegFile
  first : Nat
  count : Nat
  deriving DecidableEq, Repr

/-- The registers an operand names. -/
def Opnd.ranges (o : Opnd) : List RegRange :=
  match o.kind with
  | .v => [⟨.vec, o.num.toNat, 1⟩]
  | .d => [⟨.vec, o.num.toNat, 2⟩]
  | .q => [⟨.vec, o.num.toNat, 4⟩]
  | .s => [⟨.scal, o.num.toNat, 1⟩]
  | .sd => [⟨.scal, o.num.toNat, 2⟩]
  | .p => [⟨.pred, o.num.toNat, 1⟩]
  | _ => []

/-- Registers an operand kind names. -/
def OpKind.words : OpKind → Nat
  | .v => 1 | .d => 2 | .q => 4 | .s => 1 | .sd => 2 | _ => 0

/-- Whether two ranges share a register. -/
def RegRange.meets (a b : RegRange) : Bool :=
  a.file == b.file && decide (a.first < b.first + b.count) && decide (b.first < a.first + a.count)

/-- What an operation's word names: its header fields, its four register fields, further runs of registers, and further runs that it only
writes. -/
structure Shape where
  hd : Hd
  d : Opnd
  a : Opnd
  b : Opnd
  c : Opnd
  more : List RegRange
  made : List RegRange
  deriving DecidableEq, Repr

/-- Every register the word names (R14), its guard's predicate included (R52). -/
def Shape.ranges (sh : Shape) : List RegRange :=
  ⟨.pred, sh.hd.pg.toNat, 1⟩ :: (sh.d.ranges ++ sh.a.ranges ++ sh.b.ranges ++ sh.c.ranges ++ sh.more ++ sh.made)

/-- Registers the word's sources name, with its further runs. -/
def Shape.reads (sh : Shape) : List RegRange := sh.a.ranges ++ sh.b.ranges ++ sh.c.ranges ++ sh.more

/-- Whether H names a vector register that is a source (R54). `top` is the highest H the operation admits. -/
def Shape.holdOk (sh : Shape) (top : Nat) : Bool :=
  let isVec (o : Opnd) : Bool := o.kind == .v || o.kind == .d || o.kind == .q
  match sh.hd.h.toNat with
  | 0 => true
  | 1 => isVec sh.a && 1 ≤ top
  | 2 => isVec sh.b && 2 ≤ top
  | _ => isVec sh.c && 3 ≤ top

/-- What makes a word illegal (R61). -/
inductive Illegal where
  | unallocated | reservedBit | registerField | typeCode | rounding | saturation | scopeOrder | scalarForm | lookahead
  | hold | sourceKind | subCode | modifier
  deriving DecidableEq, Repr

/-- The parts of R61 for one word: each field says whether that part holds. -/
structure Rule where
  shape : Shape
  scalarOk : Bool
  laOk : Bool
  tyOk : Bool
  rndOk : Bool
  satOk : Bool
  skOk : Bool
  subOk : Bool
  scopeOk : Bool
  modOk : Bool
  holdTop : Nat := 3

/-- The first part of R61 that fails. -/
def Rule.check (r : Rule) : Option Illegal :=
  if !(r.shape.d.legal && r.shape.a.legal && r.shape.b.legal && r.shape.c.legal) then some .registerField
  else if !r.tyOk then some .typeCode
  else if !r.rndOk then some .rounding
  else if !r.subOk then some .subCode
  else if !r.scopeOk then some .scopeOrder
  else if r.shape.hd.s && !r.scalarOk then some .scalarForm
  else if r.shape.hd.la != 0 && !r.laOk then some .lookahead
  else if !r.shape.holdOk r.holdTop then some .hold
  else if !r.satOk then some .saturation
  else if !r.skOk then some .sourceKind
  else if !r.modOk then some .modifier
  else none

/-! ## Rules of the formats -/

/-- What an entry of a format V table accepts beyond its operands. -/
structure VOpts where
  scalar : Bool := false
  la : Bool := false
  rnds : List Rnd := [.rne]
  sat : Bool := false
  sk : Bool := true
  sub : Bool := false

/-- The shape of a format V word with the given columns. -/
def VForm.shape (f : VForm) (d a b c : Col) : Shape :=
  ⟨f.hd, ⟨d.resolve f.ty f.hd.s, f.d⟩, ⟨a.resolve f.ty (f.hd.s || f.ska), f.a⟩, ⟨b.resolve f.ty (f.hd.s || f.skb), f.b⟩,
   ⟨c.resolve f.ty (f.hd.s || f.skc), f.c⟩, [], []⟩

/-- A format V word against its table entry (R102, R103, R125, R127). -/
def VForm.rule (f : VForm) (tys : List Ty) (d a b c : Col) (o : VOpts) : Rule :=
  { shape := f.shape d a b c
    scalarOk := o.scalar, laOk := o.la
    tyOk := tys.contains f.ty
    rndOk := o.rnds.contains f.rnd
    satOk := !f.sat || o.sat
    skOk := (!f.ska || (o.sk && a.markable && !f.hd.s)) && (!f.skb || (o.sk && b.markable && !f.hd.s)) &&
            (!f.skc || (o.sk && c.markable && !f.hd.s))
    subOk := f.sub == 0 || o.sub
    scopeOk := true, modOk := true }

/-- The shape of a format I word. -/
def IForm.shape (f : IForm) (d a : Col) : Shape :=
  ⟨f.hd, ⟨d.resolve f.ty f.hd.s, f.d⟩, ⟨a.resolve f.ty (f.hd.s || f.ska), f.a⟩, ⟨.none, 0⟩, ⟨.none, 0⟩, [], []⟩

/-- A format I word against its table entry. -/
def IForm.rule (f : IForm) (tys : List Ty) (d a : Col) (o : VOpts) : Rule :=
  { shape := f.shape d a
    scalarOk := o.scalar, laOk := false
    tyOk := tys.contains f.ty
    rndOk := o.rnds.contains f.rnd
    satOk := !f.sat || o.sat
    skOk := !f.ska || (a.markable && !f.hd.s)
    subOk := true
    scopeOk := true, modOk := f.imod == 0 }

/-- The shape of a format M word. -/
def MForm.shape (f : MForm) (d a b c : Col) : Shape :=
  ⟨f.hd, ⟨d.resolve f.wt f.hd.s, f.d⟩, ⟨a.resolve f.wt f.hd.s, f.a⟩, ⟨b.resolve f.wt f.hd.s, f.b⟩,
   ⟨c.resolve f.wt f.hd.s, f.c⟩, [], []⟩

/-- A format M word against its table entry (R171). -/
def MForm.rule (f : MForm) (tys : List Ty) (d a b c : Col) (ords : List Ord) (scopes : List Scope) (scalar la : Bool)
    (modOk : Bool := true) : Rule :=
  { shape := f.shape d a b c
    scalarOk := scalar, laOk := la
    tyOk := tys.contains f.wt
    rndOk := true, satOk := true, skOk := true, subOk := true
    scopeOk := ords.contains f.ord && scopes.contains f.scope
    modOk := modOk }

/-- The shape of an M-op word. -/
def MopForm.shape (f : MopForm) (d a b c : Col) : Shape :=
  ⟨f.hd, ⟨d.resolve f.wt f.hd.s, f.d⟩, ⟨a.resolve f.wt f.hd.s, f.a⟩, ⟨b.resolve f.wt f.hd.s, f.b⟩,
   ⟨c.resolve f.wt f.hd.s, f.c⟩, [], []⟩

/-- An M-op word against its table entry (R171, R172). -/
def MopForm.rule (f : MopForm) (tyOk : Bool) (d a b c : Col) (ords : List Ord) (scopes : List Scope) (scalar la : Bool)
    (modOk : Bool := true) : Rule :=
  { shape := f.shape d a b c
    scalarOk := scalar, laOk := la
    tyOk := tyOk
    rndOk := true, satOk := true, skOk := true, subOk := true
    scopeOk := ords.contains f.ord && scopes.contains f.scope
    modOk := modOk }

/-- A format E word against its table entry (R198, R199). -/
def EForm.rule (f : EForm) (d a b c : Col) (more : List RegRange) (la modOk : Bool) (made : List RegRange := []) : Rule :=
  { shape := ⟨f.hd, ⟨d.resolve .b32 false, f.d⟩, ⟨a.resolve .b64 false, f.a⟩, ⟨b.resolve .b64 false, f.b⟩,
              ⟨c.resolve .b64 false, f.c⟩, more, made⟩
    scalarOk := false, laOk := la, tyOk := true, rndOk := true, satOk := true, skOk := true, subOk := true
    scopeOk := true, modOk := modOk }

/-- A rule for a word with the given shape whose format has no further codes (J and Y). -/
def Shape.plainRule (sh : Shape) (modOk : Bool := true) : Rule :=
  { shape := sh, scalarOk := false, laOk := false, tyOk := true, rndOk := true, satOk := true, skOk := true, subOk := true
    scopeOk := true, modOk := modOk }

/-! ## Fields of EMOD and of IMM -/

/-- STYPE of a copy (R199). -/
def EForm.stype (f : EForm) : BitVec 4 := f.emod.extractLsb' 0 4
/-- SCL of a copy. -/
def EForm.scl (f : EForm) : Bool := f.emod.getLsbD 4
/-- BAR of a copy. -/
def EForm.barLevel (f : EForm) : Nat := (f.emod.extractLsb' 5 3).toNat
/-- CB of a copy. -/
def EForm.cb (f : EForm) : Bool := f.emod.getLsbD 8
/-- CBN of a copy. -/
def EForm.cbn (f : EForm) : Nat := (f.emod.extractLsb' 9 4).toNat
/-- ATYPE of a matrix instruction. -/
def EForm.atype (f : EForm) : Ty := Ty.ofCode (f.emod.extractLsb' 0 4)
/-- BTYPE of a matrix instruction. -/
def EForm.btype (f : EForm) : Ty := Ty.ofCode (f.emod.extractLsb' 4 4)
/-- ZERO of a matrix instruction. -/
def EForm.zero (f : EForm) : Bool := f.emod.getLsbD 8
/-- HOLD of a matrix instruction. -/
def EForm.hold (f : EForm) : Bool := f.emod.getLsbD 9
/-- ONE of `cwait`. -/
def EForm.one (f : EForm) : Bool := f.emod.getLsbD 0

/-- STYPE codes a copy accepts (R199). -/
def stypeOk (c : BitVec 4) : Bool :=
  c == 0x0 || c == 0x9 || c == 0xA || c == 0xB || c == 0xC || c == 0xE || c == 0xF

/-- The modifiers of a copy (R199): `cpyw` has BAR 0 and no circular buffer. -/
def copyModOk (f : EForm) (isWrite : Bool) : Bool :=
  stypeOk f.stype && f.emod.extractLsb' 13 5 == 0 && (f.cb || f.cbn == 0) &&
  (!isWrite || (f.barLevel == 0 && !f.cb))

/-- K of a pair of operand types, none where R211 accepts no such pair. -/
def mmaK (a b : Ty) : Option Nat :=
  match a, b with
  | .d8, .gf8 => some 128
  | .gf8, .gf8 => some 64
  | .bf16, .bf16 => some 32
  | .f16, .f16 => some 32
  | .f32, .f32 => some 4
  | .f64, .f64 => some 2
  | _, _ => none

/-- The accumulator registers of a matrix instruction (R211). -/
def mmaAcc (f : EForm) : RegRange := ⟨.vec, f.d.toNat, if f.atype = .f64 then 64 else 32⟩

/-- The accumulator registers where they are read, and where ZERO makes the product replace them (R211). -/
def mmaRead (f : EForm) : List RegRange := if f.zero then [] else [mmaAcc f]
def mmaMade (f : EForm) : List RegRange := if f.zero then [mmaAcc f] else []

/-- The modifiers of a matrix instruction (R199, R211, R214). -/
def mmaModOk (f : EForm) (sparse : Bool) : Bool :=
  f.emod.extractLsb' 10 8 == 0 && (mmaK f.atype f.btype).isSome && f.tid == 0 &&
  (!sparse || (f.atype != .f32 && f.atype != .f64)) && (f.atype != .f64 || f.d.toNat % 2 == 0)

/-- The special register an IMM names with the type it takes and whether S = 1 is accepted (R122). -/
def specialOf (imm : W32) : Option (Ty × Bool) :=
  let n := imm.toNat
  if n = 0x00 ∨ n = 0x10 then some (.b32, false)
  else if 0x11 ≤ n ∧ n ≤ 0x17 then some (.b32, true)
  else if n = 0x20 ∨ n = 0x21 ∨ n = 0x22 ∨ n = 0x23 ∨ n = 0x30 then some (.b32, true)
  else if n = 0x40 then some (.b64, true)
  else none

/-- The types each operation of `atom` and `red` accepts (R187). -/
def atomTypes (opc : Nat) : List Ty :=
  match opc with
  | 0 => [.b32, .b64]
  | 1 => [.u32, .s32, .u64, .s64, .f32, .f64, .f16x2]
  | 2 | 3 => [.u32, .s32, .u64, .s64, .f32, .f64]
  | 4 | 5 | 6 => [.b32, .b64]
  | 7 | 8 => [.u32]
  | _ => []

/-- The pairs of types `cvt` accepts, with their rounding and saturation (R138). DEDUCED (log 70): under `.sr` a B field of zero names `v0`
(R51); no word lacks a B. -/
def cvtOk (f : VForm) : Bool :=
  let s := Ty.ofCode f.sub
  let d := f.ty
  if d.isFloat && s.isFloat then
    !f.sat && (f.rnd != .sr || ((d == .f16 || d == .bf16 || d == .gf8 || d == .d8) && (s == .f32 || s == .f64)))
  else if d.isFloat && s.isInt then !f.sat && f.rnd != .sr
  else if d.isInt && s.isFloat then !f.sat && f.rnd != .sr
  else if d.isInt && s.isInt then d != s && f.rnd == .rne
  else false

/-! ## Type lists -/

/-- The types of `iadd`. -/
def tysInt : List Ty := [.u32, .s32, .u64, .s64]
/-- `.b32` and `.b64`. -/
def tysBit : List Ty := [.b32, .b64]
/-- The types of `fadd`. -/
def tysF : List Ty := [.f16, .bf16, .f32, .f64, .f16x2]
/-- The types of `fcmp`. -/
def tysFs : List Ty := [.f16, .bf16, .f32, .f64]
/-- The types of the class 0x3 functions. -/
def tysFn : List Ty := [.f16, .f32, .f64]
/-- The types of `ld` and `st`. -/
def tysMem : List Ty := [.b8, .b16, .b32, .b64, .b128]
/-- The roundings "five" of R127. -/
def rnd5 : List Rnd := [.rne, .rtz, .rup, .rdn, .rna]
/-- All six scopes. -/
def scopes6 : List Scope := [.wave, .team, .cluster, .die, .dev, .fabric]
/-- The scopes of flagged stores and exact accumulators (R171). -/
def scopesFar : List Scope := [.dev, .fabric]

/-- An immediate of a floating-point form (R126): a 16-bit type leaves the top half zero. -/
def fimmOk (f : IForm) : Bool := (f.ty != .f16 && f.ty != .bf16) || f.imm.extractLsb' 16 16 == 0

/-- The header of a row that has no word. -/
def Hd.blank : Hd := ⟨0, false, false, 0, 0⟩

/-- The shape of a row that has no operands. -/
def Shape.blank : Shape := ⟨Hd.blank, ⟨.none, 0⟩, ⟨.none, 0⟩, ⟨.none, 0⟩, ⟨.none, 0⟩, [], []⟩

/-- The format V control words of R141, where no SK bit is accepted. -/
def VForm.ctl (f : VForm) (tys : List Ty) (d a : Col) : Rule := f.rule tys d a .none .none { sk := false }

/-- A floating-point immediate form (R126, R127). -/
def IForm.fimm (f : IForm) (tys : List Ty) (d : Col) (o : VOpts) : Rule :=
  { f.rule tys d .r o with modOk := f.imod == 0 && fimmOk f }

/-- A comparison in immediate form: the condition in IMOD[3:0] (R69). -/
def IForm.cmp (f : IForm) (tys : List Ty) (ok : BitVec 4 → Bool) (imm : Bool) : Rule :=
  { f.rule tys .p .r {} with modOk := f.imod.extractLsb' 4 9 == 0 && ok (f.imod.extractLsb' 0 4) && imm }

/-- The conditions of `icmp` (R109). -/
def icmpOk (t : Ty) (c : BitVec 4) : Bool := c.toNat < (if t = .b32 ∨ t = .b64 then 2 else 6)

/-- The conditions of `fcmp` (R133). -/
def fcmpOk (c : BitVec 4) : Bool := c.toNat < 14

/-- What R61 asks of each operation's word: the encoding tables R103, R127, R141, R171 and R198, row by row. Rows that have
no word have the blank shape and nothing to meet. -/
def Instr.rule : Instr → Rule
  | .iadd f | .isub f | .imul f => f.rule tysInt .r .r .r .none { scalar := true, sat := true }
  | .iaddImm f | .isubImm f | .imulImm f => f.rule tysInt .r .r { scalar := true, sat := true }
  | .imad f | .iadd3 f => f.rule tysInt .r .r .r .r { scalar := true, sat := true }
  | .imulhi f | .imin f | .imax f => f.rule tysInt .r .r .r .none { scalar := true }
  | .iminImm f | .imaxImm f => f.rule tysInt .r .r { scalar := true }
  | .idiv f | .irem f => f.rule tysInt .r .r .r .none { scalar := true, la := true }
  | .iabs f => f.rule [.s32, .s64] .r .r .none .none { scalar := true, sat := true }
  | .ineg f => f.rule tysInt .r .r .none .none { scalar := true, sat := f.ty.signed }
  | .iaddc f => f.rule [.u32, .u64] .r .r .r .p { scalar := true }
  | .lea f => f.rule [.u32, .u64, .s64] .r .r .w .w { scalar := true }
  | .icmp f => { f.rule (tysInt ++ tysBit) .p .r .r .none { sub := true } with subOk := icmpOk f.ty f.sub }
  | .icmpImm f => f.cmp (tysInt ++ tysBit) (icmpOk f.ty) true
  | .isel f => f.rule tysBit .r .r .r .p {}
  | .and f | .or f | .xor f => f.rule tysBit .r .r .r .none { scalar := true }
  | .andImm f | .orImm f | .xorImm f => f.rule tysBit .r .r { scalar := true }
  | .not f | .brev f => f.rule tysBit .r .r .none .none { scalar := true }
  | .lop3 f =>
    { shape := ⟨f.hd, ⟨Col.resolve .r f.ty f.hd.s, f.d⟩, ⟨Col.resolve .r f.ty (f.hd.s || f.ska), f.a⟩,
                ⟨Col.resolve .r f.ty f.hd.s, f.b⟩, ⟨Col.resolve .r f.ty f.hd.s, f.c⟩, [], []⟩
      scalarOk := true, laOk := false, tyOk := f.ty == .b32, rndOk := f.rnd == .rne, satOk := !f.sat
      skOk := !f.ska || !f.hd.s, subOk := true, scopeOk := true, modOk := true, holdTop := 1 }
  | .shl f | .shr f | .rot f => f.rule tysBit .r .r .w .none { scalar := true }
  | .shlImm f | .shrImm f | .rotImm f => f.rule tysBit .r .r { scalar := true }
  | .sar f => f.rule [.s32, .s64] .r .r .w .none { scalar := true }
  | .sarImm f => f.rule [.s32, .s64] .r .r { scalar := true }
  | .bfe f => f.rule tysInt .r .r .w .none { scalar := true }
  | .bfi f => f.rule tysBit .r .r .r .w { scalar := true }
  | .popc f | .clz f => f.rule tysBit .w .r .none .none { scalar := true }
  | .fadd f | .fsub f | .fmul f => f.rule tysF .r .r .r .none { scalar := true, rnds := rnd5 }
  | .faddImm f | .fsubImm f | .fmulImm f => f.fimm tysF .r { scalar := true, rnds := rnd5 }
  | .ffma f => f.rule tysF .r .r .r .r { scalar := true, rnds := rnd5 }
  | .fmin f | .fmax f => f.rule tysF .r .r .r .none { scalar := true }
  | .fminImm f | .fmaxImm f => f.fimm tysF .r { scalar := true }
  | .fabs f | .fneg f => f.rule tysF .r .r .none .none { scalar := true }
  | .fcmp f => { f.rule tysFs .p .r .r .none { sub := true } with subOk := fcmpOk f.sub }
  | .fcmpImm f => f.cmp tysFs fcmpOk (fimmOk f)
  | .fclass f => f.rule tysFs .w .r .none .none {}
  | .fscale f => f.rule tysFs .r .r .w .none { rnds := rnd5 }
  | .frnd f => f.rule tysF .r .r .none .none { rnds := rnd5 }
  | .fdiv f => f.rule tysFn .r .r .r .none { la := true, rnds := rnd5 }
  | .fsqrt f => f.rule tysFn .r .r .none .none { la := true, rnds := rnd5 }
  | .frcp f | .frsq f | .fex2 f | .flg2 f | .fsin f | .fcos f => f.rule tysFn .r .r .none .none { la := true }
  | .mov f =>
    let r := f.rule [.b32, .b64, .b128] .r .r .none .none { scalar := true }
    { r with scalarOk := f.ty != .b128, skOk := r.skOk && (!f.ska || f.ty != .b128) }
  | .movi f => f.rule [.b32, .u32, .s32, .f32, .b64, .u64, .s64] .r .none { scalar := true }
  | .cvt f =>
    { shape := ⟨f.hd, ⟨Col.resolve .r f.ty f.hd.s, f.d⟩, ⟨Col.resolve .r (Ty.ofCode f.sub) (f.hd.s || f.ska), f.a⟩,
                ⟨Col.resolve (if f.rnd = .sr then .w else .none) .b32 (f.hd.s || f.skb), f.b⟩, ⟨.none, f.c⟩, [], []⟩
      scalarOk := true, laOk := false, tyOk := cvtOk f, rndOk := true, satOk := true
      skOk := (!f.ska || !f.hd.s) && (!f.skb || (f.rnd == .sr && !f.hd.s)) && !f.skc
      subOk := true, scopeOk := true, modOk := true }
  | .shuf f | .bcast f => f.rule tysBit .r .r .w .none {}
  | .vote f | .pnot f | .pmov f => f.rule [.b32] .p .p .none .none {}
  | .ballot f => f.rule [.b32, .b64, .b128] .r .p .none .none {}
  | .shp f => f.rule [.b32] .v .v .none .none {}
  | .rdsr f =>
    { f.rule [.b32, .b64] .r .none {} with
      scalarOk := (specialOf f.imm).any (·.2)
      tyOk := (specialOf f.imm).any (fun x => x.1 == f.ty)
      modOk := f.imod.extractLsb' 1 12 == 0 && (!f.imod.getLsbD 0 || f.imm == 0x30) }
  | .pand f | .por f | .pxor f => f.rule [.b32] .p .p .p .none {}
  | .bra f => Shape.plainRule ⟨f.hd, ⟨.none, f.d⟩, ⟨.none, 0⟩, ⟨.none, 0⟩, ⟨.none, 0⟩, [], []⟩
  | .call f => Shape.plainRule ⟨f.hd, ⟨.d, f.d⟩, ⟨.none, 0⟩, ⟨.none, 0⟩, ⟨.none, 0⟩, [], []⟩
  | .brx f | .ret f => f.ctl [.b32] .none .d
  | .callx f => f.ctl [.b32] .d .d
  | .join f => f.ctl [.b32, .b64, .b128] .none .r
  | .yield f | .exit f => f.ctl [.b32] .none .none
  | .hpush f => Shape.plainRule ⟨f.hd, ⟨.s, f.mreg⟩, ⟨.none, 0⟩, ⟨.none, 0⟩, ⟨.none, 0⟩, [], []⟩
  | .hpop f => f.ctl [.b64, .b128] .none .r
  | .perf f =>
    Shape.plainRule ⟨f.hd, ⟨.q, f.pay⟩, ⟨if f.rn then .s else .none, f.nreg⟩, ⟨.none, 0⟩, ⟨.none, 0⟩, [⟨.vec, 0, f.k.toNat⟩], []⟩
      (f.k.toNat ≤ 1024 && (!f.rn || f.name == 0) &&
       (f.rn || !(f.name == 0xFFFF0000 || (0xFFFF0012 : W32).toNat ≤ f.name.toNat)))
  | .resumet f | .dropt f => f.ctl [.b32] .none .d
  | .resumec f | .resumek f => f.ctl [.b32] .d .d
  | .tinfo f => f.ctl [.b32] .q .d
  | .trap f =>
    Shape.plainRule ⟨f.hd, ⟨.none, f.d⟩, ⟨.none, f.a⟩, ⟨.none, f.b⟩, ⟨.none, f.c⟩, [], []⟩ (TrapKind.ofCode f.name).isSome
  | .ld f => f.rule tysMem .r .d .none .none [.rlx, .acq] scopes6 (f.wt != .b128) true
  | .st f => f.rule tysMem .none .d .r .none [.rlx, .rel] scopes6 (f.wt != .b128) true
  | .ldp f => f.rule [.b128] .d .d .none .none [.rlx, .acq] scopes6 false true
  | .stp f => f.rule [.b128] .none .d .d .none [.rlx, .rel] scopes6 false true
  | .ldt f => f.rule [.b8, .b16, .b32, .b64] .r .d .q .v [.rlx, .acq] scopes6 false true (f.off == 0)
  | .pref f => f.rule [.b32] .none .d .none .none [.rlx] [.dev] false false
  | .nameof f => f.rule [.b128] .q .d .none .none { la := true, sk := false }
  | .ptreq f => f.rule [.b64, .b128] .p .r .r .none { sk := false }
  | .atom f => f.rule ((atomTypes f.opc.toNat).contains f.wt) .r .d .r .none [.rlx, .acq, .rel, .acqrel] scopes6 true true
  | .atomc f => f.rule [.b32, .b64, .b128] .r .d .r .r [.rlx, .acq, .rel, .acqrel] scopes6 false true
  | .red f => f.rule ((atomTypes f.opc.toNat).contains f.wt) .none .d .r .none [.rlx, .rel] scopes6 false true
  | .rstf f => f.rule [.b32, .b64] .none .d .r .d [.rlx, .rel] scopesFar false true
  | .exadd f => f.rule [.f64] .none .d .d .none [.rlx, .rel] scopesFar false true
  | .exclr f => f.rule [.b32] .none .d .none .none [.rlx, .rel] scopesFar false true
  | .exrnd f => f.rule (f.wt == .f64) .d .d .none .none [.rlx, .acq] scopesFar false true (f.opc.toNat < 5)
  | .fence f => f.rule [.b32] .none .none .none .none [.acq, .rel, .acqrel] scopes6 false false (f.off == 0 && f.hint == .none)
  | .bar f | .barw f => { f.ctl [.b32] .lvl .none with modOk := 1 ≤ f.d.toNat && f.d.toNat ≤ 7 }
  | .bara f =>
    { f.rule [.b32] .lvl .none (if f.skb then .s else .none) .none {} with
      skOk := !f.ska && !f.skc, modOk := 1 ≤ f.d.toNat && f.d.toNat ≤ 7 }
  | .cbdef f => { f.rule [.b32] .lvl .sd .sd .sd {} with skOk := f.ska && f.skb && f.skc }
  | .cbacq f => { f.rule [.b32] .d .sd .none .none {} with skOk := f.ska && !f.skb && !f.skc }
  | .cbrel f => { f.rule [.b32] .none .sd .none .none {} with skOk := f.ska && !f.skb && !f.skc }
  | .waitp f => f.rule [.u64] .none .d .d .none [.acq] scopes6 false false
  | .icinv f => f.rule [.b32] .none .d .none .none [.rlx] [.team, .cluster, .die, .dev] false false
  | .ifence f => f.ctl [.b32] .none .none
  | .cpy f | .cpym f =>
    f.rule .none .sd .s .s [⟨.scal, f.b.toNat, 5⟩, ⟨.scal, f.c.toNat, 5⟩] true (copyModOk f false)
  | .cpyw f => f.rule .none .sd .s .s [⟨.scal, f.b.toNat, 5⟩, ⟨.scal, f.c.toNat, 5⟩] true (copyModOk f true)
  | .mma f => f.rule .v .sd .sd .none (mmaRead f) true (mmaModOk f false) (mmaMade f)
  | .mmasp f => f.rule .v .sd .sd .sd (mmaRead f) true (mmaModOk f true) (mmaMade f)
  | .cwait f => f.rule .none .none .none .none [] false (f.emod.extractLsb' 1 17 == 0 && (f.one || f.tid == 0))
  | .tset f | .tget f => f.rule .none .sd .none .none [] true (f.emod == 0)
  | .tseal f => f.rule .none .none .none .none [] false (f.emod == 0)
  | .publ f =>
    f.rule .none .none .none .none [] false
      ((Scope.ofCode (f.emod.extractLsb' 0 3)).isSome && f.emod.extractLsb' 3 15 == 0)
  | .cctl f => f.rule (f.wt == .b32) .none .d .none .none [.rlx] [.dev] false false (f.opc.toNat < 4)
  | .halt f => f.ctl [.b32] .none .none
  | _ => Shape.plainRule Shape.blank

/-- The registers and header of an operation's word. -/
def Instr.shape (i : Instr) : Shape := i.rule.shape

end Sys2Proof
end

