-- ==== Sys2Proof/WellFormed.lean ====
section
/-! DEFINITION. When a word's fields are legal (R61): the parts that depend on the word alone. The parts that depend on the
kernel header or on a scalar register read at issue (R61, last point) are checked by the operations themselves. -/

namespace Sys2Proof

/-- The first part of R61 that the instruction breaks, if any. -/
def Instr.illegal (i : Instr) : Option Illegal := i.rule.check

/-- Every part of R61 that depends on the word alone holds. -/
def Instr.wf (i : Instr) : Bool := i.illegal.isNone

end Sys2Proof
end

