-- ==== Sys2Proof/Decode.lean ====
section
/-! DEFINITION. The decoder, total on every word (R60, R61, R68 to R73), and the encoder, both from the layouts of R50, R55,
R71, R142 and R172 and the values of R68 and R69. -/

namespace Sys2Proof

/-! ## Fields of a word -/

/-- The header fields of R50. -/
def Hd.ofWord (w : IWord) : Hd :=
  ⟨w.extractLsb' 82 4, w.getLsbD 81, w.getLsbD 80, w.extractLsb' 76 4, w.extractLsb' 74 2⟩

/-- The header fields in place: bits 85 to 74. -/
def Hd.bits (h : Hd) : BitVec 12 := h.pg ++ BitVec.ofBool h.pn ++ BitVec.ofBool h.s ++ h.la ++ h.h

/-- Format V read from a word, none under a reserved rounding code. -/
def VForm.ofWord (w : IWord) : Option VForm :=
  (Rnd.ofCode (w.extractLsb' 27 3)).map fun r =>
    ⟨Hd.ofWord w, w.extractLsb' 64 10, w.extractLsb' 54 10, w.extractLsb' 44 10, w.extractLsb' 34 10,
     Ty.ofCode (w.extractLsb' 30 4), r, w.getLsbD 26, w.getLsbD 23, w.getLsbD 22, w.getLsbD 21, w.extractLsb' 17 4⟩

/-- A format V word (R55). -/
def VForm.word (op : BitVec 10) (f : VForm) : IWord :=
  op ++ f.hd.bits ++ f.d ++ f.a ++ f.b ++ f.c ++ f.ty.code ++ f.rnd.code ++ BitVec.ofBool f.sat ++ 0#2 ++
    BitVec.ofBool f.ska ++ BitVec.ofBool f.skb ++ BitVec.ofBool f.skc ++ f.sub ++ 0#17

/-- Format I read from a word. -/
def IForm.ofWord (w : IWord) : Option IForm :=
  (Rnd.ofCode (w.extractLsb' 15 3)).map fun r =>
    ⟨Hd.ofWord w, w.extractLsb' 64 10, w.extractLsb' 54 10, w.extractLsb' 22 32, Ty.ofCode (w.extractLsb' 18 4), r,
     w.getLsbD 14, w.getLsbD 13, w.extractLsb' 0 13⟩

/-- A format I word (R55). -/
def IForm.word (op : BitVec 10) (f : IForm) : IWord :=
  op ++ f.hd.bits ++ f.d ++ f.a ++ f.imm ++ f.ty.code ++ f.rnd.code ++ BitVec.ofBool f.ska ++ BitVec.ofBool f.sat ++ f.imod

/-- The layout of R71 read from a word. -/
def LopForm.ofWord (w : IWord) : Option LopForm :=
  (Rnd.ofCode (w.extractLsb' 15 3)).map fun r =>
    ⟨Hd.ofWord w, w.extractLsb' 64 10, w.extractLsb' 54 10, w.extractLsb' 44 10, w.extractLsb' 34 10,
     Ty.ofCode (w.extractLsb' 18 4), r, w.getLsbD 14, w.getLsbD 13, w.extractLsb' 0 8⟩

/-- A word in the layout of R71. -/
def LopForm.word (op : BitVec 10) (f : LopForm) : IWord :=
  op ++ f.hd.bits ++ f.d ++ f.a ++ f.b ++ f.c ++ 0#12 ++ f.ty.code ++ f.rnd.code ++ BitVec.ofBool f.ska ++
    BitVec.ofBool f.sat ++ 0#5 ++ f.table

/-- Format M read from a word, none under a reserved scope or order code. -/
def MForm.ofWord (w : IWord) : Option MForm :=
  (Scope.ofCode (w.extractLsb' 3 3)).bind fun sc => (Ord.ofCode (w.extractLsb' 0 3)).map fun o =>
    ⟨Hd.ofWord w, w.extractLsb' 64 10, w.extractLsb' 54 10, w.extractLsb' 44 10, w.extractLsb' 34 10,
     w.extractLsb' 12 22, Ty.ofCode (w.extractLsb' 8 4), Hint.ofCode (w.extractLsb' 6 2), sc, o⟩

/-- A format M word (R55). -/
def MForm.word (op : BitVec 10) (f : MForm) : IWord :=
  op ++ f.hd.bits ++ f.d ++ f.a ++ f.b ++ f.c ++ f.off ++ f.wt.code ++ f.hint.code ++ f.scope.code ++ f.ord.code

/-- The M-op layout read from a word. -/
def MopForm.ofWord (w : IWord) : Option MopForm :=
  (Scope.ofCode (w.extractLsb' 3 3)).bind fun sc => (Ord.ofCode (w.extractLsb' 0 3)).map fun o =>
    ⟨Hd.ofWord w, w.extractLsb' 64 10, w.extractLsb' 54 10, w.extractLsb' 44 10, w.extractLsb' 34 10,
     w.extractLsb' 28 6, w.extractLsb' 12 16, Ty.ofCode (w.extractLsb' 8 4), Hint.ofCode (w.extractLsb' 6 2), sc, o⟩

/-- A word in the M-op layout (R172). -/
def MopForm.word (op : BitVec 10) (f : MopForm) : IWord :=
  op ++ f.hd.bits ++ f.d ++ f.a ++ f.b ++ f.c ++ f.opc ++ f.off ++ f.wt.code ++ f.hint.code ++ f.scope.code ++ f.ord.code

/-- Format J read from a word. -/
def JForm.ofWord (w : IWord) : Option JForm := some ⟨Hd.ofWord w, w.extractLsb' 64 10, w.extractLsb' 34 30⟩

/-- A format J word (R55). -/
def JForm.word (op : BitVec 10) (f : JForm) : IWord := op ++ f.hd.bits ++ f.d ++ f.disp ++ 0#34

/-- Format E read from a word. -/
def EForm.ofWord (w : IWord) : Option EForm :=
  some ⟨Hd.ofWord w, w.extractLsb' 64 10, w.extractLsb' 54 10, w.extractLsb' 44 10, w.extractLsb' 34 10,
    w.extractLsb' 18 16, w.extractLsb' 0 18⟩

/-- A format E word (R55). -/
def EForm.word (op : BitVec 10) (f : EForm) : IWord :=
  op ++ f.hd.bits ++ f.d ++ f.a ++ f.b ++ f.c ++ f.tid ++ f.emod

/-- The layout of `hpush` read from a word. -/
def HpushForm.ofWord (w : IWord) : Option HpushForm :=
  some ⟨Hd.ofWord w, w.extractLsb' 64 10, w.extractLsb' 34 30, w.extractLsb' 2 32⟩

/-- A word in the layout of `hpush` (R142). -/
def HpushForm.word (op : BitVec 10) (f : HpushForm) : IWord := op ++ f.hd.bits ++ f.mreg ++ f.disp ++ f.mtch ++ 0#2

/-- The layout of `perf` read from a word. -/
def PerfForm.ofWord (w : IWord) : Option PerfForm :=
  some ⟨Hd.ofWord w, w.extractLsb' 64 10, w.extractLsb' 54 10, w.getLsbD 53, w.extractLsb' 34 11, w.extractLsb' 2 32⟩

/-- A word in the layout of `perf` (R142). -/
def PerfForm.word (op : BitVec 10) (f : PerfForm) : IWord :=
  op ++ f.hd.bits ++ f.pay ++ f.nreg ++ BitVec.ofBool f.rn ++ 0#8 ++ f.k ++ f.name ++ 0#2

/-- Format Y read from a word. -/
def TrapForm.ofWord (w : IWord) : Option TrapForm :=
  some ⟨Hd.ofWord w, w.extractLsb' 64 10, w.extractLsb' 54 10, w.extractLsb' 44 10, w.extractLsb' 34 10, w.extractLsb' 2 32⟩

/-- A format Y word (R55). -/
def TrapForm.word (op : BitVec 10) (f : TrapForm) : IWord :=
  op ++ f.hd.bits ++ f.d ++ f.a ++ f.b ++ f.c ++ f.name ++ 0#2

/-! ## The opcode map -/

/-- The word of an instruction (R50, R68, R69), none for a row that has no word. -/
def encode : Instr → Option IWord
  | .nop => some 0
  | .iadd f => some (f.word 0x001)
  | .isub f => some (f.word 0x002)
  | .imul f => some (f.word 0x003)
  | .imad f => some (f.word 0x004)
  | .imulhi f => some (f.word 0x005)
  | .idiv f => some (f.word 0x006)
  | .irem f => some (f.word 0x007)
  | .imin f => some (f.word 0x008)
  | .imax f => some (f.word 0x009)
  | .iabs f => some (f.word 0x00A)
  | .ineg f => some (f.word 0x00B)
  | .iadd3 f => some (f.word 0x00C)
  | .iaddc f => some (f.word 0x00D)
  | .lea f => some (f.word 0x00E)
  | .icmp f => some (f.word 0x00F)
  | .isel f => some (f.word 0x010)
  | .iaddImm f => some (f.word 0x021)
  | .isubImm f => some (f.word 0x022)
  | .imulImm f => some (f.word 0x023)
  | .iminImm f => some (f.word 0x028)
  | .imaxImm f => some (f.word 0x029)
  | .icmpImm f => some (f.word 0x02F)
  | .and f => some (f.word 0x040)
  | .or f => some (f.word 0x041)
  | .xor f => some (f.word 0x042)
  | .not f => some (f.word 0x043)
  | .lop3 f => some (f.word 0x044)
  | .shl f => some (f.word 0x045)
  | .shr f => some (f.word 0x046)
  | .sar f => some (f.word 0x047)
  | .rot f => some (f.word 0x048)
  | .bfe f => some (f.word 0x049)
  | .bfi f => some (f.word 0x04A)
  | .popc f => some (f.word 0x04B)
  | .clz f => some (f.word 0x04C)
  | .brev f => some (f.word 0x04D)
  | .andImm f => some (f.word 0x060)
  | .orImm f => some (f.word 0x061)
  | .xorImm f => some (f.word 0x062)
  | .shlImm f => some (f.word 0x065)
  | .shrImm f => some (f.word 0x066)
  | .sarImm f => some (f.word 0x067)
  | .rotImm f => some (f.word 0x068)
  | .fadd f => some (f.word 0x080)
  | .fsub f => some (f.word 0x081)
  | .fmul f => some (f.word 0x082)
  | .ffma f => some (f.word 0x083)
  | .fmin f => some (f.word 0x084)
  | .fmax f => some (f.word 0x085)
  | .fabs f => some (f.word 0x086)
  | .fneg f => some (f.word 0x087)
  | .fcmp f => some (f.word 0x088)
  | .fclass f => some (f.word 0x089)
  | .fscale f => some (f.word 0x08A)
  | .frnd f => some (f.word 0x08B)
  | .faddImm f => some (f.word 0x0A0)
  | .fsubImm f => some (f.word 0x0A1)
  | .fmulImm f => some (f.word 0x0A2)
  | .fminImm f => some (f.word 0x0A4)
  | .fmaxImm f => some (f.word 0x0A5)
  | .fcmpImm f => some (f.word 0x0A8)
  | .fdiv f => some (f.word 0x0C0)
  | .fsqrt f => some (f.word 0x0C1)
  | .frcp f => some (f.word 0x0C2)
  | .frsq f => some (f.word 0x0C3)
  | .fex2 f => some (f.word 0x0C4)
  | .flg2 f => some (f.word 0x0C5)
  | .fsin f => some (f.word 0x0C6)
  | .fcos f => some (f.word 0x0C7)
  | .mov f => some (f.word 0x100)
  | .movi f => some (f.word 0x101)
  | .cvt f => some (f.word 0x102)
  | .shuf f => some (f.word 0x103)
  | .bcast f => some (f.word 0x104)
  | .vote f => some (f.word 0x105)
  | .ballot f => some (f.word 0x106)
  | .shp f => some (f.word 0x107)
  | .rdsr f => some (f.word 0x108)
  | .pand f => some (f.word 0x140)
  | .por f => some (f.word 0x141)
  | .pxor f => some (f.word 0x142)
  | .pnot f => some (f.word 0x143)
  | .pmov f => some (f.word 0x144)
  | .bra f => some (f.word 0x180)
  | .brx f => some (f.word 0x181)
  | .call f => some (f.word 0x182)
  | .callx f => some (f.word 0x183)
  | .ret f => some (f.word 0x184)
  | .join f => some (f.word 0x185)
  | .yield f => some (f.word 0x186)
  | .exit f => some (f.word 0x187)
  | .hpush f => some (f.word 0x1C0)
  | .hpop f => some (f.word 0x1C1)
  | .perf f => some (f.word 0x1C2)
  | .resumet f => some (f.word 0x1C3)
  | .resumec f => some (f.word 0x1C4)
  | .resumek f => some (f.word 0x1C5)
  | .dropt f => some (f.word 0x1C6)
  | .tinfo f => some (f.word 0x1C7)
  | .trap f => some (f.word 0x1C8)
  | .ld f => some (f.word 0x200)
  | .st f => some (f.word 0x201)
  | .ldp f => some (f.word 0x202)
  | .stp f => some (f.word 0x203)
  | .ldt f => some (f.word 0x204)
  | .pref f => some (f.word 0x205)
  | .nameof f => some (f.word 0x206)
  | .ptreq f => some (f.word 0x207)
  | .atom f => some (f.word 0x240)
  | .atomc f => some (f.word 0x241)
  | .red f => some (f.word 0x242)
  | .rstf f => some (f.word 0x243)
  | .fence f => some (f.word 0x280)
  | .bar f => some (f.word 0x281)
  | .bara f => some (f.word 0x282)
  | .barw f => some (f.word 0x283)
  | .cbdef f => some (f.word 0x284)
  | .cbacq f => some (f.word 0x285)
  | .cbrel f => some (f.word 0x286)
  | .waitp f => some (f.word 0x287)
  | .icinv f => some (f.word 0x288)
  | .ifence f => some (f.word 0x289)
  | .cpy f => some (f.word 0x2C0)
  | .cpym f => some (f.word 0x2C1)
  | .cpyw f => some (f.word 0x2C2)
  | .mma f => some (f.word 0x2C3)
  | .mmasp f => some (f.word 0x2C4)
  | .cwait f => some (f.word 0x2C5)
  | .tset f => some (f.word 0x300)
  | .tget f => some (f.word 0x301)
  | .tseal f => some (f.word 0x302)
  | .publ f => some (f.word 0x303)
  | .exadd f => some (f.word 0x304)
  | .exclr f => some (f.word 0x305)
  | .exrnd f => some (f.word 0x306)
  | .cctl f => some (f.word 0x340)
  | .halt f => some (f.word 0x341)
  | _ => none

/-- One row of the opcode map: the OP value and the reading of a word in the row's format. -/
structure OpRow where
  op : Nat
  read : IWord → Option Instr

/-- Class 0x0 of R68, with its immediate forms (R69). -/
def opClass0 : List OpRow :=
  [⟨0x001, fun w => (VForm.ofWord w).map .iadd⟩,
   ⟨0x002, fun w => (VForm.ofWord w).map .isub⟩,
   ⟨0x003, fun w => (VForm.ofWord w).map .imul⟩,
   ⟨0x004, fun w => (VForm.ofWord w).map .imad⟩,
   ⟨0x005, fun w => (VForm.ofWord w).map .imulhi⟩,
   ⟨0x006, fun w => (VForm.ofWord w).map .idiv⟩,
   ⟨0x007, fun w => (VForm.ofWord w).map .irem⟩,
   ⟨0x008, fun w => (VForm.ofWord w).map .imin⟩,
   ⟨0x009, fun w => (VForm.ofWord w).map .imax⟩,
   ⟨0x00A, fun w => (VForm.ofWord w).map .iabs⟩,
   ⟨0x00B, fun w => (VForm.ofWord w).map .ineg⟩,
   ⟨0x00C, fun w => (VForm.ofWord w).map .iadd3⟩,
   ⟨0x00D, fun w => (VForm.ofWord w).map .iaddc⟩,
   ⟨0x00E, fun w => (VForm.ofWord w).map .lea⟩,
   ⟨0x00F, fun w => (VForm.ofWord w).map .icmp⟩,
   ⟨0x010, fun w => (VForm.ofWord w).map .isel⟩,
   ⟨0x021, fun w => (IForm.ofWord w).map .iaddImm⟩,
   ⟨0x022, fun w => (IForm.ofWord w).map .isubImm⟩,
   ⟨0x023, fun w => (IForm.ofWord w).map .imulImm⟩,
   ⟨0x028, fun w => (IForm.ofWord w).map .iminImm⟩,
   ⟨0x029, fun w => (IForm.ofWord w).map .imaxImm⟩,
   ⟨0x02F, fun w => (IForm.ofWord w).map .icmpImm⟩]

/-- Class 0x1 of R68, with its immediate forms (R69). -/
def opClass1 : List OpRow :=
  [⟨0x040, fun w => (VForm.ofWord w).map .and⟩,
   ⟨0x041, fun w => (VForm.ofWord w).map .or⟩,
   ⟨0x042, fun w => (VForm.ofWord w).map .xor⟩,
   ⟨0x043, fun w => (VForm.ofWord w).map .not⟩,
   ⟨0x044, fun w => (LopForm.ofWord w).map .lop3⟩,
   ⟨0x045, fun w => (VForm.ofWord w).map .shl⟩,
   ⟨0x046, fun w => (VForm.ofWord w).map .shr⟩,
   ⟨0x047, fun w => (VForm.ofWord w).map .sar⟩,
   ⟨0x048, fun w => (VForm.ofWord w).map .rot⟩,
   ⟨0x049, fun w => (VForm.ofWord w).map .bfe⟩,
   ⟨0x04A, fun w => (VForm.ofWord w).map .bfi⟩,
   ⟨0x04B, fun w => (VForm.ofWord w).map .popc⟩,
   ⟨0x04C, fun w => (VForm.ofWord w).map .clz⟩,
   ⟨0x04D, fun w => (VForm.ofWord w).map .brev⟩,
   ⟨0x060, fun w => (IForm.ofWord w).map .andImm⟩,
   ⟨0x061, fun w => (IForm.ofWord w).map .orImm⟩,
   ⟨0x062, fun w => (IForm.ofWord w).map .xorImm⟩,
   ⟨0x065, fun w => (IForm.ofWord w).map .shlImm⟩,
   ⟨0x066, fun w => (IForm.ofWord w).map .shrImm⟩,
   ⟨0x067, fun w => (IForm.ofWord w).map .sarImm⟩,
   ⟨0x068, fun w => (IForm.ofWord w).map .rotImm⟩]

/-- Class 0x2 of R68, with its immediate forms (R69). -/
def opClass2 : List OpRow :=
  [⟨0x080, fun w => (VForm.ofWord w).map .fadd⟩,
   ⟨0x081, fun w => (VForm.ofWord w).map .fsub⟩,
   ⟨0x082, fun w => (VForm.ofWord w).map .fmul⟩,
   ⟨0x083, fun w => (VForm.ofWord w).map .ffma⟩,
   ⟨0x084, fun w => (VForm.ofWord w).map .fmin⟩,
   ⟨0x085, fun w => (VForm.ofWord w).map .fmax⟩,
   ⟨0x086, fun w => (VForm.ofWord w).map .fabs⟩,
   ⟨0x087, fun w => (VForm.ofWord w).map .fneg⟩,
   ⟨0x088, fun w => (VForm.ofWord w).map .fcmp⟩,
   ⟨0x089, fun w => (VForm.ofWord w).map .fclass⟩,
   ⟨0x08A, fun w => (VForm.ofWord w).map .fscale⟩,
   ⟨0x08B, fun w => (VForm.ofWord w).map .frnd⟩,
   ⟨0x0A0, fun w => (IForm.ofWord w).map .faddImm⟩,
   ⟨0x0A1, fun w => (IForm.ofWord w).map .fsubImm⟩,
   ⟨0x0A2, fun w => (IForm.ofWord w).map .fmulImm⟩,
   ⟨0x0A4, fun w => (IForm.ofWord w).map .fminImm⟩,
   ⟨0x0A5, fun w => (IForm.ofWord w).map .fmaxImm⟩,
   ⟨0x0A8, fun w => (IForm.ofWord w).map .fcmpImm⟩]

/-- Class 0x3 of R68, with its immediate forms (R69). -/
def opClass3 : List OpRow :=
  [⟨0x0C0, fun w => (VForm.ofWord w).map .fdiv⟩,
   ⟨0x0C1, fun w => (VForm.ofWord w).map .fsqrt⟩,
   ⟨0x0C2, fun w => (VForm.ofWord w).map .frcp⟩,
   ⟨0x0C3, fun w => (VForm.ofWord w).map .frsq⟩,
   ⟨0x0C4, fun w => (VForm.ofWord w).map .fex2⟩,
   ⟨0x0C5, fun w => (VForm.ofWord w).map .flg2⟩,
   ⟨0x0C6, fun w => (VForm.ofWord w).map .fsin⟩,
   ⟨0x0C7, fun w => (VForm.ofWord w).map .fcos⟩]

/-- Class 0x4 of R68, with its immediate forms (R69). -/
def opClass4 : List OpRow :=
  [⟨0x100, fun w => (VForm.ofWord w).map .mov⟩,
   ⟨0x101, fun w => (IForm.ofWord w).map .movi⟩,
   ⟨0x102, fun w => (VForm.ofWord w).map .cvt⟩,
   ⟨0x103, fun w => (VForm.ofWord w).map .shuf⟩,
   ⟨0x104, fun w => (VForm.ofWord w).map .bcast⟩,
   ⟨0x105, fun w => (VForm.ofWord w).map .vote⟩,
   ⟨0x106, fun w => (VForm.ofWord w).map .ballot⟩,
   ⟨0x107, fun w => (VForm.ofWord w).map .shp⟩,
   ⟨0x108, fun w => (IForm.ofWord w).map .rdsr⟩]

/-- Class 0x5 of R68, with its immediate forms (R69). -/
def opClass5 : List OpRow :=
  [⟨0x140, fun w => (VForm.ofWord w).map .pand⟩,
   ⟨0x141, fun w => (VForm.ofWord w).map .por⟩,
   ⟨0x142, fun w => (VForm.ofWord w).map .pxor⟩,
   ⟨0x143, fun w => (VForm.ofWord w).map .pnot⟩,
   ⟨0x144, fun w => (VForm.ofWord w).map .pmov⟩]

/-- Class 0x6 of R68, with its immediate forms (R69). -/
def opClass6 : List OpRow :=
  [⟨0x180, fun w => (JForm.ofWord w).map .bra⟩,
   ⟨0x181, fun w => (VForm.ofWord w).map .brx⟩,
   ⟨0x182, fun w => (JForm.ofWord w).map .call⟩,
   ⟨0x183, fun w => (VForm.ofWord w).map .callx⟩,
   ⟨0x184, fun w => (VForm.ofWord w).map .ret⟩,
   ⟨0x185, fun w => (VForm.ofWord w).map .join⟩,
   ⟨0x186, fun w => (VForm.ofWord w).map .yield⟩,
   ⟨0x187, fun w => (VForm.ofWord w).map .exit⟩]

/-- Class 0x7 of R68, with its immediate forms (R69). -/
def opClass7 : List OpRow :=
  [⟨0x1C0, fun w => (HpushForm.ofWord w).map .hpush⟩,
   ⟨0x1C1, fun w => (VForm.ofWord w).map .hpop⟩,
   ⟨0x1C2, fun w => (PerfForm.ofWord w).map .perf⟩,
   ⟨0x1C3, fun w => (VForm.ofWord w).map .resumet⟩,
   ⟨0x1C4, fun w => (VForm.ofWord w).map .resumec⟩,
   ⟨0x1C5, fun w => (VForm.ofWord w).map .resumek⟩,
   ⟨0x1C6, fun w => (VForm.ofWord w).map .dropt⟩,
   ⟨0x1C7, fun w => (VForm.ofWord w).map .tinfo⟩,
   ⟨0x1C8, fun w => (TrapForm.ofWord w).map .trap⟩]

/-- Class 0x8 of R68, with its immediate forms (R69). -/
def opClass8 : List OpRow :=
  [⟨0x200, fun w => (MForm.ofWord w).map .ld⟩,
   ⟨0x201, fun w => (MForm.ofWord w).map .st⟩,
   ⟨0x202, fun w => (MForm.ofWord w).map .ldp⟩,
   ⟨0x203, fun w => (MForm.ofWord w).map .stp⟩,
   ⟨0x204, fun w => (MForm.ofWord w).map .ldt⟩,
   ⟨0x205, fun w => (MForm.ofWord w).map .pref⟩,
   ⟨0x206, fun w => (VForm.ofWord w).map .nameof⟩,
   ⟨0x207, fun w => (VForm.ofWord w).map .ptreq⟩]

/-- Class 0x9 of R68, with its immediate forms (R69). -/
def opClass9 : List OpRow :=
  [⟨0x240, fun w => (MopForm.ofWord w).map .atom⟩,
   ⟨0x241, fun w => (MForm.ofWord w).map .atomc⟩,
   ⟨0x242, fun w => (MopForm.ofWord w).map .red⟩,
   ⟨0x243, fun w => (MForm.ofWord w).map .rstf⟩]

/-- Class 0xA of R68, with its immediate forms (R69). -/
def opClassA : List OpRow :=
  [⟨0x280, fun w => (MForm.ofWord w).map .fence⟩,
   ⟨0x281, fun w => (VForm.ofWord w).map .bar⟩,
   ⟨0x282, fun w => (VForm.ofWord w).map .bara⟩,
   ⟨0x283, fun w => (VForm.ofWord w).map .barw⟩,
   ⟨0x284, fun w => (VForm.ofWord w).map .cbdef⟩,
   ⟨0x285, fun w => (VForm.ofWord w).map .cbacq⟩,
   ⟨0x286, fun w => (VForm.ofWord w).map .cbrel⟩,
   ⟨0x287, fun w => (MForm.ofWord w).map .waitp⟩,
   ⟨0x288, fun w => (MForm.ofWord w).map .icinv⟩,
   ⟨0x289, fun w => (VForm.ofWord w).map .ifence⟩]

/-- Class 0xB of R68, with its immediate forms (R69). -/
def opClassB : List OpRow :=
  [⟨0x2C0, fun w => (EForm.ofWord w).map .cpy⟩,
   ⟨0x2C1, fun w => (EForm.ofWord w).map .cpym⟩,
   ⟨0x2C2, fun w => (EForm.ofWord w).map .cpyw⟩,
   ⟨0x2C3, fun w => (EForm.ofWord w).map .mma⟩,
   ⟨0x2C4, fun w => (EForm.ofWord w).map .mmasp⟩,
   ⟨0x2C5, fun w => (EForm.ofWord w).map .cwait⟩]

/-- Class 0xC of R68, with its immediate forms (R69). -/
def opClassC : List OpRow :=
  [⟨0x300, fun w => (EForm.ofWord w).map .tset⟩,
   ⟨0x301, fun w => (EForm.ofWord w).map .tget⟩,
   ⟨0x302, fun w => (EForm.ofWord w).map .tseal⟩,
   ⟨0x303, fun w => (EForm.ofWord w).map .publ⟩,
   ⟨0x304, fun w => (MForm.ofWord w).map .exadd⟩,
   ⟨0x305, fun w => (MForm.ofWord w).map .exclr⟩,
   ⟨0x306, fun w => (MopForm.ofWord w).map .exrnd⟩]

/-- Class 0xD of R68, with its immediate forms (R69). -/
def opClassD : List OpRow :=
  [⟨0x340, fun w => (MopForm.ofWord w).map .cctl⟩,
   ⟨0x341, fun w => (VForm.ofWord w).map .halt⟩]

/-- Every allocated OP value but that of `nop` (R68, R69). -/
def opRows : List OpRow :=
  opClass0 ++ opClass1 ++ opClass2 ++ opClass3 ++ opClass4 ++ opClass5 ++ opClass6 ++ opClass7 ++ opClass8 ++ opClass9 ++ opClassA ++ opClassB ++ opClassC ++ opClassD

/-- Why a word is not an instruction (R61, R73). -/
inductive DecodeError where
  | illegal (why : Illegal)
  deriving DecidableEq, Repr

/-- The decoder (R73): the all-zero word is `nop`; an unallocated OP, a reserved code, a reserved bit that is set, or any part
of R61 that the word breaks, is refused by name. -/
def decode (w : IWord) : Except DecodeError Instr :=
  if w = 0 then .ok .nop
  else
    match opRows.find? (fun r => r.op == (w.extractLsb' 86 10).toNat) with
    | none => .error (.illegal .unallocated)
    | some r =>
      match r.read w with
      | none => .error (.illegal .reservedBit)
      | some i =>
        if encode i ≠ some w then .error (.illegal .reservedBit)
        else
          match i.illegal with
          | some why => .error (.illegal why)
          | none => .ok i

/-- The instruction the decoder reads from a word numbered as the table numbers it: the low 96 bits, the bits above `nbits`
zero. -/
def decodeTableWord (nbits w : Nat) : Option Instr :=
  match decode (BitVec.ofNat 96 (w % 2 ^ nbits)) with
  | .ok i => some i
  | .error _ => none

/-- The 12 bytes of a word as memory holds them (R43). -/
def wordBytes (w : IWord) : List Byte := (List.range 12).map fun k => w.extractLsb' (8 * k) 8

end Sys2Proof
end

