-- ==== Sys2Proof/Machine/Keys.lean ====
section
/-! DEFINITION. Bytes of numbers, and what the device derives from its secret (R355, R359). -/

namespace Sys2Proof.Machine

/-! ## Bytes -/

/-- Bytes, least significant first, as a number. -/
def ofBytes : List Byte → Nat
  | [] => 0
  | b :: bs => b.toNat + 256 * ofBytes bs

/-- The `n` low bytes of a number, least significant first. -/
def toBytes (x : Nat) : Nat → List Byte
  | 0 => []
  | n + 1 => BitVec.ofNat 8 x :: toBytes (x / 256) n

/-! ## Derived values -/

/-- The bytes of an ASCII string. -/
def text (x : String) : List Byte := x.toList.map fun c => BitVec.ofNat 8 c.toNat

/-- `n` bytes of SHAKE256. -/
def shake (bs : List Byte) (n : Nat) : List Byte := toBytes (Config.shake256 bs).toNat n

/-- A value derived from the device secret (R359). -/
def derived (bs : List Byte) (n : Nat) : List Byte := shake (toBytes Config.deviceSecret.toNat 32 ++ bs) n

/-- A key of a world: SHAKE256 over the device secret, a string, the world, what more names the key, and the world epoch (R355). -/
def worldKeyOf (what : List Byte) (w : Nat) (more : List Byte) (epoch : W64) : BitVec 256 :=
  BitVec.ofNat 256 (ofBytes (derived (what ++ toBytes w 1 ++ more ++ toBytes epoch.toNat 8) 32))

end Sys2Proof.Machine
end

