-- ==== Sys2Proof/Machine/State.lean ====
section
/-! DEFINITION. The state of one Aelrovos package as plain data, and the state after reset. Every piece of state the spec
names has a field here (INVENTORY.md lists them with their rules). Sparse lists hold only entries that differ from the
default, in rising order of key. -/

namespace Sys2Proof.Machine

/-! ## Stops -/

/-- Why the machine stops with a fault. The spec gives the Aelrovos no such stop: traps are effects and are taken (R34, R39). -/
inductive Fault where
  /-- Raised by nothing: no rule of the spec stops the machine. Safe, since no step answers it. -/
  | none
  deriving DecidableEq, Repr

/-- Why a step refuses. -/
inductive Refusal where
  /-- Raised by an arm of `exec` whose operation has no meaning yet; safe: nothing is claimed of what follows. -/
  | notModelled (mnemonic : String)
  deriving DecidableEq, Repr

/-! ## Registers -/

/-- A sparse map from Nat: entries in rising order of key, none equal to the default. -/
abbrev Sparse (α : Type) := List (Nat × α)

/-- The shape tag of a register (R12). -/
inductive Tag where
  | uniform | affine | general
  deriving DecidableEq, Repr

/-- Declared wave widths (R8). -/
inductive Width where
  | w16 | w32 | w64 | w128
  deriving DecidableEq, Repr

/-- A handler frame (R20). -/
structure HFrame where
  fid : W32
  hpc : W64
  mask : W32
  mtch : W32
  deriving DecidableEq, Repr

/-- A saved register: its tag and payload as one thread's record holds them (R35). -/
inductive SavedReg where
  | uniform (u : W32)
  | affine (base stride : W32)
  | general (x : W32)
  deriving DecidableEq, Repr

/-- A return record (R153). -/
structure RetRec where
  fid : W32
  regs : List SavedReg
  preds : BitVec 16
  pc : W64
  dreg : Nat
  deriving DecidableEq, Repr

/-- What the device knows of a place of a continuation record in a thread's private space (R35, R36): the offset divided by
64, the size in the same unit, the generation, whether a record is live there, and of each replay entry, the failed
command it stands for and whether it is a `bar` that has arrived (R204). -/
structure RecPlace where
  slot : Nat
  size : Nat
  gen : BitVec 16
  live : Bool
  cmds : List (Option Nat × Bool)
  deriving DecidableEq, Repr

/-- Captured operands (R38, R166). -/
structure Cap where
  a : W128
  b : W128
  c : W128
  deriving DecidableEq, Repr

/-- An instruction to be performed by one lane before its next one: a replay entry (R166, R167), or the access of a blocked
lane (R175). `issued` is the issue cycle of the wave it takes its place in (R37); `cmd` names the failed command it stands for
(R204); `waitOnly` marks a `bar` that has arrived (R204); `late` marks an access that has passed steps 1 to 7 of R174 and goes on
from step 8 (R175); `slot` is the name that an `ldp` has read (R183, R290), or marks an `rstf` whose data address has passed those steps
(R192); `entry` is the tensor entry that the access has sampled (R181, R357). -/
structure Redo where
  pc : W64
  word : IWord
  cap : Cap
  first : Bool
  waitOnly : Bool
  cmd : Option Nat
  late : Bool
  slot : Option W128
  entry : Option (BitVec 512)
  issued : Nat
  deriving DecidableEq, Repr

/-- What a lane waits for. -/
inductive Wait where
  | none
  /-- At the `join` at a PC, for the threads of the mask (R147). -/
  | join (mask : W128) (pc : W64)
  /-- At `bar` or `barw`, for a phase of a barrier (R222). -/
  | bar (bar phase : Nat)
  /-- At `waitp` (R223). -/
  | waitp (addr threshold : W64)
  /-- At `cbacq` while FILLED is zero (R227). -/
  | cbacq (block : W64) (dreg : Nat)
  /-- On a fault record (R290). -/
  | fault (die : Nat) (seq : W32)
  /-- On a sector of an arriving page, or on a departing page (R285). -/
  | page (page sector : Nat)
  /-- On a reply from another package or a pool node (R270). -/
  | remote (rtag : Nat)
  /-- Until the nodes that hold copies of a page of this package have given them back (R285). -/
  | recall (page : Nat)
  /-- At the walker, while a die's fault queue is full (R175, R290). -/
  | walker (die : Nat)
  /-- Until a request tag of a tile, or of the service kernel (tile 192), is free (R2, R335). -/
  | tag (tile : Nat)
  /-- On the package's own arrays: a frozen slice, zeroing, the exit from retention (R297, R303, R351). -/
  | array (tile : Nat)
  /-- On the scoreboard of a tile (R203). -/
  | scoreboard (tile cmd : Nat)
  /-- For a command to be accepted (R201). -/
  | accept (tile cmd : Nat)
  /-- At `cwait` (R215). -/
  | cwait (tid : Option Nat)
  /-- At `publ` (R220). -/
  | publ (tid : Nat)
  /-- On a BINDING record (R146). -/
  | binding (ctx : Nat) (obj : W64)
  /-- On frame 0 (R170). -/
  | frame0
  /-- Stopped for want of backing store (R317). -/
  | backing
  /-- At `halt` (R230). -/
  | halted
  /-- Trapped, its entry not yet delivered (R164). -/
  | trapped
  deriving DecidableEq, Repr

/-- Whether a thread exists and runs (R8, R150, R251). -/
inductive Status where
  | absent | live | exited
  deriving DecidableEq, Repr

/-- What a run of a thread's private space is claimed for, beside its records (R316). -/
inductive AreaUse where
  /-- The spilled frame at a depth of the handler stack, frame 0 at depth 0 (R20). -/
  | frame (depth : Nat)
  /-- A return record, by the number of older ones (R153). -/
  | ret (older : Nat)
  /-- A piece of the wave's save areas in the backing store: a tag bitmap, or one register's payload (R15, R16, R316). -/
  | store
  deriving DecidableEq, Repr

/-- A run of bytes of a thread's private space, by its offset. -/
structure Area where
  use : AreaUse
  off : Nat
  size : Nat
  deriving DecidableEq, Repr

/-- One thread. `passed` counts the issue cycles of its wave during which `yield` still passes its group over (R149). -/
structure Thread where
  status : Status
  pc : W64
  preds : BitVec 16
  vregs : Sparse W32
  frames : List HFrame
  fidCtr : W32
  serial : BitVec 40
  places : List RecPlace
  areas : List Area
  rets : List RetRec
  wait : Wait
  redo : List Redo
  hold : List Nat
  passed : Nat
  arrivals : Sparse Nat
  idx : List W32
  pbase : Nat
  psize : Nat
  deriving DecidableEq, Repr

/-! ## Commands, waves and teams -/

/-- A run of bytes of a tile's slice (R203). -/
structure SliceRange where
  tile : Nat
  lo : Nat
  len : Nat
  deriving DecidableEq, Repr

/-- The engine instructions (R200). -/
inductive CmdKind where
  | cpy | cpym | cpyw | mma | mmasp
  deriving DecidableEq, Repr

/-- How far a command has come (R201, R204, R213). -/
inductive CmdState where
  | issued | accepted | failed | delivered
  deriving DecidableEq, Repr

/-- An engine or matrix command. -/
structure Cmd where
  id : Nat
  wave : Nat
  kind : CmdKind
  form : EForm
  pc : W64
  word : IWord
  descA : W64
  descB : W64
  descC : W64
  origin : List W32
  extent : List W32
  state : CmdState
  /-- The tensor entry sampled at acceptance (R205). -/
  entry : BitVec 512
  /-- The claimed slot's address (R210), which a reissue keeps (R296). -/
  slot : Option W64
  /-- The counter block of its circular buffer. -/
  block : Option W64
  /-- Slice bytes it reads and writes. -/
  reads : List SliceRange
  writes : List SliceRange
  /-- Level whose barrier it credits (R209) and the bytes already credited. -/
  bar : Option Nat
  credited : Nat
  why : FaultStatus
  /-- Lines of 64 bytes that other nodes have sent it, by physical address, and whether its writes to them are on their way. -/
  got : List (Nat × List Byte)
  sentAll : Bool
  /-- What another node has sent of its counter block while it claims a slot (R210). -/
  seen : List Byte
  /-- Rows of a copy, or clocks of a matrix command, that are done (R301). -/
  moved : Nat
  /-- Pages it has missed on: the records of those that are outstanding count it as a waiter (R290). -/
  missed : List Nat
  deriving DecidableEq, Repr

/-- A rise of FILLED that is still to be performed: for the wave of a copy, on the counter block (R210). `asked` is set once the block's
home at another node has been sent the step. -/
structure Fill where
  id : Nat
  wave : Nat
  block : W64
  asked : Bool
  deriving DecidableEq, Repr

/-- One trapped lane of a trap entry: the PC its continuation resumes at and the instructions to replay (R164). -/
structure TrapLane where
  lane : Nat
  cont : W64
  redo : List Redo
  deriving DecidableEq, Repr

/-- A trap-queue entry (R37); `issued` gives its place in the wave's issue order, `owed` lists the lanes, with their records'
places, whose token is unsettled after delivery; `begun` marks what is left of an entry that some of its lanes have taken. -/
structure TrapEntry where
  pc : W64
  kind : TrapKind
  issued : Nat
  lanes : List TrapLane
  delivered : Bool
  begun : Bool
  owed : List (Nat × Nat)
  deriving DecidableEq, Repr

/-- The issue history of one PC group (R268). -/
structure GroupHist where
  pc : W64
  count : Nat
  promoted : Bool
  /-- The tile's cycle at which it was promoted. -/
  since : Nat
  deriving DecidableEq, Repr

/-- One wave. -/
structure Wave where
  team : Nat
  ctx : Nat
  width : Width
  compat : Bool
  vBudget : Nat
  sBudget : Nat
  pBudget : Nat
  levels : BitVec 8
  threads : List Thread
  sregs : Sparse W32
  tags : Sparse Tag
  /-- The registers whose payloads lie in the backing store, in every block (R15). -/
  moved : List Nat
  fpflags : BitVec 5
  /-- Flags ORed in since the wave's last issue cycle began (R123). -/
  newFlags : BitVec 5
  /-- A code line that another node has sent, for the next instruction (R334). -/
  fetched : Option (W64 × BitVec 512)
  trapq : List TrapEntry
  held : Option Cmd
  pending : List (RegRange × Nat)
  /-- Accumulator registers of matrix commands that have failed, until the failure is delivered (R204). -/
  spoiled : List (RegRange × Nat)
  reissued : List Nat
  resident : Bool
  tile : Nat
  part : Nat
  /-- Its place in the partition, in halves of hardware-wave slots, and the further slots of a wave that takes several (R263). -/
  half : Nat
  more : List Nat
  active : Bool
  lastIssue : Nat
  notReady : Nat
  readySince : Nat
  /-- Cycles since the wave joined the active set. -/
  stay : Nat
  issues : Nat
  groups : List GroupHist
  deriving DecidableEq, Repr

/-- Where a team stands (R261, R271, R273); `away` is a team that another package dispatches (R265). -/
inductive TeamState where
  | waiting | resident | becalmed | woken | frozen | away | ended
  deriving DecidableEq, Repr

/-- A team (R9). -/
structure Team where
  launch : Nat
  index : Nat
  state : TeamState
  waves : List Nat
  tile : Nat
  bank : Nat
  nbank : Nat
  placed : Bool
  die : Nat
  cbufs : Sparse W64
  /-- Cycles for which all its threads have been in long waits, and the threshold of the present wait (R271, R274). -/
  waited : Nat
  patience : Nat
  /-- The issue cycles and waits of its waves when they were last counted (R271). -/
  seen : List (Nat × List Wait)
  /-- Where the save areas of a becalmed team lie in local HBM, and their length (R16, R272). -/
  context : Option (Nat × Nat)
  /-- The package that a team has been sent to, and the one that it has come from (R265). -/
  away : Option Nat
  origin : Option Nat
  outcome : Option EndReason
  deriving DecidableEq, Repr

/-- A level's barrier of one unit (R221). -/
structure Barrier where
  launch : Nat
  level : Nat
  unit : Nat
  phase : Nat
  arrived : List (Nat × Nat)
  balance : Int
  /-- The unit's arrival word as its home on another package last showed it (R348). -/
  word : Nat
  /-- On PKG0, the threads of other packages that have exited: from which phase on they count here, and how many (R348). -/
  gone : List (Nat × Nat)
  deriving DecidableEq, Repr

/-- A kernel header (R41). -/
structure Header where
  width : Width
  compat : Bool
  vregs : Nat
  sregs : Nat
  pregs : Nat
  scratch : Nat
  levels : BitVec 8
  entry : Nat
  deriving DecidableEq, Repr

/-- How a launch's completion is reported (R258, R259, R369). -/
inductive Completion where
  | ok | error (r : EndReason) | unreachable (dep : Option Nat) | denied (dep : Option Nat) | poisoned (dep : Option Nat)
  | cancelled
  deriving DecidableEq, Repr

/-- An accepted launch (R254 to R261). -/
structure Launch where
  handle : Nat
  record : BitVec 2048
  header : Header
  entry : W64
  /-- The host's request that submitted it, and its OP. -/
  host : Option HostReq
  hostOp : Nat
  committed : Bool
  eligible : Bool
  queue : Nat
  age : Nat
  teams : List Nat
  /-- Teams of other packages' shares that this package has taken over (R265). -/
  guests : List Nat
  resident : Bool
  /-- The address on PKG0 of the arrival words of its fabric level (R348); zero where there are none. -/
  arrivalBase : Nat
  firstError : Option EndReason
  completion : Option Completion
  /-- Answers of the packages named (R347): 0 for acceptance, else the check's number. -/
  answers : Sparse Nat
  /-- The package whose service kernel accepted it, where that is another one (R347). -/
  origin : Option Nat
  /-- Completions of the packages' shares (R258, R259). -/
  shares : List (Nat × Completion)
  /-- Dependence words at other nodes, as they were last read (R258). -/
  words : Sparse Nat
  /-- Packages of the launch that have left the fabric, as the submitter has been told (R348). -/
  lost : List Nat
  /-- The lane that submitted it through the LAUNCH system service and waits for the outcome. -/
  lane : Option (Nat × Nat)
  /-- Whether a debugger is attached (R230, R349; log 59). -/
  debugged : Bool
  /-- The die whose instance received it (R261). -/
  die : Nat
  /-- The tensor ids its kernel's statements name (R323). -/
  tids : List Nat
  deriving DecidableEq, Repr

/-! ## Contexts and objects -/

/-- States of a residency record (R27). -/
inductive RecState where
  | absentReserved | resident | departed | unbound | binding | bound
  deriving DecidableEq, Repr

/-- A residency record (R26); `run` is the first backed page of its run (R292), `requester` the binding lane (R295). -/
structure ObjRec where
  obj : W64
  kind : BitVec 3
  base : W64
  extent : Nat
  state : RecState
  run : Nat
  writable : Bool
  requester : Option (Nat × Nat)
  deriving DecidableEq, Repr

/-- An object in the directory (R25, R372); `bytes` is what it holds while it has no record here, `tensors` what
the loader is told of its `.tensor` statements (R323). -/
structure DirEntry where
  obj : W64
  kind : BitVec 3
  extent : Nat
  closed : Bool
  retired : Bool
  bytes : List Host.Cell
  tensors : List TensorMark
  deriving DecidableEq, Repr

/-- A context: one page table per region, one object window, one code window, one tensor table, one scratch map. -/
structure Ctx where
  num : Nat
  world : Nat
  live : Bool
  roots : List Nat
  dir : List DirEntry
  recs : List ObjRec
  nextData : Nat
  nextCode : Nat
  /-- Where the next lower-level page table goes (R281, log 12). -/
  nextTable : Nat
  /-- Where the private spaces of the context's threads begin (R283, log 9). -/
  arena : Nat
  tensors : Sparse (BitVec 512)
  scratch : Sparse W64
  nextSerial : BitVec 40
  deriving DecidableEq, Repr

/-- A world (R350 to R355, R274, R294, R363, R370). -/
structure World where
  live : Bool
  grants : List (Nat × Nat)
  auths : List (BitVec 16)
  port : Option Nat
  doldrums : Nat
  cold : BitVec 16
  high : Nat
  low : Nat
  lineKey : Option (BitVec 256)
  sealKeys : Sparse (BitVec 256)
  wdigest : BitVec 512
  console : List Byte
  deriving DecidableEq, Repr

/-! ## Memory system -/

/-- STATE of a frame-map entry (R284). -/
inductive PageState where
  | absent | arriving | present | departing
  deriving DecidableEq, Repr

/-- A frame-map entry (R284); the all-zero entry is the default. -/
structure FrameEntry where
  hkind : BitVec 2
  hid : BitVec 12
  hpage : BitVec 46
  v : Bool
  state : PageState
  direct : Bool
  wg : Bool
  frame : Nat
  smask : W32
  deriving DecidableEq, Repr

/-- The kinds of a fault record (R289). -/
inductive FaultKind where
  | map | frame | write | name | priv
  deriving DecidableEq, Repr

/-- A fault record (R289). -/
structure FaultRec where
  va : W64
  ctx : Nat
  seq : W32
  aux : W64
  die : Nat
  ptile : Nat
  part : Nat
  sect : Nat
  kind : FaultKind
  acc : Nat
  waiters : Nat
  deriving DecidableEq, Repr

/-- A code line whose bytes have been written since its fetch version was taken (R321). -/
structure FetchLine where
  version : BitVec 512
  written : BitVec 64
  deriving DecidableEq, Repr

/-! ## Tiles, dies, images -/

/-- A tile's clock (R301, R312). -/
inductive Clock where
  | running | stopped | frozen | restoring
  deriving DecidableEq, Repr

/-- Retention of an idle tile (R297). -/
inductive Retention where
  | normal | retained
  deriving DecidableEq, Repr

/-- An instruction of a group of several blocks that still takes issue cycles of its slot (R269): the slot, the wave, the lanes, the
instruction, and the cycles left. -/
structure Pass where
  part : Nat
  slot : Nat
  wave : Nat
  lanes : List Nat
  op : Option Instr
  left : Nat
  deriving DecidableEq, Repr

/-- A physical tile. -/
structure Tile where
  cycle : W64
  clock : Clock
  fzImage : BitVec 52
  fzOp : BitVec 4
  fzPmask : BitVec 6
  busy : Bool
  status : BitVec 7
  freezeId : W32
  fzpc : List W64
  pworld : BitVec 36
  bown0 : BitVec 48
  bown1 : BitVec 48
  refused : Bool
  zeroing : List Nat
  zeroParts : List Nat
  retention : Retention
  cmds : List Cmd
  nextCmd : Nat
  fills : List Fill
  passes : List Pass
  deriving DecidableEq, Repr

/-- An advertisement of free team slots (R265). -/
structure Advert where
  fromPkg : Nat
  fromDie : Nat
  world : Nat
  free : Nat
  deriving DecidableEq, Repr

/-- A compute die. -/
structure Die where
  present : Bool
  order : List Nat
  woken : List Nat
  faultq : List FaultRec
  seq : W32
  answer : W64
  adverts : List Advert
  /-- Cycles since the die last advertised its free slots (R265). -/
  sinceAdvert : Nat
  mhz : Nat
  applied : Nat
  deriving DecidableEq, Repr

/-- A tile image (R304 to R307): the header's fields and what its segments hold. -/
structure Image where
  addr : BitVec 52
  freezeId : W32
  pkg : Nat
  tile : Nat
  rev : W64
  wmap : BitVec 36
  pres : BitVec 6
  waves : List Nat
  teams : List Nat
  cmds : List Cmd
  /-- Rises of FILLED that its copies still owe (R210, R304). -/
  fills : List Fill
  slice : List Host.Cell
  bown0 : BitVec 48
  bown1 : BitVec 48
  cycle : W64
  deriving DecidableEq, Repr

/-- A reply held by a die's reply proxy for a wave of a stopped tile or of an image (R303, R312). -/
structure Proxied where
  wave : Nat
  item : Instr
  deriving DecidableEq, Repr

/-! ## Hosts -/

/-- A request that a function has taken from a queue: its ID and OP (R364, R368). -/
structure HostItem where
  queue : Nat
  id : W64
  op : Nat
  deriving DecidableEq, Repr

/-- One virtio function of a port (R364 to R366): the features accepted, FEATURES_OK, the ISR byte, and the queues of requests that
have no reply yet. -/
structure HostFn where
  port : Nat
  fn : Nat
  features : W64
  featuresOk : Bool
  isr : Byte
  /-- MSI-X pending bits, one for each queue: every vector is masked, as PCI leaves it (R365). -/
  pending : W32
  /-- Requests taken and not answered (R364). -/
  outstanding : List HostItem
  deriving DecidableEq, Repr

/-- A range of an object mapped into a DAX window (R373). -/
structure DaxMap where
  port : Nat
  fn : Nat
  /-- Where the range begins in the window of 64 GiB (R365). -/
  place : Nat
  ctx : Nat
  obj : W64
  lo : Nat
  len : Nat
  deriving DecidableEq, Repr

/-- A reply or report sent to a host (R368). -/
structure Reply where
  port : Option Nat
  /-- The function on whose queue it goes, and the ID of the request that it answers (R364, R368). -/
  fn : Option Nat
  id : Option W64
  op : Nat
  status : Nat
  aux : W32
  value : W64
  body : List Byte
  deriving DecidableEq, Repr

/-- Lines of the device log on function 1 and of the consoles (R170, R364). -/
inductive LogEntry where
  | teamEnd (launch index : Nat) (r : EndReason)
  | correctedError (array : SoftArray) (place : Nat)
  | uncorrectable (array : SoftArray) (place : Nat)
  | dieLeftOut (die : Nat)
  | overtemperature
  | linkReport (port : Nat)
  | discarded (p : Packet)
  | recovery (answer : String)
  | halted (wave lane : Nat) (pc : W64)
  | launchDone (handle : Nat) (c : Completion)
  | unreachable (src dst : Nat)
  | packageLost (handle package : Nat)
  deriving DecidableEq, Repr

/-! ## Fabric -/

/-- The state of a Bysum link (R344, R345, R360). -/
inductive LinkState where
  | down | trained | keyed
  deriving DecidableEq, Repr

/-- A packet in the receive buffer of an input port's channel, which waits for a grant of an output port (R336). -/
structure Buffered where
  port : Nat
  channel : Nat
  packet : Packet
  deriving DecidableEq, Repr

/-- A port's link (R336 to R345): the node at the other end, version, keys (`low`: this end is L, R360), frame counters,
unacknowledged frames, flits granted and not yet framed, credits held and credits due to the other end, forwarded packets that wait for a
grant, whether the frame due next has failed its check and whether the NAK for it is still to go, the grants made to a higher tier
while a lower one was ready, for each tier the hop index after the last granted and for each tier and hop index the input after the last
granted (R337), and the heartbeat periods at which the ends disagreed (R344). -/
structure Link where
  state : LinkState
  peer : Nat
  /-- The port at the other end (R360). -/
  peerPort : Nat
  version : Nat
  keys : List Byte
  low : Bool
  txSeq : W64
  rxSeq : W64
  unacked : List Frame
  open_ : List (Packet × Nat)
  credits : List Nat
  due : List Nat
  waiting : List Buffered
  failed : Bool
  nakDue : Bool
  starved : Nat
  rr : List Nat
  rrIn : List Nat
  disagreements : List Nat
  deriving DecidableEq, Repr

/-- A request in flight on a stream. -/
structure Sent where
  seq : BitVec 16
  flits : Nat
  packet : Packet
  beforeHalving : Bool
  deriving DecidableEq, Repr

/-- The source's end of a stream (R333, R340). -/
structure Stream where
  dst : Nat
  tier : Nat
  nextSeq : BitVec 16
  window : Nat
  sent : List Sent
  queued : List Packet
  good : Nat
  deriving DecidableEq, Repr

/-- The destination's end of a stream (R333, R335). -/
structure InStream where
  src : Nat
  tier : Nat
  expect : BitVec 16
  early : List Packet
  replies : List Packet
  deriving DecidableEq, Repr

/-- What an outstanding request to another node is for (R307). -/
inductive ReqUse where
  /-- The lanes of a wave that wait for it. -/
  | lane
  /-- The lanes of a wave that fetch a line (R334). -/
  | fetch (line : W64)
  /-- An engine command of a tile, and the line it reads. -/
  | cmd (id line : Nat)
  /-- A counter block that a tile's engine steps for a command (R296). -/
  | block (id step : Nat)
  /-- A request of a third node, performed at the frame that stands for the home (R285): its source, tier, SEQ and step. -/
  | forward (src tier : Nat) (seq : BitVec 16) (step : Nat)
  /-- The write grant of a page, for the fault record with a SEQ in a die's queue (R285). -/
  | grant (die : Nat) (seq : W32)
  /-- The arrival word of a unit at a level bound to the fabric domain: its increment, or a read of it (R348). -/
  | arrival (bar : Nat) (poll : Bool)
  /-- A word that a launch waits for or raises (R258, R259). -/
  | word (launch field : Nat)
  deriving DecidableEq, Repr

/-- An outstanding request to another node (R307); `part` holds what earlier replies to the same access brought. `tile` is the tile
whose tag it holds; 192 stands for the service kernel. -/
structure RemoteReq where
  rtag : Nat
  tile : Nat
  wave : Nat
  lane : Nat
  dst : Nat
  seq : BitVec 16
  tier : Nat
  part : List Byte
  use : ReqUse
  deriving DecidableEq, Repr

/-- A step of a request of a third node that this home has passed on to the node that holds the page, with its answer (R285). An RSTF
takes two steps, its data and its increment (R341). -/
structure Forward where
  src : Nat
  tier : Nat
  seq : BitVec 16
  step : Nat
  answer : Option (Nat × List Byte)
  deriving DecidableEq, Repr

/-- The package's end of the Bysum fabric: `beats` counts heartbeat periods; `graph` holds the links that the manager knows to be up, each by
a node, its port and its neighbour, and `stale` that it has changed since the tables were computed (R328). -/
structure Fabric where
  node : Nat
  links : List Link
  routes : Sparse (BitVec 128)
  streams : List Stream
  ins : List InStream
  reqs : List RemoteReq
  out : List Packet
  manager : Nat
  missed : Nat
  beats : Nat
  tablesSent : Nat
  grantHolders : Sparse Nat
  readers : List (Nat × Nat)
  forwards : List Forward
  /-- Where the search for a free request tag begins (R307). -/
  nextTag : Nat
  /-- The value of `beats` when this package became manager (R328). -/
  elected : Nat
  /-- Sectors that PAGE packets are bringing: the page, the sector and the frame (R286). -/
  coming : List (Nat × Nat × Nat)
  graph : List (Nat × Nat × Nat)
  stale : Bool
  deriving DecidableEq, Repr

/-! ## The whole -/

/-- An issue slot being performed (R267): the wave, the group's PC and lanes, the wave as it stood when the cycle began (where
two groups issue in one cycle, R18, R102), and, for replayed instructions, the word and the captured operands. -/
structure Slot where
  wave : Nat
  pc : W64
  lanes : List Nat
  snap : Option Wave
  replay : Option Redo
  caps : List (Nat × Cap)
  /-- The second of a pair: it issues for the lanes that the first took to it (R49). -/
  follow : Bool
  deriving DecidableEq, Repr

/-- A prefetch that waits on a fault record (R290): the die and SEQ of the record, the lane, the access, and whether its HINT fills no
cache (R182). -/
structure Prefetch where
  die : Nat
  seq : W32
  wave : Nat
  lane : Nat
  addr : Nat
  size : Nat
  bypass : Bool
  deriving DecidableEq, Repr

/-- A delivery to frame 0 in a DELIVER ring (R374): `pc` is where the continuation resumes, `src` the instruction it comes from. -/
structure Delivery where
  wave : Nat
  lane : Nat
  name : W32
  kind : BitVec 2
  pb : Nat
  token : W64
  pc : W64
  src : W64
  deriving DecidableEq, Repr

/-- Package-wide state: bring-up, identity, counters of the service kernel, configuration semaphore; `waiting` holds host requests
that wait for pages (R370, R373). -/
structure Package where
  tileMap : List Nat
  bootCount : W64
  attestCount : W64
  epoch : W64
  keyCount : W64
  /-- Trainings of die-to-die links, and which of the ring's four links are up, that of die d by d (R346, R358). -/
  trainings : W64
  d2dUp : List Bool
  firmware : BitVec 512
  recovery : Bool
  /-- What each port has sent of a firmware image (R378). -/
  uploads : List (Nat × List Byte)
  nextFreeze : W32
  /-- Where the next launch's arrival words go, from the start of their range (R348). -/
  nextWord : Nat
  consumed : List W32
  nextHandle : Nat
  cfgOwner : Option Nat
  /-- Ranges of local HBM that have left a world's grant and still hold what was enciphered for it: base, length, world, key (R354). -/
  formerly : List (Nat × Nat × Nat × BitVec 256)
  sequenced : Nat
  linkUp : List Bool
  fns : List HostFn
  dax : List DaxMap
  waiting : List Instr
  /-- What the last read of a control register, or of a function's ISR byte, gave its reader. -/
  readback : W64
  /-- Waiters of the service kernel on fault records: the operation that waits, the die and the SEQ (R290). -/
  asked : List (Instr × Nat × W32)
  replies : List Reply
  log : List LogEntry
  /-- Code objects that are BOUND on other packages, as their service kernels have told (R372). -/
  boundAway : List (Nat × W64)
  deriving DecidableEq, Repr

/-- The state of the package. -/
structure State where
  slots : List Slot
  agenda : List Instr
  turn : Nat
  freeCtr : Nat
  waves : List Wave
  teams : List Team
  launches : List Launch
  barriers : List Barrier
  deliveries : List Delivery
  prefetches : List Prefetch
  ctxs : List Ctx
  worlds : List World
  tiles : List Tile
  dies : List Die
  mem : List Host.Cell
  home : List Host.Cell
  frameMap : Sparse FrameEntry
  poison : List Nat
  /-- Lines of pages at their homes that are poisoned (R298). -/
  homePoison : List Nat
  regPoison : List (Nat × Nat × Nat)
  counters : Sparse (BitVec 16)
  stackCount : List Nat
  pinned : List (Nat × Nat)
  dirty : List Nat
  fetchLines : Sparse FetchLine
  images : List Image
  proxy : List Proxied
  fabric : Fabric
  pkg : Package
  deriving DecidableEq, Repr

/-! ## Reset -/

/-- Each bit of a 48-bit word set (R350). -/
def ones48 : BitVec 48 := BitVec.allOnes 48

/-- A tile after reset (R22, R299, R350). -/
def Tile.reset : Tile :=
  { cycle := 0, clock := .running, fzImage := 0, fzOp := 0, fzPmask := 0, busy := false, status := 0, freezeId := 0
    fzpc := [0, 0, 0, 0], pworld := 0, bown0 := ones48, bown1 := ones48, refused := false, zeroing := [], zeroParts := []
    retention := .normal, cmds := [], nextCmd := 0, fills := [], passes := [] }

/-- A die after reset; DESIGN CHOICE (log 5): it is present. -/
def Die.reset : Die :=
  { present := true, order := [], woken := [], faultq := [], seq := 0, answer := 0, adverts := [], sinceAdvert := 0, mhz := 2250, applied := 0 }

/-- A world that does not exist, with the defaults of R274 and R294. -/
def World.reset : World :=
  { live := false, grants := [], auths := [], port := none, doldrums := 45000, cold := 4, high := 95, low := 90
    lineKey := none, sealKeys := [], wdigest := 0, console := [] }

/-- A link after reset (R336): untrained, every credit held. -/
def Link.reset : Link :=
  { state := .down, peer := 0, peerPort := 0, version := 0, keys := [], low := false, txSeq := 0, rxSeq := 0, unacked := [], open_ := []
    credits := List.replicate 18 32, due := List.replicate 18 0, waiting := [], failed := false, nakDue := false, starved := 0
    rr := List.replicate 3 0, rrIn := List.replicate 18 0, disagreements := [] }

/-- The fabric's end after reset; DESIGN CHOICE (log 5): package number 0. -/
def Fabric.reset : Fabric :=
  { node := 0, links := List.replicate 36 Link.reset, routes := [], streams := [], ins := [], reqs := []
    out := [], manager := 0, missed := 0, beats := 0, tablesSent := 0, grantHolders := [], readers := [], forwards := []
    coming := [], graph := [], stale := false, nextTag := 0, elected := 0 }

/-- Package-wide state after reset; DESIGN CHOICE (log 5, 6): logical tile t of a die on physical tile t, counters zero, links
up. -/
def Package.reset : Package :=
  { tileMap := (List.range 160).map fun n => n / 40 * 48 + n % 40
    bootCount := 0, attestCount := 0, epoch := 0, keyCount := 0, firmware := 0, recovery := false
    trainings := 0, d2dUp := List.replicate 4 true, uploads := [], boundAway := []
    nextFreeze := 1, nextWord := 0, consumed := [], nextHandle := 1, cfgOwner := none, formerly := [], sequenced := 0, linkUp := [true, true]
    fns := [], dax := [], waiting := [], readback := 0, asked := [], replies := [], log := [] }

/-- The region of 192 MiB that the intake spills into (R335). DESIGN CHOICE (log 15): the last of a die's HBM. -/
def intakeRange (die : Nat) : Nat × Nat := ((die + 1) * 3 * 2 ^ 36 - 192 * 2 ^ 20, 192 * 2 ^ 20)

/-- The region of tile images (R304, R353). DESIGN CHOICE (log 15): 4 GiB below the last 4 GiB of a die's HBM. -/
def imageRange (die : Nat) : Nat × Nat := ((die + 1) * 3 * 2 ^ 36 - 2 ^ 33, 2 ^ 32)

/-- The region of the arrival words of R348, which the service kernel holds. DESIGN CHOICE (log 15): what lies between the two. -/
def wordRange (die : Nat) : Nat × Nat := ((die + 1) * 3 * 2 ^ 36 - 2 ^ 32, 2 ^ 32 - 192 * 2 ^ 20)

/-- What stands reserved within world 0's grant (R353). -/
def reservedRanges (die : Nat) : List (Nat × Nat) := [imageRange die, wordRange die, intakeRange die]

/-- World 0 as bring-up leaves it: its grant holds the reserved regions (R353), and its line key is derived under epoch 0 (R355). -/
def World.zero (die : Nat) : World :=
  { World.reset with live := true, grants := reservedRanges die, lineKey := some (worldKeyOf (text "line") 0 [] 0) }

/-- The package right after reset: no world but world 0, no context, no launch, nothing listed in memory. -/
def State.reset : State :=
  { slots := [], agenda := [], turn := 0, freeCtr := 0, waves := [], teams := [], launches := [], barriers := []
    deliveries := [], prefetches := [], ctxs := [], worlds := World.zero 3 :: List.replicate 63 World.reset
    tiles := List.replicate 192 Tile.reset, dies := List.replicate 4 Die.reset, mem := [], home := [], frameMap := []
    poison := [], homePoison := [], regPoison := [], counters := [], stackCount := List.replicate 12 0, pinned := [], dirty := []
    fetchLines := [], images := [], proxy := [], fabric := Fabric.reset, pkg := Package.reset }

end Sys2Proof.Machine
end

