-- ==== Sys2Proof/Machine/Bits.lean ====
section
/-! DEFINITION. Bit fields, bytes and sparse maps: the helpers every operation is written with. -/

namespace Sys2Proof.Machine

/-! ## Sparse maps -/

/-- The value at a key, the default where none is listed. -/
def Sparse.get {α : Type} (d : α) : Sparse α → Nat → α
  | [], _ => d
  | (k', v) :: m, k => if k' = k then v else Sparse.get d m k

/-- The map without a key. -/
def Sparse.erase {α : Type} (m : Sparse α) (k : Nat) : Sparse α := m.filter fun e => e.1 != k

/-- Put an entry before the first greater key. -/
def Sparse.insert {α : Type} : Sparse α → Nat → α → Sparse α
  | [], k, v => [(k, v)]
  | (k', v') :: m, k, v => if k < k' then (k, v) :: (k', v') :: m else (k', v') :: Sparse.insert m k v

/-- Set the value at a key; setting the default removes the entry. -/
def Sparse.set {α : Type} [DecidableEq α] (d : α) (m : Sparse α) (k : Nat) (v : α) : Sparse α :=
  if v = d then Sparse.erase m k else Sparse.insert (Sparse.erase m k) k v

/-- Keys rise strictly and no entry holds the default. -/
def Sparse.wf {α : Type} [DecidableEq α] (d : α) : Sparse α → Bool
  | [] => true
  | (k, v) :: m => decide (v ≠ d) && m.all (fun e => decide (k < e.1)) && Sparse.wf d m

/-! ## Fields and integers -/

/-- `n` bits of a natural number from bit `lo` up. -/
def bitsOf (x lo n : Nat) : Nat := x / 2 ^ lo % 2 ^ n

/-- The low `n` bits of an operand, as a natural number. -/
def lowNat (x : W128) (n : Nat) : Nat := x.toNat % 2 ^ n

/-- The low `n` bits of an operand, two's complement. -/
def lowInt (x : W128) (n : Nat) : Int :=
  let u := lowNat x n
  if 2 * u < 2 ^ n then (u : Int) else (u : Int) - 2 ^ n

/-- An integer modulo 2^n as an operand (`lo` of chapter 5). -/
def ofInt (x : Int) (n : Nat) : W128 := BitVec.ofNat 128 (x % 2 ^ n).toNat

/-- A natural number modulo 2^n as an operand. -/
def ofNat (x n : Nat) : W128 := BitVec.ofNat 128 (x % 2 ^ n)

/-- The number of set bits among the low `n`. -/
def popcount (x n : Nat) : Nat := ((List.range n).filter fun i => x.testBit i).length

/-- The number of zero bits above the highest set bit among the low `n` (R114). -/
def leadingZeros (x n : Nat) : Nat := if x % 2 ^ n = 0 then n else n - 1 - Nat.log2 (x % 2 ^ n)

/-- The low `n` bits in reversed order (R114). -/
def reverseBits (x n : Nat) : Nat :=
  (List.range n).foldl (fun acc i => if x.testBit i then acc + 2 ^ (n - 1 - i) else acc) 0

/-! ## Words -/

/-- The low 32 bits. -/
def lo32 (x : W128) : W32 := x.extractLsb' 0 32

/-- The k-th 32-bit word of an operand. -/
def word32 (x : W128) (k : Nat) : W32 := x.extractLsb' (32 * k) 32

/-- A 32-bit word as an operand. -/
def ext32 (x : W32) : W128 := x.setWidth 128

/-- A 64-bit word as an operand. -/
def ext64 (x : W64) : W128 := x.setWidth 128

/-- The low 64 bits. -/
def lo64 (x : W128) : W64 := x.setWidth 64

/-- Replace bit `n` of a 16-bit word. -/
def setBit16 (x : BitVec 16) (n : Nat) (b : Bool) : BitVec 16 :=
  if b then x ||| (1#16 <<< n) else x &&& ~~~(1#16 <<< n)

/-! ## Lists -/

/-- Replace the element at a place by a function of it. -/
def modifyAt {α : Type} (l : List α) (i : Nat) (f : α → α) : List α := l.modify i f

/-- The distinct elements, first occurrences kept. -/
def distinct (l : List Nat) : List Nat := l.foldl (fun acc x => if acc.contains x then acc else acc ++ [x]) []

end Sys2Proof.Machine
end

