-- ==== Sys2Proof/Machine/Memory.lean ====
section
/-! DEFINITION. The memory of the package: one canonical list of bytes under natural keys. Local HBM has its physical address
as key (R280); the slices (R278) follow above it. Byte order is decided here once (R74). -/

namespace Sys2Proof.Machine

/-- DESIGN CHOICE (log 2): what a byte that nothing has written reads as. -/
def emptyByte : Byte := 0

/-- The canonical form of memory: keys rise, and no entry equals what an unlisted byte reads as. -/
abbrev Memory.wf (m : List Host.Cell) : Prop := Sparse.wf emptyByte m = true

/-- One byte. -/
def Memory.byte (m : List Host.Cell) (k : Nat) : Byte := Sparse.get emptyByte m k

/-- Write one byte. -/
def Memory.setByte (m : List Host.Cell) (k : Nat) (b : Byte) : List Host.Cell := Sparse.set emptyByte m k b

/-- `n` bytes from a key up. -/
def Memory.bytes (m : List Host.Cell) (k : Nat) : Nat → List Byte
  | 0 => []
  | n + 1 => Memory.byte m k :: Memory.bytes m (k + 1) n

/-- Write bytes from a key up. -/
def Memory.write (m : List Host.Cell) (k : Nat) : List Byte → List Host.Cell
  | [] => m
  | b :: bs => Memory.write (Memory.setByte m k b) (k + 1) bs

/-- A little-endian number of `n` bytes. -/
def Memory.read (m : List Host.Cell) (k n : Nat) : Nat := ofBytes (Memory.bytes m k n)

/-- Zero `n` bytes from a key up. -/
def Memory.clear (m : List Host.Cell) (k n : Nat) : List Host.Cell := m.filter fun c => c.1 < k || k + n ≤ c.1

/-- The listed bytes of a range, at keys counted from its start. -/
def Memory.cut (m : List Host.Cell) (k n : Nat) : List Host.Cell :=
  (m.filter fun c => decide (k ≤ c.1) && decide (c.1 < k + n)).map fun c => (c.1 - k, c.2)

/-- Replace a range by listed bytes counted from its start. -/
def Memory.paste (m : List Host.Cell) (k n : Nat) (cells : List Host.Cell) : List Host.Cell :=
  cells.foldl (fun m c => if c.1 < n then Memory.setByte m (k + c.1) c.2 else m) (Memory.clear m k n)

/-- A piece of an access: `len` bytes from `key` up. -/
abbrev Piece := Nat × Nat

/-- The bytes of the pieces in order. -/
def Memory.readPieces (m : List Host.Cell) : List Piece → List Byte
  | [] => []
  | (k, n) :: ps => Memory.bytes m k n ++ Memory.readPieces m ps

/-- Write bytes over the pieces in order. -/
def Memory.writePieces (m : List Host.Cell) : List Piece → List Byte → List Host.Cell
  | [], _ => m
  | (k, n) :: ps, bs => Memory.writePieces (Memory.write m k (bs.take n)) ps (bs.drop n)

/-- Stretches of `n` bytes from `k` that lie in one 64 KiB page each; `fuel` bounds their number. -/
def stretches : Nat → Nat → Nat → List Piece
  | 0, _, _ => []
  | fuel + 1, k, n =>
    if n = 0 then []
    else
      let m := min n (65536 - k % 65536)
      (k, m) :: stretches fuel (k + m) (n - m)

/-! ## Keys -/

/-- One past the last physical address of local HBM: 12 stacks of 64 GiB (R280). -/
def hbmLimit : Nat := 12 * 2 ^ 36

/-- The first address of backed space (R280). -/
def backedBase : Nat := 2 ^ 51

/-- The key of a byte of a physical tile's slice (R278). -/
def sliceKey (tile byte : Nat) : Nat := 2 ^ 52 + tile * 2 ^ 19 + byte

/-- The key of a byte at a page's home (R284): the home's kind, its number and the address there. -/
def homeKey (e : FrameEntry) (o : Nat) : Nat :=
  (e.hkind.toNat * 2 ^ 12 + e.hid.toNat) * 2 ^ 64 + e.hpage.toNat * 2 ^ 16 + o

/-- The 64-byte line of a key (R298). -/
def lineOf (k : Nat) : Nat := k / 64

end Sys2Proof.Machine
end

