-- ==== Sys2Proof/Machine/Translate.lean ====
section
/-! DEFINITION. From a virtual address to a place: the regions of R23, the page table (R281), the frame map (R284, R285), the
scratch map (R287), tensor windows (R216) and the checks of R174, in their order. -/

namespace Sys2Proof.Machine

/-- How an access uses its bytes. -/
inductive Mode where
  | read | write | rmw | fetch
  deriving DecidableEq, Repr

/-- Who makes an access: context, world, tile, partition, the thread's serial and private descriptor, the code of R289, whether the
access goes on from step 8 of R174 (R175), whether it has fabric scope (R232, R285), and whether it is a step on an exact
accumulator (R194). -/
structure Who where
  ctx : Nat
  world : Nat
  tile : Nat
  part : Nat
  serial : BitVec 40
  pbase : Nat
  psize : Nat
  acc : Nat
  late : Bool
  fabric : Bool
  xa : Bool
  early : Bool
  deriving DecidableEq, Repr

/-- What the checks of R174 answer. -/
inductive Acc where
  /-- Every check passed: the pieces of memory, and for a sealed tensor its identifier, entry and byte offset (R357). -/
  | ok (pieces : List Piece) (pad : Option (Nat × BitVec 512 × Nat))
  /-- A check failed. -/
  | trap (k : TrapKind)
  /-- The lane blocks (R175), posting a fault record where one is due (R289). -/
  | block (w : Wait) (post : Option FaultRec)
  /-- The place is at another package (`false`) or at a pool node, under its home address. -/
  | remote (node : Nat) (home : Nat)
  /-- A fetch meets UNBOUND code (R146). -/
  | unbound (obj : W64)
  deriving DecidableEq, Repr

def Mode.writes : Mode → Bool
  | .write | .rmw => true
  | _ => false

def Mode.reads : Mode → Bool
  | .write => false
  | _ => true

/-! ## Tensor entries (R31) -/

/-- A field of a tensor-table entry. -/
def tfield (e : BitVec 512) (lo n : Nat) : Nat := bitsOf e.toNat lo n

def tFmt (e : BitVec 512) : Nat := tfield e 56 8
def tRank (e : BitVec 512) : Nat := tfield e 53 3
def tSealed (e : BitVec 512) : Bool := e.getLsbD 52
def tSide (e : BitVec 512) : Bool := e.getLsbD 51
def tBlk (e : BitVec 512) : Nat := tfield e 48 3
def tVersion (e : BitVec 512) : Nat := tfield e 0 48
def tKey (e : BitVec 512) : Nat := tfield e 108 8
def tWorld (e : BitVec 512) : Nat := tfield e 116 6
/-- Buffer A or B base, a physical address. -/
def tBase (e : BitVec 512) (side : Bool) : Nat := tfield e (if side then 128 else 64) 44 * 256
def tScaleOff (e : BitVec 512) : Nat := tfield e 192 40
/-- Size of dimension d, 0 to 4. -/
def tDim (e : BitVec 512) (d : Nat) : Nat := tfield e (256 + 24 * d) 24
/-- Stride of dimension d in elements; dimension 0 is contiguous. -/
def tStride (e : BitVec 512) (d : Nat) : Nat := if d = 0 then 1 else tfield e (384 + 32 * (d - 1)) 32

/-- The element type an FMT code names (R31). -/
def fmtTy (f : Nat) : Option Ty :=
  match f with
  | 1 => some .d8 | 2 => some .gf8 | 3 => some .f16 | 4 => some .bf16 | 5 => some .f32 | 6 => some .f64
  | 7 => some .b8 | 8 => some .b16 | 9 => some .b32 | 10 => some .b64 | _ => none

/-- Element size in bytes (R181). -/
def fmtSize (f : Nat) : Nat := ((fmtTy f).map Ty.bytes).getD 1

/-- Element offset of an index list in elements (R181): dimensions within RANK only. -/
def tElement (e : BitVec 512) (i : List Nat) : Nat :=
  ((List.range (tRank e)).map fun d => tStride e d * i.getD d 0).foldl (· + ·) 0

/-- Byte offset of the scale of an element (R91); indices beyond RANK count as zero. -/
def tScale (e : BitVec 512) (i : List Nat) : Nat :=
  let x (d : Nat) : Nat := if d < tRank e then i.getD d 0 else 0
  let nb := (tDim e 0 + 31) / 32
  tScaleOff e + x 0 / 32 + nb * (x 1 + tDim e 1 * (x 2 + tDim e 2 * (x 3 + tDim e 3 * x 4)))

/-- Bytes of the scale plane's rows: nb times the product of the dimensions above the first (R91). -/
def tScaleBytes (e : BitVec 512) : Nat :=
  (tDim e 0 + 31) / 32 *
    ((List.range (tRank e)).map fun d => if d = 0 then 1 else tDim e d).foldl (· * ·) 1

/-- The extent of a buffer (R216). -/
def tExtent (e : BitVec 512) : Nat :=
  let body := fmtSize (tFmt e) * (1 + ((List.range (tRank e)).map fun d => (tDim e d - 1) * tStride e d).foldl (· + ·) 0)
  if tBlk e = 1 then max body (tScaleOff e + tScaleBytes e) else body

/-! ## Tables -/

/-- A context by its place in the state. -/
def State.ctx? (s : State) (c : Nat) : Option Ctx := s.ctxs.find? fun x => x.num == c && x.live

/-- A frame-map entry that is all zero. -/
def FrameEntry.zero : FrameEntry := ⟨0, 0, 0, false, .absent, false, false, 0, 0⟩

/-- The frame-map entry of a backed page (R284). -/
def State.frameOf (s : State) (page : Nat) : FrameEntry := Sparse.get FrameEntry.zero s.frameMap page

/-- A tensor-table entry (R31). -/
def Ctx.tensor (c : Ctx) (tid : Nat) : BitVec 512 := Sparse.get 0 c.tensors tid

/-- A scratch-map entry (R287); entry 0xFFFF is always zero (R257). -/
def Ctx.smap (c : Ctx) (lt : Nat) : W64 := if lt = 0xFFFF then 0 else Sparse.get 0 c.scratch lt

def State.tile (s : State) (t : Nat) : Tile := s.tiles.getD t Tile.reset
def State.world (s : State) (w : Nat) : World := s.worlds.getD w World.reset
def State.die (s : State) (d : Nat) : Die := s.dies.getD d Die.reset

/-- The world of a partition (R350). -/
def Tile.partWorld (t : Tile) (p : Nat) : Nat := bitsOf t.pworld.toNat (6 * p) 6

/-- The owner of a bank (R350), none where it is unassigned. -/
def Tile.bankOwner (t : Tile) (b : Nat) : Option Nat :=
  let o := if b < 16 then bitsOf t.bown0.toNat (3 * b) 3 else bitsOf t.bown1.toNat (3 * (b - 16)) 3
  if o < 6 then some o else none

/-- The world a bank belongs to (R350). -/
def Tile.bankWorld (t : Tile) (b : Nat) : Option Nat := (t.bankOwner b).map t.partWorld

/-- The die whose stacks hold frames for a value of PA[17:16] (R285, R380): the next present die, wrapping. -/
def State.dieFor (s : State) (v : Nat) : Nat :=
  (((List.range 4).map fun k => (v + k) % 4).find? fun d => (s.die d).present).getD v

/-- Whether local HBM holds the address (R280, R380). -/
def State.isLocal (s : State) (pa : Nat) : Bool := decide (pa < hbmLimit) && (s.die (pa / 2 ^ 36 / 3)).present

/-- Whether a physical address is mapped at all (R280). -/
def State.paMapped (s : State) (pa : Nat) : Bool := s.isLocal pa || (decide (backedBase ≤ pa) && decide (pa < 2 ^ 52))

/-- Whether ranges together cover `size` bytes from `pa`, following at most `n` of them. -/
def covered (ranges : List (Nat × Nat)) : Nat → Nat → Nat → Bool
  | 0, _, _ => false
  | n + 1, pa, size =>
    match ranges.find? fun r => decide (r.1 ≤ pa) && decide (pa < r.1 + r.2) with
    | none => false
    | some r => decide (pa + size ≤ r.1 + r.2) || covered ranges n (r.1 + r.2) (pa + size - (r.1 + r.2))

/-- Whether a range lies within a world's grant, in one range of it or across adjacent ones (R353). -/
def State.granted (s : State) (w pa size : Nat) : Bool :=
  covered (s.world w).grants (s.world w).grants.length pa size

/-- Whether a piece touches a poisoned line (R298). -/
def State.poisoned (s : State) (ps : List Piece) : Bool :=
  ps.any fun p => s.poison.any fun l => decide (lineOf p.1 ≤ l) && decide (l ≤ lineOf (p.1 + p.2 - 1))

/-- A fault record as it is posted; SEQ is given by the queue (R289). -/
def faultReq (who : Who) (kind : FaultKind) (va aux : Nat) (sect : Nat) : FaultRec :=
  { va := BitVec.ofNat 64 va, ctx := who.ctx, seq := 0, aux := BitVec.ofNat 64 aux, die := who.tile / 48
    ptile := who.tile % 48, part := who.part, sect := sect, kind := kind, acc := who.acc, waiters := 0 }

/-- A route-table entry for a node, none where the node cannot be reached (R329). -/
def Fabric.route (f : Fabric) (n : Nat) : Option (BitVec 128) :=
  let e := Sparse.get 0 f.routes n
  let x := e.toNat
  let hops := bitsOf x 124 3
  let tierOk (t : Nat) : Bool := bitsOf x (40 * t + 27) 13 == 0 &&
    (hops == 0 || (decide (1 ≤ bitsOf x (40 * t + 24) 3) && decide (bitsOf x (40 * t + 24) 3 ≤ 4)))
  if e.getLsbD 127 && bitsOf x 120 4 == 0 && decide (hops ≤ 6) && tierOk 0 && tierOk 1 && tierOk 2 then some e else none

/-- Post a record of a page and wait for its answer (R285, R289): `va` is the virtual page that a WRITE record names. -/
def State.askPage (s : State) (who : Who) (k : FaultKind) (va pa : Nat) : Acc :=
  .block (.fault (s.dieFor (pa / 65536 % 4)) 0) (some (faultReq who k va (pa / 65536 * 65536) (pa % 65536 / 2048)))

/-- Whether a write to an address waits for its page's write grant (R285). -/
def State.grantWait (s : State) (pa : Nat) : Bool :=
  let e := s.frameOf (pa / 65536)
  !(s.isLocal pa) && e.hkind != 0 && !e.wg

/-- Whether another node holds a read copy of the page of this package at an address (R285). -/
def State.copied (s : State) (pa : Nat) : Bool := s.isLocal pa && s.fabric.readers.any fun r => r.1 == pa / 65536

/-- The parts of a range in each 64 KiB page, of a range that crosses at most one page boundary. -/
def pageParts (pa size : Nat) : List Piece :=
  let n := 65536 - pa % 65536
  if size ≤ n then [(pa, size)] else [(pa, n), (pa + n, size - n)]

/-- The other node that holds the write grant of a page of this package (R285). -/
def Fabric.holder (f : Fabric) (page : Nat) : Option Nat :=
  let w := Sparse.get 0 f.grantHolders page
  if w = 0 then none else some (w - 1)

/-- Set in the address of a request that is performed at the frame which stands for the sender's page (R285, log 21). -/
def atFrameBit : Nat := 2 ^ 63

/-- The first sector of a range that an arriving page still lacks. -/
def FrameEntry.lacks (e : FrameEntry) (o size : Nat) : Option Nat :=
  (List.range 32).find? fun k => decide (o / 2048 ≤ k) && decide (k ≤ (o + size - 1) / 2048) && !e.smask.getLsbD k

/-- Step 8 on a physical address (R280, R284, R285): where the bytes are, or why the access waits. A page of this package whose grant
another node holds is served at that node's frame at fabric scope, and comes back first at a narrower one. An access to a home that no
route reaches asks the service kernel, whose answer alone is XLATE (R282). -/
def State.locate (s : State) (who : Who) (pa size : Nat) : Acc :=
  if s.isLocal pa then
    (match s.fabric.holder (pa / 65536) with
     | none => .ok [(pa, size)] none
     | some h => if who.fabric && (s.fabric.route h).isSome then .remote h (atFrameBit + pa) else .block (.recall (pa / 65536)) none)
  else if ¬ (backedBase ≤ pa ∧ pa < 2 ^ 52) then .trap .xlate
  else
    let page := pa / 65536
    let e := s.frameOf page
    let o := pa % 65536
    let key := e.frame * 65536 + o
    let away : Acc :=
      if (s.fabric.route e.hid.toNat).isSome then .remote e.hid.toNat (e.hpage.toNat * 65536 + o) else s.askPage who .frame 0 pa
    if !e.v || (e.direct && who.xa && e.hkind == 2) then s.askPage who .frame 0 pa
    else if e.direct || (e.hkind != 0 && !e.wg && who.fabric && who.acc == 0 && !(who.xa && e.hkind == 2) &&
        (s.fabric.route e.hid.toNat).isSome) then away
    else
      match e.state with
      | .present => .ok [(key, size)] none
      | .arriving =>
        (match e.lacks o size with
         | none => .ok [(key, size)] none
         | some k => .block (.page page k) none)
      | .absent => s.askPage who .frame 0 pa
      | .departing => .block (.page page (o / 2048)) none

/-- Step 8 on each part of a range: the first that fails decides (R174). -/
def State.locateAll (s : State) (who : Who) : List Piece → Acc
  | [] => .ok [] none
  | p :: rest =>
    match s.locate who p.1 p.2 with
    | .ok q pad =>
      match rest, s.locateAll who rest with
      | [], _ => .ok q pad
      | _, .ok r _ => .ok (q ++ r) pad
      | _, .remote n h => .remote n (h - p.2)
      | _, a => a
    | .remote n h =>
      match s.locateAll who rest with
      | .ok .. | .remote .. => .remote n h
      | a => a
    | a => a

/-- Steps 9 to 11 over the parts of a range: seal, permission (page and grant, R353), a write grant where a write that is permitted
needs one and the return of the copies of a page written at its home (R285), data. `va` is the virtual address of the range. An `early` access
is refused by seal and permission before it waits for a page (R377). -/
def State.permitAll (s : State) (who : Who) (mode : Mode) (sealedT perm : Bool) (va : Nat) (parts : List Piece) (a : Acc) : Acc :=
  let mayNot := !perm || !parts.all fun p => s.granted who.world p.1 p.2
  match a with
  | .ok ps pad =>
    if sealedT && mode.writes then .trap .sealed
    else if mayNot then .trap .protect
    else
      match if mode.writes then parts.find? fun p => s.grantWait p.1 else none with
      | some p => s.askPage who .write ((va + (p.1 - (parts.headD (0, 0)).1)) / 65536 * 65536) p.1
      | none =>
        match if mode.writes then parts.find? fun p => s.copied p.1 else none with
        | some p => .block (.recall (p.1 / 65536)) none
        | none => if mode.reads && s.poisoned ps then .trap .poison else .ok ps pad
  | .remote n h => if sealedT && mode.writes then .trap .sealed else if mayNot then .trap .protect else .remote n h
  | .block w post =>
    if who.early && sealedT && mode.writes then .trap .sealed else if who.early && mayNot then .trap .protect else .block w post
  | a => a

/-- Steps 9 to 11 on a range of physical memory. -/
def State.permit (s : State) (who : Who) (mode : Mode) (sealedT perm : Bool) (va pa size : Nat) (a : Acc) : Acc :=
  s.permitAll who mode sealedT perm va (pageParts pa size) a

/-! ## The page table (R281) -/

/-- What a walk finds: a leaf with its permissions and the physical address, or an entry that is not valid. -/
inductive Walk where
  | leaf (pa : Nat) (rd wr ex : Bool)
  | invalid
  /-- A table lies in backed space and its entry cannot be read yet (R280). -/
  | stuck (a : Acc)
  deriving DecidableEq, Repr

/-- One table level: the shift of its index, its entry count, and whether its leaf is a page. -/
structure Level where
  shift : Nat
  entries : Nat
  last : Bool

/-- The four levels of R281. -/
def walkLevels : List Level := [⟨47, 8192, false⟩, ⟨36, 2048, false⟩, ⟨25, 2048, false⟩, ⟨16, 512, true⟩]

/-- A page-table entry at a mapped place as the walker reads it (R280): in local HBM, in its page's frame, or at its page's home; or why it
must wait. -/
def State.tableEntry (s : State) (who : Who) (place : Nat) : Except Acc Nat :=
  if s.isLocal place then .ok (Memory.read s.mem place 8)
  else
    match s.locate who place 8 with
    | .ok ps _ => .ok (ofBytes (Memory.readPieces s.mem ps))
    | .remote _ _ => .ok (Memory.read s.home (homeKey (s.frameOf (place / 65536)) (place % 65536)) 8)
    | a => .error a

/-- The walk, from the table at `table` down the levels left. An entry with a nonzero reserved field, or LG outside level 2, is
treated as not valid; so is one that names an unmapped address, be it a page's or a table's. A table may lie in either space (R280): the
walker reads an entry of backed space in its page's frame, or waits for it. DESIGN CHOICE (log 73): a TBASE that is not aligned to its
table's size, for which R281 states no response, is used as it stands. -/
def State.walk (s : State) (who : Who) (va : Nat) : List Level → Nat → Walk
  | [], _ => .invalid
  | l :: ls, table =>
    if !s.paMapped (table + 8 * (va / 2 ^ l.shift % l.entries)) then .invalid
    else match s.tableEntry who (table + 8 * (va / 2 ^ l.shift % l.entries)) with
    | .ok e =>
      let big := l.shift == 25 && e.testBit 62
      if !e.testBit 63 then .invalid
      else if l.last || big then
        let pa := bitsOf e 16 36 * 65536
        if bitsOf e 52 7 ≠ 0 ∨ bitsOf e 0 16 ≠ 0 ∨ (e.testBit 62 && !big) ∨ (big && bitsOf e 16 9 ≠ 0) then .invalid
        else
          let full := pa + va % 2 ^ l.shift
          if s.paMapped full then .leaf full (e.testBit 61) (e.testBit 60) (e.testBit 59) else .invalid
      else if e.testBit 62 ∨ bitsOf e 52 10 ≠ 0 ∨ bitsOf e 0 12 ≠ 0 then .invalid
      else s.walk who va ls (bitsOf e 12 40 * 4096)
    | .error a => .stuck a

/-! ## Scratchpad -/

/-- The rules of R287 for a scratch-map entry; one that breaks them is not valid. -/
def smapValid (e : W64) : Bool :=
  let x := e.toNat
  let nbank := bitsOf x 56 6
  e.getLsbD 63 && bitsOf x 52 4 == 0 && bitsOf x 0 3 == 0 && decide (1 ≤ nbank) && decide (nbank ≤ 32) &&
  (e.getLsbD 62 || (bitsOf x 16 36 == 0 && decide (bitsOf x 8 6 < 48) && decide (bitsOf x 3 5 + nbank ≤ 32)))

/-- Where a scratch number stands: at most 32 banks of a tile from a first bank, or a memory copy (R287). -/
inductive Scratch where
  | slice (tile bank nbank : Nat)
  | copy (page nbank : Nat)
  deriving DecidableEq, Repr

/-- Read a scratch-map entry. -/
def scratchOf (e : W64) : Option Scratch :=
  let x := e.toNat
  if !smapValid e then none
  else if e.getLsbD 62 then some (.copy (bitsOf x 16 36 * 65536) (bitsOf x 56 6))
  else some (.slice (bitsOf x 14 2 * 48 + bitsOf x 8 6) (bitsOf x 3 5) (bitsOf x 56 6))

/-- The scratch number of a team (R257): LTBASE plus its index. -/
def State.scratchNo (s : State) (t : Team) : Nat :=
  match s.launches[t.launch]? with
  | some l => bitsOf l.record.toNat (16 * 8 + 32) 16 + t.index
  | none => 0xFFFF

/-- SCRATCH of the team that holds a scratch number of a context (R257). -/
def State.scratchBytes (s : State) (ctx lt : Nat) : Nat :=
  let of (t : Team) : Option Nat :=
    match s.launches[t.launch]? with
    | some l =>
      if decide (bitsOf l.record.toNat (24 * 8 + 32) 32 = ctx) && l.header.scratch != 0 && t.state != .ended &&
          s.scratchNo t == lt then some l.header.scratch else none
    | none => none
  (s.teams.findSome? of).getD 0

/-- Whether a scratch number belongs to a team that an image holds (R303). -/
def State.scratchFrozen (s : State) (ctx lt : Nat) : Bool :=
  s.teams.any fun t => t.state == .frozen && s.scratchNo t == lt &&
    match s.launches[t.launch]? with
    | some l => bitsOf l.record.toNat (24 * 8 + 32) 32 == ctx
    | none => false

/-- Whether a tile's arrays can be reached now (R297, R303, R351). -/
def Tile.reachable (t : Tile) (bank : Nat) : Bool :=
  t.clock == .running && t.retention == .normal && !t.zeroing.contains bank

/-- An access to the scratchpad (R24, R174 steps 6 and 7). -/
def State.scratchAccess (s : State) (who : Who) (c : Ctx) (va size : Nat) (mode : Mode) : Acc :=
  let lt := bitsOf va 44 16
  let b := va % 2 ^ 19
  if bitsOf va 19 25 ≠ 0 then .trap .xlate
  else
    match scratchOf (c.smap lt) with
    | none => .trap .xlate
    | some p =>
      if s.scratchBytes c.num lt < b + size then .trap .xlate
      else
        match p with
        | .copy page nbank =>
          if nbank * 16384 < b + size ∨ ¬ (s.isLocal page ∧ s.granted c.world page (nbank * 16384)) then .trap .xlate
          else s.permit who mode false true va (page + b) size (s.locateAll who (pageParts (page + b) size))
        | .slice tile bank nbank =>
          let t := s.tile tile
          let banks := [bank + b / 16384, bank + (b + size - 1) / 16384]
          let ps : List Piece := [(sliceKey tile (bank * 16384 + b), size)]
          if nbank * 16384 < b + size then .trap .xlate
          else if banks.any fun k => t.bankWorld k != some who.world then .trap .world
          else if (banks.any fun k => !t.reachable k) || s.scratchFrozen c.num lt then .block (.array tile) none
          else if mode.reads && s.poisoned ps then .trap .poison
          else .ok ps none

/-! ## The checks of R174 -/

/-- First address of the tensor windows (R216). -/
def windowBase : Nat := 0x3F00000000000000

/-- An access through a tensor window (R32, R216). One that goes on from step 8 of R174 is translated through the entry as it then stands, its
extent and world not checked again (R175). -/
def State.windowAccess (s : State) (who : Who) (c : Ctx) (va size : Nat) (mode : Mode) : Acc :=
  let tid := (va - windowBase) / 2 ^ 40
  let o := va % 2 ^ 40
  let e := c.tensor tid
  let pa := tBase e (tSide e) + o
  if tFmt e = 0 then .trap .xlate
  else if tExtent e < o + size ∧ !who.late then .trap .stray
  else if tWorld e ≠ who.world ∧ !who.late then .trap .world
  else
    match s.locateAll who (pageParts pa size) with
    | .ok ps _ => s.permit who mode (tSealed e) true va pa size (.ok ps (if tSealed e then some (tid, e, o) else none))
    | a => s.permit who mode (tSealed e) true va pa size a

/-- The residency record that holds all the bytes of a range (R30). -/
def Ctx.recAt (c : Ctx) (va size : Nat) : Option ObjRec :=
  c.recs.find? fun r => decide (r.base.toNat ≤ va) && decide (va + size ≤ r.base.toNat + r.extent)

/-- Whether the directory has retired the object (R28). -/
def Ctx.retired (c : Ctx) (obj : W64) : Bool := c.dir.any fun d => d.obj == obj && d.retired

/-- Post the MAP record of a page whose walk met V = 0 (R282). -/
def askMap (who : Who) (va : Nat) : Acc :=
  .block (.fault (who.tile / 48) 0) (some (faultReq who .map (va / 65536 * 65536) 0 (va % 65536 / 2048)))

/-- What a table entry permits (R281): EX is honoured in region 0x5 only. DESIGN CHOICE (log 74): a step that reads what it replaces, be it an
atomic, an `exadd` or the increment of an `rstf` (R190, R192, R195), needs RD beside WR. -/
def leafPermits (region : Nat) (rd wr ex : Bool) : Mode → Bool
  | .read => rd
  | .write => wr
  | .rmw => rd && wr
  | .fetch => region == 5 && ex

/-- The walks of the pages of a range of virtual addresses: where they lie, with what the entries permit, or why the access waits. -/
def State.walkAll (s : State) (who : Who) (c : Ctx) (mode : Mode) : List Piece → Except Acc (List Piece × Bool)
  | [] => .ok ([], true)
  | p :: rest =>
    match s.walk who (p.1 % 2 ^ 60) walkLevels (c.roots.getD (p.1 / 2 ^ 60) 0) with
    | .invalid => .error (askMap who p.1)
    | .stuck a => .error a
    | .leaf pa rd wr ex =>
      match s.walkAll who c mode rest with
      | .ok r => .ok ((pa, p.2) :: r.1, leafPermits (p.1 / 2 ^ 60) rd wr ex mode && r.2)
      | .error a => .error a

/-- An access through a page table (R281, R282); `may` is what else the access needs. -/
def State.tableAccess (s : State) (who : Who) (c : Ctx) (va size : Nat) (mode : Mode) (may : Bool) : Acc :=
  match s.walkAll who c mode (pageParts va size) with
  | .error a => a
  | .ok (parts, perm) => s.permitAll who mode false (perm && may) va parts (s.locateAll who parts)

/-- An access to the object or code window (R26 to R30, R174 steps 3 to 11), through the window's page table. In a context without a
table for the window, the run of R292 stands for the entries, which map the range onto it (log 12). -/
def State.objectAccess (s : State) (who : Who) (c : Ctx) (va size : Nat) (mode : Mode) : Acc :=
  match c.recAt va size with
  | none => .trap .stray
  | some r =>
    let pa := r.run + (va - r.base.toNat)
    let perm :=
      match mode with
      | .fetch => r.kind == 2
      | .read => true
      | _ => r.kind == 0 || (r.kind == 2 && r.writable)
    if c.retired r.obj && !who.late then .trap .noname
    else if r.kind = 2 ∧ r.state ≠ .bound then
      (if mode = .fetch then (if r.state = .binding then .block (.binding c.num r.obj) none else .unbound r.obj)
       else .trap .xlate)
    else if c.roots.getD (va / 2 ^ 60) 0 = 0 then s.permit who mode false perm va pa size (s.locateAll who (pageParts pa size))
    else s.tableAccess who c va size mode perm

/-- An access to the thread's private space (R283): PBASE + o through the table of PBASE's region. -/
def State.privAccess (s : State) (who : Who) (c : Ctx) (va size : Nat) (mode : Mode) : Acc :=
  let o := va % 2 ^ 60
  if who.psize < o + size then
    .block (.fault (who.tile / 48) 0) (some (faultReq who .priv (va / 65536 * 65536) 0 (o % 65536 / 2048)))
  else s.tableAccess who c (who.pbase + o) size mode true

/-- The checks of R174 on `size` bytes at `va`, aligned to `align`, that cross at most one 64 KiB boundary. -/
def State.access (s : State) (who : Who) (va size align : Nat) (mode : Mode) : Acc :=
  match s.ctx? who.ctx with
  | none => .trap .xlate
  | some c =>
    let region := va / 2 ^ 60
    if region = 0xF then .trap .protect
    else if 0x8 ≤ region then .trap .xlate
    else if va % align ≠ 0 then .trap .misalign
    else if region < 4 then
      (if windowBase ≤ va then s.windowAccess who c va size mode else s.tableAccess who c va size mode true)
    else if region < 6 then s.objectAccess who c va size mode
    else if region = 6 then s.scratchAccess who c va size mode
    else s.privAccess who c va size mode

end Sys2Proof.Machine
end

