-- ==== Sys2Proof/Machine/Fetch.lean ====
section
/-! DEFINITION. Code lines: their check bits (R45, R46), fetch versions (R321), slots and program counters (R47, R59), and the
entry check of a transfer of control (R48, R146). -/

namespace Sys2Proof.Machine

/-! ## Program counters -/

/-- The slot number of a PC (R59). -/
def slotNumber (pc : W64) : Nat := pc.toNat / 64 * 5 + pc.toNat % 64 / 12

/-- The PC of a slot number (R59). -/
def slotPc (n : Nat) : W64 := BitVec.ofNat 64 (n / 5 * 64 + 12 * (n % 5))

/-- The next slot (R47). -/
def nextPc (pc : W64) : W64 := slotPc (slotNumber pc + 1)

/-- The target of a slot displacement (R59); one below slot 0 gives an address outside the code window. -/
def relPc (pc : W64) (disp : BitVec 30) : W64 := slotPc ((slotNumber pc : Int) + disp.toInt).toNat

/-- Region and slot offset of a PC (R47). -/
def pcOk (pc : W64) : Bool := pc.toNat / 2 ^ 60 == 5 && pc.toNat % 64 % 12 == 0 && decide (pc.toNat % 64 ≤ 48)

/-- The line of a PC. -/
def linePc (pc : W64) : Nat := pc.toNat / 64 * 64

/-! ## Lines -/

/-- The check of R45 over bytes 0 to 61 and CHK: the exclusive OR of all the line's 16-bit pieces is zero. -/
def lineCheck (line : Nat) : Bool := ((List.range 32).foldl (fun acc k => acc ^^^ bitsOf line (16 * k) 16) 0) == 0

/-- Line-word bits [15:9] (R44). -/
def lineReserved (line : Nat) : Bool := bitsOf line 489 7 != 0

/-- TGT of a slot (R44). -/
def lineTgt (line slot : Nat) : Bool := line.testBit (480 + slot)

/-- The word of a slot (R43). -/
def lineWord (line slot : Nat) : IWord := BitVec.ofNat 96 (bitsOf line (96 * slot) 96)

/-- The slot of a PC. -/
def pcSlot (pc : W64) : Nat := pc.toNat % 64 / 12

/-- The key of a physical address in the memory of the package: local HBM or the page's frame; none where the bytes stand at the page's home
alone (R280, R285). -/
def State.keyOf (s : State) (pa : Nat) : Option Nat :=
  if s.isLocal pa then some pa
  else
    let e := s.frameOf (pa / 65536)
    let o := pa % 65536
    let here := match e.state with
      | .present | .departing => true
      | .arriving => e.smask.getLsbD (o / 2048)
      | .absent => false
    if here then some (e.frame * 65536 + o) else none

/-- The bytes at a physical address wherever they stand: local HBM, the frame, or the page's home (R280, R285). -/
def State.peek (s : State) (pa n : Nat) : Nat :=
  match s.keyOf pa with
  | some k => Memory.read s.mem k n
  | none => Memory.read s.home (homeKey (s.frameOf (pa / 65536)) (pa % 65536)) n

/-- The fetch version of the code line at a physical address (R321). -/
def State.lineVersion (s : State) (pa : Nat) : Nat :=
  match s.fetchLines.find? (fun e => e.1 == pa / 64) with
  | some e => e.2.version.toNat
  | none => s.peek pa 64

/-- The physical lines of bound code whose bytes stand at a key of memory. -/
def State.codeLines (s : State) (key : Nat) : List Nat :=
  s.ctxs.flatMap fun c => c.recs.flatMap fun r =>
    if c.live && r.kind == 2 && r.state == .bound then
      (if s.isLocal r.run then (if r.run ≤ key ∧ key < r.run + r.extent then [key / 64] else [])
       else
        ((List.range ((r.extent + 65535) / 65536)).filter fun i =>
            let e := s.frameOf (r.run / 65536 + i)
            e.state != .absent && e.frame == key / 65536).map fun i =>
          ((r.run / 65536 + i) * 65536 + key % 65536) / 64)
    else []

/-- Before bytes of a code line are written: its version is kept, and moves on once every byte has been written (R321). -/
def State.touchLine (s : State) (line first n : Nat) : Sparse FetchLine :=
  let f0 := ((s.fetchLines.find? fun e => e.1 == line).map (·.2)).getD ⟨BitVec.ofNat 512 (s.peek (line * 64) 64), 0⟩
  let f := { f0 with written := f0.written ||| BitVec.ofNat 64 ((2 ^ n - 1) * 2 ^ first) }
  let rest := Sparse.erase s.fetchLines line
  if f.written = BitVec.allOnes 64 then rest else Sparse.insert rest line f

/-- Mark a write of `n` bytes at a key, within one line. -/
def State.touchCode (s : State) (key n : Nat) : State :=
  (s.codeLines key).foldl (fun s line => { s with fetchLines := s.touchLine line (key % 64) n }) s

/-! ## Entry into a line -/

/-- The physical place of an address in a code record's range: by the code window's table, or on the run (R281, R292; log 12). -/
def State.codePa (s : State) (ctx : Nat) (r : ObjRec) (va : Nat) : Nat :=
  let run := r.run + (va - r.base.toNat)
  match s.ctx? ctx with
  | none => run
  | some c =>
    if c.roots.getD 5 0 = 0 then run
    else
      match s.walk ⟨ctx, c.world, 0, 0, 0, 0, 0, 2, false, false, false, false⟩ (va % 2 ^ 60) walkLevels (c.roots.getD 5 0) with
      | .leaf pa _ _ _ => pa
      | _ => run

/-- What the destination of a transfer shows. -/
inductive Entry where
  | ok
  /-- R47 fails, or the TGT bit is clear. -/
  | clear
  /-- In the code window but in no object's range. -/
  | gap
  | unbound (obj : W64)
  | binding (obj : W64)
  deriving DecidableEq, Repr

/-- The code record that holds a line. -/
def Ctx.codeRec (c : Ctx) (pc : W64) : Option ObjRec :=
  c.recs.find? fun r => r.kind == 2 && decide (r.base.toNat ≤ linePc pc) &&
    decide (linePc pc + 64 ≤ r.base.toNat + r.extent)

/-- The check of R48 and R146 on a destination. DESIGN CHOICE (log 36): the TGT bit is read from the line as it stands, its check bits
(R45) not examined; the fetch at the destination examines them. -/
def State.entryCheck (s : State) (ctx : Nat) (pc : W64) : Entry :=
  if !pcOk pc then .clear
  else
    match (s.ctx? ctx).bind fun c => c.codeRec pc with
    | none => .gap
    | some r =>
      match r.state with
      | .unbound => .unbound r.obj
      | .binding => .binding r.obj
      | _ => if lineTgt (s.lineVersion (s.codePa ctx r (linePc pc))) (pcSlot pc) then .ok else .clear

/-- The record of unbound or binding code that a transfer meets: the transfer raises BIND or waits (R146). -/
def Entry.binds : Entry → Bool
  | .unbound _ | .binding _ => true
  | _ => false

/-! ## Fetch -/

/-- PAIR of the slot at a PC (R44): whether it and the next slot of its line may issue together. -/
def State.pairBit (s : State) (who : Who) (pc : W64) : Bool :=
  ((s.ctx? who.ctx).bind fun c => c.codeRec pc).any fun r =>
    (s.lineVersion (s.codePa who.ctx r (linePc pc))).testBit (485 + pcSlot pc)

/-- What a fetch answers. -/
inductive Fetched where
  | word (w : IWord)
  | trap (k : TrapKind)
  | block (w : Wait) (post : Option FaultRec)
  | unbound (obj : W64)
  /-- The line lies at another node. -/
  | far (node home : Nat)
  deriving DecidableEq, Repr

/-- The word of a PC in a line that has been read: the line's check comes before its reserved bits (R45, R46). -/
def fetchedLine (line : Nat) (pc : W64) : Fetched :=
  if !lineCheck line then .trap .parity
  else if lineReserved line then .trap .illegal
  else .word (lineWord line (pcSlot pc))

/-- Fetch the word at a PC (R43, R46, R146, R174). -/
def State.fetch (s : State) (who : Who) (pc : W64) : Fetched :=
  match s.access who (linePc pc) 64 64 .fetch with
  | .ok _ _ =>
    match (s.ctx? who.ctx).bind fun c => c.codeRec pc with
    | none => .trap .stray
    | some r => fetchedLine (s.lineVersion (s.codePa who.ctx r (linePc pc))) pc
  | .trap k => .trap k
  | .block w p => .block w p
  | .remote n h => .far n h
  | .unbound o => .unbound o

end Sys2Proof.Machine
end

