-- ==== Sys2Proof/Machine/Points.lean ====
section
/-! DEFINITION. What every write to memory does to the bytes of a point (R191, R286, R294, R298, R321), and the requests that go to
other nodes (R285, R332 to R335, R340). -/

namespace Sys2Proof

/-- Flits of a packet (R332). -/
def Packet.flits (p : Packet) : Nat := 1 + (p.data.length - 32 + 63) / 64

/-- The tier of a type (R334). -/
def PacketType.tier : PacketType → Nat
  | .write | .rstf => 1
  | .page | .team | .advert => 2
  | _ => 0

end Sys2Proof

namespace Sys2Proof.Machine

/-! ## Bytes -/

/-- The stretches of a range that lie in one 64-byte line each, from `n` bytes at `k`. -/
def lineParts : Nat → Nat → Nat → List Piece
  | 0, _, _ => []
  | fuel + 1, k, n =>
    if n = 0 then []
    else
      let m := min n (64 - k % 64)
      (k, m) :: lineParts fuel (k + m) (n - m)

/-- The line parts of a piece. -/
def Piece.lines (p : Piece) : List Piece := lineParts (p.2 / 64 + 2) p.1 p.2

/-- Count the 64-byte accesses of a piece that reach HBM (R294). -/
def State.countPiece (s : State) (p : Piece) : State :=
  if hbmLimit ≤ p.1 then s
  else
    let n := (Piece.lines p).length
    let frame := p.1 / 65536
    let c := min ((Sparse.get 0 s.counters frame).toNat + n) 0xFFFF
    { s with counters := Sparse.set 0 s.counters frame (BitVec.ofNat 16 c)
             stackCount := modifyAt s.stackCount (p.1 / 2 ^ 36) (· + n) }

/-- Count the accesses of an instruction. -/
def State.count (s : State) (ps : List Piece) : State := ps.foldl State.countPiece s

/-- Write the bytes of one line part: the fetch version (R321), the poison of a line written whole (R298) and the page's
dirtiness (R286) follow. -/
def State.storeLine (s : State) (k : Nat) (bs : List Byte) : State :=
  let s1 := s.touchCode k bs.length
  { s1 with mem := Memory.write s1.mem k bs
            poison := if bs.length = 64 then s1.poison.filter (· != lineOf k) else s1.poison
            dirty := if k < hbmLimit ∧ ¬ s1.dirty.contains (k / 65536) then s1.dirty ++ [k / 65536] else s1.dirty }

/-- Write bytes over the pieces in order. -/
def State.store (s : State) : List Piece → List Byte → State
  | [], _ => s
  | p :: ps, bs =>
    let r := (Piece.lines p).foldl (fun (a : State × List Byte) q => (a.1.storeLine q.1 (a.2.take q.2), a.2.drop q.2)) (s, bs)
    r.1.store ps r.2

/-- The service kernel writes bytes at a physical address wherever they stand: local HBM, the frame, or the page's home (R280, R285). -/
def State.poke (s : State) (pa : Nat) (bs : List Byte) : State :=
  match s.keyOf pa with
  | some k => s.store [(k, bs.length)] bs
  | none => { s with home := Memory.write s.home (homeKey (s.frameOf (pa / 65536)) (pa % 65536)) bs }

/-- Poisoned lines, without those that lie wholly in a range (R298). -/
def healed (poison : List Nat) (k n : Nat) : List Nat :=
  poison.filter fun l => !(decide (k ≤ 64 * l) && decide (64 * l + 64 ≤ k + n))

/-- Zero a range of memory by its key, as a write does: whole lines lose their poison (R298), and a page in HBM is dirty (R286). -/
def State.wipe (s : State) (k n : Nat) : State :=
  { s with mem := Memory.clear s.mem k n, poison := healed s.poison k n
           dirty := if k < hbmLimit ∧ ¬ s.dirty.contains (k / 65536) then s.dirty ++ [k / 65536] else s.dirty }

/-- Zero the part of a page at a physical address wherever it stands. -/
def State.blankPart (s : State) (pa n : Nat) : State :=
  match s.keyOf pa with
  | some k => s.wipe k n
  | none =>
    let k := homeKey (s.frameOf (pa / 65536)) (pa % 65536)
    { s with home := Memory.clear s.home k n, homePoison := healed s.homePoison k n }

/-- The service kernel zeroes a range of physical memory, page after page wherever each stands (R280, R285). -/
def State.blank (s : State) (pa n : Nat) : State := (stretches (n / 65536 + 2) pa n).foldl (fun s p => s.blankPart p.1 p.2) s

/-! ## Streams (R333, R340) -/

/-- A packet of a world, its other fields zero. -/
def State.packet (s : State) (world : Nat) (t : PacketType) (dst addr : Nat) : Packet :=
  { typ := t, reply := false, src := BitVec.ofNat 12 s.fabric.node, dst := BitVec.ofNat 12 dst
    addr := BitVec.ofNat 64 addr, aux := 0, seq := 0, rtag := 0, world := BitVec.ofNat 6 world, tier := t.tier, hop := 0
    sq := false, echo := false, opc := 0, wt := .b32, scope := .wave, ord := .rlx, status := 0, resv := 0, data := [] }

/-- A stream before its first request. -/
def Stream.fresh (dst tier : Nat) : Stream :=
  { dst := dst, tier := tier, nextSeq := 0, window := 32, sent := [], queued := [], good := 0 }

/-- Outstanding flits (R340). -/
def Stream.outstanding (x : Stream) : Nat := (x.sent.map (·.flits)).foldl (· + ·) 0

/-- Send the queued requests that fit in the window: the stream, and the packets that leave. -/
def Stream.pump (x : Stream) : List Packet → Stream × List Packet
  | [] => ({ x with queued := [] }, [])
  | p :: ps =>
    if x.outstanding + p.flits ≤ x.window then
      let r := Stream.pump { x with sent := x.sent ++ [⟨p.seq, p.flits, p, false⟩] } ps
      (r.1, p :: r.2)
    else ({ x with queued := p :: ps }, [])

/-- The stream to a node in a tier. -/
def Fabric.stream (f : Fabric) (dst tier : Nat) : Stream :=
  (f.streams.find? fun x => x.dst == dst && x.tier == tier).getD (Stream.fresh dst tier)

/-- Put a stream back. -/
def Fabric.setStream (f : Fabric) (x : Stream) : Fabric :=
  { f with streams := (f.streams.filter fun y => !(y.dst == x.dst && y.tier == x.tier)) ++ [x] }

/-- Queue a request on its stream, under the stream's next SEQ, and send what the window admits. -/
def Fabric.request (f : Fabric) (p : Packet) : Fabric :=
  let x := f.stream p.dst.toNat p.tier
  let r := Stream.pump { x with nextSeq := x.nextSeq + 1 } (x.queued ++ [{ p with seq := x.nextSeq }])
  let f' := f.setStream r.1
  { f' with out := f.out ++ r.2 }

/-- The first of `n` numbers from `k` on, modulo 3,072, that passes a test. -/
def firstTag (ok : Nat → Bool) : Nat → Nat → Option Nat
  | 0, _ => none
  | n + 1, k => if ok k then some k else firstTag ok n ((k + 1) % 3072)

/-- A request tag that none of some requests holds. DESIGN CHOICE (log 21): the tags are given in turn, so that a later copy of a reply names a
tag that is long out of use (R333). -/
def Fabric.tagFree (f : Fabric) (l : List RemoteReq) : Option Nat := firstTag (fun t => !l.any fun r => r.rtag == t) 3072 f.nextTag

/-- Send a request under a tag (R333). -/
def State.requestAs (s : State) (tag : Nat) (p : Packet) : State :=
  let f := s.fabric.request { p with rtag := tag }
  { s with fabric := { f with nextTag := (tag + 1) % 3072 } }

/-- Send a request for whose reply nothing waits under a tag (R333). -/
def State.request (s : State) (p : Packet) : State := s.requestAs ((s.fabric.tagFree s.fabric.reqs).getD s.fabric.nextTag) p

/-- The tile number under which the service kernel's own requests stand. -/
def kernelTile : Nat := 192

/-- A request tag for a tile, of its 3,072 (R2, R307): one that no tile uses where there is one, so that replies are told apart by their
tags as far as they can be (log 21). -/
def State.freeTag (s : State) (tile : Nat) : Option Nat :=
  (s.fabric.tagFree s.fabric.reqs).or (s.fabric.tagFree (s.fabric.reqs.filter fun r => r.tile == tile))

/-- Send a request under a tag of a tile, none while the tile has none free; the tag comes back with the state. -/
def State.requestFor (s : State) (tile wave lane : Nat) (part : List Byte) (use : ReqUse) (p : Packet) : Option (State × Nat) :=
  (s.freeTag tile).map fun t =>
    let r : RemoteReq :=
      { rtag := t, tile := tile, wave := wave, lane := lane, dst := p.dst.toNat
        seq := (s.fabric.stream p.dst.toNat p.tier).nextSeq, tier := p.tier, part := part, use := use }
    let s' := s.requestAs t p
    ({ s' with fabric := { s'.fabric with reqs := s'.fabric.reqs ++ [r] } }, t)

/-! ## Pages of this package that other nodes hold (R285) -/

/-- The nodes other than one that hold a page of this package: under a write grant, and for a write as readers too (R285). -/
def Fabric.holders (f : Fabric) (page src : Nat) (writes : Bool) : List Nat :=
  ((f.holder page).toList.filter (· != src)) ++
    (if writes then (f.readers.filter fun r => r.1 == page && r.2 != src).map (·.2) else [])

/-- Note a node that holds a copy of a page of this package. -/
def Fabric.addReader (f : Fabric) (page n : Nat) : Fabric :=
  { f with readers := if f.readers.contains (page, n) then f.readers else f.readers ++ [(page, n)] }

/-- Whether a page has been recalled from a node, and the reply is still to come. -/
def Fabric.recalled (f : Fabric) (page n : Nat) : Bool :=
  let x := f.stream n 0
  let asked (p : Packet) : Bool := p.typ == .recall && p.addr.toNat == page * 65536
  x.sent.any (fun e => asked e.packet) || x.queued.any asked

/-- Recall a page from its holders, once each (R285). -/
def State.recallFrom (s : State) (page : Nat) (nodes : List Nat) : State :=
  nodes.foldl (fun s n => if s.fabric.recalled page n then s else s.request (s.packet 0 .recall n (page * 65536))) s

/-- Recall a page of this package for an access of its own. -/
def State.recallHome (s : State) (page : Nat) : State := s.recallFrom page (s.fabric.holders page s.fabric.node true)

/-- Whether a holder of a page of this package is still to be asked for it. -/
def State.recallDue (s : State) (page : Nat) : Bool :=
  (s.fabric.holders page s.fabric.node true).any fun n => !s.fabric.recalled page n

/-! ## Other packages (R328, R372) -/

/-- Pool nodes that this package knows of (R284): they are no packages. -/
def State.poolNodes (s : State) : List Nat := distinct ((s.frameMap.filter fun e => e.2.hkind == 2).map fun e => e.2.hid.toNat)

/-- Other packages that can be reached. -/
def State.peers (s : State) : List Nat :=
  (s.fabric.routes.map (·.1)).filter fun n => n != s.fabric.node && (s.fabric.route n).isSome && !s.poolNodes.contains n

/-- The service kernel tells every other package something, in a MANAGER packet (log 21). -/
def State.tellPeers (s : State) (p : State → Nat → Packet) : State := s.peers.foldl (fun s n => s.request (p s n)) s

/-- The other packages hear that a code object of a context is BOUND here: its file is written no more (R372; MANAGER with OPC 7, log 21). -/
def State.tellBound (s : State) (ctx : Nat) (obj : W64) : State :=
  s.tellPeers fun s n => { s.packet 0 .manager n ctx with opc := 7, data := toBytes obj.toNat 8 }

/-! ## Replicas (R375) -/

/-- A change of what every instance of the service kernel replicates is sequenced, and every instance has applied it. -/
def State.sequence (s : State) : State :=
  let n := s.pkg.sequenced + 1
  { s with pkg := { s.pkg with sequenced := n }
           dies := s.dies.map fun d => if d.present then { d with applied := n } else d }

end Sys2Proof.Machine
end

