-- ==== Sys2Proof/Machine/Ops.lean ====
section
/-! DEFINITION. The operations every meaning is written with: access to threads, waves and registers, the issue of an
instruction to a PC group (R52, R61), trap entries (R37, R176), and the taking of an effect (R156) with the return from it
(R159). -/

namespace Sys2Proof.Machine

/-- The outcome of a step. -/
abbrev Out := Host.Outcome State Fault Refusal

/-! ## Threads and waves -/

/-- A lane that has no thread. -/
def Thread.blank : Thread :=
  { status := .absent, pc := 0, preds := 1, vregs := [], frames := [], fidCtr := 1, serial := 0, places := [], rets := []
    areas := [], wait := .none, redo := [], hold := [], passed := 0, arrivals := [], idx := [], pbase := 0, psize := 0 }

/-- Lanes of a declared width (R8). -/
def Width.lanes : Width → Nat
  | .w16 => 16 | .w32 => 32 | .w64 => 64 | .w128 => 128

/-- Lanes of a block (R12, R17). -/
def Width.block : Width → Nat
  | .w16 => 16 | _ => 32

/-- A wave that does not exist. -/
def Wave.blank : Wave :=
  { team := 0, ctx := 0, width := .w32, compat := false, vBudget := 1, sBudget := 0, pBudget := 1, levels := 3
    threads := [], sregs := [], tags := [], moved := [], fpflags := 0, newFlags := 0, fetched := none, trapq := [], held := .none, pending := [], spoiled := [], reissued := []
    resident := false, tile := 0, part := 0, half := 0, more := [], active := false, lastIssue := 0, notReady := 0, readySince := 0, stay := 0
    issues := 0, groups := [] }

def State.wave (s : State) (w : Nat) : Wave := s.waves.getD w Wave.blank

def Wave.thread (wv : Wave) (l : Nat) : Thread := wv.threads.getD l Thread.blank

def State.thread (s : State) (w l : Nat) : Thread := (s.wave w).thread l

def State.modWave (s : State) (w : Nat) (f : Wave → Wave) : State := { s with waves := modifyAt s.waves w f }

def Wave.modThread (wv : Wave) (l : Nat) (f : Thread → Thread) : Wave := { wv with threads := modifyAt wv.threads l f }

def State.modThread (s : State) (w l : Nat) (f : Thread → Thread) : State := s.modWave w fun wv => wv.modThread l f

/-- Change the threads of the listed lanes. -/
def Wave.modLanes (wv : Wave) (lanes : List Nat) (f : Nat → Thread → Thread) : Wave :=
  { wv with threads := wv.threads.mapIdx fun l t => if lanes.contains l then f l t else t }

def State.modLanes (s : State) (w : Nat) (lanes : List Nat) (f : Nat → Thread → Thread) : State :=
  s.modWave w fun wv => wv.modLanes lanes f

def State.modCtx (s : State) (c : Nat) (f : Ctx → Ctx) : State :=
  { s with ctxs := s.ctxs.map fun x => if x.num == c && x.live then f x else x }

def State.modTile (s : State) (t : Nat) (f : Tile → Tile) : State := { s with tiles := modifyAt s.tiles t f }

def State.modDie (s : State) (d : Nat) (f : Die → Die) : State := { s with dies := modifyAt s.dies d f }

def State.modWorld (s : State) (w : Nat) (f : World → World) : State := { s with worlds := modifyAt s.worlds w f }

def State.modTeam (s : State) (t : Nat) (f : Team → Team) : State := { s with teams := modifyAt s.teams t f }

def State.modLaunch (s : State) (l : Nat) (f : Launch → Launch) : State := { s with launches := modifyAt s.launches l f }

/-- A team that does not exist. -/
def Team.blank : Team :=
  { launch := 0, index := 0, state := .ended, waves := [], tile := 0, bank := 0, nbank := 0, placed := false, die := 0
    cbufs := [], waited := 0, patience := 0, seen := [], context := .none, away := .none, origin := .none, outcome := .none }

def State.team (s : State) (t : Nat) : Team := s.teams.getD t Team.blank

/-- A free value, and the counter moved on (log 3). -/
def State.free (s : State) : BitVec 512 × State := (Config.freeValue s.freeCtr, { s with freeCtr := s.freeCtr + 1 })

/-- The world of a wave: that of its partition, or of its launch while it is not resident (R21, R254). -/
def State.waveWorld (s : State) (w : Nat) : Nat :=
  let wv := s.wave w
  if wv.resident then (s.tile wv.tile).partWorld wv.part
  else
    match s.launches[(s.team wv.team).launch]? with
    | some l => bitsOf l.record.toNat (24 * 8 + 4) 6
    | .none => 0

/-- Who makes an access for a lane; `acc` is the code of R289. -/
def State.who (s : State) (w l acc : Nat) : Who :=
  let wv := s.wave w
  let t := wv.thread l
  ⟨wv.ctx, s.waveWorld w, wv.tile, wv.part, t.serial, t.pbase, t.psize, acc, false, false, false, false⟩

/-! ## Registers -/

/-- A vector register of a thread (R11). -/
def Thread.v (t : Thread) (r : Nat) : W32 := Sparse.get 0 t.vregs r

/-- Write a vector register. -/
def Thread.setV (t : Thread) (r : Nat) (x : W32) : Thread := { t with vregs := Sparse.set 0 t.vregs r x }

/-- A predicate; `p0` always reads true (R19). -/
def Thread.p (t : Thread) (n : Nat) : Bool := n == 0 || t.preds.getLsbD n

/-- Write a predicate; writes to `p0` are ignored (R19). -/
def Thread.setP (t : Thread) (n : Nat) (b : Bool) : Thread := if n = 0 then t else { t with preds := setBit16 t.preds n b }

/-- A scalar register (R18). -/
def Wave.sreg (wv : Wave) (r : Nat) : W32 := Sparse.get 0 wv.sregs r

/-- Write a scalar register. -/
def Wave.setS (wv : Wave) (r : Nat) (x : W32) : Wave := { wv with sregs := Sparse.set 0 wv.sregs r x }

/-- The 64-bit view of a pair of scalar registers (R18). -/
def Wave.sd (wv : Wave) (r : Nat) : W64 := wv.sreg (r + 1) ++ wv.sreg r

/-- The 64-bit view of a pair of vector registers (R11). -/
def Thread.dv (t : Thread) (r : Nat) : W64 := t.v (r + 1) ++ t.v r

/-- Write the `n` words of a view. -/
def Thread.setWords (t : Thread) (r n : Nat) (x : W128) : Thread :=
  (List.range n).foldl (fun t k => t.setV (r + k) (word32 x k)) t

/-- The shape tag of a register in a block (R12). -/
def Wave.tag (wv : Wave) (b r : Nat) : Tag := Sparse.get .uniform wv.tags (b * 1024 + r)

/-- Set a shape tag. -/
def Wave.setTag (wv : Wave) (b r : Nat) (t : Tag) : Wave := { wv with tags := Sparse.set .uniform wv.tags (b * 1024 + r) t }

/-- The value of an operand in a lane. -/
def Wave.operand (wv : Wave) (o : Opnd) (l : Nat) : W128 :=
  let n := o.num.toNat
  let t := wv.thread l
  match o.kind with
  | .v => ext32 (t.v n)
  | .d => ext64 (t.dv n)
  | .q => t.v (n + 3) ++ t.v (n + 2) ++ t.v (n + 1) ++ t.v n
  | .s => ext32 (wv.sreg n)
  | .sd => ext64 (wv.sd n)
  | .p => if t.p n then 1 else 0
  | .none | .lvl | .imm => 0

/-- Whether an operand counts as uniform in a block (R13). -/
def Wave.uniformOpnd (wv : Wave) (o : Opnd) (b : Nat) : Bool :=
  let n := o.num.toNat
  let u (r : Nat) : Bool := wv.tag b r == .uniform
  match o.kind with
  | .v => u n
  | .d => u n && u (n + 1)
  | .q => u n && u (n + 1) && u (n + 2) && u (n + 3)
  | .p => n == 0
  | _ => true

/-- Blocks of a wave, in order. -/
def Wave.blocks (wv : Wave) : List Nat := List.range (wv.width.lanes / wv.width.block)

/-- Lanes of a block. -/
def Wave.blockLanes (wv : Wave) (b : Nat) : List Nat := (List.range wv.width.block).map fun k => b * wv.width.block + k

/-- Whether every lane of the declared width has a thread, exited or not (R251). -/
def Wave.whole (wv : Wave) : Bool := wv.threads.all fun t => t.status != .absent

/-- Whether a write by the lanes is full in a block (R13); none is in a wave with a lane that is not resident (R251). -/
def Wave.full (wv : Wave) (lanes : List Nat) (b : Nat) : Bool := wv.whole && (wv.blockLanes b).all lanes.contains

/-- Whether any of the lanes lies in a block. -/
def Wave.touches (wv : Wave) (lanes : List Nat) (b : Nat) : Bool := (wv.blockLanes b).any lanes.contains

/-- Set the tags of `n` registers from `r` after a write by the lanes: `tag b` where it is full in block b, else general. -/
def Wave.retag (wv : Wave) (lanes : List Nat) (r n : Nat) (tag : Nat → Tag) : Wave :=
  (wv.blocks.filter (wv.touches lanes)).foldl (fun wv b =>
    (List.range n).foldl (fun wv k => wv.setTag b (r + k) (if wv.full lanes b then tag b else .general)) wv) wv

/-- Write an operand: per lane into vector registers or predicates, once (with the value of the first lane) into scalar
registers. -/
def Wave.put (wv : Wave) (o : Opnd) (lanes : List Nat) (val : Nat → W128) (tag : Nat → Tag) : Wave :=
  let n := o.num.toNat
  match o.kind with
  | .v | .d | .q =>
    (wv.modLanes lanes fun l t => t.setWords n o.kind.words (val l)).retag lanes n o.kind.words tag
  | .s | .sd =>
    match lanes with
    | [] => wv
    | l :: _ => (List.range o.kind.words).foldl (fun wv k => wv.setS (n + k) (word32 (val l) k)) wv
  | .p => wv.modLanes lanes fun l t => t.setP n ((val l).getLsbD 0)
  | .none | .lvl | .imm => wv

/-! ## Groups -/

/-- The group an instruction acts on: its lanes, those whose guard is true, and where its sources are read. -/
structure Grp where
  w : Nat
  pc : W64
  word : IWord
  shape : Shape
  all : List Nat
  lanes : List Nat
  src : Wave
  replay : Option Redo
  caps : List (Nat × Cap)
  /-- What replies from another node have brought for the lanes' access (R175, R333). -/
  part : List Byte
  deriving DecidableEq, Repr

/-- The operands of a lane: captured where the instruction is replayed (R167), read otherwise. -/
def Grp.cap (g : Grp) (l : Nat) : Cap :=
  match g.caps.find? fun e => e.1 == l with
  | some e => e.2
  | none => ⟨g.src.operand g.shape.a l, g.src.operand g.shape.b l, g.src.operand g.shape.c l⟩

def Grp.a (g : Grp) (l : Nat) : W128 := (g.cap l).a
def Grp.b (g : Grp) (l : Nat) : W128 := (g.cap l).b
def Grp.c (g : Grp) (l : Nat) : W128 := (g.cap l).c

/-- The lane a scalar instruction reads as. -/
def Grp.head (g : Grp) : Nat := g.lanes.headD 0

/-- The lanes a memory instruction performs for: one for the group under S = 1 (R18). -/
def Grp.actors (g : Grp) : List Nat := if g.shape.hd.s then g.lanes.take 1 else g.lanes

/-- Whether the sources are uniform in a block. -/
def Grp.uniform (g : Grp) (b : Nat) : Bool :=
  g.src.uniformOpnd g.shape.a b && g.src.uniformOpnd g.shape.b b && g.src.uniformOpnd g.shape.c b

/-- The tag of R13 for an instruction whose lane results depend only on its sources. -/
def Grp.tag (g : Grp) (b : Nat) : Tag := if g.uniform b then .uniform else .general

/-- A write of whole registers takes the soft error away (R298). -/
def State.heal (s : State) (g : Grp) (lanes : List Nat) : State :=
  { s with regPoison := s.regPoison.filter fun e => !(e.1 == g.w && lanes.contains e.2.1 &&
      g.shape.d.ranges.any fun r => r.file == .vec && decide (r.first ≤ e.2.2) && decide (e.2.2 < r.first + r.count)) }

/-- Write D for the given lanes. -/
def State.writeD (s : State) (g : Grp) (lanes : List Nat) (val : Nat → W128) (tag : Nat → Tag) : State :=
  (s.heal g lanes).modWave g.w fun wv => wv.put g.shape.d lanes val tag

/-- Who makes an access of a lane of the group: one that goes on from step 8 where the lane has waited (R175), and of fabric scope
where the instruction names it. -/
def State.whoFor (s : State) (g : Grp) (l acc : Nat) (scope : Scope) : Who :=
  { s.who g.w l acc with late := g.replay.any (·.late), fabric := scope == .fabric }

/-- The wave's issue cycle that the instruction takes its place in (R37). -/
def Grp.issued (g : Grp) : Nat := (g.replay.map (·.issued)).getD g.src.issues

/-- The instruction as an entry of a replay queue, for one lane (R166). -/
def Grp.redo (g : Grp) (l : Nat) : Redo :=
  { pc := g.pc, word := g.word, cap := g.cap l, first := true, waitOnly := (g.replay.map (·.waitOnly)).getD false
    cmd := g.replay.bind (·.cmd), late := false, slot := none, entry := none, issued := g.issued }

/-- Whether an entry is still to be begun. -/
def TrapEntry.waits (e : TrapEntry) : Bool := !e.delivered && !e.begun

/-- Whether two entries are of one instruction and kind: they are one entry (R176). -/
def TrapEntry.same (a b : TrapEntry) : Bool := a.waits && b.waits && a.issued == b.issued && a.pc == b.pc && a.kind == b.kind

/-- Whether an entry in the queue stays before a new one: by issue cycle, within a cycle by PC, and within an instruction by the
code of the kind (R37, R176, R313). -/
def TrapEntry.before (a b : TrapEntry) : Bool :=
  !a.waits || decide (a.issued < b.issued) ||
    (a.issued == b.issued && (decide (a.pc.toNat < b.pc.toNat) || (a.pc == b.pc && decide (a.kind.code.toNat ≤ b.kind.code.toNat))))

/-- Lanes of an entry with more of them, in ascending order. -/
def TrapEntry.join (e : TrapEntry) (more : List TrapLane) : TrapEntry :=
  { e with lanes := more.foldl (fun l x =>
      l.takeWhile (fun y => decide (y.lane < x.lane)) ++ x :: l.dropWhile fun y => decide (y.lane < x.lane)) e.lanes }

/-- Put an entry in its place in the wave's issue order, or its lanes into the entry of its instruction and kind (R37, R176). -/
def putEntry (q : List TrapEntry) (e : TrapEntry) : List TrapEntry :=
  if q.any fun x => x.same e then q.map fun x => if x.same e then x.join e.lanes else x
  else q.takeWhile (fun x => x.before e) ++ e :: q.dropWhile fun x => x.before e

/-! ## Trap entries -/

/-- A trap of some lanes of an instruction: one entry (R37). What the lane had not performed stays in `redo`; its PC goes back
to the instruction (R48), and its continuation is the PC it had moved to (R164 step 5). -/
def Wave.raise (wv : Wave) (g : Grp) (k : TrapKind) (lanes : List Nat) : Wave :=
  if lanes.isEmpty then wv
  else
    let item (l : Nat) : TrapLane :=
      { lane := l, cont := (wv.thread l).pc
        redo := g.redo l :: (wv.thread l).redo.map fun r => { r with first := false } }
    let entry : TrapEntry :=
      { pc := g.pc, kind := k, issued := g.issued, lanes := lanes.map item, delivered := false, begun := false, owed := [] }
    let wv' := { wv with trapq := putEntry wv.trapq entry }
    wv'.modLanes lanes fun _ t =>
      { t with pc := if g.replay.isSome then t.pc else g.pc, redo := [], wait := .trapped }

/-- The traps of one instruction, one entry for each kind, in ascending order of code (R176). -/
def State.raise (s : State) (g : Grp) (traps : List (Nat × TrapKind)) : State :=
  TrapKind.all.foldl (fun s k =>
    s.modWave g.w fun wv => wv.raise g k ((traps.filter fun e => e.2 == k).map (·.1))) s

/-- One trap of all the given lanes. -/
def State.raiseAll (s : State) (g : Grp) (k : TrapKind) (lanes : List Nat) : State :=
  s.modWave g.w fun wv => wv.raise g k lanes

/-! ## Lanes that wait -/

/-- Whether a wait is for a page, an answer of the fault queue or room in it, for a reply or a tag, or for a word that has been read: steps 1
to 7 of R174 have been passed (R175). -/
def Wait.late : Wait → Bool
  | .fault _ _ | .page _ _ | .remote _ | .recall _ | .walker _ | .tag _ | .waitp _ _ | .cbacq _ _ => true
  | _ => false

/-- A lane whose instruction cannot be performed yet: it is kept, to be performed when the wait ends (R175). -/
def State.block (s : State) (g : Grp) (l : Nat) (wt : Wait) : State :=
  let r : Redo := { g.redo l with
    late := wt.late || g.replay.any (·.late), slot := g.replay.bind (·.slot), entry := g.replay.bind (·.entry) }
  s.modThread g.w l fun t => { t with redo := r :: t.redo, wait := wt }

/-- The other lanes of an instruction wait until its blocked lanes have finished (R53, R175). -/
def State.holdFor (s : State) (g : Grp) (blocked : List Nat) : State :=
  if blocked.isEmpty then s
  else s.modLanes g.w (g.lanes.filter fun l => !blocked.contains l) fun _ t => { t with hold := blocked }

/-- The lanes have finished the instruction they blocked at. -/
def Wave.unhold (wv : Wave) (done : List Nat) : Wave :=
  { wv with threads := wv.threads.map fun t => { t with hold := t.hold.filter fun l => !done.contains l } }

/-! ## Failed commands (R204) -/

/-- The unfinished commands of a wave, failed ones included until they have been delivered (R204). -/
def State.waveCmds (s : State) (w : Nat) : List Cmd :=
  (s.tile (s.wave w).tile).cmds.filter fun c => c.wave == w

/-- The replay entry of a failed command. -/
def Cmd.redo (c : Cmd) (issued : Nat) : Redo :=
  let pack (l : List W32) : W128 := l.getD 3 0 ++ l.getD 2 0 ++ l.getD 1 0 ++ l.getD 0 0
  let copy := c.kind == .cpy || c.kind == .cpym || c.kind == .cpyw
  { pc := c.pc, word := c.word, first := true, waitOnly := false, cmd := some c.id, late := false, slot := none, entry := none
    issued := issued
    cap := if copy then ⟨c.extent.getD 4 0 ++ c.origin.getD 4 0 ++ c.descA, pack c.origin, pack c.extent⟩
           else ⟨ext64 c.descA, ext64 c.descB, ext64 c.descC⟩ }

/-- Deliver a failed command at an instruction that waits for it: a trap of the instruction's lanes whose replay queue is the
command followed by the instruction (R204), of which only the wait is left in the lanes of `waitOnly` and nothing in those of `finished`.
The lanes stand after the instruction. -/
def State.failAt (s : State) (g : Grp) (c : Cmd) (lanes : List Nat) (waitOnly : Nat → Bool) (finished : Nat → Bool := fun _ => false) :
    State :=
  if lanes.isEmpty then s
  else
    let kind : TrapKind := match c.why with
      | .protect => .protect
      | .poison => .poison
      | _ => .xlate
    let s1 := s.modWave g.w fun wv =>
      let item (l : Nat) : TrapLane :=
        { lane := l, cont := (wv.thread l).pc
          redo := c.redo g.issued :: ((if finished l then [] else [{ g.redo l with first := false, waitOnly := waitOnly l }]) ++
            (wv.thread l).redo.map fun r => { r with first := false }) }
      let e : TrapEntry :=
        { pc := g.pc, kind := kind, issued := g.issued, lanes := lanes.map item, delivered := false, begun := false, owed := [] }
      let wv' := { wv with trapq := putEntry wv.trapq e, spoiled := wv.spoiled.filter fun p => p.2 != c.id }
      wv'.modLanes lanes fun _ t =>
        { t with pc := if g.replay.isSome then t.pc else g.pc, redo := [], wait := .trapped }
    s1.modTile (s.wave g.w).tile fun x =>
      { x with cmds := x.cmds.map fun y => if y.id = c.id then { y with state := .delivered } else y }

/-- The first failed command of a wave, not yet delivered, that passes a test. -/
def State.failedCmd (s : State) (w : Nat) (p : Cmd → Bool) : Option Cmd :=
  (s.waveCmds w).find? fun c => c.state == .failed && p c

/-- Whether some replay entry of the wave still stands for a command (R204). -/
def Wave.remembers (wv : Wave) (id : Nat) : Bool :=
  let at_ (r : Redo) : Bool := r.cmd == some id
  wv.threads.any (fun t => t.redo.any at_ || t.places.any fun p => p.live && p.cmds.any fun c => c.1 == some id) ||
  wv.trapq.any fun e => e.lanes.any fun l => !e.delivered && l.redo.any at_

/-! ## Issue -/

/-- Whether a register range keeps its budget (R14, R51). -/
def Wave.inBudget (wv : Wave) (r : RegRange) : Bool :=
  match r.file with
  | .vec => decide (r.first + r.count ≤ wv.vBudget) || r.count == 0
  | .scal => decide (r.first + r.count ≤ wv.sBudget)
  | .pred => decide (r.first + r.count ≤ wv.pBudget)

/-- Whether a lane reads a vector register that a soft error has struck (R298). -/
def State.struck (s : State) (g : Grp) (l : Nat) : Bool :=
  g.replay.isNone && g.shape.reads.any fun r => r.file == .vec &&
    s.regPoison.any fun e => e.1 == g.w && e.2.1 == l && decide (r.first ≤ e.2.2) && decide (e.2.2 < r.first + r.count)

/-- A lane that can issue. -/
def Thread.runs (t : Thread) : Bool := t.status == .live && t.wait == .none && t.hold.isEmpty

/-- Whether a lane went on to the second slot of a pair (R49). -/
def Thread.follows (t : Thread) (pc : W64) : Bool := t.runs && t.redo.isEmpty && t.pc == pc

/-- The lanes a slot issues for: of the second of a pair, those that the first took to it (R49). -/
def State.slotLanes (s : State) (sl : Slot) : List Nat :=
  let src := sl.snap.getD (s.wave sl.wave)
  if sl.follow then sl.lanes.filter fun l => (src.thread l).follows sl.pc else sl.lanes

/-- The group a slot issues, for the instruction with the given word and shape (R52). Of a replay entry, each lane that has it pending
performs it (R167). -/
def State.group (s : State) (sl : Slot) (word : IWord) (sh : Shape) : Grp :=
  let src := sl.snap.getD (s.wave sl.wave)
  let all := s.slotLanes sl
  let guard (l : Nat) : Bool := (src.thread l).p sh.hd.pg.toNat != sh.hd.pn
  ⟨sl.wave, sl.pc, word, sh, all, if sl.replay.isSome then all else all.filter guard, src, sl.replay, sl.caps, []⟩

/-- The slot is spent. The lanes of the group move on: to the next slot, or past the entry they replay. -/
def State.advance (s : State) (g : Grp) : State :=
  let step (t : Thread) : Thread := if g.replay.isSome then { t with redo := t.redo.tail } else { t with pc := nextPc t.pc }
  { s with slots := s.slots.tail, waves := modifyAt s.waves g.w fun wv => { wv.modLanes g.all fun _ t => step t with fetched := none } }

/-- After a replayed instruction: the lanes that do not stand at it again have finished it. -/
def State.finish (s : State) (g : Grp) : State :=
  if g.replay.isSome then
    s.modWave g.w fun wv =>
      wv.unhold (g.all.filter fun l => !(wv.thread l).redo.head?.any fun r => r.pc == g.pc && r.word == g.word)
  else s

/-- Whether an instruction replaces the wave's held command (R213). -/
def replacesHeld : Instr → Bool
  | .mma f | .mmasp f => f.hold
  | _ => false

/-- The matrix commands an instruction waits for: unfinished ones whose accumulator registers it names (R201), and failed ones whose
registers it reads (R204). A held command does not hold back the one that replaces it. -/
def Wave.pendingFor (wv : Wave) (i : Instr) : List Nat :=
  (wv.pending.filter fun e =>
    i.shape.ranges.any e.1.meets && !(replacesHeld i && wv.held.any fun c => c.id == e.2)).map (·.2) ++
  (wv.spoiled.filter fun e => i.shape.reads.any e.1.meets).map (·.2)

/-- How an issued word fares before its effect (R61, R14, R53): the checks in their order. -/
inductive Check where
  | run
  | trap (k : TrapKind)
  | stall
  deriving DecidableEq, Repr

/-- The checks of R61 on the group: an ILLEGAL of its own, then BUDGET, then the interlock. -/
def Grp.check (g : Grp) (i : Instr) (illegal : Bool) : Check :=
  if illegal then .trap .illegal
  else if !g.shape.ranges.all g.src.inBudget then .trap .budget
  else if !(g.src.pendingFor i).isEmpty then .stall
  else .run

/-- Issue an instruction: the checks, the guard, then its effect on the group (R61). Where nothing is issued, nothing
happens. DESIGN CHOICE (log 91): a struck operand register traps POISON (R298) in `pref`, `nameof` and `ptreq` too, of which R182, R185 and
R186 say that they raise nothing after decode, UNNAMEABLE alone, and nothing beyond decode and BUDGET. -/
def issue (i : Instr) (s : State) (illegal : Grp → Bool) (k : Grp → State → State) : Out :=
  match s.slots with
  | [] => .next s
  | sl :: _ =>
    let g := s.group sl ((encode i).getD 0) i.shape
    match g.check i (illegal g) with
    | .trap t => .next (((s.advance g).raiseAll g t g.all).finish g)
    | .stall =>
      match s.failedCmd g.w fun c => (g.src.pendingFor i).contains c.id with
      | some c => .next (((s.advance g).failAt g c g.lanes fun _ => false).finish g)
      | none => .next { s with slots := s.slots.tail }
    | .run =>
      let hit := g.lanes.filter (s.struck g)
      let g' := { g with lanes := g.lanes.filter fun l => !hit.contains l }
      let s' := s.advance g
      .next ((if hit.isEmpty then k g' s' else (k g' s').raiseAll g .poison hit).finish g)

/-- No ILLEGAL beyond the word's own. -/
def lawful (_ : Grp) : Bool := false

/-- An instruction that writes D in each executing lane from its operands there. -/
def lanesOp (i : Instr) (s : State) (val : Grp → Nat → W128) (tag : Grp → Nat → Tag := Grp.tag) : Out :=
  issue i s lawful fun g s => s.writeD g g.lanes (val g) (tag g)

/-- Flags ORed into a wave's set (R81). -/
def Wave.orFlags (wv : Wave) (f : BitVec 5) : Wave :=
  { wv with fpflags := wv.fpflags ||| f, newFlags := wv.newFlags ||| f }

/-- As `lanesOp`, for a floating-point instruction: the flags of its lanes join the wave's (R81). -/
def flagsOp (i : Instr) (s : State) (val : Grp → Nat → W128 × BitVec 5) : Out :=
  issue i s lawful fun g s =>
    (s.writeD g g.lanes (fun l => (val g l).1) g.tag).modWave g.w fun wv =>
      wv.orFlags (g.actors.foldl (fun f l => f ||| (val g l).2) 0)

/-! ## Faults in memory -/

/-- Whether two requests merge into one record (R290; a FRAME record serves every context, R285). Two threads' private pages
are different pages. -/
def FaultRec.same (a b : FaultRec) : Bool :=
  a.kind == b.kind && a.kind != .priv && a.aux == b.aux && a.va == b.va && (a.ctx == b.ctx || a.kind == .frame)

/-- The die whose queue takes a record: the die of the page for FRAME and WRITE, else that of the requester (R285, R289). -/
def State.faultDie (s : State) (r : FaultRec) : Nat :=
  match r.kind with
  | .frame | .write => s.dieFor (r.aux.toNat / 65536 % 4)
  | _ => r.die

/-- Post a fault record, or join the outstanding one it merges with: the die and SEQ waited on (R289, R290). A full queue keeps
nothing. -/
def State.post (s : State) (r : FaultRec) : State × Option (Nat × W32) :=
  let d := s.faultDie r
  let die := s.die d
  match die.faultq.find? (fun q => q.same r) with
  | some q =>
    (s.modDie d fun x => { x with faultq := x.faultq.map fun y =>
        if y.seq == q.seq then { y with waiters := min (y.waiters + 1) 0xFFFFFFFF } else y }, some (d, q.seq))
  | none =>
    if 4096 ≤ die.faultq.length then (s, none)
    else (s.modDie d fun x => { x with faultq := x.faultq ++ [{ r with seq := x.seq }], seq := x.seq + 1 }, some (d, die.seq))

/-- The wait of a lane that a check blocks, its record posted or the copies of the page recalled. While the queue is full the lane
waits at the walker (R175, R290). -/
def State.waitFor (s : State) (wt : Wait) (post : Option FaultRec) : State × Wait :=
  match post with
  | none =>
    (match wt with
     | .recall page => s.recallHome page
     | _ => s, wt)
  | some r =>
    match s.post r with
    | (s', some (d, q)) => (s', .fault d q)
    | (s', none) => (s', .walker (s.faultDie r))

/-- Block a lane of an instruction, posting its record. -/
def State.blockOn (s : State) (g : Grp) (l : Nat) (wt : Wait) (post : Option FaultRec) : State :=
  let r := s.waitFor wt post
  r.1.block g l r.2

/-! ## Continuation records (R35) -/

/-- The code of a tag (R12). -/
def Tag.code : Tag → Nat
  | .uniform => 0 | .affine => 1 | .general => 2

/-- A register as one thread's record holds it. -/
def Wave.saved (wv : Wave) (l r : Nat) : SavedReg :=
  let b := l / wv.width.block
  match wv.tag b r with
  | .uniform => .uniform ((wv.thread l).v r)
  | .affine =>
    let x := (wv.thread (b * wv.width.block)).v r
    .affine x ((wv.thread (b * wv.width.block + 1)).v r - x)
  | .general => .general ((wv.thread l).v r)

def SavedReg.tag : SavedReg → Tag
  | .uniform _ => .uniform | .affine _ _ => .affine | .general _ => .general

def SavedReg.bytes : SavedReg → List Byte
  | .uniform u => toBytes u.toNat 4
  | .affine b k => toBytes b.toNat 4 ++ toBytes k.toNat 4
  | .general x => toBytes x.toNat 4

/-- The value a saved register gives a lane. -/
def SavedReg.value (r : SavedReg) (lane block : Nat) : W32 :=
  match r with
  | .uniform u => u
  | .affine b k => b + BitVec.ofNat 32 (lane % block) * k
  | .general x => x

/-- A frame in memory (R20). -/
def HFrame.bytes (f : HFrame) : List Byte :=
  toBytes f.mtch.toNat 4 ++ toBytes f.mask.toNat 4 ++ toBytes f.hpc.toNat 8 ++ toBytes f.fid.toNat 4 ++ List.replicate 12 0

/-- A tag bitmap, padded to 16 bytes (R16). -/
def tagBitmap (regs : List SavedReg) : List Byte :=
  toBytes ((regs.zipIdx.map fun e => e.1.tag.code * 4 ^ e.2).foldl (· + ·) 0) ((regs.length + 63) / 64 * 16)

/-- A replay entry in memory (R166). -/
def Redo.bytes (pending : Bool) (r : Redo) : List Byte :=
  toBytes r.pc.toNat 8 ++ toBytes r.word.toNat 12 ++ toBytes (pending.toNat + 2 * r.first.toNat) 4 ++ List.replicate 8 0 ++
    toBytes r.cap.a.toNat 16 ++ toBytes r.cap.b.toNat 16 ++ toBytes r.cap.c.toNat 16 ++ List.replicate 16 0

/-- Bytes to the next multiple of 16. -/
def pad16 (n : Nat) : List Byte := List.replicate ((16 - n % 16) % 16) 0

/-- What a record holds. -/
structure Record where
  pc : W64
  serial : BitVec 40
  gen : BitVec 16
  preds : BitVec 16
  frames : List HFrame
  regs : List SavedReg
  /-- Replay entries, each with its PENDING bit. -/
  redo : List (Bool × Redo)
  deriving DecidableEq, Repr

/-- A record in memory (R35): frames matched frame first, here `frames` in that order. -/
def Record.bytes (r : Record) : List Byte :=
  let body := r.frames.flatMap HFrame.bytes ++ tagBitmap r.regs ++ r.regs.flatMap SavedReg.bytes
  toBytes r.pc.toNat 8 ++ toBytes r.serial.toNat 5 ++ [0] ++ toBytes r.gen.toNat 2 ++ toBytes r.regs.length 2 ++
    toBytes r.frames.length 2 ++ toBytes (r.preds ||| 1).toNat 2 ++ toBytes r.redo.length 2 ++ List.replicate 40 0 ++
    body ++ pad16 body.length ++ r.redo.flatMap fun e => e.2.bytes e.1

/-- A frame read from memory, none where reserved bytes are not zero. -/
def readFrame (m : List Host.Cell) (k : Nat) : Option HFrame :=
  if Memory.read m (k + 20) 12 ≠ 0 then none
  else some ⟨BitVec.ofNat 32 (Memory.read m (k + 16) 4), BitVec.ofNat 64 (Memory.read m (k + 8) 8),
    BitVec.ofNat 32 (Memory.read m (k + 4) 4), BitVec.ofNat 32 (Memory.read m k 4)⟩

/-- The registers read from a bitmap and the payloads at `k`, and where the payloads end; none at a tag of 0b11. -/
def readRegs (m : List Host.Cell) (bitmap : Nat) : Nat → Nat → Option (List SavedReg × Nat)
  | 0, k => some ([], k)
  | n + 1, k =>
    let word (o : Nat) : W32 := BitVec.ofNat 32 (Memory.read m (k + o) 4)
    let one : Option (SavedReg × Nat) := match bitmap % 4 with
      | 0 => some (.uniform (word 0), 4)
      | 1 => some (.affine (word 0) (word 4), 8)
      | 2 => some (.general (word 0), 4)
      | _ => none
    one.bind fun r => (readRegs m (bitmap / 4) n (k + r.2)).map fun rest => (r.1 :: rest.1, rest.2)

/-- A replay entry read from memory with its PENDING bit, none where reserved bits are not zero (R166). -/
def readRedo (m : List Host.Cell) (k : Nat) (cmd : Option Nat) (waitOnly : Bool) : Option (Bool × Redo) :=
  let flags := Memory.read m (k + 20) 4
  if flags / 4 ≠ 0 ∨ Memory.read m (k + 24) 8 ≠ 0 ∨ Memory.read m (k + 80) 16 ≠ 0 then none
  else some (flags % 2 == 1,
    { pc := BitVec.ofNat 64 (Memory.read m k 8), word := BitVec.ofNat 96 (Memory.read m (k + 8) 12)
      cap := ⟨BitVec.ofNat 128 (Memory.read m (k + 32) 16), BitVec.ofNat 128 (Memory.read m (k + 48) 16),
              BitVec.ofNat 128 (Memory.read m (k + 64) 16)⟩
      first := flags / 2 % 2 == 1, waitOnly := waitOnly, cmd := cmd, late := false, slot := none, entry := none
      issued := 0 })

/-- A list of optional values, none if any is. -/
def allSome {α : Type} : List (Option α) → Option (List α)
  | [] => some []
  | x :: xs => x.bind fun a => (allSome xs).map (a :: ·)

/-- The record at a key, none where it is not well formed (R158). -/
def readRecord (m : List Host.Cell) (k budget : Nat) (cmds : List (Option Nat × Bool)) : Option Record :=
  let count := Memory.read m (k + 16) 2
  let n := Memory.read m (k + 18) 2
  let replays := Memory.read m (k + 22) 2
  let bitmapAt := k + 64 + 32 * n
  if budget < count ∨ 16 < replays ∨ Memory.read m (k + 13) 1 ≠ 0 ∨ Memory.read m (k + 24) 40 ≠ 0 then none
  else
    (allSome ((List.range n).map fun i => readFrame m (k + 64 + 32 * i))).bind fun frames =>
    (readRegs m (Memory.read m bitmapAt ((count + 63) / 64 * 16)) count (bitmapAt + (count + 63) / 64 * 16)).bind fun regs =>
    (allSome ((List.range replays).map fun i =>
        readRedo m (k + (regs.2 - k + 15) / 16 * 16 + 96 * i) (cmds.getD i (none, false)).1 (cmds.getD i (none, false)).2)).map fun redo =>
      { pc := BitVec.ofNat 64 (Memory.read m k 8), serial := BitVec.ofNat 40 (Memory.read m (k + 8) 5)
        gen := BitVec.ofNat 16 (Memory.read m (k + 14) 2), preds := BitVec.ofNat 16 (Memory.read m (k + 20) 2)
        frames := frames, regs := regs.1, redo := redo }

/-! ## Places of records -/

/-- The first place the device uses in a private space, in units of 64 bytes (log 8). -/
def firstPlace : Nat := 256

/-- Bytes a return record claims. DESIGN CHOICE (log 35): R153 gives no layout; 64 bytes and 4 for each register. -/
def RetRec.size (r : RetRec) : Nat := 64 + 4 * r.regs.length

/-- The claims on a thread's private space: offsets and sizes of its records' places and of its areas (R316). -/
def Thread.claims (t : Thread) : List (Nat × Nat) :=
  t.places.map (fun p => (64 * p.slot, 64 * p.size)) ++ t.areas.map fun a => (a.off, a.size)

/-- The next multiple. -/
def alignUp (n align : Nat) : Nat := (n + align - 1) / align * align

/-- Where `n` bytes go: the lowest aligned offset at which they meet no claim (log 8). -/
def Thread.findSpace (t : Thread) (n align : Nat) : Nat :=
  let free (o : Nat) : Bool := t.claims.all fun c => decide (o + n ≤ c.1) || decide (c.1 + c.2 ≤ o)
  let starts := alignUp (64 * firstPlace) align :: t.claims.map fun c => alignUp (c.1 + c.2) align
  (starts.filter fun o => decide (64 * firstPlace ≤ o) && free o).foldl min (starts.foldl max 0)

/-- A claim of `n` more bytes fits the private space (R316, R317). -/
def Thread.fits (t : Thread) (n : Nat) : Bool := decide (t.findSpace n 8 + n ≤ t.psize)

/-- A place for a record of `n` bytes: a free one that is large enough, or a new one (log 8). A place whose generation has reached
0xFFFF is not used again (R36). -/
def Thread.findPlace (t : Thread) (n : Nat) : Option RecPlace :=
  let units := (n + 63) / 64
  match t.places.find? fun p => !p.live && p.gen != 0xFFFF && decide (units ≤ p.size) with
  | some p => some p
  | none =>
    let o := t.findSpace (64 * units) 64
    if o + 64 * units ≤ t.psize then some ⟨o / 64, units, 0, false, []⟩ else none

/-- Frame 0 (R20). DESIGN CHOICE (log 35): its HPC, which no rule gives, is zero. -/
def frame0 : HFrame := ⟨0, 0, 0, 0⟩

/-- The frames deeper than the sixteen handler registers, frame 0 first (R20). -/
def Thread.spilled (t : Thread) : List HFrame := ((t.frames ++ [frame0]).drop 16).reverse

/-- Whether an area is still in use, frames and return records having come back (R154, R316). -/
def Thread.uses (t : Thread) (a : Area) : Bool :=
  match a.use with
  | .frame d => decide (d < t.spilled.length)
  | .ret n => decide (n < t.rets.length)
  | .store => true

/-- Give back the areas that are no longer in use. -/
def Thread.trim (t : Thread) : Thread := { t with areas := t.areas.filter t.uses }

/-- Claim an area, none where it does not fit (R316, R317). -/
def Thread.claim (t : Thread) (use : AreaUse) (n align : Nat) : Option Thread :=
  let o := t.findSpace n align
  if o + n ≤ t.psize then some { t with areas := t.areas ++ [⟨use, o, n⟩] } else none

/-- Claim an area for each spilled frame that has none (R20, R316). -/
def Thread.claimFrames (t : Thread) : Option Thread :=
  (List.range t.spilled.length).foldl (fun (o : Option Thread) d =>
    o.bind fun t => if t.areas.any fun a => a.use == .frame d then some t else t.claim (.frame d) 32 32) (some t)

/-- Claim what the stack needs once `n` more frames lie on it; the frames themselves come with the resumption (R159). -/
def Thread.claimUnder (t : Thread) (n : Nat) : Option Thread :=
  (({ t with frames := List.replicate n frame0 ++ t.frames } : Thread).claimFrames).map fun t' => { t with areas := t'.areas }

/-- A return record joins the list, none where it finds no room (R153). -/
def Thread.addRet (t : Thread) (r : RetRec) : Option Thread :=
  ({ t with rets := r :: t.rets } : Thread).claim (.ret t.rets.length) r.size 8

/-- Put a place back with its new contents. -/
def Thread.setPlace (t : Thread) (p : RecPlace) : Thread :=
  { t with places := if t.places.any (fun q => q.slot == p.slot) then t.places.map fun q => if q.slot = p.slot then p else q
                     else t.places ++ [p] }

/-- A token (R36). -/
def tokenOf (gen : BitVec 16) (kind : BitVec 2) (rec : Nat) : W64 := gen ++ kind ++ BitVec.ofNat 46 rec

/-! ## Taking an effect (R156) -/

/-- What a lane takes: the name, KIND, payload base, save count, where its continuation resumes, its replay queue, whether it goes
to frame 0 without search (R169), and the PC of the instruction it comes from. -/
structure Effect where
  name : W32
  kind : BitVec 2
  pb : Nat
  k : Nat
  cont : W64
  redo : List Redo
  forced : Bool
  src : W64
  deriving DecidableEq, Repr

/-- The place on the stack of the first frame that matches (R34); none is frame 0. -/
def Thread.matchFrame (t : Thread) (name : W32) : Option Nat := t.frames.findIdx? fun f => (name &&& f.mask) == f.mtch

/-- Where stretches of the virtual addresses that stand for a private space lie, or why an access of the device to them has to wait: with no
wait of its own, for the space to be backed. -/
def State.privRuns (s : State) (who : Who) (c : Ctx) : List Piece → Except (Wait × Option FaultRec) (List Piece)
  | [] => .ok []
  | p :: rest =>
    match s.tableAccess who c p.1 p.2 .write true with
    | .ok ps _ =>
      (match s.privRuns who c rest with
       | .ok qs => .ok (ps ++ qs)
       | .error e => .error e)
    | .block wt post => .error (wt, post)
    | _ => .error (.backing, none)

/-- Where bytes of a lane's private space lie, or why it has to wait: PBASE + o through the table of PBASE's region (R283). -/
def State.privPieces (s : State) (w l o n : Nat) : Except (Wait × Option FaultRec) (List Piece) :=
  let who := s.who w l 1
  match s.ctx? who.ctx with
  | none => .ok []
  | some c => s.privRuns who c (stretches (n / 65536 + 2) (who.pbase + o) n)

/-- The device writes bytes into a lane's private space: a write like any other to the page's dirtiness (R286) and to the poison of its
lines (R298). -/
def State.privWrite (s : State) (w l o : Nat) (bs : List Byte) : State :=
  match s.privPieces w l o bs.length with
  | .ok ps => s.store ps bs
  | .error _ => s

/-- The bytes of a range of a lane's private space; zeros while they cannot be reached. -/
def State.privRead (s : State) (w l o n : Nat) : List Byte :=
  match s.privPieces w l o n with
  | .ok ps => Memory.readPieces s.mem ps
  | .error _ => List.replicate n 0

/-- Write the spilled frames whose areas are new (R20). -/
def State.writeSpills (s : State) (w l : Nat) (old : List Area) : State :=
  let t := s.thread w l
  t.areas.foldl (fun s a =>
    match a.use with
    | .frame d => if old.contains a then s else s.privWrite w l a.off (t.spilled.getD d frame0).bytes
    | _ => s) s

/-- A frame goes onto a lane's stack, none where a spill finds no backing store (R152, R317). -/
def State.push (s : State) (w l : Nat) (hpc : W64) (mask mtch : W32) : Option State :=
  let t := s.thread w l
  let fid := if t.fidCtr = 0xFFFFFFFF then 1 else t.fidCtr + 1
  ({ t with frames := ⟨t.fidCtr, hpc, mask, mtch⟩ :: t.frames, fidCtr := fid } : Thread).claimFrames.map fun t' =>
    (s.modThread w l fun _ => t').writeSpills w l t.areas

/-- The record of a lane's continuation, the suspended frames matched frame first. -/
def Wave.continuation (wv : Wave) (l n : Nat) (e : Effect) (gen : BitVec 16) : Record :=
  let t := wv.thread l
  { pc := e.cont, serial := t.serial, gen := gen, preds := t.preds, frames := (t.frames.take n).reverse
    regs := (List.range e.k).map (wv.saved l), redo := e.redo.map fun r => (true, r) }

/-- Write a record into its thread's space and mark its place live. -/
def State.putRecord (s : State) (w l : Nat) (p : RecPlace) (r : Record) : State :=
  (s.privWrite w l (64 * p.slot) r.bytes).modThread w l fun t => t.setPlace { p with live := true, cmds := r.redo.map fun e => (e.2.cmd, e.2.waitOnly) }

/-- The frame a lane's effect reaches, by its place on the stack; none is frame 0 (R34, R169). -/
def State.reached (s : State) (w l : Nat) (e : Effect) : Option Nat :=
  if e.forced || (e.kind == 1 && decide ((s.wave w).vBudget < 4)) then none else (s.thread w l).matchFrame e.name

/-- What the entry check of the handler shows (R48, R146): the check reads the destination line, which is a first fetch. -/
def State.handlerEntry (s : State) (w l : Nat) (e : Effect) : Entry :=
  match s.reached w l e with
  | none => .ok
  | some i => s.entryCheck (s.wave w).ctx ((s.thread w l).frames.getD i frame0).hpc

/-- The handler a lane reaches: its frame's place, and whether TARGET goes to frame 0 in its stead (R156, R48). -/
def State.handler (s : State) (w l : Nat) (e : Effect) : Option Nat × Bool :=
  match s.reached w l e with
  | .none => (.none, false)
  | some i => if s.handlerEntry w l e = .ok then (some i, false) else (.none, true)

/-- A lane takes an effect (R156), none where no place for its record is left. Frame 0 passes the token to the service
kernel. `wv` is the wave as the instruction finds it: what one lane's delivery writes is not in another lane's record. -/
def State.deliver (s : State) (wv : Wave) (w l : Nat) (e : Effect) : Option State :=
  let h := s.handler w l e
  let e := if h.2 then { e with name := TrapKind.target.code, kind := 1, pb := 0, k := wv.vBudget } else e
  let n := match h.1 with
    | some i => i + 1
    | none => 0
  let t := wv.thread l
  let size := (wv.continuation l n e 0).bytes.length
  ((t.findPlace size).filter fun p => (s.privPieces w l (64 * p.slot) size).toBool).map fun p =>
    let s := s.putRecord w l p (wv.continuation l n e p.gen)
    let tok := tokenOf p.gen e.kind p.slot
    match h.1 with
    | none =>
      let d : Delivery :=
        { wave := w, lane := l, name := e.name, kind := e.kind, pb := e.pb, token := tok, pc := e.cont, src := e.src }
      let s' := { s with deliveries := s.deliveries ++ [d] }
      s'.modThread w l fun t => { t with wait := .frame0, redo := [] }
    | some i =>
      s.modThread w l fun t =>
        let t' := (t.setV (e.pb + 1) e.name).setWords (e.pb + 2) 2 (ext64 tok)
        ({ t' with frames := t.frames.drop (i + 1), pc := (t.frames.getD i frame0).hpc, wait := .none, redo := [] } : Thread).trim

/-- One past the last byte claimed of a private space. -/
def Thread.claimed (t : Thread) : Nat := (t.claims.map fun c => c.1 + c.2).foldl max (64 * firstPlace)

/-- Post the PRIVATE record of a lane that has no backing store (R317), or the record of a page of its space that is not there
(R282, R285): the first such page of those claimed and of the one that the next claim comes to lie in (log 8). -/
def State.postPrivate (s : State) (w l : Nat) : State × Wait :=
  let t := s.thread w l
  let pages := List.range (min (t.psize / 65536) (t.claimed / 65536 + 2))
  match pages.findSome? fun i =>
      match s.privPieces w l (65536 * i) 1 with
      | .error (wt, some r) => some (wt, some r)
      | .error (.page p k, none) => some (.page p k, none)
      | .error (.recall p, none) => some (.recall p, none)
      | _ => none with
  | some e => s.waitFor e.1 e.2
  | none => s.waitFor .backing (some (faultReq (s.who w l 1) .priv (7 * 2 ^ 60 + t.psize) 0 0))

/-- Several lanes take effects in one instruction (R34): the tags of `v(pb+1)` to `v(pb+3)` follow R157. Lanes without backing
store are answered back. -/
def State.deliverAll (s : State) (w pb : Nat) (items : List (Nat × Effect)) : State × List Nat :=
  let entered := (items.filter fun x => (s.handler w x.1 x.2).1.isSome).map (·.1)
  let r := items.foldl (fun (acc : State × List Nat) x =>
    match acc.1.deliver (s.wave w) w x.1 x.2 with
    | some s' => (s', acc.2)
    | none => (acc.1, acc.2 ++ [x.1])) (s, [])
  let done := entered.filter fun l => !r.2.contains l
  (r.1.modWave w fun wv => (wv.retag done (pb + 1) 1 fun _ => .uniform).retag done (pb + 2) 2 fun _ => .general, r.2)

/-! ## Tokens and the return from an effect (R158, R159) -/

/-- Fields of a token (R36). -/
def tokGen (t : W64) : BitVec 16 := t.extractLsb' 48 16
def tokKind (t : W64) : BitVec 2 := t.extractLsb' 46 2
def tokRec (t : W64) : Nat := (t.extractLsb' 0 46).toNat

/-- The bytes of a record's place, from key 0 up. -/
def State.recordBytes (s : State) (w l : Nat) (p : RecPlace) : List Host.Cell :=
  Memory.write [] 0 (s.privRead w l (64 * p.slot) (64 * p.size))

/-- The record a token names in its user's own space, none where R158 fails. -/
def State.tokenRecord (s : State) (w l : Nat) (tok : W64) : Option (RecPlace × Record) :=
  let wv := s.wave w
  let t := wv.thread l
  if tokKind tok = 3 then none
  else
    (t.places.find? fun p => p.slot == tokRec tok && p.live).bind fun p =>
      (readRecord (s.recordBytes w l p) 0 wv.vBudget p.cmds).bind fun r =>
        if r.serial = t.serial ∧ r.gen = tokGen tok then some (p, r) else none

/-- Why the record that a lane's token names cannot be read yet: a page of its place is not there (R175). -/
def State.tokenAway (s : State) (w l : Nat) (tok : W64) : Option (Wait × Option FaultRec) :=
  match (s.thread w l).places.find? fun p => p.slot == tokRec tok && p.live with
  | none => none
  | some p =>
    match s.privPieces w l (64 * p.slot) (64 * p.size) with
    | .ok _ => none
    | .error e => some e

/-- A lane's token checked (R158), its record's bytes whole (R174 step 11): the record, or the trap. -/
def State.checkToken (s : State) (w l : Nat) (tok : W64) : Except TrapKind (RecPlace × Record) :=
  match s.tokenRecord w l tok with
  | none => .error .token
  | some x =>
    if s.poisoned (match s.privPieces w l (64 * x.1.slot) x.2.bytes.length with
      | .ok ps => ps
      | .error _ => []) then .error .poison else .ok x

/-- A token is settled: delivered trap entries no longer wait for it (R37). -/
def Wave.settle (wv : Wave) (l slot : Nat) : Wave :=
  let q := wv.trapq.map fun e => { e with owed := e.owed.filter fun o => !(o == (l, slot)) }
  { wv with trapq := q.filter fun e => !(e.delivered && e.owed.isEmpty) }

/-- Consume or drop a token: the record's generation moves on and its place is free (R36). -/
def State.consume (s : State) (w l : Nat) (p : RecPlace) : State :=
  let gen : BitVec 16 := BitVec.ofNat 16 (Memory.read (s.recordBytes w l p) 14 2 + 1)
  (s.privWrite w l (64 * p.slot + 14) (toBytes gen.toNat 2)).modWave w fun wv =>
    (wv.modThread l fun t => t.setPlace { p with gen := gen, live := false, cmds := [] }).settle l p.slot

/-- The tag of a restored register in a block: the records' common tag where the lanes are the whole block and hold it with
identical payloads, else general (R35). -/
def restoredTag (wv : Wave) (items : List (Nat × Record)) (r b : Nat) : Tag :=
  let here := items.filter fun x => x.1 / wv.width.block == b && decide (r < x.2.regs.length)
  if wv.full (here.map (·.1)) b then
    match here with
    | [] => .general
    | x :: xs =>
      let v := x.2.regs.getD r (.general 0)
      if xs.all (fun y => y.2.regs.getD r (.general 0) == v) then v.tag else .general
  else .general

/-- Restore the saved registers and predicates of lanes that resume together. -/
def Wave.restoreRegs (wv : Wave) (items : List (Nat × Record)) : Wave :=
  let blk := wv.width.block
  let wv1 := items.foldl (fun wv x => wv.modThread x.1 fun t =>
    let t' := (x.2.regs.zipIdx).foldl (fun t e => t.setV e.2 (e.1.value x.1 blk)) t
    { t' with preds := x.2.preds ||| 1 }) wv
  let top := items.foldl (fun m x => max m x.2.regs.length) 0
  (List.range top).foldl (fun wv2 r =>
    let holders := (items.filter fun x => decide (r < x.2.regs.length)).map (·.1)
    wv2.retag holders r 1 (restoredTag wv items r)) wv1

/-- The return from an effect in lanes that resume together (R159): the suspended frames go on top of the stack, registers,
predicates and PC are the record's, and the replay entries of a trap are performed first (R167). -/
def State.resume (s : State) (w : Nat) (items : List (Nat × Record × BitVec 2)) : State :=
  s.modWave w fun wv =>
    items.foldl (fun wv x => wv.modThread x.1 fun t =>
      { t with frames := x.2.1.frames.reverse ++ t.frames, pc := x.2.1.pc, wait := .none
               redo := if x.2.2 = (1 : BitVec 2) then
            (x.2.1.redo.filter (·.1)).map fun e => { e.2 with issued := wv.issues } else [] })
      (wv.restoreRegs (items.map fun x => (x.1, x.2.1)))

end Sys2Proof.Machine
end

