-- ==== Sys2Proof/Machine/Integer.lean ====
section
/-! DEFINITION. Integer and address instructions (R102 to R110). -/

namespace Sys2Proof.Machine

/-! ## Values -/

/-- The value of an operand under a type: two's complement under the signed types. -/
def tval (t : Ty) (x : W128) : Int := if t.signed then lowInt x t.bits else (lowNat x t.bits : Int)

/-- The least value of a type (R105). -/
def tmin (t : Ty) : Int := if t.signed then -(2 ^ (t.bits - 1) : Int) else 0

/-- The greatest value of a type (R105). -/
def tmax (t : Ty) : Int := if t.signed then 2 ^ (t.bits - 1) - 1 else 2 ^ t.bits - 1

/-- The exact result written back: modulo 2^n, or the clamp of R105 under `.sat`. -/
def narrow (t : Ty) (sat : Bool) (x : Int) : W128 :=
  ofInt (if sat then max (tmin t) (min (tmax t) x) else x) t.bits

/-- The widened immediate of R102. -/
def immOf (t : Ty) (imm : W32) : W128 :=
  match t with
  | .s64 | .b64 => (imm.signExtend 64).setWidth 128
  | _ => imm.setWidth 128

/-! ## Tags -/

/-- The tag of an operand in a block: uniform for whatever is no vector register (R13). -/
def Grp.tagOf (g : Grp) (o : Opnd) (b : Nat) : Tag :=
  match o.kind with
  | .v => g.src.tag b o.num.toNat
  | _ => if g.src.uniformOpnd o b then .uniform else .general

/-- Whether the values of a block's lanes form an affine sequence. -/
def Grp.affine (g : Grp) (val : Nat → W128) (b : Nat) : Bool :=
  let ls := g.src.blockLanes b
  let x (l : Nat) : W32 := lo32 (val l)
  match ls with
  | l0 :: l1 :: _ => ls.all fun l => x l == x l0 + BitVec.ofNat 32 (l - l0) * (x l1 - x l0)
  | _ => false

/-- The tag of a 32-bit `iadd` or `isub` (R13). A clamp that breaks the sequence leaves it general: a tag never changes a
value (R12). -/
def Grp.addTag (g : Grp) (t : Ty) (val : Nat → W128) (b : Nat) : Tag :=
  let x := g.tagOf g.shape.a b
  let y := g.tagOf g.shape.b b
  if x = .uniform ∧ y = .uniform then .uniform
  else if t.bits = 32 ∧ x ≠ .general ∧ y ≠ .general ∧ g.affine val b then .affine
  else .general

/-! ## Shared forms -/

/-- Two register operands. -/
def intOp (i : Instr) (f : VForm) (x : Int → Int → Int) (s : State) : Out :=
  lanesOp i s fun g l => narrow f.ty f.sat (x (tval f.ty (g.a l)) (tval f.ty (g.b l)))

/-- A register and an immediate. -/
def intImmOp (i : Instr) (f : IForm) (x : Int → Int → Int) (s : State) : Out :=
  lanesOp i s fun g l => narrow f.ty f.sat (x (tval f.ty (g.a l)) (tval f.ty (immOf f.ty f.imm)))

/-- Three register operands. -/
def intOp3 (i : Instr) (f : VForm) (x : Int → Int → Int → Int) (s : State) : Out :=
  lanesOp i s fun g l => narrow f.ty f.sat (x (tval f.ty (g.a l)) (tval f.ty (g.b l)) (tval f.ty (g.c l)))

/-- An addition or subtraction: as `intOp`, with the affine tags of R13. -/
def sumOp (i : Instr) (t : Ty) (sat : Bool) (b : Grp → Nat → W128) (x : Int → Int → Int) (s : State) : Out :=
  let val (g : Grp) (l : Nat) : W128 := narrow t sat (x (tval t (g.a l)) (tval t (b g l)))
  lanesOp i s val fun g => g.addTag t (val g)

/-! ## R104 -/

/-- NOP does nothing (R151). -/
def execNop (s : State) : Out := issue .nop s lawful fun _ s => s

/-- `iadd`: val(A) + val(B). -/
def execIadd (f : VForm) (s : State) : Out := sumOp (.iadd f) f.ty f.sat Grp.b (· + ·) s

/-- `iadd` with an immediate. -/
def execIaddImm (f : IForm) (s : State) : Out := sumOp (.iaddImm f) f.ty f.sat (fun _ _ => immOf f.ty f.imm) (· + ·) s

/-- `isub`: val(A) - val(B). -/
def execIsub (f : VForm) (s : State) : Out := sumOp (.isub f) f.ty f.sat Grp.b (· - ·) s

/-- `isub` with an immediate. -/
def execIsubImm (f : IForm) (s : State) : Out := sumOp (.isubImm f) f.ty f.sat (fun _ _ => immOf f.ty f.imm) (· - ·) s

/-- `imul`: val(A) × val(B). -/
def execImul (f : VForm) (s : State) : Out := intOp (.imul f) f (· * ·) s

/-- `imul` with an immediate. -/
def execImulImm (f : IForm) (s : State) : Out := intImmOp (.imulImm f) f (· * ·) s

/-- `imad`: val(A) × val(B) + val(C), exact. -/
def execImad (f : VForm) (s : State) : Out := intOp3 (.imad f) f (fun a b c => a * b + c) s

/-- `imulhi`: the upper n bits of the 2n-bit product. -/
def execImulhi (f : VForm) (s : State) : Out := intOp (.imulhi f) f (fun a b => a * b / 2 ^ f.ty.bits) s

/-- `imin`: the lesser. -/
def execImin (f : VForm) (s : State) : Out := intOp (.imin f) f min s

/-- `imin` with an immediate. -/
def execIminImm (f : IForm) (s : State) : Out := intImmOp (.iminImm f) f min s

/-- `imax`: the greater. -/
def execImax (f : VForm) (s : State) : Out := intOp (.imax f) f max s

/-- `imax` with an immediate. -/
def execImaxImm (f : IForm) (s : State) : Out := intImmOp (.imaxImm f) f max s

/-- `iabs`: |val(A)|. -/
def execIabs (f : VForm) (s : State) : Out := intOp (.iabs f) f (fun a _ => (a.natAbs : Int)) s

/-- `ineg`: -val(A). -/
def execIneg (f : VForm) (s : State) : Out := intOp (.ineg f) f (fun a _ => -a) s

/-- `iadd3`: the sum of the three. -/
def execIadd3 (f : VForm) (s : State) : Out := intOp3 (.iadd3 f) f (fun a b c => a + b + c) s

/-! ## R106 -/

/-- Quotient and remainder of R106. -/
def divide (t : Ty) (a b : Int) : Int × Int :=
  if b = 0 then (if t.signed then -1 else 2 ^ t.bits - 1, a)
  else if t.signed ∧ a = tmin t ∧ b = -1 then (a, 0)
  else (Int.tdiv a b, a - Int.tdiv a b * b)

/-- `idiv`: the quotient. -/
def execIdiv (f : VForm) (s : State) : Out := intOp (.idiv f) f (fun a b => (divide f.ty a b).1) s

/-- `irem`: the remainder. -/
def execIrem (f : VForm) (s : State) : Out := intOp (.irem f) f (fun a b => (divide f.ty a b).2) s

/-! ## R107 to R110 -/

/-- The exact sum of `iaddc` in a lane, with the carry of a lane. -/
def carrySum (t : Ty) (a b : W128) (carry : Bool) : Nat := lowNat a t.bits + lowNat b t.bits + carry.toNat

/-- `iaddc`: adds with the carry in pC, which receives the carry out; under S = 1 the carry comes from the lowest executing
lane and goes to every one (R107). -/
def execIaddc (f : VForm) (s : State) : Out :=
  issue (.iaddc f) s lawful fun g s =>
    let sum (l : Nat) : Nat := carrySum f.ty (g.a l) (g.b l) ((g.c (if f.hd.s then g.head else l)).getLsbD 0)
    (s.writeD g g.lanes (fun l => ofNat (sum l) f.ty.bits) g.tag).modLanes g.w g.lanes fun l t =>
      t.setP f.c.toNat (decide (2 ^ f.ty.bits ≤ sum (if f.hd.s then g.head else l)))

/-- `lea`: val(A) + ext(B) × 2^sh with sh = val(C) modulo n (R108). -/
def execLea (f : VForm) (s : State) : Out :=
  lanesOp (.lea f) s fun g l =>
    let b : Int := if f.ty = .s64 then lowInt (g.b l) 32 else (lowNat (g.b l) 32 : Int)
    ofInt (tval f.ty (g.a l) + b * 2 ^ (lowNat (g.c l) 32 % f.ty.bits)) f.ty.bits

/-- The conditions of R109. -/
def intCond (c : BitVec 4) (a b : Int) : Bool :=
  match c.toNat with
  | 0 => a == b
  | 1 => a != b
  | 2 => decide (a < b)
  | 3 => decide (a ≤ b)
  | 4 => decide (b < a)
  | _ => decide (b ≤ a)

/-- A truth value as an operand. -/
def bit (b : Bool) : W128 := if b then 1 else 0

/-- `icmp`: the truth of val(A) cond val(B) into a predicate. -/
def execIcmp (f : VForm) (s : State) : Out :=
  lanesOp (.icmp f) s fun g l => bit (intCond f.sub (tval f.ty (g.a l)) (tval f.ty (g.b l)))

/-- `icmp` with an immediate: the condition in IMOD[3:0] (R69). -/
def execIcmpImm (f : IForm) (s : State) : Out :=
  lanesOp (.icmpImm f) s fun g l =>
    bit (intCond (f.imod.extractLsb' 0 4) (tval f.ty (g.a l)) (tval f.ty (immOf f.ty f.imm)))

/-- `isel`: A where pC is true, else B. -/
def execIsel (f : VForm) (s : State) : Out :=
  lanesOp (.isel f) s fun g l => if (g.c l).getLsbD 0 then g.a l else g.b l

end Sys2Proof.Machine
end

