-- ==== Sys2Proof/Machine/Bit.lean ====
section
/-! DEFINITION. Bit instructions (R111 to R114). -/

namespace Sys2Proof.Machine

/-- Two register operands, bit for bit. -/
def bitOp (i : Instr) (x : W128 → W128 → W128) (s : State) : Out := lanesOp i s fun g l => x (g.a l) (g.b l)

/-- A register and an immediate, bit for bit. -/
def bitImmOp (i : Instr) (f : IForm) (x : W128 → W128 → W128) (s : State) : Out :=
  lanesOp i s fun g l => x (g.a l) (immOf f.ty f.imm)

/-- `and`. -/
def execAnd (f : VForm) (s : State) : Out := bitOp (.and f) (· &&& ·) s
/-- `and` with an immediate. -/
def execAndImm (f : IForm) (s : State) : Out := bitImmOp (.andImm f) f (· &&& ·) s
/-- `or`. -/
def execOr (f : VForm) (s : State) : Out := bitOp (.or f) (· ||| ·) s
/-- `or` with an immediate. -/
def execOrImm (f : IForm) (s : State) : Out := bitImmOp (.orImm f) f (· ||| ·) s
/-- `xor`. -/
def execXor (f : VForm) (s : State) : Out := bitOp (.xor f) (· ^^^ ·) s
/-- `xor` with an immediate. -/
def execXorImm (f : IForm) (s : State) : Out := bitImmOp (.xorImm f) f (· ^^^ ·) s
/-- `not`. -/
def execNot (f : VForm) (s : State) : Out := lanesOp (.not f) s fun g l => ~~~(g.a l)

/-- The truth table of `lop3`, bit by bit (R71, R111). -/
def tableBit (table : BitVec 8) (a b c : W32) (i : Nat) : Bool :=
  table.getLsbD (4 * (a.getLsbD i).toNat + 2 * (b.getLsbD i).toNat + (c.getLsbD i).toNat)

/-- `lop3`. -/
def execLop3 (f : LopForm) (s : State) : Out :=
  lanesOp (.lop3 f) s fun g l =>
    ext32 (BitVec.ofFnLE (n := 32) fun i => tableBit f.table (lo32 (g.a l)) (lo32 (g.b l)) (lo32 (g.c l)) i.val)

/-! ## Shifts (R112) -/

/-- The amount: an unsigned 32-bit value, whatever the type. -/
def amount (x : W128) : Nat := lowNat x 32

/-- A × 2^s modulo 2^n; 0 once s reaches n. -/
def shiftLeft (n : Nat) (a : W128) (s : Nat) : W128 := if s < n then ofNat (lowNat a n * 2 ^ s) n else 0

/-- ⌊A / 2^s⌋, A unsigned; 0 once s reaches n. -/
def shiftRight (n : Nat) (a : W128) (s : Nat) : W128 := if s < n then ofNat (lowNat a n / 2 ^ s) n else 0

/-- ⌊val(A) / 2^s⌋, A signed; the sign once s reaches n. -/
def shiftSigned (n : Nat) (a : W128) (s : Nat) : W128 :=
  if s < n then ofInt (lowInt a n / 2 ^ s) n else if lowInt a n < 0 then ofInt (-1) n else 0

/-- A rotated left by s modulo n. -/
def rotate (n : Nat) (a : W128) (s : Nat) : W128 :=
  let k := s % n
  ofNat (lowNat a n * 2 ^ k + lowNat a n / 2 ^ (n - k)) n

/-- A shift by a register. -/
def shiftOp (i : Instr) (f : VForm) (x : Nat → W128 → Nat → W128) (s : State) : Out :=
  lanesOp i s fun g l => x f.ty.bits (g.a l) (amount (g.b l))

/-- A shift by an immediate. -/
def shiftImmOp (i : Instr) (f : IForm) (x : Nat → W128 → Nat → W128) (s : State) : Out :=
  lanesOp i s fun g l => x f.ty.bits (g.a l) f.imm.toNat

/-- The tag of a 32-bit `shl` (R13): that of the value, where the amount is uniform. -/
def Grp.shlTag (g : Grp) (t : Ty) (b : Nat) : Tag :=
  let x := g.tagOf g.shape.a b
  if g.tagOf g.shape.b b ≠ .uniform then .general
  else if x = .uniform then .uniform
  else if t.bits = 32 ∧ x = .affine then .affine
  else .general

/-- `shl`. -/
def execShl (f : VForm) (s : State) : Out :=
  lanesOp (.shl f) s (fun g l => shiftLeft f.ty.bits (g.a l) (amount (g.b l))) fun g => g.shlTag f.ty
/-- `shl` with an immediate. -/
def execShlImm (f : IForm) (s : State) : Out :=
  lanesOp (.shlImm f) s (fun g l => shiftLeft f.ty.bits (g.a l) f.imm.toNat) fun g => g.shlTag f.ty
/-- `shr`. -/
def execShr (f : VForm) (s : State) : Out := shiftOp (.shr f) f shiftRight s
/-- `shr` with an immediate. -/
def execShrImm (f : IForm) (s : State) : Out := shiftImmOp (.shrImm f) f shiftRight s
/-- `sar`. -/
def execSar (f : VForm) (s : State) : Out := shiftOp (.sar f) f shiftSigned s
/-- `sar` with an immediate. -/
def execSarImm (f : IForm) (s : State) : Out := shiftImmOp (.sarImm f) f shiftSigned s
/-- `rot`. -/
def execRot (f : VForm) (s : State) : Out := shiftOp (.rot f) f rotate s
/-- `rot` with an immediate. -/
def execRotImm (f : IForm) (s : State) : Out := shiftImmOp (.rotImm f) f rotate s

/-! ## Fields (R113) -/

/-- The position of a control word. -/
def fieldPos (w : W128) : Nat := lowNat w 8

/-- The length a control word uses, at most n. -/
def fieldLen (n : Nat) (w : W128) : Nat := min (bitsOf w.toNat 8 8) n

/-- `bfe`: bits pos .. pos+len-1 of A, bits from n up reading 0 or A's sign, extended from bit len-1. -/
def fieldGet (t : Ty) (a w : W128) : W128 :=
  let len := fieldLen t.bits w
  if len = 0 then 0
  else
    let f := tval t a / 2 ^ fieldPos w
    let u := f % 2 ^ len
    ofInt (if t.signed ∧ 2 ^ len ≤ 2 * u then u - 2 ^ len else u) t.bits

/-- `bfi`: B's low bits over the field of A. -/
def fieldPut (n : Nat) (a b w : W128) : W128 :=
  let mask := if fieldPos w < n then ofNat ((2 ^ fieldLen n w - 1) * 2 ^ fieldPos w) n else 0
  (a &&& ~~~mask) ||| (ofNat (lowNat b n * 2 ^ fieldPos w) n &&& mask)

/-- `bfe`. -/
def execBfe (f : VForm) (s : State) : Out := lanesOp (.bfe f) s fun g l => fieldGet f.ty (g.a l) (g.b l)

/-- `bfi`. -/
def execBfi (f : VForm) (s : State) : Out := lanesOp (.bfi f) s fun g l => fieldPut f.ty.bits (g.a l) (g.b l) (g.c l)

/-! ## Counts (R114) -/

/-- `popc`: the number of set bits. -/
def execPopc (f : VForm) (s : State) : Out :=
  lanesOp (.popc f) s fun g l => ofNat (popcount (g.a l).toNat f.ty.bits) 32

/-- `clz`: zero bits above the highest set bit, n for zero. -/
def execClz (f : VForm) (s : State) : Out :=
  lanesOp (.clz f) s fun g l => ofNat (leadingZeros (lowNat (g.a l) f.ty.bits) f.ty.bits) 32

/-- `brev`: bit i moved to bit n - 1 - i. -/
def execBrev (f : VForm) (s : State) : Out :=
  lanesOp (.brev f) s fun g l => ofNat (reverseBits (g.a l).toNat f.ty.bits) f.ty.bits

end Sys2Proof.Machine
end

