-- ==== Sys2Proof/Machine/Move.lean ====
section
/-! DEFINITION. Moves, lane operations, special registers and predicates (R115 to R124). -/

namespace Sys2Proof.Machine

/-- `mov`: A as it stands; a 32-bit register keeps its tag (R115, R13). -/
def execMov (f : VForm) (s : State) : Out :=
  lanesOp (.mov f) s Grp.a fun g b => if f.ty = .b32 then g.tagOf g.shape.a b else g.tag b

/-- `movi`: the widened immediate. -/
def execMovi (f : IForm) (s : State) : Out := lanesOp (.movi f) s (fun _ _ => immOf f.ty f.imm) fun _ _ => .uniform

/-! ## Lane operations (R116 to R121) -/

/-- Source A of a thread of the group as it stood before the issue; a thread that has exited reads as zero (R116). DESIGN CHOICE (log 72): a
scalar source, which is no thread's, keeps its value there. -/
def Grp.aOf (g : Grp) (l src : Nat) : W128 :=
  if g.replay.isSome ∧ l = src then g.a l
  else
    match g.shape.a.kind with
    | .v | .d | .q => if (g.src.thread src).status = .exited then 0 else g.src.operand g.shape.a src
    | _ => g.src.operand g.shape.a src

/-- The thread whose value `shuf` takes (R117). -/
def shufSource (wv : Wave) (l i : Nat) : Nat :=
  if wv.compat && wv.width == .w16 && decide (16 ≤ i) then l else i % wv.width.lanes

/-- `shuf`: the value of A held by the thread that B names. -/
def execShuf (f : VForm) (s : State) : Out :=
  lanesOp (.shuf f) s fun g l => g.aOf l (shufSource g.src l (lowNat (g.b l) 32))

/-- `bcast`: the value of A held by the thread that B names in the lowest executing lane (R118). -/
def execBcast (f : VForm) (s : State) : Out :=
  lanesOp (.bcast f) s fun g l => g.aOf l (lowNat (g.b g.head) 32 % g.src.width.lanes)

/-- `vote`: the OR of pA over the executing lanes (R119). -/
def execVote (f : VForm) (s : State) : Out :=
  lanesOp (.vote f) s fun g _ => bit (g.lanes.any fun l => (g.a l).getLsbD 0)

/-- The type a declared width demands of `ballot` and `join` (R120, R147). -/
def widthTy : Width → Ty
  | .w16 | .w32 => .b32
  | .w64 => .b64
  | .w128 => .b128

/-- `ballot`: bit i for each executing thread i whose pA is true; uniform (R120). -/
def execBallot (f : VForm) (s : State) : Out :=
  issue (.ballot f) s (fun g => f.ty != widthTy g.src.width) fun g s =>
    let mask := (g.lanes.filter fun l => (g.a l).getLsbD 0).foldl (fun m l => m ||| (1#128 <<< l)) 0
    s.writeD g g.lanes (fun _ => mask) fun _ => .uniform

/-- `shp`: the tag code of A in the lane's block, as it stood before the issue (R121). -/
def execShp (f : VForm) (s : State) : Out :=
  lanesOp (.shp f) s fun g l => BitVec.ofNat 128 (g.src.tag (l / g.src.width.block) f.a.toNat).code

/-! ## Special registers (R21, R122, R123) -/

/-- The logical tile of a physical one, counted over the package (R1, R379). DESIGN CHOICE (log 69): a good tile outside the logical grid, on
which a RESTORE may put waves, reads as tile 0 of die 0. -/
def State.logicalTile (s : State) (t : Nat) : Nat := (s.pkg.tileMap.idxOf? t).getD 0

/-- The value of a special register in a lane. -/
def State.special (s : State) (g : Grp) (l n : Nat) : W128 :=
  let wv := g.src
  let tile := s.logicalTile wv.tile
  if n = 0x00 then BitVec.ofNat 128 l
  else if 0x10 ≤ n ∧ n ≤ 0x17 then ext32 ((wv.thread l).idx.getD (n - 0x10) 0)
  else if n = 0x20 then BitVec.ofNat 128 (tile % 40)
  else if n = 0x21 then BitVec.ofNat 128 (tile / 40)
  else if n = 0x22 then BitVec.ofNat 128 s.fabric.node
  else if n = 0x23 then BitVec.ofNat 128 (s.waveWorld g.w)
  else if n = 0x30 then wv.fpflags.setWidth 128
  else ext64 (s.tile wv.tile).cycle

/-- The tag of `rdsr` (R13). -/
def specialTag (wv : Wave) (n : Nat) : Tag :=
  if n = 0x00 ∨ n = 0x10 then (if wv.width = .w16 then .general else .affine) else .uniform

/-- `rdsr`, with its clear modifier: a flag ORed in during the same cycle stays set (R123). -/
def execRdsr (f : IForm) (s : State) : Out :=
  issue (.rdsr f) s lawful fun g s =>
    let n := f.imm.toNat
    let s' := s.writeD g g.lanes (fun l => s.special g l n) fun _ => specialTag g.src n
    if f.imod.getLsbD 0 && !g.lanes.isEmpty then s'.modWave g.w fun wv => { wv with fpflags := wv.newFlags } else s'

/-! ## Predicates (R124) -/

/-- `pand`. -/
def execPand (f : VForm) (s : State) : Out := bitOp (.pand f) (· &&& ·) s
/-- `por`. -/
def execPor (f : VForm) (s : State) : Out := bitOp (.por f) (· ||| ·) s
/-- `pxor`. -/
def execPxor (f : VForm) (s : State) : Out := bitOp (.pxor f) (· ^^^ ·) s
/-- `pnot`. -/
def execPnot (f : VForm) (s : State) : Out := lanesOp (.pnot f) s fun g l => ~~~(g.a l)
/-- `pmov`. -/
def execPmov (f : VForm) (s : State) : Out := lanesOp (.pmov f) s Grp.a

end Sys2Proof.Machine
end

