-- ==== Sys2Proof/Machine/Flags.lean ====
section
/-! DEFINITION. The floating-point formats of the Aelrovos (R74 to R91), rounding (R78), stochastic rounding (R79) and the flags
(R80). Values are exact: a sign, a magnitude m × 2^e, or a special. -/

namespace Sys2Proof.Machine

/-! ## Flags (R80) -/

/-- The five sticky flags. -/
abbrev Flags := BitVec 5

def fInvalid : Flags := 1
def fDivZero : Flags := 2
def fOverflow : Flags := 4
def fUnderflow : Flags := 8
def fInexact : Flags := 16

/-- A flag where a condition holds. -/
def flagIf (b : Bool) (f : Flags) : Flags := if b then f else 0

/-! ## Values -/

/-- A floating-point value. -/
inductive Flt where
  | nan (signalling : Bool)
  | inf (neg : Bool)
  | fin (neg : Bool) (m : Nat) (e : Int)
  deriving DecidableEq, Repr

/-- A result: the bits of the element and the flags raised. -/
abbrev FRes := Nat × Flags

/-- Precision, least and greatest normal exponents of an IEEE format (R75). -/
structure Fmt where
  p : Nat
  emin : Int
  emax : Int

def fmtOf : Ty → Fmt
  | .f16 | .f16x2 => ⟨11, -14, 15⟩
  | .bf16 => ⟨8, -126, 127⟩
  | .f64 => ⟨53, -1022, 1023⟩
  | _ => ⟨24, -126, 127⟩

/-- Element bits of a float type: 16 for each half of `.f16x2`. -/
def elemBits : Ty → Nat
  | .f16x2 => 16
  | t => t.bits

/-- The sign bit of an element. -/
def signBit (t : Ty) (neg : Bool) : Nat := if neg then 2 ^ (elemBits t - 1) else 0

/-- ±∞ of an IEEE type. -/
def infBits (t : Ty) (neg : Bool) : Nat :=
  signBit t neg + 2 ^ (elemBits t - 1) - 2 ^ ((fmtOf t).p - 1)

/-- The largest finite magnitude of an IEEE type. -/
def maxBits (t : Ty) (neg : Bool) : Nat := infBits t neg - 1

/-- The canonical NaN (R76); D8 has none, and takes its zero (R88). -/
def nanBits : Ty → Nat
  | .gf8 => 0x7F
  | .d8 => 0x08
  | t => infBits t false + 2 ^ ((fmtOf t).p - 2)

/-- The value of a GF8 code (R82, R83). -/
def gf8Value (x : Nat) : Flt :=
  if x % 128 = 0x7F then .nan false
  else if x = 0 then .fin false 0 0
  else .fin (x.testBit 7) (8 + x % 8) ((bitsOf x 3 4 : Int) - 10)

/-- The magnitude of a D8 code, zero where it is zero (R85). -/
def d8Mag (x : Nat) : Nat × Int :=
  let a : Int := bitsOf x 4 3
  let b := x % 8
  if b = 0 then (if x.testBit 3 then (0, 0) else (1, -a))
  else (if x.testBit 3 then 2 ^ b - 1 else 2 ^ b + 1, -a - b)

/-- The value of a D8 code. -/
def d8Value (x : Nat) : Flt :=
  let r := d8Mag x
  .fin (x.testBit 7 && r.1 != 0) r.1 r.2

/-- The value of an element of a float type. -/
def fdecode (t : Ty) (x : Nat) : Flt :=
  match t with
  | .gf8 => gf8Value (x % 256)
  | .d8 => d8Value (x % 256)
  | _ =>
    let f := fmtOf t
    let frac := x % 2 ^ (f.p - 1)
    let ex := bitsOf x (f.p - 1) (elemBits t - f.p)
    let neg := x.testBit (elemBits t - 1)
    if ex = 2 ^ (elemBits t - f.p) - 1 then
      (if frac = 0 then .inf neg else .nan (!frac.testBit (f.p - 2)))
    else if ex = 0 then .fin neg frac (f.emin - (f.p - 1))
    else .fin neg (2 ^ (f.p - 1) + frac) (f.emin + ex - 1 - (f.p - 1))

/-! ## Neighbours and rounding -/

/-- 2 raised to a nonnegative integer. -/
def pow2 (k : Int) : Nat := 2 ^ k.toNat

/-- ⌊log2⌋ of m × 2^e, m nonzero. -/
def topOf (m : Nat) (e : Int) : Int := (Nat.log2 m : Int) + e

/-- A magnitude between its neighbours, all in units of 2^s; `evenLo` says which a tie to even takes. -/
structure Near where
  lo : Nat
  hi : Nat
  x : Nat
  s : Int
  evenLo : Bool

/-- The neighbours of m × 2^e on the grid of spacing 2^k. -/
def nearAt (m : Nat) (e k : Int) : Near :=
  let s := min e k
  let x := m * pow2 (e - s)
  let u := pow2 (k - s)
  let q := x / u
  ⟨q * u, if x % u = 0 then q * u else (q + 1) * u, x, s, q % 2 == 0⟩

/-- The significands of D8's grid in a binade, in 128ths (R85, R87). -/
def d8Full : List Nat := [128, 129, 130, 132, 136, 144, 160, 192, 224, 240, 248, 252, 254, 256]

/-- The same in D8's lowest binade, where only 2^-7 × (1 - 2^-b) exists. -/
def d8Low : List Nat := [128, 192, 224, 240, 248, 252, 254, 256]

/-- The neighbours of m × 2^e on D8's grid, `bounded` below by its smallest magnitude or not. -/
def nearD8 (m : Nat) (e : Int) (bounded : Bool) : Near :=
  let t := topOf m e
  if bounded ∧ t < -8 then
    let s := min e (-8)
    ⟨0, pow2 (-8 - s), m * pow2 (e - s), s, true⟩
  else
    let s := min e (t - 7)
    let x := m * pow2 (e - s)
    let u := pow2 (t - 7 - s)
    let g := (if bounded ∧ t = -8 then d8Low else d8Full).map (· * u)
    let lo := (g.filter (· ≤ x)).foldl max 0
    ⟨lo, if lo = x then lo else (g.find? (x < ·)).getD (256 * u), x, s, true⟩

/-- The neighbours of m × 2^e on GF8's grid (R82 to R84): below 2^-7, and at +2^-7 which has no code, the lower one is zero. -/
def nearGf8 (neg : Bool) (m : Nat) (e : Int) : Near :=
  let t := topOf m e
  let small : Nat := if neg then 8 else 9
  let s := min e (-10)
  let x := m * pow2 (e - s)
  let u := pow2 (-10 - s)
  if x < small * u then ⟨0, small * u, x, s, !neg⟩
  else nearAt m e (t - 3)

/-- The neighbours of m × 2^e in the value set of a type, its exponent unbounded above (R78, R84, R87). -/
def near (t : Ty) (neg : Bool) (m : Nat) (e : Int) : Near :=
  match t with
  | .gf8 => nearGf8 neg m e
  | .d8 => nearD8 m e true
  | _ => nearAt m e (max (topOf m e) (fmtOf t).emin - ((fmtOf t).p - 1))

/-- The same with the exponent unbounded below as well (R80). -/
def nearFree (t : Ty) (m : Nat) (e : Int) : Near :=
  match t with
  | .gf8 => nearAt m e (topOf m e - 3)
  | .d8 => nearD8 m e false
  | _ => nearAt m e (topOf m e - ((fmtOf t).p - 1))

/-- The neighbour a rounding code chooses (R78). -/
def Near.choose (n : Near) (rnd : Rnd) (neg : Bool) : Nat :=
  let d := n.x - n.lo
  let u := n.hi - n.x
  if n.lo = n.hi then n.lo
  else
    match rnd with
    | .rne => if d < u ∨ (d = u ∧ n.evenLo) then n.lo else n.hi
    | .rna => if d < u then n.lo else n.hi
    | .rtz | .sr => n.lo
    | .rup => if neg then n.lo else n.hi
    | .rdn => if neg then n.hi else n.lo

/-- The smallest nonzero magnitude below which a result of the type is tiny, as m × 2^e (R80). -/
def tinyBound (t : Ty) (neg : Bool) : Nat × Int :=
  match t with
  | .gf8 => (if neg then 8 else 9, -10)
  | .d8 => (1, -8)
  | _ => (1, (fmtOf t).emin)

/-- Whether a × 2^i < b × 2^j. -/
def magLt (a : Nat) (i : Int) (b : Nat) (j : Int) : Bool :=
  decide (a * pow2 (i - min i j) < b * pow2 (j - min i j))

/-- The largest finite magnitude of a type. -/
def maxMag (t : Ty) : Nat × Int :=
  match t with
  | .gf8 => (14, 5)
  | .d8 => (3, -1)
  | _ => (2 ^ (fmtOf t).p - 1, (fmtOf t).emax - ((fmtOf t).p - 1))

/-- The code of a magnitude of the type's value set, not above its largest. -/
def magCode (t : Ty) (neg : Bool) (v : Nat) (s : Int) : Nat :=
  match t with
  | .gf8 =>
    if v = 0 then 0
    else
      let k := topOf v s - 3
      let q := if s ≤ k then v / pow2 (k - s) else v * pow2 (s - k)
      ((k + 10).toNat * 8 + (q - 8)) + signBit t neg
  | .d8 =>
    if v = 0 then 0x08
    else ((List.range 128).find? fun c =>
        let r := d8Mag c
        r.1 != 0 && !magLt r.1 r.2 v s && !magLt v s r.1 r.2).getD 0x08 + signBit t neg
  | _ =>
    let f := fmtOf t
    if v = 0 then signBit t neg
    else
      let k := max (topOf v s) f.emin - (f.p - 1)
      let q := if s ≤ k then v / pow2 (k - s) else v * pow2 (s - k)
      let ex := if q < 2 ^ (f.p - 1) then 0 else (k + (f.p - 1) - f.emin + 1).toNat
      signBit t neg + ex * 2 ^ (f.p - 1) + (if q < 2 ^ (f.p - 1) then q else q - 2 ^ (f.p - 1))

/-- The result of a rounded magnitude above the largest finite one (R78, R84, R87). -/
def overflowBits (t : Ty) (rnd : Rnd) (neg : Bool) : Nat :=
  match t with
  | .gf8 => 0x7E + signBit t neg
  | .d8 => 0x01 + signBit t neg
  | _ =>
    match rnd with
    | .rtz => maxBits t neg
    | .rup => if neg then maxBits t neg else infBits t neg
    | .rdn => if neg then infBits t neg else maxBits t neg
    | _ => infBits t neg

/-- Round an exact nonzero magnitude to a type (R78, R84, R87) with its flags (R80). -/
def roundMag (t : Ty) (rnd : Rnd) (neg : Bool) (m : Nat) (e : Int) : FRes :=
  let n := near t neg m e
  let v := n.choose rnd neg
  let f := nearFree t m e
  let w := f.choose rnd neg
  let top := maxMag t
  if magLt top.1 top.2 v n.s then (overflowBits t rnd neg, fOverflow ||| fInexact)
  else
    let inexact := v != n.x
    let tiny := magLt w f.s (tinyBound t neg).1 (tinyBound t neg).2
    (magCode t neg v n.s, flagIf inexact fInexact ||| flagIf (inexact && tiny) fUnderflow)

/-- A zero of a type: GF8 and D8 have one (R83, R86). -/
def zeroBits (t : Ty) (neg : Bool) : Nat :=
  match t with
  | .gf8 => 0
  | .d8 => 0x08
  | _ => signBit t neg

/-- Round an exact value to a type; `zneg` is the sign of an exact zero. -/
def roundVal (t : Ty) (rnd : Rnd) (neg : Bool) (m : Nat) (e : Int) : FRes :=
  if m = 0 then (zeroBits t neg, 0) else roundMag t rnd neg m e

/-- Round a signed integer multiple of 2^e; an exact zero has the given sign. -/
def roundInt (t : Ty) (rnd : Rnd) (zneg : Bool) (x e : Int) : FRes :=
  if x = 0 then (zeroBits t zneg, 0) else roundMag t rnd (decide (x < 0)) x.natAbs e

/-- The canonical NaN, with invalid where it is signalled. -/
def nanRes (t : Ty) (invalid : Bool) : FRes := (nanBits t, flagIf invalid fInvalid)

/-- Whether a value is a signalling NaN. -/
def Flt.isSig : Flt → Bool
  | .nan true => true
  | _ => false

/-- Whether a value is a NaN. -/
def Flt.isNan : Flt → Bool
  | .nan _ => true
  | _ => false

/-- The sign of a value. -/
def Flt.neg : Flt → Bool
  | .fin n _ _ => n
  | .inf n => n
  | .nan _ => false

/-- A finite value as an integer multiple of 2^s. -/
def scaled (neg : Bool) (m : Nat) (e s : Int) : Int := (if neg then -1 else 1) * ((m * pow2 (e - s) : Nat) : Int)

/-! ## Stochastic rounding (R79) -/

/-- A finite nonzero source under `.sr` with the random word r. -/
def stochastic (t : Ty) (neg : Bool) (m : Nat) (e : Int) (r : Nat) : FRes :=
  let top := maxMag t
  let own := t == .gf8 || t == .d8
  if own && magLt top.1 top.2 m e then (overflowBits t .rne neg, fOverflow ||| fInexact)
  else
    let n := near t neg m e
    let span := n.hi - n.lo
    let part := if neg then n.hi - n.x else n.x - n.lo
    let up := decide (2 ^ 32 ≤ part * 2 ^ 32 / span + r)
    let v := if n.lo = n.hi then n.lo else if up != neg then n.hi else n.lo
    let inexact := v != n.x
    if magLt top.1 top.2 v n.s then (infBits t neg, fOverflow ||| fInexact)
    else
      let tiny := magLt m e (tinyBound t neg).1 (tinyBound t neg).2
      (magCode t neg v n.s, flagIf inexact fInexact ||| flagIf (inexact && tiny) fUnderflow)

end Sys2Proof.Machine
end

