-- ==== Sys2Proof/Machine/Sfu.lean ====
section
/-! DEFINITION. The functions of R136 and R137. A result is a free value within the bound of R137 (log 1): the pattern the
configuration proposes where it lies within the bound of the mathematical value, else that value rounded. The mathematical
value is enclosed by integer arithmetic, and a pattern must lie within the bound of every value enclosed. -/

namespace Sys2Proof.Machine

/-! ## Enclosures -/

/-- A number whose magnitude lies between (m - lo) × 2^e and (m + hi) × 2^e, and is neither: with `hi` 0 it is less than m × 2^e. -/
structure Near2 where
  neg : Bool
  m : Nat
  e : Int
  lo : Nat
  hi : Nat

/-- Bits of the fraction in the series below. -/
def fracBits : Nat := 256

/-- ⌊log_e 2 × 2^320⌋. -/
def ln2Bits : Nat :=
  0xb17217f7d1cf79abc9e3b39803f2f6af40f343267298b62d8a0d175b8baafa2be7b876206debac98

/-- ⌊π × 2^1536⌋. -/
def piBits : Nat :=
  0x3243f6a8885a308d313198a2e03707344a4093822299f31d0082efa98ec4e6c89452821e638d01377be5466cf34e90c6cc0ac29b7c97c50dd3f84d5b5b54709179216d5d98979fb1bd1310ba698dfb5ac2ffd72dbd01adfb7b8e1afed6a267e96ba7c9045f12c7f9924a19947b3916cf70801f2e2858efc16636920d871574e69a458fea3f4933d7e0d95748f728eb658718bcd5882154aee7b54a41dc25a59b59c30d5392af26013c5d1b023286085f0ca417918b8db38ef8e79dcb0603a180e

/-- Terms of exp(x / 2^256) × 2^256 from term `t`, number `k`. -/
def expSum (x : Nat) : Nat → Nat → Nat → Nat
  | 0, _, _ => 0
  | n + 1, k, t => t + expSum x n (k + 1) (t * x / 2 ^ fracBits / k)

/-- Terms of the inverse hyperbolic tangent of t / 2^256, times 2^256. -/
def atanhSum (sq : Nat) : Nat → Nat → Nat → Nat
  | 0, _, _ => 0
  | n + 1, k, t => t / k + atanhSum sq n (k + 2) (t * sq / 2 ^ fracBits)

/-- Terms of the sine (k = 2) or cosine (k = 1) of r / 2^256, alternating in sign. -/
def trigSum (sq : Nat) : Nat → Nat → Nat → Int
  | 0, _, _ => 0
  | n + 1, k, t => (t : Int) - trigSum sq n (k + 2) (t * sq / 2 ^ fracBits / (k * (k + 1)))

/-- The integer square root, bit by bit from bit `k`. -/
def isqrtFrom (n : Nat) : Nat → Nat → Nat
  | 0, r => r
  | k + 1, r => isqrtFrom n k (if (r + 2 ^ k) * (r + 2 ^ k) ≤ n then r + 2 ^ k else r)

/-- ⌊√n⌋. -/
def isqrt (n : Nat) : Nat := isqrtFrom n (Nat.log2 n / 2 + 1) 0

/-- 1 / (m × 2^e). -/
def encRcp (m : Nat) (e : Int) : Near2 :=
  let k := 160 + Nat.log2 m
  ⟨false, 2 ^ k / m, -e - k, 1, 1⟩

/-- 1 / √(m × 2^e). -/
def encRsq (m : Nat) (e : Int) : Near2 :=
  let m' := if e % 2 = 0 then m else 2 * m
  let e' := if e % 2 = 0 then e else e - 1
  let k := 320 + Nat.log2 m'
  ⟨false, isqrt (2 ^ (2 * k) / m'), -(e' / 2) - k, 2, 2⟩

/-- 2 raised to m × 2^e, for a magnitude below 2^12: one that is nearly 0 gives a little more than 1, or a little less. -/
def encExp2 (neg : Bool) (m : Nat) (e : Int) : Near2 :=
  if topOf m e < -64 then ⟨false, 2 ^ fracBits, -(fracBits : Int), if neg then 2 ^ 193 else 0, if neg then 0 else 2 ^ 193⟩
  else
  let x : Int := (if neg then -1 else 1) * (if 0 ≤ e + fracBits then ((m * pow2 (e + fracBits) : Nat) : Int)
    else ((m / pow2 (-(e + fracBits)) : Nat) : Int))
  let n := x / 2 ^ fracBits
  let f := (x % 2 ^ fracBits).toNat
  ⟨false, expSum (f * ln2Bits / 2 ^ 320) 80 1 (2 ^ fracBits), n - fracBits, 2 ^ 32, 2 ^ 32⟩

/-- log2 of m × 2^e, m nonzero. -/
def encLog2 (m : Nat) (e : Int) : Near2 :=
  let k := Nat.log2 m
  let z := m * 2 ^ fracBits / 2 ^ k
  let t := (z - 2 ^ fracBits) * 2 ^ fracBits / (z + 2 ^ fracBits)
  let ln := 2 * atanhSum (t * t / 2 ^ fracBits) 90 1 t
  let y : Int := ((k : Int) + e) * 2 ^ fracBits + ((ln * 2 ^ 320 / ln2Bits : Nat) : Int)
  ⟨decide (y < 0), y.natAbs, -(fracBits : Int), 2 ^ 32, 2 ^ 32⟩

/-- sin or cos of m × 2^e: the argument modulo π / 2 (its quotient turns one into the other), then the series. The sine of an argument that is
nearly 0 is a little below it, by less than its cube, and the cosine a little below 1. -/
def encTrig (cos neg : Bool) (m : Nat) (e : Int) : Near2 :=
  if topOf m e < -64 then (if cos then ⟨false, 2 ^ fracBits, -(fracBits : Int), 2 ^ 130, 0⟩ else ⟨neg, m * 2 ^ 128, e - 128, 4 * m, 0⟩)
  else
    let x := if 0 ≤ e + 1536 then m * pow2 (e + 1536) else m / pow2 (-(e + 1536))
    let half := piBits / 2
    let q := x / half
    let r := x % half / 2 ^ (1536 - fracBits)
    let sq := r * r / 2 ^ fracBits
    let useCos := (q % 2 == 1) != cos
    let y := if useCos then trigSum sq 60 1 (2 ^ fracBits) else trigSum sq 60 2 r
    let flip := if cos then q % 4 == 1 || q % 4 == 2 else (decide (2 ≤ q % 4) != neg)
    ⟨(y < 0) != flip, min y.natAbs (2 ^ fracBits), -(fracBits : Int), 2 ^ 32, 2 ^ 32⟩

/-! ## The bound (R137) -/

/-- ⌊log2⌋ of y. -/
def Near2.top (y : Near2) : Int := if y.hi = 0 then topOf (2 * y.m - 1) (y.e - 1) else topOf y.m y.e

/-- ⌊log2⌋ of the ulp of the format at y. -/
def ulpExp (t : Ty) (y : Near2) : Int := max y.top (fmtOf t).emin - ((fmtOf t).p - 1)

/-- Whether a value lies within `n` ulp of y, wherever y lies in its enclosure. -/
def withinUlps (t : Ty) (n : Nat) (y : Near2) (v : Flt) : Bool :=
  match v with
  | .fin neg m e =>
    let u := ulpExp t y
    let s := min (min e y.e) u
    let x := scaled neg m e s
    let r : Int := ((n * pow2 (u - s) : Nat) : Int)
    let mid := scaled y.neg y.m y.e s
    let low := mid - (((if y.neg then y.hi else y.lo) * pow2 (y.e - s) : Nat) : Int)
    let high := mid + (((if y.neg then y.lo else y.hi) * pow2 (y.e - s) : Nat) : Int)
    decide (x - r ≤ low) && decide (high ≤ x + r)
  | _ => false

/-- Whether a magnitude is at most 1. -/
def atMostOne (v : Flt) : Bool :=
  match v with
  | .fin _ m e => !magLt 1 0 m e
  | _ => false

/-- Ulps allowed by R137: operation 0 `frcp`, 1 `frsq`, 2 `fex2`, 3 `flg2`, 4 `fsin`, 5 `fcos`. -/
def sfuUlps (op : Nat) (t : Ty) : Nat := if op < 2 ∨ t = .f16 then 1 else 2

/-- Deliver a function's value for a finite input outside the exact cases: the proposed pattern where R137 admits it, else y
rounded; flags by R136. `sine` holds results to magnitude 1. -/
def sfuDeliver (op : Nat) (t : Ty) (bits : Nat) (y : Near2) : FRes :=
  let top := maxMag t
  if magLt top.1 top.2 y.m y.e then (infBits t y.neg, fOverflow ||| fInexact)
  else
    let own := if y.m = 0 then zeroBits t y.neg else (roundMag t .rne y.neg y.m y.e).1
    let fixed := decide (op < 2) && t == .f16
    let cand := Config.sfuPattern op t.code.toNat bits % 2 ^ elemBits t
    let ok := !fixed && withinUlps t (sfuUlps op t) y (fdecode t cand) && (decide (op < 4) || atMostOne (fdecode t cand))
    let out := if ok then cand else own
    let small := match fdecode t out with
      | .fin _ m e => m == 0 || magLt m e 1 (fmtOf t).emin
      | _ => false
    (out, fInexact ||| flagIf small fUnderflow)

/-- An exact result where the type holds it, else none. -/
def exactly (t : Ty) (neg : Bool) (m : Nat) (e : Int) : Option FRes :=
  let r := roundVal t .rne neg m e
  if r.2 = 0 then some r else none

/-- m × 2^e with m odd. -/
def oddPart (m : Nat) (e : Int) : Nat × Int :=
  (List.range 64).foldl (fun r _ => if r.1 % 2 = 0 ∧ r.1 ≠ 0 then (r.1 / 2, r.2 + 1) else r) (m, e)

/-- `frcp` (R136). -/
def sfuRcp (t : Ty) (bits : Nat) : FRes :=
  match fdecode t bits with
  | .nan s => nanRes t s
  | .inf n => (zeroBits t n, 0)
  | .fin n m e =>
    if m = 0 then (infBits t n, fDivZero)
    else
      let o := oddPart m e
      match (if o.1 = 1 then exactly t n 1 (-o.2) else none) with
      | some r => r
      | none => sfuDeliver 0 t bits { encRcp m e with neg := n }

/-- `frsq` (R136). -/
def sfuRsq (t : Ty) (bits : Nat) : FRes :=
  match fdecode t bits with
  | .nan s => nanRes t s
  | .inf n => if n then nanRes t true else (zeroBits t false, 0)
  | .fin n m e =>
    if m = 0 then (infBits t n, fDivZero)
    else if n then nanRes t true
    else
      let o := oddPart m e
      match (if o.1 = 1 ∧ o.2 % 2 = 0 then exactly t false 1 (-(o.2 / 2)) else none) with
      | some r => r
      | none => sfuDeliver 1 t bits (encRsq m e)

/-- `fex2` (R136). -/
def sfuEx2 (t : Ty) (bits : Nat) : FRes :=
  match fdecode t bits with
  | .nan s => nanRes t s
  | .inf n => (if n then zeroBits t false else infBits t false, 0)
  | .fin n m e =>
    let one := roundMag t .rne false 1 0
    if m = 0 then one
    else if 12 ≤ topOf m e then
      sfuDeliver 2 t bits (if n then ⟨false, 1, -2000, 1, 0⟩ else ⟨false, 1, 2000, 0, 1⟩)
    else
      let o := oddPart m e
      match (if 0 ≤ o.2 then exactly t false 1 (scaled n o.1 o.2 0) else none) with
      | some r => r
      | none => sfuDeliver 2 t bits (encExp2 n m e)

/-- `flg2` (R136). -/
def sfuLg2 (t : Ty) (bits : Nat) : FRes :=
  match fdecode t bits with
  | .nan s => nanRes t s
  | .inf n => if n then nanRes t true else (infBits t false, 0)
  | .fin n m e =>
    if m = 0 then (infBits t true, fDivZero)
    else if n then nanRes t true
    else
      let o := oddPart m e
      if o.1 = 1 then roundInt t .rne false o.2 0 else sfuDeliver 3 t bits (encLog2 m e)

/-- `fsin` and `fcos` (R136). -/
def sfuTrig (cos : Bool) (t : Ty) (bits : Nat) : FRes :=
  match fdecode t bits with
  | .nan s => nanRes t s
  | .inf _ => nanRes t true
  | .fin n m e =>
    if m = 0 then (if cos then (roundMag t .rne false 1 0).1 else zeroBits t n, 0)
    else sfuDeliver (if cos then 5 else 4) t bits (encTrig cos n m e)

end Sys2Proof.Machine
end

