-- ==== Sys2Proof/Machine/Float.lean ====
section
/-! DEFINITION. Floating-point and conversion instructions (R125 to R140). -/

namespace Sys2Proof.Machine

/-! ## Elements -/

/-- Two results side by side: the halves of `.f16x2` (R74). -/
def pairRes (lo hi : FRes) : W128 × Flags := (BitVec.ofNat 128 (lo.1 + 2 ^ 16 * hi.1), lo.2 ||| hi.2)

/-- An element of an operand: half `h` of `.f16x2`, the low bits otherwise. -/
def elem (t : Ty) (x : W128) (h : Nat) : Nat := bitsOf x.toNat (16 * h) (elemBits t)

/-- Apply an operation element by element, two under `.f16x2`. -/
def perElem (t : Ty) (f : Nat → FRes) : W128 × Flags :=
  if t = .f16x2 then pairRes (f 0) (f 1) else (BitVec.ofNat 128 (f 0).1, (f 0).2)

/-- The immediate of R126. -/
def fimmOf (t : Ty) (imm : W32) : W128 :=
  match t with
  | .f64 =>
    match fdecode .f32 imm.toNat with
    | .nan _ => BitVec.ofNat 128 (infBits .f64 (imm.getLsbD 31) + bitsOf imm.toNat 0 23 * 2 ^ 29)
    | .inf n => BitVec.ofNat 128 (infBits .f64 n)
    | .fin n m e => BitVec.ofNat 128 (if m = 0 then signBit .f64 n else (roundMag .f64 .rne n m e).1)
  | _ => ext32 imm

/-! ## Arithmetic (R128) -/

/-- The sum of two finite values; an exact zero of opposite signs is -0 under `.rdn` only (R78). -/
def addFin (t : Ty) (rnd : Rnd) (n1 : Bool) (m1 : Nat) (e1 : Int) (n2 : Bool) (m2 : Nat) (e2 : Int) : FRes :=
  let s := min e1 e2
  let zneg := if m1 = 0 ∧ m2 = 0 ∧ n1 = n2 then n1 else rnd == .rdn
  roundInt t rnd zneg (scaled n1 m1 e1 s + scaled n2 m2 e2 s) s

/-- A + B. -/
def fltAdd (t : Ty) (rnd : Rnd) (x y : Flt) : FRes :=
  match x, y with
  | .fin n1 m1 e1, .fin n2 m2 e2 => addFin t rnd n1 m1 e1 n2 m2 e2
  | .inf n1, .inf n2 => if n1 = n2 then (infBits t n1, 0) else nanRes t true
  | .inf n, .fin .. => (infBits t n, 0)
  | .fin .., .inf n => (infBits t n, 0)
  | _, _ => nanRes t (x.isSig || y.isSig)

/-- The value with its sign inverted. -/
def Flt.negate : Flt → Flt
  | .fin n m e => .fin (!n) m e
  | .inf n => .inf (!n)
  | x => x

/-- A × B. -/
def fltMul (t : Ty) (rnd : Rnd) (x y : Flt) : FRes :=
  let n := x.neg != y.neg
  match x, y with
  | .fin _ m1 e1, .fin _ m2 e2 => roundVal t rnd n (m1 * m2) (e1 + e2)
  | .inf _, .inf _ => (infBits t n, 0)
  | .inf _, .fin _ m _ => if m = 0 then nanRes t true else (infBits t n, 0)
  | .fin _ m _, .inf _ => if m = 0 then nanRes t true else (infBits t n, 0)
  | _, _ => nanRes t (x.isSig || y.isSig)

/-- A × B + C, the product exact; 0 × ∞ is invalid even beside a quiet NaN. -/
def fltFma (t : Ty) (rnd : Rnd) (x y z : Flt) : FRes :=
  let n := x.neg != y.neg
  let zeroInf := match x, y with
    | .inf _, .fin _ 0 _ => true
    | .fin _ 0 _, .inf _ => true
    | _, _ => false
  let sig := x.isSig || y.isSig || z.isSig
  if x.isNan || y.isNan || z.isNan || zeroInf then nanRes t (sig || zeroInf)
  else
    match x, y, z with
    | .fin _ m1 e1, .fin _ m2 e2, .fin n3 m3 e3 => addFin t rnd n (m1 * m2) (e1 + e2) n3 m3 e3
    | .fin .., .fin .., .inf n3 => (infBits t n3, 0)
    | _, _, .inf n3 => if n3 = n then (infBits t n, 0) else nanRes t true
    | _, _, _ => (infBits t n, 0)

/-- A binary operation on registers. -/
def fltOp (i : Instr) (f : VForm) (x : Nat → Nat → FRes) (s : State) : Out :=
  flagsOp i s fun g l => perElem f.ty fun h => x (elem f.ty (g.a l) h) (elem f.ty (g.b l) h)

/-- A binary operation with an immediate. -/
def fltImmOp (i : Instr) (f : IForm) (x : Nat → Nat → FRes) (s : State) : Out :=
  flagsOp i s fun g l => perElem f.ty fun h => x (elem f.ty (g.a l) h) (elem f.ty (fimmOf f.ty f.imm) h)

/-- A unary operation. -/
def fltOp1 (i : Instr) (f : VForm) (x : Nat → FRes) (s : State) : Out :=
  flagsOp i s fun g l => perElem f.ty fun h => x (elem f.ty (g.a l) h)

/-- The sum of two elements. -/
def bitsAdd (t : Ty) (rnd : Rnd) (a b : Nat) : FRes := fltAdd t rnd (fdecode t a) (fdecode t b)

/-- The difference of two elements. -/
def bitsSub (t : Ty) (rnd : Rnd) (a b : Nat) : FRes := fltAdd t rnd (fdecode t a) (fdecode t b).negate

/-- The product of two elements. -/
def bitsMul (t : Ty) (rnd : Rnd) (a b : Nat) : FRes := fltMul t rnd (fdecode t a) (fdecode t b)

/-- `fadd`. -/
def execFadd (f : VForm) (s : State) : Out := fltOp (.fadd f) f (bitsAdd f.ty f.rnd) s
/-- `fadd` with an immediate. -/
def execFaddImm (f : IForm) (s : State) : Out := fltImmOp (.faddImm f) f (bitsAdd f.ty f.rnd) s
/-- `fsub`. -/
def execFsub (f : VForm) (s : State) : Out := fltOp (.fsub f) f (bitsSub f.ty f.rnd) s
/-- `fsub` with an immediate. -/
def execFsubImm (f : IForm) (s : State) : Out := fltImmOp (.fsubImm f) f (bitsSub f.ty f.rnd) s
/-- `fmul`. -/
def execFmul (f : VForm) (s : State) : Out := fltOp (.fmul f) f (bitsMul f.ty f.rnd) s
/-- `fmul` with an immediate. -/
def execFmulImm (f : IForm) (s : State) : Out := fltImmOp (.fmulImm f) f (bitsMul f.ty f.rnd) s

/-- `ffma`: one rounding of A × B + C. -/
def execFfma (f : VForm) (s : State) : Out :=
  flagsOp (.ffma f) s fun g l => perElem f.ty fun h =>
    fltFma f.ty f.rnd (fdecode f.ty (elem f.ty (g.a l) h)) (fdecode f.ty (elem f.ty (g.b l) h))
      (fdecode f.ty (elem f.ty (g.c l) h))

/-! ## R129 to R132 -/

/-- Order of two values, neither a NaN; zeros are equal. -/
def Flt.lt (x y : Flt) : Bool :=
  match x, y with
  | .inf n, .inf k => n && !k
  | .inf n, _ => n
  | _, .inf n => !n
  | .fin n1 m1 e1, .fin n2 m2 e2 => decide (scaled n1 m1 e1 (min e1 e2) < scaled n2 m2 e2 (min e1 e2))
  | _, _ => false

/-- Equality of two values, neither a NaN. -/
def Flt.same (x y : Flt) : Bool := !x.lt y && !y.lt x

/-- The lesser (`max` false) or greater of two elements; -0 is less than +0 (R129). -/
def bitsMinMax (t : Ty) (max : Bool) (a b : Nat) : FRes :=
  let x := fdecode t a
  let y := fdecode t b
  let fl := flagIf (x.isSig || y.isSig) fInvalid
  if x.isNan && y.isNan then (nanBits t, fl)
  else if x.isNan then (b, fl)
  else if y.isNan then (a, fl)
  else
    let less := x.lt y || (x.same y && x.neg && !y.neg)
    (if less != max then a else b, fl)

/-- `fmin`. -/
def execFmin (f : VForm) (s : State) : Out := fltOp (.fmin f) f (bitsMinMax f.ty false) s
/-- `fmin` with an immediate. -/
def execFminImm (f : IForm) (s : State) : Out := fltImmOp (.fminImm f) f (bitsMinMax f.ty false) s
/-- `fmax`. -/
def execFmax (f : VForm) (s : State) : Out := fltOp (.fmax f) f (bitsMinMax f.ty true) s
/-- `fmax` with an immediate. -/
def execFmaxImm (f : IForm) (s : State) : Out := fltImmOp (.fmaxImm f) f (bitsMinMax f.ty true) s

/-- `fabs`: the sign cleared; a NaN gives the canonical NaN, and no flag (R130). -/
def execFabs (f : VForm) (s : State) : Out :=
  fltOp1 (.fabs f) f (fun a => if (fdecode f.ty a).isNan then nanRes f.ty false else (a % 2 ^ (elemBits f.ty - 1), 0)) s

/-- `fneg`: the sign inverted (R130). -/
def execFneg (f : VForm) (s : State) : Out :=
  fltOp1 (.fneg f) f (fun a => if (fdecode f.ty a).isNan then nanRes f.ty false
    else (a ^^^ 2 ^ (elemBits f.ty - 1), 0)) s

/-- A × 2^B (R131). Amounts beyond ±5,000 act as ±5,000: every format's result is then the same. -/
def bitsScale (t : Ty) (rnd : Rnd) (a : Nat) (k : Int) : FRes :=
  match fdecode t a with
  | .nan sg => nanRes t sg
  | .fin n m e => if m = 0 then (a, 0) else roundMag t rnd n m (e + max (-5000) (min 5000 k))
  | .inf _ => (a, 0)

/-- `fscale`. -/
def execFscale (f : VForm) (s : State) : Out :=
  flagsOp (.fscale f) s fun g l => perElem f.ty fun h =>
    bitsScale f.ty f.rnd (elem f.ty (g.a l) h) (lowInt (g.b l) 32)

/-- Round to an integral value of the format (R132). -/
def bitsIntegral (t : Ty) (rnd : Rnd) (a : Nat) : FRes :=
  match fdecode t a with
  | .nan sg => nanRes t sg
  | .inf _ => (a, 0)
  | .fin n m e =>
    if 0 ≤ e ∨ m = 0 then (a, 0)
    else
      let r := nearAt m e 0
      let v := r.choose rnd n
      (magCode t n v r.s, flagIf (v != r.x) fInexact)

/-- `frnd`. -/
def execFrnd (f : VForm) (s : State) : Out := fltOp1 (.frnd f) f (bitsIntegral f.ty f.rnd) s

/-! ## R133, R134 -/

/-- Truth and flags of a comparison (R133). -/
def fltCond (c : BitVec 4) (x y : Flt) : Bool × Flags :=
  let n := c.toNat
  let un := x.isNan || y.isNan
  let lt := !un && x.lt y
  let eq := !un && x.same y
  let gt := !un && y.lt x
  let r := match n with
    | 0 => eq
    | 1 => !un && !eq
    | 2 => lt
    | 3 => lt || eq
    | 4 => gt
    | 5 => gt || eq
    | 6 => un || eq
    | 7 => un || !eq
    | 8 => un || lt
    | 9 => un || lt || eq
    | 10 => un || gt
    | 11 => un || gt || eq
    | 12 => !un
    | _ => un
  (r, flagIf (x.isSig || y.isSig || (un && decide (2 ≤ n ∧ n ≤ 5))) fInvalid)

/-- A comparison into a predicate. -/
def cmpRes (t : Ty) (c : BitVec 4) (a b : W128) : W128 × Flags :=
  let r := fltCond c (fdecode t (elem t a 0)) (fdecode t (elem t b 0))
  (bit r.1, r.2)

/-- `fcmp`. -/
def execFcmp (f : VForm) (s : State) : Out := flagsOp (.fcmp f) s fun g l => cmpRes f.ty f.sub (g.a l) (g.b l)

/-- `fcmp` with an immediate: the condition in IMOD[3:0]. -/
def execFcmpImm (f : IForm) (s : State) : Out :=
  flagsOp (.fcmpImm f) s fun g l => cmpRes f.ty (f.imod.extractLsb' 0 4) (g.a l) (fimmOf f.ty f.imm)

/-- The class of a value, as the number of its bit (R134). -/
def classOf (t : Ty) (a : Nat) : Nat :=
  match fdecode t a with
  | .nan sg => if sg then 0 else 1
  | .inf n => if n then 2 else 9
  | .fin n m e =>
    let sub := m < 2 ^ ((fmtOf t).p - 1)
    if m = 0 then (if n then 5 else 6)
    else if sub ∧ e = (fmtOf t).emin - ((fmtOf t).p - 1) then (if n then 4 else 7)
    else (if n then 3 else 8)

/-- `fclass`. -/
def execFclass (f : VForm) (s : State) : Out :=
  lanesOp (.fclass f) s fun g l => 1#128 <<< classOf f.ty (elem f.ty (g.a l) 0)

/-! ## Division and square root (R135) -/

/-- A / B. -/
def fltDiv (t : Ty) (rnd : Rnd) (x y : Flt) : FRes :=
  let n := x.neg != y.neg
  match x, y with
  | .fin _ m1 e1, .fin _ m2 e2 =>
    if m2 = 0 then (if m1 = 0 then nanRes t true else (infBits t n, fDivZero))
    else if m1 = 0 then (zeroBits t n, 0)
    else
      let k := 130 + Nat.log2 m2
      let num := m1 * 2 ^ k
      roundMag t rnd n (2 * (num / m2) + if num % m2 = 0 then 0 else 1) (e1 - e2 - k - 1)
  | .inf _, .inf _ => nanRes t true
  | .inf _, .fin .. => (infBits t n, 0)
  | .fin .., .inf _ => (zeroBits t n, 0)
  | _, _ => nanRes t (x.isSig || y.isSig)

/-- `fdiv`. -/
def execFdiv (f : VForm) (s : State) : Out :=
  fltOp (.fdiv f) f (fun a b => fltDiv f.ty f.rnd (fdecode f.ty a) (fdecode f.ty b)) s

/-- √A. -/
def fltSqrt (t : Ty) (rnd : Rnd) (x : Flt) : FRes :=
  match x with
  | .nan sg => nanRes t sg
  | .inf n => if n then nanRes t true else (infBits t false, 0)
  | .fin n m e =>
    if m = 0 then (zeroBits t n, 0)
    else if n then nanRes t true
    else
      let m' := if e % 2 = 0 then m else 2 * m
      let e' := if e % 2 = 0 then e else e - 1
      let num := m' * 2 ^ 140
      let r := isqrt num
      roundMag t rnd false (2 * r + if r * r = num then 0 else 1) (e' / 2 - 71)

/-- `fsqrt`. -/
def execFsqrt (f : VForm) (s : State) : Out := fltOp1 (.fsqrt f) f (fun a => fltSqrt f.ty f.rnd (fdecode f.ty a)) s

/-! ## Functions (R136, R137) -/

/-- `frcp`. -/
def execFrcp (f : VForm) (s : State) : Out := fltOp1 (.frcp f) f (sfuRcp f.ty) s
/-- `frsq`. -/
def execFrsq (f : VForm) (s : State) : Out := fltOp1 (.frsq f) f (sfuRsq f.ty) s
/-- `fex2`. -/
def execFex2 (f : VForm) (s : State) : Out := fltOp1 (.fex2 f) f (sfuEx2 f.ty) s
/-- `flg2`. -/
def execFlg2 (f : VForm) (s : State) : Out := fltOp1 (.flg2 f) f (sfuLg2 f.ty) s
/-- `fsin`. -/
def execFsin (f : VForm) (s : State) : Out := fltOp1 (.fsin f) f (sfuTrig false f.ty) s
/-- `fcos`. -/
def execFcos (f : VForm) (s : State) : Out := fltOp1 (.fcos f) f (sfuTrig true f.ty) s

/-! ## Conversion (R138 to R140, R88) -/

/-- ±∞ converted to a float type (R88). -/
def infTo (t : Ty) (n : Bool) : FRes :=
  match t with
  | .gf8 | .d8 => (overflowBits t .rne n, fInvalid)
  | _ => (infBits t n, 0)

/-- A NaN converted to a float type (R88): D8 has none, so every NaN is invalid there. -/
def nanTo (t : Ty) (sg : Bool) : FRes := nanRes t (sg || t == .d8)

/-- A float value to a float type, the random word `r` under `.sr` (R139). -/
def floatTo (t src : Ty) (rnd : Rnd) (x : Flt) (raw r : Nat) : FRes :=
  match x with
  | .nan sg => nanTo t sg
  | .inf n => if t = src then (raw, 0) else infTo t n
  | .fin n m e =>
    if m = 0 then (zeroBits t n, 0)
    else if t = src ∧ t ≠ .d8 then (raw, 0)
    else if rnd = .sr then stochastic t n m e r
    else roundMag t rnd n m e

/-- A float value to an integer type (R140). -/
def floatToInt (t : Ty) (rnd : Rnd) (x : Flt) : FRes :=
  let ends (n : Bool) : Nat := (ofInt (if n then tmin t else tmax t) t.bits).toNat
  match x with
  | .nan _ => (0, fInvalid)
  | .inf n => (ends n, fInvalid ||| fInexact)
  | .fin n m e =>
    let r := nearAt m e 0
    let v := r.choose rnd n / pow2 (-r.s)
    let y : Int := if n then -(v : Int) else (v : Int)
    if y < tmin t ∨ tmax t < y then (ends n, fInvalid ||| fInexact)
    else ((ofInt y t.bits).toNat, flagIf (v * pow2 (-r.s) != r.x) fInexact)

/-- One conversion (R139). -/
def convert (f : VForm) (a b : W128) : W128 × Flags :=
  let src := Ty.ofCode f.sub
  if src.isInt then
    let x := tval src a
    if f.ty.isInt then (narrow f.ty f.sat x, 0)
    else let r := roundInt f.ty f.rnd false x 0; (BitVec.ofNat 128 r.1, r.2)
  else
    let raw := lowNat a src.bits
    let x := fdecode src raw
    let r := if f.ty.isInt then floatToInt f.ty f.rnd x else floatTo f.ty src f.rnd x raw (lowNat b 32)
    (BitVec.ofNat 128 r.1, r.2)

/-- `cvt`. -/
def execCvt (f : VForm) (s : State) : Out := flagsOp (.cvt f) s fun g l => convert f (g.a l) (g.b l)

end Sys2Proof.Machine
end

