-- ==== Sys2Proof/Machine/Slots.lean ====
section
/-! DEFINITION. An issue slot before its instruction is known: the fetch (R46, R146), what a fetch that fails does to its
lanes, and the raising of BIND (R27, R169, R295). -/

namespace Sys2Proof.Machine

/-- The word of a slot: the one a replay entry carries, else the one fetched for the group, from the line that another node has sent for it
where there is one (R334). -/
def State.slotWord (s : State) (sl : Slot) : Fetched :=
  match sl.replay with
  | some r => .word r.word
  | none =>
    match (s.wave sl.wave).fetched with
    | some (line, x) =>
      if line.toNat = linePc sl.pc then fetchedLine x.toNat sl.pc else s.fetch (s.who sl.wave (sl.lanes.headD 0) 2) sl.pc
    | none => s.fetch (s.who sl.wave (sl.lanes.headD 0) 2) sl.pc

/-- The group of a slot whose word is no instruction. -/
def State.slotGroup (s : State) (sl : Slot) (word : IWord) : Grp := s.group sl word Shape.blank

/-- An illegal word traps every lane of the group, whatever its guard (R61, R73). -/
def State.illegalWord (s : State) (sl : Slot) (word : IWord) : State :=
  let g := s.slotGroup sl word
  ((s.advance g).raiseAll g .illegal g.all).finish g

/-- A trap of lanes at the PC they were fetching: nothing was read, so there is nothing to replay, and they resume by fetching
again (R46). -/
def State.raiseFetch (s : State) (w : Nat) (pc : W64) (k : TrapKind) (lanes : List Nat) : State :=
  if lanes.isEmpty then s
  else
    s.modWave w fun wv =>
      let entry : TrapEntry :=
        { pc := pc, kind := k, issued := wv.issues, lanes := lanes.map fun l => ⟨l, pc, []⟩, delivered := false
          begun := false, owed := [] }
      let wv' := { wv with trapq := putEntry wv.trapq entry }
      wv'.modLanes lanes fun _ t => { t with wait := .trapped }

/-- Set the state of a residency record. -/
def State.setRec (s : State) (ctx : Nat) (obj : W64) (f : ObjRec → ObjRec) : State :=
  s.modCtx ctx fun c => { c with recs := c.recs.map fun r => if r.obj = obj then f r else r }

/-- The name of BIND (R40). -/
def nameBind : W32 := 0xFFFE0001

/-- Lanes reach unbound code: the first of them moves the record to BINDING and delivers BIND to frame 0, the continuation at
`cont`; the others wait on the record (R146, R169, R295). -/
def State.raiseBind (s : State) (w : Nat) (obj cont : W64) (lanes : List Nat) : State :=
  match lanes with
  | [] => s
  | l :: rest =>
    let ctx := (s.wave w).ctx
    let t := s.thread w l
    let e : Effect :=
      { name := nameBind, kind := 2, pb := 0, k := 0, cont := cont, redo := [], forced := true, src := cont }
    let s1 := (s.setRec ctx obj fun r => { r with state := .binding, requester := some (w, l) }).modLanes w rest
      fun _ t => { t with wait := .binding ctx obj }
    match s1.deliver (s1.wave w) w l e with
    | some s2 => s2.modThread w l fun t' => { t' with redo := t.redo }
    | none => let r := s.postPrivate w l; r.1.modThread w l fun t => { t with wait := r.2 }

/-- Ask another node for the line of a slot: its lanes wait for the reply (R270, R334). A READ with OPC 1 asks for 64 bytes (log 21). -/
def State.askLine (s : State) (sl : Slot) (n h : Nat) : State :=
  let p := { s.packet (s.who sl.wave (sl.lanes.headD 0) 2).world .read n h with opc := 1 }
  let tile := (s.wave sl.wave).tile
  match s.requestFor tile sl.wave (sl.lanes.headD 0) [] (.fetch (BitVec.ofNat 64 (linePc sl.pc))) p with
  | none => s.modLanes sl.wave sl.lanes fun _ x => { x with wait := .tag tile }
  | some (s', t) => s'.modLanes sl.wave sl.lanes fun _ x => { x with wait := .remote t }

/-- What a failed fetch does to the lanes of its slot: those that the first of a pair did not take to the second fetch nothing (R49). -/
def State.fetchFails (s : State) (slot : Slot) (f : Fetched) : State :=
  let s' := { s with slots := s.slots.tail }
  let sl := { slot with lanes := s.slotLanes slot }
  if sl.lanes.isEmpty then s'
  else match f with
  | .word _ => s'
  | .trap k => s'.raiseFetch sl.wave sl.pc k sl.lanes
  | .block wt post =>
    let r := s'.waitFor wt post
    r.1.modLanes sl.wave sl.lanes fun _ t => { t with wait := r.2 }
  | .unbound obj => s'.raiseBind sl.wave obj sl.pc sl.lanes
  | .far n h => s'.askLine sl n h

end Sys2Proof.Machine
end

