-- ==== Sys2Proof/Machine/Access.lean ====
section
/-! DEFINITION. What every access to memory shares: the bytes at a point (R191), the pads of sealed tensors (R356, R357), the
scoreboard (R203), requests to other nodes (R332 to R335, R340), and the lanes of one instruction one after the other (R175,
R177). -/

namespace Sys2Proof.Machine

/-! ## Pads (R356) -/

/-- The pad byte at a byte offset of a sealed tensor's buffer. -/
def padByte (key : BitVec 256) (tid version world o : Nat) : Byte :=
  let tweak : BitVec 128 := BitVec.ofNat 16 tid ++ BitVec.ofNat 48 version ++ BitVec.ofNat 6 world ++ (0 : BitVec 58)
  let input : BitVec 128 := BitVec.ofNat 64 (o / 64) ++ BitVec.ofNat 62 0 ++ BitVec.ofNat 2 (o / 16 % 4)
  (Config.qarma128 key tweak input).extractLsb' (8 * (o % 16)) 8

/-- The sealed key a tensor entry names (R355). -/
def State.sealKey (s : State) (e : BitVec 512) : BitVec 256 := Sparse.get 0 (s.world (tWorld e)).sealKeys (tKey e)

/-- Put on, or take off, the pads of a version over bytes from offset `o`. -/
def State.padded (s : State) (tid : Nat) (e : BitVec 512) (version o : Nat) (bs : List Byte) : List Byte :=
  bs.mapIdx fun i b => b ^^^ padByte (s.sealKey e) tid version (tWorld e) (o + i)

/-- Take the pads of the current version off bytes that go through a sealed tensor: its identifier, entry and byte offset
(R357). -/
def State.unpad (s : State) (pad : Option (Nat × BitVec 512 × Nat)) (bs : List Byte) : List Byte :=
  match pad with
  | none => bs
  | some (tid, e, o) => s.padded tid e (tVersion e) o bs

/-- The bytes an access reads. -/
def State.load (s : State) (ps : List Piece) (pad : Option (Nat × BitVec 512 × Nat)) : List Byte :=
  s.unpad pad (Memory.readPieces s.mem ps)

/-- The entry of the tensor whose window holds an address (R216). -/
def State.windowEntry (s : State) (who : Who) (va : Nat) : Option (BitVec 512) :=
  if windowBase ≤ va ∧ va < 4 * 2 ^ 60 then (s.ctx? who.ctx).map fun c => c.tensor ((va - windowBase) / 2 ^ 40) else none

/-- The pads of an access at an address of a window, under the entry it goes through (R357). -/
def windowPad (va : Nat) (e : Option (BitVec 512)) : Option (Nat × BitVec 512 × Nat) :=
  (e.filter tSealed).map fun e => ((va - windowBase) / 2 ^ 40, e, va % 2 ^ 40)

/-! ## The scoreboard (R203) -/

/-- Whether a piece of slice memory shares a 64-byte granule with a range. -/
def SliceRange.hits (r : SliceRange) (p : Piece) : Bool :=
  let lo := sliceKey r.tile r.lo
  r.len != 0 && p.2 != 0 && decide (lineOf lo ≤ lineOf (p.1 + p.2 - 1)) && decide (lineOf p.1 ≤ lineOf (lo + r.len - 1))

/-- Whether a command holds an access back. -/
def Cmd.holds (c : Cmd) (ps : List Piece) (writes : Bool) : Bool :=
  c.state == .accepted && ps.any fun p => (c.writes.any fun r => r.hits p) || (writes && c.reads.any fun r => r.hits p)

/-- The earliest unfinished command of a tile that holds an access back. -/
def State.heldBy (s : State) (tile : Nat) (ps : List Piece) (writes : Bool) : Option Nat :=
  ((s.tile tile).cmds.find? fun c => c.holds ps writes).map (·.id)

/-- The checks of R174 for a lane, its access held back by the scoreboard before its data are read (R203). -/
def State.reach (s : State) (who : Who) (va size align : Nat) (mode : Mode) : Acc :=
  let a := s.access who va size align mode
  let held (ps : List Piece) (a : Acc) : Acc :=
    match s.heldBy who.tile ps mode.writes with
    | some c => .block (.scoreboard who.tile c) none
    | none => a
  match a with
  | .ok ps _ => held ps a
  | .trap .poison =>
    match ({ s with poison := [] } : State).access who va size align mode with
    | .ok ps _ => held ps a
    | _ => a
  | _ => a

/-! ## The lanes of an instruction -/

/-- How a lane's part of an instruction ends. -/
inductive LaneEnd where
  | done
  | trap (k : TrapKind)
  | wait (wt : Wait) (post : Option FaultRec)
  /-- The lane waits with what it has read: a name slot (R183), or the mark of an `rstf` (R192), and a tensor entry (R181, R357). -/
  | kept (slot : Option W128) (entry : Option (BitVec 512)) (wt : Wait) (post : Option FaultRec)
  deriving DecidableEq, Repr

/-- A lane that waits keeps the entry it has sampled. -/
def LaneEnd.keeping (e : Option (BitVec 512)) : LaneEnd → LaneEnd
  | .wait wt post => .kept none e wt post
  | x => x

/-- What a lane that blocks has read, kept with its instruction. -/
def State.keep (s : State) (g : Grp) (l : Nat) (slot : Option W128) (entry : Option (BitVec 512)) : State :=
  s.modThread g.w l fun t =>
    { t with redo := match t.redo with
        | [] => []
        | r :: rs => { r with slot := slot, entry := entry } :: rs }

/-- What checks that failed make of a lane. -/
def Acc.ended : Acc → LaneEnd
  | .ok _ _ => .done
  | .trap k => .trap k
  | .block w p => .wait w p
  | .remote _ _ => .wait .none none
  | .unbound _ => .trap .xlate

/-- A lane's request to another node: it waits for the reply (R175, R180), or for a tag while none is free (R335). -/
def State.ask (s : State) (g : Grp) (l : Nat) (p : Packet) (part : List Byte) : State × LaneEnd :=
  match s.requestFor (s.wave g.w).tile g.w l part .lane p with
  | none => (s, .wait (.tag (s.wave g.w).tile) none)
  | some (s', t) => (s', .wait (.remote t) none)

/-- Lanes performed so far: the state, the traps, the lanes that wait. -/
structure Sweep where
  st : State
  traps : List (Nat × TrapKind)
  blocked : List Nat
  deriving DecidableEq, Repr

/-- The lanes that share a lane's access: all the executing lanes under S = 1 (R18). -/
def Grp.party (g : Grp) (l : Nat) : List Nat := if g.shape.hd.s then g.lanes else [l]

/-- One lane's part. -/
def Sweep.lane (m : Sweep) (g : Grp) (f : State → Nat → State × LaneEnd) (l : Nat) : Sweep :=
  match f m.st l with
  | (s, .done) => { m with st := s }
  | (s, .trap k) => { m with st := s, traps := m.traps ++ (g.party l).map fun x => (x, k) }
  | (s, .wait wt post) =>
    let r := s.waitFor wt post
    { m with st := (g.party l).foldl (fun s x => s.block g x r.2) r.1, blocked := m.blocked ++ g.party l }
  | (s, .kept slot entry wt post) =>
    let r := s.waitFor wt post
    { m with st := (g.party l).foldl (fun s x => (s.block g x r.2).keep g x slot entry) r.1, blocked := m.blocked ++ g.party l }

/-- Perform an instruction in its lanes, in ascending thread order; each completes, traps or waits on its own (R175 to R177). -/
def State.eachLane (s : State) (g : Grp) (f : State → Nat → State × LaneEnd) : State :=
  let m := g.actors.foldl (fun (m : Sweep) l => m.lane g f l) ⟨s, [], []⟩
  (m.st.holdFor g m.blocked).raise g m.traps

/-- Once per issuing group in which a lane executes: the first lane's outcome is every executing lane's (R200). -/
def State.onceFor (s : State) (g : Grp) (f : State → Nat → State × LaneEnd) : State :=
  match g.lanes with
  | [] => s
  | l :: _ =>
    match f s l with
    | (s', .done) => s'
    | (s', .trap k) => s'.raiseAll g k g.lanes
    | (s', .wait wt post) =>
      let r := s'.waitFor wt post
      g.lanes.foldl (fun s x => s.block g x r.2) r.1
    | (s', .kept slot entry wt post) =>
      let r := s'.waitFor wt post
      g.lanes.foldl (fun s x => (s.block g x r.2).keep g x slot entry) r.1

/-- The pads of an access of the group at an address: under the entry that was sampled when another node was asked, else under the entry as it
stands (R357). -/
def State.padAt (s : State) (g : Grp) (who : Who) (va : Nat) : Option (Nat × BitVec 512 × Nat) :=
  windowPad va ((g.replay.bind (·.entry)).or (s.windowEntry who va))

/-- Ask another node for bytes at an address, the entry of a window they go through being sampled (R357). -/
def State.askAt (s : State) (g : Grp) (l : Nat) (who : Who) (va : Nat) (p : Packet) (part : List Byte) : State × LaneEnd :=
  let r := s.ask g l p part
  (r.1, r.2.keeping (if part.isEmpty then s.windowEntry who va else (g.replay.bind (·.entry)).or (s.windowEntry who va)))

/-- The address a lane forms (R173). -/
def Grp.addr (g : Grp) (off : Int) (l : Nat) : Nat := (lo64 (g.a l) + BitVec.ofInt 64 off).toNat

/-- Write a lane's result, which is general (R179). R12 and the last row of R13 make a result that is read from memory or from a record
general; of a 64- or 128-bit result under uniform sources the third row, read alone, would make it uniform. DESIGN CHOICE (log 65):
general. -/
def State.give (s : State) (g : Grp) (l : Nat) (x : Nat) : State :=
  s.writeD g [l] (fun _ => BitVec.ofNat 128 x) fun _ => .general

end Sys2Proof.Machine
end

