-- ==== Sys2Proof/Machine/LoadStore.lean ====
section
/-! DEFINITION. Plain loads and stores, tensor element loads and prefetches (R178 to R182). -/

namespace Sys2Proof.Machine

/-! ## Shared reads and writes -/

/-- Read `size` bytes for a lane and go on with them; a home at another node is asked for them. -/
def State.readFor (s : State) (g : Grp) (l va size : Nat) (wt : Ty) (scope : Scope) (ord : Ord)
    (k : State → List Byte → State × LaneEnd) : State × LaneEnd :=
  let who := s.whoFor g l 0 scope
  if !g.part.isEmpty then k s (s.unpad (s.padAt g who va) g.part)
  else
    match s.reach who va size size .read with
    | .ok ps pad => k (s.count ps) (s.load ps pad)
    | .remote n h =>
      let p := s.packet who.world .read n h
      s.askAt g l who va { p with wt := wt, scope := scope, ord := ord } []
    | a => (s, a.ended)

/-- Write bytes for a lane, or send them to a home at another node. -/
def State.writeFor (s : State) (g : Grp) (l va align : Nat) (wt : Ty) (scope : Scope) (ord : Ord) (bs : List Byte) :
    State × LaneEnd :=
  let who := s.whoFor g l 1 scope
  match s.reach who va bs.length align .write with
  | .ok ps _ => ((s.count ps).store ps bs, .done)
  | .remote n h =>
    let p := s.packet who.world .write n h
    s.ask g l { p with wt := wt, scope := scope, ord := ord, data := bs } []
  | a => (s, a.ended)

/-! ## `ld` and `st` (R179) -/

/-- The effect of `ld`. -/
def ldEffect (f : MForm) (g : Grp) (s : State) : State :=
  s.eachLane g fun s l => s.readFor g l (g.addr f.off.toInt l) f.wt.bytes f.wt f.scope f.ord fun s bs =>
    (s.give g l (ofBytes bs), .done)

/-- `ld`: each lane reads the access size at its address, zero-extended. -/
def execLd (f : MForm) (s : State) : Out := issue (.ld f) s lawful (ldEffect f)

/-- `st`: each lane writes the low bytes of B at its address. -/
def execSt (f : MForm) (s : State) : Out :=
  issue (.st f) s lawful fun g s =>
    s.eachLane g fun s l =>
      s.writeFor g l (g.addr f.off.toInt l) f.wt.bytes f.wt f.scope f.ord (toBytes (g.b l).toNat f.wt.bytes)

/-! ## `ldt` (R181) -/

/-- The checks of R174 on bytes of a tensor's active buffer, from step 8. -/
def State.tensorAccess (s : State) (who : Who) (tid : Nat) (e : BitVec 512) (o size : Nat) (mode : Mode) : Acc :=
  let pa := tBase e (tSide e) + o
  match s.locateAll who (pageParts pa size) with
  | .ok ps _ => s.permit who mode false true 0 pa size (.ok ps (if tSealed e then some (tid, e, o) else none))
  | a => s.permit who mode false true 0 pa size a

/-- The checks of R181 before any byte is read: the entry, or the trap. -/
def State.ldtEntry (s : State) (who : Who) (id : W64) (size : Nat) (i : List Nat) : Except TrapKind (BitVec 512) :=
  let e := ((s.ctx? who.ctx).map fun c => c.tensor (id.toNat % 65536)).getD 0
  if id.toNat / 65536 ≠ 0 then .error .xlate
  else if tFmt e = 0 then .error .xlate
  else if tWorld e ≠ who.world then .error .world
  else if size ≠ fmtSize (tFmt e) then .error .xlate
  else if (List.range (tRank e)).any fun d => decide (tDim e d ≤ i.getD d 0) then .error .stray
  else .ok e

/-- The five indices of a lane. -/
def Grp.indices (g : Grp) (l : Nat) : List Nat :=
  ((List.range 4).map fun k => (word32 (g.b l) k).toNat) ++ [(lo32 (g.c l)).toNat]

/-- Read bytes of a tensor's active buffer for a lane as they are stored, those that replies brought first, and go on with
them. -/
def State.tensorRead (s : State) (g : Grp) (f : MForm) (l : Nat) (e : BitVec 512) (o : Nat) (wt : Ty) (got : List Byte)
    (k : State → List Byte → State × LaneEnd) : State × LaneEnd :=
  let who := s.whoFor g l 0 f.scope
  let had := g.part.drop got.length
  if !had.isEmpty then k s (had.take wt.bytes)
  else
    match s.tensorAccess who (lo64 (g.a l)).toNat e o wt.bytes .read with
    | .ok ps _ => k (s.count ps) (Memory.readPieces s.mem ps)
    | .remote n h =>
      let p := s.packet who.world .read n h
      s.ask g l { p with wt := wt, scope := f.scope, ord := f.ord } got
    | a => (s, a.ended)

/-- SIDE, VERSION and SEALED of an entry. -/
def tMoving : BitVec 512 := BitVec.ofNat 512 (2 ^ 52 + 2 ^ 51 + (2 ^ 48 - 1))

/-- A sampled entry at the moment of the read: the side is the one that then holds, and with it the version and the seal (R181, R220). -/
def State.atRead (s : State) (who : Who) (tid : Nat) (e : BitVec 512) : BitVec 512 :=
  let now := ((s.ctx? who.ctx).map fun c => c.tensor tid).getD 0
  (e &&& ~~~tMoving) ||| (now &&& tMoving)

/-- `ldt` in one lane under its entry: the element, and the scale byte above it where the tensor has block scales. A lane that waits keeps
the entry. -/
def State.ldtUnder (s : State) (g : Grp) (f : MForm) (l : Nat) (e : BitVec 512) : State × LaneEnd :=
  let tid := (lo64 (g.a l)).toNat
  let off := f.wt.bytes * tElement e (g.indices l)
  let plain (o : Nat) (bs : List Byte) : List Byte := s.unpad (if tSealed e then some (tid, e, o) else none) bs
  let r := s.tensorRead g f l e off f.wt [] fun s elem =>
    if tBlk e ≠ 1 then (s.give g l (ofBytes (plain off elem)), .done)
    else
      let so := tScale e (g.indices l)
      s.tensorRead g f l e so .b8 elem fun s scale =>
        (s.give g l (ofBytes ((plain off elem).take 1 ++ plain so scale)), .done)
  (r.1, r.2.keeping (some e))

/-- `ldt` in one lane. The entry is sampled once, with the checks; a lane that has waited goes on with it, from step 8 of R174 (R175, R181),
and one that a reply has reached takes it as it stood when the bytes were asked for. -/
def State.ldtLane (s : State) (g : Grp) (f : MForm) (l : Nat) : State × LaneEnd :=
  match g.replay.bind (·.entry) with
  | some e => s.ldtUnder g f l (if g.part.isEmpty then s.atRead (s.who g.w l 0) (lo64 (g.a l)).toNat e else e)
  | none =>
    match s.ldtEntry (s.who g.w l 0) (lo64 (g.a l)) f.wt.bytes (g.indices l) with
    | .error k => (s, .trap k)
    | .ok e => s.ldtUnder g f l e

/-- The effect of `ldt`. -/
def ldtEffect (f : MForm) (g : Grp) (s : State) : State := s.eachLane g fun s l => s.ldtLane g f l

/-- `ldt`: one element of a tensor named by identifier and indices. -/
def execLdt (f : MForm) (s : State) : Out := issue (.ldt f) s lawful (ldtEffect f)

/-! ## `pref` (R182) -/

/-- A prefetch of a lane: an absent page begins to arrive, and nothing else happens. It waits on the page's record without blocking the
lane, and is dropped where the queue is full (R290). -/
def State.prefetch (s : State) (w l a size : Nat) (bypass late : Bool) : State :=
  match s.access { s.who w l 4 with late := late } a size size .read with
  | .ok ps _ => if bypass then s else s.count ps
  | .block _ (some r) =>
    if r.kind = .map ∨ r.kind = .frame then
      match s.post r with
      | (s', some (d, q)) => { s' with prefetches := s'.prefetches ++ [⟨d, q, w, l, a, size, bypass⟩] }
      | (s', none) => s'
    else s
  | _ => s

/-- `pref` in one lane. Its access size is the width of WT (R173). -/
def State.prefLane (s : State) (g : Grp) (f : MForm) (l : Nat) : State :=
  s.prefetch g.w l (g.addr f.off.toInt l) f.wt.bytes (f.hint == .bypass) false

/-- `pref`: never traps and never blocks. -/
def execPref (f : MForm) (s : State) : Out :=
  issue (.pref f) s lawful fun g s => g.actors.foldl (fun s l => s.prefLane g f l) s

end Sys2Proof.Machine
end

