-- ==== Sys2Proof/Machine/Atomics.lean ====
section
/-! DEFINITION. Atomics, flagged remote stores and exact accumulators (R99 to R101, R187 to R197). -/

namespace Sys2Proof.Machine

/-! ## Atomic steps (R187) -/

/-- A two-operand function of the low bits, by type: exact on integers, `.rne` on floats. -/
def atomArith (t : Ty) (int : Int → Int → Int) (flt : Ty → Nat → Nat → FRes) (a b : W128) : W128 :=
  if t = .f32 ∨ t = .f64 then BitVec.ofNat 128 (flt t (lowNat a t.bits) (lowNat b t.bits)).1
  else if t = .f16x2 then (perElem t fun h => flt .f16 (elem t a h) (elem t b h)).1
  else ofInt (int (tval t a) (tval t b)) t.bits

/-- The result an atomic operation writes back, from the old value and B. -/
def atomResult (opc : Nat) (t : Ty) (a b : W128) : W128 :=
  match opc with
  | 0 => b
  | 1 => atomArith t (· + ·) (fun t x y => bitsAdd t .rne x y) a b
  | 2 => atomArith t min (fun t x y => bitsMinMax t false x y) a b
  | 3 => atomArith t max (fun t x y => bitsMinMax t true x y) a b
  | 4 => a &&& b
  | 5 => a ||| b
  | 6 => a ^^^ b
  | 7 => if lowNat b 32 ≤ lowNat a 32 then 0 else ofNat (lowNat a 32 + 1) 32
  | _ => if lowNat a 32 = 0 ∨ lowNat b 32 < lowNat a 32 then b else ofNat (lowNat a 32 - 1) 32

/-- A step of `atom` or `red` on bytes of memory. -/
def atomBytes (opc : Nat) (t : Ty) (b : W128) (old : List Byte) : List Byte :=
  toBytes (atomResult opc t (BitVec.ofNat 128 (ofBytes old)) b).toNat t.bytes

/-- Perform a read-modify-write for a lane: what the step writes is a function of what it reads, none for no write (R188,
R189). -/
def State.stepFor (s : State) (g : Grp) (l va size : Nat) (scope : Scope) (step : List Byte → Option (List Byte)) (packet : Nat → Nat → Packet)
    (k : State → List Byte → State × LaneEnd) : State × LaneEnd :=
  if !g.part.isEmpty then k s g.part
  else
    match s.reach (s.whoFor g l 3 scope) va size size .rmw with
    | .ok ps pad =>
      let old := s.load ps pad
      let s1 := s.count ps
      k (match step old with
        | some bs => s1.store ps bs
        | none => s1) old
    | .remote n h => s.ask g l (packet n h) []
    | a => (s, a.ended)

/-- The packet of an atomic to another node (R332). -/
def State.atomPacket (s : State) (g : Grp) (l : Nat) (opc : BitVec 6) (wt : Ty) (scope : Scope) (ord : Ord) (aux : W64)
    (data : List Byte) (n h : Nat) : Packet :=
  let p := s.packet (s.who g.w l 3).world .atomic n h
  { p with opc := opc, wt := wt, scope := scope, ord := ord, aux := aux, data := data }

/-- `atom` and `red` in one lane. -/
def State.atomLane (s : State) (g : Grp) (f : MopForm) (k : State → Nat → List Byte → State × LaneEnd) (l : Nat) :
    State × LaneEnd :=
  s.stepFor g l (g.addr (f.off.toInt) l) f.wt.bytes f.scope (fun old => some (atomBytes f.opc.toNat f.wt (g.b l) old))
    (s.atomPacket g l f.opc f.wt f.scope f.ord 0 (toBytes (g.b l).toNat f.wt.bytes)) fun s old => k s l old

/-- The effect of `atom`. -/
def atomEffect (f : MopForm) (g : Grp) (s : State) : State :=
  s.eachLane g fun s l => s.atomLane g f (fun s l old => (s.give g l (ofBytes old), .done)) l

/-- `atom`: one atomic step in each lane, returning the old value. -/
def execAtom (f : MopForm) (s : State) : Out := issue (.atom f) s lawful (atomEffect f)

/-- `red`: the same step, returning nothing. -/
def execRed (f : MopForm) (s : State) : Out :=
  issue (.red f) s lawful fun g s => s.eachLane g fun s l => s.atomLane g f (fun s _ _ => (s, .done)) l

/-- A compare-and-exchange step on bytes of memory. -/
def casBytes (size : Nat) (b c : W128) (old : List Byte) : Option (List Byte) :=
  if old = toBytes b.toNat size then some (toBytes c.toNat size) else none

/-- The effect of `atomc`. -/
def atomcEffect (f : MForm) (g : Grp) (s : State) : State :=
  s.eachLane g fun s l =>
    let n := f.wt.bytes
    s.stepFor g l (g.addr f.off.toInt l) n f.scope (casBytes n (g.b l) (g.c l))
      (s.atomPacket g l 0 f.wt f.scope f.ord (lo64 (g.b l)) (toBytes (g.c l).toNat n ++ toBytes (g.b l).toNat n))
      fun s old => (s.give g l (ofBytes old), .done)

/-- `atomc`: compares and exchanges (R189). -/
def execAtomc (f : MForm) (s : State) : Out := issue (.atomc f) s lawful (atomcEffect f)

/-! ## `rstf` (R192) -/

/-- The physical address of a general-region address, where it has one. -/
def State.physOf (s : State) (who : Who) (va : Nat) : Option Nat :=
  (s.ctx? who.ctx).bind fun c =>
    if windowBase ≤ va then
      let e := c.tensor ((va - windowBase) / 2 ^ 40)
      some (tBase e (tSide e) + va % 2 ^ 40)
    else
      match s.walk who (va % 2 ^ 60) walkLevels (c.roots.getD (va / 2 ^ 60) 0) with
      | .leaf pa _ _ _ => some pa
      | _ => none

/-- The home of a physical address: its kind, its node, and the address there (R284). -/
def State.homeOf (s : State) (pa : Nat) : Nat × Nat × Nat :=
  let e := s.frameOf (pa / 65536)
  if s.isLocal pa ∨ e.hkind = 0 then (0, 0, pa) else (e.hkind.toNat, e.hid.toNat, e.hpage.toNat * 65536 + pa % 65536)

/-- Add one to a pennant word. -/
def bumpBytes (old : List Byte) : List Byte := toBytes ((ofBytes old + 1) % 2 ^ 64) 8

/-- Whether a check has passed, here or up to the home. -/
def Acc.passed : Acc → Bool
  | .ok _ _ | .remote _ _ => true
  | _ => false

/-- A lane of an `rstf` whose pennant's page waits, or whose packet does: the check on its data address has been passed too (R175, R192). -/
def LaneEnd.second : LaneEnd → LaneEnd
  | .wait wt post => .kept (some 0) none wt post
  | x => x

/-- `rstf` in one lane: both checks, the regions and the homes, then the data and the increment. Unless both pages are served here, one
RSTF packet goes to the home, which performs both at their points (R285, R341). A lane that waited for its data address alone makes all
the checks on the pennant's (R174, R192). -/
def State.rstfLane (s : State) (g : Grp) (f : MForm) (l : Nat) : State × LaneEnd :=
  let who := s.whoFor g l 1 .dev
  let whoG := { who with acc := 3, late := who.late && (g.replay.bind (·.slot)).isSome }
  let a := g.addr f.off.toInt l
  let p := (lo64 (g.c l)).toNat
  let data := toBytes (g.b l).toNat f.wt.bytes
  let home (va : Nat) : Nat × Nat × Nat := s.homeOf ((s.physOf who va).getD 0)
  let ra := s.reach who a f.wt.bytes f.wt.bytes .write
  let rg := s.reach whoG p 8 8 .rmw
  if !ra.passed then (s, ra.ended)
  else if !rg.passed then (s, rg.ended.second)
  else if 4 * 2 ^ 60 ≤ a ∨ 4 * 2 ^ 60 ≤ p then (s, .trap .protect)
  else if (home a).1 ≠ (home p).1 ∨ (home a).2.1 ≠ (home p).2.1 then (s, .trap .protect)
  else
    match ra, rg with
    | .ok pa _, .ok pg pad =>
      let s1 := (s.count (pa ++ pg)).store pa data
      (s1.store pg (bumpBytes (s1.load pg pad)), .done)
    | _, _ =>
      let pk := s.packet who.world .rstf (home a).2.1 (home a).2.2
      let r := s.ask g l { pk with wt := f.wt, scope := f.scope, ord := f.ord, data := data, aux := BitVec.ofNat 64 (home p).2.2 } []
      (r.1, r.2.second)

/-- `rstf`: stores one element, then increments a pennant word. -/
def execRstf (f : MForm) (s : State) : Out :=
  issue (.rstf f) s lawful fun g s => s.eachLane g fun s l => s.rstfLane g f l

/-! ## Exact accumulators (R99 to R101) -/

/-- V of an accumulator's bytes, two's complement. -/
def xaValue (bs : List Byte) : Int :=
  let v := ofBytes (bs.take 272)
  if v < 2 ^ 2175 then (v : Int) else (v : Int) - 2 ^ 2176

/-- The status word of an accumulator's bytes. -/
def xaStatus (bs : List Byte) : Nat := ofBytes ((bs.drop 272).take 8)

/-- The bytes with a new V, further status bits set, and the reserved bits as they are (R194). -/
def xaPut (bs : List Byte) (v : Int) (status : Nat) : List Byte :=
  toBytes (v % 2 ^ 2176).toNat 272 ++ toBytes (xaStatus bs ||| status) 8 ++ bs.drop 280

/-- `exadd` of an FP64 value (R100). -/
def xaAdd (x : Nat) (bs : List Byte) : List Byte :=
  match fdecode .f64 x with
  | .nan _ => xaPut bs (xaValue bs) 1
  | .inf n => xaPut bs (xaValue bs) (if n then 4 else 2)
  | .fin n m e =>
    let sum := xaValue bs + (if n then -1 else 1) * ((m * pow2 (e + 1088) : Nat) : Int)
    xaPut bs sum (if -(2 ^ 2175) ≤ sum ∧ sum < 2 ^ 2175 then 0 else 8)

/-- `exrnd` of an accumulator (R101). -/
def xaRound (rnd : Rnd) (bs : List Byte) : FRes :=
  let st := xaStatus bs
  if st.testBit 0 ∨ (st.testBit 1 ∧ st.testBit 2) then nanRes .f64 true
  else if st.testBit 1 then (infBits .f64 false, 0)
  else if st.testBit 2 then (infBits .f64 true, 0)
  else if st.testBit 3 then nanRes .f64 true
  else roundInt .f64 rnd false (xaValue bs) (-1088)

/-- The rounding code in OPC of `exrnd` (R172). -/
def xaRnd (opc : BitVec 6) : Rnd := (Rnd.ofCode (opc.extractLsb' 0 3)).getD .rne

/-- The checks of R194: the region comes between steps 1 and 2 of R174. The step is taken at the home stack, whatever its scope. -/
def State.xaReach (s : State) (g : Grp) (l va : Nat) (mode : Mode) : Acc :=
  let r := va / 2 ^ 60
  let who := { s.whoFor g l (if mode = .read then 0 else 3) .fabric with xa := true }
  if r = 5 ∨ r = 6 ∨ r = 7 then .trap .protect else s.reach who va 288 64 mode

/-- Where an accumulator at another node lies: its node, and its home address with, where it crosses a page, that of its second page, zero where
it does not. DESIGN CHOICE (log 78): R194 gives an accumulator one home stack; one whose pages have their homes at different nodes has none,
and traps XLATE. -/
def State.xaHome (s : State) (g : Grp) (l va : Nat) (mode : Mode) (n h : Nat) : Except LaneEnd (Nat × Nat) :=
  let who := { s.whoFor g l (if mode = .read then 0 else 3) .fabric with xa := true }
  let size := 65536 - va % 65536
  if 288 ≤ size then .ok (h, 0)
  else
    match s.reach who va size 64 mode, s.reach who (va + size) (288 - size) 64 mode with
    | .remote n1 h1, .remote n2 h2 => if n1 = n ∧ n2 = n then .ok (h1, h2) else .error (.trap .xlate)
    | .block wt post, _ => .error (.wait wt post)
    | _, .block wt post => .error (.wait wt post)
    | _, _ => .error (.trap .xlate)

/-- A step on an accumulator in one lane, at the home stack. -/
def State.xaLane (s : State) (g : Grp) (l va : Nat) (mode : Mode) (packet : Packet → Packet)
    (k : State → List Piece → List Byte → State) : State × LaneEnd :=
  match s.xaReach g l va mode with
  | .ok ps pad => (k (s.count ps) ps (s.load ps pad), .done)
  | .remote n h =>
    (match s.xaHome g l va mode n h with
     | .ok x => s.ask g l { packet (s.packet (s.who g.w l 3).world .xa n x.1) with aux := BitVec.ofNat 64 x.2 } []
     | .error e => (s, e))
  | a => (s, a.ended)

/-- `exadd`: adds an FP64 value to an accumulator (R195). -/
def execExadd (f : MForm) (s : State) : Out :=
  issue (.exadd f) s lawful fun g s =>
    s.eachLane g fun s l =>
      s.xaLane g l (g.addr f.off.toInt l) .rmw
        (fun p => { p with wt := .f64, scope := f.scope, ord := f.ord, data := toBytes (lo64 (g.b l)).toNat 8 })
        fun s ps bs => s.store ps (xaAdd (lo64 (g.b l)).toNat bs)

/-- `exclr`: resets an accumulator (R196). -/
def execExclr (f : MForm) (s : State) : Out :=
  issue (.exclr f) s lawful fun g s =>
    s.eachLane g fun s l =>
      s.xaLane g l (g.addr f.off.toInt l) .write (fun p => { p with wt := .b32, scope := f.scope, ord := f.ord })
        fun s ps _ => s.store ps (List.replicate 288 0)

/-- What `exrnd` gives a lane: the value, and the flags ORed into its wave. -/
def State.giveRounded (s : State) (g : Grp) (l : Nat) (r : FRes) : State :=
  (s.give g l r.1).modWave g.w fun wv => wv.orFlags r.2

/-- The effect of `exrnd`. The reply of another node holds the value and, in one more byte, the flags. -/
def exrndEffect (f : MopForm) (g : Grp) (s : State) : State :=
  s.eachLane g fun s l =>
    if g.part.isEmpty then
      s.xaLane g l (g.addr f.off.toInt l) .read (fun p => { p with wt := .f64, opc := f.opc, scope := f.scope, ord := f.ord })
        fun s _ bs => s.giveRounded g l (xaRound (xaRnd f.opc) bs)
    else (s.giveRounded g l (ofBytes (g.part.take 8), BitVec.ofNat 5 (ofBytes (g.part.drop 8))), .done)

/-- `exrnd`: rounds an accumulator to FP64 (R197). -/
def execExrnd (f : MopForm) (s : State) : Out := issue (.exrnd f) s lawful (exrndEffect f)

end Sys2Proof.Machine
end

