-- ==== Sys2Proof/Machine/Grid.lean ====
section
/-! DEFINITION. The fields of a launch record (R254) and the grid they form (R255, R258). -/

namespace Sys2Proof.Machine

/-! ## Fields -/

/-- `n` bits of the record from bit `lo` of the word at a byte offset. -/
def recBits (r : BitVec 2048) (off lo n : Nat) : Nat := bitsOf r.toNat (8 * off + lo) n

def recName (r : BitVec 2048) : W128 := r.extractLsb' 0 128
def recEntry (r : BitVec 2048) : Nat := recBits r 16 0 32
def recLtbase (r : BitVec 2048) : Nat := recBits r 16 32 16
def recPrio (r : BitVec 2048) : Nat := recBits r 24 0 3
def recCor (r : BitVec 2048) : Bool := recBits r 24 3 1 == 1
def recWorld (r : BitVec 2048) : Nat := recBits r 24 4 6
def recNdep (r : BitVec 2048) : Nat := recBits r 24 12 3
def recCscope (r : BitVec 2048) : Nat := recBits r 24 16 3
def recCtx (r : BitVec 2048) : Nat := recBits r 24 32 32
def recCount (r : BitVec 2048) (level : Nat) : Nat := recBits r (32 + 4 * (level - 1)) 0 24
def recDom (r : BitVec 2048) (level : Nat) : Nat := recBits r (32 + 4 * (level - 1)) 29 3
def recGrid (r : BitVec 2048) : Nat := recBits r 60 0 32
def recPkg0 (r : BitVec 2048) : Nat := recBits r 64 0 12
def recPkgn (r : BitVec 2048) : Nat := recBits r 64 12 13
def recDaddr (r : BitVec 2048) (i : Nat) : Nat := recBits r (72 + 16 * i) 0 64
def recDthr (r : BitVec 2048) (i : Nat) : Nat := recBits r (80 + 16 * i) 0 64
def recCaddr (r : BitVec 2048) : Nat := recBits r 136 0 64

/-! ## Levels -/

/-- Whether the launch declares a level: 0 and 1 always, 2 to 7 by their domain. -/
def recDeclared (r : BitVec 2048) (level : Nat) : Bool := decide (level < 2) || (decide (level < 8) && recDom r level != 0)

/-- The declared levels as LEVELS holds them. -/
def recLevels (r : BitVec 2048) : BitVec 8 :=
  BitVec.ofNat 8 (((List.range 8).map fun l => if recDeclared r l then 2 ^ l else 0).foldl (· + ·) 0)

/-- The team level (R255): the lowest declared level above 1, or 1 where each wave is a team. -/
def recTeamLevel (r : BitVec 2048) : Nat := (([2, 3, 4, 5, 6, 7] : List Nat).find? (recDeclared r)).getD 1

/-- Waves of a team. -/
def recWaves (r : BitVec 2048) : Nat := if recTeamLevel r = 1 then 1 else recCount r (recTeamLevel r)

/-- The declared levels above the team level, in rising order. -/
def recUpper (r : BitVec 2048) : List Nat :=
  ([2, 3, 4, 5, 6, 7] : List Nat).filter fun l => recDeclared r l && decide (recTeamLevel r < l)

/-- The product of a list of counts. -/
def product (l : List Nat) : Nat := l.foldl (· * ·) 1

/-- Teams in one unit of a level. -/
def unitTeams (r : BitVec 2048) (level : Nat) : Nat := product (((recUpper r).filter (· ≤ level)).map (recCount r))

/-- Teams of the grid. -/
def recTeams (r : BitVec 2048) : Nat := recGrid r * product ((recUpper r).map (recCount r))

/-- Units of a level in a launch (R252). -/
def unitCount (r : BitVec 2048) (level : Nat) : Nat := (recTeams r + unitTeams r level - 1) / unitTeams r level

/-- The unit of a level that holds a team, counted over the grid. -/
def unitIndex (r : BitVec 2048) (level team : Nat) : Nat := team / unitTeams r level

/-- The declared level next above a level. -/
def nextLevel (r : BitVec 2048) (level : Nat) : Option Nat := (recUpper r).find? fun l => decide (level < l)

/-- A team's `%idxL` at its level and above (R255). -/
def teamIdx (r : BitVec 2048) (level team : Nat) : Nat :=
  match nextLevel r level with
  | some n => unitIndex r level team % recCount r n
  | none => unitIndex r level team

/-- `%idx0` to `%idx7` of a thread. -/
def threadIdx (r : BitVec 2048) (team wave lane : Nat) : List W32 :=
  (List.range 8).map fun l =>
    BitVec.ofNat 32 (
      if l = 0 then lane
      else if l = 1 then (if recTeamLevel r = 1 then teamIdx r 1 team else wave)
      else if recDeclared r l then teamIdx r l team
      else 0)

/-- The highest declared level whose domain is below the fabric (R258). -/
def shareLevel (r : BitVec 2048) : Nat :=
  ((recUpper r).filter fun l => recDom r l != 5).foldl max (recTeamLevel r)

/-- The package, counted from PKG0, whose share holds a team (R258). -/
def shareOf (r : BitVec 2048) (team : Nat) : Nat :=
  if (recUpper r).any fun l => recDom r l == 5 then
    unitIndex r (shareLevel r) team * recPkgn r / (recTeams r / unitTeams r (shareLevel r))
  else 0

/-- The scope of a level's barrier (R10). -/
def levelScope (r : BitVec 2048) (level : Nat) : Scope :=
  if level = 1 then .wave
  else match recDom r level with
    | 1 => .team | 2 => .cluster | 3 => .die | 4 => .dev | _ => .fabric

end Sys2Proof.Machine
end

