-- ==== Sys2Proof/Machine/Barriers.lean ====
section
/-! DEFINITION. Level barriers (R221, R222), the arrival words of levels bound to the fabric (R348), and the phases'
completion. -/

namespace Sys2Proof.Machine

/-! ## Units -/

/-- The launch of a team. -/
def State.launchOf (s : State) (t : Nat) : Option Launch := s.launches[(s.team t).launch]?

/-- The unit of a level that holds a wave. -/
def State.unitOf (s : State) (w level : Nat) : Nat :=
  let tm := s.team (s.wave w).team
  match s.launchOf (s.wave w).team with
  | none => 0
  | some l =>
    if level = 1 then tm.index * recWaves l.record + (tm.waves.idxOf? w).getD 0 else unitIndex l.record level tm.index

/-- Whether a barrier is the one of a wave at a level. -/
def State.barrierIs (s : State) (b : Barrier) (w level : Nat) : Bool :=
  b.launch == (s.team (s.wave w).team).launch && b.level == level && b.unit == s.unitOf w level

/-- The barrier of a wave at a level, opened where it is named for the first time. -/
def State.barrierFor (s : State) (w level : Nat) : State × Nat :=
  match s.barriers.findIdx? fun b => s.barrierIs b w level with
  | some i => (s, i)
  | none =>
    let b : Barrier :=
      { launch := (s.team (s.wave w).team).launch, level := level, unit := s.unitOf w level, phase := 0, arrived := []
        balance := 0, word := 0, gone := [] }
    ({ s with barriers := s.barriers ++ [b] }, s.barriers.length)

/-- A barrier that does not exist. -/
def Barrier.blank : Barrier := { launch := 0, level := 0, unit := 0, phase := 0, arrived := [], balance := 0, word := 0, gone := [] }

def State.barrier (s : State) (i : Nat) : Barrier := s.barriers.getD i Barrier.blank

def State.modBarrier (s : State) (i : Nat) (f : Barrier → Barrier) : State := { s with barriers := modifyAt s.barriers i f }

/-! ## Arrival words (R348) -/

/-- Whether a level of a launch is bound to the fabric. -/
def Launch.fabricLevel (l : Launch) (level : Nat) : Bool := decide (2 ≤ level) && recDom l.record level == 5

/-- The arrival word of a unit: the words of the fabric levels follow one another, each level's by unit. -/
def Launch.wordAt (l : Launch) (level unit : Nat) : Nat :=
  let before := ((recUpper l.record).filter fun k => decide (k < level) && l.fabricLevel k).map (unitCount l.record)
  l.arrivalBase + 8 * (before.foldl (· + ·) 0 + unit)

/-- A request of the service kernel to the home of an arrival word, which lies in world 0's grant there (R353). -/
def State.wordPacket (s : State) (l : Launch) (b : Barrier) (t : PacketType) (ord : Ord) (data : List Byte) : Packet :=
  { s.packet 0 t (recPkg0 l.record) (l.wordAt b.level b.unit) with opc := 1, wt := .u64, scope := .fabric, ord := ord, data := data }

/-- Whether an arrival at a barrier has to wait for a tag of the service kernel, since its word is on another package (R335, R348). -/
def State.wordFull (s : State) (bar : Nat) : Bool :=
  (s.launches[(s.barrier bar).launch]?).any fun l =>
    l.fabricLevel (s.barrier bar).level && recPkg0 l.record != s.fabric.node && (s.freeTag kernelTile).isNone

/-- Raise a unit's arrival word by `n`, for a lane of a wave: at home where this package is PKG0, by an atomic request otherwise, whose tag
comes back. -/
def State.raiseWord (s : State) (bar n w lane : Nat) : State × Option Nat :=
  let b := s.barrier bar
  match s.launches[b.launch]? with
  | none => (s, none)
  | some l =>
    let a := l.wordAt b.level b.unit
    if !l.fabricLevel b.level || n == 0 then (s, none)
    else if recPkg0 l.record = s.fabric.node then (s.store [(a, 8)] (toBytes ((Memory.read s.mem a 8 + n) % 2 ^ 64) 8), none)
    else
      let p := s.wordPacket l b .atomic .rel (toBytes n 8)
      match s.requestFor kernelTile w lane [] (.arrival bar false) p with
      | some (s', t) => (s', some t)
      | none => (s.request p, none)

/-! ## Arrival -/

/-- A lane arrives in the open phase (R222). Where the arrival goes to another package, the lane makes no later access before the reply
(R243, R335). -/
def State.arrive (s : State) (bar w l : Nat) : State :=
  let b := s.barrier bar
  let r := s.raiseWord bar 1 w l
  (r.1.modBarrier bar fun b => { b with arrived := b.arrived ++ [(w, l)] }).modThread w l fun t =>
    { t with arrivals := Sparse.set 0 t.arrivals b.level (b.phase + 1)
             wait := match r.2 with
               | some t => .remote t
               | none => t.wait }

/-- Whether a lane has arrived in the open phase. -/
def Barrier.has (b : Barrier) (w l : Nat) : Bool := b.arrived.contains (w, l)

/-- The teams of a barrier's unit on this package. -/
def State.unitMembers (s : State) (b : Barrier) : List Team :=
  match s.launches[b.launch]? with
  | none => []
  | some l =>
    ((l.teams ++ l.guests).map s.team).filter fun t =>
      if b.level = 1 then t.index == b.unit / recWaves l.record else unitIndex l.record b.level t.index == b.unit

/-- The waves of a barrier's unit on this package. -/
def State.unitWaves (s : State) (b : Barrier) : List Nat :=
  (s.unitMembers b).flatMap fun t => t.waves.filter fun w => s.barrierIs b w b.level

/-- Threads of the unit on this package that have exited and have not arrived in the open phase. -/
def State.exitedIn (s : State) (b : Barrier) : Nat :=
  ((s.unitWaves b).map fun w =>
    (((s.wave w).threads.mapIdx fun l t => (l, t)).filter fun e => e.2.status == .exited && !b.has w e.1).length).foldl (· + ·) 0

/-- Threads of a unit, counted over every package. -/
def unitThreads (r : BitVec 2048) (level : Nat) : Nat := unitTeams r level * recWaves r * recCount r 1

/-- Whether every participant on this package has arrived or exited, every team of the unit has been placed and is not
frozen, and the balance is zero (R221, R303). -/
def State.phaseHere (s : State) (b : Barrier) : Bool :=
  b.balance == 0 &&
  ((s.unitMembers b).all fun t => t.state != .waiting && t.state != .frozen) &&
  ((s.unitWaves b).all fun w =>
    ((s.wave w).threads.mapIdx fun l t => (l, t)).all fun e => e.2.status != .live || b.has w e.1)

/-- Whether the open phase completes: a level bound to the fabric by its word, which its PKG0 holds and the other packages read there
(R348). -/
def State.phaseReady (s : State) (bar : Nat) : Bool :=
  let b := s.barrier bar
  s.phaseHere b &&
  match s.launches[b.launch]? with
  | none => false
  | some l =>
    let word := if recPkg0 l.record = s.fabric.node then Memory.read s.mem (l.wordAt b.level b.unit) 8 + s.exitedIn b else b.word
    !l.fabricLevel b.level || decide (unitThreads l.record b.level * (b.phase + 1) ≤ word)

/-- Threads of other packages that have exited and count in the phases up to one (R348). -/
def Barrier.goneBy (b : Barrier) (phase : Nat) : Nat := ((b.gone.filter fun e => decide (e.1 ≤ phase)).map (·.2)).foldl (· + ·) 0

/-- Whether a thread of another package has arrived in the open phase of a level bound to the fabric, whose word this package holds: it is
completed here even where no thread of this package takes part any more (R348). -/
def State.cameFrom (s : State) (b : Barrier) : Bool :=
  (s.launches[b.launch]?).any fun l => l.fabricLevel b.level && recPkg0 l.record == s.fabric.node &&
    decide (unitThreads l.record b.level * b.phase + b.goneBy (b.phase + 1) < Memory.read s.mem (l.wordAt b.level b.unit) 8)

/-- Whether the arrival word of a phase that waits only for other packages is to be read, at PKG0 (R348). -/
def State.pollDue (s : State) (bar : Nat) : Bool :=
  let b := s.barrier bar
  s.phaseHere b && !s.phaseReady bar && !(s.fabric.reqs.any fun r => r.use == .arrival bar true) &&
  (s.launches[b.launch]?).any fun l => l.fabricLevel b.level && recPkg0 l.record != s.fabric.node &&
    (s.unitWaves b).any fun w => (s.wave w).threads.any fun t => match t.wait with
      | .bar i _ => i == bar
      | _ => false

/-- Read the arrival word of a phase at PKG0. -/
def State.pollWord (s : State) (bar : Nat) : State :=
  match s.launches[(s.barrier bar).launch]? with
  | none => s
  | some l => ((s.requestFor kernelTile 0 0 [] (.arrival bar true) (s.wordPacket l (s.barrier bar) .read .acq [])).map (·.1)).getD s

/-- A lane leaves its wait: it has finished the instruction it waited at. -/
def Wave.complete (wv : Wave) (lanes : List Nat) : Wave :=
  (wv.modLanes lanes fun _ t => { t with wait := .none, redo := t.redo.tail }).unhold lanes

/-- Lanes that wait at a phase, in a wave: those that have arrived (`stay`), or those that still have to. -/
def Wave.atPhase (wv : Wave) (bar phase : Nat) (stay : Bool) : List Nat :=
  (List.range wv.threads.length).filter fun l =>
    (wv.thread l).wait == .bar bar phase && ((wv.thread l).redo.head?.any fun r => r.waitOnly) == stay

/-- The lanes of a phase that has completed: those that have arrived leave, the others go on to arrive (R222). -/
def Wave.release (wv : Wave) (level bar phase : Nat) : Wave :=
  let out := wv.atPhase bar phase true
  let next := wv.atPhase bar phase false
  let wv1 := (wv.complete out).modLanes out fun _ t => { t with arrivals := Sparse.set 0 t.arrivals level 0 }
  wv1.modLanes next fun _ t => { t with wait := .none }

/-- BARRIER_PHASE_COMPLETE: the phase completes, its waiters leave, and the next one opens with no arrivals and a zero balance
(R221). At PKG0 the exits of this package's threads enter the word, with those of the other packages' threads that count in the next phase;
elsewhere a phase that waits for other packages reads the word again (R348). -/
def execBarrierPhaseComplete (bar : Nat) (s : State) : Out :=
  let b := s.barrier bar
  if !s.phaseReady bar then .next (if s.pollDue bar then s.pollWord bar else s)
  else
    let n := s.exitedIn b
    let home := (s.launches[b.launch]?).any fun l => recPkg0 l.record == s.fabric.node
    let s1 := if home then (s.raiseWord bar (n + b.goneBy (b.phase + 1)) 0 0).1 else s
    let s2 := s1.modBarrier bar fun b => { b with phase := b.phase + 1, arrived := [], balance := 0 }
    .next { s2 with waves := s2.waves.map fun wv => wv.release b.level bar b.phase }

/-- Tell PKG0 of threads that exit: how many still count as arrivals of the open phase, how many there are, and the phase (R348, log 21). -/
def State.sendExits (s : State) (l : Launch) (b : Barrier) (now count : Nat) : State :=
  s.request { s.wordPacket l b .atomic .rel (toBytes now 8) with aux := BitVec.ofNat 64 (count + b.phase * 2 ^ 32) }

/-- Threads that exit count as arrived (R221): the words of other packages learn of them (R348). -/
def State.exitWords (s : State) (w : Nat) (lanes : List Nat) : State :=
  match s.launchOf (s.wave w).team with
  | none => s
  | some l =>
    (recUpper l.record).foldl (fun s level =>
      if l.fabricLevel level then
        let r := s.barrierFor w level
        let b := r.1.barrier r.2
        if recPkg0 l.record = s.fabric.node then r.1
        else r.1.sendExits l b (lanes.filter fun x => !b.has w x).length lanes.length
      else s) s

/-- The barrier of a level bound to the fabric whose arrival word stands at an address of this package: the launch, the level, the unit. -/
def State.wordOwner (s : State) (a : Nat) : Option (Nat × Nat × Nat) :=
  (List.range s.launches.length).findSome? fun i =>
    (s.launches[i]?).bind fun l =>
      if recPkg0 l.record != s.fabric.node || l.arrivalBase == 0 then none
      else
        ((recUpper l.record).find? fun k => l.fabricLevel k && decide (l.wordAt k 0 ≤ a) &&
          decide (a < l.wordAt k (unitCount l.record k))).map fun k =>
            (i, k, (a - l.wordAt k 0) / 8)

/-- What the home of an arrival word makes of another package's report of exits: they count in the phases that have opened here since the
reporter's, and in every later one (R221, R348). -/
def State.wordExits (s : State) (p : Packet) : State :=
  if p.typ ≠ .atomic ∨ p.aux = 0 ∨ p.world ≠ 0 then s
  else
    match s.wordOwner p.addr.toNat with
    | none => s
    | some (i, level, unit) =>
      let found := s.barriers.findIdx? fun b => b.launch == i && b.level == level && b.unit == unit
      let s1 : State := if found.isSome then s
        else { s with barriers := s.barriers ++ [{ Barrier.blank with launch := i, level := level, unit := unit }] }
      let bar := found.getD s.barriers.length
      let count := p.aux.toNat % 2 ^ 32
      let phase := p.aux.toNat / 2 ^ 32
      let s2 := (s1.raiseWord bar (count * ((s1.barrier bar).phase - phase)) 0 0).1
      s2.modBarrier bar fun b => { b with gone := b.gone ++ [(phase + 1, count)] }

end Sys2Proof.Machine
end

