-- ==== Sys2Proof/Machine/Teams.lean ====
section
/-! DEFINITION. The end of lanes, waves and teams (R150, R204, R259). -/

namespace Sys2Proof.Machine

/-- A thread that has ended: its records, return records and frames are gone (R150). The payloads of its wave stay (R316). -/
def Thread.ended (t : Thread) : Thread :=
  { t with status := if t.status = .live then .exited else t.status, places := [], rets := [], frames := []
           areas := t.areas.filter fun a => a.use == .store, wait := .none, redo := [], hold := [], arrivals := [] }

/-- Lanes leave every trap entry (R37, R150). -/
def Wave.leaveTraps (wv : Wave) (lanes : List Nat) : Wave :=
  let q := wv.trapq.map fun e =>
    { e with lanes := e.lanes.filter fun x => !lanes.contains x.lane
             owed := e.owed.filter fun o => !lanes.contains o.1 }
  { wv with trapq := q.filter fun e => if e.delivered then !e.owed.isEmpty else !e.lanes.isEmpty }

/-- Lanes of a wave exit (R150). -/
def Wave.exitLanes (wv : Wave) (lanes : List Nat) : Wave :=
  ((wv.modLanes lanes fun _ t => t.ended).leaveTraps lanes).unhold lanes

/-- Whether every thread of a wave has exited or is not resident. -/
def Wave.done (wv : Wave) : Bool := wv.threads.all fun t => t.status != .live

/-- Lanes whose threads run. -/
def Wave.liveLanes (wv : Wave) : List Nat := (List.range wv.threads.length).filter fun l => (wv.thread l).status == .live

/-- The context number of a launch (R254). -/
def Launch.ctx (l : Launch) : Nat := recCtx l.record

/-- The world of a launch. -/
def Launch.world (l : Launch) : Nat := recWorld l.record

/-- A completion in the payload of the MANAGER packet that carries it to the accepting instance: its code, the dependence, and the code
and place of an error (log 21). -/
def Completion.bytes : Completion → List Byte
  | .ok => toBytes 0 4
  | .unreachable d => toBytes 2 4 ++ toBytes (d.getD 0xFF) 4
  | .denied d => toBytes 3 4 ++ toBytes (d.getD 0xFF) 4
  | .poisoned d => toBytes 4 4 ++ toBytes (d.getD 0xFF) 4
  | .cancelled => toBytes 5 4
  | .error (.trap k pc) => toBytes 1 4 ++ toBytes k.code.toNat 4 ++ toBytes pc.toNat 8
  | .error (.unhandled n) => toBytes 6 4 ++ toBytes n.toNat 4
  | .error (.halt pc) => toBytes 7 4 ++ toBytes 0 4 ++ toBytes pc.toNat 8
  | .error .quiesced => toBytes 8 4
  | .error .reset => toBytes 9 4
  | .error .contextEnd => toBytes 10 4

def readCompletion (bs : List Byte) : Completion :=
  let a := ofBytes ((bs.drop 4).take 4)
  let pc : W64 := BitVec.ofNat 64 (ofBytes ((bs.drop 8).take 8))
  let dep : Option Nat := if a = 0xFF then none else some a
  match ofBytes (bs.take 4) with
  | 0 => .ok
  | 1 => .error (((TrapKind.ofCode (BitVec.ofNat 32 a)).map fun k => EndReason.trap k pc).getD .contextEnd)
  | 2 => .unreachable dep
  | 3 => .denied dep
  | 4 => .poisoned dep
  | 5 => .cancelled
  | 6 => .error (.unhandled (BitVec.ofNat 32 a))
  | 7 => .error (.halt pc)
  | 8 => .error .quiesced
  | 9 => .error .reset
  | _ => .error .contextEnd

/-- How a team that a package has taken over ended, in the payload of the MANAGER packet that tells the package whose share it belongs
to: the team, the accepting package, the end (log 21). -/
def guestBytes (index origin : Nat) (r : Option EndReason) : List Byte :=
  toBytes index 4 ++ toBytes origin 2 ++ (match r with
    | none => Completion.ok
    | some e => Completion.error e).bytes

/-- A team of another package's share has ended here: that package is told, and the launch holds it no longer (R259, R265). -/
def State.guestEnd (s : State) (t : Nat) (n : Nat) (r : Option EndReason) : State :=
  let tm := s.team t
  match s.launchOf t with
  | none => s
  | some l =>
    let p := { s.packet 0 .manager n l.handle with opc := 5, data := guestBytes tm.index (l.origin.getD s.fabric.node) r }
    (s.request p).modLaunch tm.launch fun x => { x with guests := x.guests.filter (· != t) }

/-- A team ends (R150, R259): its waves leave the tile, its scratch number translates to nothing, and an end that is an error is
the launch's first where none came before. A team that another package's share holds is reported there. -/
def State.endTeam (s : State) (t : Nat) (reason : Option EndReason) : State :=
  let tm := s.team t
  if tm.state = .ended then s
  else
    let mine (w : Nat) : Bool := tm.waves.contains w
    let s0 := tm.waves.foldl (fun s w => s.exitWords w (s.wave w).liveLanes) s
    let waves := s0.waves.mapIdx fun w wv =>
      if mine w then
        { wv with threads := wv.threads.map Thread.ended, trapq := [], held := none, pending := [], resident := false
                  active := false }
      else wv
    let s1 : State :=
      { s0 with waves := waves, slots := s0.slots.filter fun sl => !mine sl.wave
                deliveries := s0.deliveries.filter fun d => !mine d.wave
                tiles := s0.tiles.map fun x => { x with cmds := x.cmds.filter fun c => !mine c.wave }
                dies := s0.dies.map fun d => { d with woken := d.woken.filter (· != t) } }
    let s2 := s1.modTeam t fun x => { x with state := .ended, placed := false, outcome := reason }
    let s3 := match s2.launchOf t with
      | some l =>
        if l.header.scratch = 0 then s2
        else s2.modCtx l.ctx fun c => { c with scratch := Sparse.set 0 c.scratch (s.scratchNo tm) 0 }
      | none => s2
    match tm.origin, reason with
    | some n, r => s3.guestEnd t n r
    | none, none => s3
    | none, some r => s3.modLaunch tm.launch fun l => { l with firstError := l.firstError.orElse fun _ => some r }

/-- The decimal digits of a number. -/
def decimal (n : Nat) : List Byte := (Nat.toDigits 10 n).map fun c => BitVec.ofNat 8 c.toNat

/-- Why a team ended, in words. -/
def endText : EndReason → List Byte
  | .trap k pc => text "trap " ++ decimal k.code.toNat ++ text " at " ++ decimal pc.toNat
  | .unhandled n => text "unhandled effect " ++ decimal n.toNat
  | .halt pc => text "halt at " ++ decimal pc.toNat
  | .quiesced => text "quiesced"
  | .reset => text "reset"
  | .contextEnd => text "context destroyed"

/-- The report of a team's end on a console (R170, R364). DESIGN CHOICE (log 89): a line that names the launch, the team and the reason. -/
def endLine (handle index : Nat) (r : EndReason) : List Byte :=
  text "launch " ++ decimal handle ++ text " team " ++ decimal index ++ text ": " ++ endText r ++ [10]

/-- The service kernel ends a team and reports it on its world's console and in the device log. -/
def State.reportEnd (s : State) (team : Nat) (reason : EndReason) : State :=
  let tm := s.team team
  if tm.state = .ended then s
  else
    let s1 := s.endTeam team (some reason)
    let s2 : State := { s1 with pkg := { s1.pkg with log := s1.pkg.log ++ [.teamEnd tm.launch tm.index reason] } }
    match s.launchOf team with
    | some l => s2.modWorld l.world fun w => { w with console := w.console ++ endLine l.handle tm.index reason }
    | none => s2

/-- A wave all of whose threads have exited ends and frees its slots; with the last wave the team ends (R150, R259). -/
def State.reap (s : State) (w : Nat) : State :=
  if !(s.wave w).done then s
  else
    let s1 := s.modWave w fun wv =>
      { wv with resident := false, active := false, held := none, pending := [], trapq := [] }
    let t := (s.wave w).team
    if (s1.team t).waves.all fun x => (s1.wave x).done then s1.endTeam t none else s1

end Sys2Proof.Machine
end

