-- ==== Sys2Proof/Machine/Control.lean ====
section
/-! DEFINITION. Control flow, divergence, effects and resumption (R141 to R163, R168), and the delivery of trap entries and the
release of joins (R37, R147, R164, R165). -/

namespace Sys2Proof.Machine

/-! ## Transfers (R144 to R146) -/

/-- What a transfer did to each lane: where it went, or its trap; waiting lanes appear in neither. -/
structure Moved where
  st : State
  went : List (Nat × W64)
  traps : List (Nat × TrapKind)

/-- A lane whose transfer meets unbound code stays before its instruction: the first raises BIND, the others wait for the record to
leave BINDING (R146). -/
def State.bindFor (s : State) (g : Grp) (l : Nat) (e : Entry) : State :=
  match e with
  | .unbound obj => (s.block g l .none).raiseBind g.w obj g.pc [l]
  | .binding obj => s.block g l (.binding g.src.ctx obj)
  | _ => s

/-- One lane transfers to `t` (R47, R48, R146). -/
def moveLane (g : Grp) (m : Moved) (l : Nat) (t : W64) : Moved :=
  match m.st.entryCheck g.src.ctx t with
  | .ok => { m with went := m.went ++ [(l, t)] }
  | .clear => { m with traps := m.traps ++ [(l, .target)] }
  | .gap => { m with traps := m.traps ++ [(l, .stray)] }
  | e => { m with st := m.st.bindFor g l e }

/-- The executing lanes transfer to their targets; `link` names the register that takes the next slot's PC. -/
def State.transfer (s : State) (g : Grp) (target : Nat → W64) (link : Bool) : State :=
  let m := g.lanes.foldl (fun m l => moveLane g m l (target l)) ⟨s, [], []⟩
  let ok := m.went.map (·.1)
  let s1 := if link then m.st.writeD g ok (fun _ => ext64 (nextPc g.pc)) fun _ => .uniform else m.st
  let s2 := s1.modLanes g.w ok fun l t => { t with pc := ((m.went.find? fun e => e.1 == l).map (·.2)).getD t.pc }
  s2.raise g m.traps

/-- `bra`: to a PC-relative target. -/
def execBra (f : JForm) (s : State) : Out :=
  issue (.bra f) s lawful fun g s => s.transfer g (fun _ => relPc g.pc f.disp) false

/-- `call`: as `bra`, with the link. -/
def execCall (f : JForm) (s : State) : Out :=
  issue (.call f) s lawful fun g s => s.transfer g (fun _ => relPc g.pc f.disp) true

/-- `brx`: to the address each lane holds. -/
def execBrx (f : VForm) (s : State) : Out := issue (.brx f) s lawful fun g s => s.transfer g (fun l => lo64 (g.a l)) false

/-- `callx`: as `brx`, with the link. -/
def execCallx (f : VForm) (s : State) : Out :=
  issue (.callx f) s lawful fun g s => s.transfer g (fun l => lo64 (g.a l)) true

/-- `ret`: exactly as `brx` (R145). -/
def execRet (f : VForm) (s : State) : Out := issue (.ret f) s lawful fun g s => s.transfer g (fun l => lo64 (g.a l)) false

/-! ## Meeting, yielding, ending (R147 to R150) -/

/-- `join`: each executing lane waits for the threads of its mask; the type must match the declared width. -/
def execJoin (f : VForm) (s : State) : Out :=
  issue (.join f) s (fun g => f.ty != widthTy g.src.width) fun g s =>
    s.modLanes g.w g.lanes fun l t => { t with wait := .join (g.a l) g.pc }

/-- Whether a lane waiting at a `join` may leave: every thread of its mask waits at the same `join`, has exited, or is the lane
itself; a lane that is not resident counts as exited (R251). -/
def Wave.mayLeave (wv : Wave) (l : Nat) : Bool :=
  match (wv.thread l).wait with
  | .join m pc =>
    (List.range wv.width.lanes).all fun i =>
      !m.getLsbD i || i == l || (wv.thread i).status != .live ||
        (match (wv.thread i).wait with
         | .join _ pc' => pc' == pc
         | _ => false)
  | _ => false

/-- JOIN_RELEASE: the lanes that may leave their `join` leave together. -/
def execJoinRelease (wave : Nat) (s : State) : Out :=
  let wv := s.wave wave
  let out := (List.range wv.width.lanes).filter wv.mayLeave
  .next (s.modLanes wave out fun _ t => { t with wait := .none })

/-- The issue history of a group of a wave. -/
def Wave.hist (wv : Wave) (pc : W64) : GroupHist :=
  (wv.groups.find? fun h => h.pc == pc).getD { pc := pc, count := 0, promoted := false, since := 0 }

/-- Replace the issue history of a group. -/
def Wave.setHist (wv : Wave) (h : GroupHist) : Wave :=
  { wv with groups := (wv.groups.filter fun x => x.pc != h.pc) ++ [h] }

/-- `yield`: the group is passed over for 32 of its wave's issue cycles (R149). DESIGN CHOICE (log 64): the count goes with the
group's threads, so that a group they join later is passed over only where each of its threads has cycles left. -/
def execYield (f : VForm) (s : State) : Out :=
  issue (.yield f) s lawful fun g s =>
    if g.lanes.isEmpty then s else s.modLanes g.w g.all fun _ t => { t with passed := 32 }

/-- GROUP_PROMOTION: a group that has gone 64 issue cycles without issuing is promoted (R268). -/
def execGroupPromotion (wave : Nat) (pc : W64) (s : State) : Out :=
  let h := (s.wave wave).hist pc
  .next (if 64 ≤ h.count then
      s.modWave wave fun wv => wv.setHist { h with promoted := true, since := (s.tile wv.tile).cycle.toNat }
    else s)

/-- Lanes of a wave exit, which counts as their arrival (R150, R221). -/
def State.exitLanes (s : State) (w : Nat) (lanes : List Nat) : State :=
  (s.exitWords w lanes).modWave w fun wv => wv.exitLanes lanes

/-- `exit`: the executing lanes end. The exit of a wave's last lane waits for its accepted commands, and takes the failure of
one; a held command is discarded (R150, R204, R213). -/
def execExit (f : VForm) (s : State) : Out :=
  issue (.exit f) s lawful fun g s =>
    let last := ((s.wave g.w).threads.mapIdx fun l t => (l, t)).all fun e => e.2.status != .live || g.lanes.contains e.1
    match s.failedCmd g.w fun _ => true with
    | some c => if last then s.failAt g c g.lanes (fun _ => false) else (s.exitLanes g.w g.lanes).reap g.w
    | none =>
      if last && (s.waveCmds g.w).any (fun c => c.state == .accepted || c.state == .issued) then
        g.lanes.foldl (fun s l => s.block g l (.cwait none)) s
      else (s.exitLanes g.w g.lanes).reap g.w

/-! ## The handler stack (R152 to R154) -/

/-- `hpush`: one frame onto each executing lane's stack; a spill that finds no backing store stops the lane (R152, R317). -/
def execHpush (f : HpushForm) (s : State) : Out :=
  issue (.hpush f) s lawful fun g s =>
    let t := relPc g.pc f.disp
    if t.toNat / 2 ^ 60 ≠ 5 then s.raiseAll g .target g.lanes
    else
      g.lanes.foldl (fun s l =>
        match s.push g.w l t (g.src.sreg f.mreg.toNat) f.mtch with
        | some s' => s'
        | none => let r := s.postPrivate g.w l; r.1.block g l r.2) s

/-- What `hpop` does in a lane: the frame identity, and whether a frame is popped; none at frame 0 (R154). -/
def hpopFid (f : VForm) (t : Thread) (a : W128) : Option (W32 × Bool) :=
  if f.ty = .b128 then some (word32 a 2, false) else t.frames.head?.map fun x => (x.fid, true)

/-- `hpop`: ends a handled block, returning to the newest return record with the frame's identity where there is one. -/
def execHpop (f : VForm) (s : State) : Out :=
  issue (.hpop f) s lawful fun g s =>
    let ret (l : Nat) : Option RetRec :=
      (hpopFid f (s.thread g.w l) (g.a l)).bind fun x => (s.thread g.w l).rets.find? fun r => r.fid == x.1
    let entry (l : Nat) : Entry := ((ret l).map fun r => s.entryCheck g.src.ctx r.pc).getD .ok
    let trapOf (l : Nat) : Option TrapKind :=
      if (hpopFid f (s.thread g.w l) (g.a l)).isNone then some .protect
      else if entry l = .clear ∨ entry l = .gap then some .target
      else none
    let bad := g.lanes.filterMap fun l => (trapOf l).map fun k => (l, k)
    let ok := g.lanes.filter fun l => (trapOf l).isNone && !(entry l).binds
    let back := ok.filterMap fun l => (ret l).map fun r => (l, r)
    let s1 := s.modLanes g.w ok fun l t =>
      let t' := if f.ty = .b128 then t else { t with frames := t.frames.tail }
      match ret l with
      | none => t'.trim
      | some r => ({ t' with rets := (t'.rets.dropWhile fun x => x.fid != r.fid).tail, pc := r.pc } : Thread).trim
    let recs := back.map fun e =>
      (e.1, ({ pc := e.2.pc, serial := 0, gen := 0, preds := e.2.preds, frames := [], regs := e.2.regs, redo := [] } : Record))
    let s2 := s1.modWave g.w fun wv =>
      let wv1 := wv.restoreRegs recs
      (distinct (back.map fun e => e.2.dreg)).foldl (fun wv d =>
        wv.put ⟨.d, BitVec.ofNat 10 d⟩ ((back.filter fun e => e.2.dreg == d).map (·.1)) (fun l => ext64 (lo64 (g.a l))) g.tag) wv1
    (g.lanes.foldl (fun s l =>
      if (trapOf l).isNone then s.bindFor g l (((ret l).map fun r => s.entryCheck g.src.ctx r.pc).getD .ok) else s) s2).raise g bad

/-! ## Performing an effect (R155) -/

/-- The token KIND a name gives (R155). -/
def kindOf (name : W32) : BitVec 2 := if 0xFFFF0000 ≤ name.toNat then 1 else if 0xFFFE0000 ≤ name.toNat then 2 else 0

/-- The name `perf` performs in the group. -/
def perfName (f : PerfForm) (g : Grp) : W32 := if f.rn then lo32 (g.a (g.all.headD 0)) else f.name

/-- Names `perf` may not perform (R39, R155). -/
def badName (n : W32) : Bool := n == 0xFFFF0000 || decide (0xFFFF0012 ≤ n.toNat)

/-- `perf`: one effect in each executing lane, its continuation at the slot after. -/
def execPerf (f : PerfForm) (s : State) : Out :=
  issue (.perf f) s (fun g => f.rn && badName (perfName f g)) fun g s =>
    let name := perfName f g
    let items := g.lanes.map fun l =>
      (l, ({ name := name, kind := kindOf name, pb := f.pay.toNat, k := f.k.toNat, cont := (s.thread g.w l).pc
             redo := [], forced := false, src := g.pc } : Effect))
    let unbound := items.filter fun x => (s.handlerEntry g.w x.1 x.2).binds
    let r := s.deliverAll g.w f.pay.toNat (items.filter fun x => !(s.handlerEntry g.w x.1 x.2).binds)
    let s1 := r.2.foldl (fun s l => let p := s.postPrivate g.w l; p.1.block g l p.2) r.1
    unbound.foldl (fun s x => s.bindFor g x.1 (s.handlerEntry g.w x.1 x.2)) s1

/-! ## Resuming, dropping, inspecting (R158 to R162) -/

/-- The destination check of a resumption (R159): R47 for a hardware trap, the entry check for the others. -/
def State.resumeEntry (s : State) (ctx : Nat) (kind : BitVec 2) (r : Record) : Entry :=
  if kind = 1 then (if pcOk r.pc then .ok else .clear) else s.entryCheck ctx r.pc

/-- Whether the destination of a resumption may be entered. -/
def State.resumeOk (s : State) (ctx : Nat) (kind : BitVec 2) (r : Record) : Bool := s.resumeEntry ctx kind r == .ok

/-- A return record for a lane whose handler resumes a continuation (R153). -/
def Wave.returnRecord (wv : Wave) (l : Nat) (r : Record) (dreg : Nat) : RetRec :=
  { fid := (r.frames.head?.map (·.fid)).getD 0, regs := (List.range r.regs.length).map (wv.saved l)
    preds := (wv.thread l).preds, pc := (wv.thread l).pc, dreg := dreg }

/-- Which resumption an instruction makes (R160). -/
inductive Resumption where
  | tail | call | keep
  deriving DecidableEq, Repr

/-- What an instruction does to the records that its lanes' tokens name: the lanes whose record cannot be read yet wait, and the others with
them (R53, R175). -/
def State.atTokens (s : State) (g : Grp) (k : Grp → State → State) : State :=
  let away (l : Nat) : Option (Wait × Option FaultRec) := s.tokenAway g.w l (lo64 (g.a l))
  let out := g.lanes.filter fun l => (away l).isSome
  let s1 := k { g with lanes := g.lanes.filter fun l => (away l).isNone } s
  (out.foldl (fun s l =>
    match away l with
    | some e => s.blockOn g l e.1 e.2
    | none => s) s1).holdFor g out

/-- A resumption in the executing lanes: R158, the target check, the return record, the consumption, the restore (R160). -/
def State.resumption (s : State) (g : Grp) (how : Resumption) (dreg : Nat) : State :=
  let wv := s.wave g.w
  let look (l : Nat) : Except TrapKind (RecPlace × Record × BitVec 2) :=
    let tok := lo64 (g.a l)
    if how = .keep ∧ tokKind tok = 1 then .error .token
    else
      match s.checkToken g.w l tok with
      | .error k => .error k
      | .ok x =>
        if s.resumeOk g.src.ctx (tokKind tok) x.2 ∨ (s.resumeEntry g.src.ctx (tokKind tok) x.2).binds then
          .ok (x.1, x.2, tokKind tok)
        else .error .target
  let bad := g.lanes.filterMap fun l => match look l with
    | .error k => some (l, k)
    | .ok _ => none
  let good := g.lanes.filterMap fun l => match look l with
    | .ok x => some (l, x)
    | .error _ => none
  let entry (e : Nat × RecPlace × Record × BitVec 2) : Entry := s.resumeEntry g.src.ctx e.2.2.2 e.2.2.1
  let room (e : Nat × RecPlace × Record × BitVec 2) : Option Thread :=
    let t := wv.thread e.1
    (if how = .tail then some t else t.addRet (wv.returnRecord e.1 e.2.2.1 dreg)).bind fun t => t.claimUnder e.2.2.1.frames.length
  let free := good.filter fun e => !(entry e).binds
  let run := free.filter fun e => (room e).isSome
  let s1 := run.foldl (fun s e =>
    let t' := (room e).getD (wv.thread e.1)
    let s' := s.modThread g.w e.1 fun t => { t with rets := t'.rets, areas := t'.areas }
    if how = .keep then s' else s'.consume g.w e.1 e.2.1) s
  let s2 := s1.resume g.w (run.map fun e => (e.1, e.2.2.1, e.2.2.2))
  let s3 := run.foldl (fun s e => s.writeSpills g.w e.1 (wv.thread e.1).areas) s2
  let s4 := (free.filter fun e => (room e).isNone).foldl (fun s e => let p := s.postPrivate g.w e.1; p.1.block g e.1 p.2) s3
  (good.foldl (fun s e => s.bindFor g e.1 (s.resumeEntry g.src.ctx e.2.2.2 e.2.2.1)) s4).raise g bad

/-- `resumet`: the handler is abandoned. -/
def execResumet (f : VForm) (s : State) : Out := issue (.resumet f) s lawful fun g s => s.atTokens g fun g s => s.resumption g .tail 0

/-- `resumec`: the handler resumes after it when the handled block returns. -/
def execResumec (f : VForm) (s : State) : Out :=
  issue (.resumec f) s lawful fun g s => s.atTokens g fun g s => s.resumption g .call f.d.toNat

/-- `resumek`: as `resumec`, the token kept. -/
def execResumek (f : VForm) (s : State) : Out :=
  issue (.resumek f) s lawful fun g s => s.atTokens g fun g s => s.resumption g .keep f.d.toNat

/-- The lanes whose tokens pass, and the traps of the others. -/
def State.tokens (s : State) (g : Grp) : List (Nat × RecPlace × Record) × List (Nat × TrapKind) :=
  (g.lanes.filterMap fun l => match s.checkToken g.w l (lo64 (g.a l)) with
    | .ok x => some (l, x)
    | .error _ => none,
   g.lanes.filterMap fun l => match s.checkToken g.w l (lo64 (g.a l)) with
    | .error k => some (l, k)
    | .ok _ => none)

/-- `dropt`: the tokens are consumed, their continuations discarded (R161). -/
def execDropt (f : VForm) (s : State) : Out :=
  issue (.dropt f) s lawful fun g s => s.atTokens g fun g s =>
    let r := s.tokens g
    (r.1.foldl (fun s e => s.consume g.w e.1 e.2.1) s).raise g r.2

/-- What `tinfo` shows of a record (R162). -/
def tinfoWords (kind : BitVec 2) (r : Record) : W128 :=
  let pc := if kind = 1 then (r.redo.head?.map fun e => e.2.pc).getD r.pc else r.pc
  let info : W32 := BitVec.ofNat 32 (r.regs.length + 2 ^ 11 * r.redo.length + 2 ^ 16 * kind.toNat)
  info ++ (r.frames.head?.map (·.fid)).getD 0 ++ pc

/-- `tinfo`: reads a token's record without consuming it. -/
def execTinfo (f : VForm) (s : State) : Out :=
  issue (.tinfo f) s lawful fun g s => s.atTokens g fun g s =>
    let r := s.tokens g
    let val (l : Nat) : W128 :=
      ((r.1.find? fun e => e.1 == l).map fun e => tinfoWords (tokKind (lo64 (g.a l))) e.2.2).getD 0
    (s.writeD g (r.1.map (·.1)) val fun _ => .general).raise g r.2

/-! ## Traps (R168, R164, R165) -/

/-- `trap`: the executing lanes form one entry, without replay, their continuations at the slot after. -/
def execTrap (f : TrapForm) (s : State) : Out :=
  issue (.trap f) s lawful fun g s =>
    match TrapKind.ofCode f.name with
    | none => s
    | some k =>
      if g.lanes.isEmpty then s
      else s.modWave g.w fun wv =>
        let e : TrapEntry :=
          { pc := g.pc, kind := k, issued := g.issued, delivered := false, begun := false, owed := []
            lanes := g.lanes.map fun l => { lane := l, cont := (wv.thread l).pc, redo := [] } }
        { wv with trapq := putEntry wv.trapq e }.modLanes g.lanes fun _ t => { t with redo := [], wait := .trapped }

/-- Whether a lane of an entry's instruction still has its access to finish, so that it may yet trap with the same kind or a lower one
(R176). A lane that waits at `bar`, `waitp` or `cbacq` has performed its access. DEDUCED (log 75). -/
def Wave.gathers (wv : Wave) (e : TrapEntry) : Bool :=
  wv.threads.any fun t =>
    (t.redo.head?.any fun r => r.issued == e.issued && r.pc == e.pc) &&
    match t.wait with
    | .array _ | .scoreboard _ _ | .none => true
    | .waitp _ _ | .cbacq _ _ => false
    | wt => wt.late

/-- The entry to deliver next: one of a lane that runs the handler of a delivered entry goes ahead (R165), then what is left of an
entry that some of its lanes have taken (R164, R317); otherwise the first, once every delivered entry's tokens are settled (R37). None goes
while lanes of its instruction still have their access to finish. -/
def Wave.nextEntry (wv : Wave) : Option TrapEntry :=
  let owed := (wv.trapq.filter (·.delivered)).flatMap fun e => e.owed.map (·.1)
  let whole (e : Option TrapEntry) : Option TrapEntry := e.filter fun e => !wv.gathers e
  match wv.trapq.find? (fun e => !e.delivered && e.lanes.any fun x => owed.contains x.lane), wv.trapq.find? (·.begun) with
  | some e, _ => whole e
  | none, some e => some e
  | none, none => if wv.trapq.any (·.delivered) then none else whole wv.trapq.head?

/-- What the lanes of an entry take (R164 step 5). -/
def TrapEntry.effects (e : TrapEntry) (wv : Wave) : List (Nat × Effect) :=
  e.lanes.map fun x =>
    (x.lane, { name := e.kind.code, kind := 1, pb := 0, k := wv.vBudget, cont := x.cont, redo := x.redo, forced := false, src := e.pc })

/-- The record of the token that a lane has been given, or that frame 0 holds for it. -/
def State.tokenPlace (s : State) (w l : Nat) : Nat :=
  match s.deliveries.find? fun d => d.wave == w && d.lane == l with
  | some d => tokRec d.token
  | none => tokRec ((s.thread w l).dv 2)

/-- A lane of an entry that cannot take delivery yet: its handler's code is not bound (R146), or it has no backing store (R317). -/
def State.deliveryWaits (s : State) (w pc : Nat) (x : Nat × Effect) : State :=
  match s.handlerEntry w x.1 x.2 with
  | .unbound obj => s.raiseBind w obj (BitVec.ofNat 64 pc) [x.1]
  | .binding obj => s.modThread w x.1 fun t => { t with wait := .binding (s.wave w).ctx obj }
  | _ =>
    let p := s.postPrivate w x.1
    p.1.modThread w x.1 fun t => { t with wait := p.2 }

/-- TRAP_DELIVERY: the next entry's lanes take delivery (R164, R156). Lanes that cannot yet keep the rest of the entry waiting. -/
def execTrapDelivery (wave : Nat) (s : State) : Out :=
  let wv := s.wave wave
  match wv.nextEntry with
  | none => .next s
  | some e =>
    let items := e.effects wv
    let r := s.deliverAll wave 0 (items.filter fun x =>
      (wv.thread x.1).wait == .trapped && !(s.handlerEntry wave x.1 x.2).binds)
    let stays (l : Nat) : Bool := r.2.contains l ||
      items.any fun x => x.1 == l && ((wv.thread l).wait != .trapped || (s.handlerEntry wave l x.2).binds)
    let owed := (items.filter fun x => !stays x.1).map fun x => (x.1, r.1.tokenPlace wave x.1)
    let rest := e.lanes.filter fun x => stays x.lane
    let s1 := r.1.modWave wave fun wv =>
      let q := wv.trapq.erase e
      let q1 := if rest.isEmpty then q else { e with lanes := rest, begun := true } :: q
      { wv with trapq := if owed.isEmpty then q1 else { e with delivered := true, begun := false, owed := owed } :: q1 }
    .next ((items.filter fun x => stays x.1 && (wv.thread x.1).wait == .trapped).foldl (fun s x =>
      s.deliveryWaits wave e.pc.toNat x) s1)

end Sys2Proof.Machine
end

