-- ==== Sys2Proof/Machine/Matrix.lean ====
section
/-! DEFINITION. The order of sums in matrix instructions (R92 to R97) and the sparse operand (R214). -/

namespace Sys2Proof.Machine

/-- The product of two finite values as an integer multiple of 2^-lsb, zero for others. -/
def intProduct (lsb : Nat) (x y : Flt) : Int :=
  match x, y with
  | .fin n1 m1 e1, .fin n2 m2 e2 =>
    (if n1 = n2 then 1 else -1) * ((m1 * m2 * pow2 (e1 + e2 + lsb) : Nat) : Int)
  | _, _ => 0

/-- The sum of a group of scaled products (R93, R94): an exact integer, then one rounding. -/
def scaledGroup (lsb : Nat) (xs : List (Flt × Flt)) (ea eb : Nat) : Nat :=
  if ea = 0xFF ∨ eb = 0xFF ∨ xs.any (fun p => p.1.isNan || p.2.isNan) then nanBits .f32
  else
    let sum := (xs.map fun p => intProduct lsb p.1 p.2).foldl (· + ·) 0
    (roundInt .f32 .rne false sum (-(lsb : Int) + (ea : Int) - 127 + (eb : Int) - 127)).1

/-- Whether a value is zero. -/
def Flt.isZero : Flt → Bool
  | .fin _ m _ => m == 0
  | _ => false

/-- Whether a value is infinite. -/
def Flt.isInf : Flt → Bool
  | .inf _ => true
  | _ => false

/-- The sum of a group of products of 16-bit floats (R95), formed exactly and rounded once. -/
def exactGroup (xs : List (Flt × Flt)) : Nat :=
  let sign (p : Flt × Flt) : Bool := p.1.neg != p.2.neg
  let infs := xs.filter fun p => p.1.isInf || p.2.isInf
  if xs.any (fun p => p.1.isNan || p.2.isNan || (p.1.isInf && p.2.isZero) || (p.1.isZero && p.2.isInf)) then nanBits .f32
  else if infs.any sign && infs.any (fun p => !sign p) then nanBits .f32
  else
    match infs with
    | p :: _ => infBits .f32 (sign p)
    | [] =>
      let negZero := xs.all fun p => (p.1.isZero || p.2.isZero) && sign p
      let sum := (xs.map fun p => intProduct 300 p.1 p.2).foldl (· + ·) 0
      (roundInt .f32 .rne negZero sum (-300)).1

/-- The k-th group of `n` products. -/
def groupAt {α : Type} (n k : Nat) (xs : List α) : List α := (xs.drop (n * k)).take n

/-- The accumulator of one element after its K products, by the order of R92 to R96. `ea` and `eb` give the scales of a
group of 32. -/
def matrixElement (ta : Ty) (acc : Nat) (xs : List (Flt × Flt)) (ea eb : Nat → Nat) : Nat :=
  let add (acc t : Nat) : Nat := (bitsAdd .f32 .rne acc t).1
  match ta with
  | .d8 => (List.range 4).foldl (fun acc k => add acc (scaledGroup 24 (groupAt 32 k xs) (ea k) (eb k))) acc
  | .gf8 => (List.range 2).foldl (fun acc k => add acc (scaledGroup 20 (groupAt 32 k xs) (ea k) (eb k))) acc
  | .f32 => xs.foldl (fun acc p => (fltFma .f32 .rne p.1 p.2 (fdecode .f32 acc)).1) acc
  | .f64 => xs.foldl (fun acc p => (fltFma .f64 .rne p.1 p.2 (fdecode .f64 acc)).1) acc
  | _ => (List.range 2).foldl (fun acc k => add acc (exactGroup (groupAt 16 k xs))) acc

/-! ## The sparse operand (R214) -/

/-- The kept positions of a coarse bitmap of K bits. -/
def keptOf (k bitmap : Nat) : List Nat := (List.range k).filter bitmap.testBit

/-- Row values of the dense operand: kept positions by groups of four, each with its index byte and two compressed elements; the
rest zero. -/
def sparseRow (k bitmap : Nat) (index : Nat → Nat) (elem : Nat → Flt) : List Flt :=
  let kept := keptOf k bitmap
  let zero : Flt := .fin false 0 0
  (List.range k).map fun pos =>
    match kept.idxOf? pos with
    | none => zero
    | some n =>
      let q := n / 4
      let x := index q
      let p0 := x % 4
      let p1 := x / 4 % 4
      if n % 4 = p0 then elem (2 * q)
      else if n % 4 = p1 then elem (2 * q + 1)
      else zero

end Sys2Proof.Machine
end

