-- ==== Sys2Proof/Machine/Sync.lean ====
section
/-! DEFINITION. Fences, barriers, circular buffers, pennant waits, code and cache operations, and `halt` (R221 to R230). -/

namespace Sys2Proof.Machine

/-- `fence`: every access of this model is performed in program order at its point, so what a fence keeps is kept (log 4). -/
def execFence (f : MForm) (s : State) : Out := issue (.fence f) s lawful fun _ s => s

/-! ## Barrier instructions (R222) -/

/-- Whether the level a barrier instruction names is omitted (R10). -/
def Grp.omitted (g : Grp) (level : Nat) : Bool := !g.src.levels.getLsbD level

/-- A lane at a barrier: it waits at the phase, `stay` where it has arrived and only the wait is left. -/
def State.waitPhase (s : State) (g : Grp) (l bar : Nat) (stay : Bool) : State :=
  s.modThread g.w l fun t =>
    { t with redo := { g.redo l with waitOnly := stay } :: t.redo, wait := .bar bar (s.barrier bar).phase }

/-- The wait of `barw` in one lane: for the phase it last arrived in, if that phase is still open. -/
def State.barwLane (s : State) (g : Grp) (level l : Nat) : State :=
  let r := s.barrierFor g.w level
  let last := Sparse.get 0 (s.thread g.w l).arrivals level
  if last = (r.1.barrier r.2).phase + 1 then r.1.waitPhase g l r.2 true
  else r.1.modThread g.w l fun t => { t with arrivals := Sparse.set 0 t.arrivals level 0 }

/-- The arrival of `bar` and `bara` in one lane, and for `bar` the wait. A lane that has already arrived in the open phase waits
for it to complete first; one whose arrival no tag can carry waits for a tag (R335). -/
def State.baraLane (s : State) (g : Grp) (level : Nat) (stay : Bool) (l : Nat) : State :=
  let r := s.barrierFor g.w level
  if (r.1.barrier r.2).has g.w l then r.1.waitPhase g l r.2 false
  else if r.1.wordFull r.2 then r.1.block g l (.tag kernelTile)
  else
    let s1 := r.1.arrive r.2 g.w l
    if stay then s1.waitPhase g l r.2 true else s1

/-- A failed command of the wave that credits a level (R204). -/
def State.failedAt (s : State) (w level : Nat) : Option Cmd :=
  s.failedCmd w fun c => c.bar == some level

/-- `bar` in the group: each lane arrives and waits; a failure of a command that credits the level is delivered here, to every lane, once
it has arrived (R204). A lane that had arrived before, which is to arrive again, does so when its replay entry runs. -/
def barEffect (f : VForm) (g : Grp) (s : State) : State :=
  let level := f.d.toNat
  let only := (g.replay.map (·.waitOnly)).getD false
  match s.failedAt g.w level with
  | none =>
    if only then g.lanes.foldl (fun s l => s.barwLane g level l) s
    else g.lanes.foldl (fun s l => s.baraLane g level true l) s
  | some c =>
    let here (s : State) : Nat := (s.barrierFor g.w level).2
    let twice := if only then [] else g.lanes.filter fun l => (s.barrier (here s)).has g.w l
    let once := g.lanes.filter fun l => !twice.contains l
    let s1 := if only then s
      else once.foldl (fun s l => let r := s.barrierFor g.w level; r.1.arrive r.2 g.w l) s
    if !only && !once.isEmpty && s.wordFull (here s) then g.lanes.foldl (fun s l => s.block g l (.tag kernelTile)) s
    else s1.failAt g c g.lanes fun l => !twice.contains l

/-- `bar`: arrives and waits. -/
def execBar (f : VForm) (s : State) : Out := issue (.bar f) s (fun g => g.omitted f.d.toNat) (barEffect f)

/-- `barw`: waits for the phase in which the lane last arrived. -/
def execBarw (f : VForm) (s : State) : Out :=
  issue (.barw f) s (fun g => g.omitted f.d.toNat) fun g s =>
    match s.failedAt g.w f.d.toNat with
    | some c => s.failAt g c g.lanes fun _ => true
    | none => g.lanes.foldl (fun s l => s.barwLane g f.d.toNat l) s

/-- `bara`: arrives; the expected bytes are added once for the group, to the phase in which its first lanes arrive. -/
def execBara (f : VForm) (s : State) : Out :=
  issue (.bara f) s (fun g => g.omitted f.d.toNat) fun g s =>
    let level := f.d.toNat
    if g.lanes.isEmpty then s
    else
      let r := s.barrierFor g.w level
      let now := g.lanes.filter fun l => !(r.1.barrier r.2).has g.w l
      if now.isEmpty then g.lanes.foldl (fun s l => s.waitPhase g l r.2 false) r.1
      else
        let bytes : Int := if f.skb then (lo32 (g.b g.head)).toNat else 0
        let spent : Grp := { g with caps := g.lanes.map fun l => (l, { g.cap l with b := 0 }) }
        g.lanes.foldl (fun s l => s.baraLane spent level false l)
          (r.1.modBarrier r.2 fun b => { b with balance := b.balance + bytes })

/-! ## Circular buffers (R225 to R227) -/

/-- A counter block (R225). -/
structure Block where
  free : Nat
  put : Nat
  filled : Nat
  get : Nat
  base : Nat
  size : Nat
  count : Nat
  deriving DecidableEq, Repr

def Block.bytes (b : Block) : List Byte :=
  toBytes b.free 4 ++ toBytes b.put 4 ++ toBytes b.filled 4 ++ toBytes b.get 4 ++ toBytes b.base 8 ++ toBytes b.size 4 ++
    toBytes b.count 4

def Block.of (bs : List Byte) : Block :=
  let w (o n : Nat) : Nat := ofBytes ((bs.drop o).take n)
  ⟨w 0 4, w 4 4, w 8 4, w 12 4, w 16 8, w 24 4, w 28 4⟩

/-- Regions a counter block may lie in (R225). -/
def blockRegion (va : Nat) : Bool := decide (va / 2 ^ 60 < 4) || va / 2 ^ 60 == 6

/-- The checks of R226 on what `cbdef` is given. -/
def State.cbdefCheck (s : State) (ctx base size count block : Nat) : Option TrapKind :=
  if base % 64 ≠ 0 ∨ block % 32 ≠ 0 then some .misalign
  else if !blockRegion block ∨ size = 0 ∨ size % 64 ≠ 0 ∨ count = 0 ∨ 65535 < count then some .protect
  else if base / 2 ^ 60 ≠ 6 ∨ bitsOf base 19 25 ≠ 0 ∨ 2 ^ 19 < base % 2 ^ 19 + size * count ∨
      (((s.ctx? ctx).bind fun c => scratchOf (c.smap (bitsOf base 44 16))).isNone) then some .xlate
  else none

/-- The team's buffer N is the block that a `cbdef` has initialised. -/
def State.keepBlock (s : State) (g : Grp) (f : VForm) (block : Nat) : State :=
  s.modTeam g.src.team fun t => { t with cbufs := Sparse.insert (Sparse.erase t.cbufs f.d.toNat) f.d.toNat (BitVec.ofNat 64 block) }

/-- What a `cbdef` whose block's home is another node does once that node has written the block: until then the team's buffer is the earlier
one (R226). -/
def cbdefEffect (f : VForm) (g : Grp) (s : State) : State := s.keepBlock g f (lo64 (g.c g.head)).toNat

/-- `cbdef`: initialises a counter block and records it as a buffer of the team. -/
def execCbdef (f : VForm) (s : State) : Out :=
  issue (.cbdef f) s lawful fun g s =>
    s.onceFor g fun s l =>
      let base := (lo64 (g.a l)).toNat
      let size := (word32 (g.b l) 0).toNat
      let count := (word32 (g.b l) 1).toNat
      let block := (lo64 (g.c l)).toNat
      match if g.replay.any (·.late) then none else s.cbdefCheck g.src.ctx base size count block with
      | some k => (s, .trap k)
      | none =>
        let r := s.writeFor g l block 32 .b128 .dev .rel
          (Block.bytes { free := count, put := 0, filled := 0, get := 0, base := base, size := size, count := count })
        match r with
        | (s', .done) => (s'.keepBlock g f block, .done)
        | r => r

/-- The block as `cbacq` leaves it. -/
def Block.take (b : Block) : Block := { b with filled := b.filled - 1, get := if b.count = 0 then 0 else (b.get + 1) % b.count }

/-- The address `cbacq` hands out. -/
def Block.slotAt (b : Block) (n : Nat) : Nat := (b.base + n * b.size) % 2 ^ 64

/-- Give the executing lanes the slot: D is uniform under a full write (R13). -/
def State.giveSlot (s : State) (g : Grp) (x : Nat) : State :=
  s.writeD g g.lanes (fun _ => BitVec.ofNat 128 x) fun _ => .uniform

/-- `cbacq` for the group. DESIGN CHOICE (log 66): a block outside the regions of R225, for which R227 names no trap, traps PROTECT in
regions 0x4, 0x5, 0x7 and 0xF and XLATE in 0x8 to 0xE. A block at another node is read, then its counters exchanged by compare and exchange. -/
def State.cbacqFor (s : State) (g : Grp) (l : Nat) : State × LaneEnd :=
  let who := s.whoFor g l 3 .dev
  let va := (lo64 (g.a l)).toNat
  if !blockRegion va then (s, .trap (if va / 2 ^ 60 < 8 ∨ va / 2 ^ 60 = 15 then .protect else .xlate))
  else
    match s.reach who va 32 32 .rmw with
    | .ok ps pad =>
      let b := Block.of (s.load ps pad)
      if b.filled = 0 then (s, .wait (.cbacq (BitVec.ofNat 64 va) g.shape.d.num.toNat) none)
      else (((s.count ps).store ps b.take.bytes).giveSlot g (b.slotAt b.get), .done)
    | .remote n h =>
      let b := Block.of g.part
      let read := s.packet who.world .read n (h + g.part.length)
      if g.part.length < 32 then s.ask g l { read with wt := .b128, scope := .dev, ord := .acq } g.part
      else if b.filled = 0 then s.ask g l { read with addr := BitVec.ofNat 64 h, wt := .b128, scope := .dev, ord := .acq } []
      else if g.part.length = 32 then
        let old := (g.part.drop 8).take 8
        s.ask g l (s.atomPacket g l 0 .b64 .dev .acq (BitVec.ofNat 64 (ofBytes old)) (((b.take.bytes).drop 8).take 8 ++ old)
          n (h + 8)) g.part
      else if g.part.drop 32 = (g.part.drop 8).take 8 then (s.giveSlot g (b.slotAt b.get), .done)
      else s.ask g l { read with addr := BitVec.ofNat 64 h, wt := .b128, scope := .dev, ord := .acq } []
    | a => (s, a.ended)

/-- The effect of `cbacq`. -/
def cbacqEffect (_ : VForm) (g : Grp) (s : State) : State := s.onceFor g fun s l => s.cbacqFor g l

/-- `cbacq`: acquires the next filled slot. -/
def execCbacq (f : VForm) (s : State) : Out := issue (.cbacq f) s lawful (cbacqEffect f)

/-- `cbrel` for the group: FREE rises by one. DESIGN CHOICE (log 66): the trap of a block outside the regions, as for `cbacq`. -/
def State.cbrelFor (s : State) (g : Grp) (l : Nat) : State × LaneEnd :=
  let who := s.whoFor g l 3 .dev
  let va := (lo64 (g.a l)).toNat
  if !blockRegion va then (s, .trap (if va / 2 ^ 60 < 8 ∨ va / 2 ^ 60 = 15 then .protect else .xlate))
  else
    match s.reach who va 32 32 .rmw with
    | .ok ps pad =>
      let b := Block.of (s.load ps pad)
      ((s.count ps).store ps (Block.bytes { b with free := (b.free + 1) % 2 ^ 32 }), .done)
    | .remote n h => s.ask g l (s.atomPacket g l 1 .u32 .dev .rel 0 (toBytes 1 4) n h) []
    | a => (s, a.ended)

/-- `cbrel`: releases a slot. -/
def execCbrel (f : VForm) (s : State) : Out :=
  issue (.cbrel f) s lawful fun g s => s.onceFor g fun s l => s.cbrelFor g l

/-- The block at an address, where it can be read now. -/
def State.blockNow (s : State) (who : Who) (va : Nat) : Option Block :=
  match s.access who va 32 32 .read with
  | .ok ps pad => some (Block.of (s.load ps pad))
  | _ => none

/-- Whether a lane waiting at `cbacq` may go on: FILLED is not zero, or its block cannot be read here any more, its page having departed or its
grant having passed to another node, so that the lane has to ask for it again (R175, R285). -/
def State.cbacqReady (s : State) (w l : Nat) : Bool :=
  match (s.thread w l).wait with
  | .cbacq a _ =>
    (match s.blockNow { s.who w l 3 with late := true } a.toNat with
     | some b => b.filled != 0
     | none => true)
  | _ => false

/-- CBACQ_RELEASE: the lanes of the group go on to take the slot. -/
def execCbacqRelease (wave lane : Nat) (s : State) : Out :=
  if s.cbacqReady wave lane then
    let wt := (s.thread wave lane).wait
    .next (s.modWave wave fun wv =>
      { wv with threads := wv.threads.map fun t => if t.wait = wt then { t with wait := .none } else t })
  else .next s

/-! ## `waitp` (R223) -/

/-- `waitp` in one lane. A word at another node is read again until it reaches the threshold. -/
def State.waitpLane (s : State) (g : Grp) (f : MForm) (l : Nat) : State × LaneEnd :=
  let who := s.whoFor g l 0 f.scope
  let va := g.addr f.off.toInt l
  let goal := lo64 (g.b l)
  match s.reach who va 8 8 .read with
  | .ok ps pad =>
    if goal.toNat ≤ ofBytes (s.load ps pad) then (s.count ps, .done) else (s, .wait (.waitp (BitVec.ofNat 64 va) goal) none)
  | .remote n h =>
    if !g.part.isEmpty && decide (goal.toNat ≤ ofBytes (s.unpad (s.padAt g who va) g.part)) then (s, .done)
    else
      let p := s.packet who.world .read n h
      s.askAt g l who va { p with wt := .u64, scope := f.scope, ord := .acq } []
  | a => (s, a.ended)

/-- The effect of `waitp`. -/
def waitpEffect (f : MForm) (g : Grp) (s : State) : State := s.eachLane g fun s l => s.waitpLane g f l

/-- `waitp`: waits until a pennant word reaches a threshold. -/
def execWaitp (f : MForm) (s : State) : Out := issue (.waitp f) s lawful (waitpEffect f)

/-- A pennant word, where it can be read now. -/
def State.pennant (s : State) (who : Who) (va : Nat) : Option Nat :=
  match s.access who va 8 8 .read with
  | .ok ps pad => some (ofBytes (s.load ps pad))
  | _ => none

/-- The word that a lane waiting at `waitp` waits for, where it can be read now. -/
def State.waitedWord (s : State) (w l : Nat) (a : W64) : Option Nat := s.pennant { s.who w l 0 with late := true } a.toNat

/-- Whether a lane waiting at `waitp` may go on: the word has reached the threshold, or it cannot be read here any more, its page having departed
or its grant having passed to another node, so that the lane has to ask for it again (R175, R285). DEDUCED (log 92). -/
def State.waitpReady (s : State) (w l : Nat) : Bool :=
  match (s.thread w l).wait with
  | .waitp a goal =>
    (match s.waitedWord w l a with
     | some x => decide (goal.toNat ≤ x)
     | none => true)
  | _ => false

/-- WAITP_RELEASE: the word has reached the threshold, and the lane has finished; or the lane performs its access again. -/
def execWaitpRelease (wave lane : Nat) (s : State) : Out :=
  let again : State := s.modThread wave lane fun t => { t with wait := .none }
  if s.waitpReady wave lane && (s.wave wave).resident then
    match (s.thread wave lane).wait with
    | .waitp a _ => .next (if (s.waitedWord wave lane a).isSome then s.modWave wave fun wv => wv.complete [lane] else again)
    | _ => .next s
  else .next s

/-! ## Code lines and caches (R228, R229, R321) -/

/-- The physical address of a code line's address, by its record or its page. -/
def State.codePhys (s : State) (who : Who) (va : Nat) : Option Nat :=
  if va / 2 ^ 60 < 4 then s.physOf who va
  else
    ((s.ctx? who.ctx).bind fun c => c.recAt va 1).map fun r => s.codePa who.ctx r va

/-- `icinv`: the line's fetch version becomes its bytes; it never traps after decode. -/
def execIcinv (f : MForm) (s : State) : Out :=
  issue (.icinv f) s lawful fun g s =>
    g.lanes.foldl (fun s l =>
      match s.codePhys (s.who g.w l 2) (g.addr f.off.toInt l) with
      | some pa => { s with fetchLines := Sparse.erase s.fetchLines (pa / 64) }
      | none => s) s

/-- `ifence`: each fetch of this model returns the line's newest version, so nothing is held to be discarded (R322). -/
def execIfence (f : VForm) (s : State) : Out := issue (.ifence f) s lawful fun _ s => s

/-- `cctl`: `.zero` writes 64 bytes; the other operations change no value. -/
def execCctl (f : MopForm) (s : State) : Out :=
  issue (.cctl f) s lawful fun g s =>
    if f.opc = 3 then
      s.eachLane g fun s l =>
        s.writeFor g l (g.addr f.off.toInt l) 64 f.wt f.scope f.ord (List.replicate 64 0)
    else s

/-! ## `halt` (R230) -/

/-- `halt`: the lanes stop, and the service kernel is notified of the first of them; with no debugger attached it ends the team. -/
def execHalt (f : VForm) (s : State) : Out :=
  issue (.halt f) s lawful fun g s =>
    match g.lanes with
    | [] => s
    | l :: _ =>
      let s1 := s.modLanes g.w g.lanes fun _ t => { t with wait := .halted }
      let kept := (s.launchOf g.src.team).any (·.debugged)
      { s1 with pkg := { s1.pkg with log := s1.pkg.log ++ [.halted g.w l g.pc] }
                agenda := if kept then s1.agenda else s1.agenda ++ [.teamEnd g.src.team (.halt g.pc)] }

end Sys2Proof.Machine
end

