-- ==== Sys2Proof/Machine/Engines.lean ====
section
/-! DEFINITION. Engine commands (R200 to R215): what a copy and a matrix instruction name, their checks, the claim of a slot,
acceptance, the bytes a command moves, its finish and its failure. -/

namespace Sys2Proof.Machine

/-! ## Descriptors and ranges (R202) -/

/-- A scratchpad descriptor, pitch and scale offset in bytes. -/
structure Desc where
  byte : Nat
  pitch : Nat
  ltile : Nat
  soff : Nat
  deriving DecidableEq, Repr

def Desc.of (d : W64) : Desc :=
  let x := d.toNat
  ⟨bitsOf x 0 19, bitsOf x 19 13 * 16, bitsOf x 32 16, bitsOf x 48 16 * 16⟩

/-- The pitch of rows of a length: dense where PITCH is 0. -/
def Desc.rowPitch (d : Desc) (len : Nat) : Nat := if d.pitch = 0 then (len + 15) / 16 * 16 else d.pitch

/-- `n` rows of `len` bytes from `lo`, at a pitch. -/
structure Rows where
  lo : Nat
  pitch : Nat
  len : Nat
  n : Nat
  deriving DecidableEq, Repr

/-- One past the last byte; zero where there is none. -/
def Rows.stop (r : Rows) : Nat := if r.len = 0 ∨ r.n = 0 then 0 else r.lo + (r.n - 1) * r.pitch + r.len

def Rows.list (r : Rows) : List Piece := if r.len = 0 then [] else (List.range r.n).map fun k => (r.lo + k * r.pitch, r.len)

/-- The key of a byte of a scratch number's region. -/
def Scratch.key (p : Scratch) (b : Nat) : Nat :=
  match p with
  | .slice tile bank _ => sliceKey tile (bank * 16384 + b)
  | .copy page _ => page + b

def Scratch.banks : Scratch → Nat
  | .slice _ _ n => n
  | .copy _ n => n

def Scratch.onTile : Scratch → Nat → Bool
  | .slice t _ _, tile => t == tile
  | .copy _ _, _ => false

/-- Where a scratch number of a context stands. -/
def State.scratchPlace (s : State) (ctx lt : Nat) : Option Scratch := (s.ctx? ctx).bind fun c => scratchOf (c.smap lt)

/-- Slice ranges of rows of a region. -/
def Scratch.ranges (p : Scratch) (ps : List Piece) : List SliceRange :=
  match p with
  | .slice tile bank _ => ps.map fun q => ⟨tile, bank * 16384 + q.1, q.2⟩
  | .copy _ _ => []

/-- Whether every bank the bytes lie in belongs to the world. -/
def State.banksOf (s : State) (world : Nat) (p : Scratch) (q : Piece) : Bool :=
  match p with
  | .slice tile bank _ =>
    (List.range ((q.1 % 16384 + q.2 + 16383) / 16384)).all fun i =>
      (s.tile tile).bankWorld (bank + q.1 / 16384 + i) == some world
  | .copy page _ => s.granted world (page + q.1) q.2

/-- The checks of R202, in their order: `own` for a matrix operand, `bases` the bytes that must be multiples of `size`. -/
def State.descCheck (s : State) (who : Who) (lt : Nat) (own : Bool) (bases : List Nat) (size : Nat) (rows : List Rows) :
    Option TrapKind :=
  match s.scratchPlace who.ctx lt with
  | none => some .xlate
  | some p =>
    let top := min (p.banks * 16384) (s.scratchBytes who.ctx lt)
    if own && !p.onTile who.tile then some .xlate
    else if rows.any fun r => decide (top < r.stop) then some .xlate
    else if bases.any fun b => b % size != 0 then some .misalign
    else if rows.any fun r => r.list.any fun q => !s.banksOf who.world p q then some .world
    else none

/-! ## Boxes (R206 to R208) -/

/-- The box of a copy: origins and extents, dimensions beyond RANK being 0 and 1. -/
structure Box where
  o : List Nat
  x : List Nat
  deriving DecidableEq, Repr

def boxOf (e : BitVec 512) (origin extent : List W32) : Box :=
  ⟨(List.range 5).map fun d => if tRank e ≤ d then 0 else (origin.getD d 0).toNat,
   (List.range 5).map fun d => if tRank e ≤ d then 1 else (extent.getD d 0).toNat⟩

def Box.strays (b : Box) (e : BitVec 512) : Bool :=
  (List.range (tRank e)).any fun d => decide (tDim e d < b.o.getD d 0 + b.x.getD d 0)

/-- Rows of the box: lines along dimension 0. -/
def Box.count (b : Box) : Nat := b.x.getD 1 0 * b.x.getD 2 0 * b.x.getD 3 0 * b.x.getD 4 0

/-- The indices of a row's first element. -/
def Box.at (b : Box) (r : Nat) : List Nat :=
  let x (d : Nat) : Nat := b.x.getD d 1
  let j := [0, r % x 1, r / x 1 % x 2, r / (x 1 * x 2) % x 3, r / (x 1 * x 2 * x 3)]
  (List.range 5).map fun d => b.o.getD d 0 + j.getD d 0

/-- The scratchpad's element type of a copy, none where R207 refuses the pair. -/
def copyTy (e : BitVec 512) (f : EForm) : Option Ty :=
  (fmtTy (tFmt e)).bind fun t =>
    let d := Ty.ofCode f.stype
    if f.stype = 0 ∨ d = t then some t else if t.isFloat && d.isFloat then some d else none

/-- Rows of data of a box in the scratchpad, from a base. -/
def dataRows (d : Desc) (base : Nat) (ty : Ty) (b : Box) : Rows :=
  let rowb := b.x.getD 0 0 * ty.bytes
  ⟨base, d.rowPitch rowb, rowb, b.count⟩

/-- Rows of scales of a box in the scratchpad (R208). -/
def scaleRows (d : Desc) (base : Nat) (b : Box) : Rows :=
  let n := (b.x.getD 0 0 + 31) / 32
  ⟨base + d.soff, n, n, b.count⟩

/-- One row of a copy: its bytes in the tensor's buffer and in the region, and the types on each side. -/
structure Row where
  t : Nat
  tn : Nat
  b : Nat
  bn : Nat
  src : Ty
  dst : Ty
  deriving DecidableEq, Repr

/-- The rows of a copy, data then scales; `src` is the tensor's type. -/
def copyRows (e : BitVec 512) (f : EForm) (d : Desc) (base : Nat) (ty : Ty) (b : Box) : List Row :=
  let src := (fmtTy (tFmt e)).getD .b8
  let data := dataRows d base ty b
  let sc := scaleRows d base b
  if b.x.getD 0 0 = 0 then []
  else
    ((List.range b.count).map fun r =>
        { t := src.bytes * tElement e (b.at r), tn := b.x.getD 0 0 * src.bytes, b := data.lo + r * data.pitch, bn := data.len
          src := src, dst := ty }) ++
      (if f.scl then
        (List.range b.count).map fun r =>
          { t := tScale e (b.at r), tn := sc.len, b := sc.lo + r * sc.pitch, bn := sc.len, src := .b8, dst := .b8 }
       else [])

/-! ## Operands (R204) -/

/-- What a copy reads at issue. -/
structure CopyOps where
  desc : W64
  origin : List W32
  extent : List W32
  deriving DecidableEq, Repr

/-- The operands packed as a replay entry holds them. -/
def CopyOps.cap (x : CopyOps) : Cap :=
  let pack (l : List W32) : W128 := l.getD 3 0 ++ l.getD 2 0 ++ l.getD 1 0 ++ l.getD 0 0
  ⟨x.extent.getD 4 0 ++ x.origin.getD 4 0 ++ x.desc, pack x.origin, pack x.extent⟩

def CopyOps.ofCap (c : Cap) : CopyOps :=
  let words (w : W128) : List W32 := (List.range 4).map (word32 w)
  ⟨lo64 c.a, words c.b ++ [word32 c.a 2], words c.c ++ [word32 c.a 3]⟩

/-- The operands of a copy: captured ones where it is issued again. -/
def Grp.copyOps (g : Grp) (f : EForm) : CopyOps :=
  match g.caps with
  | [] =>
    let five (r : Nat) : List W32 := (List.range 5).map fun k => g.src.sreg (r + k)
    ⟨lo64 (g.a g.head), five f.b.toNat, five f.c.toNat⟩
  | c :: _ => CopyOps.ofCap c.2

/-! ## Commands in the state -/

/-- A command of a tile. -/
def State.cmd? (s : State) (tile id : Nat) : Option Cmd := (s.tile tile).cmds.find? fun c => c.id == id

def State.modCmd (s : State) (tile id : Nat) (f : Cmd → Cmd) : State :=
  s.modTile tile fun x => { x with cmds := x.cmds.map fun c => if c.id = id then f c else c }

def State.dropCmd (s : State) (tile id : Nat) : State :=
  s.modTile tile fun x => { x with cmds := x.cmds.filter fun c => c.id != id }

def Cmd.isCopy (c : Cmd) : Bool := c.kind == .cpy || c.kind == .cpym || c.kind == .cpyw

/-- Whether the destination is a slot of a circular buffer (R210). -/
def Cmd.wantsSlot (c : Cmd) : Bool := (c.kind == .cpy || c.kind == .cpym) && c.form.cb

def Cmd.ops (c : Cmd) : CopyOps := ⟨c.descA, c.origin, c.extent⟩

/-- Who makes an engine's access; PART 7 is the copy engine, 6 a matrix unit (R289). -/
def State.engineWho (s : State) (w part acc : Nat) : Who :=
  let wv := s.wave w
  ⟨wv.ctx, s.waveWorld w, wv.tile, part, 0, 0, 0, acc, false, false, false, false⟩

/-- A tensor's entry in a wave's context. -/
def State.entryOf (s : State) (w tid : Nat) : BitVec 512 := ((s.ctx? (s.wave w).ctx).map fun c => c.tensor tid).getD 0

/-- The counter block of a buffer of a wave's team (R226). -/
def State.cbOf (s : State) (w n : Nat) : Option W64 :=
  ((s.team (s.wave w).team).cbufs.find? fun e => e.1 == n).map (·.2)

/-! ## Checks of a copy at issue -/

/-- The checks on the region, from a base byte of a scratch number (R202, R208). -/
def State.boxCheck (s : State) (who : Who) (e : BitVec 512) (f : EForm) (d : Desc) (lt base : Nat) (ty : Ty) (b : Box) :
    Option TrapKind :=
  (s.descCheck who lt false [base] ty.bytes [dataRows d base ty b]).orElse fun _ =>
    if !f.scl then none
    else if tBlk e ≠ 1 ∨ b.o.getD 0 0 % 32 ≠ 0 ∨ some ty ≠ fmtTy (tFmt e) then some .xlate
    else s.descCheck who lt false [base + d.soff] ty.bytes [scaleRows d base b]

/-- The checks of R206 to R210, in order; `slot` is the slot already claimed, `far` the
counter block as another node has sent it. -/
def State.copyCheck (s : State) (w : Nat) (f : EForm) (kind : CmdKind) (x : CopyOps) (slot : Option W64) (far : Option Block) :
    LaneEnd :=
  let who := s.engineWho w 7 (if kind = .cpyw then 6 else 5)
  let e := s.entryOf w f.tid.toNat
  let b := boxOf e x.origin x.extent
  let d := Desc.of x.desc
  let answer (k : Option TrapKind) : LaneEnd := match k with
    | some k => .trap k
    | none => .done
  let at_ (a : Nat) (ty : Ty) : LaneEnd := answer (s.boxCheck who e f d (bitsOf a 44 16) (a % 2 ^ 19) ty b)
  if tFmt e = 0 then .trap .xlate
  else if tWorld e ≠ who.world then .trap .world
  else if b.strays e then .trap .stray
  else
    match copyTy e f with
    | none => .trap .xlate
    | some ty =>
      if !f.cb || kind == .cpyw then answer (s.boxCheck who e f d d.ltile d.byte ty b)
      else
        match slot, s.cbOf w f.cbn with
        | some a, _ => at_ a.toNat ty
        | none, none => .trap .xlate
        | none, some blk =>
          let fits (k : Block) : LaneEnd :=
            if k.size < (dataRows d 0 ty b).stop ∨ (f.scl && decide (k.size < (scaleRows d 0 b).stop)) then .trap .xlate
            else at_ (k.slotAt k.put) ty
          match s.access { who with acc := 3 } blk.toNat 32 32 .rmw, far with
          | .ok ps pad, _ => fits (Block.of (s.load ps pad))
          | .remote _ _, some k => fits k
          | a, _ => a.ended

/-! ## Operands of a matrix instruction (R211, R214) -/

/-- Whether a matrix operand of this type has scales. -/
def hasScales (t : Ty) : Bool := t == .d8 || t == .gf8

/-- Bytes of a stored row of A: compressed under `mmasp`. -/
def aRowBytes (f : EForm) (sparse : Bool) : Nat :=
  let k := (mmaK f.atype f.btype).getD 0
  (if sparse then k / 2 else k) * f.atype.bytes

/-- Rows of an operand and its scales. -/
def operandRows (d : Desc) (len n k : Nat) (t : Ty) : List Rows :=
  ⟨d.byte, d.rowPitch len, len, n⟩ ::
    (if hasScales t && d.soff != 0 then [⟨d.byte + d.soff, k / 32, k / 32, n⟩] else [])

/-- Rows of the metadata. -/
def metaRows (d : Desc) (k : Nat) : List Rows :=
  [⟨d.byte, 16, 16, 1⟩, ⟨d.byte + 16, d.rowPitch ((k + 3) / 4), (k + 3) / 4, 32⟩]

/-- The descriptors of a matrix command with the rows they name; `lanes` is N. -/
def matrixRows (f : EForm) (sparse : Bool) (lanes : Nat) (a b c : W64) : List (Desc × Bool × Nat × List Rows) :=
  let k := (mmaK f.atype f.btype).getD 0
  [(Desc.of a, true, f.atype.bytes, operandRows (Desc.of a) (aRowBytes f sparse) 32 k f.atype),
   (Desc.of b, true, f.btype.bytes, operandRows (Desc.of b) (k * f.btype.bytes) lanes k f.btype)] ++
  (if sparse then [(Desc.of c, false, 1, metaRows (Desc.of c) k)] else [])

/-- The checks of R202 on each descriptor of a matrix command. -/
def State.matrixCheck (s : State) (who : Who) (rows : List (Desc × Bool × Nat × List Rows)) : Option TrapKind :=
  rows.findSome? fun r => s.descCheck who r.1.ltile r.2.1 [r.1.byte] r.2.2.1 r.2.2.2

/-- The outstanding record that a miss would join (R290). -/
def State.outstanding (s : State) (r : FaultRec) : Option FaultRec := (s.die (s.faultDie r)).faultq.find? fun q => q.same r

/-- Whether an operation of the service kernel, the dispatcher or an engine already waits on the record that a miss would join. -/
def State.joined (s : State) (op : Instr) (r : FaultRec) : Bool :=
  (s.outstanding r).any fun q => s.pkg.asked.contains (op, s.faultDie r, q.seq)

/-- Such an operation misses on a page: it posts the record, or joins the outstanding one, and counts as one waiter (R290). -/
def State.postOnce (s : State) (op : Instr) (r : FaultRec) : State :=
  if s.joined op r then s
  else
    match s.post r with
    | (s', some (d, q)) => { s' with pkg := { s'.pkg with asked := s'.pkg.asked ++ [(op, d, q)] } }
    | (s', none) => s'

/-- A command misses on a page: it posts the record, or joins the outstanding one, and counts as one waiter until the record is
answered (R290). -/
def State.cmdMiss (s : State) (tile : Nat) (c : Cmd) (page : Nat) (r : FaultRec) : State :=
  if ((s.cmd? tile c.id).any fun x => x.missed.contains page) && (s.outstanding r).isSome then s
  else (s.post r).1.modCmd tile c.id fun x => { x with missed := x.missed.filter (· != page) ++ [page] }

/-! ## Claim and acceptance (R201, R210) -/

/-- Lanes that wait for a command's acceptance go on. -/
def State.unaccept (s : State) (w tile id : Nat) : State :=
  s.modWave w fun wv =>
    { wv with threads := wv.threads.map fun t => if t.wait = .accept tile id then { t with wait := .none } else t }

/-- The block as a claim leaves it (R210). -/
def Block.claimed (b : Block) : Block := { b with free := b.free - 1, put := if b.count = 0 then 0 else (b.put + 1) % b.count }

/-- Whether a command waits to claim a slot. -/
def State.claims (s : State) (c : Cmd) : Bool :=
  c.wantsSlot && c.slot.isNone && c.state == .issued && (s.wave c.wave).resident

/-- A request for a command's counter block at another node. -/
def State.askBlock (s : State) (tile : Nat) (id wave step : Nat) (p : Packet) : State :=
  if s.fabric.reqs.any fun r => r.tile == tile && (match r.use with
      | .block x _ => x == id
      | _ => false) then s
  else ((s.requestFor tile wave 0 [] (.block id step) p).map (·.1)).getD s

/-- A packet that steps a counter block. -/
def State.blockPacket (s : State) (wave : Nat) (t : PacketType) (n a : Nat) (opc : BitVec 6) (wt : Ty) (ord : Ord) (aux : Nat)
    (data : List Byte) : Packet :=
  { s.packet (s.waveWorld wave) t n a with opc := opc, wt := wt, scope := .dev, ord := ord, aux := BitVec.ofNat 64 aux, data := data }

/-- The claim of a slot whose block lies at another node: the block is read, then FREE and PUT are exchanged by one compare and exchange
(R191, R210). -/
def State.claimFar (s : State) (tile : Nat) (c : Cmd) (blk : W64) (n h : Nat) : State :=
  let b := Block.of c.seen
  let old := c.seen.take 8
  let again := s.modCmd tile c.id fun c => { c with seen := [] }
  if c.seen.length < 32 then
    s.askBlock tile c.id c.wave 0 (s.blockPacket c.wave .read n (h + c.seen.length) 0 .b128 .rlx 0 [])
  else if b.free = 0 then again
  else if c.seen.length = 32 then
    s.askBlock tile c.id c.wave 1
      (s.blockPacket c.wave .atomic n h 0 .b64 .rlx (ofBytes old) ((b.claimed.bytes).take 8 ++ old))
  else if c.seen.drop 32 = old then
    again.modCmd tile c.id fun c => { c with slot := some (BitVec.ofNat 64 (b.slotAt b.put)), block := some blk }
  else again

/-- A copy that has not been accepted fails while it waits for a slot: its lanes go on, and the failure is delivered as that of an accepted
command is (R204, R210; log 80). -/
def State.failClaim (s : State) (tile : Nat) (c : Cmd) (why : FaultStatus) : State :=
  (s.modCmd tile c.id fun c => { c with state := .failed, why := why }).unaccept c.wave tile c.id

/-- Why a check that fails after issue fails the command. -/
def trapWhy : TrapKind → FaultStatus
  | .protect => .protect
  | .poison => .poison
  | _ => .xlate

/-- Claim a slot: one atomic step on the block where FREE is not zero (R210). A block that is not here yet is asked for, and one that proves
unreadable fails the copy. -/
def State.claim (s : State) (tile id : Nat) : State :=
  match s.cmd? tile id with
  | none => s
  | some c =>
    if !s.claims c then s
    else
      match s.cbOf c.wave c.form.cbn with
      | none => s
      | some blk =>
        match s.reach (s.engineWho c.wave 7 3) blk.toNat 32 32 .rmw with
        | .ok ps pad =>
          let k := Block.of (s.load ps pad)
          if k.free = 0 then s
          else
            ((s.count ps).store ps k.claimed.bytes).modCmd tile id fun c =>
              { c with slot := some (BitVec.ofNat 64 (k.slotAt k.put)), block := some blk }
        | .block _ (some r) => s.cmdMiss tile c (blk.toNat / 65536) r
        | .block (.recall page) none => s.recallFrom page (s.fabric.holders page s.fabric.node true)
        | .remote n h => s.claimFar tile c blk n h
        | .trap k => s.failClaim tile c (trapWhy k)
        | _ => s

/-- The scratch number and first byte a copy moves through: its descriptor's, or its slot's. -/
def Cmd.base (c : Cmd) : Nat × Nat :=
  match c.slot with
  | some a => (bitsOf a.toNat 44 16, a.toNat % 2 ^ 19)
  | none => ((Desc.of c.descA).ltile, (Desc.of c.descA).byte)

/-- The rows of an accepted copy, by its sampled entry. -/
def Cmd.rows (c : Cmd) : List Row :=
  match copyTy c.entry c.form with
  | none => []
  | some ty => copyRows c.entry c.form (Desc.of c.descA) c.base.2 ty (boxOf c.entry c.origin c.extent)

/-- The slice ranges a command reads and writes (R203). -/
def State.cmdRanges (s : State) (c : Cmd) : List SliceRange × List SliceRange :=
  let ctx := (s.wave c.wave).ctx
  let of (lt : Nat) (ps : List Piece) : List SliceRange := ((s.scratchPlace ctx lt).map fun p => p.ranges ps).getD []
  if c.isCopy then
    let mine := of c.base.1 (c.rows.map fun r => (r.b, r.bn))
    if c.kind = .cpyw then (mine, []) else ([], mine)
  else
    let rows := matrixRows c.form (c.kind == .mmasp) (s.wave c.wave).width.lanes c.descA c.descB c.descC
    (rows.flatMap fun r => of r.1.ltile (r.2.2.2.flatMap Rows.list), [])

/-- The accumulator registers of a matrix command that has failed are no longer pending (R204). -/
def Wave.spoil (wv : Wave) (id : Nat) : Wave :=
  { wv with pending := wv.pending.filter fun p => p.2 != id, spoiled := wv.spoiled ++ wv.pending.filter fun p => p.2 == id }

/-- Accept a command whose conditions hold: the entry is sampled and the ranges enter the scoreboard (R201, R203, R205). The
checks of issue are made again where it had to wait; one that fails now fails the command. -/
def State.accept (s : State) (tile id : Nat) : State :=
  match s.cmd? tile id with
  | none => s
  | some c =>
    let busy := ((s.tile tile).cmds.filter fun c => c.state == .accepted).length
    if c.state ≠ .issued ∨ 64 ≤ busy ∨ (c.wantsSlot && c.slot.isNone) ∨ !(s.wave c.wave).resident then s
    else
      let bad : Option TrapKind :=
        if c.isCopy then
          match s.copyCheck c.wave c.form c.kind c.ops c.slot none with
          | .trap k => some k
          | _ => none
        else
          s.matrixCheck (s.engineWho c.wave 6 5)
            (matrixRows c.form (c.kind == .mmasp) (s.wave c.wave).width.lanes c.descA c.descB c.descC)
      let s1 := match bad with
        | some k =>
          (s.modCmd tile id fun c => { c with state := .failed, why := trapWhy k }).modWave c.wave (·.spoil id)
        | none =>
          let c1 := { c with entry := s.entryOf c.wave c.form.tid.toNat }
          let rg := s.cmdRanges c1
          s.modCmd tile id fun c => { c1 with state := .accepted, slot := c.slot, reads := rg.1, writes := rg.2 }
      s1.unaccept c.wave tile id

/-! ## Issue (R200, R204, R213) -/

/-- The failed command that a replayed group stands for. -/
def Grp.again (g : Grp) : Option Nat := g.replay.bind (·.cmd)

/-- Whether the group is not all the threads the command requires: every thread that has not exited, and for a matrix command
every thread of the declared width. -/
def State.partialFor (s : State) (g : Grp) (matrix : Bool) : Bool :=
  let wv := s.wave g.w
  if matrix then wv.width == .w16 || (List.range wv.width.lanes).any fun l => !g.lanes.contains l
  else wv.liveLanes.any fun l => !g.lanes.contains l

/-- Put a new command on the wave's tile. One issued again keeps its slot and what it credited (R204, R296). -/
def State.addCmd (s : State) (g : Grp) (c : Cmd) : State × Nat :=
  let tile := g.src.tile
  let id := (s.tile tile).nextCmd * 192 + tile
  let prev := g.again.bind fun i => (s.tile tile).cmds.find? fun c => c.id == i
  let c1 : Cmd :=
    { c with id := id, slot := prev.bind (·.slot), block := prev.bind (·.block)
             credited := (prev.map (·.credited)).getD 0 }
  let s1 := s.modTile tile fun x =>
    { x with cmds := (x.cmds.filter fun y => g.again != some y.id) ++ [c1], nextCmd := x.nextCmd + 1 }
  (s1.modWave g.w fun wv => { wv with reissued := wv.reissued ++ g.again.toList }, id)

/-- A command before its acceptance. -/
def Grp.newCmd (g : Grp) (kind : CmdKind) (f : EForm) (a b c : W64) (origin extent : List W32) : Cmd :=
  { id := 0, wave := g.w, kind := kind, form := f, pc := g.pc, word := g.word, descA := a, descB := b, descC := c
    origin := origin, extent := extent, state := .issued, entry := 0, slot := none, block := none, reads := [], writes := []
    bar := if kind = .cpy ∨ kind = .cpym then (if f.barLevel = 0 then none else some f.barLevel) else none
    credited := 0, why := .resolved, got := [], sentAll := false, seen := [], moved := 0, missed := [] }

/-- Accept at once what can be; else the lanes wait. -/
def State.start (s : State) (g : Grp) (id : Nat) : State :=
  let tile := g.src.tile
  let s1 := (s.claim tile id).accept tile id
  match s1.cmd? tile id with
  | some c => if c.state = .issued then s1.modLanes g.w g.lanes fun _ t => { t with wait := .accept tile id } else s1
  | none => s1

/-- Where the counter block of a copy has still to be read from, at another node, before the copy can be checked. -/
def State.blockAway (s : State) (g : Grp) (f : EForm) (kind : CmdKind) (slot : Option W64) : Option (Nat × Nat) :=
  if !f.cb || kind == .cpyw || slot.isSome || 32 ≤ g.part.length then none
  else
    (s.cbOf g.w f.cbn).bind fun blk =>
      match s.access (s.engineWho g.w 7 3) blk.toNat 32 32 .rmw with
      | .remote n h => some (n, h)
      | _ => none

/-- The effect of a copy. -/
def copyEffect (f : EForm) (kind : CmdKind) (g0 : Grp) (s : State) : State :=
  let x := g0.copyOps f
  let g := { g0 with caps := g0.lanes.map fun l => (l, x.cap) }
  s.onceFor g fun s l =>
    if g.again.any (s.wave g.w).reissued.contains then (s, .done)
    else if g.again.isNone && g.part.isEmpty && s.partialFor g false then (s, .trap .partialMask)
    else
      let prev := g.again.bind fun i => (s.cmd? g.src.tile i).bind (·.slot)
      match s.blockAway g f kind prev with
      | some (n, h) => s.ask g l (s.blockPacket g.w .read n (h + g.part.length) 0 .b128 .rlx 0 []) g.part
      | none =>
        match s.copyCheck g.w f kind x prev (if g.part.isEmpty then none else some (Block.of g.part)) with
        | .done =>
          let r := s.addCmd g (g.newCmd kind f x.desc 0 0 x.origin x.extent)
          (r.1.start g r.2, .done)
        | e => (s, e)

/-- `cpy`: a box of a tensor into the scratchpad. -/
def execCpy (f : EForm) (s : State) : Out :=
  issue (.cpy f) s (fun g => f.barLevel != 0 && g.omitted f.barLevel) (copyEffect f .cpy)

/-- `cpym`: as `cpy`, then starts the held matrix command. -/
def execCpym (f : EForm) (s : State) : Out :=
  issue (.cpym f) s (fun g => f.barLevel != 0 && g.omitted f.barLevel) (copyEffect f .cpym)

/-- `cpyw`: a box from the scratchpad into the tensor's shadow. -/
def execCpyw (f : EForm) (s : State) : Out := issue (.cpyw f) s lawful (copyEffect f .cpyw)

/-- A held command leaves its slot, its registers no longer pending (R213). -/
def Wave.unholdCmd (wv : Wave) : Wave :=
  match wv.held with
  | none => wv
  | some c => { wv with held := none, pending := wv.pending.filter fun p => p.2 != c.id }

/-- The effect of a matrix instruction. One issued again is accepted without being held. -/
def matrixEffect (f : EForm) (kind : CmdKind) (g : Grp) (s : State) : State :=
  s.onceFor g fun s l =>
    let a := lo64 (g.a l)
    let b := lo64 (g.b l)
    let c := lo64 (g.c l)
    if g.again.any (s.wave g.w).reissued.contains then (s, .done)
    else if g.again.isNone && s.partialFor g true then (s, .trap .partialMask)
    else
      match s.matrixCheck (s.engineWho g.w 6 5) (matrixRows f (kind == .mmasp) g.src.width.lanes a b c) with
      | some k => (s, .trap k)
      | none =>
        let hold := f.hold && g.again.isNone
        let s0 := if hold then s.modWave g.w Wave.unholdCmd else s
        let r := s0.addCmd g (g.newCmd kind f a b c [] [])
        let s1 := r.1.modWave g.w fun wv => { wv with pending := wv.pending ++ [(mmaAcc f, r.2)] }
        if hold then
          let s2 := s1.modWave g.w fun wv => { wv with held := s1.cmd? g.src.tile r.2 }
          (s2.dropCmd g.src.tile r.2, .done)
        else (s1.start g r.2, .done)

/-- `mma`: a dense matrix product on the tile's slice (R211, R212). -/
def execMma (f : EForm) (s : State) : Out := issue (.mma f) s lawful (matrixEffect f .mma)

/-- `mmasp`: as `mma`, with a sparse operand A (R214). -/
def execMmasp (f : EForm) (s : State) : Out := issue (.mmasp f) s lawful (matrixEffect f .mmasp)

/-! ## What a running command needs -/

/-- The physical base of the buffer a copy uses: the active one, or the shadow (R205). -/
def Cmd.buffer (c : Cmd) : Nat := tBase c.entry (tSide c.entry != (c.kind == .cpyw))

/-- Physical stretches of a row in the tensor, each within a page. -/
def Cmd.parts (c : Cmd) (r : Row) : List Piece := stretches (r.tn / 65536 + 2) (c.buffer + r.t) r.tn

def Cmd.mode (c : Cmd) : Mode := if c.kind = .cpyw then .write else .read

/-- Steps 8, 10 and 11 of R174 on a stretch of a tensor (R205); its virtual address is the one its window gives it (R216, R289). -/
def State.partAccess (s : State) (c : Cmd) (q : Piece) : Acc :=
  let who := s.engineWho c.wave 7 (if c.kind = .cpyw then 6 else 5)
  s.permit who c.mode false true (windowBase + c.form.tid.toNat * 2 ^ 40 + (q.1 - c.buffer)) q.1 q.2 (s.locate who q.1 q.2)

/-- Whether a range lies in banks that can be reached now. -/
def State.rangeReachable (s : State) (r : SliceRange) : Bool :=
  (List.range ((r.lo % 16384 + r.len + 16383) / 16384)).all fun i => (s.tile r.tile).reachable (r.lo / 16384 + i)

def SliceRange.piece (r : SliceRange) : Piece := (sliceKey r.tile r.lo, r.len)

/-- Whether an earlier accepted command of the tile holds a command back (R203). -/
def State.heldBack (s : State) (tile : Nat) (c : Cmd) : Bool :=
  ((s.tile tile).cmds.takeWhile fun d => d.id != c.id).any fun d =>
    d.holds (c.reads.map SliceRange.piece) false || d.holds (c.writes.map SliceRange.piece) true

/-- How a running command stands. -/
inductive Verdict where
  | wait
  | ready
  | fail (why : FaultStatus)
  deriving DecidableEq, Repr

/-- Whether the lines of a stretch at another node have come. -/
def Cmd.has (c : Cmd) (q : Piece) : Bool := (Piece.lines q).all fun p => c.got.any fun e => e.1 == p.1 / 64

/-- The verdict on one stretch. -/
def State.partVerdict (s : State) (c : Cmd) (q : Piece) : Verdict :=
  match s.partAccess c q with
  | .ok _ _ => .ready
  | .trap k => .fail (trapWhy k)
  | .remote _ _ => if c.kind = .cpyw || c.has q then .ready else .wait
  | _ => .wait

/-- The worse of two verdicts: a failure stops the command at once. -/
def Verdict.and (a b : Verdict) : Verdict :=
  match a, b with
  | .fail w, _ => .fail w
  | _, .fail w => .fail w
  | .ready, .ready => .ready
  | _, _ => .wait

/-- Whether a command moves through the region of a team that an image holds (R303). -/
def State.cmdFrozen (s : State) (c : Cmd) : Bool :=
  let ctx := (s.wave c.wave).ctx
  if c.isCopy then s.scratchFrozen ctx c.base.1
  else [c.descA, c.descB, c.descC].any fun d => s.scratchFrozen ctx (Desc.of d).ltile

/-- The rows that a copy has still to move (R301). -/
def Cmd.rowsLeft (c : Cmd) : List Row := c.rows.drop c.moved

/-- The slice bytes that a command has still to read (R325). -/
def State.readsLeft (s : State) (c : Cmd) : List Piece :=
  match c.kind, s.scratchPlace (s.wave c.wave).ctx c.base.1 with
  | .cpyw, some p => c.rowsLeft.map fun r => (p.key r.b, r.bn)
  | _, _ => c.reads.map SliceRange.piece

/-- Whether a command may perform its reads and writes, must wait, or fails. -/
def State.verdict (s : State) (tile : Nat) (c : Cmd) : Verdict :=
  if s.heldBack tile c || s.cmdFrozen c || !((c.reads ++ c.writes).all s.rangeReachable) then .wait
  else if s.poisoned (s.readsLeft c) then .fail .poison
  else if c.isCopy then
    (c.rowsLeft.flatMap c.parts).foldl (fun (v : Verdict) q => v.and (s.partVerdict c q)) .ready
  else .ready

/-- Requests of a command that have no reply yet. -/
def State.cmdReqs (s : State) (tile id : Nat) : List RemoteReq :=
  s.fabric.reqs.filter fun r => r.tile == tile &&
    match r.use with
    | .cmd x _ => x == id
    | _ => false

/-- A request of a command to another node. -/
def State.askCmd (s : State) (tile : Nat) (c : Cmd) (line : Nat) (p : Packet) : State :=
  ((s.requestFor tile c.wave 0 [] (.cmd c.id line) p).map (·.1)).getD s

/-- A running copy asks for what it has not got: records for absent pages, and lines of pages at other nodes. DESIGN CHOICE
(log 13): it reads a line with a WRITE packet without payload, whose acknowledgement brings the line. -/
def State.engineAsk (s : State) (tile id : Nat) : State :=
  match s.cmd? tile id with
  | none => s
  | some c =>
    if c.state ≠ .accepted ∨ !c.isCopy then s
    else
      (c.rowsLeft.flatMap c.parts).foldl (fun s q =>
        match s.partAccess c q with
        | .block _ (some r) => s.cmdMiss tile c (q.1 / 65536) r
        | .block (.recall page) none => s.recallFrom page (s.fabric.holders page s.fabric.node true)
        | .remote n h =>
          if c.kind = .cpyw then s
          else
            (Piece.lines q).foldl (fun s p =>
              let line := p.1 / 64
              if c.got.any (fun e => e.1 == line) || (s.cmdReqs tile id).any (fun r => r.use == .cmd id line) then s
              else s.askCmd tile c line (s.packet (s.waveWorld c.wave) .write n ((h + (p.1 - q.1)) / 64 * 64))) s
        | _ => s) s

/-! ## The bytes a command moves -/

/-- Elements of one type as elements of another (R207); equal types move bits. -/
def convertBytes (src dst : Ty) (bs : List Byte) : List Byte :=
  if src = dst then bs
  else
    (List.range (bs.length / src.bytes)).flatMap fun i =>
      let raw := ofBytes ((bs.drop (i * src.bytes)).take src.bytes)
      toBytes (floatTo dst src .rne (fdecode src raw) raw 0).1 dst.bytes

/-- The bytes of a stretch of a tensor: in this package, or as other nodes sent them. -/
def State.partBytes (s : State) (c : Cmd) (q : Piece) : List Byte :=
  match s.partAccess c q with
  | .ok ps _ => Memory.readPieces s.mem ps
  | _ =>
    (Piece.lines q).flatMap fun p =>
      ((((c.got.find? fun e => e.1 == p.1 / 64).map (·.2)).getD []).drop (p.1 % 64)).take p.2

/-- The plain bytes of a row of a tensor. -/
def State.rowIn (s : State) (c : Cmd) (r : Row) : List Byte :=
  s.unpad (if tSealed c.entry then some (c.form.tid.toNat, c.entry, r.t) else none) ((c.parts r).flatMap (s.partBytes c))

/-- The bytes a row of a tensor's shadow takes: padded under the next VERSION (R205). -/
def State.rowOut (s : State) (c : Cmd) (r : Row) (bs : List Byte) : List Byte :=
  if tSealed c.entry then s.padded c.form.tid.toNat c.entry ((tVersion c.entry + 1) % 2 ^ 48) r.t bs else bs

/-- Write a row of a shadow: the stretches in this package, and packets for those at other nodes. -/
def State.putRow (s : State) (tile : Nat) (c : Cmd) (r : Row) (bs : List Byte) : State :=
  ((c.parts r).foldl (fun (a : State × List Byte) q =>
    let s' := match a.1.partAccess c q with
      | .ok ps _ => (a.1.count ps).store ps (a.2.take q.2)
      | .remote n h =>
        (((Piece.lines q).foldl (fun (x : State × List Byte) p =>
          let pk := x.1.packet (x.1.waveWorld c.wave) .write n (h + (p.1 - q.1))
          (x.1.askCmd tile c (p.1 / 64) { pk with data := x.2.take p.2 }, x.2.drop p.2)) (a.1, a.2))).1
      | _ => a.1
    (s', a.2.drop q.2)) (s, bs)).1

/-- Perform one row of a copy. -/
def State.moveRow (s : State) (tile : Nat) (c : Cmd) (r : Row) : State :=
  match s.scratchPlace (s.wave c.wave).ctx c.base.1 with
  | none => s
  | some p =>
    if c.kind = .cpyw then
      s.putRow tile c r (s.rowOut c r (convertBytes r.dst r.src (Memory.bytes s.mem (p.key r.b) r.bn)))
    else
      let s1 := (c.parts r).foldl (fun s q =>
        match s.partAccess c q with
        | .ok ps _ => s.count ps
        | _ => s) s
      s1.store [(p.key r.b, r.bn)] (convertBytes r.src r.dst (s.rowIn c r))

/-- Credit bytes to the barrier of a command's level (R209). -/
def State.credit (s : State) (c : Cmd) (n : Nat) : State :=
  match c.bar with
  | none => s
  | some level =>
    let r := s.barrierFor c.wave level
    r.1.modBarrier r.2 fun b => { b with balance := b.balance - ((n - c.credited : Nat) : Int) }

/-- One try at a rise of FILLED that is due (R210): performed where the block can be reached, sent where it lies at another node, kept
where it is not here yet. A block that can never be reached is given up. -/
def State.tryFill (s : State) (tile : Nat) (f : Fill) : State :=
  let drop (s : State) : State := s.modTile tile fun x => { x with fills := x.fills.filter fun y => y.id != f.id }
  if f.asked then s
  else
    match s.access (s.engineWho f.wave 7 3) f.block.toNat 32 32 .rmw with
    | .ok ps pad =>
      let k := Block.of (s.load ps pad)
      drop ((s.count ps).store ps (Block.bytes { k with filled := (k.filled + 1) % 2 ^ 32 }))
    | .remote n h =>
      (s.askBlock tile f.id f.wave 2 (s.blockPacket f.wave .atomic n (h + 8) 1 .u32 .rel 0 (toBytes 1 4))).modTile tile fun x =>
        { x with fills := x.fills.map fun y => if y.id = f.id then { y with asked := true } else y }
    | .block _ (some r) => s.postOnce (.cbSlotClaim tile f.id) r
    | .block (.recall page) none => s.recallHome page
    | .block _ none => s
    | _ => drop s

/-- FILLED is to rise by one (R210). -/
def State.fillSlot (s : State) (tile : Nat) (c : Cmd) : State :=
  match c.block with
  | none => s
  | some blk =>
    let f : Fill := ⟨c.id, c.wave, blk, false⟩
    (s.modTile tile fun x => { x with fills := x.fills ++ [f] }).tryFill tile f

/-- Whether the counter block a command claims from can be reached here now: CB_SLOT_CLAIM then makes the claim. -/
def State.claimHere (s : State) (c : Cmd) : Bool :=
  match s.cbOf c.wave c.form.cbn with
  | none => true
  | some blk =>
    match s.reach (s.engineWho c.wave 7 3) blk.toNat 32 32 .rmw with
    | .ok .. => true
    | _ => false

/-- A tile's engine goes on with what waits for counter blocks: the claims of its commands that lie at other nodes, and the rises of
FILLED (R210, R296). -/
def State.stepBlocks (s : State) (tile : Nat) : State :=
  let s1 := (s.tile tile).cmds.foldl (fun s c => if s.claims c && !s.claimHere c then s.claim tile c.id else s) s
  (s1.tile tile).fills.foldl (fun s f => s.tryFill tile f) s1

/-- Keys a copy has written in this package. -/
def State.written (s : State) (c : Cmd) : List Piece :=
  if c.kind = .cpyw then
    (c.rows.flatMap c.parts).flatMap fun q =>
      match s.partAccess c q with
      | .ok ps _ => ps
      | _ => []
  else c.writes.map SliceRange.piece

/-- Lines every byte of which the writes of one command cover lose their poison (R298). -/
def State.cleanse (s : State) (ps : List Piece) : State :=
  { s with poison := s.poison.filter fun l =>
      !((List.range 64).all fun i => ps.any fun p => decide (p.1 ≤ 64 * l + i) && decide (64 * l + i < p.1 + p.2)) }

/-! ## Matrix products (R212, R214) -/

/-- An element of an operand in the region. -/
def State.matElem (s : State) (key : Nat → Nat) (d : Desc) (len : Nat) (t : Ty) (row i : Nat) : Flt :=
  fdecode t (Memory.read s.mem (key (d.byte + row * d.rowPitch len + i * t.bytes)) t.bytes)

/-- The scale of a group of 32 of an operand's row: 127 where SOFF is 0. -/
def State.matScale (s : State) (key : Nat → Nat) (d : Desc) (k row grp : Nat) : Nat :=
  if d.soff = 0 then 127 else Memory.read s.mem (key (d.byte + d.soff + row * (k / 32) + grp)) 1

/-- Row `i` of operand A, dense. -/
def State.matRow (s : State) (c : Cmd) (key : W64 → Nat → Nat) (i : Nat) : List Flt :=
  let f := c.form
  let k := (mmaK f.atype f.btype).getD 0
  let da := Desc.of c.descA
  let len := aRowBytes f (c.kind == .mmasp)
  let elem (n : Nat) : Flt := s.matElem (key c.descA) da len f.atype i n
  if c.kind = .mmasp then
    let dc := Desc.of c.descC
    let kc := key c.descC
    sparseRow k (Memory.read s.mem (kc dc.byte) 16)
      (fun q => Memory.read s.mem (kc (dc.byte + 16 + i * dc.rowPitch ((k + 3) / 4) + q)) 1) elem
  else (List.range k).map elem

/-- C'(i, j). -/
def State.matResult (s : State) (c : Cmd) (key : W64 → Nat → Nat) (i j : Nat) : Nat :=
  let f := c.form
  let k := (mmaK f.atype f.btype).getD 0
  let t := (s.wave c.wave).thread j
  let acc : Nat :=
    if f.zero then 0
    else if f.atype = .f64 then (t.dv (f.d.toNat + 2 * i)).toNat
    else (t.v (f.d.toNat + i)).toNat
  let db := Desc.of c.descB
  let b (n : Nat) : Flt := s.matElem (key c.descB) db (k * f.btype.bytes) f.btype j n
  matrixElement f.atype acc ((s.matRow c key i).zip ((List.range k).map b))
    (fun g => s.matScale (key c.descA) (Desc.of c.descA) k i g) (fun g => s.matScale (key c.descB) db k j g)

/-- Write every accumulator register, which becomes general (R212, R13). -/
def State.matrixWrite (s : State) (c : Cmd) : State :=
  let wv := s.wave c.wave
  let f := c.form
  let wide := f.atype == .f64
  let key (d : W64) (b : Nat) : Nat :=
    match s.scratchPlace wv.ctx (Desc.of d).ltile with
    | some p => p.key b
    | none => sliceKey wv.tile b
  let lanes := List.range wv.width.lanes
  let put (j : Nat) (t : Thread) : Thread :=
    (List.range 32).foldl (fun t i =>
      let x := s.matResult c key i j
      if wide then t.setWords (f.d.toNat + 2 * i) 2 (BitVec.ofNat 128 x) else t.setV (f.d.toNat + i) (BitVec.ofNat 32 x)) t
  s.modWave c.wave fun w0 =>
    let w1 := (w0.modLanes lanes put).retag lanes f.d.toNat (if wide then 64 else 32) fun _ => .general
    { w1 with pending := w1.pending.filter fun p => p.2 != c.id }

/-! ## Finish -/

/-- Lanes that wait for commands look again: those of `cwait`, `publ` and `exit` of the wave, and those the scoreboard held. -/
def State.wakeFor (s : State) (w tile id : Nat) : State :=
  { s with waves := s.waves.mapIdx fun i wv =>
      { wv with threads := wv.threads.map fun t =>
          match t.wait with
          | .scoreboard x c => if x = tile ∧ c = id then { t with wait := .none } else t
          | .cwait _ | .publ _ => if i = w then { t with wait := .none } else t
          | _ => t } }

/-- A copy that has moved its bytes: credits, the slot, and the held command (R209, R210, R213). -/
def State.copyDone (s : State) (tile : Nat) (c : Cmd) : State :=
  let n := (c.rows.map (·.bn)).foldl (· + ·) 0
  let s1 := ((s.cleanse (s.written c)).credit c n).fillSlot tile c
  let s2 := s1.dropCmd tile c.id
  match (s2.wave c.wave).held with
  | some h =>
    if c.kind = .cpym then
      let s3 := (s2.modWave c.wave fun wv => { wv with held := none }).modTile tile fun x => { x with cmds := x.cmds ++ [h] }
      s3.accept tile h.id
    else s2
  | none => s2

/-- Clocks that a matrix command takes (R212): 32 per block of 32 columns. -/
def Cmd.clocks (c : Cmd) (columns : Nat) : Nat := if c.isCopy then c.rows.length else 32 * ((columns + 31) / 32)

/-- The steps in which a command runs: the rows of a copy, the clocks of a matrix command. -/
def State.cmdSteps (s : State) (c : Cmd) : Nat := c.clocks (s.wave c.wave).width.lanes

/-- A clock of a running command: a copy lands one more row, and a matrix command is one clock further (R301, R325). -/
def State.clockCmd (s : State) (tile : Nat) (c : Cmd) : State :=
  if c.state ≠ .accepted ∨ c.sentAll ∨ s.cmdSteps c ≤ c.moved ∨ s.verdict tile c ≠ .ready then s
  else
    let s1 := if c.isCopy then (c.rowsLeft.take 1).foldl (fun s r => s.moveRow tile c r) s else s
    s1.modCmd tile c.id fun c => { c with moved := c.moved + 1 }

/-- A clock of a tile's copy engine and matrix units. -/
def State.clockCmds (s : State) (tile : Nat) : State := (s.tile tile).cmds.foldl (fun s c => s.clockCmd tile c) s

/-- COMMAND_FINISH: the command performs what is left of its reads and writes, once all that it needs is there. A copy to other nodes sends its
packets first, and finishes with their acknowledgements. -/
def execCommandFinish (tile cmd : Nat) (s : State) : Out :=
  match s.cmd? tile cmd with
  | none => .next s
  | some c =>
    if c.state ≠ .accepted ∨ s.verdict tile c ≠ .ready then .next s
    else if !c.isCopy then .next (((s.matrixWrite c).dropCmd tile cmd).wakeFor c.wave tile cmd)
    else if !c.sentAll then
      let s1 := (c.rowsLeft.foldl (fun s r => s.moveRow tile c r) s).modCmd tile cmd fun c => { c with sentAll := true }
      if (s1.cmdReqs tile cmd).isEmpty then .next ((s1.copyDone tile c).wakeFor c.wave tile cmd) else .next s1
    else if (s.cmdReqs tile cmd).isEmpty then .next ((s.copyDone tile c).wakeFor c.wave tile cmd)
    else .next s

/-- Whether a command has run all its steps, and COMMAND_FINISH has what is left to do. -/
def State.finishable (s : State) (tile : Nat) (c : Cmd) : Bool :=
  c.state == .accepted && decide (s.cmdSteps c ≤ c.moved) && (!c.sentAll || (s.cmdReqs tile c.id).isEmpty) &&
    s.verdict tile c == .ready

/-- CB_SLOT_CLAIM: a command that waits for a slot claims one. -/
def execCbSlotClaim (tile cmd : Nat) (s : State) : Out := .next (s.claim tile cmd)

/-- COMMAND_ACCEPT: a command whose conditions hold is accepted. -/
def execCommandAccept (tile cmd : Nat) (s : State) : Out := .next (s.accept tile cmd)

/-- Whether a claim can be made now. -/
def State.claimable (s : State) (_tile : Nat) (c : Cmd) : Bool :=
  s.claims c &&
  match s.cbOf c.wave c.form.cbn with
  | none => false
  | some blk =>
    match s.reach (s.engineWho c.wave 7 3) blk.toNat 32 32 .rmw with
    | .ok ps pad => (Block.of (s.load ps pad)).free != 0
    | _ => false

/-- Whether a command can be accepted now. -/
def State.acceptable (s : State) (tile : Nat) (c : Cmd) : Bool :=
  c.state == .issued && !(c.wantsSlot && c.slot.isNone) && (s.wave c.wave).resident &&
  decide (((s.tile tile).cmds.filter fun c => c.state == .accepted).length < 64)

/-! ## Failure (R204) -/

/-- Whether a lane stands at an instruction that takes the failure of a command now: one that the scoreboard held, a `cwait` or
the last `exit`, or a `bar` or `barw` that has arrived at the level the command credits. -/
def State.waitsFor (s : State) (tile : Nat) (c : Cmd) (t : Thread) : Bool :=
  match t.wait with
  | .scoreboard x id => x == tile && id == c.id
  | .cwait none => true
  | .cwait (some tid) => tid == c.form.tid.toNat && c.isCopy
  | .bar b _ => c.bar == some (s.barrier b).level
  | _ => false

/-- Whether a lane that shares an instruction with one that waits for a failed command can be stopped now: it waits with nothing on its way
to another node. -/
def Thread.stoppable (t : Thread) : Bool :=
  match t.wait with
  | .none | .bar _ _ | .waitp _ _ | .cbacq _ _ | .fault _ _ | .page _ _ | .recall _ | .walker _ | .tag _ | .array _ | .scoreboard _ _
  | .cwait _ => true
  | _ => false

/-- Deliver a failure to the standing lanes of its wave that wait for it, at the earliest of their instructions: to all the lanes that executed
it (R204). Those that have completed it keep what they committed, and nothing of it is left for them (R176). DEDUCED (log 80): a lane whose
request is on its way to another node finishes it. -/
def State.deliverFailure (s : State) (tile : Nat) (c : Cmd) : State :=
  let wv := s.wave c.wave
  let at_ := (List.range wv.threads.length).filter fun l => s.waitsFor tile c (wv.thread l)
  let heads := at_.filterMap fun l => (wv.thread l).redo.head?
  let first := heads.foldl (fun (m : Option Redo) r =>
    match m with
    | some x => if r.issued < x.issued then some r else m
    | none => some r) none
  match first with
  | none => s
  | some h =>
    let stands (l : Nat) : Bool := ((wv.thread l).redo.head?).any fun r => r.pc == h.pc && r.word == h.word && r.issued == h.issued
    let here := (List.range wv.threads.length).filter fun l => stands l && (wv.thread l).stoppable
    let done := (List.range wv.threads.length).filter fun l =>
      !stands l && (wv.thread l).wait == .none && (wv.thread l).hold.any fun x => at_.contains x && here.contains x
    let lanes := here ++ done
    let g : Grp :=
      { w := c.wave, pc := h.pc, word := h.word, shape := Shape.blank, all := lanes, lanes := lanes, src := wv, replay := some h
        caps := lanes.filterMap fun l => ((wv.thread l).redo.head?).map fun r => (l, r.cap), part := [] }
    let s1 := s.modLanes c.wave here fun _ t => { t with redo := t.redo.tail }
    let only (l : Nat) : Bool := ((wv.thread l).redo.head?).any (·.waitOnly)
    (s1.failAt g c lanes only done.contains).modWave c.wave fun w => (w.unhold lanes).modLanes done fun _ t => { t with hold := [] }

/-- An accepted command fails after `landed` of its bytes: what it has written stays, its entry is released, and the failure is
delivered where an instruction of its wave waits for it. -/
def State.failCmd (s : State) (tile cmd landed : Nat) (why : FaultStatus) : State :=
  match s.cmd? tile cmd with
  | none => s
  | some c =>
    if c.state ≠ .accepted ∨ why = .resolved then s
    else
      let rows := if c.isCopy then c.rowsLeft else []
      let there := if c.isCopy then ((c.rows.take c.moved).map (·.bn)).foldl (· + ·) 0 else 0
      let r := rows.foldl (fun (a : State × Nat) r =>
        if a.2 + r.bn ≤ landed ∧ (c.parts r).all (fun q => a.1.partVerdict c q == .ready) then (a.1.moveRow tile c r, a.2 + r.bn)
        else a) (s, there)
      let n := r.2
      let c1 := { c with state := .failed, why := why, credited := max c.credited n, reads := [], writes := [] }
      let s1 := ((r.1.credit c n).modCmd tile cmd fun _ => c1).modWave c.wave (·.spoil c.id)
      (s1.deliverFailure tile c1).wakeFor c.wave tile cmd

/-- COMMAND_FAILURE: an accepted command fails (R204). -/
def execCommandFailure (tile cmd landed : Nat) (why : FaultStatus) (s : State) : Out := .next (s.failCmd tile cmd landed why)

/-- Commands whose failure was delivered and which nothing will issue again are abandoned: a slot they claimed is marked filled
as it stands (R204, R296). -/
def State.abandon (s : State) (tile : Nat) : State :=
  (s.tile tile).cmds.foldl (fun s c =>
    if c.state == .delivered && !(s.wave c.wave).remembers c.id then
      ((s.fillSlot tile c).dropCmd tile c.id).wakeFor c.wave tile c.id else s) s

/-! ## `cwait` (R215) -/

/-- The effect of `cwait`: the failure of a command it waits for is taken here; unfinished ones are waited for. -/
def cwaitEffect (f : EForm) (g : Grp) (s : State) : State :=
  let named (c : Cmd) : Bool := !f.one || (c.isCopy && c.form.tid == f.tid)
  match s.failedCmd g.w named with
  | some c => s.failAt g c g.lanes fun _ => false
  | none =>
    if (s.waveCmds g.w).any fun c => c.state == .accepted && named c then
      g.lanes.foldl (fun s l => s.block g l (.cwait (if f.one then some f.tid.toNat else none))) s
    else s

/-- `cwait`: waits for the wave's accepted commands. -/
def execCwait (f : EForm) (s : State) : Out := issue (.cwait f) s lawful (cwaitEffect f)

end Sys2Proof.Machine
end

