-- ==== Sys2Proof/Machine/Issue.lean ====
section
/-! DEFINITION. Issue within a partition (R149, R266 to R269) and the counting of long waits (R270, R271). -/

namespace Sys2Proof.Machine

/-! ## Issue groups (R70, R72) -/

/-- The issue groups. -/
inductive IssueGroup where
  | V | S | F | M | E | C | N | X
  deriving DecidableEq, Repr

/-- The issue group of an instruction (R70). -/
def issueGroup (i : Instr) : IssueGroup :=
  if i.shape.hd.s then .S
  else
    match i with
    | .nop => .N
    | .fdiv _ | .fsqrt _ | .frcp _ | .frsq _ | .fex2 _ | .flg2 _ | .fsin _ | .fcos _ => .F
    | .bra _ | .call _ | .brx _ | .callx _ | .ret _ => .C
    | .join _ | .yield _ | .exit _ | .hpush _ | .perf _ | .trap _ | .hpop _ | .resumet _ | .resumec _ | .resumek _
    | .dropt _ | .tinfo _ | .fence _ | .waitp _ | .icinv _ | .bar _ | .bara _ | .barw _ | .cbdef _ | .cbacq _ | .cbrel _
    | .ifence _ | .cwait _ | .publ _ | .cctl _ | .halt _ => .X
    | .ld _ | .st _ | .ldp _ | .stp _ | .ldt _ | .pref _ | .nameof _ | .atom _ | .atomc _ | .red _ | .rstf _
    | .exadd _ | .exclr _ | .exrnd _ => .M
    | .cpy _ | .cpym _ | .cpyw _ | .mma _ | .mmasp _ | .tset _ | .tget _ | .tseal _ => .E
    | _ => .V

/-! ## Groups of a wave -/

/-- Whether two lanes stand at one instruction to be performed again. -/
def Redo.same (a b : Redo) : Bool :=
  a.pc == b.pc && a.word == b.word && a.issued == b.issued && a.cmd == b.cmd && a.waitOnly == b.waitOnly &&
    a.late == b.late && a.slot == b.slot && a.entry == b.entry

/-- Whether two lanes belong to one group: by PC, or by the entry they replay. -/
def Thread.with_ (a b : Thread) : Bool :=
  match a.redo, b.redo with
  | [], [] => a.pc == b.pc
  | x :: _, y :: _ => x.same y
  | _, _ => false

/-- The slot of the group that holds a lane. -/
def Wave.slotOf (wv : Wave) (w l : Nat) : Slot :=
  let t := wv.thread l
  let lanes := (List.range wv.threads.length).filter fun k => (wv.thread k).runs && t.with_ (wv.thread k)
  match t.redo.head? with
  | none => { wave := w, pc := t.pc, lanes := lanes, snap := none, replay := none, caps := [], follow := false }
  | some r =>
    { wave := w, pc := r.pc, lanes := lanes, snap := none, replay := some r
      caps := lanes.filterMap fun k => ((wv.thread k).redo.head?).map fun r => (k, r.cap), follow := false }

/-- The groups of a wave, each by its first lane. -/
def Wave.slots (wv : Wave) (w : Nat) : List Slot :=
  ((List.range wv.threads.length).filter fun l =>
    (wv.thread l).runs && (List.range l).all fun k => !((wv.thread k).runs && (wv.thread k).with_ (wv.thread l))).map (wv.slotOf w)

/-- The instruction of a slot, where it decodes. -/
def State.slotInstr (s : State) (sl : Slot) : Option Instr :=
  match s.slotWord sl with
  | .word w => (decode w).toOption
  | _ => none

/-- Entries of a wave's trap queue (R37). DESIGN CHOICE (log 76): a delivered entry, whose token is unsettled, does not count among the 64, and
an instruction issued while the queue holds fewer than 64 adds every entry it raises. -/
def Wave.queued (wv : Wave) : Nat := (wv.trapq.filter fun e => !e.delivered).length

/-- Whether a lane's instruction still takes issue cycles of its slot (R269). -/
def State.passing (s : State) (sl : Slot) : Bool :=
  (s.tile (s.wave sl.wave).tile).passes.any fun p => p.wave == sl.wave && p.lanes.any sl.lanes.contains

/-- Whether a slot goes on with an access that has been issued: what a full trap queue stops is further issue (R37). -/
def Slot.goesOn (sl : Slot) (wv : Wave) : Bool :=
  sl.replay.any fun r => r.late || wv.trapq.any fun e => e.waits && e.issued == r.issued && e.pc == r.pc

/-- Whether a group can issue: its operands are available (R266), no pending accumulator being named, or the failure of its command
being due; its wave's trap queue is not full (R37); and its last instruction has taken its issue cycles (R269). -/
def State.slotReady (s : State) (sl : Slot) : Bool :=
  let wv := s.wave sl.wave
  if (decide (64 ≤ wv.queued) && !sl.goesOn wv) || s.passing sl then false
  else if wv.pending.isEmpty then true
  else
    match s.slotInstr sl with
    | none => true
    | some i =>
      let ids := wv.pendingFor i
      ids.isEmpty || (s.failedCmd sl.wave fun c => ids.contains c.id).isSome

/-- The ready groups of a wave. -/
def State.readySlots (s : State) (w : Nat) : List Slot := ((s.wave w).slots w).filter s.slotReady

/-! ## Hardware waves (R266, R269) -/

/-- The waves of a partition. -/
def State.partWaves (s : State) (tile part : Nat) : List Nat :=
  (List.range s.waves.length).filter fun w =>
    let wv := s.wave w
    wv.resident && wv.tile == tile && wv.part == part

/-- The waves that share a wave's hardware slot: two of width 16 may, lanes 0 to 15 first. -/
def State.packed (s : State) (w : Nat) : List Nat :=
  let wv := s.wave w
  let mates := (s.partWaves wv.tile wv.part).filter fun x => (s.wave x).half / 2 == wv.half / 2
  (mates.filter fun x => (s.wave x).half % 2 == 0) ++ mates.filter fun x => (s.wave x).half % 2 != 0

/-- The hardware waves of a partition, each by its first wave. -/
def State.hwWaves (s : State) (tile part : Nat) : List Nat :=
  (s.partWaves tile part).filter fun w => (s.packed w).head? == some w

/-- The ready groups of a hardware wave. -/
def State.hwSlots (s : State) (w : Nat) : List Slot := (s.packed w).flatMap s.readySlots

/-- Change each wave of a hardware wave. -/
def State.modHw (s : State) (w : Nat) (f : Wave → Wave) : State := (s.packed w).foldl (fun s x => s.modWave x f) s

/-! ## The vote (R149, R267, R268) -/

/-- Whether `yield` still passes a group over (R149; log 64). -/
def State.passedOver (s : State) (sl : Slot) : Bool := sl.lanes.all fun l => (s.thread sl.wave l).passed != 0

/-- The slots that the vote counts: a group that `yield` passes over is left out while another of its wave is ready. DESIGN CHOICE (log 64):
where every ready group of the wave is passed over, which R149 does not settle, all of them compete. -/
def State.voters (s : State) (w : Nat) : List Slot :=
  (s.packed w).flatMap fun x =>
    let all := s.readySlots x
    let open_ := all.filter fun sl => !s.passedOver sl
    if open_.isEmpty then all else open_

/-- The slot with the lowest PC, the first of equals. -/
def lowest (l : List Slot) : Option Slot :=
  l.foldl (fun (m : Option Slot) sl =>
    match m with
    | some x => if sl.pc.toNat < x.pc.toNat then some sl else m
    | none => some sl) none

/-- The oldest promoted group among slots, over the packed waves. -/
def State.promoted (s : State) (w : Nat) (l : List Slot) : Option Slot :=
  let found := (s.packed w).flatMap fun x => ((s.wave x).groups.filter (·.promoted)).filterMap fun h =>
    (l.find? fun sl => sl.wave == x && sl.pc == h.pc).map fun sl => (h.since, sl)
  (found.foldl (fun (m : Option (Nat × Slot)) e =>
    match m with
    | some x => if e.1 < x.1 then some e else m
    | none => some e) none).map (·.2)

/-- What takes slot 0 of a hardware wave. -/
def State.slot0 (s : State) (w : Nat) : Option Slot :=
  let l := s.voters w
  (s.promoted w l).orElse fun _ => lowest l

/-- The issue group of an instruction, where it decodes. -/
def groupOr (i : Option Instr) : IssueGroup := (i.map issueGroup).getD .V

/-- Whether instructions of two groups may issue in one cycle (R267). -/
def together (x y : IssueGroup) : Bool := x != .X && y != .X && !(x == y && (x == .S || x == .F || x == .E))

/-- Another group of the same hardware wave for slot 1, beside an instruction of slot 0. -/
def State.slot1 (s : State) (w : Nat) (a : Option Slot) (op : Option Instr) : Option Slot :=
  (lowest ((s.voters w).filter fun sl => some sl != a)).filter fun b => together (groupOr op) (groupOr (s.slotInstr b))

/-- The blocks that a group's lanes lie in. -/
def State.blocksOf (s : State) (sl : Slot) : Nat :=
  let wv := s.wave sl.wave
  (wv.blocks.filter (wv.touches sl.lanes)).length

/-- Whether an instruction reads `%fpflags`, which waits for what its group has set (R123). -/
def readsFlags : Instr → Bool
  | .rdsr f => f.imm.toNat == 0x30
  | _ => false

/-- The registers an instruction writes: D, the carry of `iaddc` (R107), and the accumulator of a matrix
command. -/
def written (i : Instr) : List RegRange :=
  i.shape.d.ranges ++
    match i with
    | .iaddc _ => i.shape.c.ranges
    | .mma f | .mmasp f => [mmaAcc f]
    | _ => []

/-- Whether an instruction keeps what the first of a pair writes (R72, R123). -/
def keepsApart (a b : Instr) : Bool :=
  issueGroup a != issueGroup b && issueGroup a != .X && issueGroup b != .X && !readsFlags b &&
    !((written a).any fun r => b.shape.ranges.any r.meets)

/-- Whether a comparator is armed at a PC (R312). -/
def Tile.armed (t : Tile) (n : Nat) (pc : W64) : Bool :=
  let x := t.fzpc.getD n 0
  x.getLsbD 0 && decide (x.toNat / 2 = pc.toNat / 2)

/-- The lanes that the first of a pair leaves for the second: beside a transfer, those whose guard is false, whatever the target of the others
(R72). DESIGN CHOICE (log 77): where some lanes take the transfer and others do not, the second issues for the others. -/
def State.pairLanes (s : State) (a : Slot) (i : Instr) : List Nat :=
  if issueGroup i = .C then a.lanes.filter fun l => ((s.wave a.wave).thread l).p i.shape.hd.pg.toNat == i.shape.hd.pn else a.lanes

/-- The next slot of slot 0's group, where PAIR permits it (R49, R72). One at which a comparator is armed issues by itself, since the first
may be a transfer that discards it (R312). -/
def State.pairOf (s : State) (a : Slot) : Option Slot :=
  let next : Slot := { a with pc := nextPc a.pc, follow := true }
  if a.replay.isSome || s.blocksOf a != 1 || pcSlot a.pc == 4 ||
    (List.range 4).any fun n => (s.tile (s.wave a.wave).tile).armed n next.pc then none
  else
    match s.slotInstr a, s.slotInstr next with
    | some i, some j =>
      let lanes := s.pairLanes a i
      if s.pairBit (s.who a.wave (a.lanes.headD 0) 2) a.pc && keepsApart i j && !lanes.isEmpty then some { next with lanes := lanes } else none
    | _, _ => none

/-- The ready active hardware waves, least recently issued first. -/
def State.votes (s : State) (tile part : Nat) : List Nat :=
  let l := (s.hwWaves tile part).filter fun w => (s.wave w).active && !(s.hwSlots w).isEmpty
  l.foldl (fun (acc : List Nat) w =>
    acc.takeWhile (fun x => decide ((s.wave x).lastIssue ≤ (s.wave w).lastIssue)) ++
      w :: acc.dropWhile fun x => decide ((s.wave x).lastIssue ≤ (s.wave w).lastIssue)) []

/-- The instruction that still takes issue cycles of a slot of a partition (R269). -/
def State.passOf (s : State) (tile part slot : Nat) : Option Pass :=
  (s.tile tile).passes.find? fun p => p.part == part && p.slot == slot

/-- What takes the issue slots of a cycle, each with its number (R267). A slot that an earlier instruction still takes is not free. -/
def State.choose (s : State) (tile part : Nat) : List (Nat × Slot) :=
  let waves := s.votes tile part
  let next (ws : List Nat) : Option Slot := ws.head?.bind s.slot0
  match s.passOf tile part 0, s.passOf tile part 1 with
  | some _, some _ => []
  | none, some _ => ((next waves).map fun a => (0, a)).toList
  | some p, none =>
    let mate := if (s.partWaves tile part).contains p.wave then s.slot1 p.wave none p.op else none
    ((mate.orElse fun _ => next (waves.filter (· != p.wave))).map fun b => (1, b)).toList
  | none, none =>
    match waves with
    | [] => []
    | w :: rest =>
      match s.slot0 w with
      | none => []
      | some a =>
        let b := ((s.slot1 w (some a) (s.slotInstr a)).orElse fun _ => s.pairOf a).orElse fun _ => next rest
        (0, a) :: (b.map fun b => (1, b)).toList

/-- The order in which the slots of a cycle are performed: of two groups of one wave the one with the lower PC first, of two packed
waves that of lanes 0 to 15 (R18, R37, R177); both groups of one wave read their sources before either writes (R18). -/
def State.inOrder (s : State) (sel : List Slot) : List Slot :=
  match sel with
  | [a, b] =>
    let half (sl : Slot) : Nat := (s.wave sl.wave).half
    if b.follow then [a, b]
    else if a.wave = b.wave then
      let early (x y : Slot) : List Slot := [x, { y with snap := some (s.wave y.wave) }]
      if b.pc.toNat < a.pc.toNat then early b a else early a b
    else if (s.packed a.wave).contains b.wave && decide (half b < half a) then [b, a]
    else [a, b]
  | l => l

/-! ## Counting -/

/-- What an issue cycle of its hardware wave makes of a wave (R149, R268): `all` are its ready groups, `votes` those that the
vote counted, `issued` those that issue. -/
def Wave.counted (wv : Wave) (stamp : Nat) (all votes issued : List Slot) : Wave :=
  let live := wv.groups.filter fun h => wv.threads.any fun t =>
    t.status == .live && (t.pc == h.pc || t.redo.any fun r => r.pc == h.pc)
  let wv1 := all.foldl (fun (wv : Wave) sl =>
    let h := wv.hist sl.pc
    if issued.any fun x => x.pc == sl.pc then { wv with groups := wv.groups.filter fun x => x.pc != sl.pc }
    else if votes.contains sl && !h.promoted then wv.setHist { h with count := h.count + 1 }
    else wv) { wv with groups := live }
  let passing (l : Nat) (t : Thread) : Thread :=
    if all.any fun sl => !sl.lanes.contains l then { t with passed := t.passed - 1 } else t
  { wv1 with lastIssue := stamp, issues := wv1.issues + 1, newFlags := 0, threads := wv1.threads.mapIdx passing }

/-- The issue cycle of a hardware wave. -/
def State.cycleOf (s : State) (w stamp : Nat) (issued : List Slot) : State :=
  let votes := s.voters w
  (s.packed w).foldl (fun (s' : State) x =>
    s'.modWave x fun wv => wv.counted stamp (s.readySlots x) votes (issued.filter fun sl => sl.wave == x)) s

/-- A wait that R270 calls long: a wait for copies of a page is one for a reply, and a lane that cannot yet post its record or send its request
is blocked already (R175). -/
def State.longWait (s : State) (t : Thread) : Bool :=
  match t.wait with
  | .bar _ _ | .cbacq _ _ | .waitp _ _ | .fault _ _ | .page _ _ | .remote _ | .recall _ | .walker _ | .tag _ | .frame0 | .halted
  | .backing => true
  | .accept tile id => ((s.tile tile).cmds.find? fun c => c.id == id).any fun c => c.wantsSlot && c.slot.isNone
  | _ => false

/-- Whether a wave is stopped for want of backing store: all of it is then in a long wait (R317). -/
def Wave.stopped (wv : Wave) : Bool := wv.threads.any fun t => t.wait == .backing

/-- Whether a thread is in a long wait. DEDUCED (log 82): the completed lanes of an instruction share the long wait of its blocked lanes, since
R272 becalms them with those. -/
def State.waitsLong (s : State) (wv : Wave) (t : Thread) : Bool :=
  s.longWait t || (t.wait == .none && !t.hold.isEmpty && t.hold.all fun l => s.longWait (wv.thread l))

/-- Whether every thread of a team that has not exited is in a long wait. -/
def State.allWait (s : State) (t : Nat) : Bool :=
  (s.team t).waves.all fun w =>
    (s.wave w).stopped || (s.wave w).threads.all fun x => x.status != .live || s.waitsLong (s.wave w) x

/-- The doldrums threshold of a team's world (R274). -/
def State.threshold (s : State) (t : Nat) : Nat := (s.launchOf t).elim 0 fun l => (s.world l.world).doldrums

/-- A wait, wherever its team stands and under whatever tag its request goes: one that is asked for again has not ended. -/
def Wait.same : Wait → Wait
  | .remote _ | .tag _ => .remote 0
  | .accept _ id => .accept 0 id
  | w => w

/-- What tells whether a wait of a team has ended since it was last looked at: the issue cycles of its waves, and their waits. -/
def State.waitsOf (s : State) (t : Team) : List (Nat × List Wait) :=
  t.waves.map fun w => ((s.wave w).issues, (s.wave w).threads.map fun x => x.wait.same)

/-- The teams of a tile count the cycles for which none of their waits has ended (R271); a threshold applies to the waits that begin
under it (R274). -/
def State.countWaits (s : State) (tile : Nat) : State :=
  { s with teams := s.teams.mapIdx fun i t =>
      if t.state = .resident ∧ t.tile = tile then
        let now := s.waitsOf t
        if !s.allWait i then { t with waited := 0, seen := [] }
        else if t.seen = now then { t with waited := t.waited + 1 }
        else { t with waited := 1, patience := s.threshold i, seen := now }
      else t }

/-- Once a cycle of a tile: its clock, its teams' waits, and what its engines still want and do (R22, R271, R204, R301). -/
def State.tileCycle (s : State) (tile : Nat) : State :=
  let s1 := (s.modTile tile fun x => { x with cycle := x.cycle + 1 }).countWaits tile
  ((((s1.tile tile).cmds.map (·.id)).foldl (fun s id => s.engineAsk tile id) (s1.abandon tile)).stepBlocks tile).clockCmds tile

/-- Readiness of each hardware wave of a partition, counted in cycles (R266). -/
def State.readiness (s : State) (tile part : Nat) : State :=
  (s.hwWaves tile part).foldl (fun s w =>
    let ready := !(s.hwSlots w).isEmpty || (s.tile tile).passes.any fun p => (s.packed w).contains p.wave
    s.modHw w fun wv =>
      { wv with notReady := if ready then 0 else wv.notReady + 1
                readySince := if ready && !wv.active then wv.readySince + 1 else 0
                stay := if wv.active then wv.stay + 1 else 0 }) s

/-- A cycle of a die's dispatcher: launches with undispatched teams count the cycles without a grant (R261), and the die those since it
advertised its free slots (R265). -/
def State.dispatcherCycle (s : State) (die : Nat) : State :=
  let waits (l : Launch) : Bool := (l.teams ++ l.guests).any fun t => (s.team t).state == .waiting
  { s with launches := s.launches.map fun l =>
             if l.eligible && l.die == die && waits l then { l with age := l.age + 1 } else l
           dies := modifyAt s.dies die fun d => { d with sinceAdvert := d.sinceAdvert + 1 } }

/-- The partition after one in the order the model gives them. -/
def nextTurn (turn : Nat) : Nat := (turn + 1) % 1152

/-- The passes of a partition after a cycle: those that went on, and those that its new instructions still need (R269). -/
def State.passesAfter (s : State) (tile part : Nat) (sel : List (Nat × Slot)) : List Pass :=
  let old := (s.tile tile).passes.filterMap fun p =>
    if p.part ≠ part then some p else if p.left ≤ 1 then none else some { p with left := p.left - 1 }
  old ++ sel.filterMap fun e =>
    if s.blocksOf e.2 ≤ 1 then none
    else some ⟨part, e.1, e.2.wave, e.2.lanes, s.slotInstr e.2, s.blocksOf e.2 - 1⟩

/-- ISSUE_CYCLE: the partition fills its two issue slots. DESIGN CHOICE (log 10): a tile's clock moves on with its partition 0, and a
die's dispatcher with the turn of its first tile, whether that tile's clock runs or not. -/
def execIssueCycle (tile part : Nat) (s : State) : Out :=
  let next := { s with turn := nextTurn (tile * 6 + part) }
  let s0 := if part = 0 ∧ tile % 48 = 0 then next.dispatcherCycle (tile / 48) else next
  if (s.tile tile).clock ≠ .running then .next s0
  else
    let s1 := (if part = 0 then s0.tileCycle tile else s0).readiness tile part
    let chosen := s1.choose tile part
    let sel := s1.inOrder (chosen.map (·.2))
    let stamp := (s1.tile tile).cycle.toNat + 1
    let going := ((s1.tile tile).passes.filter fun p => p.part == part).map (·.wave)
    let hw := distinct ((sel.map (·.wave) ++ going).map fun w => ((s1.packed w).head?).getD w)
    let s2 := (hw.foldl (fun s w => s.cycleOf w stamp sel) s1).modTile tile fun t => { t with passes := s1.passesAfter tile part chosen }
    .next { s2 with slots := sel.map fun sl => { sl with snap := sl.snap.map fun _ => s2.wave sl.wave } }

/-! ## The active set (R266) -/

/-- The active wave that leaves for a pending one: one that has not been ready for 16 cycles, else, when the pending wave has been
ready for half the bound of R276, the one longest in the set, if it has been there for 512 cycles. DESIGN CHOICE (log 28). -/
def State.leaver (s : State) (active : List Nat) (w : Nat) : Option Nat :=
  match active.find? fun x => decide (16 ≤ (s.wave x).notReady) with
  | some x => some x
  | none =>
    if (s.wave w).readySince < 2048 then none
    else
      (active.foldl (fun (m : Option Nat) x =>
        match m with
        | some y => if (s.wave y).stay < (s.wave x).stay then some x else m
        | none => some x) none).filter fun x => decide (512 ≤ (s.wave x).stay)

/-- Hardware waves that a wave takes: it may take several (R8, R263). -/
def Width.hwWaves : Width → Nat
  | .w64 => 2 | .w128 => 4 | _ => 1

/-- The exchange that is due: the wave that leaves, if any, and the one that joins. The active set holds at most eight hardware waves. -/
def State.exchange (s : State) (tile part : Nat) : Option (Option Nat × Nat) :=
  let hw := s.hwWaves tile part
  let pending := hw.filter fun w => !(s.wave w).active && !(s.hwSlots w).isEmpty
  let best := pending.foldl (fun (m : Option Nat) w =>
    match m with
    | some x => if (s.wave x).readySince < (s.wave w).readySince then some w else m
    | none => some w) none
  let active := hw.filter fun w => (s.wave w).active
  let size (l : List Nat) : Nat := (l.map fun w => (s.wave w).width.hwWaves).foldl (· + ·) 0
  best.bind fun w =>
    if size (w :: active) ≤ 8 then some (none, w) else (s.leaver active w).map fun x => (some x, w)

/-- ACTIVE_SET_EXCHANGE: a ready pending wave joins the active set, in an empty place or for a wave that has not been ready. -/
def execActiveSetExchange (tile part : Nat) (s : State) : Out :=
  match s.exchange tile part with
  | none => .next s
  | some (out, w) =>
    let s1 := match out with
      | some x => s.modHw x fun wv => { wv with active := false, readySince := 0 }
      | none => s
    let active := (s1.hwWaves tile part).filter fun x => (s1.wave x).active
    let room := ((w :: active).map fun x => (s1.wave x).width.hwWaves).foldl (· + ·) 0 ≤ 8
    .next (if room then s1.modHw w fun wv => { wv with active := true, notReady := 0, readySince := 0, stay := 0 } else s1)

end Sys2Proof.Machine
end

