-- ==== Sys2Proof/Machine/Names.lean ====
section
/-! DEFINITION. Long names, residency records and the pointer instructions (R25 to R30, R183 to R186, R292). -/

namespace Sys2Proof.Machine

/-! ## Names -/

/-- Fields of a long name (R25). -/
def nameKind (x : W128) : BitVec 3 := x.extractLsb' 124 3
def nameObj (x : W128) : W64 := x.extractLsb' 48 64
def nameOff (x : W128) : Nat := (x.extractLsb' 0 48).toNat

/-- A long name of an object. -/
def longName (kind : BitVec 3) (obj : W64) (off : Nat) : W128 :=
  BitVec.ofNat 1 1 ++ kind ++ (0 : BitVec 12) ++ obj ++ BitVec.ofNat 48 off

/-- A slot that is a long name by its form: T = 1, an allocated kind, the reserved bits zero. -/
def nameForm (x : W128) : Bool := x.getLsbD 127 && (nameKind x).toNat < 3 && x.extractLsb' 112 12 == 0

/-- The directory's entry of an object, where it is known under the name's kind and not retired (R183). -/
def Ctx.known (c : Ctx) (x : W128) : Option DirEntry :=
  if nameForm x then c.dir.find? fun d => d.obj == nameObj x && d.kind == nameKind x && !d.retired else none

/-- The record of an object. -/
def Ctx.recOf (c : Ctx) (obj : W64) : Option ObjRec := c.recs.find? fun r => r.obj == obj

/-! ## Creation of records (R26, R292) -/

/-- The span of an extent (R26). -/
def spanOf (extent : Nat) : Nat := (extent + 65535) / 65536 * 65536

/-- A run of backed pages in the world's grant above every run already given there. DESIGN CHOICE (log 12): the lowest. -/
def State.runFor (s : State) (world span : Nat) : Option Nat :=
  let recs := (s.ctxs.filter (·.live)).flatMap (·.recs)
  ((s.world world).grants.filterMap fun r =>
    let start := recs.foldl (fun m x => if r.1 ≤ x.run ∧ x.run < r.1 + r.2 then max m (x.run + spanOf x.extent) else m) r.1
    if backedBase ≤ r.1 ∧ start + span ≤ r.1 + r.2 then some start else none).head?

/-- The frame-map entry the service kernel writes for a page of a new run. DESIGN CHOICE (log 12): its home is the memory node
0xFFF, at the page's own address. -/
def newEntry (page : Nat) : FrameEntry :=
  { FrameEntry.zero with hkind := 2, hid := 0xFFF, hpage := BitVec.ofNat 46 page, v := true }

/-- Make the pages of a run exist, none of them in HBM: what an object of an earlier context has left in a frame is not the new one's (R292). -/
def State.newPages (s : State) (run span : Nat) : State :=
  { s with frameMap := (List.range (span / 65536)).foldl (fun m i =>
      let page := run / 65536 + i
      let e := s.frameOf page
      Sparse.set FrameEntry.zero m page
        (if e.v then { e with state := .absent, frame := 0, smask := 0, wg := false } else newEntry page)) s.frameMap }

/-- Lay the bytes of an object at the homes of its run's pages, each written whole (R298). -/
def State.fillHomes (s : State) (run span : Nat) (cells : List Host.Cell) : State :=
  (List.range (span / 65536)).foldl (fun s i =>
    let k := homeKey (s.frameOf (run / 65536 + i)) 0
    { s with home := Memory.paste s.home k 65536 (Memory.cut cells (i * 65536) 65536), homePoison := healed s.homePoison k 65536 }) s

/-- The service kernel writes the leaf of a page, and takes lower-level tables from `next` on where there are none (R281). DESIGN CHOICE (log
12): they lie one after the other above the context's root tables. -/
def State.mapDeep (s : State) (va leaf : Nat) : List Level → Nat → Nat → State × Nat
  | [], _, next => (s, next)
  | l :: ls, table, next =>
    let a := table + 8 * (va / 2 ^ l.shift % l.entries)
    let e := s.peek a 8
    if l.last then (s.poke a (toBytes leaf 8), next)
    else if e.testBit 63 then
      (if l.shift == 25 && e.testBit 62 then (s, next) else s.mapDeep va leaf ls (bitsOf e 12 40 * 4096) next)
    else
      let t := alignUp next 16384
      ((s.blank t 16384).poke a (toBytes (2 ^ 63 + t) 8)).mapDeep va leaf ls t (t + 16384)

/-- The bits of a record's leaves (R281, R295): RD, WR where the object is written to, EX for code. -/
def ObjRec.leafBits (r : ObjRec) : Nat :=
  2 ^ 63 + 2 ^ 61 + (if r.kind = 0 ∨ r.writable then 2 ^ 60 else 0) + (if r.kind = 2 then 2 ^ 59 else 0)

/-- The entries that map a record's window range onto its run (R292), where its window has a table. -/
def State.mapRec (s : State) (ctx : Nat) (obj : W64) : State :=
  match s.ctx? ctx with
  | none => s
  | some c =>
    match c.recOf obj with
    | none => s
    | some r =>
      let root := c.roots.getD (r.base.toNat / 2 ^ 60) 0
      if root = 0 then s
      else
        let x := (List.range (spanOf r.extent / 65536)).foldl (fun (x : State × Nat) i =>
          x.1.mapDeep (r.base.toNat % 2 ^ 60 + 65536 * i) (r.leafBits + r.run + 65536 * i) walkLevels root x.2) (s, c.nextTable)
        x.1.modCtx ctx fun c => { c with nextTable := x.2 }

/-- The extent of an object as the directory holds it: the size of its file at the first close (R372). DESIGN CHOICE (log 88): 0 before it. -/
def DirEntry.size (d : DirEntry) : Nat := if d.closed then d.extent else 0

/-- A new record of an object the directory knows, none where the window or the world has no range left. -/
def State.newRec (s : State) (ctx : Nat) (d : DirEntry) : Option State :=
  (s.ctx? ctx).bind fun c =>
    let code := d.kind == 2
    let off := if code then c.nextCode else c.nextData
    let span := spanOf d.size
    if 2 ^ 60 < off + span then none
    else
      (s.runFor c.world span).map fun run =>
        let r : ObjRec :=
          { obj := d.obj, kind := d.kind, base := BitVec.ofNat 64 ((if code then 5 else 4) * 2 ^ 60 + off), extent := d.size
            state := if code then .unbound else .absentReserved, run := run, writable := false, requester := none }
        (((s.newPages run span).fillHomes run span d.bytes).modCtx ctx fun c =>
          { c with recs := c.recs ++ [r], nextData := if code then c.nextData else off + span + 65536
                   nextCode := if code then off + span + 65536 else c.nextCode }).mapRec ctx d.obj

/-! ## `ldp`, `stp`, `nameof`, `ptreq` -/

/-- Swizzle a slot (R183): the short pointer, the trap, or the NAME record the lane waits on (R289). -/
def State.swizzle (s : State) (who : Who) (x : W128) : Except LaneEnd W64 :=
  if !x.getLsbD 127 then (if x.extractLsb' 64 63 = 0 then .ok (lo64 x) else .error (.trap .noname))
  else
    match s.ctx? who.ctx with
    | none => .error (.trap .noname)
    | some c =>
      match c.known x with
      | none => .error (.trap .noname)
      | some _ =>
        match c.recOf (nameObj x) with
        | none => .error (.wait (.fault (who.tile / 48) 0) (some (faultReq who .name 0 (nameObj x).toNat 0)))
        | some r =>
          if r.extent < nameOff x then .error (.trap .noname) else .ok (r.base + BitVec.ofNat 64 (nameOff x))

/-- What a lane does with the slot it has read. One that waits for its object's record keeps the slot, and goes on from the swizzle
(R290). -/
def State.swizzleLane (s : State) (g : Grp) (l : Nat) (slot : W128) : State × LaneEnd :=
  match s.swizzle (s.who g.w l 0) slot with
  | .ok p => (s.give g l p.toNat, .done)
  | .error (.wait wt post) => (s, .kept (some slot) none wt post)
  | .error e => (s, e)

/-- The effect of `ldp`: the slot is read once (R183). -/
def ldpEffect (f : MForm) (g : Grp) (s : State) : State :=
  s.eachLane g fun s l =>
    match g.replay.bind (·.slot) with
    | some x => s.swizzleLane g l x
    | none =>
      s.readFor g l (g.addr f.off.toInt l) 16 f.wt f.scope f.ord fun s bs => s.swizzleLane g l (BitVec.ofNat 128 (ofBytes bs))

/-- `ldp`: reads a name slot and swizzles it. -/
def execLdp (f : MForm) (s : State) : Out := issue (.ldp f) s lawful (ldpEffect f)

/-- Unswizzle a short pointer (R184): the slot, none where it cannot be named. -/
def State.unswizzle (s : State) (ctx : Nat) (p : W64) : Option W128 :=
  if p.toNat / 2 ^ 60 = 4 ∨ p.toNat / 2 ^ 60 = 5 then
    ((s.ctx? ctx).bind fun c => c.recs.find? fun r =>
        decide (r.base.toNat ≤ p.toNat) && decide (p.toNat ≤ r.base.toNat + r.extent)).map fun r =>
      longName r.kind r.obj (p.toNat - r.base.toNat)
  else some (ext64 p)

/-- `stp` in one lane: the checks of a 16-byte write come before the pointer's. -/
def State.stpLane (s : State) (g : Grp) (f : MForm) (l : Nat) : State × LaneEnd :=
  let va := g.addr f.off.toInt l
  match s.reach (s.whoFor g l 1 f.scope) va 16 16 .write, s.unswizzle g.src.ctx (lo64 (g.b l)) with
  | .ok .., none => (s, .trap .unnameable)
  | .remote .., none => (s, .trap .unnameable)
  | _, n => s.writeFor g l va 16 f.wt f.scope f.ord (toBytes (n.getD 0).toNat 16)

/-- `stp`: unswizzles a short pointer into a name slot. -/
def execStp (f : MForm) (s : State) : Out :=
  issue (.stp f) s lawful fun g s => s.eachLane g fun s l => s.stpLane g f l

/-- `nameof`: forms the name `stp` would store. -/
def execNameof (f : VForm) (s : State) : Out :=
  issue (.nameof f) s lawful fun g s =>
    s.eachLane g fun s l =>
      match s.unswizzle g.src.ctx (lo64 (g.a l)) with
      | none => (s, .trap .unnameable)
      | some n => (s.give g l n.toNat, .done)

/-- `ptreq`: compares two pointers. -/
def execPtreq (f : VForm) (s : State) : Out :=
  lanesOp (.ptreq f) s fun g l => if g.a l = g.b l then 1 else 0

end Sys2Proof.Machine
end

