-- ==== Sys2Proof/Machine/Residency.lean ====
section
/-! DEFINITION. Pages, fault records, translations, code binding, retention and soft errors (R284 to R298). -/

namespace Sys2Proof.Machine

/-! ## Lanes that wait -/

/-- Lanes that leave a wait. One whose trap entry has not been delivered goes on waiting for the delivery. -/
def Wave.resumeLanes (wv : Wave) (p : Thread → Bool) : Wave :=
  let owed := (wv.trapq.filter fun e => !e.delivered).flatMap fun e => e.lanes.map (·.lane)
  let go (l : Nat) (t : Thread) : Thread := if p t then { t with wait := if owed.contains l then .trapped else .none } else t
  { wv with threads := wv.threads.mapIdx go }

/-- Every lane of the package that leaves a wait. -/
def State.resumeAll (s : State) (p : Thread → Bool) : State := { s with waves := s.waves.map fun wv => wv.resumeLanes p }

/-- A lane that waits to take delivery of a trap whose handler cannot be bound takes another trap in its stead (R146). DESIGN CHOICE (log
37): at the place of the first, with its continuation and replay queue. -/
def Wave.retrap (wv : Wave) (k : TrapKind) (l : Nat) : Wave :=
  match wv.trapq.find? fun e => !e.delivered && e.lanes.any fun x => x.lane == l with
  | none => wv
  | some e =>
    let left := { e with lanes := e.lanes.filter fun x => x.lane != l }
    let q := if left.lanes.isEmpty then wv.trapq.erase e else wv.trapq.map fun x => if x = e then left else x
    ({ wv with trapq := putEntry q { e with kind := k, begun := false, lanes := e.lanes.filter fun x => x.lane == l } }).modThread l
      fun t => { t with wait := .trapped }

/-- Trap waiting lanes of a wave at the instructions they wait at, one entry for each (R37): with replay where the instruction is
kept, else at the fetch. -/
def State.trapWaiting (s : State) (w : Nat) (k : TrapKind) (all : List Nat) : State :=
  let owed := ((s.wave w).trapq.filter fun e => !e.delivered).flatMap fun e => e.lanes.map (·.lane)
  let lanes := all.filter fun l => !owed.contains l
  let at_ (l : Nat) : Option Redo := (s.thread w l).redo.head?
  let same (a b : Nat) : Bool :=
    match at_ a, at_ b with
    | some x, some y => x.pc == y.pc && x.word == y.word && x.issued == y.issued
    | none, none => (s.thread w a).pc == (s.thread w b).pc
    | _, _ => false
  let firsts := lanes.filter fun l => (lanes.takeWhile (· != l)).all fun x => !same x l
  firsts.foldl (fun s l =>
    let mine := lanes.filter (same l)
    match at_ l with
    | none => s.raiseFetch w (s.thread w l).pc k mine
    | some r =>
      s.modWave w fun wv =>
        let item (x : Nat) : TrapLane :=
          { lane := x, cont := (wv.thread x).pc
            redo := (wv.thread x).redo.mapIdx fun i r => { r with first := i == 0, late := false, slot := none, entry := none } }
        let e : TrapEntry :=
          { pc := r.pc, kind := k, issued := r.issued, lanes := mine.map item, delivered := false, begun := false, owed := [] }
        ({ wv with trapq := putEntry wv.trapq e }.modLanes mine fun _ t => { t with redo := [], wait := .trapped }).unhold mine)
    (s.modWave w fun wv => (all.filter owed.contains).foldl (fun wv l => wv.retrap k l) wv)

/-- The lanes of a wave that pass a test. -/
def Wave.lanesWith (wv : Wave) (p : Thread → Bool) : List Nat := (List.range wv.threads.length).filter fun l => p (wv.thread l)

/-- Trap every lane of the package that passes a test. -/
def State.trapAll (s : State) (k : TrapKind) (p : Thread → Bool) : State :=
  (List.range s.waves.length).foldl (fun s w => s.trapWaiting w k ((s.wave w).lanesWith p)) s

/-! ## The reply proxy (R303) -/

/-- Whether the proxy holds what comes for a wave: its team is in an image, or its tile's clock does not run. -/
def State.proxied (s : State) (w : Nat) : Bool :=
  let wv := s.wave w
  (s.team wv.team).state == .frozen || (wv.resident && (s.tile wv.tile).clock != .running)

/-- Hold an item for a wave. -/
def State.holdReply (s : State) (w : Nat) (i : Instr) : State := { s with proxy := s.proxy ++ [⟨w, i⟩] }

/-! ## Page tables (R281, R291) -/

/-- The address of the entry at which a walk ends, and its level. -/
def State.entryPlace (s : State) (va : Nat) : List Level → Nat → Option (Nat × Level)
  | [], _ => none
  | l :: ls, table =>
    let a := table + 8 * (va / 2 ^ l.shift % l.entries)
    let e := s.peek a 8
    if !e.testBit 63 || l.last || (l.shift == 25 && e.testBit 62) then some (a, l) else s.entryPlace va ls (bitsOf e 12 40 * 4096)

/-- Whether the root of a region's table may be written through: region 0x4 and 0x5 may have none (log 12). -/
def Ctx.tableOf (c : Ctx) (va : Nat) : Option Nat :=
  let root := c.roots.getD (va / 2 ^ 60) 0
  if 6 * 2 ^ 60 ≤ va ∨ (4 * 2 ^ 60 ≤ va ∧ root = 0) then none else some root

/-- Whether an entry may be written at a level: a leaf names a page within the grant of the context's world (R353). -/
def State.entryMay (s : State) (c : Ctx) (l : Level) (e : W64) : Bool :=
  !(e.getLsbD 63 && (l.last || (l.shift == 25 && e.getLsbD 62))) ||
    s.granted c.world (bitsOf e.toNat 16 36 * 65536) (if l.last then 65536 else 2 ^ 25)

/-- The service kernel writes the page-table entry of a virtual page (R281, R353). -/
def State.mapPage (s : State) (ctx : Nat) (va leaf : W64) : State :=
  match s.ctx? ctx with
  | none => s
  | some c =>
    match (c.tableOf va.toNat).bind fun root => s.entryPlace (va.toNat % 2 ^ 60) walkLevels root with
    | some (a, l) => if s.entryMay c l leaf then s.poke a (toBytes leaf.toNat 8) else s
    | none => s

def State.setFrame (s : State) (page : Nat) (e : FrameEntry) : State :=
  { s with frameMap := Sparse.set FrameEntry.zero s.frameMap page e }

/-- A frame-map entry as a word of R284 gives it; what is the hardware's is left absent. -/
def frameWord (w : W128) : FrameEntry :=
  { hkind := w.extractLsb' 122 2, hid := w.extractLsb' 110 12, hpage := w.extractLsb' 64 46, v := w.getLsbD 63
    state := .absent, direct := w.getLsbD 60, wg := w.getLsbD 59, frame := 0, smask := 0 }

/-- The service kernel writes the frame-map entry of a page of backed space in the grant of a context's world (R284, R353): its home, V, DIRECT
and WG. STATE, FRAME and SMASK are the hardware's, and stay; an entry with a reserved field set, or with HKIND 0b11, is not written. -/
def State.writeFrame (s : State) (ctx page : Nat) (w : W128) : State :=
  let e := s.frameOf page
  let may := (s.ctx? ctx).any fun c => s.granted c.world (page * 65536) 65536
  if w.extractLsb' 124 4 ≠ 0 ∨ w.extractLsb' 56 3 ≠ 0 ∨ w.extractLsb' 122 2 = 3 ∨ !may then s
  else s.setFrame page { frameWord w with state := e.state, frame := e.frame, smask := e.smask }

/-- Whether the proxy holds the reply to a request (R303). -/
def State.replyHeld (s : State) (r : RemoteReq) : Bool :=
  s.proxy.any fun h =>
    match h.item with
    | .replyReceive p => r.dst == p.src.toNat && r.tier == p.tier && r.seq == p.seq
    | _ => false

/-- Whether an access of a context that was admitted is still on its way to another node (R291). One whose reply the proxy holds for a frozen
tile has been performed. -/
def State.inFlight (s : State) (ctx : Nat) : Bool :=
  s.fabric.reqs.any fun r => !s.replyHeld r &&
    (match r.use with
     | .lane | .fetch _ | .cmd _ _ | .block _ _ => true
     | _ => false) && (s.wave r.wave).ctx == ctx

/-- TRANSLATION_INVALIDATE: the old translation is gone everywhere, and the entries written under the invalidation hold. No
translation is cached in this model; the invalidation completes once every access admitted before has been performed, those at other
nodes among them (R291). -/
def execTranslationInvalidate (ctx : Nat) (page : Option W64) (entries : Entries) (s : State) : Out :=
  if s.inFlight ctx then
    .next { s with pkg := { s.pkg with waiting := s.pkg.waiting ++ [.translationInvalidate ctx page entries] } }
  else
    let s1 := match page, entries.leaf with
      | some va, some e => s.mapPage ctx va e
      | _, _ => s
    .next (match entries.frame with
      | some (p, w) => s1.writeFrame ctx p w
      | none => s1)

/-! ## Pages (R285, R286) -/

/-- The sector that arrives next: the one whose touch posted the page's record, then the others in rising order (R286). -/
def State.nextSector (s : State) (page : Nat) (e : FrameEntry) : Option Nat :=
  if e.state = .arriving then
    (List.range 32).find? fun k => !e.smask.getLsbD k && e.smask.getLsbD ((k + 31) % 32)
  else (s.dies.flatMap (·.faultq)).findSome? fun r =>
    if r.kind = .frame ∧ r.aux.toNat / 65536 = page then some r.sect else none

/-- Whether a frame may hold a page: local, on the page's die, not in use (R285), and in the grant of the page's world (R353). -/
def State.frameFree (s : State) (page frame : Nat) : Bool :=
  s.isLocal (frame * 65536) && frame * 65536 / 2 ^ 36 / 3 == s.dieFor (page % 4) && decide (frame < 2 ^ 24) &&
  !(s.frameMap.any fun e => e.2.state != .absent && e.2.frame == frame) &&
  (List.range 64).any fun w => s.granted w (page * 65536) 65536 && s.granted w (frame * 65536) 65536

/-- The bytes of a sector at its page's home. -/
def State.homeSector (s : State) (e : FrameEntry) (sector : Nat) : List Host.Cell :=
  if e.hkind = 0 then [] else Memory.cut s.home (homeKey e (sector * 2048)) 2048

/-- Pages of a record's run. -/
def ObjRec.pages (r : ObjRec) : List Nat := (List.range ((r.extent + 65535) / 65536)).map fun i => r.run / 65536 + i

/-- A record of a data kind whose page arrives has been RESIDENT (R27). -/
def ObjRec.touched (r : ObjRec) (page : Nat) : ObjRec :=
  if r.state = .absentReserved ∧ r.pages.contains page then { r with state := .resident } else r

/-- The marks of `n` lines from `k`, replaced by those that stand over as many lines from `src` (R298). -/
def moveMarks (marks from_ : List Nat) (k src n : Nat) : List Nat :=
  (marks.filter fun l => !(decide (k ≤ l) && decide (l < k + n))) ++
    (from_.filter fun l => decide (src ≤ l) && decide (l < src + n)).map fun l => l - src + k

/-- Lay a sector into its frame, its SMASK bit set after it. -/
def State.landSector (s : State) (page sector : Nat) (e : FrameEntry) : State :=
  let mask := e.smask ||| BitVec.ofNat 32 (2 ^ sector)
  let e' := { e with smask := mask, state := if mask = BitVec.allOnes 32 then .present else .arriving }
  let k := e.frame * 65536 + sector * 2048
  let s1 : State := { s with
    mem := Memory.paste s.mem k 2048 (s.homeSector e sector)
    poison := moveMarks s.poison s.homePoison (k / 64) (homeKey e (sector * 2048) / 64) 32
    ctxs := s.ctxs.map fun c => { c with recs := c.recs.map fun r => r.touched page } }
  (s1.setFrame page e').resumeAll fun t =>
    match t.wait with
    | .page p x => p == page && x == sector
    | _ => false

/-- Whether a sector of a page may land in a frame now: in its turn, and in the page's frame or one that can be (R286). -/
def State.mayLand (s : State) (page sector frame : Nat) : Bool :=
  let e := s.frameOf page
  let due := match s.nextSector page e with
    | some k => k == sector
    | none => decide (sector < 32)
  e.v && !e.direct && due &&
  match e.state with
  | .absent => s.frameFree page frame
  | .arriving => e.frame == frame
  | _ => false

/-- A sector lands in the page's frame. -/
def State.land (s : State) (page sector frame : Nat) : State :=
  let e := s.frameOf page
  if !s.mayLand page sector frame then s
  else if e.state = .absent then
    ({ s with counters := Sparse.set 0 s.counters frame 0, dirty := s.dirty.filter (· != frame) } : State).landSector page sector
      { e with frame := frame, smask := 0 }
  else s.landSector page sector e

/-- Bytes of a page that one PAGE packet carries (log 21). -/
def pageChunk : Nat := 256

/-- Which of the four lines of a chunk of a page are among marked ones, as a mask. -/
def lineMask (marks : List Nat) (line : Nat) : Nat :=
  ((List.range 4).map fun i => if marks.contains (line + i) then 2 ^ i else 0).foldl (· + ·) 0

/-- Mark the lines of a chunk that a mask names, and no other of it. -/
def maskLines (marks : List Nat) (line mask : Nat) : List Nat :=
  (marks.filter fun k => !(decide (line ≤ k) && decide (k < line + 4))) ++
    ((List.range 4).filter mask.testBit).map (line + ·)

/-- A PAGE packet for bytes of a page at its home: with bytes it takes them there, without it asks for them (R286, R334). OPC says which of
the lines it takes there are poisoned (R298, log 21). -/
def State.pagePacket (s : State) (e : FrameEntry) (o mask : Nat) (data : List Byte) : Packet :=
  { s.packet 0 .page e.hid.toNat (e.hpage.toNat * 65536 + o) with opc := BitVec.ofNat 6 mask, data := data }

/-- The home of a page that PAGE packets reach: it lies on another node, and there is a route to it. -/
def State.homeReached (s : State) (e : FrameEntry) : Bool := e.hkind != 0 && (s.fabric.route e.hid.toNat).isSome

/-- PAGE packets of a range of a home page that have no reply yet: those that bring bytes here, or those that take bytes home. -/
def State.pagesUnderway (s : State) (e : FrameEntry) (lo n : Nat) (home : Bool) : Bool :=
  let mine (p : Packet) : Bool :=
    let a := p.addr.toNat
    p.typ == .page && !p.data.isEmpty == home && decide (e.hpage.toNat * 65536 + lo ≤ a) && decide (a < e.hpage.toNat * 65536 + lo + n)
  let x := s.fabric.stream e.hid.toNat 2
  x.sent.any (fun y => mine y.packet) || x.queued.any mine

/-- PAGE_SECTOR_ARRIVAL: a sector lands in the page's frame; from a home that PAGE packets reach, once they have brought its bytes. -/
def execPageSectorArrival (page sector frame : Nat) (s : State) : Out :=
  let e := s.frameOf page
  if !s.mayLand page sector frame then .next s
  else if !s.homeReached e then .next (s.land page sector frame)
  else if s.fabric.coming.contains (page, sector, frame) then .next s
  else
    let s1 := (List.range (2048 / pageChunk)).foldl (fun s i => s.request (s.pagePacket e (2048 * sector + pageChunk * i) 0 [])) s
    .next { s1 with fabric := { s1.fabric with coming := s1.fabric.coming ++ [(page, sector, frame)] } }

/-- Pages that may not depart: pinned by a request, an object's exemption or a DAX mapping. -/
def State.exempt (s : State) (page : Nat) : Bool := s.pinned.any fun p => p.2 == page

/-- The end of a departure (R286): a page that was written is at its home, its poisoned lines with it (R298), and the page is absent. -/
def State.departed (s : State) (page : Nat) : State :=
  let e := s.frameOf page
  let k := e.frame * 65536
  let s1 := if s.dirty.contains e.frame then
      ((List.range 32).filter fun i => e.smask.getLsbD i).foldl (fun s i =>
        let o := 2048 * i
        { s with home := Memory.paste s.home (homeKey e o) 2048 (Memory.cut s.mem (k + o) 2048)
                 homePoison := moveMarks s.homePoison s.poison (homeKey e o / 64) ((k + o) / 64) 32 }) s
    else s
  ({ s1 with
      dirty := s1.dirty.filter (· != e.frame)
      poison := moveMarks s1.poison [] (k / 64) 0 1024 }.setFrame page
    { e with state := .absent, smask := 0, frame := 0 }).resumeAll fun t =>
      match t.wait with
      | .page p _ => p == page
      | _ => false

/-- A page departs (R286). DESIGN CHOICE (log 81): one that is still arriving, for which R250 names no order, departs at once, and the sectors
still on their way are dropped. The sectors of a written page that hold its data go home: by PAGE packets where they reach the home, whose
replies end the departure, and at once otherwise. -/
def State.depart (s0 : State) (page : Nat) : State :=
  let e := s0.frameOf page
  let s : State := { s0 with fabric := { s0.fabric with coming := s0.fabric.coming.filter fun c => c.1 != page } }
  if !e.v || e.hkind == 0 || e.state == .absent || e.state == .departing then s0
  else if s.dirty.contains e.frame && s.homeReached e then
    let s1 := s.setFrame page { e with state := .departing }
    ((List.range 32).filter fun i => e.smask.getLsbD i).foldl (fun s i =>
      (List.range (2048 / pageChunk)).foldl (fun s j =>
        let o := 2048 * i + pageChunk * j
        let k := e.frame * 65536 + o
        s.request (s.pagePacket e o (lineMask s.poison (k / 64)) (Memory.bytes s.mem k pageChunk))) s) s1
  else s.departed page

/-- PAGE_DEPART: a page that nothing exempts is written home. -/
def execPageDepart (page : Nat) (s : State) : Out := .next (if s.exempt page then s else s.depart page)

/-! ## Water marks and counters (R294) -/

/-- Frames of a world: the 64 KiB units of its grant of local HBM. -/
def State.worldFrames (s : State) (w : Nat) : Nat :=
  (((s.world w).grants.filter fun r => decide (r.1 < hbmLimit)).map fun r => r.2 / 65536).foldl (· + ·) 0

/-- Pages of a world that have frames. -/
def State.framedPages (s : State) (w : Nat) : List (Nat × FrameEntry) :=
  s.frameMap.filter fun e => e.2.state != .absent && s.granted w (e.1 * 65536) 65536

/-- Put a page into a list by rising counter. -/
def byCounter (cnt : Nat → Nat) : List Nat → Nat → List Nat
  | [], x => [x]
  | y :: ys, x => if cnt x < cnt y then x :: y :: ys else y :: byCounter cnt ys x

/-- The pages the residency engine may depart, lowest counter first. -/
def State.coldPages (s : State) (w : Nat) : List Nat :=
  let cnt (page : Nat) : Nat := (Sparse.get 0 s.counters (s.frameOf page).frame).toNat
  let l := (s.framedPages w).filter fun e =>
    e.2.state == .present && e.2.hkind != 0 && !s.exempt e.1 && decide (cnt e.1 < (s.world w).cold.toNat)
  (l.map (·.1)).foldl (byCounter cnt) []

/-- Whether a world's frames in use exceed its high mark. -/
def State.overHigh (s : State) (w : Nat) : Bool :=
  decide ((s.world w).high * s.worldFrames w < 100 * (s.framedPages w).length)

/-- WATERMARK_DEPARTURE: cold pages depart until the frames in use fall below the low mark. -/
def execWatermarkDeparture (world : Nat) (s : State) : Out :=
  if !s.overHigh world then .next s
  else
    .next ((s.coldPages world).foldl (fun s p =>
      if (s.world world).low * s.worldFrames world ≤ 100 * (s.framedPages world).length then s.depart p else s) s)

/-- COUNTER_HALVING: after 2^20 accesses of a stack, the counters of its frames are halved. -/
def execCounterHalving (stack : Nat) (s : State) : Out :=
  if s.stackCount.getD stack 0 < 2 ^ 20 then .next s
  else
    .next { s with
      counters := (s.counters.map fun e => (e.1, if e.1 * 65536 / 2 ^ 36 = stack then BitVec.ofNat 16 (e.2.toNat / 2) else e.2)).filter
        fun e => e.2 != 0
      stackCount := modifyAt s.stackCount stack (· - 2 ^ 20) }

/-! ## Answers to fault records (R290) -/

/-- The code of a status. -/
def statusCode : FaultStatus → Nat
  | .resolved => 0 | .xlate => 1 | .protect => 2 | .poison => 3 | .noname => 4

/-- The trap a status raises. -/
def statusTrap : FaultStatus → TrapKind
  | .protect => .protect | .poison => .poison | .noname => .noname | _ => .xlate

/-- A record leaves a die's fault queue, and the lanes that waited at the walker for room post theirs (R290). -/
def State.dropRec (s : State) (die : Nat) (seq : W32) : State :=
  (s.modDie die fun d => { d with faultq := d.faultq.filter fun x => x.seq != seq }).resumeAll fun t => t.wait == .walker die

/-- The write grant that an answer to a WRITE record waits for: the home's directory has still to give it (R285). -/
def State.grantDue (s : State) (r : FaultRec) : Option FrameEntry :=
  let e := s.frameOf (r.aux.toNat / 65536)
  if r.kind = .write ∧ !e.wg ∧ s.homeReached e then some e else none

/-- Ask the home of a page for its write grant, once. -/
def State.askGrant (s : State) (r : FaultRec) (e : FrameEntry) : State :=
  if s.fabric.reqs.any fun q => q.use == .grant r.die r.seq then s
  else
    let p := { s.packet 0 .grant e.hid.toNat (e.hpage.toNat * 65536) with opc := 1 }
    ((s.requestFor kernelTile 0 0 [] (.grant (s.faultDie r) r.seq) p).map (·.1)).getD s

/-- What a RESOLVED answer has changed; none where the service kernel could not do it. A page whose home on another package no route reaches
gets no write grant (R285). -/
def State.resolve (s : State) (r : FaultRec) (fix : Option W64) : Option State :=
  match r.kind with
  | .map => some (match fix with
    | some leaf => s.mapPage r.ctx r.va leaf
    | none => s)
  | .frame => some s
  | .write =>
    let page := r.aux.toNat / 65536
    let e := s.frameOf page
    some (if e.hkind = 1 ∧ !e.wg then s else s.setFrame page { e with wg := true })
  | .name =>
    ((s.ctx? r.ctx).bind fun c =>
      if (c.recOf r.aux).isSome then some s
      else (c.dir.find? fun d => d.obj == r.aux && !d.retired).bind fun d => s.newRec r.ctx d)
  | .priv => some s

/-- The page that a record is about: its virtual address for a MAP record, else its physical one. -/
def FaultRec.place (r : FaultRec) : W64 := if r.kind = .map then r.va else r.aux

/-- The records that a command waits on, as it would post them: for parts of its tensor once it is accepted (R205), for its counter block while it
waits to claim a slot (R210). -/
def State.missing (s : State) (c : Cmd) : List FaultRec :=
  let of (a : Acc) : Option FaultRec := match a with
    | .block _ post => post
    | _ => none
  if c.state = .accepted ∧ c.isCopy then (c.rowsLeft.flatMap c.parts).filterMap fun q => of (s.partAccess c q)
  else if s.claims c then
    (((s.cbOf c.wave c.form.cbn).bind fun blk => of (s.reach (s.engineWho c.wave 7 3) blk.toNat 32 32 .rmw))).toList
  else []

/-- Commands of no stopped tile or image that miss on records which pass a test fail (R204, R290). -/
def State.failMissing (s : State) (why : FaultStatus) (p : FaultRec → Bool) : State :=
  (List.range s.tiles.length).foldl (fun s tile =>
    ((s.tile tile).cmds.filter fun c => !s.proxied c.wave && (s.missing c).any p).foldl (fun s c =>
      if c.state = .accepted then s.failCmd tile c.id 0 why else s.failClaim tile c why) s) s

/-- Engine commands that wait on a record fail (R290). The proxy keeps the answer for those of a stopped tile or of an image, with the page it
is about (R303, R312). -/
def State.failOn (s : State) (die : Nat) (r : FaultRec) (why : FaultStatus) : State :=
  let held := distinct ((s.tiles.flatMap (·.cmds)).filterMap fun c =>
    if s.proxied c.wave && (s.missing c).any r.same then some c.wave else none)
  held.foldl (fun s w => s.holdReply w (.faultAnswer die r.seq why (some r.place))) (s.failMissing why r.same)

/-! ## Binding code (R295) -/

/-- The trap a record shows before its lane is resumed (R170). -/
def State.badRecord (s : State) (d : Delivery) : Option TrapKind :=
  match s.checkToken d.wave d.lane d.token with
  | .error k => some k
  | .ok _ => none

/-- The requester's delivery of BIND is answered (R170): its record is checked (R158), its token spent, and it waits as the others do,
standing where it stood. A record that fails the check ends its team with TOKEN, and one whose bytes are poisoned with POISON. -/
def State.endBind (s : State) (w l ctx : Nat) (obj : W64) : State :=
  match s.deliveries.find? fun d => d.wave == w && d.lane == l && d.name == nameBind with
  | none => s
  | some d =>
    match s.badRecord d with
    | some k => s.reportEnd (s.wave w).team (.trap k d.pc)
    | none =>
      let s1 : State := { s with deliveries := s.deliveries.erase d }
      let s2 := match (s1.thread w l).places.find? fun p => p.slot == tokRec d.token with
        | some p => s1.consume w l p
        | none => s1
      s2.modThread w l fun t => { t with wait := .binding ctx obj }

/-- The bytes of a record's object, wherever its pages stand. -/
def State.objBytes (s : State) (r : ObjRec) : List Byte := (List.range r.extent).map fun i => BitVec.ofNat 8 (s.peek (r.run + i) 1)

/-- The world's measurement after a code record became BOUND (R363). -/
def State.measure (s : State) (ctx : Nat) (r : ObjRec) : State :=
  match s.ctx? ctx with
  | none => s
  | some c =>
    s.modWorld c.world fun w =>
      { w with wdigest := (Config.shake256 (toBytes w.wdigest.toNat 64 ++ toBytes r.obj.toNat 8 ++
          toBytes (Config.shake256 (s.objBytes r)).toNat 64)).setWidth 512 }

/-- CODE_BIND: the record becomes BOUND once its pages are in the run, and its waiters go on; or it becomes UNBOUND, and BINDFAIL
is raised in the requester and every waiter. The other packages hear of a record that becomes BOUND (R372). -/
def execCodeBind (ctx : Nat) (obj : W64) (ok : Bool) (s : State) : Out :=
  match (s.ctx? ctx).bind fun c => c.recOf obj with
  | none => .next s
  | some r =>
    if r.state ≠ .binding then .next s
    else if ok && !(r.pages.all fun p => (s.frameOf p).state == .present) then .next s
    else
      let waits (t : Thread) : Bool := t.wait == .binding ctx obj
      let s1 := match r.requester with
        | some (w, l) => s.endBind w l ctx obj
        | none => s
      let s2 := (s1.setRec ctx obj fun r => { r with state := if ok then .bound else .unbound, requester := none }).mapRec ctx obj
      .next (if ok then ((s2.resumeAll waits).measure ctx r).tellBound ctx obj else s2.trapAll .bindfail waits)

/-! ## Retention (R297) -/

/-- Whether a wave is resident on a tile. -/
def State.occupied (s : State) (tile : Nat) : Bool := s.waves.any fun wv => wv.resident && wv.tile == tile

/-- Lanes that wait for a tile's arrays try again. -/
def State.wakeArray (s : State) (tile : Nat) : State := s.resumeAll fun t => t.wait == .array tile

/-- RETENTION_ENTRY: an idle tile keeps its arrays at low voltage. -/
def execRetentionEntry (tile : Nat) (s : State) : Out :=
  .next (if s.occupied tile then s else s.modTile tile fun t => { t with retention := .retained })

/-- The exit from retention. -/
def State.leaveRetention (s : State) (tile : Nat) : State :=
  (s.modTile tile fun t => { t with retention := .normal }).wakeArray tile

/-- RETENTION_EXIT: the arrays are in normal operation again, and the accesses that waited go on. -/
def execRetentionExit (tile : Nat) (s : State) : Out := .next (s.leaveRetention tile)

/-- Whether an access or a command waits for a tile to leave retention. -/
def State.exitDue (s : State) (tile : Nat) : Bool :=
  (s.tile tile).retention == .retained &&
  ((s.waves.any fun wv => wv.threads.any fun t => t.wait == .array tile) ||
   s.tiles.any fun x => x.cmds.any fun c => c.state == .accepted && (c.reads ++ c.writes).any fun r => r.tile == tile)

/-! ## Soft errors (R298) -/

/-- The tile whose SRAM a place lies in, for a scratchpad line or a register (wave, lane and register packed as
wave · 2^17 + lane · 2^10 + register). -/
def State.placeTile (s : State) (array : SoftArray) (place : Nat) : Option Nat :=
  match array with
  | .scratchpad => some ((place * 64 - 2 ^ 52) / 2 ^ 19)
  | .regfile => some (s.wave (place / 2 ^ 17)).tile
  | _ => none

/-- SOFT_ERROR: a word is corrected in place, or its line or register is poisoned. -/
def execSoftError (array : SoftArray) (place bits : Nat) (s : State) : Out :=
  let kept := (s.placeTile array place).any fun t => (s.tile t).retention == .retained
  let log (e : LogEntry) : State := { s with pkg := { s.pkg with log := s.pkg.log ++ [e] } }
  if bits = 0 ∨ array = .cleanLine then .next s
  else if bits ≤ (if kept then 2 else 1) then .next (log (.correctedError array place))
  else
    let s1 := log (.uncorrectable array place)
    match array with
    | .regfile =>
      .next { s1 with regPoison := s1.regPoison ++ [(place / 2 ^ 17, place / 2 ^ 10 % 2 ^ 7, place % 2 ^ 10)] }
    | _ => .next { s1 with poison := if s1.poison.contains place then s1.poison else s1.poison ++ [place] }

end Sys2Proof.Machine
end

