-- ==== Sys2Proof/Machine/TensorTable.lean ====
section
/-! DEFINITION. The tensor-table instructions (R217 to R220). -/

namespace Sys2Proof.Machine

/-! ## The image of an entry (R31, R217) -/

/-- Whether every reserved field of an image is zero. -/
def tReservedZero (e : BitVec 512) : Bool :=
  tfield e 376 8 == 0 && tfield e 232 24 == 0 && tfield e 172 20 == 0 && tfield e 122 6 == 0

/-- Whether the fields of an image are in order. -/
def tFieldsOk (e : BitVec 512) : Bool :=
  decide (tFmt e < 11) && decide (tBlk e < 2) && tReservedZero e &&
  !(tBlk e == 1 && tFmt e != 1 && tFmt e != 2) && tScaleOff e % 16 == 0 &&
  decide (1 ≤ tRank e) && decide (tRank e ≤ 5) &&
  ((List.range 5).all fun d => if d < tRank e then tDim e d != 0 else tDim e d == 0) &&
  ((List.range 5).all fun d => d == 0 || decide (d < tRank e) || tStride e d == 0)

/-- Write an entry. -/
def State.setTensor (s : State) (ctx tid : Nat) (e : BitVec 512) : State :=
  s.modCtx ctx fun c => { c with tensors := Sparse.set 0 c.tensors tid e }

/-- The RO fields of an entry: WORLD, SEALED, SIDE and VERSION. -/
def tKept : BitVec 512 := BitVec.ofNat 512 ((2 ^ 6 - 1) * 2 ^ 116 + 2 ^ 52 + 2 ^ 51 + (2 ^ 48 - 1))

/-- The checks of an image, in their order. -/
def State.tsetCheck (s : State) (world : Nat) (old img : BitVec 512) : Option TrapKind :=
  if tFmt old ≠ 0 ∧ tWorld old ≠ world then some .world
  else if tFmt img = 0 then none
  else if tSealed old then some .sealed
  else if !tFieldsOk img then some .xlate
  else if !s.granted world (tBase img false) (tExtent img) || !s.granted world (tBase img true) (tExtent img) then some .protect
  else none

/-- The entry that an image gives: empty, or the image's RW fields beside what is kept and the writer's world. -/
def tsetEntry (world : Nat) (old img : BitVec 512) : BitVec 512 :=
  if tFmt img = 0 then 0
  else
    (img &&& ~~~tKept) ||| (old &&& tMoving) ||| BitVec.ofNat 512 (world % 64 * 2 ^ 116)

/-- Read 64 bytes for a lane and go on with them; from another node by four packets of 16 bytes. -/
def State.readLineFor (s : State) (g : Grp) (l va : Nat) (k : State → List Byte → State × LaneEnd) : State × LaneEnd :=
  let who := s.whoFor g l 0 .dev
  if 64 ≤ g.part.length then k s (s.unpad (s.padAt g who va) g.part)
  else
    match s.reach who va 64 64 .read with
    | .ok ps pad => k (s.count ps) (s.load ps pad)
    | .remote n h =>
      let p := s.packet who.world .read n (h + g.part.length)
      s.askAt g l who va { p with wt := .b128, scope := .dev } g.part
    | a => (s, a.ended)

/-- The effect of `tset`. -/
def tsetEffect (f : EForm) (g : Grp) (s : State) : State :=
  s.onceFor g fun s l =>
    s.readLineFor g l (lo64 (g.a l)).toNat fun s bs =>
      let img := BitVec.ofNat 512 (ofBytes bs)
      let world := s.waveWorld g.w
      let old := s.entryOf g.w f.tid.toNat
      match s.tsetCheck world old img with
      | some k => (s, .trap k)
      | none => (s.setTensor g.src.ctx f.tid.toNat (tsetEntry world old img), .done)

/-- `tset`: writes an entry from an image in memory (R217). -/
def execTset (f : EForm) (s : State) : Out := issue (.tset f) s lawful (tsetEffect f)

/-- `tget`: writes the image of an entry to memory (R218). -/
def execTget (f : EForm) (s : State) : Out :=
  issue (.tget f) s lawful fun g s =>
    s.onceFor g fun s l =>
      let va := (lo64 (g.a l)).toNat
      let e := s.entryOf g.w f.tid.toNat
      let other := tFmt e != 0 && tWorld e != s.waveWorld g.w
      match s.reach (s.whoFor g l 1 .dev) va 64 64 .write with
      | .ok ps _ => if other then (s, .trap .world) else ((s.count ps).store ps (toBytes e.toNat 64), .done)
      | .remote .. =>
        if other then (s, .trap .world) else s.writeFor g l va 64 .b128 .dev .rlx (toBytes e.toNat 64)
      | a => (s, a.ended)

/-- SEALED of an entry. -/
def tSealBit : BitVec 512 := BitVec.ofNat 512 (2 ^ 52)

/-- `tseal`: seals an entry (R219). -/
def execTseal (f : EForm) (s : State) : Out :=
  issue (.tseal f) s lawful fun g s =>
    s.onceFor g fun s _ =>
      let e := s.entryOf g.w f.tid.toNat
      if tFmt e = 0 then (s, .trap .xlate)
      else if tWorld e ≠ s.waveWorld g.w then (s, .trap .world)
      else if !((s.world (tWorld e)).sealKeys.any fun k => k.1 == tKey e) then (s, .trap .protect)
      else (s.setTensor g.src.ctx f.tid.toNat (e ||| tSealBit), .done)

/-- An entry after a publication: the other side, the next version (R220). -/
def tPublished (e : BitVec 512) : BitVec 512 :=
  let v := BitVec.ofNat 512 ((tVersion e + 1) % 2 ^ 48)
  ((e ^^^ BitVec.ofNat 512 (2 ^ 51)) &&& ~~~BitVec.ofNat 512 (2 ^ 48 - 1)) ||| v

/-- The effect of `publ`. -/
def publEffect (f : EForm) (g : Grp) (s : State) : State :=
  s.onceFor g fun s _ =>
    let tid := f.tid.toNat
    let e := s.entryOf g.w tid
    if tFmt e = 0 then (s, .trap .xlate)
    else if tWorld e ≠ s.waveWorld g.w then (s, .trap .world)
    else if (s.waveCmds g.w).any fun c =>
        c.kind == .cpyw && c.form.tid == f.tid then (s, .wait (.publ tid) none)
    else (s.setTensor g.src.ctx tid (tPublished e), .done)

/-- `publ`: publishes the shadow of a tensor, once the wave's copies into it have finished: one that has failed is waited for until it is issued
again or abandoned. -/
def execPubl (f : EForm) (s : State) : Out := issue (.publ f) s lawful (publEffect f)

end Sys2Proof.Machine
end

