-- ==== Sys2Proof/Machine/Loader.lean ====
section
/-! DEFINITION. The loader's work on the `.tensor` statements of a code object (R323). DESIGN CHOICE (log 26): where the statements' records
stand and how long the last statement of each is, is data of the object's directory entry, since the object does not say it; buffers lie
at the lowest places of local HBM that are free. -/

namespace Sys2Proof.Machine

/-- A `.tensor` statement: its id, format code and dimensions, its value bytes, and how many of them are the last statement's. -/
structure TensorDecl where
  tid : Nat
  fmt : Nat
  dims : List Nat
  data : List Byte
  last : Nat
  deriving DecidableEq, Repr

/-- The statement whose record and value bytes an object holds (R323); `bytes` gives its bytes from an offset. -/
def declOf (m : TensorMark) (bytes : Nat → Nat → List Byte) : TensorDecl :=
  let h := bytes m.off 32
  let f (o n : Nat) : Nat := ofBytes ((h.drop o).take n)
  { tid := f 0 2, fmt := f 2 1, dims := (List.range (f 3 1)).map fun d => f (8 + 4 * d) 4, data := bytes (m.off + 32) (f 4 4), last := m.last }

/-- Strides of a dense tensor: STRIDE1 is DIM0, each further one STRIDE(d−1) × DIM(d−1). -/
def denseStrides (n : Nat) : List Nat → List Nat
  | [] => []
  | [_] => []
  | d :: ds => n * d :: denseStrides (n * d) ds

/-- Fields of equal width from bit `lo` up. -/
def packed (lo w : Nat) : List Nat → Nat
  | [] => 0
  | x :: xs => x % 2 ^ w * 2 ^ lo + packed (lo + w) w xs

/-- The image of a statement's entry with its two buffers. -/
def tensorImage (t : TensorDecl) (a b : Nat) : BitVec 512 :=
  BitVec.ofNat 512 (t.fmt % 256 * 2 ^ 56 + t.dims.length % 8 * 2 ^ 53 + a / 256 * 2 ^ 64 + b / 256 * 2 ^ 128 +
    packed 256 24 t.dims + packed 384 32 (denseStrides 1 t.dims))

/-- Whether the image keeps R217: its fields are in order and nothing was cut to make it. -/
def tensorSound (t : TensorDecl) : Bool :=
  tFieldsOk (tensorImage t 0 0) && decide (t.fmt < 256) && decide (t.dims.length ≤ 5) && decide (t.tid < 65536) && t.fmt != 0 &&
  (t.dims.all fun d => decide (d < 2 ^ 24)) && (denseStrides 1 t.dims).all fun d => decide (d < 2 ^ 32)

/-- The bytes of buffer A: the value bytes, then the last statement's bytes repeated, cut where the extent ends. -/
def tensorFill (t : TensorDecl) (n : Nat) : List Byte :=
  if t.data.isEmpty then []
  else
    let tail := t.data.drop (t.data.length - t.last)
    (List.range n).map fun i => if i < t.data.length then t.data.getD i 0 else tail.getD ((i - t.data.length) % tail.length) 0

/-! ## Room -/

/-- The pages that the tables below an address map, each with its size. -/
def State.mappedPages (s : State) : List Level → Nat → List (Nat × Nat)
  | [], _ => []
  | l :: ls, table =>
    let listed := s.mem.filter fun c => decide (table ≤ c.1) && decide (c.1 < table + 8 * l.entries)
    (distinct (listed.map fun c => (c.1 - table) / 8)).flatMap fun i =>
      let e := Memory.read s.mem (table + 8 * i) 8
      if !e.testBit 63 then []
      else if l.last || (l.shift == 25 && e.testBit 62) then [(bitsOf e 16 36 * 65536, 2 ^ l.shift)]
      else s.mappedPages ls (bitsOf e 12 40 * 4096)

/-- The two buffers of an entry. -/
def tBuffers (e : BitVec 512) : List (Nat × Nat) :=
  if tFmt e = 0 then [] else [(tBase e false, tExtent e), (tBase e true, tExtent e)]

/-- What a buffer of a launch's world may not overlap: buffers of other entries, frames, the memory copies and contexts of becalmed teams
(R272), and the page tables of contexts and what those of the world map. -/
def State.takenFor (s : State) (ctx world : Nat) (tids : List Nat) : List (Nat × Nat) :=
  let live := s.ctxs.filter (·.live)
  (live.flatMap fun c => c.tensors.flatMap fun e =>
    if c.num == ctx && tids.contains e.1 then [] else tBuffers e.2) ++
  ((s.frameMap.filter fun e => e.2.state != .absent).map fun e => (e.2.frame * 65536, 65536)) ++
  (live.flatMap fun c => c.scratch.filterMap fun e => match scratchOf e.2 with
    | some (.copy page n) => some (page, n * 16384)
    | _ => none) ++
  (s.teams.filterMap fun t => if t.state = .becalmed ∨ t.state = .woken then t.context else none) ++
  (live.filterMap fun c => (c.roots.filter (· != 0)).head?.map fun r => (r, c.nextTable - r)) ++
  (live.filter (·.world == world)).flatMap fun c => c.roots.flatMap fun r => s.mappedPages walkLevels r

/-- The lowest aligned place in a world's grant of local HBM that `n` bytes fit. -/
def State.bufferFor (s : State) (world align : Nat) (taken : List (Nat × Nat)) (n : Nat) : Option Nat :=
  let starts := ((s.world world).grants.map fun r => alignUp r.1 align) ++ taken.map fun x => alignUp (x.1 + x.2) align
  let ok (a : Nat) : Bool := s.isLocal a && s.isLocal (a + n - 1) && s.granted world a n &&
    taken.all fun x => decide (a + n ≤ x.1) || decide (x.1 + x.2 ≤ a)
  (starts.filter ok).foldl (fun (m : Option Nat) a =>
    match m with
    | some x => some (min x a)
    | none => some a) none

/-! ## Entries -/

/-- Write one statement's entry and buffers; none where the loader refuses. -/
def State.loadTensor (s : State) (ctx world : Nat) (tids : List Nat) (t : TensorDecl) : Option State :=
  let old := ((s.ctx? ctx).map fun c => c.tensor t.tid).getD 0
  if !tensorSound t || (tFmt old != 0 && tWorld old != world) then none
  else
    let n := tExtent (tensorImage t 0 0)
    let taken := s.takenFor ctx world tids
    (s.bufferFor world 256 taken n).bind fun a =>
      (s.bufferFor world 256 ((a, n) :: taken) n).map fun b =>
        (((s.blank a n).blank b n).store [(a, n)] (tensorFill t n)).setTensor ctx t.tid (tsetEntry world 0 (tensorImage t a b))

/-- The loader's writes for every statement of an object; none where it refuses one. `used` are the ids of live launches of the
context. -/
def State.loadTensors (s : State) (ctx world : Nat) (used : List Nat) (ts : List TensorDecl) : Option State :=
  let rec go (s : State) (done : List TensorDecl) : List TensorDecl → Option State
    | [] => some s
    | t :: rest =>
      if used.contains t.tid || done.any fun x => x.tid == t.tid then none
      else
        (s.loadTensor ctx world ((t :: rest).map (·.tid)) t).bind fun s1 => go s1 (t :: done) rest
  go s [] ts

end Sys2Proof.Machine
end

