-- ==== Sys2Proof/Machine/Launches.lean ====
section
/-! DEFINITION. Kernel headers (R41), the checks of a launch record (R256), eligibility and completion (R258 to R260, R347). -/

namespace Sys2Proof.Machine

/-! ## Objects as the service kernel reads them -/

/-- `n` bytes from a physical address, page after page wherever each stands. -/
def State.peekBytes (s : State) (pa n : Nat) : List Byte := (stretches (n / 65536 + 2) pa n).flatMap fun p => toBytes (s.peek p.1 p.2) p.2

/-- `n` bytes of an object from an offset, as a number: by its record, else as the directory holds it. -/
def State.objNat (s : State) (c : Ctx) (obj : W64) (off n : Nat) : Nat :=
  match c.recOf obj with
  | some r => ofBytes (s.peekBytes (r.run + off) n)
  | none => Memory.read (((c.dir.find? fun d => d.obj == obj).map (·.bytes)).getD []) off n

/-- The `.tensor` statements of a code object, as its records hold them (R323). -/
def State.tensorsOf (s : State) (c : Ctx) (d : DirEntry) : List TensorDecl :=
  d.tensors.map fun m => declOf m fun o n => toBytes (s.objNat c d.obj o n) n

/-! ## Headers (R41) -/

/-- Declared widths by code. -/
def widthOf (c : Nat) : Width :=
  match c with
  | 0 => .w16 | 1 => .w32 | 2 => .w64 | _ => .w128

/-- The header in a 64-byte number, none where it breaks the table of R41. -/
def parseHeader (x : Nat) : Option Header :=
  let w (k : Nat) : Nat := bitsOf x (32 * k) 32
  let f (k lo n : Nat) : Nat := bitsOf (w k) lo n
  let ok := w 0 == 0x47413934 && f 1 16 16 == 1 && f 1 3 13 == 0 && (f 1 2 1 == 0 || f 1 0 2 == 0) &&
    f 2 27 5 == 0 && decide (1 ≤ f 2 16 11) && decide (f 2 16 11 ≤ 1024) && decide (f 2 8 8 ≤ 128) && f 2 5 3 == 0 &&
    decide (1 ≤ f 2 0 5) && decide (f 2 0 5 ≤ 16) && f 3 20 12 == 0 && decide (f 3 0 20 ≤ 524288) && f 4 8 24 == 0 &&
    f 4 0 2 == 3 && (List.range 10).all fun k => w (k + 6) == 0
  if ok then
    some { width := widthOf (f 1 0 2), compat := f 1 2 1 == 1, vregs := f 2 16 11, sregs := f 2 8 8, pregs := f 2 0 5
           scratch := f 3 0 20, levels := BitVec.ofNat 8 (f 4 0 8), entry := w 5 }
  else none

/-- ENTRY's rule: a slot of a line of the object, its TGT bit set. -/
def State.entryRule (s : State) (c : Ctx) (d : DirEntry) (entry : Nat) : Bool :=
  entry % 64 % 12 == 0 && decide (entry % 64 ≤ 48) && decide (entry / 64 * 64 + 64 ≤ d.size) &&
  lineTgt (s.objNat c d.obj (entry / 64 * 64) 64) (entry % 64 / 12)

/-- The kernel a record names: its directory entry and header (R256, check 3). -/
def State.kernelOf (s : State) (c : Ctx) (r : BitVec 2048) : Option (DirEntry × Header) :=
  (c.known (recName r)).bind fun d =>
    let off := nameOff (recName r)
    if nameKind (recName r) ≠ 2 ∨ off % 64 ≠ 0 ∨ d.size < off + 64 then none
    else
      (parseHeader (s.objNat c d.obj off 64)).bind fun h =>
        if s.entryRule c d h.entry && (recEntry r == 0 || s.entryRule c d (recEntry r)) then some (d, h) else none

/-! ## Room (R263) -/

/-- Halves of hardware-wave slots a wave takes. -/
def Width.halves : Width → Nat
  | .w16 => 1 | .w32 => 2 | .w64 => 4 | .w128 => 8

/-- Partitions of a tile that belong to a world. -/
def Tile.parts (t : Tile) (world : Nat) : List Nat := (List.range 6).filter fun p => t.partWorld p == world

/-- Physical tiles of a die that the logical grid uses (R379). -/
def State.dieTiles (s : State) (die : Nat) : List Nat :=
  if (s.die die).present then s.pkg.tileMap.filter fun t => t / 48 == die else []

/-- Every tile of the logical grid. -/
def State.gridTiles (s : State) : List Nat := (List.range 4).flatMap s.dieTiles

/-- Assign `n` waves to partitions with `free` halves each: each to the one with most, the lower of equals (R264). -/
def assign (halves : Nat) : Nat → List (Nat × Nat) → Option (List Nat)
  | 0, _ => some []
  | n + 1, free =>
    let best := free.foldl (fun (m : Option (Nat × Nat)) p =>
      match m with
      | some x => if x.2 < p.2 then some p else m
      | none => some p) none
    match best with
    | none => none
    | some p =>
      if p.2 < halves then none
      else (assign halves n (free.map fun q => if q.1 = p.1 then (q.1, q.2 - halves) else q)).map (p.1 :: ·)

/-- The hardware-wave slots of a partition in use. -/
def State.slotIds (s : State) (tile part : Nat) : List Nat :=
  distinct ((s.partWaves tile part).flatMap fun w => (s.wave w).half / 2 :: (s.wave w).more)

/-- Halves of a partition's 32 slots that a wave of a width can take: at width 16 each half, at the others whole slots (R263). -/
def State.freeHalves (s : State) (tile part : Nat) (width : Width) : Nat :=
  if width = .w16 then 64 - ((s.partWaves tile part).map fun w => (s.wave w).width.halves).foldl (· + ·) 0
  else 2 * (32 - (s.slotIds tile part).length)

/-- The first run of `n` banks that pass a test. -/
def bankRun (ok : Nat → Bool) (n : Nat) : Option Nat :=
  (List.range 32).find? fun b => decide (b + n ≤ 32) && (List.range n).all fun k => ok (b + k)

/-- Banks a kernel's SCRATCH takes. -/
def Header.banks (h : Header) : Nat := (h.scratch + 16383) / 16384

/-- Whether a bank belongs to a world's partitions. -/
def Tile.bankIn (t : Tile) (world b : Nat) : Bool := t.bankWorld b == some world

/-- Whether a bank is free of every team on the tile. -/
def State.bankFree (s : State) (tile b : Nat) : Bool :=
  !(s.tile tile).zeroing.contains b &&
  s.teams.all fun t => !(t.placed && t.tile == tile && decide (t.bank ≤ b) && decide (b < t.bank + t.nbank))

/-- Whether a world's partitions of a tile could hold a team with nothing else there (R256, check 5). -/
def State.tileCould (s : State) (tile world waves : Nat) (h : Header) : Bool :=
  let t := s.tile tile
  (assign h.width.halves waves ((t.parts world).map fun p => (p, 64))).isSome && (bankRun (t.bankIn world) h.banks).isSome

/-! ## Checks (R256) -/

/-- Check 1: reserved fields, and dependences beyond NDEP. -/
def check1 (r : BitVec 2048) : Bool :=
  recBits r 16 48 16 == 0 && recBits r 24 10 2 == 0 && recBits r 24 15 1 == 0 && recBits r 24 19 13 == 0 &&
  ((List.range 7).all fun i => recBits r (32 + 4 * i) 24 5 == 0) && recBits r 64 25 39 == 0 &&
  ((List.range 14).all fun i => recBits r (144 + 8 * i) 0 64 == 0) &&
  ((List.range 4).all fun i => decide (i < recNdep r) || (recDaddr r i == 0 && recDthr r i == 0))

/-- Check 4: R10 and R255. -/
def check4 (r : BitVec 2048) (h : Header) : Bool :=
  let lv := ([2, 3, 4, 5, 6, 7] : List Nat)
  let declared := lv.filter (recDeclared r)
  (lv.all fun l => decide (recDom r l < 6) &&
    (if recDom r l = 0 then recCount r l == 0 else h.levels.getLsbD l && recCount r l != 0)) &&
  recDom r 1 == 0 && decide (1 ≤ recCount r 1) && decide (recCount r 1 ≤ h.width.lanes) &&
  (match declared with
   | [] => true
   | l :: _ => recDom r l == 1) &&
  (declared.zip declared.tail).all fun p => decide (recDom r p.1 ≤ recDom r p.2)

/-- Check 6: the packages. -/
def check6 (r : BitVec 2048) : Bool :=
  recPkgn r != 0 && decide (recPkg0 r + recPkgn r ≤ 4096) &&
  (decide (recPkgn r ≤ 1) || (recUpper r).any fun l => recDom r l == 5)

/-- Check 7: the pennant words. -/
def check7 (r : BitVec 2048) : Bool :=
  let word (a : Nat) : Bool := decide (a < 4 * 2 ^ 60) && a % 8 == 0
  decide (recNdep r ≤ 4) && ((List.range (recNdep r)).all fun i => word (recDaddr r i)) && word (recCaddr r) &&
  (recCscope r == 4 || recCscope r == 5)

/-- Scratch numbers of a launch. -/
def scratchSpan (r : BitVec 2048) (h : Header) : Nat × Nat := if h.scratch = 0 then (0, 0) else (recLtbase r, recTeams r)

/-- Whether a launch is still live: its share has not been reported complete. -/
def Launch.live (l : Launch) : Bool := l.completion.isNone

/-- The packages of a launch that have not reported their shares' completions (R258, R259). -/
def Launch.unreported (l : Launch) : List Nat :=
  ((List.range (recPkgn l.record)).map (recPkg0 l.record + ·)).filter fun n => !(l.shares.any fun e => e.1 == n) && !l.lost.contains n

/-- Whether a launch goes on somewhere, as this package knows it: its own share has not completed, a team that it has taken over still runs, or,
where it was accepted here, a package it names has yet to report its share. -/
def Launch.going (l : Launch) : Bool :=
  !l.guests.isEmpty ||
  (if l.origin.isNone && l.committed then !l.unreported.isEmpty else l.live)

/-- Check 8: scratch numbers free of the context's live launches. -/
def State.check8 (s : State) (r : BitVec 2048) (h : Header) : Bool :=
  let a := scratchSpan r h
  h.scratch == 0 ||
  (decide (a.1 + a.2 ≤ 0xFFFF) && s.launches.all fun l =>
    let b := scratchSpan l.record l.header
    !(l.going && recCtx l.record == recCtx r && a.2 != 0 && b.2 != 0 && decide (a.1 < b.1 + b.2) && decide (b.1 < a.1 + a.2)))

/-- The teams of this package's share (R258). -/
def State.shareTeams (s : State) (r : BitVec 2048) : List Nat :=
  (List.range (recTeams r)).filter fun t => recPkg0 r + shareOf r t == s.fabric.node

/-- The logical number of a physical tile, over the package. -/
def State.gridIndex (s : State) (tile : Nat) : Nat := (s.pkg.tileMap.idxOf? tile).getD 0

/-- The cluster of a tile. DESIGN CHOICE (log 14): four tiles whose logical numbers follow one another. -/
def State.cluster (s : State) (tile : Nat) : Nat := s.gridIndex tile / 4

/-- How many teams a tile takes, one after another, at most `n`: `free` gives its partitions' free halves and `banks` its free banks. A
team takes `waves` waves and a run of `need` banks. -/
def teamsIn (halves waves need : Nat) : Nat → List (Nat × Nat) → List Nat → Nat
  | 0, _, _ => 0
  | n + 1, free, banks =>
    match assign halves waves free, bankRun banks.contains need with
    | some ps, some b =>
      1 + teamsIn halves waves need n (free.map fun q => (q.1, q.2 - halves * (ps.filter (· == q.1)).length))
        (banks.filter fun k => !(decide (b ≤ k) && decide (k < b + need)))
    | _, _ => 0

/-- Teams in a unit of the highest level bound to a domain, or 1 where none is: such units stay in one cluster or die (R255). -/
def domTeams (r : BitVec 2048) (dom : Nat) : Nat :=
  ((recUpper r).filter fun l => recDom r l == dom).foldl (fun m l => max m (unitTeams r l)) 1

/-- How many units of `n` teams lie in each cluster of a die, given how many teams each of its tiles takes (R255). -/
def State.clusterUnits (s : State) (n : Nat) (room : Nat → Nat) (die : Nat) : Nat :=
  ((distinct ((s.dieTiles die).map s.cluster)).map fun c =>
    (((s.dieTiles die).filter fun t => s.cluster t == c).map room).foldl (· + ·) 0 / n).foldl (· + ·) 0

/-- How many teams a die takes, in whole units of the cluster- and die-bound levels. -/
def State.dieRoom (s : State) (r : BitVec 2048) (room : Nat → Nat) (die : Nat) : Nat :=
  let n := domTeams r 2
  let m := max n (domTeams r 3)
  let teams := n * s.clusterUnits n room die
  if domTeams r 3 = 1 then teams else teams / m * m

/-- Check 9: a co-resident share can be resident at once on the world's partitions with no other work there, each cluster- or die-bound
unit within one cluster or die. -/
def State.check9 (s : State) (r : BitVec 2048) (h : Header) : Bool :=
  let room (t : Nat) : Nat :=
    teamsIn h.width.halves (recWaves r) h.banks 384 (((s.tile t).parts (recWorld r)).map fun p => (p, 64))
      ((List.range 32).filter ((s.tile t).bankIn (recWorld r)))
  !recCor r || decide ((s.shareTeams r).length ≤ ((List.range 4).map (s.dieRoom r room)).foldl (· + ·) 0)

/-- Tensor ids in use by live launches of a context (R323). -/
def State.tidsUsed (s : State) (ctx : Nat) : List Nat := (s.launches.filter fun l => l.live && l.ctx == ctx).flatMap (·.tids)

/-- The kernel's record, created where the object has none yet. -/
def State.codeRecord (s : State) (ctx : Nat) (d : DirEntry) : State :=
  match (s.ctx? ctx).bind fun c => c.recOf d.obj with
  | some _ => s
  | none => (s.newRec ctx d).getD s

/-- The base of an object's range. -/
def State.baseOf (s : State) (ctx : Nat) (obj : W64) : W64 :=
  (((s.ctx? ctx).bind fun c => c.recOf obj).map (·.base)).getD 0

/-- A kernel taken in: its object has a record, and each of its tensors buffers and an entry (R323); none where the loader refuses. -/
def State.loaded (s : State) (ctx world : Nat) (d : DirEntry) : Option (State × List TensorDecl) :=
  let s0 := s.codeRecord ctx d
  let ts := ((s.ctx? ctx).map fun c => s.tensorsOf c d).getD []
  (s0.loadTensors ctx world (s0.tidsUsed ctx) ts).map fun s1 => (s1, ts)

/-- Whether the loader can take a kernel in: its object has a range and a run (R292), its tensors buffers and entries (R323). Where it
cannot, the launch is refused under check 3 (log 26). -/
def State.loadable (s : State) (c : Ctx) (d : DirEntry) : Bool :=
  (s.loaded c.num c.world d).isSome && (s.codeRecord c.num d).baseOf c.num d.obj != 0

/-- The checks of R256 in their order for a submitter of a world: the first that refuses, else the kernel. -/
def State.checkRecord (s : State) (submitter : Nat) (r : BitVec 2048) : Except Nat (DirEntry × Header) :=
  if !check1 r then .error 1
  else
    match s.ctx? (recCtx r) with
    | none => .error 2
    | some c =>
      if c.world ≠ recWorld r ∨ submitter ≠ recWorld r then .error 2
      else
        match s.kernelOf c r with
        | none => .error 3
        | some (d, h) =>
          if !s.loadable c d then .error 3
          else if !check4 r h then .error 4
          else if 2048 < recWaves r * h.width.lanes ∨ !(s.gridTiles.any fun t => s.tileCould t (recWorld r) (recWaves r) h) then
            .error 5
          else if !check6 r then .error 6
          else if !check7 r then .error 7
          else if !s.check8 r h then .error 8
          else if !s.check9 r h then .error 9
          else .ok (d, h)

/-! ## Submission -/

/-- A message of the service kernel to each other package that a record names, about the launch with a handle (log 21). -/
def State.toPackages (s : State) (r : BitVec 2048) (t : PacketType) (handle : Nat) (data : List Byte) : State :=
  (List.range (recPkgn r)).foldl (fun s k =>
    let n := recPkg0 r + k
    if n = s.fabric.node then s
    else s.request { s.packet 0 t n handle with data := data }) s

/-- A team before its first placement. -/
def Team.fresh (launch index die : Nat) : Team :=
  { Team.blank with launch := launch, index := index, state := .waiting, die := die }

/-- Whether a launch has a share on this package. -/
def State.named (s : State) (r : BitVec 2048) : Bool :=
  decide (recPkg0 r ≤ s.fabric.node) && decide (s.fabric.node < recPkg0 r + recPkgn r)

/-- The arrival words of a launch: one for each unit of a level bound to the fabric (R348). -/
def launchWords (r : BitVec 2048) : Nat :=
  (((recUpper r).filter fun k => recDom r k == 5).map (unitCount r)).foldl (· + ·) 0

/-- A share becomes a candidate for eligibility (R347): its teams exist, and package PKG0 has cleared the arrival words (R348). -/
def State.commit (s : State) (l : Nat) : State :=
  match s.launches[l]? with
  | none => s
  | some x =>
    if x.committed then s
    else
      let share := s.shareTeams x.record
      let first := s.teams.length
      let s1 : State := { s with
        teams := s.teams ++ share.map fun t => Team.fresh l t x.die
        mem := if x.arrivalBase ≠ 0 ∧ recPkg0 x.record = s.fabric.node then Memory.clear s.mem x.arrivalBase (8 * launchWords x.record)
          else s.mem }
      s1.modLaunch l fun x => { x with committed := true, teams := (List.range share.length).map (first + ·) }

/-- The last present die, whose HBM holds the reserved region. -/
def State.lastDie (s : State) : Nat := ((([3, 2, 1, 0] : List Nat).find? fun d => (s.die d).present)).getD 3

/-- The reserved regions lie in the HBM of the last present die (R353). -/
def State.reserve (s : State) : State :=
  s.modWorld 0 fun w =>
    { w with grants := (w.grants.filter fun g => !((List.range 4).flatMap reservedRanges).contains g) ++ reservedRanges s.lastDie }

/-- Take the arrival words of a launch, whose PKG0 this package is: their address, zero for none. DESIGN CHOICE (log 15): the words follow
one another in their range, launch after launch, and begin again at its start where it ends. -/
def State.takeWords (s : State) (r : BitVec 2048) : Nat × State :=
  let n := 8 * launchWords r
  let o := if (wordRange s.lastDie).2 < s.pkg.nextWord + n then 0 else s.pkg.nextWord
  if n = 0 ∨ recPkg0 r ≠ s.fabric.node then (0, s)
  else ((wordRange s.lastDie).1 + o, { s with pkg := { s.pkg with nextWord := o + n } })

/-- Add an accepted launch. -/
def State.addLaunch (s : State) (r : BitVec 2048) (d : DirEntry) (h : Header) (host : Option HostReq) (op : Nat)
    (lane : Option (Nat × Nat)) (die : Nat) : State :=
  let y := (s.loaded (recCtx r) (recWorld r) d).getD (s, [])
  let ts := y.2
  let base := (y.1.takeWords r).1
  let s1 := (y.1.takeWords r).2
  let entry := s1.baseOf (recCtx r) d.obj + BitVec.ofNat 64 (if recEntry r = 0 then h.entry else recEntry r)
  let x : Launch :=
    { handle := s1.pkg.nextHandle, record := r, header := h, entry := entry, host := host, hostOp := op, committed := false
      eligible := false
      queue := recPrio r, age := 0, teams := [], guests := [], resident := false
      arrivalBase := base
      firstError := none, completion := none, answers := [], origin := none, shares := [], words := [], lost := [], lane := lane, debugged := false, die := die
      tids := ts.map (·.tid) }
  { s1 with launches := s1.launches ++ [x], pkg := { s1.pkg with nextHandle := s1.pkg.nextHandle + 1 } }

/-- What a submission answers: accepted with a handle, refused by a check, or waiting for other packages. -/
inductive Submitted where
  | accepted (handle : Nat)
  | refused (check : Nat)
  | pending (launch : Nat)
  deriving DecidableEq, Repr

/-- Submit a record (R256, R347). -/
def State.submit (s : State) (submitter : Nat) (r : BitVec 2048) (host : Option HostReq) (op : Nat) (lane : Option (Nat × Nat))
    (die : Nat) : State × Submitted :=
  match s.checkRecord submitter r with
  | .error k => (s, .refused k)
  | .ok (d, h) =>
    let l := s.launches.length
    let s1 := s.addLaunch r d h host op lane die
    let handle := s.pkg.nextHandle
    if recPkgn r = 1 ∧ recPkg0 r = s.fabric.node then (s1.commit l, .accepted handle)
    else (s1.toPackages r .launch handle (toBytes r.toNat 256), .pending l)

/-- Status codes (R371). -/
def stOk : Nat := 0
def stRefused : Nat := 1
def stUnreachable : Nat := 2
def stUnknown : Nat := 3
def stMalformed : Nat := 4
def stDenied : Nat := 5
def stNotOwner : Nat := 6
def stBusy : Nat := 7
def stReset : Nat := 8
def stNoSpace : Nat := 9
def stNoName : Nat := 10
def stPoisoned : Nat := 11

/-- A buffer of a function is used: its ISR byte and its queue's MSI-X pending bit show it (R365). -/
def HostFn.used (f : HostFn) (queue : Nat) : HostFn :=
  { f with isr := f.isr ||| 1, pending := f.pending ||| BitVec.ofNat 32 (2 ^ queue) }

/-- A function that answers a request has it no longer outstanding; a message that answers none goes on its first queue. -/
def HostFn.answers (f : HostFn) (id : Option W64) (op : Nat) : HostFn :=
  match id.bind fun i => f.outstanding.find? fun o => o.id == i && o.op == op with
  | some o => { f with outstanding := f.outstanding.erase o }.used o.queue
  | none => if f.featuresOk then f.used 0 else f

/-- A message goes to a host on a function of a port: a reply with the ID of its request (R368), or one that the device sends. -/
def State.tell (s : State) (h : Option HostReq) (id : Option W64) (op status : Nat) (aux : W32) (value : W64) (body : List Byte) : State :=
  let r : Reply :=
    { port := h.map (·.port), fn := h.map (·.fn), id := id, op := op, status := status, aux := aux, value := value, body := body }
  let mine (f : HostFn) : Bool := h.any fun h => f.port == h.port && f.fn == h.fn
  { s with pkg := { s.pkg with
      replies := s.pkg.replies ++ [r], fns := s.pkg.fns.map fun f => if mine f then f.answers id op else f } }

/-- Reply to a request of a host. -/
def State.reply (s : State) (h : Option HostReq) (op status : Nat) (aux : W32) (value : W64) (body : List Byte) : State :=
  s.tell h (h.map (·.id)) op status aux value body

/-- The lowest-numbered present die, which takes the roles of die 0 (R380). -/
def State.rootDie (s : State) : Nat := s.dieFor 0

/-- Submit for a host: the reply to the request, at once where no other package must answer. -/
def State.submitFor (s : State) (submitter : Nat) (r : BitVec 2048) (host : Option HostReq) (op : Nat) : State :=
  match s.submit submitter r host op none s.rootDie with
  | (s', .accepted h) => s'.reply host op stOk 0 (BitVec.ofNat 64 h) []
  | (s', .refused k) => s'.reply host op stRefused (BitVec.ofNat 32 k) 0 []
  | (s', .pending _) => s'

/-- LAUNCH_SUBMIT: the service kernel copies and checks a record. -/
def execLaunchSubmit (world : Nat) (record : BitVec 2048) (s : State) : Out := .next (s.submitFor world record none 2)

/-! ## Eligibility (R258) -/

/-- Who reads a launch's words: its context and world, on the die that received it. -/
def launchWho (l : Launch) (acc : Nat) : Who :=
  ⟨l.ctx, l.world, l.die * 48, 0, 0, 0, 0, acc, false, true, false, false⟩

/-- A dependence word: its value, that it cannot be read yet, that it is read at another node, or the trap that makes it unreadable. -/
inductive DepWord where
  | value (n : Nat)
  | later (w : Wait) (post : Option FaultRec)
  | far (node home : Nat)
  | bad (k : TrapKind)
  deriving DecidableEq, Repr

/-- Read a dependence word, as an acquire at fabric scope. A word at another node that has reached its threshold there has done so for
good (R258). -/
def State.depWord (s : State) (l : Launch) (i : Nat) : DepWord :=
  match s.access (launchWho l 0) (recDaddr l.record i) 8 8 .read with
  | .ok ps pad => .value (ofBytes (s.load ps pad))
  | .trap k => .bad k
  | .remote n h =>
    (match l.words.find? fun e => e.1 == i with
     | some e => if recDthr l.record i ≤ e.2 then .value e.2 else .far n h
     | none => .far n h)
  | .block w p => .later w p
  | .unbound _ => .bad .xlate

/-- What the dispatcher does about a dependence word that it cannot read yet: it posts the page's record, calls the copies back, or
reads the word at its home. -/
def State.askDep (s : State) (l : Nat) (x : Launch) (i : Nat) : State :=
  match s.depWord x i with
  | .later _ (some r) => s.postOnce (.launchEligibility l) r
  | .later (.recall page) none => s.recallHome page
  | .far n h =>
    if s.fabric.reqs.any fun r => r.use == .word l i then s
    else
      let p := { s.packet x.world .read n h with wt := .u64, scope := .fabric, ord := .acq }
      ((s.requestFor kernelTile 0 0 [] (.word l i) p).map (·.1)).getD s
  | _ => s

/-- Whether asking for a dependence word would change anything. -/
def State.depDue (s : State) (l : Nat) (x : Launch) (i : Nat) : Bool :=
  match s.depWord x i with
  | .later _ (some r) => !s.joined (.launchEligibility l) r
  | .later (.recall page) none => s.recallDue page
  | .far _ _ => !s.fabric.reqs.any fun r => r.use == .word l i
  | _ => false

/-- A completion that a dependence or CADDR ends with. -/
def completionOf (k : TrapKind) (dep : Option Nat) : Completion :=
  match k with
  | .protect => .denied dep
  | .poison => .poisoned dep
  | _ => .unreachable dep

/-- The first dependence that proves unreadable. -/
def State.badDep (s : State) (l : Launch) : Option (Nat × TrapKind) :=
  (List.range (recNdep l.record)).findSome? fun i =>
    match s.depWord l i with
    | .bad k => some (i, k)
    | _ => none

/-- Whether every dependence has reached its threshold. -/
def State.depsMet (s : State) (l : Launch) : Bool :=
  (List.range (recNdep l.record)).all fun i =>
    match s.depWord l i with
    | .value n => decide (recDthr l.record i ≤ n)
    | _ => false

/-- LAUNCH-DONE: the completion goes to the submitter (R369): on its function, and in the device log for a submitter that has none, to which
the spec gives no way to report. It answers no request. The spec gives a completion with an error no status: a free value. -/
def State.reportDone (s : State) (x : Launch) (c : Completion) : State :=
  let dep (d : Option Nat) : W32 := BitVec.ofNat 32 (d.getD 0)
  let h := BitVec.ofNat 64 x.handle
  match x.host with
  | none => { s with pkg := { s.pkg with log := s.pkg.log ++ [.launchDone x.handle c] } }
  | some _ =>
    match c with
    | .ok => s.tell x.host none 3 stOk 0 h []
    | .unreachable d => s.tell x.host none 3 stUnreachable (dep d) h []
    | .denied d => s.tell x.host none 3 stDenied (dep d) h []
    | .poisoned d => s.tell x.host none 3 stPoisoned (dep d) h []
    | .cancelled => s.tell x.host none 3 stReset 0 h []
    | .error _ =>
      let f := s.free
      f.2.tell x.host none 3 (f.1.toNat % 12) 0 h []

/-- A package's share of a launch has completed, as its accepting instance learns of it: with the last share the launch's completion is
reported, with the first that is not without error (R258, R259). -/
def State.shareReport (s : State) (l package : Nat) (c : Completion) : State :=
  match s.launches[l]? with
  | none => s
  | some x =>
    if x.shares.any fun e => e.1 == package then s
    else
      let all := x.shares ++ [(package, c)]
      let s1 := s.modLaunch l fun x => { x with shares := all }
      if (List.range (recPkgn x.record)).all fun k => all.any fun e => e.1 == recPkg0 x.record + k then
        s1.reportDone x (((all.find? fun e => e.2 != .ok).map (·.2)).getD .ok)
      else s1

/-- This package's share of a launch has completed: the accepting instance learns of it, here or on another package. -/
def State.launchDone (s : State) (l : Nat) (c : Completion) : State :=
  match s.launches[l]? with
  | none => s
  | some x =>
    let s1 := s.modLaunch l fun x => { x with completion := some c, resident := false }
    match x.origin with
    | none => s1.shareReport l s.fabric.node c
    | some n => s1.request { s1.packet 0 .manager n x.handle with opc := 4, data := c.bytes }

/-- A share is abandoned: it starts no thread and makes no increment (R258). -/
def State.abandonShare (s : State) (l : Nat) (k : TrapKind) (dep : Nat) : State :=
  match s.launches[l]? with
  | none => s
  | some x =>
    let s1 : State := { s with teams := s.teams.mapIdx fun i t => if x.teams.contains i then { t with state := .ended } else t }
    s1.launchDone l (completionOf k (some dep))

/-- LAUNCH_ELIGIBILITY: the dispatcher reads the dependences. -/
def execLaunchEligibility (launch : Nat) (s : State) : Out :=
  match s.launches[launch]? with
  | none => .next s
  | some l =>
    if !l.committed || l.eligible || !l.live || !s.named l.record then .next s
    else
      match s.badDep l with
      | some (i, k) => .next (s.abandonShare launch k i)
      | none =>
        if s.depsMet l then
          .next ((s.modLaunch launch fun l => { l with eligible := true, age := 0, queue := recPrio l.record }).modDie l.die fun d =>
            { d with order := d.order ++ [launch] })
        else
          .next ((List.range (recNdep l.record)).foldl (fun s i => s.askDep launch l i) s)

/-- Whether the read of the dependences would change anything. -/
def State.eligibilityDue (s : State) (n : Nat) (l : Launch) : Bool :=
  l.committed && !l.eligible && l.live && s.named l.record &&
  ((s.badDep l).isSome || s.depsMet l || (List.range (recNdep l.record)).any fun i => s.depDue n l i)

/-- Launches whose dependence waits on a refused record are abandoned (R258). -/
def State.refuseDeps (s : State) (r : FaultRec) (k : TrapKind) : State :=
  (List.range s.launches.length).foldl (fun s l =>
    match s.launches[l]? with
    | none => s
    | some x =>
      if !x.committed || x.eligible || !x.live then s
      else
        match (List.range (recNdep x.record)).find? fun i =>
            (match s.depWord x i with
             | .later _ (some q) => q.same r
             | _ => false) with
        | some i => s.abandonShare l k i
        | none => s) s

/-! ## Completion (R259, R260) -/

/-- Whether every team of the share has ended. -/
def State.shareEnded (s : State) (l : Launch) : Bool := l.teams.all fun t => (s.team t).state == .ended

/-- The scope of a launch's completion release. -/
def Launch.scopeOf (l : Launch) : Scope := (Scope.ofCode (BitVec.ofNat 3 (recCscope l.record))).getD .dev

/-- The number under which the increment of CADDR stands among a launch's words. -/
def caddrField : Nat := 8

/-- How the increment of CADDR ends: the state, and the completion unless it must wait, for a page or for the reply of the word's home. -/
def State.raisePennant (s : State) (n : Nat) (l : Launch) : State × Option Completion :=
  let a := recCaddr l.record
  let who := { launchWho l 3 with fabric := l.scopeOf == .fabric }
  if a = 0 then (s, some .ok)
  else if s.fabric.reqs.any fun r => r.use == .word n caddrField then (s, none)
  else
    match s.access who a 8 8 .rmw with
    | .ok ps pad => ((s.count ps).store ps (bumpBytes (s.load ps pad)), some .ok)
    | .trap k => (s, some (completionOf k none))
    | .remote k h =>
      let p := { s.packet l.world .atomic k h with opc := 1, wt := .u64, scope := l.scopeOf, ord := .rel, data := toBytes 1 8 }
      (((s.requestFor kernelTile 0 0 [] (.word n caddrField) p).map (·.1)).getD s, none)
    | .block _ (some r) => (s.postOnce (.shareComplete n) r, none)
    | .block (.recall page) none => (s.recallHome page, none)
    | .block _ none => (s, none)
    | .unbound _ => (s, some (.unreachable none))

/-- SHARE_COMPLETE: the share's teams have ended; the pennant rises unless one ended with an error. -/
def execShareComplete (launch : Nat) (s : State) : Out :=
  match s.launches[launch]? with
  | none => .next s
  | some l =>
    if !l.eligible || !l.live || !s.shareEnded l then .next s
    else
      match l.firstError with
      | some e => .next (s.launchDone launch (.error e))
      | none =>
        match s.raisePennant launch l with
        | (s', some c) => .next (s'.launchDone launch c)
        | (s', none) => .next s'

/-- Launches whose pennant waits on a refused record complete without it (R259). -/
def State.refusePennant (s : State) (r : FaultRec) (k : TrapKind) : State :=
  (List.range s.launches.length).foldl (fun s l =>
    match s.launches[l]? with
    | none => s
    | some x =>
      let blocked := match s.access { launchWho x 3 with fabric := x.scopeOf == .fabric } (recCaddr x.record) 8 8 .rmw with
        | .block _ (some q) => q.same r
        | _ => false
      if x.eligible && x.live && s.shareEnded x && recCaddr x.record != 0 && blocked then s.launchDone l (completionOf k none)
      else s) s

end Sys2Proof.Machine
end

