-- ==== Sys2Proof/Machine/Store.lean ====
section
/-! DEFINITION. Vector registers in memory: save areas (R16, R17), the register file of a partition and the backing store behind it
(R15, R316, R317), and the context of a becalmed team (R272, R273). -/

namespace Sys2Proof.Machine

/-! ## Save areas (R16) -/

/-- The payload of a register in a block, as its tag stores it (R12, R17). -/
def Wave.payload (wv : Wave) (b r : Nat) : List W32 :=
  let x (k : Nat) : W32 := (wv.thread (b * wv.width.block + k)).v r
  match wv.tag b r with
  | .uniform => [x 0]
  | .affine => [x 0, x 1 - x 0]
  | .general => (List.range wv.width.block).map x

/-- The tags of a block's registers, two bits each, padded to 16 bytes (R16). -/
def Wave.areaBitmap (wv : Wave) (b : Nat) : List Byte :=
  toBytes (((List.range wv.vBudget).map fun r => (wv.tag b r).code * 4 ^ r).foldl (· + ·) 0) ((wv.vBudget + 63) / 64 * 16)

/-- The save area of a block, with the payloads of the registers listed (R16). -/
def Wave.saveArea (wv : Wave) (b : Nat) (regs : List Nat) : List Byte :=
  wv.areaBitmap b ++ regs.flatMap fun r => (wv.payload b r).flatMap fun x => toBytes x.toNat 4

/-- The save areas of a wave, in block order. -/
def Wave.saveAreas (wv : Wave) : List Byte := wv.blocks.flatMap fun b => wv.saveArea b (List.range wv.vBudget)

/-- The payload words of a register at `k`, by the code of its tag: its tag, its value in each lane of the block, and its length; none
for 0b11 (R16). -/
def readPayload (m : List Host.Cell) (k code lanes : Nat) : Option (Tag × List W32 × Nat) :=
  let word (i : Nat) : W32 := BitVec.ofNat 32 (Memory.read m (k + 4 * i) 4)
  match code with
  | 0 => some (.uniform, List.replicate lanes (word 0), 4)
  | 1 => some (.affine, (List.range lanes).map fun i => word 0 + BitVec.ofNat 32 i * word 1, 8)
  | 2 => some (.general, (List.range lanes).map word, 4 * lanes)
  | _ => none

/-- Put a register of a block back. -/
def Wave.putPayload (wv : Wave) (b r : Nat) (tag : Tag) (vals : List W32) : Wave :=
  (wv.modLanes (wv.blockLanes b) fun l t => t.setV r (vals.getD (l % wv.width.block) 0)).setTag b r tag

/-- Restore the listed registers of a block, by its tag bitmap, from payloads at `k`: the wave, and where they end. -/
def Wave.readRegs (wv : Wave) (m : List Host.Cell) (b bitmap : Nat) : List Nat → Nat → Option (Wave × Nat)
  | [], k => some (wv, k)
  | r :: rs, k =>
    (readPayload m k (bitmap / 4 ^ r % 4) wv.width.block).bind fun x =>
      ((wv.putPayload b r x.1 x.2.1).readRegs m b bitmap rs (k + x.2.2))

/-- Bytes of a tag bitmap (R16). -/
def Wave.bitmapLen (wv : Wave) : Nat := (wv.vBudget + 63) / 64 * 16

/-- Restore the listed registers of a wave from its save areas at `k`; none where a tag is 0b11 (R16). -/
def Wave.readAreas (wv : Wave) (m : List Host.Cell) (regs : List Nat) (k : Nat) : Option (Wave × Nat) :=
  wv.blocks.foldl (fun (a : Option (Wave × Nat)) b =>
    a.bind fun x =>
      let bitmap := Memory.read m x.2 wv.bitmapLen
      if (List.range wv.vBudget).any fun r => bitmap / 4 ^ r % 4 == 3 then none
      else x.1.readRegs m b bitmap regs (x.2 + wv.bitmapLen)) (some (wv, k))

/-! ## The register file (R2, R15) -/

/-- Bytes of a partition's register file. -/
def regFile : Nat := 262144

/-- What a payload takes in the file (R12, R15). -/
def Tag.cost (t : Tag) (lanes : Nat) : Nat :=
  match t with
  | .uniform => 4 | .affine => 8 | .general => 4 * lanes

/-- What a wave's payloads take, whatever holds them. -/
def Wave.cost (wv : Wave) : Nat :=
  4 * wv.vBudget * wv.blocks.length + (wv.tags.map fun e => e.2.cost wv.width.block - 4).foldl (· + ·) 0

/-- What the payloads of a register take, in every block. -/
def Wave.costAt (wv : Wave) (r : Nat) : Nat := (wv.blocks.map fun b => (wv.tag b r).cost wv.width.block).foldl (· + ·) 0

/-- What of the register file a wave takes. -/
def Wave.filed (wv : Wave) : Nat := wv.cost - (wv.moved.map wv.costAt).foldl (· + ·) 0

/-- What the other resident waves of a wave's partition leave of the register file. -/
def State.fileRoom (s : State) (w : Nat) : Nat :=
  let wv := s.wave w
  let others := s.waves.zipIdx.filter fun e => e.2 != w && e.1.resident && e.1.tile == wv.tile && e.1.part == wv.part
  regFile - (others.map fun e => e.1.filed).foldl (· + ·) 0

/-- The registers that have to lie in the store, from those listed, where the file has to lose `excess` bytes. -/
def Wave.spillFrom (wv : Wave) : List Nat → Nat → List Nat
  | [], _ => []
  | r :: rs, excess => if excess = 0 then [] else r :: wv.spillFrom rs (excess - wv.costAt r)

/-- The registers of a wave that its room in the file does not take, each whole (R15, R316). DESIGN CHOICE (log 38): the highest numbers. -/
def Wave.spilledRegs (wv : Wave) (room : Nat) : List Nat := wv.spillFrom (List.range wv.vBudget).reverse (wv.cost - room)

/-! ## The backing store (R15, R316, R317) -/

/-- The lowest-numbered resident thread of a wave, whose space holds the wave's payloads (R316). -/
def Wave.lowest (wv : Wave) : Nat := (wv.threads.findIdx? fun t => t.status != .absent).getD 0

/-- The registers that lie in the store, in ascending order. -/
def Wave.stored (wv : Wave) : List Nat := (List.range wv.vBudget).filter wv.moved.contains

/-- The save areas of the backing store: one for each block, with the payloads that lie there (R16). -/
def Wave.storeAreas (wv : Wave) : List Byte :=
  if wv.stored.isEmpty then [] else wv.blocks.flatMap fun b => wv.saveArea b wv.stored

/-- The claims of the save areas: a tag bitmap and each register's payload, block after block (R316). -/
def Wave.storeClaims (wv : Wave) : List Nat :=
  if wv.stored.isEmpty then []
  else wv.blocks.flatMap fun b => wv.bitmapLen :: wv.stored.map fun r => (wv.tag b r).cost wv.width.block

/-- Areas one after another from an offset. -/
def areasFrom (use : AreaUse) : Nat → List Nat → List Area
  | _, [] => []
  | o, n :: ns => ⟨use, o, n⟩ :: areasFrom use (o + n) ns

/-- Give the wave's claims on its lowest thread's space back. -/
def Wave.freeStore (wv : Wave) : Wave :=
  wv.modThread wv.lowest fun t => { t with areas := t.areas.filter fun a => a.use != .store }

/-- Where the wave's save areas start in its lowest thread's space, and how long they are. -/
def Wave.storePlace (wv : Wave) : Nat × Nat :=
  let l := (wv.thread wv.lowest).areas.filter fun a => a.use == .store
  ((l.head?.map (·.off)).getD 0, (l.map (·.size)).foldl (· + ·) 0)

/-- What the restore of a wave's registers from its backing store comes to. -/
inductive Refiled where
  | ok (s : State)
  /-- A tag is 0b11 or a line is poisoned: the team ends with POISON (R16, R169). -/
  | bad
  /-- A page of the store is not there. -/
  | wait (wt : Wait) (post : Option FaultRec)
  deriving DecidableEq, Repr

/-- Bring the payloads that lie in a wave's backing store back, as they stand there, before the wave goes on (R15, R16). -/
def State.refile (s : State) (w : Nat) : Refiled :=
  let wv := s.wave w
  if wv.moved.isEmpty then .ok s
  else
    match s.privPieces w wv.lowest wv.storePlace.1 wv.storePlace.2 with
    | .error e => .wait e.1 e.2
    | .ok ps =>
      if s.poisoned ps then .bad
      else
        match wv.readAreas (Memory.write [] 0 (Memory.readPieces s.mem ps)) wv.stored 0 with
        | none => .bad
        | some x => .ok (s.modWave w fun _ => x.1)

/-- Bring a wave's payloads into the register file as far as it takes them, and the others into the backing store; none where the store
finds no room or a page of it is not there (R15, R316). `old` is the wave before: save areas that have not changed are not written again. -/
def State.settle (s : State) (old : Wave) (w : Nat) : Option State :=
  let wv := s.wave w
  let room := s.fileRoom w
  if !wv.resident || (decide (wv.cost ≤ room) && wv.moved.isEmpty) then some s
  else
    let wv1 := { wv with moved := wv.spilledRegs room }
    let bs := wv1.storeAreas
    if wv1.moved = wv.moved ∧ old.moved = wv.moved ∧ bs = old.storeAreas then some s
    else
      let wv2 := wv1.freeStore
      let t := wv2.thread wv2.lowest
      let o := t.findSpace bs.length 16
      if bs.isEmpty then some (s.modWave w fun _ => wv2)
      else if t.psize < o + bs.length then none
      else
        let s1 := s.modWave w fun _ => wv2.modThread wv2.lowest fun t => { t with areas := t.areas ++ areasFrom .store o wv1.storeClaims }
        if (s1.privPieces w wv2.lowest o bs.length).toBool then some (s1.privWrite w wv2.lowest o bs) else none

/-- A spilled frame in memory is its thread's: what a program has stored there is ignored (R6, R20). -/
def State.keepFrame (s : State) (w l : Nat) (a : Area) : State :=
  match a.use with
  | .frame d =>
    let bs := ((s.thread w l).spilled.getD d frame0).bytes
    (match s.privPieces w l a.off a.size with
     | .ok ps => if Memory.readPieces s.mem ps = bs then s else s.privWrite w l a.off bs
     | .error _ => s)
  | _ => s

/-- Every spilled frame keeps its fields. -/
def State.keepFrames (s : State) : State :=
  (List.range s.waves.length).foldl (fun s w =>
    (List.range (s.wave w).threads.length).foldl (fun s l =>
      (s.thread w l).areas.foldl (fun s a => s.keepFrame w l a) s) s) s

/-- The lanes of a slot wait, its instruction not begun: the first for what stands in the way, the others for the first. -/
def State.slotWaits (s : State) (w : Nat) (lanes : List Nat) (wt : Wait) : State :=
  match lanes with
  | [] => s
  | l :: rest =>
    (s.modThread w l fun t => { t with wait := wt }).modLanes w rest fun _ t =>
      { t with hold := if t.hold.contains l then t.hold else t.hold ++ [l] }

/-- An instruction finds no room for the payloads it would leave: it has changed nothing, its wave's lowest thread posts a PRIVATE
record, and its lanes wait for the answer (R317). -/
def State.starve (s : State) (sl : Slot) : State :=
  let r := State.postPrivate { s with slots := s.slots.tail } sl.wave (s.wave sl.wave).lowest
  r.1.slotWaits sl.wave (s.slotLanes sl) r.2

/-- An instruction waits for a page of its wave's backing store. -/
def State.detain (s : State) (sl : Slot) (wt : Wait) (post : Option FaultRec) : State :=
  let r := ({ s with slots := s.slots.tail } : State).waitFor wt post
  r.1.slotWaits sl.wave (s.slotLanes sl) r.2

/-- A wave whose registers do not come back from the backing store: its team ends with POISON (R16, R169, R170). -/
def State.spoilt (s : State) (sl : Slot) : State :=
  ({ s with slots := s.slots.tail } : State).reportEnd (s.wave sl.wave).team (.trap .poison sl.pc)

/-- After an instruction of a slot: `s` is the state before it. -/
def State.settled (s : State) (sl : Slot) (s' : State) : State :=
  ((s'.settle (s.wave sl.wave) sl.wave).getD (s.starve sl)).keepFrames

/-- What an instruction of a slot leaves, brought into the register file. -/
def State.afterSlot (s : State) (sl : Slot) (o : Out) : Out :=
  match o with
  | .next s' => .next (s.settled sl s')
  | .fault f => .fault f
  | .refused r => .refused r

/-- After anything else, `old` being the waves before: each wave settles that finds room; one that does not does so at its next instruction
(log 38). -/
def State.settleAll (s : State) (old : List Wave) : State :=
  ((List.range s.waves.length).foldl (fun s w => (s.settle (old.getD w Wave.blank) w).getD s) s).keepFrames

/-- What an operation that is no instruction leaves, with its waves' payloads brought into the register files. -/
def settleOut (old : List Wave) (o : Out) : Out :=
  match o with
  | .next s' => .next (s'.settleAll old)
  | .fault f => .fault f
  | .refused r => .refused r

/-! ## The context of a becalmed team (R272, R273) -/

/-- A list in a context: its length, and its entries. -/
def countedBytes (f : α → List Byte) (l : List α) : List Byte := toBytes l.length 2 ++ l.flatMap f

/-- A set of lanes in a context. -/
def laneBytes (l : List Nat) : List Byte := toBytes ((l.map fun x => 2 ^ x).foldl (· ||| ·) 0) 16

/-- What a context holds of a thread besides its vector registers: PC, predicates, handler registers, its instructions to be performed again
with the lanes they wait for, and its arrivals. -/
def Thread.contextBytes (t : Thread) : List Byte :=
  toBytes t.pc.toNat 8 ++ toBytes t.preds.toNat 2 ++ (t.frames.headD frame0).bytes ++ countedBytes (Redo.bytes true) t.redo ++
    laneBytes t.hold ++ countedBytes (fun a => toBytes a.1 1 ++ toBytes a.2 8) t.arrivals

/-- A trap-queue entry in a context. -/
def TrapEntry.contextBytes (e : TrapEntry) : List Byte :=
  toBytes e.pc.toNat 8 ++ toBytes e.kind.code.toNat 4 ++ laneBytes (e.lanes.map (·.lane)) ++
    countedBytes (fun x => countedBytes (Redo.bytes true) x.redo) e.lanes

/-- A held command in a context. -/
def Cmd.contextBytes (c : Cmd) : List Byte :=
  toBytes c.pc.toNat 8 ++ toBytes c.word.toNat 12 ++ ([c.descA, c.descB, c.descC].flatMap fun d => toBytes d.toNat 8)

/-- What a context holds of a wave besides its save areas and its threads: scalars, `%fpflags`, trap queue, held command. -/
def Wave.contextBytes (wv : Wave) : List Byte :=
  ((List.range wv.sBudget).flatMap fun r => toBytes (wv.sreg r).toNat 4) ++ toBytes wv.fpflags.toNat 1 ++
    countedBytes TrapEntry.contextBytes wv.trapq ++ countedBytes Cmd.contextBytes wv.held.toList ++
    wv.threads.flatMap Thread.contextBytes

/-- The barriers within a team, of its waves and of the levels bound to its tile. -/
def State.ownBarriers (s : State) (t : Nat) : List Barrier :=
  s.barriers.filter fun b => (s.team t).waves.any fun w =>
    s.barrierIs b w b.level && (s.launchOf t).any fun l => b.level == 1 || recDom l.record b.level == 1

/-- Arrivals and balance of a barrier in a context. -/
def Barrier.contextBytes (b : Barrier) : List Byte :=
  toBytes b.level 1 ++ toBytes b.unit 4 ++ toBytes b.phase 8 ++ toBytes (b.balance % 2 ^ 64).toNat 8 ++
    countedBytes (fun a => toBytes a.1 4 ++ toBytes a.2 1) b.arrived

/-- The context of a team (R272): the save areas of its waves (R16), and after them what else R272 names. DESIGN CHOICE (log 19): the layout of
what follows the save areas, which the spec leaves open. -/
def State.contextBytes (s : State) (t : Nat) : List Byte :=
  ((s.team t).waves.flatMap fun w => (s.wave w).saveAreas) ++ ((s.team t).waves.flatMap fun w => (s.wave w).contextBytes) ++
    (s.ownBarriers t).flatMap Barrier.contextBytes

/-- Every register of a team is in its waves again, from the backing store too; none where a save area there does not restore. -/
def State.refileTeam (s : State) (t : Nat) : Option State :=
  (s.team t).waves.foldl (fun (a : Option State) w =>
    a.bind fun s =>
      match s.refile w with
      | .ok s' => some s'
      | .bad => none
      | .wait _ _ => some s) (some s)

/-- Write a team's context at a place; its payloads leave the backing store. -/
def State.saveContext (s : State) (t k : Nat) : State :=
  let bs := s.contextBytes t
  let s1 := s.store [(k, bs.length)] bs
  ((s.team t).waves.foldl (fun s w => s.modWave w fun wv => { wv.freeStore with moved := [] }) s1).modTeam t fun x =>
    { x with context := some (k, bs.length) }

/-- Restore a team's registers from its context; none where a tag is 0b11 or a line of the context is poisoned (R16, R298). -/
def State.loadContext (s : State) (t : Nat) : Option State :=
  match (s.team t).context with
  | none => some s
  | some (k, n) =>
    if n != 0 && s.poisoned [(k, n)] then none
    else
      ((s.team t).waves.foldl (fun (a : Option (State × Nat)) w =>
        a.bind fun x => ((x.1.wave w).readAreas x.1.mem (List.range (x.1.wave w).vBudget) x.2).map fun r =>
          (x.1.modWave w fun _ => r.1, r.2)) (some (s, k))).map fun x => x.1.modTeam t fun y => { y with context := none }

end Sys2Proof.Machine
end

