-- ==== Sys2Proof/Machine/Dispatcher.lean ====
section
/-! DEFINITION. The die dispatcher (R261 to R265), becalming and waking (R270 to R275), and the end of teams (R170). -/

namespace Sys2Proof.Machine

/-! ## Where a team may go -/

/-- Whether a team has ever been placed. -/
def Team.everPlaced (t : Team) : Bool := !t.waves.isEmpty

/-- The teams of a launch that this package has to do with: those of its share, and those it has taken over (R265). -/
def Launch.all (l : Launch) : List Nat := l.teams ++ l.guests

/-- The teams of a launch in the unit of a level that holds a team. -/
def State.mates (s : State) (l : Launch) (level index : Nat) : List Team :=
  (l.all.map s.team).filter fun t => unitIndex l.record level t.index == unitIndex l.record level index

/-- Those that have been placed. -/
def State.placedMates (s : State) (l : Launch) (level index : Nat) : List Team := (s.mates l level index).filter Team.everPlaced

/-- The unit constraints of R255 and R263: a cluster- or die-bound unit stays where its first team is, and no unit below the fabric is
spread over packages. -/
def State.unitAllows (s : State) (l : Launch) (index tile : Nat) : Bool :=
  (recUpper l.record).all fun level =>
    (recDom l.record level == 5 || (s.mates l level index).all fun t => t.state != .away) &&
    (s.placedMates l level index).all fun t =>
      match recDom l.record level with
      | 2 => s.cluster t.tile == s.cluster tile
      | 3 => t.tile / 48 == tile / 48
      | _ => true

/-- Whether banks from `b` up can take a team. -/
def State.banksFit (s : State) (tile world b n : Nat) : Bool :=
  decide (b + n ≤ 32) && (List.range n).all fun k => (s.tile tile).bankIn world (b + k) && s.bankFree tile (b + k)

/-- The partitions a team's waves go to, none where they do not fit (R264). -/
def State.seats (s : State) (tile world waves : Nat) (h : Header) : Option (List Nat) :=
  let t := s.tile tile
  assign h.width.halves waves
    (((t.parts world).filter fun p => !t.zeroParts.contains p).map fun p => (p, s.freeHalves tile p h.width))

/-- The waves of a team that take slots at its placement, in ascending `%idx1`: those that have not ended (R150, R264). -/
def State.seated (s : State) (l : Launch) (tm : Team) : List Nat :=
  if tm.everPlaced then tm.waves.filter fun w => !(s.wave w).done else List.range (recWaves l.record)

/-- Whether a team fits at a tile and first bank. -/
def State.fits (s : State) (t : Nat) (tile bank : Nat) : Bool :=
  match s.launchOf t with
  | none => false
  | some l =>
    s.gridTiles.contains tile && (s.tile tile).clock == .running &&
    (s.seats tile l.world (s.seated l (s.team t)).length l.header).isSome && s.banksFit tile l.world bank l.header.banks &&
    s.unitAllows l (s.team t).index tile

/-- How many teams of a launch a tile takes now, at most `n`. -/
def State.tileRoom (s : State) (l : Launch) (n tile : Nat) : Nat :=
  let t := s.tile tile
  if t.clock ≠ .running then 0
  else
    teamsIn l.header.width.halves (recWaves l.record) l.header.banks n
      (((t.parts l.world).filter fun p => !t.zeroParts.contains p).map fun p => (p, s.freeHalves tile p l.header.width))
      ((List.range 32).filter fun b => t.bankIn l.world b && s.bankFree tile b)

/-- Whether a unit whose first team goes to a tile finds room for the others of it too: a cluster-bound one in the cluster, a die-bound
one on the die. -/
def State.unitRoom (s : State) (l : Launch) (index tile : Nat) : Bool :=
  let r := l.record
  let fresh (dom : Nat) : Bool := (recUpper r).any fun level => recDom r level == dom && (s.placedMates l level index).isEmpty
  let room (t : Nat) : Nat := s.tileRoom l (domTeams r 3 * domTeams r 2) t
  let mine := (s.dieTiles (tile / 48)).filter fun t => s.cluster t == s.cluster tile
  (!fresh 2 || decide (domTeams r 2 ≤ (mine.map room).foldl (· + ·) 0)) &&
  (!fresh 3 || s.dieRoom r room (tile / 48) != 0)

/-- The first place of some tiles for a team: the lowest banks. -/
def State.placeAmong (s : State) (t : Nat) (tiles : List Nat) : Option Placement :=
  tiles.findSome? fun tile => ((List.range 33).find? fun b => s.fits t tile b).map fun b => ⟨t, tile, b⟩

/-- The first place of a die for a team. DESIGN CHOICE (log 17): the lowest tile, of those where its whole unit finds room if there is one, and the
lowest banks. -/
def State.placeFor (s : State) (die t : Nat) : Option Placement :=
  let whole (tile : Nat) : Bool := (s.launchOf t).any fun l => s.unitRoom l (s.team t).index tile
  (s.placeAmong t ((s.dieTiles die).filter whole)).or (s.placeAmong t (s.dieTiles die))

/-- Whether a team is one of a co-resident share that is not placed yet. -/
def State.corWaiting (s : State) (t : Nat) : Bool :=
  (s.team t).state == .waiting && (s.launchOf t).any fun l => recCor l.record

/-- The dies whose tiles a dispatching die may place a team on: its own (R263), and for a co-resident share, which is placed in one
step or not at all and whose room check 9 counts over the package, the package's other dies after it (R262; log 27). -/
def State.dieReach (s : State) (die t : Nat) : List Nat :=
  if s.corWaiting t then die :: (List.range 4).filter fun d => d != die && (s.die d).present else [die]

/-- The first place within a dispatcher's reach for a team. -/
def State.placeIn (s : State) (die t : Nat) : Option Placement := (s.dieReach die t).findSome? fun d => s.placeFor d t

/-! ## Placement -/

/-- Hardware-wave slots for a wave: one of width 16 takes half a slot that another has left, if there is one (R8, R263). -/
def State.slotsFor (s : State) (tile part : Nat) (width : Width) : Nat × List Nat :=
  let ids := s.slotIds tile part
  let fresh := ((List.range 32).filter fun k => !ids.contains k).take width.hwWaves
  let alone := (s.partWaves tile part).find? fun w =>
    (s.wave w).width == .w16 && !((s.partWaves tile part).any fun x => x != w && (s.wave x).half / 2 == (s.wave w).half / 2)
  match if width = .w16 then alone else none with
  | some w => (if (s.wave w).half % 2 = 0 then (s.wave w).half + 1 else (s.wave w).half - 1, [])
  | none => (2 * fresh.headD 0, fresh.tail)

/-- Seat the waves of a team; each joins its partition's pending set. -/
def State.seat (s : State) (tile : Nat) (ws : List (Nat × Nat)) : State :=
  ws.foldl (fun s x =>
    let h := s.slotsFor tile x.2 (s.wave x.1).width
    s.modWave x.1 fun wv =>
      { wv with resident := true, tile := tile, part := x.2, half := h.1, more := h.2, active := false, lastIssue := 0, notReady := 0
                readySince := 0, stay := 0 }) s

/-- A scratch-map entry of a region in a slice (R287). -/
def smapSlice (tile bank nbank : Nat) : W64 :=
  BitVec.ofNat 64 (2 ^ 63 + nbank * 2 ^ 56 + tile / 48 * 2 ^ 14 + tile % 48 * 2 ^ 8 + bank * 2 ^ 3)

/-- A scratch-map entry of a memory copy. -/
def smapCopy (page nbank : Nat) : W64 := BitVec.ofNat 64 (2 ^ 63 + 2 ^ 62 + nbank * 2 ^ 56 + page / 65536 * 2 ^ 16)

/-- Translate a team's scratch number. -/
def State.setScratch (s : State) (t : Nat) (e : W64) : State :=
  match s.launchOf t with
  | none => s
  | some l =>
    if l.header.scratch = 0 then s
    else s.modCtx l.ctx fun c => { c with scratch := Sparse.set 0 c.scratch (s.scratchNo (s.team t)) e }

/-- How far the private spaces of a context's threads lie apart. DESIGN CHOICE (log 9): 4 GiB, so that none grows into the next. -/
def privStride : Nat := 2 ^ 32

/-- PBASE of the thread with a serial number: aligned to 64 KiB, in regions 0x0 to 0x3 below the tensor windows (R283; log 9). -/
def pbaseOf (arena : Nat) (serial : BitVec 40) : Nat := (arena / privStride * privStride + serial.toNat * privStride) % windowBase

/-- A thread at its start (R14, R20, R251). DESIGN CHOICE (log 9): 64 MiB of private space, that of serial number n after those of the
lower ones in the context's arena. -/
def Thread.start (live : Bool) (entry : W64) (serial : BitVec 40) (arena : Nat) (idx : List W32) : Thread :=
  { Thread.blank with
    status := if live then .live else .absent, pc := entry, serial := serial, idx := idx, psize := 2 ^ 26
    pbase := pbaseOf arena serial }

/-- A wave at its start. -/
def newWave (l : Launch) (t index w : Nat) (serial : BitVec 40) (arena : Nat) : Wave :=
  let h := l.header
  { Wave.blank with
    team := t, ctx := l.ctx, width := h.width, compat := h.compat, vBudget := h.vregs, sBudget := h.sregs, pBudget := h.pregs
    levels := recLevels l.record
    threads := (List.range h.width.lanes).map fun k =>
      Thread.start (decide (k < recCount l.record 1)) l.entry (serial + BitVec.ofNat 40 k) arena (threadIdx l.record index w k) }

/-- Make the waves of a team at its first placement, with serial numbers of the context (log 7). -/
def State.makeWaves (s : State) (l : Launch) (t index : Nat) : State :=
  let n := recWaves l.record
  let base := ((s.ctx? l.ctx).map (·.nextSerial)).getD 0
  let arena := ((s.ctx? l.ctx).map (·.arena)).getD 0
  let lanes := l.header.width.lanes
  let first := s.waves.length
  let s1 : State :=
    { s with waves := s.waves ++ (List.range n).map fun w =>
      newWave l t index w (base + BitVec.ofNat 40 (w * lanes)) arena }
  (s1.modCtx l.ctx fun c => { c with nextSerial := base + BitVec.ofNat 40 (n * lanes) }).modTeam t fun x =>
    { x with waves := (List.range n).map (first + ·) }

/-- The kind of a request that is on its way to another node. -/
def Fabric.sends (f : Fabric) (r : RemoteReq) (t : PacketType) : Bool :=
  let x := f.stream r.dst r.tier
  x.sent.any (fun e => e.seq == r.seq && e.packet.typ == t) || x.queued.any fun p => p.seq == r.seq && p.typ == t

/-- The reads by which lanes of some waves still wait for a reply: abandoned accesses, which change nothing where they are performed
(R272). A step that has been sent is not abandoned, since it may have been performed (log 19). -/
def State.abandoned (s : State) (waves : List Nat) : List RemoteReq :=
  s.fabric.reqs.filter fun r => (match r.use with
    | .lane | .fetch _ => true
    | _ => false) && waves.contains r.wave && s.fabric.sends r .read

/-- What a woken team's lanes do at their placement: abandoned accesses are performed again (R273). -/
def Thread.woken (tile : Nat) (tags : List Nat) (t : Thread) : Thread :=
  match t.wait with
  | .fault _ _ | .page _ _ | .array _ | .recall _ | .walker _ | .tag _ => { t with wait := .none }
  | .remote tag => if tags.contains tag then { t with wait := .none } else t
  | .accept _ id => { t with wait := .accept tile id }
  | _ => t

/-- A team's abandoned accesses are to be performed again; the replies to those still on their way will be discarded. -/
def State.wakeLanes (s : State) (waves : List Nat) (tile : Nat) : State :=
  let gone := s.abandoned waves
  { s with
    fabric := { s.fabric with reqs := s.fabric.reqs.filter fun r => !gone.contains r }
    waves := s.waves.mapIdx fun i wv =>
      if waves.contains i then
        { wv with threads := wv.threads.map (Thread.woken tile ((gone.filter (·.wave == i)).map (·.rtag))) }
      else wv }

/-- The commands of a team move with it. -/
def State.moveCmds (s : State) (waves : List Nat) (src dst : Nat) : State :=
  let mine := (s.tile src).cmds.filter fun c => waves.contains c.wave
  (s.modTile src fun x => { x with cmds := x.cmds.filter fun c => !waves.contains c.wave }).modTile dst fun x =>
    { x with cmds := x.cmds ++ mine }

/-- A team that is placed ends with POISON where its save areas cannot be restored (R16, R169, R273). -/
def State.restoreTeam (s : State) (t : Nat) : State :=
  match s.loadContext t with
  | some s' => s'
  | none =>
    let pc := ((s.team t).waves.findSome? fun w => (s.wave w).liveLanes.head?.map fun l => (s.thread w l).pc).getD 0
    s.reportEnd t (.trap .poison pc)

/-- A team is placed: made at its first placement with its region zeroed (R257), else restored with its region copied in (R273). -/
def State.place (s : State) (p : Placement) : State :=
  let t := p.team
  let tm := s.team t
  match s.launchOf t with
  | none => s
  | some l =>
    let n := l.header.banks
    let key := sliceKey p.tile (p.bank * 16384)
    let first := tm.state == .waiting
    let s0 := if (s.tile p.tile).retention = .retained then s.leaveRetention p.tile else s
    let s1 := if first then
        { s0.makeWaves l t tm.index with
          mem := Memory.clear s0.mem key (n * 16384)
          poison := moveMarks s0.poison [] (key / 64) 0 (n * 256) }
      else
        match scratchOf (((s0.ctx? l.ctx).map fun c => c.smap (s0.scratchNo tm)).getD 0) with
        | some (.copy page _) =>
          ({ s0 with
            mem := Memory.paste s0.mem key (n * 16384) (Memory.cut s0.mem page (n * 16384))
            poison := moveMarks s0.poison s0.poison (key / 64) (page / 64) (n * 256) } : State).moveCmds tm.waves tm.tile p.tile
        | _ => s0.moveCmds tm.waves tm.tile p.tile
    let ws := s1.seated l (s1.team t)
    let seats := (s1.seats p.tile l.world ws.length l.header).getD []
    let s2 := (s1.seat p.tile (ws.zip seats)).modTeam t fun x =>
      { x with state := .resident, tile := p.tile, bank := p.bank, nbank := n, placed := true, die := p.tile / 48, waited := 0, seen := [] }
    let s3 : State := { s2.wakeLanes ws p.tile with dies := s2.dies.map fun d => { d with woken := d.woken.filter (· != t) } }
    let s4 := s3.modLaunch tm.launch fun x => { x with age := 0, queue := recPrio x.record, resident := true }
    (if n = 0 then s4 else s4.setScratch t (smapSlice p.tile p.bank n)).restoreTeam t

/-! ## A round (R261, R262) -/

/-- Undispatched teams of a launch on a die. -/
def State.undispatched (s : State) (l : Launch) (die : Nat) : List Nat :=
  l.all.filter fun t => (s.team t).state == .waiting && (s.team t).die == die

/-- The launches of a die's queue, in order of eligibility, with teams left to place. -/
def State.queueOf (s : State) (die q : Nat) : List Nat :=
  (s.die die).order.filter fun l =>
    match s.launches[l]? with
    | some x => x.queue == q && x.eligible && !(s.undispatched x die).isEmpty
    | none => false

/-- Whether a team is one of a co-resident launch. -/
def State.isCor (s : State) (t : Nat) : Bool := (s.launchOf t).any fun l => recCor l.record

/-- Whether a woken team of a co-resident launch waits anywhere in the package: no other woken team is placed before it (R262). -/
def State.corWoken (s : State) : Bool := s.dies.any fun d => d.woken.any s.isCor

/-- Place every team of a list, one after another; none where one does not fit. -/
def State.placeAll (s : State) (die : Nat) : List Nat → Option (State × List Placement)
  | [] => some (s, [])
  | t :: ts =>
    (s.placeIn die t).bind fun p => ((s.place p).placeAll die ts).map fun r => (r.1, p :: r.2)

/-- Whether a co-resident launch heads a queue at or above `q` and does not fit: no grant goes to `q` (R261). -/
def State.reserved (s : State) (die q : Nat) : Bool :=
  (List.range 8).any fun k => decide (q ≤ k) &&
    match (s.queueOf die k).head?.bind fun l => s.launches[l]? with
    | some x => recCor x.record && (s.placeAll die (s.undispatched x die)).isNone
    | none => false

/-- The teams of the next grant of a queue: the next undispatched team of the first launch whose next one can be placed, or a whole
co-resident share (R261, R262). -/
def State.nextGrant (s : State) (die q : Nat) : Option (List Nat) :=
  if s.reserved die q then none
  else
    (s.queueOf die q).findSome? fun l =>
      (s.launches[l]?).bind fun x =>
        let ts := if recCor x.record then s.undispatched x die else (s.undispatched x die).take 1
        if (s.placeAll die ts).isSome then some ts else none

/-- The queue of each grant of a round, in order: p + 1 grants for queue p, from 7 down. -/
def grantQueues : List Nat := ([7, 6, 5, 4, 3, 2, 1, 0] : List Nat).flatMap fun q => List.replicate (q + 1) q

/-- How a round takes the teams of a grant: the state with them placed, and what is left of the placements it follows. -/
abbrev Taker := State → List Nat → List Placement → Option (State × List Placement)

/-- A round (R261, R262): the woken teams that can be placed in the order of their wakes, those of co-resident launches first and the
others while none of those waits anywhere; then, with no woken team left, each queue's grants. -/
def State.round (s : State) (die : Nat) (take : Taker) (ps : List Placement) : Option (State × List Placement) :=
  let wake (a : Option (State × List Placement)) (t : Nat) : Option (State × List Placement) :=
    a.bind fun x => if (x.1.placeIn die t).isSome && (x.1.isCor t || !x.1.corWoken) then take x.1 [t] x.2 else some x
  let order := (s.die die).woken.filter s.isCor ++ (s.die die).woken.filter fun t => !s.isCor t
  (order.foldl wake (some (s, ps))).bind fun x =>
    if !(x.1.die die).woken.isEmpty then some x
    else grantQueues.foldl (fun a q => a.bind fun y =>
      match y.1.nextGrant die q with
      | some ts => take y.1 ts y.2
      | none => some y) (some x)

/-- A round takes the placements that the dispatcher is given, where they are of these teams and can be. -/
def takeGiven (die : Nat) : State → List Nat → List Placement → Option (State × List Placement)
  | s, [], ps => some (s, ps)
  | s, t :: ts, p :: ps =>
    if p.team == t && (s.dieReach die t).contains (p.tile / 48) && s.fits t p.tile p.bank then takeGiven die (s.place p) ts ps
    else none
  | _, _ :: _, [] => none

/-- A round makes the model's own choice of places, and notes them. -/
def takeOwn (die : Nat) : Taker := fun s ts ps => (s.placeAll die ts).map fun r => (r.1, ps ++ r.2)

/-- The round of a die by the model's own choice of places. -/
def State.roundFor (s : State) (die : Nat) : List Placement := ((s.round die (takeOwn die) []).map (·.2)).getD []

/-- Whether a die has anything to place. -/
def State.roundDue (s : State) (die : Nat) : Bool :=
  !(s.die die).woken.isEmpty || (List.range 8).any fun q => !(s.queueOf die q).isEmpty

/-- DISPATCH_ROUND: one round with the dispatcher's choice of tiles; placements that are not those of a round are not made. -/
def execDispatchRound (die : Nat) (grants : List Placement) (s : State) : Out :=
  match s.round die (takeGiven die) grants with
  | some (s', []) => .next s'
  | _ => .next s

/-- LAUNCH_AGING: a launch without a grant for 2^18 cycles moves to the next higher queue. -/
def execLaunchAging (launch : Nat) (s : State) : Out :=
  match s.launches[launch]? with
  | none => .next s
  | some l =>
    if 2 ^ 18 ≤ l.age ∧ l.queue < 7 then .next (s.modLaunch launch fun l => { l with queue := l.queue + 1, age := 0 }) else .next s

/-! ## Between dies (R265) -/

/-- Free hardware-wave slots of a world on a die. -/
def State.freeSlots (s : State) (die world : Nat) : Nat :=
  ((s.dieTiles die).map fun tile =>
    (((s.tile tile).parts world).map fun p => s.freeHalves tile p .w32 / 2).foldl (· + ·) 0).foldl (· + ·) 0

/-- What a die advertises. -/
def State.advertsOf (s : State) (die : Nat) : List Advert :=
  ((List.range 64).filter fun w => s.freeSlots die w != 0).map fun w => ⟨s.fabric.node, die, w, s.freeSlots die w⟩

/-- A die takes another's advertisement in. -/
def Die.hear (d : Die) (src : Nat × Nat) (ads : List Advert) : Die :=
  { d with adverts := (d.adverts.filter fun a => !(a.fromPkg == src.1 && a.fromDie == src.2)) ++ ads }

/-- Other packages that live launches of this one name. -/
def State.namedPackages (s : State) : List Nat :=
  distinct (s.launches.flatMap fun l =>
    if l.live || !l.guests.isEmpty then ((List.range (recPkgn l.record)).map (recPkg0 l.record + ·)).filter (· != s.fabric.node) else [])

/-- The payload of an ADVERT packet. DESIGN CHOICE (log 18): die, world and count for each world with room. -/
def advertBytes (a : Advert) : List Byte := toBytes a.fromDie 1 ++ toBytes a.world 1 ++ toBytes a.free 4

/-- The ADVERT packets of a die to a package: 48 worlds in each, of which the first stands for those of the interval before (log 18). -/
def State.advertPackets (s : State) (die n : Nat) (ads : List Advert) : List Packet :=
  let p := { s.packet 0 .advert n die with data := (ads.take 48).flatMap advertBytes }
  if ads.length ≤ 48 then [p] else [p, { p with opc := 1, data := (ads.drop 48).flatMap advertBytes }]

/-- FREE_SLOT_ADVERT: every 4,096 cycles a die tells the other dies, and the packages its launches name, of its free slots. -/
def execFreeSlotAdvert (die : Nat) (s : State) : Out :=
  let ads := s.advertsOf die
  let s1 : State := { s with dies := s.dies.mapIdx fun d x =>
    if d = die then { x with sinceAdvert := 0 } else x.hear (s.fabric.node, die) ads }
  .next ((s.namedPackages.flatMap fun n => s.advertPackets die n ads).foldl State.request s1)

/-- The dispatching die a number names: the own ones, then those of other packages (package · 4 + die + 4). -/
def State.farDie (s : State) (die : Nat) : Nat × Nat := if die < 4 then (s.fabric.node, die) else (die / 4 - 1, die % 4)

/-- Whether a unit of a launch is such that one of its teams may go to a die of this package: a cluster- or die-bound unit that is fixed
never leaves its die (R265). -/
def State.unitMay (s : State) (l : Launch) (index die : Nat) : Bool :=
  (recUpper l.record).all fun level =>
    (recDom l.record level != 2 && recDom l.record level != 3) || (s.placedMates l level index).all fun t => t.tile / 48 == die

/-- Whether one of its teams may go to another package: no unit below the fabric is spread over packages (R255). -/
def State.unitFar (s : State) (l : Launch) (index package : Nat) : Bool :=
  (recUpper l.record).all fun level =>
    recDom l.record level == 5 ||
      ((s.placedMates l level index).isEmpty && (s.mates l level index).all fun t => t.state != .away || t.away == some package)

/-- Whether a team may leave its die for another: one of an eligible launch, or a woken one, that the die cannot place, not of a unit
that is fixed, and the other die advertises room (R265). -/
def State.mayMove (s : State) (t die : Nat) : Bool :=
  let tm := s.team t
  let far := s.farDie die
  match s.launchOf t with
  | none => false
  | some l =>
    (s.die tm.die).adverts.any (fun a => a.fromPkg == far.1 && a.fromDie == far.2 && a.world == l.world && a.free != 0) &&
    (s.placeIn tm.die t).isNone &&
    (if far.1 = s.fabric.node then
        ((tm.state == .waiting && l.eligible) || tm.state == .woken) && !s.corWaiting t && die != tm.die && (s.die die).present &&
          s.unitMay l tm.index die
     else
        tm.state == .waiting && l.eligible && !recCor l.record && tm.origin.isNone &&
        decide (recPkg0 l.record ≤ far.1) && decide (far.1 < recPkg0 l.record + recPkgn l.record) && s.unitFar l tm.index far.1)

/-- An advertisement counts less once a team has gone there, and no more where the team was refused. -/
def Die.spend (d : Die) (far : Nat × Nat) (world n : Nat) (all : Bool) : Die :=
  { d with adverts := d.adverts.map fun a =>
      if a.fromPkg == far.1 && a.fromDie == far.2 && a.world == world then { a with free := if all then 0 else a.free - n } else a }

/-- A team goes to another die of the package. -/
def State.moveTeam (s : State) (t die : Nat) : State :=
  let tm := s.team t
  let s1 := s.modTeam t fun x => { x with die := die }
  let s2 : State := { s1 with dies := s1.dies.mapIdx fun d x =>
    let kept := { x with woken := x.woken.filter (· != t) }
    if d = die then
      { kept with woken := if tm.state = .woken then kept.woken ++ [t] else kept.woken
                  order := if kept.order.contains tm.launch then kept.order else kept.order ++ [tm.launch] }
    else kept }
  s2

/-- The payload of a TEAM packet: the launch's record, the die, the team and the package that accepted the launch (log 21). -/
def teamBytes (r : BitVec 2048) (die index origin : Nat) : List Byte :=
  toBytes r.toNat 256 ++ toBytes die 1 ++ toBytes index 4 ++ toBytes origin 2

/-- Send a team to a die of another package, whose reply acknowledges or refuses it. -/
def State.sendTeam (s : State) (t : Nat) (l : Launch) (far : Nat × Nat) : State :=
  let tm := s.team t
  let p := s.packet 0 .team far.1 l.handle
  (s.request { p with data := teamBytes l.record far.2 tm.index (l.origin.getD s.fabric.node) }).modTeam t fun x =>
    { x with state := .away, away := some far.1 }

/-- TEAM_TRANSFER: a die that cannot place a team sends it to one with room, which acknowledges or refuses it. -/
def execTeamTransfer (team die : Nat) (accepted : Bool) (s : State) : Out :=
  match s.launchOf team with
  | none => .next s
  | some l =>
    let far := s.farDie die
    let own := far.1 == s.fabric.node
    let s1 := s.modDie (s.team team).die fun d =>
      d.spend far l.world (recWaves l.record * l.header.width.hwWaves) (own && !accepted)
    if !s.mayMove team die then .next s
    else if !own then .next (s1.sendTeam team l far)
    else .next (if accepted then s1.moveTeam team die else s1)

/-- The transfer that is due: a team that its die cannot place, with a die that advertises room; a die of this package acknowledges it
if it can place it now (log 17). -/
def State.transferDue (s : State) : Option Instr :=
  (List.range s.teams.length).findSome? fun t =>
    let tm := s.team t
    if (tm.state == .waiting || tm.state == .woken) && !(s.die tm.die).adverts.isEmpty then
      ((s.die tm.die).adverts.map fun a => if a.fromPkg = s.fabric.node then a.fromDie else 4 * (a.fromPkg + 1) + a.fromDie).findSome? fun d =>
        if s.mayMove t d then some (.teamTransfer t d (decide (4 ≤ d) || (s.placeFor d t).isSome)) else none
    else none

/-- The team of a launch that has been sent to a package under an index. -/
def State.awayTeam (s : State) (l package index : Nat) : Option Nat :=
  ((s.launches[l]?).map (·.teams)).bind fun ts =>
    ts.find? fun t => (s.team t).state == .away && (s.team t).away == some package && (s.team t).index == index

/-- A team that another package has refused returns (R265). -/
def State.teamReturns (s : State) (t : Nat) : State := s.modTeam t fun x => { x with state := .waiting, away := none }

/-- A team that another package took over has ended there (R259). -/
def State.awayEnds (s : State) (t : Nat) (c : Completion) : State :=
  let s1 := s.modTeam t fun x => { x with state := .ended, away := none }
  match c with
  | .error e =>
    (s1.modTeam t fun x => { x with outcome := some e }).modLaunch (s.team t).launch fun l =>
      { l with firstError := l.firstError.orElse fun _ => some e }
  | _ => s1

/-! ## Becalming and waking (R271 to R275) -/

/-- Whether a team may become becalmed (R271, R272). -/
def State.calm (s : State) (t : Nat) : Bool :=
  let tm := s.team t
  match s.launchOf t with
  | none => false
  | some _ =>
    tm.state == .resident && tm.patience != 0 && decide (tm.patience ≤ tm.waited) && s.allWait t && (s.tile tm.tile).clock == .running &&
    !((s.tile tm.tile).cmds.any fun c => tm.waves.contains c.wave && c.state == .accepted)

/-- Whether memory can take a team's region: 64 KiB aligned local HBM within the world's grant (R287). -/
def State.copyOk (s : State) (world page n : Nat) : Bool :=
  n == 0 || (page % 65536 == 0 && s.isLocal page && s.granted world page (n * 16384))

/-- Whether memory can take a team's context: local HBM within the world's grant (R272). -/
def State.contextOk (s : State) (world k n : Nat) : Bool := n == 0 || (s.isLocal k && s.isLocal (k + n - 1) && s.granted world k n)

/-- BECALM: the team leaves its tile, its region copied to memory and its context written at the places given. Its registers come back from
there; what else its context holds no one but the device reads or writes (log 19). -/
def execBecalm (team : Nat) (places : CalmPlaces) (s : State) : Out :=
  let tm := s.team team
  match s.launchOf team with
  | none => .next s
  | some l =>
    let n := tm.nbank
    let p := places.region.toNat
    if !s.calm team || !s.copyOk l.world p n || !s.contextOk l.world places.context.toNat (s.contextBytes team).length then .next s
    else match s.refileTeam team with
    | none => .next (s.reportEnd team (.trap .poison l.entry))
    | some s =>
      let key := sliceKey tm.tile (tm.bank * 16384)
      let s1 : State := if n = 0 then s
        else { s with mem := Memory.paste s.mem p (n * 16384) (Memory.cut s.mem key (n * 16384))
                      poison := moveMarks s.poison s.poison (p / 64) (key / 64) (n * 256) }
      let s2 := if n = 0 then s1 else s1.setScratch team (smapCopy p n)
      let s3 := tm.waves.foldl (fun s w => s.modWave w fun wv => { wv with resident := false, active := false })
        (s2.saveContext team places.context.toNat)
      .next (s3.modTeam team fun x => { x with state := .becalmed, placed := false })

/-- The becalming that is due, with the pages that the service kernel chooses (R271, R272). DESIGN CHOICE (log 34): the lowest places of
the world's grant that nothing else takes; without any, the team stays. -/
def State.becalmDue (s : State) : Option Instr :=
  ((List.range s.teams.length).filter s.calm).findSome? fun t =>
    (s.launchOf t).bind fun l =>
      let n := (s.team t).nbank * 16384
      let bytes := (s.contextBytes t).length
      let taken := s.takenFor l.ctx l.world []
      (s.bufferFor l.world 65536 taken n).bind fun p =>
        (s.bufferFor l.world 65536 ((p, n) :: taken) bytes).map fun k =>
          .becalm t ⟨BitVec.ofNat 52 p, BitVec.ofNat 52 k⟩

/-- Whether a claim of a slot could be made (R273). -/
def State.claimFree (s : State) (w tile id : Nat) : Bool :=
  ((s.cmd? tile id).bind fun c => s.cbOf w c.form.cbn).any fun blk =>
    match s.access (s.engineWho w 7 3) blk.toNat 32 32 .rmw with
    | .ok ps pad => (Block.of (s.load ps pad)).free != 0
    | _ => false

/-- Whether a lane's wait has ended (R273); a lane that waits for others of its wave alone has none of its own. One whose awaited word cannot be
read here any more has to ask for it again. -/
def State.laneWakes (s : State) (w l : Nat) : Bool :=
  let t := s.thread w l
  t.status == .live &&
  match t.wait with
  | .none | .trapped => t.hold.isEmpty
  | .waitp _ _ => s.waitpReady w l
  | .cbacq _ _ => s.cbacqReady w l
  | .accept tile id => s.claimFree w tile id
  | _ => false

/-- Whether a becalmed team wakes. -/
def State.wakes (s : State) (t : Nat) : Bool :=
  let tm := s.team t
  tm.state == .becalmed && tm.waves.any fun w => (List.range (s.wave w).threads.length).any fun l => s.laneWakes w l

/-- Lanes that stopped at `halt` under a debugger go on at the slot after it (R230, R273). -/
def State.unhalt (s : State) (t : Nat) : State :=
  (s.team t).waves.foldl (fun s w => s.modWave w fun wv =>
    { wv with threads := wv.threads.map fun x => if x.wait = .halted then { x with wait := .none } else x }) s

/-- A becalmed team is queued ahead of every undispatched one. -/
def State.wake (s : State) (t : Nat) : State :=
  if s.wakes t then
    (s.modTeam t fun x => { x with state := .woken }).modDie (s.team t).die fun d => { d with woken := d.woken ++ [t] }
  else s

/-- TEAM_WAKE: a becalmed team one of whose conditions has fired is woken; the lanes that a debugger holds at `halt` are resumed first. -/
def execTeamWake (team : Nat) (s : State) : Out :=
  .next ((if (s.launchOf team).any (·.debugged) then s.unhalt team else s).wake team)

/-- TEAM_END: the service kernel ends a team (R170). -/
def execTeamEnd (team : Nat) (reason : EndReason) (s : State) : Out := .next (s.reportEnd team reason)

end Sys2Proof.Machine
end

