-- ==== Sys2Proof/Machine/Worlds.lean ====
section
/-! DEFINITION. The world configuration block of a tile (R350, R351). -/

namespace Sys2Proof.Machine

/-- The revision word of a physical tile (R306). -/
def revisionWord (tile : Nat) : W64 :=
  Config.stepping ++ (if Config.repaired tile then Config.repairHash tile else 0) ++ Config.ucode

/-- Whether the bits of a bank lie in the region of a placed team of a tile. -/
def State.inRegion (s : State) (tile b : Nat) : Bool :=
  s.teams.any fun t => t.placed && t.tile == tile && decide (t.bank ≤ b) && decide (b < t.bank + t.nbank)

/-- Whether a partition holds a resident wave, a held command or a scoreboard entry. -/
def State.partBusy (s : State) (tile part : Nat) : Bool :=
  (s.waves.any fun wv => wv.resident && wv.tile == tile && wv.part == part) ||
  (s.tile tile).cmds.any fun c => c.state == .accepted && (s.wave c.wave).part == part

/-- Partitions and banks whose world changes from one block to another. -/
def changedParts (a b : Tile) : List Nat := (List.range 6).filter fun p => a.partWorld p != b.partWorld p
def changedBanks (a b : Tile) : List Nat := (List.range 32).filter fun k => a.bankWorld k != b.bankWorld k

/-- Elements of a list that another does not hold yet. -/
def addAll (l new : List Nat) : List Nat := l ++ new.filter fun x => !l.contains x

/-- Give a tile a new block: what changes world is zeroed, whole lines at a time (R298). -/
def State.assignWorlds (s : State) (tile : Nat) (new : Tile) : State :=
  let old := s.tile tile
  let banks := changedBanks old new
  (banks.foldl (fun s b => s.wipe (sliceKey tile (b * 16384)) 16384) s).modTile tile fun _ =>
    { new with zeroing := addAll new.zeroing banks, zeroParts := addAll new.zeroParts (changedParts old new) }

/-- The block with one of its words replaced. -/
def Tile.withWord (t : Tile) (off : Nat) (value : W64) : Tile :=
  match off with
  | 0 => { t with pworld := value.setWidth 36 }
  | 8 => { t with bown0 := value.setWidth 48 }
  | 16 => { t with bown1 := value.setWidth 48 }
  | _ => t

/-- Bits of a word of the block that must be zero. -/
def reservedWord (off : Nat) (value : W64) : Bool := decide (2 ^ (if off = 0 then 36 else 48) ≤ value.toNat)

/-- A write to the block: it takes effect at once, or changes nothing and sets REFUSED. The last word is read-only. -/
def State.writeWorlds (s : State) (tile off : Nat) (value : W64) : State :=
  if off ≠ 0 ∧ off ≠ 8 ∧ off ≠ 16 then s
  else
    let old := s.tile tile
    let new := old.withWord off value
    if reservedWord off value || (changedParts old new).any (s.partBusy tile) ||
        (List.range 32).any (fun b => old.bankOwner b != new.bankOwner b && s.inRegion tile b) then
      s.modTile tile fun t => { t with refused := true }
    else s.assignWorlds tile new

/-- WORLD_CONFIG_WRITE: a write to a word of a tile's block. -/
def execWorldConfigWrite (tile off : Nat) (value : W64) (s : State) : Out := .next (s.writeWorlds tile off value)

/-- A read of a word of the block: its value, and the state, in which a read of the last word has cleared REFUSED (R6, R350). -/
def State.readWorlds (s : State) (tile off : Nat) : State × W64 :=
  let t := s.tile tile
  match off with
  | 0 => (s, t.pworld.setWidth 64)
  | 8 => (s, t.bown0.setWidth 64)
  | 16 => (s, t.bown1.setWidth 64)
  | 24 => (s.modTile tile fun t => { t with refused := false }, if t.refused then 1 else 0)
  | _ => (s, 0)

/-- The value that a read has given its reader. -/
def readGives (r : State × W64) : State := { r.1 with pkg := { r.1.pkg with readback := r.2 } }

/-- REFUSED_READ: the read gives REFUSED and clears it. -/
def execRefusedRead (tile : Nat) (s : State) : Out := .next (readGives (s.readWorlds tile 24))

/-- Zeroing has finished: what waited for the arrays goes on. -/
def State.zeroed (s : State) (tile : Nat) : State :=
  (s.modTile tile fun t => { t with zeroing := [], zeroParts := [] }).wakeArray tile

/-- ARRAY_ZEROING_DONE: the arrays are zero and can be used. -/
def execArrayZeroingDone (tile : Nat) (s : State) : Out := .next (s.zeroed tile)

end Sys2Proof.Machine
end

