-- ==== Sys2Proof/Machine/Freeze.lean ====
section
/-! DEFINITION. The freeze unit of a tile (R299 to R312), the reply proxy (R303) and writes to control registers (R6, R299). -/

namespace Sys2Proof.Machine

/-! ## The reply proxy -/

/-- Deliver what is held for waves that pass a test, in the order of receipt, before anything else. -/
def State.release (s : State) (p : Nat → Bool) : State :=
  { s with agenda := (s.proxy.filter fun x => p x.wave).map (·.item) ++ s.agenda
           proxy := s.proxy.filter fun x => !p x.wave }

/-! ## STATUS (R308) -/

def fzDone : BitVec 7 := 0x00
def fzBadop : BitVec 7 := 0x01
def fzRevision : BitVec 7 := 0x03
def fzPackage : BitVec 7 := 0x04
def fzTarget : BitVec 7 := 0x05
def fzWorld : BitVec 7 := 0x06
def fzIntegrity : BitVec 7 := 0x07
def fzConsumed : BitVec 7 := 0x08
def fzBadimage : BitVec 7 := 0x09

/-- Set STATUS. -/
def State.fzStatus (s : State) (tile : Nat) (st : BitVec 7) : State := s.modTile tile fun t => { t with status := st }

/-- A write to FZCMD: ignored while BUSY is 1, else its fields are latched and its operation goes on (R299). -/
def State.fzCommand (s : State) (tile : Nat) (op : BitVec 4) (image : Nat) (pmask : BitVec 6) (k : State → State) : State :=
  if (s.tile tile).busy then s
  else k (s.modTile tile fun t => { t with fzImage := BitVec.ofNat 52 (image / 4096 * 4096), fzOp := op, fzPmask := pmask })

/-! ## Images (R304 to R307) -/

/-- Teams with a wave on a tile. -/
def State.tileTeams (s : State) (tile : Nat) : List Nat :=
  distinct ((s.waves.filter fun wv => wv.resident && wv.tile == tile).map (·.team))

/-- Resident waves of a tile. -/
def State.tileWaves (s : State) (tile : Nat) : List Nat :=
  (List.range s.waves.length).filter fun w => (s.wave w).resident && (s.wave w).tile == tile

/-- The partitions that write a segment, as PRES holds them (R325). -/
def State.presOf (s : State) (tile : Nat) : BitVec 6 :=
  BitVec.ofNat 6 (((List.range 6).map fun p => if s.partBusy tile p then 2 ^ p else 0).foldl (· + ·) 0)

/-- The banks whose bytes an image holds: those of a present partition, and every bank of a team's region. -/
def State.imageBanks (s : State) (tile : Nat) (pres : BitVec 6) : List Nat :=
  (List.range 32).filter fun b => ((s.tile tile).bankOwner b).any pres.getLsbD || s.inRegion tile b

/-- KIND of an outstanding request (R307). -/
def ortKind (r : RemoteReq) (p : Packet) : Nat :=
  match r.use, p.typ with
  | .fetch _, _ => 3
  | .cmd _ _, .write => if p.data.isEmpty then 4 else 5
  | .block _ _, .read => 4
  | .block _ _, _ => 5
  | _, .write => 1
  | _, .atomic | _, .xa => 2
  | _, .rstf => 6
  | _, _ => 0

/-- Bytes that the reply to a request is still to bring (R307): to a load, an atomic, a fetch or an engine read. -/
def ortRemain (r : RemoteReq) (p : Packet) : Nat :=
  match ortKind r p with
  | 0 | 2 => if p.typ = .xa then (if p.wt = .f64 ∧ p.data.isEmpty then 9 else 0) else p.wt.bytes
  | 3 => 64
  | 4 => if p.typ = .read then p.wt.bytes else 64
  | _ => 0

/-- The packet of a request, as its stream still holds it. -/
def Fabric.packetOf (f : Fabric) (r : RemoteReq) : Option Packet :=
  let x := f.stream r.dst r.tier
  (x.sent.map (·.packet) ++ x.queued).find? fun p => p.seq == r.seq && p.rtag == r.rtag

/-- The lanes of a block of 32 that still wait for a request, as MASK has them. -/
def State.ortMask (s : State) (r : RemoteReq) : Nat :=
  let wv := s.wave r.wave
  ((wv.lanesWith fun t => t.wait == .remote r.rtag).map fun l =>
    if l / 32 = r.lane / 32 then 2 ^ ((if wv.width = .w16 then wv.half % 2 * 16 else 0) + l % 32) else 0).foldl (· + ·) 0

/-- The physical address that a request was formed with: of the page of this package that another node holds, or of the page here that stands
for its home's (R284, R285, R307). -/
def State.ortAddr (s : State) (p : Packet) : Nat :=
  let a := p.addr.toNat
  if atFrameBit ≤ a then a - atFrameBit
  else
    match s.frameMap.find? fun e => e.2.v && e.2.hkind != 0 && e.2.hid == p.dst && e.2.hpage.toNat == a / 65536 with
    | some e => e.1 * 65536 + a % 65536
    | none => a

/-- The destination register field of the instruction that a request performs (R307): of the waiting lanes' instruction, or of a command's. -/
def State.ortDreg (s : State) (tile : Nat) (r : RemoteReq) : Nat :=
  let field (w : IWord) : Nat := (w.extractLsb' 64 10).toNat
  match r.use with
  | .cmd id _ | .block id _ => ((s.cmd? tile id).map fun c => field c.word).getD 0
  | .fetch _ => 0
  | _ => (((s.thread r.wave r.lane).redo.head?).map fun d => field d.word).getD 0

/-- Outstanding-request entry of a request of a tile (R307). A request leaves the tile in the step that forms it, so that none is queued
(log 46). -/
def State.ortEntry (s : State) (tile : Nat) (r : RemoteReq) : Nat :=
  let wv := s.wave r.wave
  let p? := s.fabric.packetOf r
  let addr := (p?.map s.ortAddr).getD 0
  let hw := if r.lane < 32 then wv.half / 2 else wv.more.getD (r.lane / 32 - 1) 0
  let dreg := s.ortDreg tile r
  addr * 2 ^ 192 + s.ortMask r * 2 ^ 160 + r.rtag * 2 ^ 148 + wv.part * 2 ^ 145 + hw * 2 ^ 140 +
    ((p?.map (ortKind r)).getD 0) * 2 ^ 136 + (if r.part.isEmpty then 1 else 2) * 2 ^ 134 + dreg * 2 ^ 118 +
    ((p?.map (ortRemain r)).getD 0) * 2 ^ 80 + tile / 48 * 2 ^ 62 + tile % 48 * 2 ^ 56

/-- The outstanding requests of a tile's waves. -/
def State.tileReqs (s : State) (tile : Nat) : List RemoteReq :=
  s.fabric.reqs.filter fun r => r.tile == tile && (s.wave r.wave).resident && (s.wave r.wave).tile == tile

/-- Bytes of an image's header with its outstanding requests, up to the tile segment (R304). -/
def headerSize (nort : Nat) : Nat := (256 + 32 * nort + 4095) / 4096 * 4096

/-- Bytes of the tile segment, fixed for a revision (R304). -/
def tileSegmentSize (rev : W64) : Nat := (1 + Config.tileSegmentPages rev % 64) * 4096

/-- `n` bytes of a list, with zeros after its end. -/
def sized (n : Nat) (bs : List Byte) : List Byte := bs.take n ++ List.replicate (n - bs.length) 0

/-- The segments of an image as memory shows them (R304): the tile's, then those of the present partitions, each in whole 4 KiB pages and
enciphered for its world, so that it reads as bytes no rule gives (R354, log 47). -/
def imageSegments (x : Image) (open_ : BitVec 512) : List Byte :=
  sized (tileSegmentSize x.rev) (Config.segmentBytes open_ 6) ++
    ((List.range 6).filter x.pres.getLsbD).flatMap fun p =>
      let bs := (Config.segmentBytes open_ p).take (102 * 4096)
      sized ((bs.length + 4095) / 4096 * 4096) bs

/-- The header of an image, TAG zero, and its outstanding requests (R305). The credits OUTCR are free values: no rule gives a port's
capacity. -/
def imageHeader (x : Image) (ort : List Byte) (nort length : Nat) (open_ : BitVec 512) : List Byte :=
  let w (n : Nat) : List Byte := toBytes n 8
  let outcr (d : Nat) : Nat := ((List.range 4).map fun c => bitsOf open_.toNat (128 + 32 * d + 8 * c) 8 * 2 ^ (16 * c)).foldl (· + ·) 0
  let head :=
    w (0x4741494D * 2 ^ 32 + 2 ^ 16) ++ w x.rev.toNat ++ w length ++
    w (x.pkg * 2 ^ 52 + x.tile / 48 * 2 ^ 50 + x.tile % 48 * 2 ^ 44 + x.freezeId.toNat) ++ w x.cycle.toNat ++
    w (x.pres.toNat * 2 ^ 36 + x.wmap.toNat) ++ w nort ++ w 0 ++ ((List.range 4).flatMap fun d => w (outcr d)) ++
    List.replicate 144 0
  sized (headerSize nort) (head ++ List.replicate 16 0 ++ ort)

/-- The bytes of an image (R304), TAG zero. -/
def imageBytes (x : Image) (ort : List Byte) (nort : Nat) (open_ : BitVec 512) : List Byte :=
  let segments := imageSegments x open_
  imageHeader x ort nort (headerSize nort + segments.length) open_ ++ segments

/-- TAG over what memory holds of an image's header, its outstanding requests and its tile segment (R305). -/
def State.tagOf (s : State) (addr : Nat) : BitVec 128 :=
  let nort := Memory.read s.mem (addr + 48) 8
  let rev : W64 := BitVec.ofNat 64 (Memory.read s.mem (addr + 8) 8)
  Config.imageTag (Memory.bytes s.mem addr 240 ++ Memory.bytes s.mem (addr + 256) (32 * nort) ++
    Memory.bytes s.mem (addr + headerSize nort) (tileSegmentSize rev))

/-- Write TAG. -/
def State.putTag (s : State) (addr : Nat) : State := s.store [(addr + 240, 16)] (toBytes (s.tagOf addr).toNat 16)

/-- The image of a stopped tile; its bytes are those of the slice's banks it holds. -/
def State.imageOf (s : State) (tile : Nat) : Image :=
  let t := s.tile tile
  let pres := s.presOf tile
  let waves := s.tileWaves tile
  let banks := s.imageBanks tile pres
  { addr := t.fzImage, freezeId := s.pkg.nextFreeze, pkg := s.fabric.node, tile := tile, rev := revisionWord tile
    wmap := t.pworld, pres := pres, waves := waves, teams := s.tileTeams tile
    cmds := t.cmds.filter fun c => waves.contains c.wave
    fills := t.fills.filter fun f => waves.contains f.wave
    slice := (Memory.cut s.mem (sliceKey tile 0) (2 ^ 19)).filter fun c => banks.contains (c.1 / 16384)
    bown0 := t.bown0, bown1 := t.bown1, cycle := t.cycle }

/-- The tile's state goes into its image, and the tile is left idle (R302). DESIGN CHOICE (log 83): of an image that does not lie in local HBM
within world 0's grant (R353) no byte is written; the tile's state leaves it all the same, and STATUS is DONE. -/
def State.takeImage (s : State) (tile : Nat) : State :=
  let x := s.imageOf tile
  let reqs := s.tileReqs tile
  let ort := reqs.flatMap fun r => toBytes (s.ortEntry tile r) 32
  let f := s.free
  let bs := imageBytes x ort reqs.length f.1
  let a := x.addr.toNat
  let fits := s.isLocal a && s.isLocal (a + bs.length - 1) && s.granted 0 a bs.length
  let s1 := if fits then (f.2.store [(a, bs.length)] bs).putTag a else f.2
  let s2 : State := { s1 with
    waves := s1.waves.mapIdx fun i wv => if x.waves.contains i then { wv with resident := false } else wv
    teams := s1.teams.mapIdx fun i t => if x.teams.contains i then { t with state := .frozen, placed := false } else t
    images := s1.images ++ [x], pkg := { s1.pkg with nextFreeze := s1.pkg.nextFreeze + 1 } }
  s2.modTile tile fun t =>
    { t with cmds := t.cmds.filter fun c => !x.waves.contains c.wave, fills := t.fills.filter fun f => !x.waves.contains f.wave
             busy := false, status := fzDone, freezeId := x.freezeId }

/-- FREEZE: the clock stops between two clocks; the stream is under way. -/
def execFreeze (tile : Nat) (image : BitVec 52) (s : State) : Out :=
  .next (s.fzCommand tile 1 image.toNat 0 fun s => s.modTile tile fun t => { t with busy := true, clock := .frozen })

/-- FREEZE_DONE: the stream has finished. -/
def execFreezeDone (tile : Nat) (s : State) : Out :=
  .next (if (s.tile tile).busy ∧ (s.tile tile).fzOp = 1 then s.takeImage tile else s)

/-! ## QUIESCE, STOP, START (R300, R312) -/

/-- End the teams that have a wave in one of the partitions. -/
def State.quiesceParts (s : State) (tile : Nat) (pmask : BitVec 6) (reason : EndReason) : State :=
  (distinct ((s.waves.filter fun wv => wv.resident && wv.tile == tile && pmask.getLsbD wv.part).map (·.team))).foldl
    (fun s t => s.endTeam t (some reason)) s

/-- QUIESCE: the partitions' teams end with everything they hold, and the other partitions run on. -/
def execQuiesce (tile : Nat) (pmask : BitVec 6) (s : State) : Out :=
  .next (s.fzCommand tile 2 0 pmask fun s => (s.quiesceParts tile pmask .quiesced).fzStatus tile fzDone)

/-- Stop a running clock. -/
def Tile.halt (t : Tile) : Tile := { t with clock := if t.clock = .running then .stopped else t.clock }

/-- STOP: the clock stops. -/
def execStop (tile : Nat) (s : State) : Out :=
  .next (s.fzCommand tile 4 0 0 fun s => s.modTile tile fun t => { t.halt with status := fzDone })

/-- START: a stopped tile receives what the proxy holds for it and runs. -/
def execStart (tile : Nat) (s : State) : Out :=
  .next (s.fzCommand tile 5 0 0 fun s =>
    let s1 := s.fzStatus tile fzDone
    if (s.tile tile).clock = .stopped then
      ((s1.modTile tile fun t => { t with clock := .running }).release fun w => (s.tileWaves tile).contains w).wakeArray tile
    else s1)

/-- Whether a comparator matches an instruction that would issue next in a partition. -/
def State.matched (s : State) (tile part n : Nat) : Bool := (s.choose tile part).any fun sl => (s.tile tile).armed n sl.2.pc

/-- FZPC_STOP: a comparator stops the tile before a group issues the instruction at its PC. Bits [31:2] of FREEZEID are a free
value. -/
def execFzpcStop (tile n : Nat) (s : State) : Out :=
  if (s.tile tile).clock = .running ∧ n < 4 ∧ (List.range 6).any (fun p => s.matched tile p n) then
    let f := s.free
    .next (f.2.modTile tile fun t =>
      { t.halt with status := fzDone, freezeId := f.1.extractLsb' 2 30 ++ BitVec.ofNat 2 n })
  else .next s

/-! ## RESTORE (R308, R309) -/

/-- The image at an address under an identity. -/
def State.image? (s : State) (addr : Nat) (id : W32) : Option Image :=
  s.images.find? fun x => x.addr.toNat == addr && x.freezeId == id

/-- A word of the header as memory holds it. -/
def State.hword (s : State) (addr i : Nat) : Nat := Memory.read s.mem (addr + 8 * i) 8

/-- FREEZEID of the header at an address. -/
def State.headerId (s : State) (addr : Nat) : W32 := BitVec.ofNat 32 (s.hword addr 3)

/-- BADIMAGE. -/
def State.headerBad (s : State) (addr : Nat) : Bool :=
  let h := s.hword addr
  h 0 != 0x4741494D * 2 ^ 32 + 2 ^ 16 || decide (0x2C0000 < h 2) || bitsOf (h 3) 32 12 != 0 || decide (2 ^ 42 ≤ h 5) ||
  decide (3072 < h 6) || h 7 != 0 || ((List.range 18).any fun i => h (12 + i) != 0) ||
  (List.range (h 6)).any fun i =>
    let e := Memory.read s.mem (addr + 256 + 32 * i) 32
    bitsOf e 128 6 != 0 || bitsOf e 96 22 != 0 || bitsOf e 64 16 != 0 || bitsOf e 0 56 != 0

/-- INTEGRITY: TAG, and that the stored segments are those of this header. No flit is captured, so INOCC must be zero. -/
def State.headerBroken (s : State) (addr : Nat) : Bool :=
  BitVec.ofNat 128 (Memory.read s.mem (addr + 240) 16) != s.tagOf addr ||
  (s.image? addr (s.headerId addr)).isNone ||
  (List.range 16).any fun i => bitsOf (s.hword addr (8 + i / 4)) (16 * (i % 4) + 8) 8 != 0

/-- The checks of a RESTORE in their order: STATUS where one fails. -/
def State.restoreCheck (s : State) (tile addr : Nat) : Option (BitVec 7) :=
  if s.headerBad addr then some fzBadimage
  else if s.headerBroken addr then some fzIntegrity
  else if s.hword addr 3 / 2 ^ 52 ≠ s.fabric.node then some fzPackage
  else if BitVec.ofNat 64 (s.hword addr 1) ≠ revisionWord tile then some fzRevision
  else if s.pkg.consumed.contains (s.headerId addr) then some fzConsumed
  else if s.occupied tile || (s.tile tile).cmds.any (fun c => c.state == .accepted) then some fzTarget
  else if (s.image? addr (s.headerId addr)).any (fun x =>
      (List.range 6).any fun p => x.pres.getLsbD p && !(s.world (bitsOf x.wmap.toNat (6 * p) 6)).live) then some fzWorld
  else none

/-- RESTORE: the checks, then the stream is under way. A tile in retention leaves it first. -/
def execRestore (tile : Nat) (image : BitVec 52) (s : State) : Out :=
  .next (s.fzCommand tile 3 image.toNat 0 fun s =>
    match s.restoreCheck tile (s.tile tile).fzImage.toNat with
    | some st => s.fzStatus tile st
    | none =>
      let s1 := if (s.tile tile).retention = .retained then s.leaveRetention tile else s
      s1.modTile tile fun t => { t with busy := true, clock := .restoring })

/-- The owner field of a bank. -/
def ownerField (b0 b1 : BitVec 48) (b : Nat) : Nat :=
  if b < 16 then bitsOf b0.toNat (3 * b) 3 else bitsOf b1.toNat (3 * (b - 16)) 3

/-- Teams of an image that still are in it. -/
def State.imageTeams (s : State) (x : Image) : List Nat := x.teams.filter fun t => (s.team t).state == .frozen

/-- The banks an image holds: those of its present partitions, and the regions of the teams that still are in it. DESIGN CHOICE (log 84): a bank
of such a region that belongs to a partition with a clear PRES bit is in the image too, and the target's bank gets that owner. -/
def State.heldBanks (s : State) (x : Image) : List Nat :=
  (List.range 32).filter fun b =>
    let o := ownerField x.bown0 x.bown1 b
    (decide (o < 6) && x.pres.getLsbD o) || (s.imageTeams x).any fun t =>
      decide ((s.team t).bank ≤ b) && decide (b < (s.team t).bank + (s.team t).nbank)

/-- The target's world block after step 1. -/
def State.blockFor (s : State) (tile : Nat) (x : Image) : Tile :=
  let t := s.tile tile
  let held := s.heldBanks x
  let owner (b : Nat) : Nat := if held.contains b then ownerField x.bown0 x.bown1 b else ownerField t.bown0 t.bown1 b
  let sum (l : List Nat) : Nat := l.foldl (· + ·) 0
  { t with
    pworld := BitVec.ofNat 36 (sum ((List.range 6).map fun p =>
      (if x.pres.getLsbD p then bitsOf x.wmap.toNat (6 * p) 6 else t.partWorld p) * 2 ^ (6 * p)))
    bown0 := BitVec.ofNat 48 (sum ((List.range 16).map fun b => owner b * 2 ^ (3 * b)))
    bown1 := BitVec.ofNat 48 (sum ((List.range 16).map fun b => owner (b + 16) * 2 ^ (3 * b))) }

/-- A wait that names the source tile's own commands names the target's. -/
def Wait.retile (src dst : Nat) (w : Wait) : Wait :=
  match w with
  | .scoreboard t c => if t = src then .scoreboard dst c else w
  | .accept t c => if t = src then .accept dst c else w
  | _ => w

/-- A wave of an image on its target. -/
def Wave.retile (wv : Wave) (src dst : Nat) : Wave :=
  { wv with resident := true, tile := dst, threads := wv.threads.map fun t => { t with wait := t.wait.retile src dst } }

/-- Accepted commands name the slices where the scratch map has them now. -/
def State.rerange (s : State) : State :=
  { s with tiles := s.tiles.map fun t =>
      { t with cmds := t.cmds.map fun c =>
          if c.state = .accepted then { c with reads := (s.cmdRanges c).1, writes := (s.cmdRanges c).2 } else c } }

/-- A tile that was frozen runs again once no image of it is left. -/
def State.thaw (s : State) (tile : Nat) : State :=
  if (s.tile tile).clock = .frozen ∧ !(s.tile tile).busy ∧
      s.images.all (fun x => x.tile != tile || s.pkg.consumed.contains x.freezeId) then
    (s.modTile tile fun t => { t with clock := .running }).wakeArray tile
  else s

/-- An image is never restored again. -/
def State.consumeImage (s : State) (id : W32) : State :=
  { s with pkg := { s.pkg with consumed := s.pkg.consumed ++ [id] } }

/-- Steps 1 to 7 of R309. -/
def State.putImage (s : State) (tile : Nat) (x : Image) : State :=
  let teams := s.imageTeams x
  let alive (w : Nat) : Bool := x.waves.contains w && teams.contains (s.wave w).team
  let move (r : RemoteReq) : RemoteReq := if alive r.wave && r.tile == x.tile then { r with tile := tile } else r
  let s1 := (s.assignWorlds tile (s.blockFor tile x)).zeroed tile
  let s2 : State := { s1 with
    mem := (s1.heldBanks x).foldl (fun m b =>
      Memory.paste m (sliceKey tile (b * 16384)) 16384 (Memory.cut x.slice (b * 16384) 16384)) s1.mem
    waves := s1.waves.mapIdx fun i wv => if alive i then wv.retile x.tile tile else wv
    teams := s1.teams.mapIdx fun i t =>
      if teams.contains i then { t with state := .resident, tile := tile, die := tile / 48, placed := true } else t
    fabric := { s1.fabric with reqs := s1.fabric.reqs.map move } }
  let s3 := teams.foldl (fun s t =>
    if (s.team t).nbank = 0 then s else s.setScratch t (smapSlice tile (s.team t).bank (s.team t).nbank)) s2
  let s4 := (s3.modTile tile fun t =>
    { t with cmds := t.cmds ++ (x.cmds.filter fun c => alive c.wave), fills := t.fills ++ x.fills.filter fun f => alive f.wave }).rerange
  let s5 := ((s4.release alive).consumeImage x.freezeId).modTile tile fun t =>
    { t with busy := false, status := fzDone, freezeId := x.freezeId, clock := .running }
  ((s5.thaw x.tile).wakeArray x.tile).wakeArray tile

/-- RESTORE_DONE: the segments are in, and the tile's clock starts. An image that another tile has restored in the meantime is consumed: the
target is left idle (R308, R311). -/
def execRestoreDone (tile : Nat) (s : State) : Out :=
  let t := s.tile tile
  if !t.busy || t.fzOp != 3 then .next s
  else
    match s.image? t.fzImage.toNat (s.headerId t.fzImage.toNat) with
    | some x =>
      if s.pkg.consumed.contains x.freezeId then
        .next ((s.modTile tile fun t => { t with busy := false, status := fzConsumed, clock := .running }).wakeArray tile)
      else .next (s.putImage tile x)
    | none => .next s

/-! ## DISCARD -/

/-- An image is marked as never to be restored, and what the proxy holds for it is released. For one that has been restored or discarded it
holds nothing any more (R311). DESIGN CHOICE (log 85): its teams stay frozen, so that their launch completes only when they are ended. -/
def State.discardImage (s : State) (x : Image) : State :=
  if s.pkg.consumed.contains x.freezeId then s
  else (({ s with proxy := s.proxy.filter fun p => !x.waves.contains p.wave } : State).consumeImage x.freezeId).thaw x.tile

/-- DISCARD: the image at an address; STATUS is BADIMAGE where there is none. -/
def execDiscard (tile : Nat) (image : BitVec 52) (s : State) : Out :=
  .next (s.fzCommand tile 6 image.toNat 0 fun s =>
    let a := (s.tile tile).fzImage.toNat
    match s.image? a (s.headerId a) with
    | some x => (s.discardImage x).fzStatus tile fzDone
    | none => s.fzStatus tile fzBadimage)

/-! ## Retries and replies of the package -/

/-- A lane that waits for the arrays of a tile performs its access again (R303). -/
def State.retryLane (s : State) (w l : Nat) : State :=
  if (s.thread w l).wait matches .array _ then s.modWave w fun wv => wv.resumeLanes fun t => t == (s.thread w l) else s

/-- SLICE_RETRY: the requester translates its scratch number again. -/
def execSliceRetry (wave lane : Nat) (s : State) : Out := .next (s.retryLane wave lane)

/-- MEMORY_REPLY: an access of the package's own memory is performed in the step that makes it, which also completes the lane
(log 4); a lane that the package's arrays held back performs its access now. -/
def execMemoryReply (wave lane : Nat) (s : State) : Out := .next (s.retryLane wave lane)

/-! ## Control registers (R6, R299, R350) -/

/-- The outcome of an operation as a state. -/
def outState (s : State) (o : Out) : State :=
  match o with
  | .next s' => s'
  | _ => s

/-- A write to FZCMD: a nonzero reserved field, PMASK beside another operation, or an unlisted OP ends it with BADOP. -/
def State.writeFzcmd (s : State) (tile : Nat) (value : W64) : State :=
  let x := value.toNat
  let image : BitVec 52 := BitVec.ofNat 52 (bitsOf x 12 40 * 4096)
  let op := bitsOf x 8 4
  let pmask : BitVec 6 := value.extractLsb' 0 6
  if (s.tile tile).busy then s
  else if bitsOf x 52 12 ≠ 0 ∨ bitsOf x 6 2 ≠ 0 ∨ (pmask ≠ 0 ∧ op ≠ 2) then s.fzStatus tile fzBadop
  else
    match op with
    | 1 => outState s (execFreeze tile image s)
    | 2 => outState s (execQuiesce tile pmask s)
    | 3 => outState s (execRestore tile image s)
    | 4 => outState s (execStop tile s)
    | 5 => outState s (execStart tile s)
    | 6 => outState s (execDiscard tile image s)
    | _ => s.fzStatus tile fzBadop

/-- A write to a register of a tile's freeze unit: FZSTAT is read-only, FZPC0 to FZPC3 are plain. -/
def State.writeFreezeReg (s : State) (tile off : Nat) (value : W64) : State :=
  match off with
  | 0 => s.writeFzcmd tile value
  | 16 => s.modTile tile fun t => { t with fzpc := t.fzpc.set 0 value }
  | 24 => s.modTile tile fun t => { t with fzpc := t.fzpc.set 1 value }
  | 32 => s.modTile tile fun t => { t with fzpc := t.fzpc.set 2 value }
  | 40 => s.modTile tile fun t => { t with fzpc := t.fzpc.set 3 value }
  | _ => s

/-- FZSTAT (R299). -/
def Tile.fzstat (t : Tile) : W64 := (if t.busy then (1 : BitVec 1) else 0) ++ t.status ++ (0 : BitVec 24) ++ t.freezeId

/-- A read of a register of a tile's freeze unit: FZCMD is write-only and reads zero (R6), and so do the bytes that hold no register. -/
def State.readFreezeReg (s : State) (tile off : Nat) : W64 :=
  let t := s.tile tile
  match off with
  | 8 => t.fzstat
  | 16 => t.fzpc.getD 0 0
  | 24 => t.fzpc.getD 1 0
  | 32 => t.fzpc.getD 2 0
  | 40 => t.fzpc.getD 3 0
  | _ => 0

/-- What an address of control space names: a tile's freeze unit or its world block, and the offset there; the bytes of a tile's slice, and
the attach word of a launch, which the spec gives no address (log 61). -/
inductive ControlPlace where
  | freezeReg (tile off : Nat)
  | worldReg (tile off : Nat)
  | slice (tile off : Nat)
  | attach (launch : Nat)
  | other
  deriving DecidableEq, Repr

def controlPlace (addr : Nat) : ControlPlace :=
  let base := 0xF000000000000000
  let die := (addr - base) / 2 ^ 32
  let o := addr % 2 ^ 32
  if addr < base ∨ 3 < die then .other
  else if 0x100000 ≤ o ∧ o < 0x100000 + 48 * 64 then .freezeReg (die * 48 + (o - 0x100000) / 64) ((o - 0x100000) % 64)
  else if 0x200000 ≤ o ∧ o < 0x200000 + 48 * 32 then .worldReg (die * 48 + (o - 0x200000) / 32) ((o - 0x200000) % 32)
  else if 0x10000000 ≤ o ∧ o < 0x10000000 + 48 * 2 ^ 19 then .slice (die * 48 + (o - 0x10000000) / 2 ^ 19) ((o - 0x10000000) % 2 ^ 19)
  else if die = 0 ∧ 0x80000000 ≤ o then .attach ((o - 0x80000000) / 8)
  else .other

/-- A debugger attaches to a launch, or leaves it (R230, R349; log 59). -/
def State.attachTo (s : State) (l : Nat) (on : Bool) : State :=
  { s with launches := modifyAt s.launches l fun x => { x with debugged := on } }

/-- A 64-bit write of a service core to control space. One to a slice is not checked against any world (R352). -/
def State.writeControl (s : State) (addr : Nat) (value : W64) : State :=
  match controlPlace addr with
  | .freezeReg tile off => s.writeFreezeReg tile off value
  | .worldReg tile off => s.writeWorlds tile off value
  | .slice tile off => s.store [(sliceKey tile (off / 8 * 8), 8)] (toBytes value.toNat 8)
  | .attach l => s.attachTo l (value != 0)
  | .other => s

/-- A 64-bit read of a service core from control space (R6). No row of the opcode table stands for it; REFUSED_READ is the one that changes
anything. -/
def State.readControl (s : State) (addr : Nat) : State × W64 :=
  match controlPlace addr with
  | .freezeReg tile off => (s, s.readFreezeReg tile off)
  | .worldReg tile off => s.readWorlds tile off
  | .slice tile off => (s, BitVec.ofNat 64 (Memory.read s.mem (sliceKey tile (off / 8 * 8)) 8))
  | .attach l => (s, if (s.launches[l]?).any (·.debugged) then 1 else 0)
  | .other => (s, 0)

/-- REGISTER_WRITE: a write to a control register. -/
def execRegisterWrite (addr value : W64) (s : State) : Out := .next (s.writeControl addr.toNat value)

end Sys2Proof.Machine
end

