-- ==== Sys2Proof/Machine/Service.lean ====
section
/-! DEFINITION. The service kernel at frame 0 (R170), the system services (R376, R377), answers to fault records (R290) and
backing store (R317). -/

namespace Sys2Proof.Machine

/-! ## Resuming a lane -/

/-- What a service answers: it has nothing to do yet, or the state without the delivery and its results in `vP` and up. -/
abbrev Served := Option (State × List W32)

/-- Restore the record of a delivery, then write the results (R170). -/
def State.serveDone (s : State) (d : Delivery) (results : List W32) : State :=
  match s.tokenRecord d.wave d.lane d.token with
  | none => s
  | some (p, r) =>
    let s1 := ({ s with deliveries := s.deliveries.erase d } : State).consume d.wave d.lane p
    let s2 := s1.resume d.wave [(d.lane, r, d.kind)]
    s2.modWave d.wave fun wv =>
      (wv.modThread d.lane fun t => results.zipIdx.foldl (fun t e => t.setV (d.pb + e.2) e.1) t).retag [d.lane] d.pb results.length
        fun _ => .general

/-- The delivery of a lane. -/
def State.deliveryOf (s : State) (w l : Nat) : Option Delivery := s.deliveries.find? fun d => d.wave == w && d.lane == l

/-- Whether a delivery stands in its die's DELIVER ring, which holds 4,096 entries (R374). DESIGN CHOICE (log 86): one that finds the ring full
waits for its turn outside it. -/
def State.inRing (s : State) (d : Delivery) : Bool :=
  let die (e : Delivery) : Nat := (s.wave e.wave).tile / 48
  ((s.deliveries.filter fun e => die e == die d).take 4096).contains d

/-- The status register alone. -/
def status (n : Nat) : List W32 := [BitVec.ofNat 32 n]

/-! ## Pointers (R377) -/

/-- What the checks of a pointer give. -/
inductive Ptr where
  | ok (pieces : List Piece)
  | bad (status : Nat)
  | wait (w : Wait) (post : Option FaultRec)
  deriving DecidableEq, Repr

/-- The rows of R377, the first that applies. A pointer to no bytes passes the rows of the byte it names. -/
def State.svcPtr (s : State) (w l va size align : Nat) (mode : Mode) : Ptr :=
  let who := { s.who w l (if mode.writes then 1 else 0) with early := true }
  if 6 ≤ va / 2 ^ 60 then .bad stUnreachable
  else
    let quiet : State := { s with poison := [] }
    let aligned (p : Ptr) : Ptr := if va % align ≠ 0 then .bad stMalformed else p
    match quiet.access who va (max size 1) 1 mode with
    | .ok ps _ => aligned (if size = 0 then .ok [] else if s.poisoned ps then .bad stPoisoned else .ok ps)
    | .trap .protect | .trap .sealed | .trap .world => aligned (.bad stDenied)
    | .trap _ | .remote _ _ | .unbound _ => .bad stUnreachable
    | .block wt (some r) => if r.kind = .map then .bad stUnreachable else aligned (.wait wt (some r))
    | .block wt none => aligned (.wait wt none)

/-- Go on with a pointer that passes, answer the status of one that fails, or wait for its page. -/
def State.withPtr (s : State) (w l va size align : Nat) (mode : Mode) (k : List Piece → Served) (bad : Nat → State × List W32) :
    Served :=
  match s.svcPtr w l va size align mode with
  | .ok ps => k ps
  | .bad st => some (bad st)
  | .wait _ (some r) => if s.joined (.serviceDelivery w l) r then none else some (s.postOnce (.serviceDelivery w l) r, [])
  | .wait (.recall page) none => if s.recallDue page then some (s.recallHome page, []) else none
  | .wait _ none => none

/-- A plain status answer. -/
def State.answer (s : State) (st : Nat) : State × List W32 := (s, status st)

/-! ## LAUNCH, ALLOC, CONSOLE -/

/-- The results of LAUNCH. A check number where none refused, and a handle where none was given, are free values. -/
def State.launchResult (s : State) (st : Nat) (check : Option Nat) (handle : Option Nat) : State × List W32 :=
  let f := s.free
  let c : W32 := match check with
    | some k => BitVec.ofNat 32 k
    | none => f.1.extractLsb' 0 32
  let h : W64 := match handle with
    | some k => BitVec.ofNat 64 k
    | none => f.1.extractLsb' 64 64
  (f.2, [BitVec.ofNat 32 st, c, h.extractLsb' 0 32, h.extractLsb' 32 32])

/-- Whether a lane's submission still waits for other packages. -/
def State.submitting (s : State) (w l : Nat) : Bool :=
  s.launches.any fun x => x.lane == some (w, l) && !x.committed && x.live

/-- The LAUNCH service. -/
def State.serveLaunch (s : State) (d : Delivery) : Served :=
  let t := s.thread d.wave d.lane
  if s.submitting d.wave d.lane then none
  else
    s.withPtr d.wave d.lane (t.dv (d.pb + 2)).toNat 256 16 .read
      (fun ps =>
        let r := BitVec.ofNat 2048 (ofBytes (Memory.readPieces s.mem ps))
        match s.submit (s.waveWorld d.wave) r none 0 (some (d.wave, d.lane)) ((s.wave d.wave).tile / 48) with
        | (s', .accepted h) => some (s'.launchResult stOk none (some h))
        | (s', .refused k) => some (s'.launchResult stRefused (some k) none)
        | (s', .pending _) => some (s', []))
      fun st => s.launchResult st none none

/-- The highest SERIAL used under an authority, plus one. -/
def State.nextSerialOf (s : State) (auth : BitVec 16) : Nat :=
  ((s.ctxs.flatMap (·.dir)).filter fun d => d.obj.extractLsb' 48 16 == auth).foldl (fun m d =>
    max m ((d.obj.extractLsb' 0 48).toNat + 1)) 0

/-- Add an object to a context's directory. -/
def State.addObject (s : State) (ctx : Nat) (d : DirEntry) : State := s.modCtx ctx fun c => { c with dir := c.dir ++ [d] }

/-- The ALLOC service. -/
def State.serveAlloc (s : State) (d : Delivery) : Served :=
  let t := s.thread d.wave d.lane
  let kind := (t.v d.pb).toNat
  let extent := (t.v (d.pb + 1)).toNat
  let world := s.waveWorld d.wave
  s.withPtr d.wave d.lane (t.dv (d.pb + 2)).toNat 16 16 .write
    (fun ps =>
      if 1 < kind ∨ extent = 0 then some (s.answer stMalformed)
      else if (s.world world).auths.isEmpty then some (s.answer stDenied)
      else
        match (s.world world).auths.find? fun a => decide (s.nextSerialOf a < 2 ^ 48) with
        | none => some (s.answer stNoSpace)
        | some a =>
          let obj : W64 := a ++ BitVec.ofNat 48 (s.nextSerialOf a)
          let k : BitVec 3 := BitVec.ofNat 3 kind
          let e : DirEntry := { obj := obj, kind := k, extent := extent, closed := true, retired := false, bytes := [], tensors := [] }
          let s1 := (s.addObject (s.wave d.wave).ctx e).sequence
          some ((s1.store ps (toBytes (longName k obj 0).toNat 16)).answer stOk))
    s.answer

/-- The CONSOLE service. -/
def State.serveConsole (s : State) (d : Delivery) : Served :=
  let t := s.thread d.wave d.lane
  let n := (t.v (d.pb + 1)).toNat
  if 4096 < n then some (s.answer stMalformed)
  else
    s.withPtr d.wave d.lane (t.dv (d.pb + 2)).toNat n 1 .read
      (fun ps =>
        let bs := Memory.readPieces s.mem ps
        some ((s.modWorld (s.waveWorld d.wave) fun w => { w with console := w.console ++ bs }).answer stOk))
      s.answer

/-! ## OBJECT -/

/-- The record of a known object, created where it has none (R183); none where no range is left. -/
def State.needRec (s : State) (ctx : Nat) (d : DirEntry) : Option (State × ObjRec) :=
  match (s.ctx? ctx).bind fun c => c.recOf d.obj with
  | some r => some (s, r)
  | none => (s.newRec ctx d).bind fun s1 => ((s1.ctx? ctx).bind fun c => c.recOf d.obj).map fun r => (s1, r)

/-- The state of a record as it stands (R27, R293): that of a data kind follows its pages. -/
def State.recState (s : State) (r : ObjRec) : RecState :=
  if r.kind = 2 then r.state
  else if r.pages.any fun p => (s.frameOf p).state != .absent then .resident
  else if r.state = .absentReserved then .absentReserved
  else .departed

/-- The codes a query gives the states. DESIGN CHOICE (log 20): the order of R27's table. -/
def recStateCode : RecState → Nat
  | .absentReserved => 0 | .resident => 1 | .departed => 2 | .unbound => 3 | .binding => 4 | .bound => 5

/-- The access counter of a page, which is that of its frame (R294); 0 without one. -/
def State.pageCount (s : State) (page : Nat) : Nat :=
  if (s.frameOf page).state = .absent then 0 else (Sparse.get 0 s.counters (s.frameOf page).frame).toNat

/-- What a query tells of a record's state, with the access counter of the page at the name's offset, and the sum of the record's counters (R26,
R293). DESIGN CHOICE (log 20): 2, 2 and 4 bytes of the state's 8. -/
def State.recStateBytes (s : State) (r : ObjRec) (off : Nat) : List Byte :=
  toBytes (recStateCode (s.recState r)) 2 ++ toBytes ((r.pages[off / 65536]?.map s.pageCount).getD 0) 2 ++
    toBytes ((r.pages.map s.pageCount).foldl (· + ·) 0) 4

/-- Whether no page of a list has a frame. -/
def State.allAbsent (s : State) (pages : List Nat) : Bool := pages.all fun p => (s.frameOf p).state == .absent

/-- Depart the pages of a list that have frames, or say why not (R250, R370): the status, which is none while pages have still to reach
their homes. -/
def State.evictPages (s : State) (pages : List Nat) : State × Option Nat :=
  if pages.any s.exempt then (s, some stBusy)
  else if pages.any fun p => (s.frameOf p).hkind == 0 then (s, some stDenied)
  else
    let s1 := pages.foldl State.depart s
    (s1, if s1.allAbsent pages then some stOk else none)

/-- Whether an eviction of the pages can do anything now: begin, answer, or refuse. -/
def State.evictDue (s : State) (pages : List Nat) : Bool :=
  pages.any s.exempt || s.allAbsent pages ||
    pages.any fun p => (s.frameOf p).hkind == 0 || (s.frameOf p).state == .present || (s.frameOf p).state == .arriving

/-- Ask for the pages of a list that are absent: none where the operation waits for each already. -/
def State.bringIn (s : State) (op : Instr) (who : Who) (pages : List Nat) : Option State :=
  let want := pages.filterMap fun p =>
    if (s.frameOf p).state = .absent then some (faultReq who .frame 0 (p * 65536) 0) else none
  let new := want.filter fun r => !s.joined op r
  if new.isEmpty then none else some (new.foldl (fun s r => s.postOnce op r) s)

/-- Whether every page of a list is present. -/
def State.allPresent (s : State) (pages : List Nat) : Bool := pages.all fun p => (s.frameOf p).state == .present

/-- Exempt pages from departure for an owner. -/
def State.pinPages (s : State) (owner : Nat) (pages : List Nat) : State :=
  { s with pinned := s.pinned ++ (pages.map fun p => (owner, p)).filter fun e => !s.pinned.contains e }

/-- Take the exemption away. -/
def State.unpinPages (s : State) (owner : Nat) (pages : List Nat) : State :=
  { s with pinned := s.pinned.filter fun e => !(e.1 == owner && pages.contains e.2) }

/-- Retire an object (R28). -/
def State.retire (s : State) (ctx : Nat) (obj : W64) : State :=
  s.modCtx ctx fun c => { c with dir := c.dir.map fun d => if d.obj = obj then { d with retired := true } else d }

/-- An OBJECT action on a known object, whose block stands in the pieces given. -/
def State.objectAction (s : State) (dl : Delivery) (action : Nat) (ps : List Piece) (d : DirEntry) : Served :=
  let ctx := (s.wave dl.wave).ctx
  let rec? := (s.ctx? ctx).bind fun c => c.recOf d.obj
  match action with
  | 0 =>
    match s.needRec ctx d with
    | none => some (s.answer stNoSpace)
    | some (s1, r) =>
      let keep := (Memory.readPieces s1.mem ps).take 16
      let tail := (Memory.readPieces s1.mem ps).drop 48
      some ((s1.store ps (keep ++ toBytes r.base.toNat 8 ++ toBytes r.extent 8 ++
        s1.recStateBytes r (nameOff (BitVec.ofNat 128 (ofBytes keep))) ++ toBytes r.run 8 ++ tail)).answer stOk)
  | 1 =>
    match rec? with
    | none => some (s.answer stOk)
    | some r =>
      let x := s.evictPages r.pages
      match x.2 with
      | some st => some (x.1.answer st)
      | none => if s.evictDue r.pages then some (x.1, []) else none
  | 2 =>
    match s.needRec ctx d with
    | none => some (s.answer stNoSpace)
    | some (s1, r) =>
      if s1.allPresent r.pages then some ((s1.pinPages ctx r.pages).answer stOk)
      else (s1.bringIn (.serviceDelivery dl.wave dl.lane) (s.who dl.wave dl.lane 0) r.pages).map fun s2 => (s2, [])
  | 3 =>
    match rec? with
    | none => some (s.answer stOk)
    | some r => some ((s.unpinPages ctx r.pages).answer stOk)
  | 4 => some ((s.retire ctx d.obj).sequence.answer stOk)
  | _ =>
    if d.kind ≠ 2 then some (s.answer stDenied)
    else
      match s.needRec ctx d with
      | none => some (s.answer stNoSpace)
      | some (s1, _) => some (((s1.setRec ctx d.obj fun r => { r with writable := true }).mapRec ctx d.obj).answer stOk)

/-- The OBJECT service. A query reads its block and writes it. -/
def State.serveObject (s : State) (d : Delivery) : Served :=
  let t := s.thread d.wave d.lane
  let action := (t.v d.pb).toNat
  let va := (t.dv (d.pb + 2)).toNat
  s.withPtr d.wave d.lane va 64 16 (if action = 0 then .rmw else .read)
    (fun ps =>
      if 5 < action then some (s.answer stMalformed)
      else
        let name := BitVec.ofNat 128 (ofBytes ((Memory.readPieces s.mem ps).take 16))
        match (s.ctx? (s.wave d.wave).ctx).bind fun c => c.known name with
        | none => some (s.answer stNoName)
        | some e => s.objectAction d action ps e)
    s.answer

/-! ## The delivery of an effect -/

/-- The names of R40. -/
def nameLaunch : W32 := 0xFFFE0002
def nameAlloc : W32 := 0xFFFE0003
def nameConsole : W32 := 0xFFFE0004
def nameObject : W32 := 0xFFFE0005

/-- Whether the delivery is the BIND that R146 raised. -/
def State.isBind (s : State) (d : Delivery) : Bool :=
  d.name == nameBind && s.ctxs.any fun c => c.live && c.recs.any fun r => r.requester == some (d.wave, d.lane)

/-- The system service a delivery asks for; BIND of R146 is answered by CODE_BIND. -/
def State.systemService (s : State) (d : Delivery) : Served :=
  if s.isBind d then none
  else if d.name = nameLaunch then s.serveLaunch d
  else if d.name = nameAlloc then s.serveAlloc d
  else if d.name = nameConsole then s.serveConsole d
  else if d.name = nameObject then s.serveObject d
  else some (s.answer stUnknown)

/-- The lane is resumed with a service's results, unless its record fails the checks: its team then ends (R170). -/
def State.serveEnd (s : State) (d : Delivery) (results : List W32) : State :=
  match s.badRecord d with
  | some k => s.reportEnd (s.wave d.wave).team (.trap k d.pc)
  | none => s.serveDone d results

/-- What the service kernel does with a delivery (R170): none while there is nothing to do. -/
def State.service (s : State) (d : Delivery) (svc : State → Delivery → Served) : Option State :=
  let team := (s.wave d.wave).team
  if d.kind = 2 then
    (svc s d).map fun r => if r.2.isEmpty then r.1 else r.1.serveEnd d r.2
  else
    match TrapKind.ofCode d.name with
    | some k => some (s.reportEnd team (.trap k d.src))
    | none => some (s.reportEnd team (.unhandled d.name))

/-- Serve a lane's delivery where a test on it holds. -/
def State.serveLane (s : State) (w l : Nat) (p : Delivery → Bool) (svc : State → Delivery → Served) : State :=
  match s.deliveryOf w l with
  | none => s
  | some d => if s.inRing d && p d then (s.service d svc).getD s else s

/-- SERVICE_DELIVERY: the service kernel handles a frame-0 delivery. -/
def execServiceDelivery (wave lane : Nat) (s : State) : Out := .next (s.serveLane wave lane (fun _ => true) State.systemService)

/-- SVC_LAUNCH: the LAUNCH service. -/
def execSvcLaunch (wave lane : Nat) (s : State) : Out :=
  .next (s.serveLane wave lane (fun d => d.name == nameLaunch) State.serveLaunch)

/-- SVC_ALLOC: the ALLOC service. -/
def execSvcAlloc (wave lane : Nat) (s : State) : Out := .next (s.serveLane wave lane (fun d => d.name == nameAlloc) State.serveAlloc)

/-- SVC_CONSOLE: the CONSOLE service. -/
def execSvcConsole (wave lane : Nat) (s : State) : Out :=
  .next (s.serveLane wave lane (fun d => d.name == nameConsole) State.serveConsole)

/-- Serve an OBJECT delivery of one action. -/
def State.serveAction (s : State) (w l action : Nat) : Out :=
  .next (s.serveLane w l (fun d => d.name == nameObject && ((s.thread w l).v d.pb).toNat == action) State.serveObject)

/-- OBJECT_QUERY: action 0. -/
def execObjectQuery (wave lane : Nat) (s : State) : Out := s.serveAction wave lane 0
/-- OBJECT_EVICT: action 1. -/
def execObjectEvict (wave lane : Nat) (s : State) : Out := s.serveAction wave lane 1
/-- OBJECT_PIN: action 2. -/
def execObjectPin (wave lane : Nat) (s : State) : Out := s.serveAction wave lane 2
/-- OBJECT_UNPIN: action 3. -/
def execObjectUnpin (wave lane : Nat) (s : State) : Out := s.serveAction wave lane 3
/-- OBJECT_RETIRE: action 4. -/
def execObjectRetire (wave lane : Nat) (s : State) : Out := s.serveAction wave lane 4
/-- OBJECT_MAKE_WRITABLE: action 5. -/
def execObjectMakeWritable (wave lane : Nat) (s : State) : Out := s.serveAction wave lane 5

/-! ## Backing store (R317) -/

/-- Stop a wave at a lane that found no backing store: its other lanes wait for it. -/
def State.stopWave (s : State) (w l : Nat) : State :=
  s.modWave w fun wv =>
    let stop (k : Nat) (t : Thread) : Thread :=
      if k = l then { t with wait := .backing } else { t with hold := if t.hold.contains l then t.hold else t.hold ++ [l] }
    { wv with threads := wv.threads.mapIdx stop }

/-- A lane has its backing store: it goes on, and so does its wave. -/
def State.restartWave (s : State) (w l : Nat) : State :=
  (s.modWave w fun wv => (wv.unhold [l])).modWave w fun wv =>
    wv.resumeLanes fun t => (t.wait == .backing || (match t.wait with
      | .fault _ _ => true
      | _ => false)) && t.serial == (wv.thread l).serial && (wv.thread l).status == .live

/-- The PC at which a lane needs backing store. -/
def Thread.needPc (t : Thread) : W64 := (t.redo.head?.map (·.pc)).getD t.pc

/-- PSIZE after a growth: 64 KiB more, or the page of the record that asked for it. DESIGN CHOICE (log 79): R317 leaves the amount to the service
kernel. -/
def grownSize (psize recordPage : Nat) : Nat := max (psize + 65536) recordPage

/-- A PRIVATE record, or a wave stopped for want of backing store, is answered: the store grows, or the wave stops, or, if
it has stopped already, its team ends. A space that has come to the next one's PBASE grows no further: its store is exhausted (log 9). DESIGN
CHOICE (log 38): the space of the wave's lowest thread, where its payloads go, grows too. -/
def State.growth (s : State) (w l : Nat) (granted : Bool) : State :=
  let t := s.thread w l
  let low := (s.wave w).lowest
  let grow (s : State) (n : Nat) : State :=
    (s.modThread w l fun t => { t with psize := grownSize t.psize n }).modThread w low fun t =>
      if low = l then t else { t with psize := grownSize t.psize 0 }
  let room (n : Nat) : Bool := granted && decide (grownSize t.psize n ≤ privStride) &&
    (low == l || decide (grownSize (s.thread w low).psize 0 ≤ privStride))
  match t.wait with
  | .fault die seq =>
    match (s.die die).faultq.find? fun r => r.seq == seq && r.kind == .priv with
    | none => s
    | some r =>
      let s1 := s.dropRec die seq
      let n := (r.va.toNat % 2 ^ 60 / 65536 + 1) * 65536
      if room n then (grow s1 n).restartWave w l else s1.stopWave w l
  | .backing => if room 0 then (grow s 0).restartWave w l else s.reportEnd (s.wave w).team (.trap .backing t.needPc)
  | _ => s

/-- PRIVATE_GROWTH: the service kernel grows a private space, or stops the wave with BACKING. -/
def execPrivateGrowth (wave lane : Nat) (granted : Bool) (s : State) : Out := .next (s.growth wave lane granted)

/-! ## Answers to fault records (R290) -/

/-- The first lane that waits on a record. -/
def State.waiterOf (s : State) (die : Nat) (seq : W32) : Option (Nat × Nat) :=
  (List.range s.waves.length).findSome? fun w =>
    ((s.wave w).lanesWith fun t => t.wait == .fault die seq).head?.map fun l => (w, l)

/-- The prefetches that wait on a record make their accesses again, from step 8 (R290); one whose thread has ended is dropped. -/
def State.repeatPrefetches (s : State) (l : List Prefetch) : State :=
  l.foldl (fun s p => if (s.thread p.wave p.lane).status = .live then s.prefetch p.wave p.lane p.addr p.size p.bypass true else s) s

/-- The lanes that wait on a record learn of its answer: they repeat their accesses or trap. The proxy keeps it for those of a stopped tile
or of an image (R303, R312). -/
def State.tellWaiters (s : State) (die : Nat) (seq : W32) (status : FaultStatus) : State :=
  let at_ (t : Thread) : Bool := t.wait == .fault die seq
  ((List.range s.waves.length).filter fun w => (s.wave w).threads.any at_).foldl (fun s w =>
    if s.proxied w then s.holdReply w (.faultAnswer die seq status none)
    else if status = .resolved then s.modWave w fun wv => wv.resumeLanes at_
    else s.trapWaiting w (statusTrap status) ((s.wave w).lanesWith at_)) s

/-- FAULT_ANSWER: the service kernel answers a record; its waiters repeat their accesses or trap. A PRIVATE record is answered as
R317 states. A WRITE record is answered RESOLVED once the page's home has given the grant. An answer whose record is gone is one that the
proxy has kept. -/
def execFaultAnswer (die : Nat) (seq : W32) (status : FaultStatus) (fix : Option W64) (s : State) : Out :=
  match (s.die die).faultq.find? fun r => r.seq == seq with
  | none =>
    let s1 := s.tellWaiters die seq status
    .next (match fix with
      | some a => if status = .resolved then s1 else s1.failMissing status fun r => r.place == a
      | none => s1)
  | some r =>
    let due := if status = .resolved then s.grantDue r else none
    let fetches := s.prefetches.filter fun p => p.die == die && p.seq == seq
    let s0 : State := { s with
      dies := modifyAt s.dies die fun d => { d with answer := BitVec.ofNat 64 (statusCode status * 2 ^ 32 + seq.toNat) }
      prefetches := s.prefetches.filter fun p => !fetches.contains p
      pkg := { s.pkg with asked := s.pkg.asked.filter fun a => !(a.2.1 == die && a.2.2 == seq) } }
    if let some e := due then .next (s.askGrant r e)
    else if r.kind = .priv then
      match s.waiterOf die seq with
      | some (w, l) =>
        .next (if s.proxied w then s.holdReply w (.faultAnswer die seq status fix) else s0.growth w l (status == .resolved))
      | none => .next (s0.dropRec die seq)
    else
      let s1 := s0.dropRec die seq
      let refused (k : FaultStatus) : State :=
        ((((s1.tellWaiters die seq k).failOn die r k).refuseDeps r (statusTrap k)).refusePennant r (statusTrap k))
      if status = .resolved then
        match s1.resolve r fix with
        | none => .next (refused .xlate)
        | some s2 => .next ((s2.tellWaiters die seq .resolved).repeatPrefetches fetches)
      else .next (refused status)

end Sys2Proof.Machine
end

