-- ==== Sys2Proof/Machine/Fabric.lean ====
section
/-! DEFINITION. Packets of the Bysum fabric: what a destination performs (R332 to R335, R341), and its intake. -/

namespace Sys2Proof

/-- The reply to a packet that a destination sends (R332, R339). Its ADDR and AUX are the request's. -/
def Packet.answer (p : Packet) (status : Nat) (data : List Byte) : Packet :=
  { p with reply := true, src := p.dst, dst := p.src, seq := 0, hop := 0, sq := false, echo := p.sq
           status := BitVec.ofNat 2 status, data := data }

/-- A header that a receiver discards (R332). -/
def Packet.malformed (p : Packet) : Bool := p.resv != 0 || p.typ == .unlisted

end Sys2Proof

namespace Sys2Proof.Machine

/-- Add a line to the device log. -/
def State.logLine (s : State) (e : LogEntry) : State := { s with pkg := { s.pkg with log := s.pkg.log ++ [e] } }

/-! ## Requests that a home passes on (R285) -/

/-- What performing a request gives: STATUS and payload, or none while it must wait. -/
abbrev Performed := State × Option (Nat × List Byte)

/-- STATUS of a reply (R332). -/
def rpDone : Nat := 0
def rpPoison : Nat := 1
def rpProtect : Nat := 2
def rpXlate : Nat := 3

/-- Whether an entry is that of a step of a request. -/
def Forward.isOf (f : Forward) (p : Packet) (step : Nat) : Bool :=
  f.src == p.src.toNat && f.tier == p.tier && f.seq == p.seq && f.step == step

/-- The entry of a step of a request. -/
def Fabric.forwardOf (f : Fabric) (p : Packet) (step : Nat) : Option Forward := f.forwards.find? fun x => x.isOf p step

/-- Put the entry of a step of a request in place of any that stands, or take it out. -/
def State.setForward (s : State) (p : Packet) (step : Nat) (x : Option (Option (Nat × List Byte))) : State :=
  let rest := s.fabric.forwards.filter fun f => !f.isOf p step
  { s with fabric := { s.fabric with forwards := rest ++ (x.map fun a => ⟨p.src.toNat, p.tier, p.seq, step, a⟩).toList } }

/-- Pass a step of a request on to the node that holds the page, as `fw`, which reaches it at the frame that stands for this home. -/
def State.passOn (s : State) (p fw : Packet) (step h a : Nat) : State :=
  let q := { fw with src := BitVec.ofNat 12 s.fabric.node, dst := BitVec.ofNat 12 h, addr := BitVec.ofNat 64 (atFrameBit + a)
                     hop := 0, sq := false, echo := false, status := 0 }
  match s.requestFor kernelTile 0 0 [] (.forward p.src.toNat p.tier p.seq step) q with
  | some (s', _) => s'.setForward p step (some none)
  | none => s

/-- The frame of this package that stands for a page at home on another node (R284). -/
def State.frameFor (s : State) (node homePage : Nat) : Option (Nat × FrameEntry) :=
  s.frameMap.find? fun e => e.2.v && e.2.hkind != 0 && e.2.hid.toNat == node && e.2.hpage.toNat == homePage

/-! ## Performing a request -/

/-- What a request does to the bytes of its range. -/
abbrev Point := State → List Piece → State × List Byte

/-- Perform an access on bytes that are here. -/
def State.atPoint (s : State) (ks : List Piece) (mode : Mode) (f : Point) : Performed :=
  if mode.reads && s.poisoned ks then (s, some (rpPoison, []))
  else
    let r := f (s.count ks) ks
    (r.1, some (rpDone, r.2))

/-- Where bytes of a home's page lie in the frame here: none within where they are still to come or are leaving, none at all where no frame
stands for the page any more or it may not be written. -/
def State.frameSpot (s : State) (node : Nat) (mode : Mode) (q : Piece) : Option (Option Piece) :=
  match s.frameFor node (q.1 / 65536) with
  | none => none
  | some (_, e) =>
    let o := q.1 % 65536
    if (!e.wg && mode.writes) || e.state == .absent then none
    else if e.state == .present || (e.state == .arriving && (e.lacks o q.2).isNone) then some (some (e.frame * 65536 + o, q.2))
    else some none

/-- An absent frame has no write grant to go on from (R285). -/
def State.frameGone (s : State) (node : Nat) (q : Piece) : State :=
  match s.frameFor node (q.1 / 65536) with
  | some (page, e) => if e.state = .absent then s.setFrame page { e with wg := false } else s
  | none => s

/-- Perform an access for the home of a page whose frame is here (R285): XLATE answers that the frame no longer stands for it. -/
def State.atFrame (s : State) (node : Nat) (qs : List Piece) (mode : Mode) (f : Point) : Performed :=
  let spots := qs.map fun q => s.frameSpot node mode q
  if spots.any Option.isNone then (qs.foldl (fun s q => s.frameGone node q) s, some (rpXlate, []))
  else if spots.contains (some none) then (s, none)
  else s.atPoint (spots.filterMap (·.bind id)) mode f

/-- The pages of a range. -/
def rangePages (a n : Nat) : List Nat := distinct [a / 65536, (a + n - 1) / 65536]

/-- Perform step `step` of a request of another node on ranges of home addresses, as `fw` would carry it to another node. The home is
local HBM in the grant of the packet's world. A page whose write grant another node holds is served at that node's frame; a write first
calls the other copies back (R285). The sender of an RSTF may itself hold one of its two pages. -/
def State.atHome (s : State) (p fw : Packet) (step : Nat) (qs : List Piece) (mode : Mode) (f : Point) : Performed :=
  if qs.all fun q => decide (atFrameBit ≤ q.1) then
    s.atFrame p.src.toNat (qs.map fun q => (q.1 - atFrameBit, q.2)) mode f
  else if !(qs.all fun q => s.isLocal q.1 && s.isLocal (q.1 + q.2 - 1)) then (s, some (rpXlate, []))
  else if !(qs.all fun q => s.granted p.world.toNat q.1 q.2) then (s, some (rpProtect, []))
  else
    let pages := distinct (qs.flatMap fun q => rangePages q.1 q.2)
    let sender := if p.typ = .rstf then s.fabric.node else p.src.toNat
    let others (writes : Bool) : List (Nat × Nat) :=
      pages.flatMap fun pg => (s.fabric.holders pg sender writes).map fun h => (pg, h)
    let callBack (l : List (Nat × Nat)) : Performed := (l.foldl (fun s x => s.recallFrom x.1 [x.2]) s, none)
    match others false, s.fabric.forwardOf p step with
    | [], _ => if (others mode.writes).isEmpty then s.atPoint qs mode f else callBack (others mode.writes)
    | x :: xs, none =>
      if pages.length = 1 then (s.passOn p fw step x.2 ((qs.map (·.1)).headD 0), none) else callBack (x :: xs)
    | _, some ⟨_, _, _, _, none⟩ => (s, none)
    | _, some ⟨_, _, _, _, some r⟩ => (s.setForward p step none, some r)

/-- What a read gives. -/
def readPoint : Point := fun s ks => (s, s.load ks none)

/-- READ; OPC 1 reads a line of code (log 21). -/
def State.homeRead (s : State) (p : Packet) : Performed :=
  s.atHome p p 0 [(p.addr.toNat, if p.opc = 1 then 64 else p.wt.bytes)] .read readPoint

/-- WRITE. One without payload is an engine's read of a line (log 13). -/
def State.homeWrite (s : State) (p : Packet) : Performed :=
  if p.data.isEmpty then s.atHome p p 0 [(p.addr.toNat, 64)] .read readPoint
  else s.atHome p p 0 [(p.addr.toNat, p.data.length)] .write fun s ks => (s.store ks p.data, [])

/-- What an ATOMIC does at its point: one atomic step; a payload of twice the access size is a compare-and-exchange, new value then compare
value. -/
def atomicPoint (p : Packet) : Point := fun s ks =>
  let n := p.wt.bytes
  let old := s.load ks none
  let num (bs : List Byte) : W128 := BitVec.ofNat 128 (ofBytes bs)
  let new := if p.data.length = 2 * n then casBytes n (num (p.data.drop n)) (num (p.data.take n)) old
    else some (atomBytes p.opc.toNat p.wt (num p.data) old)
  ((new.map fun bs => s.store ks bs).getD s, old)

/-- ATOMIC. One on an arrival word may tell of lanes that have exited too (R348). -/
def State.homeAtomic (s : State) (p : Packet) : Performed :=
  match s.atHome p p 0 [(p.addr.toNat, p.wt.bytes)] .rmw (atomicPoint p) with
  | (s', some (0, bs)) => (s'.wordExits p, some (0, bs))
  | r => r

/-- The ranges of an accumulator: AUX is the address of its second page, where it crosses into one (log 21). -/
def xaRanges (p : Packet) : List Piece :=
  let a := p.addr.toNat
  let n := 65536 - a % 65536
  if 288 ≤ n then [(a, 288)] else [(a, n), (p.aux.toNat, 288 - n)]

/-- XA: a step on an exact accumulator: WT `.f64` with a payload adds, without one rounds; any other WT resets. -/
def State.homeXa (s : State) (p : Packet) : Performed :=
  let perform (mode : Mode) (f : Point) : Performed := s.atHome p p 0 (xaRanges p) mode f
  if p.wt ≠ .f64 then perform .write fun s ks => (s.store ks (List.replicate 288 0), [])
  else if p.data.isEmpty then
    perform .read fun s ks =>
      let r := xaRound (xaRnd p.opc) (s.load ks none)
      (s, toBytes r.1 8 ++ toBytes r.2.toNat 1)
  else perform .rmw fun s ks => (s.store ks (xaAdd (ofBytes p.data) (s.load ks none)), [])

/-- The two steps of an RSTF as packets of their own: the data, and the increment of the pennant. -/
def rstfData (p : Packet) : Packet := { p with typ := .write, aux := 0 }
def rstfStep (p : Packet) : Packet :=
  { p with typ := .atomic, aux := 0, opc := 1, wt := .u64, scope := .dev, ord := .rel, data := toBytes 1 8 }

/-- The increment of an RSTF, once its data are written: that they are is kept as the answer of step 0 until it has been made. -/
def State.rstfRaise (s : State) (p : Packet) : Performed :=
  match s.atHome p (rstfStep p) 1 [(p.aux.toNat, 8)] .rmw (atomicPoint (rstfStep p)) with
  | (s', some r) => (s'.setForward p 0 none, some (r.1, []))
  | (s', none) => (s'.setForward p 0 (some (some (rpDone, []))), none)

/-- RSTF: the data, then the increment of the pennant, each at its point (R285, R341). A pennant here that is poisoned, or that is none, stops
both. -/
def State.homeRstf (s : State) (p : Packet) : Performed :=
  let g := p.aux.toNat
  match s.fabric.forwardOf p 0 with
  | some ⟨_, _, _, _, some (0, _)⟩ => s.rstfRaise p
  | _ =>
    if decide (g < atFrameBit) && !s.isLocal g then (s, some (rpXlate, []))
    else if decide (g < atFrameBit) && !s.granted p.world.toNat g 8 then (s, some (rpProtect, []))
    else if decide (g < atFrameBit) && (s.fabric.holder (g / 65536)).isNone && s.poisoned [(g, 8)] then (s, some (rpPoison, []))
    else
      match s.atHome p (rstfData p) 0 [(p.addr.toNat, p.data.length)] .write fun s ks => (s.store ks p.data, []) with
      | (s', some (0, _)) => s'.rstfRaise p
      | r => r

/-- GRANT: write permission (OPC 1) or a read copy of a page of this package, once no other node holds it (log 21). -/
def State.homeGrant (s : State) (p : Packet) : Performed :=
  let page := p.addr.toNat / 65536
  let src := p.src.toNat
  let write := p.opc == 1
  let others := s.fabric.holders page src write
  if !s.isLocal p.addr.toNat then (s, some (rpXlate, []))
  else if !others.isEmpty then (s.recallFrom page others, none)
  else
    let f := s.fabric
    let f' : Fabric :=
      if write then
        { f with grantHolders := Sparse.set 0 f.grantHolders page (src + 1), readers := f.readers.filter fun r => r.1 != page }
      else f.addReader page src
    ({ s with fabric := f' }, some (rpDone, []))

/-- RECALL: this package gives a page back: its copy goes home, and its frame is absent (R285). -/
def State.homeRecall (s : State) (p : Packet) : Performed :=
  match s.frameFor p.src.toNat (p.addr.toNat / 65536) with
  | none => (s, some (rpDone, []))
  | some (page, _) =>
    let s1 := s.depart page
    let e := s1.frameOf page
    if e.state = .absent then (s1.setFrame page { e with wg := false }, some (rpDone, [])) else (s1, none)

/-- PAGE: bytes of a page to this home, or from it to a node that then holds a copy (R285, R286; log 21). -/
def State.homePage (s : State) (p : Packet) : Performed :=
  let a := p.addr.toNat
  let src := p.src.toNat
  let n := if p.data.isEmpty then pageChunk else p.data.length
  let others := s.fabric.holders (a / 65536) src false
  if !(s.isLocal a && s.isLocal (a + n - 1)) then (s, some (rpXlate, []))
  else if !p.data.isEmpty then
    let s1 := s.store [(a, n)] p.data
    ({ s1 with poison := maskLines s1.poison (a / 64) p.opc.toNat }, some (rpDone, []))
  else if !others.isEmpty then (s.recallFrom (a / 65536) others, none)
  else
    let s1 : State := if s.fabric.holder (a / 65536) = some src then s else { s with fabric := s.fabric.addReader (a / 65536) src }
    let mask := lineMask s.poison (a / 64)
    let bs := Memory.bytes s.mem a n
    (s1, some (if mask = 0 then (rpDone, bs) else (rpPoison, bs ++ toBytes mask 1)))

/-- The launch with a handle that a package has accepted. -/
def State.launchUnder (s : State) (handle origin : Nat) : Option Nat :=
  s.launches.findIdx? fun l => l.handle == handle && l.origin.getD s.fabric.node == origin && l.committed

/-- TEAM: a team of a launch this package also runs is queued on the die named, which refuses one it has no room for (R265, log 21). -/
def State.homeTeam (s : State) (p : Packet) : Performed :=
  let field (o n : Nat) : Nat := ofBytes ((p.data.drop o).take n)
  let die := field 256 1
  match s.launchUnder p.addr.toNat (field 261 2) with
  | none => (s, some (rpXlate, []))
  | some l =>
    let t := s.teams.length
    let s1 : State := { s with teams := s.teams ++ [{ Team.fresh l (field 257 4) die with origin := some p.src.toNat }] }
    let s2 := s1.modLaunch l fun x => { x with guests := x.guests ++ [t] }
    let able := (s.launches[l]?).any fun x => x.eligible && x.record.toNat == field 0 256
    if able && (s.die die).present && (s2.placeFor die t).isSome then
      (s2.modDie die fun d => { d with order := if d.order.contains l then d.order else d.order ++ [l] }, some (rpDone, []))
    else (s, some (rpXlate, []))

/-- The advertisements in a payload (log 18). -/
def readAdverts (src : Nat) : Nat → List Byte → List Advert
  | 0, _ => []
  | n + 1, bs =>
    if bs.length < 6 then []
    else ⟨src, ofBytes (bs.take 1), ofBytes ((bs.drop 1).take 1), ofBytes ((bs.drop 2).take 4)⟩ :: readAdverts src n (bs.drop 6)

/-- ADVERT: every die hears of the free slots of another package's die, which ADDR names, in place of what it heard before; OPC 1 goes on
from the packet before (log 18). -/
def State.homeAdvert (s : State) (p : Packet) : Performed :=
  let ads := readAdverts p.src.toNat 48 p.data
  ({ s with dies := s.dies.map fun d =>
      if p.opc = 0 then d.hear (p.src.toNat, p.addr.toNat) ads else { d with adverts := d.adverts ++ ads } }, some (rpDone, []))

/-- LAUNCH: the checks of R256 on this package, answered with the number of the one that refuses or 0 (R347), and from PKG0 with the place of
the arrival words (R348, log 21). -/
def State.homeLaunch (s : State) (p : Packet) : Performed :=
  let r : BitVec 2048 := BitVec.ofNat 2048 (ofBytes p.data)
  match s.checkRecord (recWorld r) r with
  | .error k => (s, some (rpDone, toBytes k 4))
  | .ok (d, h) =>
    let l := s.launches.length
    let s1 := s.addLaunch r d h none 0 none s.rootDie
    let s2 := s1.modLaunch l fun x => { x with handle := p.addr.toNat, origin := some p.src.toNat }
    let base := ((s2.launches[l]?).map (·.arrivalBase)).getD 0
    ({ s2 with pkg := { s2.pkg with nextHandle := s.pkg.nextHandle } }, some (rpDone, toBytes 0 4 ++ toBytes base 8))

/-- The uncommitted launch that a COMMIT or ABORT names. -/
def State.offered (s : State) (p : Packet) : Option Nat :=
  let r : BitVec 2048 := BitVec.ofNat 2048 (ofBytes (p.data.take 256))
  s.launches.findIdx? fun l =>
    l.handle == p.addr.toNat && l.origin == some p.src.toNat && l.record == r && !l.committed && l.live

/-- COMMIT: the share becomes a candidate; the payload ends in the place of the arrival words (R348, log 21). -/
def State.homeCommit (s : State) (p : Packet) : Performed :=
  match s.offered p with
  | some l =>
    ((s.modLaunch l fun x => { x with arrivalBase := ofBytes ((p.data.drop 256).take 8) }).commit l, some (rpDone, []))
  | none => (s, some (rpDone, []))

/-- ABORT: the launch is given up. -/
def State.homeAbort (s : State) (p : Packet) : Performed :=
  match s.offered p with
  | some l => (s.modLaunch l fun x => { x with completion := some .cancelled }, some (rpDone, []))
  | none => (s, some (rpDone, []))

/-! ## The fabric manager's messages (R328, R329, R348) -/

/-- Route-table entries in a payload: destination and entry, 18 bytes each (log 21). -/
def readRoutes : Nat → List Byte → List (Nat × BitVec 128)
  | 0, _ => []
  | n + 1, bs =>
    if bs.length < 18 then []
    else (ofBytes (bs.take 2), BitVec.ofNat 128 (ofBytes ((bs.drop 2).take 16))) :: readRoutes n (bs.drop 18)

/-- Write route-table entries. -/
def Fabric.setRoutes (f : Fabric) (l : List (Nat × BitVec 128)) : Fabric :=
  { f with routes := l.foldl (fun m e => Sparse.set 0 m (e.1 % 4096) e.2) f.routes }

/-- What the manager learns of a port: the neighbour at the other end while the link is up. -/
def Fabric.learn (f : Fabric) (node port : Nat) (peer : Option Nat) : Fabric :=
  let g := (f.graph.filter fun e => !(e.1 == node && e.2.1 == port)) ++ (peer.map fun n => (node, port, n)).toList
  if g.filter (·.1 == node) = f.graph.filter (·.1 == node) then f else { f with graph := g, stale := true }

/-- The neighbour of a port whose link is up. -/
def Fabric.upPeer (f : Fabric) (port : Nat) : Option Nat :=
  (f.links[port]?).bind fun l => if l.state = .keyed then some l.peer else none

/-- Tell the manager the state of a port's link: its payload is the port, whether it is up, and the neighbour (log 21). -/
def State.reportLink (s : State) (port : Nat) : State :=
  let f := s.fabric
  let peer := f.upPeer port
  if f.manager = f.node then { s with fabric := f.learn f.node port peer }
  else
    s.request { s.packet 0 .manager f.manager 0 with
      opc := 2, data := toBytes port 1 ++ toBytes (if peer.isSome then 1 else 0) 1 ++ toBytes (peer.getD 0) 2 }

/-- Tell a newly elected manager of every link. -/
def State.reportLinks (s : State) : State :=
  (List.range s.fabric.links.length).foldl (fun s p => if (s.fabric.upPeer p).isSome then s.reportLink p else s) s

/-- A package takes another as manager, or itself: it then learns every link anew. -/
def State.takeManager (s : State) (n : Nat) : State :=
  let s1 : State := { s with fabric := { s.fabric with manager := n, missed := 0 } }
  if n = s.fabric.manager then s1
  else
    let own := n == s.fabric.node
    ({ s1 with fabric := { s1.fabric with
        graph := if own then [] else s1.fabric.graph, stale := own, elected := s1.fabric.beats } } : State).reportLinks

/-- The candidate that an election makes manager where another package holds it (R328): the lowest that can be reached, the sender and this
package among them, but not the manager that is silent. -/
def State.candidate (s : State) (src : Nat) : Nat := (src :: s.peers.filter (· != s.fabric.manager)).foldl min s.fabric.node

/-- A heartbeat comes. One of a package that is not the manager makes it so only where it is the lower candidate. -/
def State.heartbeat (s : State) (src : Nat) : State :=
  let f := s.fabric
  if src = f.manager then { s with fabric := { f with missed := 0 } }
  else if src < f.node ∧ (src < f.manager ∨ f.missed ≠ 0) then s.takeManager src
  else s

/-- The submitter of a launch learns that one of its packages has left the fabric (R348). DESIGN CHOICE (log 21): in the device log, and as an
UNREACHABLE message with the package on the submitter's port. -/
def State.tellLost (s : State) (l package : Nat) : State :=
  match s.launches[l]? with
  | none => s
  | some x =>
    if x.lost.contains package then s
    else
      let s1 := (s.modLaunch l fun x => { x with lost := x.lost ++ [package] }).logLine (.packageLost x.handle package)
      if x.host.isSome then s1.tell x.host none 3 stUnreachable (BitVec.ofNat 32 package) (BitVec.ofNat 64 x.handle) [] else s1

/-- Packages of committed launches that cannot be reached any more are reported to the submitter, once (R348). -/
def State.reportLost (s : State) : State :=
  (List.range s.launches.length).foldl (fun s l =>
    match s.launches[l]? with
    | none => s
    | some x =>
      let gone := ((List.range (recPkgn x.record)).map (recPkg0 x.record + ·)).filter fun n =>
        n != s.fabric.node && (s.fabric.route n).isNone && !x.lost.contains n
      if !x.committed || (!x.live && x.origin.isSome) then s
      else
        match x.origin with
        | none => gone.foldl (fun s n => s.tellLost l n) s
        | some o =>
          gone.foldl (fun s n =>
            (s.request { s.packet 0 .manager o x.handle with opc := 6, data := toBytes n 2 }).modLaunch l fun x =>
              { x with lost := x.lost ++ [n] }) s) s

/-- MANAGER (log 21): OPC 0 is a heartbeat, 1 an election, 2 a link's state, 3 entries of this package's route table; between service
kernels, OPC 4 is the completion of a share, 5 the end of a team that the sender has taken over, 6 the loss of a package, 7 a code object
that is BOUND there. -/
def State.homeManager (s : State) (p : Packet) : Performed :=
  let f := s.fabric
  let src := p.src.toNat
  let field (o n : Nat) : Nat := ofBytes ((p.data.drop o).take n)
  let s' : State :=
    match p.opc.toNat with
    | 0 => s.heartbeat src
    | 1 => if src < f.manager ∨ f.missed ≠ 0 then s.takeManager (s.candidate src) else s
    | 2 => { s with fabric := f.learn src (field 0 1) (if field 1 1 = 1 then some (field 2 2) else none) }
    | 3 => if f.manager = src then ({ s with fabric := f.setRoutes (readRoutes 16 p.data) } : State).reportLost.sequence else s
    | 4 => ((s.launchUnder p.addr.toNat f.node).map fun l => s.shareReport l src (readCompletion p.data)).getD s
    | 5 => (((s.launchUnder p.addr.toNat (field 4 2)).bind fun l => s.awayTeam l src (field 0 4)).map fun t =>
        s.awayEnds t (readCompletion (p.data.drop 6))).getD s
    | 6 => ((s.launchUnder p.addr.toNat f.node).map fun l => s.tellLost l (field 0 2)).getD s
    | 7 =>
      let e : Nat × W64 := (p.addr.toNat, BitVec.ofNat 64 (field 0 8))
      { s with pkg := { s.pkg with boundAway := if s.pkg.boundAway.contains e then s.pkg.boundAway else s.pkg.boundAway ++ [e] } }
    | _ => s
  (s', some (rpDone, []))

/-- Perform a request by its TYPE; one that a reset has marked is answered with its STATUS (R319). -/
def State.perform (s : State) (p : Packet) : Performed :=
  if p.status ≠ 0 then (s, some (p.status.toNat, []))
  else match p.typ with
  | .read => s.homeRead p
  | .write => s.homeWrite p
  | .atomic => s.homeAtomic p
  | .xa => s.homeXa p
  | .rstf => s.homeRstf p
  | .grant => s.homeGrant p
  | .recall => s.homeRecall p
  | .page => s.homePage p
  | .launch => s.homeLaunch p
  | .commit => s.homeCommit p
  | .abort => s.homeAbort p
  | .manager => s.homeManager p
  | .team => s.homeTeam p
  | .advert => s.homeAdvert p
  | .unlisted => (s, none)

/-! ## Intake (R333, R335) -/

/-- The destination's end of a stream. -/
def Fabric.inStream (f : Fabric) (src tier : Nat) : InStream :=
  (f.ins.find? fun x => x.src == src && x.tier == tier).getD { src := src, tier := tier, expect := 0, early := [], replies := [] }

def Fabric.setIn (f : Fabric) (x : InStream) : Fabric :=
  { f with ins := (f.ins.filter fun y => !(y.src == x.src && y.tier == x.tier)) ++ [x] }

/-- Send a reply. -/
def State.sendReply (s : State) (p : Packet) : State := { s with fabric := { s.fabric with out := s.fabric.out ++ [p] } }

/-- Flits of the requests that stored replies answer; a reply's HOP holds its request's flits while it is stored. -/
def storedFlits (l : List Packet) : Nat := (l.map (·.hop)).foldl (· + ·) 0

/-- Keep a reply: those of the stream's last 256 flits of requests stay. -/
def keepReply : Nat → List Packet → List Packet
  | 0, l => l
  | n + 1, l => if 256 < storedFlits l then keepReply n l.tail else l

/-- Perform the packet whose turn it is, and the ones after it that arrived early, as far as they go. -/
def State.drain (s : State) (src tier : Nat) : Nat → State
  | 0 => s
  | n + 1 =>
    let x := s.fabric.inStream src tier
    match x.early.find? fun p => p.seq == x.expect with
    | none => s
    | some p =>
      match s.perform p with
      | (s1, none) => s1
      | (s1, some r) =>
        let a := p.answer r.1 r.2
        let y := s1.fabric.inStream src tier
        let y' : InStream :=
          { y with expect := y.expect + 1, early := y.early.filter fun q => q.seq != p.seq
                   replies := keepReply 256 (y.replies ++ [{ a with seq := p.seq, hop := p.flits }]) }
        (({ s1 with fabric := s1.fabric.setIn y' } : State).sendReply a).drain src tier n

/-- Perform what can be performed now of every stream. -/
def State.drainAll (s : State) : State :=
  (s.fabric.ins.map fun x => (x.src, x.tier)).foldl (fun s k => s.drain k.1 k.2 ((s.fabric.inStream k.1 k.2).early.length)) s

/-- Whether a SEQ lies before the expected one. -/
def seqBefore (seq expect : BitVec 16) : Bool := seq != expect && decide ((expect - seq).toNat ≤ 2 ^ 15)

/-- A request arrives: a duplicate is answered with the stored reply or discarded; the others wait for their turn in the intake. -/
def State.intake (s : State) (p : Packet) : State :=
  let x := s.fabric.inStream p.src.toNat p.tier
  if seqBefore p.seq x.expect then
    match x.replies.find? fun a => a.seq == p.seq with
    | some a => s.sendReply { a with seq := 0, hop := 0 }
    | none => s
  else
    let x' := { x with early := if x.early.any fun q => q.seq == p.seq then x.early else x.early ++ [p] }
    let s1 : State := { s with fabric := s.fabric.setIn x' }
    s1.drain p.src.toNat p.tier x'.early.length

/-- A request of a type addressed to this node; one with a reserved field set is discarded and logged (R332). -/
def State.arrivePacket (s : State) (t : PacketType) (p : Packet) : Out :=
  .next (if p.malformed then s.logLine (.discarded p) else if p.typ = t ∧ !p.reply then s.intake { p with status := 0 } else s)

/-- READ. -/
def execReadPacket (p : Packet) (s : State) : Out := s.arrivePacket .read p
/-- WRITE. -/
def execWritePacket (p : Packet) (s : State) : Out := s.arrivePacket .write p
/-- ATOMIC. -/
def execAtomicPacket (p : Packet) (s : State) : Out := s.arrivePacket .atomic p
/-- XA. -/
def execXaPacket (p : Packet) (s : State) : Out := s.arrivePacket .xa p
/-- RSTF_PACKET. -/
def execRstfPacket (p : Packet) (s : State) : Out := s.arrivePacket .rstf p
/-- GRANT_PACKET. -/
def execGrantPacket (p : Packet) (s : State) : Out := s.arrivePacket .grant p
/-- RECALL. -/
def execRecallPacket (p : Packet) (s : State) : Out := s.arrivePacket .recall p
/-- PAGE. -/
def execPagePacket (p : Packet) (s : State) : Out := s.arrivePacket .page p
/-- TEAM. -/
def execTeamPacket (p : Packet) (s : State) : Out := s.arrivePacket .team p
/-- ADVERT. -/
def execAdvertPacket (p : Packet) (s : State) : Out := s.arrivePacket .advert p
/-- LAUNCH. -/
def execLaunchPacket (p : Packet) (s : State) : Out := s.arrivePacket .launch p
/-- COMMIT. -/
def execCommitPacket (p : Packet) (s : State) : Out := s.arrivePacket .commit p
/-- ABORT. -/
def execAbortPacket (p : Packet) (s : State) : Out := s.arrivePacket .abort p
/-- MANAGER. -/
def execManagerPacket (p : Packet) (s : State) : Out := s.arrivePacket .manager p

end Sys2Proof.Machine
end

