-- ==== Sys2Proof/Machine/Replies.lean ====
section
/-! DEFINITION. What a requester does with a reply (R333, R340), launches on several packages from the accepting instance (R347), and the
fabric manager (R328, R329). -/

namespace Sys2Proof.Machine

/-! ## Launches on several packages, from the accepting instance (R347) -/

/-- Packages other than this one that a record names. -/
def State.otherPackages (s : State) (r : BitVec 2048) : List Nat :=
  ((List.range (recPkgn r)).map (recPkg0 r + ·)).filter (· != s.fabric.node)

/-- Answer the submitter of a launch: a reply, or the results of the lane that waits. A refusal names the package as its value. -/
def State.answerSubmit (s : State) (x : Launch) (st : Nat) (check : Option Nat) (package : Nat) (handle : Option Nat) : State :=
  let s1 :=
    if x.host.isSome || x.lane.isNone then
      s.reply x.host x.hostOp st (BitVec.ofNat 32 (check.getD (if st = stUnreachable then package else 0)))
        (BitVec.ofNat 64 (handle.getD package)) []
    else s
  match x.lane with
  | none => s1
  | some (w, l) =>
    match s1.deliveryOf w l with
    | none => s1
    | some d =>
      let r := s1.launchResult st check (some (handle.getD package))
      r.1.serveDone d r.2

/-- Every package has accepted: COMMIT goes out, and the own share becomes a candidate. -/
def State.commitAll (s : State) (l : Nat) : State :=
  match s.launches[l]? with
  | none => s
  | some x =>
    let s1 := s.toPackages x.record .commit x.handle (toBytes x.record.toNat 256 ++ toBytes x.arrivalBase 8)
    (s1.commit l).answerSubmit x stOk none 0 (some x.handle)

/-- A package has refused or not answered: ABORT goes out. -/
def State.abortAll (s : State) (l st : Nat) (check : Option Nat) (package : Nat) : State :=
  match s.launches[l]? with
  | none => s
  | some x =>
    let s1 := s.toPackages x.record .abort x.handle (toBytes x.record.toNat 256)
    (s1.modLaunch l fun x => { x with completion := some .cancelled }).answerSubmit x st check package none

/-- Whether this package offers a launch to others and waits for their answers. -/
def Launch.offering (x : Launch) : Bool := x.origin.isNone && !x.committed && x.live

/-- A package's answer to LAUNCH: the number of the check that refuses it, or 0 for acceptance, with which PKG0 gives the place of the arrival
words (R347, R348). One whose service kernel did not take the packet has not answered: it is unreachable. -/
def State.launchAnswer (s : State) (p : Packet) : State :=
  match s.launches.findIdx? fun x => x.handle == p.addr.toNat && x.offering with
  | none => s
  | some l =>
    let k := ofBytes (p.data.take 4)
    let base := ofBytes ((p.data.drop 4).take 8)
    if p.status ≠ 0 ∨ p.data.length < 4 then s.abortAll l stUnreachable none p.src.toNat
    else if k ≠ 0 then s.abortAll l stRefused (some k) p.src.toNat
    else
      let s1 := s.modLaunch l fun x =>
        { x with answers := x.answers ++ [(p.src.toNat, 0)], arrivalBase := if base = 0 then x.arrivalBase else base }
      match s1.launches[l]? with
      | none => s1
      | some x =>
        if (s1.otherPackages x.record).all fun n => x.answers.any fun a => a.1 == n then s1.commitAll l else s1

/-- LAUNCH_ANSWER_TIMEOUT: a package has not answered in 100 ms. -/
def execLaunchAnswerTimeout (launch package : Nat) (s : State) : Out :=
  match s.launches[launch]? with
  | none => .next s
  | some x =>
    if !x.offering || !(s.otherPackages x.record).contains package || x.answers.any (fun a => a.1 == package) then .next s
    else .next (s.abortAll launch stUnreachable none package)

/-! ## Replies (R333, R340) -/

/-- The window after a reply. -/
def Stream.heard (x : Stream) (e : Sent) (echo : Bool) : Stream :=
  let rest := x.sent.filter fun y => y != e
  if echo then
    if e.beforeHalving then { x with sent := rest, good := 0 }
    else { x with sent := rest.map fun y => { y with beforeHalving := true }, window := max 4 (x.window / 2), good := 0 }
  else if x.window ≤ x.good + e.flits then { x with sent := rest, window := min 256 (x.window + 1), good := 0 }
  else { x with sent := rest, good := x.good + e.flits }

/-- The request a reply answers, as its stream holds it. -/
def Stream.asked (x : Stream) (p : Packet) : Option Sent :=
  x.sent.find? fun e => e.packet.typ == p.typ && e.packet.rtag == p.rtag && e.packet.addr == p.addr && e.packet.aux == p.aux

/-- The trap a STATUS raises. -/
def rpTrap (st : Nat) : TrapKind :=
  match st with
  | 1 => .poison | 2 => .protect | _ => .xlate

/-- What a reading instruction does with the bytes of a reply. -/
def replyEffect (i : Instr) (g : Grp) (s : State) : State :=
  match i with
  | .ld f => ldEffect f g s
  | .ldp f => ldpEffect f g s
  | .ldt f => ldtEffect f g s
  | .atom f => atomEffect f g s
  | .atomc f => atomcEffect f g s
  | .exrnd f => exrndEffect f g s
  | .cbacq f => cbacqEffect f g s
  | .waitp f => waitpEffect f g s
  | .tset f => tsetEffect f g s
  | .cbdef f => cbdefEffect f g s
  | _ => s

/-- Whether a lane waits for a reply of another node. -/
def Wait.onReply : Wait → Bool
  | .remote _ => true
  | _ => false

/-- The lanes of a request's wave that wait for its reply. -/
def State.askers (s : State) (r : RemoteReq) : List Nat := (s.wave r.wave).lanesWith fun t => t.wait == .remote r.rtag

/-- They wait no longer. -/
def State.unask (s : State) (r : RemoteReq) : State := s.modLanes r.wave (s.askers r) fun _ t => { t with wait := .none }

/-- Whether the bytes that a `waitp` or `cbacq` has read at another node may leave it waiting there. -/
def Grp.polls (g : Grp) : Option Instr → Bool
  | some (.waitp _) => true
  | some (.cbacq _) => decide (g.part.length < 32) || (Block.of g.part).filled == 0
  | _ => false

/-- The lanes that wait for a reply take it: they complete their instruction or trap. In a becalmed team, whose accesses were abandoned, a
reading lane performs its access again at its wake: a `waitp` or `cbacq` whose condition is still to fire asks again instead (R272, R273). -/
def State.laneReply (s : State) (r : RemoteReq) (p : Packet) : State :=
  let wv := s.wave r.wave
  let lanes := s.askers r
  match lanes.head?.bind fun l => (wv.thread l).redo.head? with
  | none => s.unask r
  | some rd =>
    let i? := (decode rd.word).toOption
    let g : Grp :=
      { w := r.wave, pc := rd.pc, word := rd.word, shape := (i?.map Instr.shape).getD Shape.blank, all := lanes, lanes := lanes
        src := wv, replay := some rd, part := r.part ++ p.data
        caps := lanes.filterMap fun l => ((wv.thread l).redo.head?).map fun x => (l, x.cap) }
    let s1 := s.modLanes r.wave lanes fun _ t => { t with redo := t.redo.tail, wait := .none }
    let s2 :=
      if p.status ≠ 0 then s1.raiseAll g (rpTrap p.status.toNat) lanes
      else match i? with
        | some i => replyEffect i g s1
        | none => s1
    let asksAgain := g.polls i? && lanes.any fun l => (s2.thread r.wave l).wait.onReply
    if !wv.resident && p.typ == .read && !asksAgain then s.unask r else s2.finish g

/-- The lanes that fetch a line take it, or trap at the fetch (R146, R334). -/
def State.lineReply (s : State) (r : RemoteReq) (line : W64) (p : Packet) : State :=
  let lanes := s.askers r
  if !(s.wave r.wave).resident then s.unask r
  else if p.status ≠ 0 then
    (distinct (lanes.map fun l => (s.thread r.wave l).pc.toNat)).foldl (fun s pc =>
      s.raiseFetch r.wave (BitVec.ofNat 64 pc) (rpTrap p.status.toNat)
        (lanes.filter fun l => (s.thread r.wave l).pc.toNat == pc)) s
  else (s.unask r).modWave r.wave fun wv => { wv with fetched := some (line, BitVec.ofNat 512 (ofBytes p.data)) }

/-- A reply to a request of an engine command. -/
def State.cmdReply (s : State) (tile id line : Nat) (p : Packet) : State :=
  if p.status ≠ 0 then s.failCmd tile id 0 (trapWhy (rpTrap p.status.toNat))
  else if p.data.isEmpty then s
  else s.modCmd tile id fun x => { x with got := x.got ++ [(line, p.data)] }

/-- A reply about a command's counter block: what the claim has read or exchanged, or the end of the rise of FILLED (R210). -/
def State.blockReply (s : State) (tile id step : Nat) (p : Packet) : State :=
  if step = 2 then s.modTile tile fun x => { x with fills := x.fills.filter fun f => f.id != id }
  else if p.status ≠ 0 then s
  else s.modCmd tile id fun c => { c with seen := c.seen ++ p.data }

/-- Whether a node answers that it holds the frame of a page of this package no more (R285): the home then performs the access itself. -/
def handedBack (p : Packet) : Bool := p.status.toNat == rpXlate && decide (atFrameBit ≤ p.addr.toNat)

/-- The grant of a page of this package that a node holds no more is with its home again (R285). -/
def State.grantHome (s : State) (p : Packet) : State :=
  { s with fabric := { s.fabric with
      grantHolders := Sparse.set 0 s.fabric.grantHolders ((p.addr.toNat - atFrameBit) / 65536) 0 } }

/-- The answer of the node that holds a page to a request that was passed on; where it holds the page no more, the home performs the request
itself (R285). -/
def State.forwardReply (s : State) (src tier : Nat) (seq : BitVec 16) (step : Nat) (p : Packet) : State :=
  let key : Packet := { p with src := BitVec.ofNat 12 src, tier := tier, seq := seq }
  let gone := p.status.toNat == rpXlate
  ((if gone then s.grantHome p else s).setForward key step (if gone then none else some (some (p.status.toNat, p.data)))).drainAll

/-- The home's answer about a page's write grant: the record that waits for it is answered (R285). -/
def State.grantReply (s : State) (die : Nat) (seq : W32) (p : Packet) : State :=
  let st : FaultStatus := match p.status.toNat with
    | 0 => .resolved | 1 => .poison | 2 => .protect | _ => .xlate
  let s1 : State := { s with agenda := s.agenda ++ [.faultAnswer die seq st none] }
  match (s.die die).faultq.find? fun r => r.seq == seq with
  | some r => if st = .resolved then s1.setFrame (r.aux.toNat / 65536) { s.frameOf (r.aux.toNat / 65536) with wg := true } else s1
  | none => s1

/-- A reply about a word that a launch waits for or raises (R258, R259). -/
def State.wordReply (s : State) (launch field : Nat) (p : Packet) : State :=
  match s.launches[launch]? with
  | none => s
  | some x =>
    let k := rpTrap p.status.toNat
    if field = caddrField then
      if x.live then s.launchDone launch (if p.status = 0 then .ok else completionOf k none) else s
    else if p.status = 0 then s.modLaunch launch fun l => { l with words := Sparse.set 0 l.words field (ofBytes p.data) }
    else if x.committed && !x.eligible && x.live then s.abandonShare launch k field
    else s

/-- Bytes of a page that its home has sent, or the acknowledgement of bytes sent home. The sectors that came go to their frame, each once all
of it is there; a page whose last bytes have reached the home is absent (R286). -/
def State.pageReply (s : State) (p : Packet) : State :=
  match s.frameFor p.src.toNat (p.addr.toNat / 65536) with
  | none => s
  | some (page, e) =>
    let o := p.addr.toNat % 65536
    let k := homeKey e o
    if p.data.isEmpty then
      if e.state = .departing ∧ !s.pagesUnderway e 0 65536 true then (s.departed page).drainAll else s
    else
      let s1 : State := { s with
        home := Memory.write s.home k (p.data.take pageChunk)
        homePoison := maskLines s.homePoison (k / 64) (if p.status = 1 then ofBytes (p.data.drop pageChunk) else 0) }
      let ready := s1.fabric.coming.filter fun c => c.1 == page && !s1.pagesUnderway e (2048 * c.2.1) 2048 false
      ready.foldl (fun s c =>
        ({ s with fabric := { s.fabric with coming := s.fabric.coming.filter (· != c) } } : State).land c.1 c.2.1 c.2.2) s1

/-- A holder has given a page back: what waited for it goes on. -/
def State.recallReply (s : State) (p : Packet) : State :=
  let page := p.addr.toNat / 65536
  let f := s.fabric
  let held := f.holder page == some p.src.toNat
  let f' : Fabric :=
    { f with grantHolders := if held then Sparse.set 0 f.grantHolders page 0 else f.grantHolders
             readers := f.readers.filter fun r => !(r.1 == page && r.2 == p.src.toNat) }
  (({ s with fabric := f' } : State).resumeAll fun t => t.wait == .recall page).drainAll

/-- The answer to a TEAM packet, `q`: a team that is refused returns, and the advertisement that it followed counts no more (R265). -/
def State.teamReply (s : State) (q p : Packet) : State :=
  let field (o n : Nat) : Nat := ofBytes ((q.data.drop o).take n)
  if p.status = 0 then s
  else
    match (s.launchUnder q.addr.toNat (field 261 2)).bind fun l => s.awayTeam l p.src.toNat (field 257 4) with
    | none => s
    | some t =>
      let world := ((s.launchOf t).map (·.world)).getD 0
      (s.teamReturns t).modDie (s.team t).die fun d => d.spend (p.src.toNat, field 256 1) world 0 true

/-- The request whose reply this is, among those that hold a tag: by its stream and SEQ. -/
def Fabric.reqOf (f : Fabric) (p : Packet) (seq : BitVec 16) : Option RemoteReq :=
  f.reqs.find? fun r => r.dst == p.src.toNat && r.tier == p.tier && r.seq == seq

/-- An access of this package to its own page, which the node that held the page has handed back, is made again (R232, R285). -/
def State.retryHome (s : State) (r : RemoteReq) (p : Packet) : State :=
  let s1 := s.grantHome p
  match r.use with
  | .lane | .fetch _ => s1.unask r
  | .cmd id _ => s1.modCmd r.tile id fun c => if c.kind = .cpyw then { c with sentAll := false, moved := 0 } else c
  | .block id 2 => s1.modTile r.tile fun x => { x with fills := x.fills.map fun f => if f.id = id then { f with asked := false } else f }
  | _ => s1

/-- What a reply does for what its request serves. -/
def State.serveReply (s1 : State) (r : RemoteReq) (p : Packet) : State :=
  match r.use with
  | .lane => s1.laneReply r p
  | .fetch line => s1.lineReply r line p
  | .cmd id line => s1.cmdReply r.tile id line p
  | .block id step => s1.blockReply r.tile id step p
  | .forward src tier seq step => s1.forwardReply src tier seq step p
  | .grant die seq => s1.grantReply die seq p
  | .arrival bar poll =>
    if poll then if p.status = 0 then s1.modBarrier bar fun b => { b with word := ofBytes p.data } else s1 else s1.unask r
  | .word launch field => s1.wordReply launch field p

/-- Whether a request is one of a third node, passed on. -/
def ReqUse.passedOn : ReqUse → Bool
  | .forward _ _ _ _ => true
  | _ => false

/-- A reply to a request that holds a tag takes effect, and its tag is free: what waits for one goes on. -/
def State.useReply (s : State) (r : RemoteReq) (p : Packet) : State :=
  let s1 : State := { s with fabric := { s.fabric with reqs := s.fabric.reqs.filter fun x => x != r } }
  (if handedBack p && !r.use.passedOn then s1.retryHome r p else s1.serveReply r p).resumeAll fun t => t.wait == .tag r.tile

/-- The reply `p` to the request `q` takes effect. -/
def State.deliverReply (s : State) (seq : BitVec 16) (q p : Packet) : State :=
  match s.fabric.reqOf p seq with
  | some r => s.useReply r p
  | none =>
    match p.typ with
    | .launch => s.launchAnswer p
    | .recall => s.recallReply p
    | .page => s.pageReply p
    | .team => s.teamReply q p
    | _ => s

/-- The wave for which the proxy holds a reply (R303): that of a lane, of a fetch or of an engine command whose tile is stopped or whose team
is in an image. -/
def State.replyWave (s : State) (p : Packet) (seq : BitVec 16) : Option Nat :=
  ((s.fabric.reqOf p seq).bind fun r =>
    match r.use with
    | .lane | .fetch _ | .cmd _ _ | .block _ _ | .arrival _ false => some r.wave
    | _ => none).filter s.proxied

/-- A reply goes to its waiter, or to the proxy, which keeps it under its request's SEQ. -/
def State.takeReply (s : State) (seq : BitVec 16) (q p : Packet) : State :=
  match s.replyWave p seq with
  | some w => s.holdReply w (.replyReceive { p with seq := seq })
  | none => s.deliverReply seq q p

/-- Whether a stream holds a request under a SEQ. -/
def Stream.holds (x : Stream) (seq : BitVec 16) : Bool := x.sent.any (fun e => e.seq == seq) || x.queued.any fun p => p.seq == seq

/-- REPLY_RECEIVE: the first reply to a request is taken, the window moves, and what waits for it is sent (R333, R340). A reply that the
proxy has kept, and whose request is no longer on the stream, goes to its waiter. -/
def execReplyReceive (p : Packet) (s : State) : Out :=
  let x := s.fabric.stream p.src.toNat p.tier
  if p.malformed then .next (s.logLine (.discarded p))
  else
    match x.asked p with
    | none =>
      .next (if x.holds p.seq || (s.proxy.any fun h => h.item == .replyReceive p) then s
        else if (s.fabric.reqOf p p.seq).isSome then s.takeReply p.seq p p else s)
    | some e =>
      let x1 := x.heard e p.echo
      let r := Stream.pump x1 x1.queued
      let f := s.fabric.setStream r.1
      .next (({ s with fabric := { f with out := f.out ++ r.2 } } : State).takeReply e.seq e.packet p)

/-- REQUEST_RESEND: a request without a reply for 10 ms is sent again with its SEQ. -/
def execRequestResend (dst tier : Nat) (seq : BitVec 16) (s : State) : Out :=
  match (s.fabric.stream dst tier).sent.find? fun e => e.seq == seq with
  | none => .next s
  | some e => .next (s.sendReply e.packet)

/-! ## The fabric manager (R328, R329) -/

/-- HEARTBEAT: ten milliseconds pass: the manager sends its heartbeat, and any other package counts one missed until it comes. -/
def execHeartbeat (s : State) : Out :=
  let f := s.fabric
  let s1 : State := { s with fabric := { f with beats := f.beats + 1, missed := if f.manager = f.node then 0 else f.missed + 1 } }
  .next (if f.manager = f.node then s1.tellPeers fun s n => s.packet 0 .manager n 0 else s1)

/-- MANAGER_ELECTION: of the candidates that can be reached, this package among them, the one with the lowest number is elected; the others
hear of the election. -/
def execManagerElection (reachable : List Nat) (s : State) : Out :=
  let s1 := s.tellPeers fun s n => { s.packet 0 .manager n 0 with opc := 1 }
  .next (s1.takeManager (reachable.foldl min s.fabric.node))

/-- The election that is due: three heartbeats in a row are missed, and the silent manager is no candidate. -/
def State.electionDue (s : State) : Option Instr :=
  let f := s.fabric
  if f.manager ≠ f.node ∧ 3 ≤ f.missed then some (.managerElection (s.peers.filter (· != f.manager))) else none

/-- Nodes of the fabric as the manager knows it, and those that forward: packages, which report their links. -/
def Fabric.nodes (f : Fabric) : List Nat :=
  distinct (f.node :: (f.graph.flatMap fun e => [e.1, e.2.2]) ++ f.routes.map (·.1))

/-- The nodes at each distance from a destination, nearest first: `n` rounds after those in `found`. -/
def Fabric.rings (f : Fabric) : Nat → List Nat → List Nat → List (List Nat)
  | 0, _, last => [last]
  | n + 1, found, last =>
    let next := distinct ((f.graph.filter fun e => last.contains e.2.2 && !found.contains e.1).map (·.1))
    last :: f.rings n (found ++ next) next

/-- Links from a node to a destination on a shortest route of at most 6, none where there is none. -/
def distIn (rings : List (List Nat)) (n : Nat) : Option Nat := rings.findIdx? fun r => r.contains n

/-- The ports of a node that lead to a neighbour one link nearer. -/
def Fabric.minPorts (f : Fabric) (rings : List (List Nat)) (n d : Nat) : List Nat :=
  (f.graph.filter fun e => e.1 == n && distIn rings e.2.2 == some (d - 1)).map (·.2.1)

/-- Whether an entry is one that the manager may compute for a node (R329). -/
def Fabric.entryGood (f : Fabric) (rings : List (List Nat)) (n : Nat) (e : BitVec 128) : Bool :=
  match distIn rings n with
  | none => e == 0
  | some 0 => e == BitVec.ofNat 128 (2 ^ 127)
  | some d =>
    let x := e.toNat
    let ports := f.minPorts rings n d
    e.getLsbD 127 && bitsOf x 124 3 == d && bitsOf x 120 4 == 0 &&
    ([0, 1, 2] : List Nat).all fun t =>
      let np := bitsOf x (40 * t + 24) 3
      bitsOf x (40 * t + 27) 13 == 0 && decide (1 ≤ np) && decide (np ≤ 4) &&
      (List.range np).all fun k => ports.contains (bitsOf x (40 * t + 6 * k) 6)

/-- The packages that get a table. -/
def Fabric.packages (f : Fabric) : List Nat := distinct (f.node :: f.graph.map (·.1))

/-- The entry of a table for a destination. -/
def entryOf (tables : List (Nat × List (Nat × BitVec 128))) (n dst : Nat) : BitVec 128 :=
  (((tables.find? fun t => t.1 == n).bind fun t => t.2.find? fun e => e.1 == dst).map (·.2)).getD 0

/-- Whether every package's table is one that the manager may compute. -/
def Fabric.tablesGood (f : Fabric) (tables : List (Nat × List (Nat × BitVec 128))) : Bool :=
  f.nodes.all fun dst =>
    let rings := f.rings 6 [dst] [dst]
    f.packages.all fun n => f.entryGood rings n (entryOf tables n dst)

/-- The entry with the first four minimal ports for every tier. -/
def Fabric.ownEntry (f : Fabric) (rings : List (List Nat)) (n : Nat) : BitVec 128 :=
  match distIn rings n with
  | none => 0
  | some 0 => BitVec.ofNat 128 (2 ^ 127)
  | some d =>
    let ps := (f.minPorts rings n d).take 4
    let ports := (ps.zipIdx.map fun e => e.1 % 64 * 2 ^ (6 * e.2)).foldl (· + ·) 0
    BitVec.ofNat 128 (2 ^ 127 + d * 2 ^ 124 + (([0, 1, 2] : List Nat).map fun t => (ps.length * 2 ^ 24 + ports) * 2 ^ (40 * t)).foldl (· + ·) 0)

/-- The tables that the model's manager computes. DESIGN CHOICE (log 67): the first four minimal ports, for every tier. -/
def Fabric.ownTables (f : Fabric) : List (Nat × List (Nat × BitVec 128)) :=
  f.packages.map fun n => (n, f.nodes.map fun dst => (dst, f.ownEntry (f.rings 6 [dst] [dst]) n))

/-- Cut a list into pieces of `k`. -/
def pieces (k : Nat) : Nat → List α → List (List α)
  | 0, _ => []
  | n + 1, l => if l.isEmpty then [] else l.take k :: pieces k n (l.drop k)

/-- An entry in a payload. -/
def routeBytes (e : Nat × BitVec 128) : List Byte := toBytes e.1 2 ++ toBytes e.2.toNat 16

/-- ROUTE_COMPUTE: the manager has computed every package's table, takes its own and sends the others theirs; it reports each pair that has no
route of at most 6 links (R328, R329). Tables that are not minimal are not the manager's. -/
def execRouteCompute (tables : List (Nat × List (Nat × BitVec 128))) (s : State) : Out :=
  let f := s.fabric
  if f.manager ≠ f.node ∨ !f.tablesGood tables then .next s
  else
    let of (n : Nat) : List (Nat × BitVec 128) := f.nodes.map fun dst => (dst, entryOf tables n dst)
    let s1 : State := { s with fabric := { f.setRoutes (of f.node) with stale := false, tablesSent := f.tablesSent + 1 } }
    let s2 := (f.packages.filter (· != f.node)).foldl (fun s n =>
      (pieces 16 (of n).length (of n)).foldl (fun s es =>
        s.request { s.packet 0 .manager n 0 with opc := 3, data := es.flatMap routeBytes }) s) s1
    .next (f.packages.foldl (fun s n =>
      (of n).foldl (fun s e => if e.2 = 0 then s.logLine (.unreachable n e.1) else s) s) s2).reportLost.sequence

/-- Whether the manager knows the links: every package that it can reach has reported its own, or 40 ms have passed since its election (R328,
log 53). -/
def State.linksKnown (s : State) : Bool :=
  (s.peers.all fun n => s.fabric.graph.any fun e => e.1 == n) || decide (s.fabric.elected + 4 ≤ s.fabric.beats)

/-- The tables that are due (R328). -/
def State.routesDue (s : State) : Option Instr :=
  if s.fabric.manager = s.fabric.node ∧ s.fabric.stale ∧ s.linksKnown then some (.routeCompute s.fabric.ownTables) else none

end Sys2Proof.Machine
end

