-- ==== Sys2Proof/Machine/Links.lean ====
section
/-! DEFINITION. Routes, virtual channels, frames and keys of the Bysum links, and the die-to-die links (R330 to R332, R336 to R338,
R342 to R346, R358, R360). -/

namespace Sys2Proof

/-- TYPE (R334). -/
def PacketType.code (t : PacketType) (reply : Bool) : Nat :=
  let two (n : Nat) : Nat := if reply then n + 1 else n
  match t with
  | .read => two 0x01 | .write => two 0x03 | .atomic => two 0x05 | .rstf => two 0x07 | .xa => two 0x09
  | .grant => 0x10 | .recall => 0x11 | .page => 0x12 | .launch => 0x20 | .commit => 0x21 | .team => 0x22 | .advert => 0x23
  | .abort => 0x24 | .manager => 0x30 | .unlisted => 0

end Sys2Proof

namespace Sys2Proof.Machine

/-! ## Flits (R332) -/

/-- A flit of up to 64 bytes. -/
def flitOf (bs : List Byte) : BitVec 512 := BitVec.ofNat 512 (ofBytes (bs.take 64))

/-- The flits of a packet: the header, then the payload beyond 32 bytes. -/
def packetFlits (p : Packet) : List (BitVec 512) :=
  let f (lo x : Nat) : Nat := x * 2 ^ lo
  let head := f 256 (ofBytes (p.data.take 32)) + f 192 p.addr.toNat + f 128 p.aux.toNat + f 116 p.src.toNat + f 104 p.dst.toNat +
    f 96 (p.typ.code p.reply) + f 80 p.seq.toNat + f 68 (p.rtag % 4096) + f 62 p.world.toNat + f 60 (p.tier % 4) +
    f 57 (p.hop % 8) + f 56 p.sq.toNat + f 55 p.echo.toNat + f 46 (p.data.length % 512) + f 40 p.opc.toNat +
    f 36 p.wt.code.toNat + f 33 p.scope.code.toNat + f 30 p.ord.code.toNat + f 28 p.status.toNat + p.resv.toNat
  BitVec.ofNat 512 head :: (List.range ((p.data.length - 32 + 63) / 64)).map fun k => flitOf (p.data.drop (32 + 64 * k))

/-! ## Links -/

def Fabric.link (f : Fabric) (port : Nat) : Link := f.links.getD port Link.reset

def State.modLink (s : State) (port : Nat) (g : Link → Link) : State :=
  { s with fabric := { s.fabric with links := modifyAt s.fabric.links port g } }

/-- The channel of a packet on a link (R336, R345). -/
def Link.channel (l : Link) (p : Packet) : Nat := (if l.version = 1 then min p.tier 1 else p.tier) * 6 + p.hop

/-- The port by which a packet leaves (R330). -/
def Fabric.portFor (f : Fabric) (p : Packet) : Option Nat :=
  (f.route p.dst.toNat).bind fun e =>
    let x := e.toNat
    let t := min p.tier 2
    let np := bitsOf x (40 * t + 24) 3
    if np = 0 then none else some (bitsOf x (40 * t + 6 * ((p.src.toNat + p.dst.toNat + t) % np)) 6)

/-- HOPS of a node. -/
def Fabric.hops (f : Fabric) (n : Nat) : Nat := ((f.route n).map fun e => bitsOf e.toNat 124 3).getD 0

/-- A packet leaves the receive buffer of an input port's channel: its credits are due to the other end (R336). -/
def State.freeBuffer (s : State) (port channel : Nat) (p : Packet) : State :=
  s.modLink port fun l => { l with due := modifyAt l.due channel (· + p.flits) }

/-- PACKET_FORWARD: a packet for another node, which stands in its input port's buffer, takes its next channel, or is discarded and logged
(R331, R332). The die-to-die links it may cross keep its hop index (R346). -/
def execPacketForward (port : Nat) (p : Packet) (s : State) : Out :=
  let q := { p with hop := p.hop + 1 }
  let channel := (s.fabric.link port).channel p
  let drop : State := (s.freeBuffer port channel p).logLine (.discarded p)
  match s.fabric.portFor q with
  | none => .next drop
  | some o =>
    if p.malformed ∨ 6 < q.hop + s.fabric.hops p.dst.toNat then .next drop
    else .next (s.modLink o fun l => { l with waiting := l.waiting ++ [⟨port, channel, q⟩] })

/-! ## Grants (R337, R338) -/

/-- The number under which the local injection queue stands among the inputs. -/
def localInput : Nat := 36

/-- Packets that want to leave by a port: those forwarded, then the node's own. -/
def Fabric.candidates (f : Fabric) (port : Nat) : List Buffered :=
  (f.link port).waiting ++ (f.out.filter fun p => f.portFor p == some port).map fun p => ⟨localInput, 0, p⟩

/-- Whether the channel holds credits for the whole packet. -/
def Link.ready (l : Link) (p : Packet) : Bool := decide (p.flits ≤ l.credits.getD (l.channel p) 0)

/-- The first of some numbers that a list holds, in turn from `start` among `n`. -/
def turnAfter (n start : Nat) (l : List Nat) : Option Nat := (List.range n).findSome? fun k => l.find? fun x => x == (start + k) % n

/-- The packet that is granted next, and the starvation count after it: round robin within its tier over the hop indices, then over the input
ports and the local queue. -/
def Link.pick (l : Link) (bs : List Buffered) : Option (Buffered × Nat) :=
  let rd := bs.filter fun b => l.ready b.packet
  let tiers := ([0, 1, 2] : List Nat).filter fun t => rd.any fun b => b.packet.tier == t
  match tiers.head?, tiers.getLast? with
  | some top, some bottom =>
    let t := if 64 ≤ l.starved then bottom else top
    let mine := rd.filter fun b => b.packet.tier == t
    (turnAfter 6 (l.rr.getD t 0) (mine.map (·.packet.hop))).bind fun h =>
      let here := mine.filter fun b => b.packet.hop == h
      (turnAfter 37 (l.rrIn.getD (t * 6 + h) 0) (here.map (·.port))).bind fun i =>
        (here.find? fun b => b.port == i).map fun b => (b, if t = bottom then 0 else l.starved + 1)
  | _, _ => none

/-- OUTPUT_GRANT: a port grants one whole packet; a request on a channel below half its credits is marked. A forwarded packet leaves its input
port's buffer. -/
def execOutputGrant (port : Nat) (s : State) : Out :=
  let l := s.fabric.link port
  if l.state ≠ .keyed then .next s
  else
    match l.pick (s.fabric.candidates port) with
    | none => .next s
    | some (b, starved) =>
      let p := b.packet
      let c := l.channel p
      let q := { p with sq := p.sq || (!p.reply && decide (l.credits.getD c 0 < 16)) }
      let l' := { l with
        credits := modifyAt l.credits c (· - p.flits), open_ := l.open_ ++ (List.range p.flits).map fun k => (q, k)
        starved := starved, rr := l.rr.set p.tier ((p.hop + 1) % 6), rrIn := l.rrIn.set (p.tier * 6 + p.hop) ((b.port + 1) % 37)
        waiting := l.waiting.erase b }
      let f := s.fabric
      let out := if b.port = localInput then f.out.erase p else f.out
      let s1 := ({ s with fabric := { f with out := out } } : State).modLink port fun _ => l'
      .next (if b.port = localInput then s1 else s1.freeBuffer b.port b.channel p)

/-! ## Frames (R342 to R344) -/

/-- The transmit or receive key of a link with its salt (R360): bytes 0 to 35 serve the direction from L. -/
def Link.key (l : Link) (sending : Bool) : BitVec 256 × BitVec 32 :=
  let bs := if l.low == sending then l.keys.take 36 else l.keys.drop 36
  (BitVec.ofNat 256 (ofBytes (bs.take 32)), BitVec.ofNat 32 (ofBytes (bs.drop 32)))

/-- The GCM IV: salt, then FSEQ. -/
def frameIv (salt : BitVec 32) (fseq : W64) : BitVec 96 := salt ++ fseq

/-- Bits [383:140] of a frame's tag flit. -/
def frameAad (fseq aseq : W64) (nfl : Nat) (nak : Bool) (cred : List Nat) : BitVec 256 :=
  let cr := (cred.zipIdx.map fun e => e.1 % 64 * 2 ^ (6 * e.2)).foldl (· + ·) 0
  BitVec.ofNat 256 (fseq.toNat * 2 ^ 180 + aseq.toNat * 2 ^ 116 + nfl * 2 ^ 112 + nak.toNat * 2 ^ 111 + cr)

/-- A flit of a packet. -/
def flitAt (e : Packet × Nat) : BitVec 512 := (packetFlits e.1).getD e.2 0

/-- The packets whose last flit is among some flits: a packet is there once all of it is. -/
def completed (flits : List (Packet × Nat)) : List Packet := (flits.filter fun e => e.2 + 1 == e.1.flits).map (·.1)

/-- The frame a link closes now: up to 8 of the flits granted, in their order. -/
def Link.frame (l : Link) : Frame :=
  let part := l.open_.take 8
  let plain := part.map flitAt
  let k := l.key true
  let cred := l.due.map fun n => min n 63
  { flits := Config.gcmCipher k.1 (frameIv k.2 l.txSeq) plain, plain := part
    gtag := Config.gcmTag k.1 (frameIv k.2 l.txSeq) plain (frameAad l.txSeq l.rxSeq plain.length l.nakDue cred)
    fseq := l.txSeq, aseq := l.rxSeq, nak := l.nakDue, cred := cred }

/-- Whether a link may close a frame: at most 128 are unacknowledged, and no FSEQ reaches 2^32 under one key (R344). -/
def Link.frameMay (l : Link) : Bool := l.state == .keyed && decide (l.unacked.length < 128) && decide (l.txSeq.toNat < 2 ^ 32 - 1)

/-- Whether a link has anything to put into a frame. -/
def Link.frameDue (l : Link) : Bool := l.frameMay && (!l.open_.isEmpty || l.nakDue || l.due.any (· != 0))

/-- Whether a link holds a full frame. -/
def Link.frameFull (l : Link) : Bool := l.frameMay && decide (8 ≤ l.open_.length)

/-- Whether flits wait at a port for credit alone: a tag flit then goes by itself (R342). -/
def Fabric.creditWait (f : Fabric) (port : Nat) : Bool :=
  let l := f.link port
  l.frameMay && l.open_.isEmpty && !(f.candidates port).isEmpty && (l.pick (f.candidates port)).isNone

/-- FRAME_CLOSE: the sender closes a frame; it keeps its ciphertext until it is acknowledged. -/
def execFrameClose (port : Nat) (s : State) : Out :=
  let l := s.fabric.link port
  if !(l.frameDue || s.fabric.creditWait port) then .next s
  else
    let fr := l.frame
    .next (s.modLink port fun l =>
      { l with open_ := l.open_.drop 8, unacked := l.unacked ++ [fr], txSeq := l.txSeq + 1
               due := l.due.map fun n => n - min n 63, nakDue := false })

/-- Whether a frame passes its check under the receive key. -/
def Link.passes (l : Link) (fr : Frame) : Bool :=
  let k := l.key false
  let plain := fr.plain.map flitAt
  fr.flits == Config.gcmCipher k.1 (frameIv k.2 fr.fseq) plain &&
  fr.gtag == Config.gcmTag k.1 (frameIv k.2 fr.fseq) plain (frameAad fr.fseq fr.aseq plain.length fr.nak fr.cred)

/-- The row that a packet at its destination is. -/
def arrivalOf (p : Packet) : Instr :=
  if p.reply then .replyReceive p
  else
    match p.typ with
    | .read | .unlisted => .readPacket p
    | .write => .writePacket p | .atomic => .atomicPacket p | .xa => .xaPacket p
    | .rstf => .rstfPacket p | .grant => .grantPacket p | .recall => .recallPacket p | .page => .pagePacket p
    | .launch => .launchPacket p | .commit => .commitPacket p | .abort => .abortPacket p | .manager => .managerPacket p
    | .team => .teamPacket p | .advert => .advertPacket p

/-- Heartbeat periods in the 60 s within which the third disagreement takes a link down (R344). -/
def disagreeSpan : Nat := 6000

/-- The ends of a link disagree (R344): it stops until a new handshake; the third time within 60 s it goes down. -/
def Link.disagree (l : Link) (now : Nat) : Link :=
  let recent := l.disagreements.filter (fun t => decide (now < t + disagreeSpan)) ++ [now]
  { l with state := if recent.length < 3 then .trained else .down, keys := [], disagreements := recent, failed := false, nakDue := false }

/-- A link goes down: what it holds is lost, and its sources send it again. -/
def Link.down (l : Link) : Link :=
  { l with state := .down, keys := [], unacked := [], open_ := [], waiting := [], failed := false, nakDue := false }

/-- A link is taken down, and the manager learns of it (R344). Packets that wait for it free their input buffers. -/
def State.linkFails (s : State) (port : Nat) : State :=
  let held := (s.fabric.link port).waiting
  (((held.foldl (fun s b => s.freeBuffer b.port b.channel b.packet) s).modLink port Link.down).logLine (.linkReport port)).reportLink port

/-- A frame fails its check, or arrives out of order: it and every later one are discarded until the one due comes, and a NAK goes out,
once. -/
def Link.nak (l : Link) : Link := if l.failed then l else { l with failed := true, nakDue := true }

/-- The packets of a frame that are here, and those that go on (R331): the row of each. The buffers of those that are here are free at once
(R335). -/
def State.frameRows (s : State) (port : Nat) (ps : List Packet) : List Instr :=
  ps.map fun p => if p.dst.toNat = s.fabric.node then arrivalOf p else .packetForward port p

/-- FRAME_RECEIVE: a frame in FSEQ order whose tag holds is passed on; any other is discarded and asked for again. The tag of a resent frame
that fails is a disagreement. -/
def execFrameReceive (port : Nat) (fr : Frame) (s : State) : Out :=
  let l := s.fabric.link port
  if l.state ≠ .keyed ∨ fr.fseq.toNat < l.rxSeq.toNat then .next s
  else if fr.fseq ≠ l.rxSeq then .next (s.modLink port Link.nak)
  else if !l.passes fr then
    if l.failed then
      let s1 := s.modLink port fun l => l.disagree s.fabric.beats
      .next (if (s1.fabric.link port).state = .down then s1.linkFails port else s1.reportLink port)
    else .next (s.modLink port Link.nak)
  else
    let back (c : List Nat) : List Nat := c.mapIdx fun i n => min 32 (n + fr.cred.getD i 0)
    let ps := completed fr.plain
    let due := (ps.filter fun p => p.dst.toNat == s.fabric.node).foldl (fun d p => modifyAt d (l.channel p) (· + p.flits)) l.due
    let s1 := s.modLink port fun l =>
      { l with rxSeq := l.rxSeq + 1, credits := back l.credits, due := due, failed := false, nakDue := false
               unacked := l.unacked.filter fun u => decide (fr.aseq.toNat ≤ u.fseq.toNat) }
    .next { s1 with agenda := s1.agenda ++ s.frameRows port ps ++ (if fr.nak then [.nakResend port fr.aseq] else []) }

/-- NAK_RESEND: the frames from ASEQ on go again as they are stored, and FSEQ does not advance. -/
def execNakResend (port : Nat) (aseq : W64) (s : State) : Out :=
  .next (s.modLink port fun l => { l with unacked := l.unacked.filter fun u => decide (aseq.toNat ≤ u.fseq.toNat) })

/-! ## Training and keys (R344, R345, R360) -/

/-- LINK_DOWN: the link is taken down and reported. -/
def execLinkDown (port : Nat) (s : State) : Out := .next (s.linkFails port)

/-- Flits that a link has granted and that have not been acknowledged, by channel. -/
def Link.owing (l : Link) (c : Nat) : Nat :=
  ((l.unacked.flatMap (·.plain) ++ l.open_).filter fun e => l.channel e.1 == c).length

/-- LINK_TRAINING: the ends run the highest version that both support; the other end states its versions and
the free slots of its buffers, which are this end's credits but for the flits that are to be sent again (R344). -/
def execLinkTraining (port : Nat) (versions : Versions) (other : LinkEnd) (s : State) : Out :=
  let v := min versions.hi 2
  if max versions.lo 1 ≤ v then
    .next (s.modLink port fun l0 =>
      let l := { l0 with version := v }
      { l with state := .trained, peer := other.node, peerPort := other.port, keys := [], starved := 0, failed := false, nakDue := false
               credits := (List.range 18).map fun c => min 32 (other.free.getD c 0) - l.owing c
               due := List.replicate 18 0 })
  else .next (s.linkFails port)

/-! ## The handshake (R359, R360) -/

/-- The package's identity: its Falcon-1024 key pair, public then secret (R359). -/
def identity : List Byte × List Byte := Config.falconKeys (derived (text "identity") 64)

/-- The randomness of a key operation: the device secret, the boot count and the count of key operations (R359). -/
def State.randomness (s : State) (k : Nat) : List Byte :=
  derived (text "random" ++ toBytes s.pkg.bootCount.toNat 8 ++ toBytes (s.pkg.keyCount.toNat + k) 8) 64

/-- The public key that a certificate holds, where the root has signed it (R359). -/
def certified (certificate : List Byte) : Option (List Byte) :=
  let c := Config.certificateParts certificate
  if (Config.shake256 c.1).setWidth 512 = Config.rootDigest && Config.falconVerify c.1 c.2.1 c.2.2 then some c.2.1 else none

/-- Whether this end of a link is L: it has the lower pair of node number and port (R360). -/
def Fabric.isLow (f : Fabric) (port : Nat) : Bool :=
  let l := f.link port
  decide (f.node < l.peer) || (f.node == l.peer && decide (port < l.peerPort))

/-- Steps 1 to 3 of the handshake with what the other end has sent, none where it fails; the key material of step 4. DESIGN CHOICE (log 22): the
transcript is what the ends have sent, in order, and its digest the 64 bytes of SHAKE256 over it that L signs. -/
def State.agree (s : State) (low : Bool) (peer : Handshake) : Option (List Byte) :=
  let own := Config.certificate
  if low then
    let k := Config.mlkemKeys (s.randomness 0)
    let sofar := own ++ k.1 ++ peer.certificate ++ peer.kem
    match certified peer.certificate with
    | none => none
    | some pub =>
      if Config.falconVerify pub (shake sofar 64) peer.signature then
        (Config.mlkemDecap k.2 peer.kem).map fun secret => secret ++ shake (sofar ++ peer.signature) 64
      else none
  else
    let c := Config.mlkemEncap peer.kem (s.randomness 0)
    let sofar := peer.certificate ++ peer.kem ++ own ++ c.1
    let whole := shake (sofar ++ Config.falconSign identity.2 (shake sofar 64) (s.randomness 1)) 64
    match certified peer.certificate with
    | none => none
    | some pub => if Config.falconVerify pub whole peer.signature then some (c.2 ++ whole) else none

/-- New keys: FSEQ counts from 0, and the flits that were not acknowledged go into new frames. -/
def Link.rekey (l : Link) (low : Bool) (secret : List Byte) : Link :=
  { l with state := .keyed, low := low, keys := shake secret 72, txSeq := 0, rxSeq := 0
           open_ := l.unacked.flatMap (·.plain) ++ l.open_, unacked := [], failed := false, nakDue := false }

/-- The handshake on a port: new keys, or the link goes down; the manager learns of either. It takes two key operations. -/
def State.handshake (s : State) (port : Nat) (peer : Handshake) : State :=
  let low := s.fabric.isLow port
  let s1 : State := { s with pkg := { s.pkg with keyCount := s.pkg.keyCount + 2 } }
  match s.agree low peer with
  | some secret => (s1.modLink port fun l => l.rekey low secret).reportLink port
  | none => s1.linkFails port

/-- LINK_HANDSHAKE: a trained link gets its keys; a certificate, signature or decapsulation that fails leaves it down. -/
def execLinkHandshake (port : Nat) (certificate kem signature : List Byte) (s : State) : Out :=
  .next (if (s.fabric.link port).state = .trained then s.handshake port ⟨certificate, kem, signature⟩ else s)

/-- LINK_REKEY: both ends change keys by a handshake over the running link, once every frame under the old ones is acknowledged (log 22). -/
def execLinkRekey (port : Nat) (peer : Handshake) (s : State) : Out :=
  let l := s.fabric.link port
  .next (if l.state = .keyed ∧ l.unacked.isEmpty then s.handshake port peer else s)

/-! ## Die-to-die links (R358) -/

/-- The answer an end owes: SHAKE256 over the package link key, both challenges and its die number. DESIGN CHOICE (log 22): each challenge
counts as a training, and 512 bits are compared. -/
def State.d2dAnswer (s : State) (die : Nat) : BitVec 512 :=
  let challenge (k : Nat) : List Byte := derived (toBytes s.pkg.bootCount.toNat 8 ++ toBytes (s.pkg.trainings.toNat + k) 8) 32
  (Config.shake256 (derived (text "link") 32 ++ challenge 0 ++ challenge 1 ++ toBytes die 1)).setWidth 512

/-- D2D_LINK_TRAINING: a die whose link answers right stays; of another the link stays down, and it is left out and reported. -/
def execD2dLinkTraining (die : Nat) (answer : BitVec 512) (s : State) : Out :=
  let s1 : State := { s with pkg := { s.pkg with trainings := s.pkg.trainings + 2 } }
  if !s.pkg.d2dUp.getD die false then .next s
  else if answer = s.d2dAnswer die then .next s1
  else
    let s2 : State := { s1 with pkg := { s1.pkg with d2dUp := s1.pkg.d2dUp.set die false } }
    .next ((s2.modDie die fun d => { d with present := false }).reserve.logLine (.dieLeftOut die))

end Sys2Proof.Machine
end

