-- ==== Sys2Proof/Machine/Management.lean ====
section
/-! DEFINITION. Contexts (R31, R259), the management of worlds (R367, R369, R370), the reset of a world (R318 to R320), attestation
(R362) and the replicas of the service kernel (R375). -/

namespace Sys2Proof.Machine

/-! ## Replicas (R375) -/

/-- REPLICA_CHANGE: a change is sequenced, applied by every instance and acknowledged. -/
def execReplicaChange (s : State) : Out := .next s.sequence

/-! ## Contexts -/

/-- A context at its creation: its tables empty, its windows starting 64 KiB up (R292), its root tables one after another. -/
def Ctx.fresh (world num tables arena : Nat) : Ctx :=
  { num := num, world := world, live := true, roots := (List.range 6).map fun k => tables + k * 65536, dir := [], recs := []
    nextData := 65536, nextCode := 65536, nextTable := tables + 6 * 65536, arena := arena, tensors := [], scratch := [], nextSerial := 0 }

/-- CONTEXT_CREATE: a context of a world, with empty page tables and its threads' private spaces at the places given (log 9, 12). -/
def execContextCreate (world ctx : Nat) (places : ContextPlaces) (s : State) : Out :=
  if !(s.world world).live || (s.ctx? ctx).isSome then .next s
  else
    .next (({ s with ctxs := s.ctxs ++ [Ctx.fresh world ctx places.tables.toNat places.arena] } : State).blank
      places.tables.toNat (6 * 65536)).sequence

/-- Teams of launches that pass a test. -/
def State.teamsOf (s : State) (p : Launch → Bool) : List Nat :=
  (List.range s.teams.length).filter fun t => (s.launchOf t).any p

/-- End every team of launches that pass a test; a launch of them that was never eligible is given up. -/
def State.endLaunches (s : State) (p : Launch → Bool) (reason : EndReason) : State :=
  let s1 := (s.teamsOf p).foldl (fun s t => s.endTeam t (some reason)) s
  (List.range s1.launches.length).foldl (fun s l =>
    match s.launches[l]? with
    | some x => if p x && x.live && !x.eligible then s.launchDone l .cancelled else s
    | none => s) s1

/-- The owner of the exemptions that mappings give. -/
def daxOwner : Nat := 2 ^ 40

/-- Pages of a range of a record's object. -/
def ObjRec.rangePages (r : ObjRec) (off len : Nat) : List Nat :=
  let stop := min (if len = 0 then r.extent else off + len) r.extent
  r.pages.filter fun p => decide (p * 65536 < r.run + stop) && decide (r.run + off < (p + 1) * 65536)

/-- The record of an object of a context. -/
def State.recOf (s : State) (ctx : Nat) (obj : W64) : Option ObjRec := (s.ctx? ctx).bind fun c => c.recOf obj

/-- The exemptions follow the mappings that there are. -/
def State.repin (s : State) : State :=
  let pages := s.pkg.dax.flatMap fun m => match s.recOf m.ctx m.obj with
    | some r => r.rangePages m.lo m.len
    | none => []
  { s with pinned := (s.pinned.filter fun e => e.1 != daxOwner) ++ (distinct pages).map fun p => (daxOwner, p) }

/-- The contexts that pass a test are no more: fault records, pins, mappings and translations go with them. -/
def State.endContexts (s : State) (p : Ctx → Bool) : State :=
  let gone := (s.ctxs.filter fun c => c.live && p c).map (·.num)
  let s1 : State :=
    { s with ctxs := s.ctxs.map fun c => if p c then { c with live := false } else c
             pinned := s.pinned.filter fun e => !gone.contains e.1
             dies := s.dies.map fun d => { d with faultq := d.faultq.filter fun r => !gone.contains r.ctx }
             pkg := { s.pkg with
               dax := s.pkg.dax.filter fun m => !gone.contains m.ctx
               boundAway := s.pkg.boundAway.filter fun e => !gone.contains e.1 } }
  s1.repin.resumeAll fun t => match t.wait with
    | .walker _ => true
    | _ => false

/-- CONTEXT_DESTROY: the context's teams end with an error, and all that it holds is released. -/
def execContextDestroy (ctx : Nat) (s : State) : Out :=
  .next (((s.endLaunches (fun l => l.ctx == ctx) .contextEnd).endContexts fun c => c.num == ctx).sequence)

/-! ## Reset of a world (R319, R320) -/

/-- A RESTORE or FREEZE under way finishes first (R320). -/
def State.finishStreams (s : State) : State :=
  (List.range s.tiles.length).foldl (fun s t =>
    outState s (if (s.tile t).fzOp = 3 then execRestoreDone t s else execFreezeDone t s)) s

/-- Partitions of a tile that belong to a world, as a mask. -/
def Tile.worldMask (t : Tile) (w : Nat) : BitVec 6 := BitVec.ofNat 6 (((t.parts w).map fun p => 2 ^ p).foldl (· + ·) 0)

/-- The partitions of an image that hold a world. -/
def Image.worldMask (x : Image) (w : Nat) : BitVec 6 :=
  BitVec.ofNat 6 (((List.range 6).map fun p => if bitsOf x.wmap.toNat (6 * p) 6 = w then 2 ^ p else 0).foldl (· + ·) 0)

/-- The header of an image in HBM shows its PRES, under a new TAG (R319). -/
def State.putPres (s : State) (x : Image) : State :=
  let a := x.addr.toNat
  if s.isLocal a ∧ s.headerId a = x.freezeId then
    (s.store [(a + 40, 8)] (toBytes (x.pres.toNat * 2 ^ 36 + x.wmap.toNat) 8)).putTag a
  else s

/-- Images drop the segments of a world, in their headers too; one left with none is discarded. -/
def State.dropSegments (s : State) (w : Nat) : State :=
  let had (x : Image) : Bool := x.pres &&& x.worldMask w != 0
  let images := s.images.map fun x => if had x then { x with pres := x.pres &&& ~~~x.worldMask w } else x
  let empty := (s.images.zip images).filter fun e => had e.1 && e.2.pres == 0
  let kept := images.filter fun x => x.pres &&& x.worldMask w == 0 && !s.pkg.consumed.contains x.freezeId
  (kept.filter fun x => (s.images.any fun y => y.freezeId == x.freezeId && y.pres != x.pres)).foldl State.putPres
    (empty.foldl (fun s e => s.discardImage e.1) { s with images := images })

/-- What other packages have asked of a world is answered with poison (R319 step 4). -/
def State.poisonIntake (s : State) (w : Nat) : State :=
  let f := s.fabric
  let mark (p : Packet) : Packet := if p.world.toNat = w then { p with status := 1 } else p
  ({ s with fabric := { f with ins := f.ins.map fun x => { x with early := x.early.map mark } } } : State).drainAll

/-- Without its line key a world's memory cannot be read again (R319 step 5, R355); it reads as memory that nothing has written
(log 2). Its frames and the map of its pages go with it. -/
def State.forgetMemory (s : State) (w : Nat) : State :=
  let gs := (s.world w).grants
  let frames := (s.framedPages w).map fun e => e.2.frame
  let mem := gs.foldl (fun m g => if g.1 < hbmLimit then Memory.clear m g.1 g.2 else m) s.mem
  { s with mem := frames.foldl (fun m f => Memory.clear m (f * 65536) 65536) mem
           frameMap := s.frameMap.filter fun e => !(s.granted w (e.1 * 65536) 65536) }

/-- Steps 2 to 6 of R319. -/
def State.resetWorld (s : State) (w : Nat) : State :=
  let s1 := s.finishStreams
  let s2 := (List.range s1.tiles.length).foldl (fun s t => s.quiesceParts t ((s.tile t).worldMask w) .reset) s1
  let s3 := (s2.endLaunches (fun l => l.world == w) .reset).dropSegments w
  let s4 : State := { s3 with proxy := s3.proxy.filter fun p => (s3.team (s3.wave p.wave).team).state != .ended }
  let s5 := (s4.poisonIntake w).forgetMemory w
  let s6 := (s5.modWorld w fun x => { x with lineKey := none, sealKeys := [] }).endContexts fun c => c.world == w
  { s6 with pkg := { s6.pkg with epoch := s6.pkg.epoch + 1 } }

/-! ## Configuration ownership (R367) -/

/-- OPs of R369 in a reply. -/
def opTake : Nat := 0x101
def opGive : Nat := 0x102
def opWorld : Nat := 0x110
def opResidency : Nat := 0x120
def opPin : Nat := 0x121
def opEvict : Nat := 0x122
def opAttest : Nat := 0x130

/-- TAKE_CONFIG: an atomic test-and-set. -/
def execTakeConfig (r : HostReq) (s : State) : Out :=
  match s.pkg.cfgOwner with
  | none => .next (({ s with pkg := { s.pkg with cfgOwner := some r.port } } : State).reply (some r) opTake stOk 0 0 [])
  | some _ => .next (s.reply (some r) opTake stBusy 0 0 [])

/-- GIVE_CONFIG: the owner gives the semaphore. -/
def execGiveConfig (r : HostReq) (s : State) : Out :=
  if s.pkg.cfgOwner = some r.port then
    .next (({ s with pkg := { s.pkg with cfgOwner := none } } : State).reply (some r) opGive stOk 0 0 [])
  else .next (s.reply (some r) opGive stNotOwner 0 0 [])

/-- A port gives the semaphore up. -/
def State.loseConfig (s : State) (port : Nat) : State :=
  if s.pkg.cfgOwner = some port then { s with pkg := { s.pkg with cfgOwner := none } } else s

/-- A request of WORLD: only the owner's is served. It answers a status and a value. -/
def State.owned (s : State) (r : HostReq) (k : State → State × Nat × Nat) : Out :=
  if s.pkg.cfgOwner = some r.port then
    let x := k s
    .next (x.1.reply (some r) opWorld x.2.1 0 (BitVec.ofNat 64 x.2.2) [])
  else .next (s.reply (some r) opWorld stNotOwner 0 0 [])

/-- A change to a world that exists. DESIGN CHOICE (log 23): UNKNOWN for one that does not. -/
def State.ownedWorld (s : State) (r : HostReq) (world : W32) (k : State → Nat → State × Nat × Nat) : Out :=
  s.owned r fun s =>
    let w := world.toNat
    if w < 64 ∧ (s.world w).live then k s w else (s, stUnknown, 0)

/-! ## WORLD (R370) -/

/-- A key derived from the device secret under the world epoch (R355). -/
def State.worldKey (s : State) (what : List Byte) (w : Nat) (more : List Byte) : BitVec 256 := worldKeyOf what w more s.pkg.epoch

/-- A world is created under the next epoch. -/
def State.createWorld (s : State) (w : Nat) : State :=
  let s1 : State := { s with pkg := { s.pkg with epoch := s.pkg.epoch + 1 } }
  (s1.modWorld w fun _ => { World.reset with live := true, lineKey := some (s1.worldKey (text "line") w []) }).sequence

/-- CREATE: a world of any number (the lowest free one, log 23) or of a named one. -/
def execCreate (r : HostReq) (world : W32) (s : State) : Out :=
  s.owned r fun s =>
    let w := world.toNat
    if 63 < w then (s, stMalformed, 0)
    else if w = 0 then
      match (List.range 64).find? fun k => k != 0 && !(s.world k).live with
      | some k => (s.createWorld k, stOk, k)
      | none => (s, stNoSpace, 0)
    else if (s.world w).live then (s, stBusy, 0)
    else (s.createWorld w, stOk, w)

/-- DESTROY: the world is reset and freed. -/
def execDestroy (r : HostReq) (world : W32) (s : State) : Out :=
  s.ownedWorld r world fun s w =>
    if w = 0 then (s, stDenied, 0)
    else (((s.resetWorld w).modWorld w fun _ => World.reset).sequence, stOk, 0)

/-- Whether a range is mapped (R280). -/
def State.rangeMapped (s : State) (base len : Nat) : Bool :=
  if len = 0 then s.paMapped base
  else if base < hbmLimit then
    decide (base + len ≤ hbmLimit) &&
    (List.range 4).all fun d => (s.die d).present || decide (base + len ≤ d * 3 * 2 ^ 36) || decide ((d + 1) * 3 * 2 ^ 36 ≤ base)
  else decide (backedBase ≤ base) && decide (base + len ≤ 2 ^ 52)

/-- Whether two ranges meet. -/
def meets (a n b m : Nat) : Bool := decide (a < b + m) && decide (b < a + n)

/-- Whether a range is well formed and mapped. -/
def State.rangeGood (s : State) (base len : W64) : Bool :=
  base.toNat % 65536 == 0 && len.toNat % 65536 == 0 && s.rangeMapped base.toNat len.toNat

/-- A grant without a range. -/
def cutRange (b n : Nat) (g : Nat × Nat) : List (Nat × Nat) :=
  if !meets b n g.1 g.2 then [g]
  else
    (if g.1 < b then [(g.1, b - g.1)] else []) ++ (if b + n < g.1 + g.2 then [(b + n, g.1 + g.2 - (b + n))] else [])

/-- The line key of a world. -/
def State.lineKey (s : State) (w : Nat) : BitVec 256 := (s.world w).lineKey.getD 0

/-- The tweak of a 16-byte block of a world's grant (R354). -/
def lineTweak (w block : Nat) : BitVec 128 := BitVec.ofNat 128 (w * 2 ^ 48 + block % 2 ^ 48)

/-- A block's bytes as a world reads them under its key where they were enciphered for another world and key (R354). -/
def reblock (w : Nat) (key : BitVec 256) (w0 : Nat) (key0 : BitVec 256) (block : Nat) (bs : List Byte) : List Byte :=
  let cipher := Config.qarma128 key0 (lineTweak w0 block) (BitVec.ofNat 128 (ofBytes bs))
  toBytes ((Config.qarma128 key (lineTweak w block)).symm cipher).toNat 16

/-- What a world reads in the blocks of a range that were enciphered for another one, or under another key (R354): the memory controller
deciphers them under the world's own key and tweak. -/
def State.redecipher (s : State) (w b n : Nat) : State :=
  s.pkg.formerly.foldl (fun s (f : Nat × Nat × Nat × BitVec 256) =>
    let lo := max b f.1
    let hi := min (b + n) (f.1 + f.2.1)
    if hi ≤ lo ∨ (f.2.2.1 = w ∧ f.2.2.2 = s.lineKey w) then s
    else
      { s with mem := (List.range ((hi - lo) / 16)).foldl (fun m i =>
          let a := lo + 16 * i
          Memory.write m a (reblock w (s.lineKey w) f.2.2.1 f.2.2.2 (a / 16) (Memory.bytes m a 16))) s.mem }) s

/-- A range enters a world's grant, or leaves it: what it holds stays enciphered as it was (R354). -/
def State.rekeyRange (s : State) (w b n : Nat) (enters : Bool) : State :=
  let s1 := if enters then s.redecipher w b n else s
  let rest := s1.pkg.formerly.flatMap fun f => (cutRange b n (f.1, f.2.1)).map fun g => (g.1, g.2, f.2.2.1, f.2.2.2)
  { s1 with pkg := { s1.pkg with formerly := if enters ∨ hbmLimit ≤ b then rest else rest ++ [(b, n, w, s.lineKey w)] } }

/-- GRANT: a range that no other world holds joins the world's grant. -/
def execGrant (r : HostReq) (world : W32) (base length : W64) (s : State) : Out :=
  s.ownedWorld r world fun s w =>
    let b := base.toNat
    let n := length.toNat
    if !s.rangeGood base length then (s, stMalformed, 0)
    else if (List.range 64).any fun k => k != w && (s.world k).grants.any fun g => meets b n g.1 g.2 then (s, stDenied, 0)
    else
      (((s.rekeyRange w b n true).modWorld w fun x =>
        { x with grants := if n = 0 then x.grants else x.grants ++ [(b, n)] }).sequence, stOk, 0)

/-- The physical ranges a context maps, or holds tensor buffers in. -/
def State.ctxRanges (s : State) (c : Ctx) : List (Nat × Nat) :=
  (c.roots.flatMap (s.mappedPages walkLevels)) ++ (c.recs.map fun r => (r.run, spanOf r.extent)) ++
  (c.tensors.flatMap fun e => tBuffers e.2) ++
  c.scratch.filterMap fun e => match scratchOf e.2 with
    | some (.copy page n) => some (page, n * 16384)
    | _ => none

/-- REVOKE: a range that no live context of the world uses leaves its grant. DESIGN CHOICE (log 15): the reserved regions of world 0 are in use. -/
def execRevoke (r : HostReq) (world : W32) (base length : W64) (s : State) : Out :=
  s.ownedWorld r world fun s w =>
    let b := base.toNat
    let n := length.toNat
    if !s.rangeGood base length then (s, stMalformed, 0)
    else if s.ctxs.any fun c => c.live && c.world == w && (s.ctxRanges c).any fun r => meets b n r.1 r.2 then (s, stBusy, 0)
    else if w = 0 ∧ (reservedRanges s.lastDie).any (fun g => meets b n g.1 g.2) then (s, stBusy, 0)
    else
      let held := (s.world w).grants.any fun g => meets b n g.1 g.2
      let s1 := if held then s.rekeyRange w b n false else s
      ((s1.modWorld w fun x => { x with grants := x.grants.flatMap (cutRange b n) }).sequence, stOk, 0)

/-- BIND: the world answers to function 3w of a port. -/
def execBind (r : HostReq) (world target : W32) (s : State) : Out :=
  s.ownedWorld r world fun s w =>
    if 1 < target.toNat then (s, stMalformed, 0)
    else if w = 0 then (s, stDenied, 0)
    else ((s.modWorld w fun x => { x with port := some target.toNat }).sequence, stOk, 0)

/-- THRESHOLDS: each value whose MASK bit is set. -/
def execThresholds (r : HostReq) (world mask doldrums : W32) (cold : BitVec 16) (high low : Byte) (s : State) : Out :=
  s.ownedWorld r world fun s w =>
    let x := s.world w
    let h := if mask.getLsbD 2 then high.toNat else x.high
    let l := if mask.getLsbD 3 then low.toNat else x.low
    if (mask.getLsbD 0 && doldrums != 0 && decide (doldrums.toNat < 4096)) || decide (100 < h) || decide (h ≤ l) ||
        decide (16 ≤ mask.toNat) then (s, stMalformed, 0)
    else
      ((s.modWorld w fun x =>
        { x with doldrums := if mask.getLsbD 0 then doldrums.toNat else x.doldrums
                 cold := if mask.getLsbD 1 then cold else x.cold, high := h, low := l }).sequence, stOk, 0)

/-- AUTH: a minting authority that no other world holds. -/
def execAuth (r : HostReq) (world : W32) (authority : BitVec 16) (s : State) : Out :=
  s.ownedWorld r world fun s w =>
    if (List.range 64).any fun k => k != w && (s.world k).auths.contains authority then (s, stDenied, 0)
    else
      ((s.modWorld w fun x =>
        { x with auths := if x.auths.contains authority then x.auths else x.auths ++ [authority] }).sequence, stOk, 0)

/-- The key an import brings, decapsulated with the key-import key of R359; none where the decapsulation fails. -/
def importedKey (w : Nat) (index : Byte) (ciphertext : List Byte) (wrapped : BitVec 256) : Option (BitVec 256) :=
  (Config.mlkemDecap (Config.mlkemKeys (derived (text "import") 64)).2 ciphertext).map fun secret =>
    wrapped ^^^ (Config.shake256 (secret ++ text "seal" ++ toBytes w 1 ++ [index])).setWidth 256

/-- KEY: a sealed key, derived or imported. World 0 has none (R355). -/
def execKey (r : HostReq) (world : W32) (index mode : Byte) (ciphertext : List Byte) (wrapped : BitVec 256) (s : State) : Out :=
  s.ownedWorld r world fun s w =>
    let load (k : BitVec 256) : State :=
      (s.modWorld w fun x => { x with sealKeys := Sparse.set 0 x.sealKeys index.toNat k }).sequence
    if 1 < mode.toNat then (s, stMalformed, 0)
    else if w = 0 then (s, stDenied, 0)
    else if mode = 0 then (load (s.worldKey (text "seal") w [index]), stOk, 0)
    else
      match importedKey w index ciphertext wrapped with
      | some k => (load k, stOk, 0)
      | none => (s, stDenied, 0)

/-! ## Attestation (R362) -/

/-- The report of a world for a nonce, before its signature. -/
def State.report (s : State) (world : Nat) (nonce : BitVec 256) (count : Nat) : List Byte :=
  let dies := ((List.range 4).map fun d => if (s.die d).present then 2 ^ d else 0).foldl (· + ·) 0
  let revs := s.gridTiles.flatMap fun t => toBytes (revisionWord t).toNat 8
  toBytes (0x4152 + 2 ^ 16) 8 ++ toBytes (s.fabric.node + world * 2 ^ 12 + dies * 2 ^ 24) 8 ++ toBytes count 8 ++
    toBytes s.pkg.bootCount.toNat 8 ++ toBytes nonce.toNat 32 ++ toBytes s.pkg.firmware.toNat 64 ++ shake revs 64 ++
    toBytes (s.world world).wdigest.toNat 64 ++ shake identity.1 64

/-- ATTEST: a signed report on the function's world; its count and that of key operations move on. -/
def execAttest (port : Nat) (q : FnReq) (nonce : BitVec 256) (s : State) : Out :=
  let r : HostReq := ⟨port, q.fn, q.id⟩
  let world := r.fn / 3
  if !(s.world world).live then .next (s.reply (some r) opAttest stUnknown 0 0 [])
  else
    let count := s.pkg.attestCount.toNat + 1
    let body := s.report world nonce count
    let sig := (Config.falconSign identity.2 (shake body 64) (s.randomness 0)).take 1280
    let full := body ++ toBytes sig.length 2 ++ toBytes 0 6 ++ (sig ++ List.replicate (1280 - sig.length) 0)
    let s1 : State :=
      { s with pkg := { s.pkg with attestCount := BitVec.ofNat 64 count, keyCount := s.pkg.keyCount + 1 } }
    .next (s1.reply (some r) opAttest stOk 0 0 full)

end Sys2Proof.Machine
end

