-- ==== Sys2Proof/Machine/Hosts.lean ====
section
/-! DEFINITION. The host ports: virtio functions (R364 to R367), resets (R318, R319), launch requests (R369), residency, pins and
evictions (R370), the object namespace (R372) and the DAX window (R373). -/

namespace Sys2Proof.Machine

/-! ## Functions -/

/-- A function of a port. -/
def State.fn (s : State) (port fn : Nat) : HostFn :=
  (s.pkg.fns.find? fun f => f.port == port && f.fn == fn).getD
    { port := port, fn := fn, features := 0, featuresOk := false, isr := 0, pending := 0, outstanding := [] }

def State.setFn (s : State) (x : HostFn) : State :=
  { s with pkg := { s.pkg with fns := (s.pkg.fns.filter fun f => !(f.port == x.port && f.fn == x.fn)) ++ [x] } }

/-- SR-IOV of every physical function (R364): virtual functions, the number of the first after its own, and their distance. -/
def totalVfs : Nat := 63
def firstVfOffset : Nat := 3
def vfStride : Nat := 3

/-- The function number of physical function `k`, as virtual function 0, or of its virtual function `w` (R364). -/
def functionOf (k w : Nat) : Nat := if w = 0 then k else k + firstVfOffset + vfStride * (w - 1)

/-- The world that a function serves. -/
def fnWorld (fn : Nat) : Nat := fn / vfStride

/-- Queues of a function: 17 of virtio-fs (R366). PRESUMED (log 87): the 3 of virtio-vsock and the 2 of a virtio-console of one port. -/
def queuesOf (fn : Nat) : Nat :=
  match fn % 3 with
  | 0 => 3
  | 1 => 2
  | _ => 17

/-- The CID of the host's end of a vsock function, and the one at which the services listen (R366). -/
def guestCid : Nat := 3
def serviceCid : Nat := 2

/-- The vsock ports of the launch service and of the management service (R369). -/
def launchPort : Nat := 0x400
def managementPort : Nat := 0x401

/-- The feature bits a function offers (R366). -/
def offered (fn : Nat) : List Nat :=
  [28, 29, 32, 33, 34, 35, 36] ++ (if fn < 3 then [37] else []) ++
    (match fn % 3 with
     | 0 => [0, 1]
     | 1 => [0, 2]
     | _ => [])

/-- Whether a function's world may use the port: world 0, or one bound to it (R364). Under recovery only function 1 is presented
(R378). -/
def State.serves (s : State) (port fn : Nat) : Bool :=
  if s.pkg.recovery then fn == 1
  else decide (fn < 3 + vfStride * totalVfs) &&
    (decide (fn < 3) || ((s.world (fnWorld fn)).live && (s.world (fnWorld fn)).port == some port))

/-- FEATURES_OK: it stays set where the driver accepts VERSION_1 and nothing that is not offered, and the function's world is bound
to the port. -/
def execFeaturesOk (port fn : Nat) (features : W64) (s : State) : Out :=
  let ok := features.getLsbD 32 && s.serves port fn &&
    (List.range 64).all fun b => !features.getLsbD b || (offered fn).contains b
  .next (s.setFn { s.fn port fn with features := features, featuresOk := ok })

/-- The places in BAR0 of the ISR status, the device configuration, and the MSI-X pending bits (R365). -/
def isrPlace : Nat := 0x2000
def configPlace : Nat := 0x3000
def pendingPlace : Nat := 0x3C00

/-- The byte of BAR0 that a host reads at a place, where it lies in what the spec gives a content: the ISR status, `guest_cid` in the
configuration of a virtio-vsock, the MSI-X pending bits (R365, R366). -/
def HostFn.bar0 (f : HostFn) (place : Nat) : Byte :=
  if place = isrPlace then f.isr
  else if configPlace ≤ place ∧ place < configPlace + 8 ∧ f.fn % 3 = 0 then (toBytes guestCid 8).getD (place - configPlace) 0
  else if pendingPlace ≤ place ∧ place < pendingPlace + 4 then (toBytes f.pending.toNat 4).getD (place - pendingPlace) 0
  else 0

/-- ISR_STATUS_READ: the read gives the status and clears it. -/
def execIsrStatusRead (port fn : Nat) (s : State) : Out :=
  .next (readGives (s.setFn { s.fn port fn with isr := 0 }, ((s.fn port fn).bar0 isrPlace).setWidth 64))

/-! ## Requests (R368 to R370, R372) -/

/-- PRESUMED (log 24): the FUSE operation and error numbers of Linux. -/
def fuseWriteOp : Nat := 16
def fuseUnlinkOp : Nat := 10
def fuseCreateOp : Nat := 35
def fuseMapOp : Nat := 48
def fuseUnmapOp : Nat := 49
def ePerm : Nat := 1
def eNoent : Nat := 2
def eAcces : Nat := 13
def eExist : Nat := 17
def eInval : Nat := 22

/-- OPs of the launch service (R369). -/
def opFile : Nat := 1
def opRecord : Nat := 2

/-- Whose request an operation is, and its OP; 0 stands for an access through a DAX window. -/
def requestOf : Instr → Option (HostReq × Nat)
  | .launchFile port q _ _ _ _ _ => some (⟨port, q.fn, q.id⟩, opFile)
  | .launchRecord port q _ => some (⟨port, q.fn, q.id⟩, opRecord)
  | .takeConfig r => some (r, opTake)
  | .giveConfig r => some (r, opGive)
  | .create r _ | .destroy r _ | .grant r _ _ _ | .revoke r _ _ _ | .bind r _ _ | .thresholds r _ _ _ _ _ _ | .auth r _ _
  | .key r _ _ _ _ _ => some (r, opWorld)
  | .residencyQuery r _ | .residencyReset r _ => some (r, opResidency)
  | .pin r _ _ _ _ => some (r, opPin)
  | .evict r _ _ _ _ => some (r, opEvict)
  | .attest port q _ => some (⟨port, q.fn, q.id⟩, opAttest)
  | .fileCreate port fn id _ _ => some (⟨port, fn, id⟩, fuseCreateOp)
  | .fileWrite r _ _ _ _ _ => some (r, fuseWriteOp)
  | .fileUnlink r _ _ => some (r, fuseUnlinkOp)
  | .fuseSetupmapping r _ _ _ _ => some (r, fuseMapOp)
  | .fuseRemovemapping port fn id _ _ => some (⟨port, fn, id⟩, fuseUnmapOp)
  | .daxAccess port fn id _ _ _ => some (⟨port, fn, id⟩, 0)
  | _ => none

/-- A number in a message. -/
def field (bs : List Byte) (o n : Nat) : Nat := ofBytes ((bs.drop o).take n)

/-- Whether a message is long enough for a layout, and zero beyond its header where the layout names nothing (R370). -/
def shaped (bs : List Byte) (n : Nat) (named : List (Nat × Nat)) : Bool :=
  decide (n ≤ bs.length) &&
    bs.zipIdx.all fun e => decide (e.2 < 16) || e.1 == 0 || named.any fun g => decide (g.1 ≤ e.2) && decide (e.2 < g.1 + g.2)

/-- The request of a WORLD message (R370). -/
def worldRequest (r : HostReq) (bs : List Byte) : Option Instr :=
  let w : W32 := BitVec.ofNat 32 (field bs 20 4)
  let long (o : Nat) : W64 := BitVec.ofNat 64 (field bs o 8)
  let word (o : Nat) : W32 := BitVec.ofNat 32 (field bs o 4)
  let byte (o : Nat) : Byte := BitVec.ofNat 8 (field bs o 1)
  let may (n : Nat) (named : List (Nat × Nat)) (i : Instr) : Option Instr := if shaped bs n ((16, 8) :: named) then some i else none
  match field bs 16 4 with
  | 0 => may 24 [] (.create r w)
  | 1 => may 24 [] (.destroy r w)
  | 2 => may 40 [(24, 16)] (.grant r w (long 24) (long 32))
  | 3 => may 40 [(24, 16)] (.revoke r w (long 24) (long 32))
  | 4 => may 28 [(24, 4)] (.bind r w (word 24))
  | 5 => may 36 [(24, 12)] (.thresholds r w (word 24) (word 28) (BitVec.ofNat 16 (field bs 32 2)) (byte 34) (byte 35))
  | 6 => may 26 [(24, 2)] (.auth r w (BitVec.ofNat 16 (field bs 24 2)))
  | 7 =>
    if byte 25 = 1 then
      may 1632 [(24, 2), (32, 1600)]
        (.key r w (byte 24) 1 ((bs.drop 32).take 1568) (BitVec.ofNat 256 (field bs 1600 32)))
    else may 26 [(24, 2)] (.key r w (byte 24) (byte 25) [] 0)
  | _ => none

/-- The request of a message to the launch service (R369). -/
def launchRequest (r : HostReq) (bs : List Byte) : Option Instr :=
  let path := (bs.drop 16).takeWhile fun b => b != 0
  let o := 17 + path.length
  let word (k : Nat) : W32 := BitVec.ofNat 32 (field bs (o + k) 4)
  match field bs 4 2 with
  | 1 =>
    if bs.length = o + 13 then 
      some (.launchFile r.port ⟨r.fn, r.id⟩ (path ++ [0]) (word 0) (word 4) (word 8) (BitVec.ofNat 8 (field bs (o + 12) 1)))
    else none
  | 2 => if bs.length = 272 then some (.launchRecord r.port ⟨r.fn, r.id⟩ (BitVec.ofNat 2048 (field bs 16 256))) else none
  | _ => none

/-- The request of a message to the management service (R369, R370). -/
def managementRequest (r : HostReq) (bs : List Byte) : Option Instr :=
  let ctx := field bs 16 4
  let long (o : Nat) : W64 := BitVec.ofNat 64 (field bs o 8)
  let may (n : Nat) (named : List (Nat × Nat)) (i : Instr) : Option Instr := if shaped bs n named then some i else none
  match field bs 4 2 with
  | 0x101 => may 16 [] (.takeConfig r)
  | 0x102 => may 16 [] (.giveConfig r)
  | 0x110 => worldRequest r bs
  | 0x120 =>
    match field bs 20 4 with
    | 0 => may 24 [(16, 8)] (.residencyQuery r ctx)
    | 1 => may 24 [(16, 8)] (.residencyReset r ctx)
    | _ => none
  | 0x121 => may 56 [(16, 4), (24, 32)] (.pin r ctx (BitVec.ofNat 128 (field bs 24 16)) (long 40) (long 48))
  | 0x122 => may 56 [(16, 4), (24, 32)] (.evict r ctx (BitVec.ofNat 128 (field bs 24 16)) (long 40) (long 48))
  | 0x130 => may 48 [(16, 32)] (.attest r.port ⟨r.fn, r.id⟩ (BitVec.ofNat 256 (field bs 16 32)))
  | _ => none

/-- The request that a message to a vsock port carries, none where it is malformed (R368): a reserved bit set, an unknown OP, a LEN that
disagrees. -/
def messageRequest (service : Nat) (r : HostReq) (bs : List Byte) : Option Instr :=
  if bs.length < 16 ∨ field bs 0 4 ≠ bs.length ∨ field bs 6 2 ≠ 0 then none
  else if service = launchPort then launchRequest r bs
  else managementRequest r bs

/-! ## Waiting requests -/

/-- A host request that waits: it is kept, and goes on once it can. -/
def State.await (s : State) (i : Instr) : State :=
  { s with pkg := { s.pkg with waiting := if s.pkg.waiting.contains i then s.pkg.waiting else s.pkg.waiting ++ [i] } }

/-- A host request waits no longer. -/
def State.unawait (s : State) (i : Instr) : State :=
  { s with pkg := { s.pkg with waiting := s.pkg.waiting.filter fun x => x != i } }

/-- Whether an access through a DAX window that a test names came before an operation and still waits. -/
def State.daxBefore (s : State) (i : Instr) (p : HostReq → Bool) : Bool :=
  (s.pkg.waiting.takeWhile (· != i)).any fun x => match x with
    | .daxAccess port fn id _ _ _ => p ⟨port, fn, id⟩
    | _ => false

/-- Whether an earlier access of a function through its window waits: they are performed in order (R373). -/
def State.daxBehind (s : State) (r : HostReq) (i : Instr) : Bool := s.daxBefore i fun q => q.port == r.port && q.fn == r.fn

/-- Whether a notification or a launch of a port comes after an access through a window that still waits: it is to observe it (R373). -/
def State.behindWindow (s : State) (port : Nat) (i : Instr) : Bool := s.daxBefore i fun q => q.port == port

/-- A function takes a request from a queue (R364). -/
def State.takes (s : State) (port fn : Nat) (o : HostItem) : State :=
  let x := s.fn port fn
  s.setFn { x with outstanding := x.outstanding ++ [o] }

/-- A message of a host on the transmit queue of a vsock function: the request that it carries comes next, or is answered MALFORMED (R368). -/
def State.message (s : State) (port fn service : Nat) (bs : List Byte) : State :=
  let r : HostReq := ⟨port, fn, BitVec.ofNat 64 (field bs 8 8)⟩
  let op := field bs 4 2
  let s1 := s.takes port fn ⟨0, r.id, op⟩
  match messageRequest service r bs with
  | some i => { s1 with agenda := s1.agenda ++ [i] }
  | none => s1.reply (some r) op stMalformed 0 0 []

/-- QUEUE_NOTIFY: a message is taken from a queue. PRESUMED (log 87): queue 1 of a virtio-vsock transmits and queue 0 takes the replies; a FUSE
request holds its operation at byte 4 and its number at byte 8. -/
def execQueueNotify (port fn : Nat) (m : QueueMessage) (s : State) : Out :=
  let i : Instr := .queueNotify port fn m
  if !(s.fn port fn).featuresOk || !s.serves port fn || decide (queuesOf fn ≤ m.queue) then .next (s.unawait i)
  else if s.behindWindow port i then .next (s.await i)
  else
    let s0 := s.unawait i
    .next (match fn % 3 with
      | 0 => if m.queue = 1 ∧ (m.service = launchPort ∨ m.service = managementPort) then s0.message port fn m.service m.bytes else s0
      | 1 => s0
      | _ => s0.takes port fn ⟨m.queue, BitVec.ofNat 64 (field m.bytes 8 8), field m.bytes 4 4⟩)

/-! ## Resets (R318, R319, R364, R367) -/

/-- The mappings of a port's function for a world's objects go. -/
def State.unmapWorld (s : State) (port world : Nat) : State :=
  let keep (m : DaxMap) : Bool := !(m.port == port && (s.ctx? m.ctx).any fun c => c.world == world)
  ({ s with pkg := { s.pkg with dax := s.pkg.dax.filter keep } } : State).repin

/-- Whether an operation is a request of a function. -/
def ofFunction (port fn : Nat) (i : Instr) : Bool := (requestOf i).any fun q => q.1.port == port && q.1.fn == fn

/-- The requests of a function that have no reply yet: those it has taken, and those that wait (R364). A write through a window has none. -/
def State.unanswered (s : State) (port fn : Nat) : List (W64 × Nat) :=
  let taken := (s.fn port fn).outstanding.map fun o => (o.id, o.op)
  let more := (s.pkg.waiting.filter (ofFunction port fn)).filterMap fun i => match i with
    | .daxAccess _ _ _ _ _ (some _) => none
    | _ => (requestOf i).map fun q => (q.1.id, q.2)
  taken ++ more.filter fun e => !taken.contains e

/-- A device is reset: its queues stop, its outstanding requests complete with RESET, and its mappings are removed (R364). Nothing of it
waits or is still to come, and no launch that other packages have yet to accept has it to answer. -/
def State.resetFn (s : State) (port fn : Nat) : State :=
  let open_ := s.unanswered port fn
  let taken (i : Instr) : Bool := (requestOf i).any fun q => ofFunction port fn i && open_.contains (q.1.id, q.2)
  let notifies (i : Instr) : Bool := match i with
    | .queueNotify p f _ => p == port && f == fn
    | _ => false
  let s1 := open_.foldl (fun s e => s.reply (some ⟨port, fn, e.1⟩) e.2 stReset 0 0 []) s
  let s2 := s1.setFn { s1.fn port fn with features := 0, featuresOk := false, isr := 0, pending := 0, outstanding := [] }
  let s3 : State :=
    { s2 with
      agenda := s2.agenda.filter fun i => !taken i
      launches := s2.launches.map fun l =>
        if !l.committed && l.live && l.host.any (fun r => r.port == port && r.fn == fn) then { l with host := none } else l
      pkg := { s2.pkg with waiting := s2.pkg.waiting.filter fun i => !(ofFunction port fn i || notifies i) } }
  if fn % 3 = 2 then s3.unmapWorld port (fnWorld fn) else s3

/-- DEVICE_FUNCTION_RESET: the device alone is reset; that of function 0 gives the semaphore up (R367). -/
def execDeviceFunctionReset (port fn : Nat) (s : State) : Out :=
  let s1 := s.resetFn port fn
  .next (if fn = 0 then s1.loseConfig port else s1)

/-- A world is reset, and its completion reported on its function (R319). -/
def State.resetBound (s : State) (port world : Nat) : State :=
  ((s.resetWorld world).sequence).tell (some ⟨port, vfStride * world, 0⟩) none 0 stOk 0 0 []

/-- FUNCTION_LEVEL_RESET of function 3w: the worlds bound to it are reset; that of function 0 gives the semaphore up. -/
def execFunctionLevelReset (port world : Nat) (s : State) : Out :=
  let s1 := s.resetFn port (vfStride * world)
  if world = 0 then .next (s1.loseConfig port)
  else if (s1.world world).live ∧ (s1.world world).port = some port then .next (s1.resetBound port world)
  else .next s1

/-- PORT_LINK_DOWN: the port gives the semaphore up. -/
def execPortLinkDown (port : Nat) (s : State) : Out :=
  .next (({ s with pkg := { s.pkg with linkUp := s.pkg.linkUp.set port false } } : State).loseConfig port)

/-! ## Launches (R369) -/

/-- LAUNCH_RECORD: a raw record for the function's world. -/
def execLaunchRecord (port : Nat) (q : FnReq) (record : BitVec 2048) (s : State) : Out :=
  let i : Instr := .launchRecord port q record
  let r : HostReq := ⟨port, q.fn, q.id⟩
  .next (if s.behindWindow r.port i then s.await i else (s.unawait i).submitFor (fnWorld r.fn) record (some r) opRecord)

/-- A decimal or hexadecimal digit. -/
def digit (b : Byte) : Option Nat :=
  let n := b.toNat
  if 48 ≤ n ∧ n ≤ 57 then some (n - 48)
  else if 65 ≤ n ∧ n ≤ 70 then some (n - 55)
  else if 97 ≤ n ∧ n ≤ 102 then some (n - 87)
  else none

/-- A number in a base, none where a digit is not one of it. -/
def numberOf (base : Nat) (bs : List Byte) : Option Nat :=
  if bs.isEmpty then none
  else bs.foldl (fun (m : Option Nat) b =>
    match m, digit b with
    | some n, some d => if d < base then some (n * base + d) else none
    | _, _ => none) (some 0)

/-- Take a fixed prefix off. -/
def after (pre bs : List Byte) : Option (List Byte) := if bs.take pre.length = pre then some (bs.drop pre.length) else none

/-- The kind that a file's suffix names (R25, R372). -/
def suffixKind (bs : List Byte) : Option (BitVec 3) :=
  if bs = text ".data" then some 0
  else if bs = text ".rodata" then some 1
  else if bs = text ".code" then some 2
  else none

/-- The context, object and kind that the path of a file names (R372). -/
def filePath (path : List Byte) : Option (Nat × W64 × BitVec 3) :=
  let bs := path.takeWhile fun b => b != 0
  (after (text "/ctx/") bs).bind fun r =>
    let num := r.takeWhile fun b => b != 47
    let file := r.drop (num.length + 1)
    (numberOf 10 num).bind fun c =>
      (numberOf 16 (file.take 4)).bind fun auth =>
        (numberOf 16 ((file.drop 5).take 12)).bind fun serial =>
          if (file.take 4).length = 4 ∧ ((file.drop 5).take 12).length = 12 ∧ (file.drop 4).take 1 = text "-" then
            (suffixKind (file.drop 17)).map fun k => (c, BitVec.ofNat 64 (auth * 2 ^ 48 + serial), k)
          else none

/-- The record that LAUNCH-FILE builds; a count too large for its field stands as the largest, which R256 refuses too. -/
def fileRecord (ctx : Nat) (world : Nat) (obj : W64) (threads waves teams : W32) (prio : Byte) (ltbase pkg : Nat) : BitVec 2048 :=
  let at_ (off x : Nat) : Nat := x * 2 ^ (8 * off)
  BitVec.ofNat 2048 ((longName 2 obj 0).toNat + at_ 20 ltbase +
    at_ 24 (prio.toNat % 8 + world % 64 * 2 ^ 4 + 4 * 2 ^ 16 + ctx % 2 ^ 32 * 2 ^ 32) +
    at_ 32 (min threads.toNat 0xFFFFFF) + at_ 36 (min waves.toNat 0xFFFFFF + 2 ^ 29) + at_ 60 teams.toNat + at_ 64 (pkg + 2 ^ 12))

/-- The lowest run of scratch numbers that the context's live launches leave free (R369). -/
def State.freeRun (s : State) (ctx n : Nat) : Option Nat :=
  let used := s.launches.filterMap fun l =>
    let b := scratchSpan l.record l.header
    if l.live && l.ctx == ctx && b.2 != 0 then some b else none
  let starts := 0 :: used.map fun b => b.1 + b.2
  let ok (a : Nat) : Bool := decide (a + n ≤ 0xFFFF) && used.all fun b => !meets a n b.1 b.2
  (starts.filter ok).foldl (fun (m : Option Nat) a =>
    match m with
    | some x => some (min x a)
    | none => some a) none

/-- The scratch numbers of LAUNCH-FILE's record (R369): from LTBASE on, the lowest free run, 0 for a kernel that needs none. Where no run is free
LTBASE is 0xFFFF, which check 8 refuses after the checks before it. -/
def State.fileBase (s : State) (c : Nat) (r : BitVec 2048) : Nat :=
  let scratch := (((s.ctx? c).bind fun x => s.kernelOf x r).map fun k => k.2.scratch).getD 0
  if scratch = 0 then 0 else (s.freeRun c (recTeams r)).getD 0xFFFF

/-- LAUNCH_FILE: the service builds a record for the file and submits it. DESIGN CHOICE (log 24): a path that names no file of code is
answered NONAME. -/
def execLaunchFile (port : Nat) (q : FnReq) (path : List Byte) (threads waves teams : W32) (prio : Byte) (s : State) : Out :=
  let i : Instr := .launchFile port q path threads waves teams prio
  let r : HostReq := ⟨port, q.fn, q.id⟩
  let world := fnWorld r.fn
  if s.behindWindow r.port i then .next (s.await i)
  else
    let s0 := s.unawait i
    if 1024 < path.length ∨ !path.contains 0 ∨ 7 < prio.toNat then .next (s0.reply (some r) opFile stMalformed 0 0 [])
    else
      match filePath path with
      | some (c, obj, 2) =>
        let record (lt : Nat) : BitVec 2048 := fileRecord c world obj threads waves teams prio lt s.fabric.node
        .next (s0.submitFor world (record (s0.fileBase c (record 0))) (some r) opFile)
      | _ => .next (s0.reply (some r) opFile stNoName 0 0 [])

/-! ## RESIDENCY, PIN, EVICT (R370) -/

/-- RESIDENCY_QUERY: the frames of the context's world in use, and its marks. -/
def execResidencyQuery (r : HostReq) (ctx : Nat) (s : State) : Out :=
  match s.ctx? ctx with
  | none => .next (s.reply (some r) opResidency stUnknown 0 0 [])
  | some c =>
    let w := s.world c.world
    .next (s.reply (some r) opResidency stOk (BitVec.ofNat 32 (w.high * 256 + w.low))
      (BitVec.ofNat 64 (s.framedPages c.world).length) [])

/-- RESIDENCY_RESET: every pinned object of the context is unpinned. -/
def execResidencyReset (r : HostReq) (ctx : Nat) (s : State) : Out :=
  match s.ctx? ctx with
  | none => .next (s.reply (some r) opResidency stUnknown 0 0 [])
  | some c =>
    let n := (c.recs.filter fun r => s.pinned.any fun e => e.1 == ctx && r.pages.contains e.2).length
    let s1 : State := { s with pinned := s.pinned.filter fun e => e.1 != ctx }
    .next (s1.reply (some r) opResidency stOk 0 (BitVec.ofNat 64 n) [])

/-- The service kernel's own accesses for a context. -/
def State.serviceWho (s : State) (ctx : Nat) : Who :=
  ⟨ctx, ((s.ctx? ctx).map (·.world)).getD 0, s.rootDie * 48, 0, 0, 0, 0, 0, false, false, false, false⟩

/-- Make pages present for a host request: at once, or with the request kept until they are. -/
def State.whenPresent (s : State) (i : Instr) (ctx : Nat) (pages : List Nat) (k : State → State) : State :=
  if s.allPresent pages then k (s.unawait i)
  else (((s.bringIn i (s.serviceWho ctx) pages).getD s)).await i

/-- PIN: pages of a range are made present and exempt from departure. -/
def execPin (r : HostReq) (ctx : Nat) (name : W128) (offset length : W64) (s : State) : Out :=
  let answer (s : State) (st : Nat) : State := s.reply (some r) opPin st 0 0 []
  let i : Instr := .pin r ctx name offset length
  match (s.ctx? ctx).bind fun c => c.known name with
  | none => .next (answer (s.unawait i) stNoName)
  | some d =>
    if d.size < offset.toNat then .next (answer (s.unawait i) stMalformed)
    else
      match s.needRec ctx d with
      | none => .next (answer (s.unawait i) stNoSpace)
      | some (s1, x) =>
        let pages := x.rangePages offset.toNat length.toNat
        .next (s1.whenPresent i ctx pages fun s => answer (s.pinPages ctx pages) stOk)

/-- EVICT: the present pages of a range depart; the request is answered once they are absent. -/
def execEvict (r : HostReq) (ctx : Nat) (name : W128) (offset length : W64) (s : State) : Out :=
  let answer (s : State) (st : Nat) : State := s.reply (some r) opEvict st 0 0 []
  let i : Instr := .evict r ctx name offset length
  match (s.ctx? ctx).bind fun c => c.known name with
  | none => .next (answer (s.unawait i) stNoName)
  | some d =>
    if d.size < offset.toNat then .next (answer (s.unawait i) stMalformed)
    else
      match s.recOf ctx d.obj with
      | none => .next (answer (s.unawait i) stOk)
      | some x =>
        match s.evictPages (x.rangePages offset.toNat length.toNat) with
        | (s1, some st) => .next (answer (s1.unawait i) st)
        | (s1, none) => .next (s1.await i)

/-! ## Files (R372) -/

/-- An object's directory entry where it is not retired. -/
def Ctx.entryOf (c : Ctx) (obj : W64) : Option DirEntry := c.dir.find? fun d => d.obj == obj && !d.retired

/-- The context whose files a function exports, where it is one of the function's world. -/
def State.exported (s : State) (r : HostReq) (ctx : Nat) : Option Ctx := (s.ctx? ctx).filter fun c => c.world == fnWorld r.fn

/-- A file that a function exports. -/
def State.fileOf (s : State) (r : HostReq) (ctx : Nat) (obj : W64) : Option DirEntry := (s.exported r ctx).bind fun c => c.entryOf obj

/-- FILE_CREATE: the object that the path names joins the directory, under an authority of the world. -/
def execFileCreate (port fn : Nat) (id : W64) (path : List Byte) (tensors : List TensorMark) (s : State) : Out :=
  let r : HostReq := ⟨port, fn, id⟩
  let answer (s : State) (e : Nat) : Out := .next (s.reply (some r) fuseCreateOp e 0 0 [])
  match filePath path with
  | none => answer s eInval
  | some (ctx, obj, kind) =>
    match s.exported r ctx with
    | none => answer s eNoent
    | some c =>
      if !(s.world c.world).auths.contains (obj.extractLsb' 48 16) then answer s eAcces
      else if c.dir.any fun d => d.obj == obj then answer s eExist
      else
        let d : DirEntry := { obj := obj, kind := kind, extent := 0, closed := false, retired := false, bytes := [], tensors := tensors }
        answer ((s.addObject ctx d).sequence) 0

/-- Change a directory entry. -/
def State.modEntry (s : State) (ctx : Nat) (obj : W64) (f : DirEntry → DirEntry) : State :=
  s.modCtx ctx fun c => { c with dir := c.dir.map fun d => if d.obj = obj then f d else d }

/-- Write bytes of a file that has been closed: in its frames or at its pages' homes where it has a record, else in the directory. -/
def State.rewrite (s : State) (ctx : Nat) (obj : W64) (offset : Nat) (bytes : List Byte) : State :=
  match s.recOf ctx obj with
  | some x => bytes.zipIdx.foldl (fun s b => s.poke (x.run + (offset + b.2)) [b.1]) s
  | none => s.modEntry ctx obj fun d => { d with bytes := Memory.write d.bytes offset bytes }

/-- A record made before the first close of its file gets its range once the extent is known. DESIGN CHOICE (log 88): until then its extent is 0
and no byte of it can be reached. -/
def State.settleRec (s : State) (ctx : Nat) (obj : W64) : State :=
  match s.recOf ctx obj, (s.ctx? ctx).bind fun c => c.entryOf obj with
  | some _, some d =>
    let bare := s.modCtx ctx fun c => { c with recs := c.recs.filter fun r => r.obj != obj }
    (bare.newRec ctx d).getD bare
  | _, _ => s

/-- Write bytes of a file that has not been closed, and close it. -/
def State.writeOpen (s : State) (ctx : Nat) (obj : W64) (offset : Nat) (bytes : List Byte) (close : Bool) : State :=
  let s1 := s.modEntry ctx obj fun d =>
    { d with bytes := Memory.write d.bytes offset bytes, closed := close
             extent := if bytes.isEmpty then d.extent else max d.extent (offset + bytes.length) }
  if close then (s1.settleRec ctx obj).sequence else s1

/-- FILE_WRITE: bytes of an object's file. The size at the first close is the extent; code that is BOUND on any package is not written. -/
def execFileWrite (r : HostReq) (ctx : Nat) (obj : W64) (offset : Nat) (bytes : List Byte) (close : Bool) (s : State) : Out :=
  let answer (s : State) (e : Nat) : Out := .next (s.reply (some r) fuseWriteOp e 0 0 [])
  match s.fileOf r ctx obj with
  | none => answer s eNoent
  | some d =>
    let bound := (s.recOf ctx obj).any (fun x => x.state == .bound) || s.pkg.boundAway.contains (ctx, obj)
    if d.kind = 2 ∧ bound then answer s eAcces
    else if d.closed && decide (d.extent < offset + bytes.length) then answer s ePerm
    else answer (if d.closed then s.rewrite ctx obj offset bytes else s.writeOpen ctx obj offset bytes close) 0

/-- FILE_UNLINK: the object is retired (R28). -/
def execFileUnlink (r : HostReq) (ctx : Nat) (obj : W64) (s : State) : Out :=
  match s.fileOf r ctx obj with
  | none => .next (s.reply (some r) fuseUnlinkOp eNoent 0 0 [])
  | some _ => .next (((s.retire ctx obj).sequence).reply (some r) fuseUnlinkOp 0 0 0 [])

/-! ## The DAX window (R365, R373) -/

/-- The size of a DAX window. -/
def windowSize : Nat := 2 ^ 36

/-- A mapping without a stretch of the window. -/
def DaxMap.cut (place length : Nat) (m : DaxMap) : List DaxMap :=
  (cutRange place length (m.place, m.len)).map fun g => { m with place := g.1, lo := m.lo + (g.1 - m.place), len := g.2 }

/-- A stretch of a function's window maps nothing. -/
def State.clearWindow (s : State) (r : HostReq) (place length : Nat) : State :=
  { s with pkg := { s.pkg with
      dax := s.pkg.dax.flatMap fun m => if m.port == r.port && m.fn == r.fn then m.cut place length else [m] } }

/-- FUSE_SETUPMAPPING: a file range is mapped at a place of the window once its pages are present, which are then exempt from departure.
PRESUMED (log 87): it takes the place of what the stretch mapped before. DESIGN CHOICE (log 88): an object without a record gets one, as by
PIN. -/
def execFuseSetupmapping (r : HostReq) (file : ObjectFile) (offset length place : Nat) (s : State) : Out :=
  let ctx := file.ctx
  let obj := file.obj
  let answer (s : State) (e : Nat) : State := s.reply (some r) fuseMapOp e 0 0 []
  let i : Instr := .fuseSetupmapping r file offset length place
  match s.fileOf r ctx obj with
  | none => .next (answer (s.unawait i) eNoent)
  | some d =>
    match s.needRec ctx d with
    | none => .next (answer (s.unawait i) eInval)
    | some (s1, x) =>
      if x.extent < offset + length ∨ length = 0 ∨ windowSize < place + length then .next (answer (s.unawait i) eInval)
      else
        let m : DaxMap := { port := r.port, fn := r.fn, place := place, ctx := ctx, obj := obj, lo := offset, len := length }
        .next (s1.whenPresent i ctx (x.rangePages offset length) fun s =>
          let s2 := s.clearWindow r place length
          answer (({ s2 with pkg := { s2.pkg with dax := s2.pkg.dax ++ [m] } } : State).repin) 0)

/-- FUSE_REMOVEMAPPING: what a stretch of the window maps goes, and its exemption. -/
def execFuseRemovemapping (port fn : Nat) (id : W64) (place length : Nat) (s : State) : Out :=
  let r : HostReq := ⟨port, fn, id⟩
  .next (((s.clearWindow r place length).repin).reply (some r) fuseUnmapOp 0 0 0 [])

/-- The record and the offset in its object that a stretch of a function's window maps. -/
def State.mapped (s : State) (r : HostReq) (place size : Nat) : Option (Nat × ObjRec × Nat) :=
  (s.pkg.dax.find? fun m =>
    m.port == r.port && m.fn == r.fn && decide (m.place ≤ place) && decide (place + size ≤ m.place + m.len)).bind fun m =>
      (s.recOf m.ctx m.obj).map fun x => (m.ctx, x, m.lo + (place - m.place))

/-- Where a host access through the window is performed (R373), or why it waits: as an access at device scope. -/
def State.daxPlace (s : State) (ctx : Nat) (r : ObjRec) (offset size : Nat) (writes : Bool) : Acc :=
  let parts := stretches (size / 65536 + 2) (r.run + offset) size
  let who := s.serviceWho ctx
  s.permitAll who (if writes then .write else .read) false true 0 parts (s.locateAll who parts)

/-- DAX_ACCESS: a host access through the window, at the device-scope point of its page; a read's bytes go to the host. -/
def execDaxAccess (port fn : Nat) (id : W64) (place size : Nat) (bytes : Option (List Byte)) (s : State) : Out :=
  let i : Instr := .daxAccess port fn id place size bytes
  let r : HostReq := ⟨port, fn, id⟩
  let done := s.unawait i
  match s.mapped r place size with
  | none => .next done
  | some (ctx, x, offset) =>
    if size = 0 then .next done
    else if s.daxBehind r i then .next (s.await i)
    else
      match s.daxPlace ctx x offset size bytes.isSome with
      | .ok ps _ =>
        .next (match bytes with
          | some bs => (done.count ps).store ps (bs.take size)
          | none => (done.count ps).reply (some r) 0 stOk 0 0 (Memory.readPieces s.mem ps))
      | .block _ (some q) => .next ((s.postOnce i q).await i)
      | .block (.recall page) none => .next ((s.recallHome page).await i)
      | .block _ none => .next (s.await i)
      | .trap .poison => .next (if bytes.isNone then done.reply (some r) 0 stPoisoned 0 0 [] else done)
      | _ => .next done

/-- Whether a waiting request's pages have come, or nothing that it is to observe waits any more. -/
def State.hostDue (s : State) (i : Instr) : Bool :=
  match i with
  | .pin _ ctx name off len =>
    match (s.ctx? ctx).bind fun c => c.known name with
    | none => true
    | some d => (s.recOf ctx d.obj).all fun r => s.allPresent (r.rangePages off.toNat len.toNat)
  | .fuseSetupmapping _ file off len _ => (s.recOf file.ctx file.obj).all fun r => s.allPresent (r.rangePages off len)
  | .evict _ ctx name off len =>
    match (s.ctx? ctx).bind fun c => c.known name with
    | none => true
    | some d => (s.recOf ctx d.obj).all fun r => s.evictDue (r.rangePages off.toNat len.toNat)
  | .daxAccess port fn id place size bytes =>
    !s.daxBehind ⟨port, fn, id⟩ i &&
    (match s.mapped ⟨port, fn, id⟩ place size with
     | none => true
     | some (ctx, x, offset) =>
       match s.daxPlace ctx x offset size bytes.isSome with
       | .block _ (some q) => !s.joined i q
       | .block (.recall page) none => s.recallDue page
       | .block _ none => false
       | _ => true)
  | .queueNotify port _ _ => !s.behindWindow port i
  | .launchFile port _ _ _ _ _ _ | .launchRecord port _ _ => !s.behindWindow port i
  | .translationInvalidate ctx _ _ => !s.inFlight ctx
  | _ => false

/-- Whether the boot ROM hides a request: under recovery a port presents function 1 alone (R378). -/
def State.hides (s : State) (i : Instr) : Bool := s.pkg.recovery && (requestOf i).any fun q => q.1.fn != 1

end Sys2Proof.Machine
end

