-- ==== Sys2Proof/Machine/Bringup.lean ====
section
/-! DEFINITION. Start-up, recovery, and the limits of temperature (R361, R378 to R381). -/

namespace Sys2Proof.Machine

/-- Whether the boot ROM accepts an image (R361): its Falcon-1024 signature over the SHAKE256 digest verifies under the root key whose digest
the ROM holds. DESIGN CHOICE (log 90): the root key, of 1,793 bytes, comes before the signature. -/
def imageGood (image signature : List Byte) : Bool :=
  let key := signature.take 1793
  decide ((Config.shake256 key).setWidth 512 = Config.rootDigest) && Config.falconVerify key (shake image 64) (signature.drop 1793)

/-- Good tiles of a die, in order. -/
def dieGood (goodTiles : List Nat) (die : Nat) : List Nat :=
  (List.range 48).filterMap fun t => if goodTiles.contains (die * 48 + t) then some (die * 48 + t) else none

/-- The logical grid (R379): 40 good tiles of each die; the places of a die that is left out mean nothing. DESIGN CHOICE (log 68): of more
than 40 good tiles the 40 with the lowest numbers are mapped, in rising order. -/
def gridOf (goodTiles : List Nat) : List Nat :=
  (List.range 4).flatMap fun d =>
    let g := (dieGood goodTiles d).take 40
    if g.length = 40 then g else (List.range 40).map (d * 48 + ·)

/-- The state from which a package starts with an image that has been checked: as after reset, but for what survives power loss. World 0 is
created under the next epoch (R355). -/
def State.started (s : State) (image : List Byte) (goodTiles : List Nat) : State :=
  let out := (List.range 4).filter fun d => decide ((dieGood goodTiles d).length < 40)
  let r := State.reset
  let r1 : State := { r with
    fabric := { r.fabric with node := s.fabric.node }
    dies := r.dies.mapIdx fun d x => { x with present := !out.contains d }
    worlds := modifyAt r.worlds 0 fun w => { w with lineKey := some (worldKeyOf (text "line") 0 [] (s.pkg.epoch + 1)) }
    pkg := { r.pkg with
      tileMap := gridOf goodTiles, bootCount := s.pkg.bootCount + 1, attestCount := s.pkg.attestCount, epoch := s.pkg.epoch + 1
      firmware := (Config.shake256 image).setWidth 512 } }
  out.foldl (fun s d => s.logLine (.dieLeftOut d)) r1.reserve

/-- POWER_ON: the boot ROM checks the firmware image and starts the package on its good tiles, or enters recovery. -/
def execPowerOn (image signature : List Byte) (goodTiles : List Nat) (s : State) : Out :=
  if imageGood image signature then .next (s.started image goodTiles)
  else
    let r := s.started [] goodTiles
    .next { r with pkg := { r.pkg with recovery := true, firmware := 0 } }

/-- The image of an upload once all of it has come: its length follows the four bytes `GARC` (R378). -/
def uploaded (bs : List Byte) : Option (List Byte) :=
  let n := ofBytes ((bs.drop 4).take 4)
  if 8 ≤ bs.length ∧ 8 + n ≤ bs.length then some ((bs.drop 8).take n) else none

/-- RECOVERY_UPLOAD: bytes of an upload on a port. Under recovery the first image that completes is checked, and the package restarts with it, on
the tiles that self test finds good (R379), or rejects it; any other upload is answered BUSY. DESIGN CHOICE (log 90): bytes that do not begin an
upload are dropped. -/
def execRecoveryUpload (port : Nat) (u : Upload) (goodTiles : List Nat) (s : State) : Out :=
  let busy (s : State) : State := s.logLine (.recovery "BUSY")
  if !s.pkg.recovery then .next (busy s)
  else
    let sofar := ((s.pkg.uploads.find? fun x => x.1 == port).map (·.2)).getD [] ++ u.bytes
    let others := s.pkg.uploads.filter fun x => x.1 != port
    let keep (l : List (Nat × List Byte)) : State := { s with pkg := { s.pkg with uploads := l } }
    if sofar.take 4 ≠ (text "GARC").take sofar.length then .next (keep others)
    else
      match uploaded sofar with
      | none => .next (keep (others ++ [(port, sofar)]))
      | some image =>
        let s1 := if imageGood image u.signature then s.started image goodTiles else (keep []).logLine (.recovery "REJECTED")
        .next (others.foldl (fun s _ => busy s) s1)

/-- THERMAL_THROTTLE: at 105 °C a die lowers its clock by 75 MHz, to 1.2 GHz at the least. -/
def execThermalThrottle (die : Nat) (s : State) : Out := .next (s.modDie die fun d => { d with mhz := max 1200 (d.mhz - 75) })

/-- The ports on which a world answers to a function: the one it is bound to, or both for world 0 (R364). -/
def State.portsOf (s : State) (w : Nat) : List Nat := if w = 0 then [0, 1] else (s.world w).port.toList

/-- A world is reset as by a function-level reset (R319): its functions' queues stop first, and its completion is reported on them last. -/
def State.resetAll (s : State) (w : Nat) : State :=
  let ports := s.portsOf w
  let s1 := ports.foldl (fun s p => s.resetFn p (vfStride * w)) s
  ports.foldl (fun s p => s.tell (some ⟨p, vfStride * w, 0⟩) none 0 stOk 0 0 []) (s1.resetWorld w).sequence

/-- OVERTEMPERATURE: at 115 °C every world is reset as under R319, and the package reports it. -/
def execOvertemperature (s : State) : Out :=
  .next (((List.range 64).foldl (fun s w => if (s.world w).live then s.resetAll w else s) s).logLine .overtemperature)

end Sys2Proof.Machine
end

