-- ==== Sys2Proof/Machine/Dispatch.lean ====
section
/-! DEFINITION. The meaning of every operation: one arm for each constructor, each a direct call of its meaning. -/

namespace Sys2Proof.Machine

/-- One operation. -/
def exec (i : Instr) (s : State) : Host.Outcome State Fault Refusal :=
  match i with
  | .nop => Sys2Proof.Machine.execNop s
  | .iadd f => Sys2Proof.Machine.execIadd f s
  | .iaddImm f => Sys2Proof.Machine.execIaddImm f s
  | .isub f => Sys2Proof.Machine.execIsub f s
  | .isubImm f => Sys2Proof.Machine.execIsubImm f s
  | .imul f => Sys2Proof.Machine.execImul f s
  | .imulImm f => Sys2Proof.Machine.execImulImm f s
  | .imad f => Sys2Proof.Machine.execImad f s
  | .imulhi f => Sys2Proof.Machine.execImulhi f s
  | .idiv f => Sys2Proof.Machine.execIdiv f s
  | .irem f => Sys2Proof.Machine.execIrem f s
  | .imin f => Sys2Proof.Machine.execImin f s
  | .iminImm f => Sys2Proof.Machine.execIminImm f s
  | .imax f => Sys2Proof.Machine.execImax f s
  | .imaxImm f => Sys2Proof.Machine.execImaxImm f s
  | .iabs f => Sys2Proof.Machine.execIabs f s
  | .ineg f => Sys2Proof.Machine.execIneg f s
  | .iadd3 f => Sys2Proof.Machine.execIadd3 f s
  | .iaddc f => Sys2Proof.Machine.execIaddc f s
  | .lea f => Sys2Proof.Machine.execLea f s
  | .icmp f => Sys2Proof.Machine.execIcmp f s
  | .icmpImm f => Sys2Proof.Machine.execIcmpImm f s
  | .isel f => Sys2Proof.Machine.execIsel f s
  | .and f => Sys2Proof.Machine.execAnd f s
  | .andImm f => Sys2Proof.Machine.execAndImm f s
  | .or f => Sys2Proof.Machine.execOr f s
  | .orImm f => Sys2Proof.Machine.execOrImm f s
  | .xor f => Sys2Proof.Machine.execXor f s
  | .xorImm f => Sys2Proof.Machine.execXorImm f s
  | .not f => Sys2Proof.Machine.execNot f s
  | .lop3 f => Sys2Proof.Machine.execLop3 f s
  | .shl f => Sys2Proof.Machine.execShl f s
  | .shlImm f => Sys2Proof.Machine.execShlImm f s
  | .shr f => Sys2Proof.Machine.execShr f s
  | .shrImm f => Sys2Proof.Machine.execShrImm f s
  | .sar f => Sys2Proof.Machine.execSar f s
  | .sarImm f => Sys2Proof.Machine.execSarImm f s
  | .rot f => Sys2Proof.Machine.execRot f s
  | .rotImm f => Sys2Proof.Machine.execRotImm f s
  | .bfe f => Sys2Proof.Machine.execBfe f s
  | .bfi f => Sys2Proof.Machine.execBfi f s
  | .popc f => Sys2Proof.Machine.execPopc f s
  | .clz f => Sys2Proof.Machine.execClz f s
  | .brev f => Sys2Proof.Machine.execBrev f s
  | .fadd f => Sys2Proof.Machine.execFadd f s
  | .faddImm f => Sys2Proof.Machine.execFaddImm f s
  | .fsub f => Sys2Proof.Machine.execFsub f s
  | .fsubImm f => Sys2Proof.Machine.execFsubImm f s
  | .fmul f => Sys2Proof.Machine.execFmul f s
  | .fmulImm f => Sys2Proof.Machine.execFmulImm f s
  | .ffma f => Sys2Proof.Machine.execFfma f s
  | .fmin f => Sys2Proof.Machine.execFmin f s
  | .fminImm f => Sys2Proof.Machine.execFminImm f s
  | .fmax f => Sys2Proof.Machine.execFmax f s
  | .fmaxImm f => Sys2Proof.Machine.execFmaxImm f s
  | .fabs f => Sys2Proof.Machine.execFabs f s
  | .fneg f => Sys2Proof.Machine.execFneg f s
  | .fcmp f => Sys2Proof.Machine.execFcmp f s
  | .fcmpImm f => Sys2Proof.Machine.execFcmpImm f s
  | .fclass f => Sys2Proof.Machine.execFclass f s
  | .fscale f => Sys2Proof.Machine.execFscale f s
  | .frnd f => Sys2Proof.Machine.execFrnd f s
  | .fdiv f => Sys2Proof.Machine.execFdiv f s
  | .fsqrt f => Sys2Proof.Machine.execFsqrt f s
  | .frcp f => Sys2Proof.Machine.execFrcp f s
  | .frsq f => Sys2Proof.Machine.execFrsq f s
  | .fex2 f => Sys2Proof.Machine.execFex2 f s
  | .flg2 f => Sys2Proof.Machine.execFlg2 f s
  | .fsin f => Sys2Proof.Machine.execFsin f s
  | .fcos f => Sys2Proof.Machine.execFcos f s
  | .mov f => Sys2Proof.Machine.execMov f s
  | .movi f => Sys2Proof.Machine.execMovi f s
  | .cvt f => Sys2Proof.Machine.execCvt f s
  | .shuf f => Sys2Proof.Machine.execShuf f s
  | .bcast f => Sys2Proof.Machine.execBcast f s
  | .vote f => Sys2Proof.Machine.execVote f s
  | .ballot f => Sys2Proof.Machine.execBallot f s
  | .shp f => Sys2Proof.Machine.execShp f s
  | .rdsr f => Sys2Proof.Machine.execRdsr f s
  | .pand f => Sys2Proof.Machine.execPand f s
  | .por f => Sys2Proof.Machine.execPor f s
  | .pxor f => Sys2Proof.Machine.execPxor f s
  | .pnot f => Sys2Proof.Machine.execPnot f s
  | .pmov f => Sys2Proof.Machine.execPmov f s
  | .bra f => Sys2Proof.Machine.execBra f s
  | .brx f => Sys2Proof.Machine.execBrx f s
  | .call f => Sys2Proof.Machine.execCall f s
  | .callx f => Sys2Proof.Machine.execCallx f s
  | .ret f => Sys2Proof.Machine.execRet f s
  | .join f => Sys2Proof.Machine.execJoin f s
  | .yield f => Sys2Proof.Machine.execYield f s
  | .exit f => Sys2Proof.Machine.execExit f s
  | .hpush f => Sys2Proof.Machine.execHpush f s
  | .hpop f => Sys2Proof.Machine.execHpop f s
  | .perf f => Sys2Proof.Machine.execPerf f s
  | .resumet f => Sys2Proof.Machine.execResumet f s
  | .resumec f => Sys2Proof.Machine.execResumec f s
  | .resumek f => Sys2Proof.Machine.execResumek f s
  | .dropt f => Sys2Proof.Machine.execDropt f s
  | .tinfo f => Sys2Proof.Machine.execTinfo f s
  | .trap f => Sys2Proof.Machine.execTrap f s
  | .ld f => Sys2Proof.Machine.execLd f s
  | .st f => Sys2Proof.Machine.execSt f s
  | .ldp f => Sys2Proof.Machine.execLdp f s
  | .stp f => Sys2Proof.Machine.execStp f s
  | .ldt f => Sys2Proof.Machine.execLdt f s
  | .pref f => Sys2Proof.Machine.execPref f s
  | .nameof f => Sys2Proof.Machine.execNameof f s
  | .ptreq f => Sys2Proof.Machine.execPtreq f s
  | .atom f => Sys2Proof.Machine.execAtom f s
  | .atomc f => Sys2Proof.Machine.execAtomc f s
  | .red f => Sys2Proof.Machine.execRed f s
  | .rstf f => Sys2Proof.Machine.execRstf f s
  | .exadd f => Sys2Proof.Machine.execExadd f s
  | .exclr f => Sys2Proof.Machine.execExclr f s
  | .exrnd f => Sys2Proof.Machine.execExrnd f s
  | .fence f => Sys2Proof.Machine.execFence f s
  | .bar f => Sys2Proof.Machine.execBar f s
  | .bara f => Sys2Proof.Machine.execBara f s
  | .barw f => Sys2Proof.Machine.execBarw f s
  | .cbdef f => Sys2Proof.Machine.execCbdef f s
  | .cbacq f => Sys2Proof.Machine.execCbacq f s
  | .cbrel f => Sys2Proof.Machine.execCbrel f s
  | .waitp f => Sys2Proof.Machine.execWaitp f s
  | .icinv f => Sys2Proof.Machine.execIcinv f s
  | .ifence f => Sys2Proof.Machine.execIfence f s
  | .cpy f => Sys2Proof.Machine.execCpy f s
  | .cpym f => Sys2Proof.Machine.execCpym f s
  | .cpyw f => Sys2Proof.Machine.execCpyw f s
  | .mma f => Sys2Proof.Machine.execMma f s
  | .mmasp f => Sys2Proof.Machine.execMmasp f s
  | .cwait f => Sys2Proof.Machine.execCwait f s
  | .tset f => Sys2Proof.Machine.execTset f s
  | .tget f => Sys2Proof.Machine.execTget f s
  | .tseal f => Sys2Proof.Machine.execTseal f s
  | .publ f => Sys2Proof.Machine.execPubl f s
  | .cctl f => Sys2Proof.Machine.execCctl f s
  | .halt f => Sys2Proof.Machine.execHalt f s
  | .issueCycle tile part => Sys2Proof.Machine.execIssueCycle tile part s
  | .activeSetExchange tile part => Sys2Proof.Machine.execActiveSetExchange tile part s
  | .groupPromotion wave pc => Sys2Proof.Machine.execGroupPromotion wave pc s
  | .trapDelivery wave => Sys2Proof.Machine.execTrapDelivery wave s
  | .joinRelease wave => Sys2Proof.Machine.execJoinRelease wave s
  | .barrierPhaseComplete bar => Sys2Proof.Machine.execBarrierPhaseComplete bar s
  | .waitpRelease wave lane => Sys2Proof.Machine.execWaitpRelease wave lane s
  | .cbacqRelease wave lane => Sys2Proof.Machine.execCbacqRelease wave lane s
  | .cbSlotClaim tile cmd => Sys2Proof.Machine.execCbSlotClaim tile cmd s
  | .commandAccept tile cmd => Sys2Proof.Machine.execCommandAccept tile cmd s
  | .commandFinish tile cmd => Sys2Proof.Machine.execCommandFinish tile cmd s
  | .commandFailure tile cmd landed why => Sys2Proof.Machine.execCommandFailure tile cmd landed why s
  | .faultAnswer die seq status fix => Sys2Proof.Machine.execFaultAnswer die seq status fix s
  | .translationInvalidate ctx page entries => Sys2Proof.Machine.execTranslationInvalidate ctx page entries s
  | .pageSectorArrival page sector frame => Sys2Proof.Machine.execPageSectorArrival page sector frame s
  | .pageDepart page => Sys2Proof.Machine.execPageDepart page s
  | .watermarkDeparture world => Sys2Proof.Machine.execWatermarkDeparture world s
  | .counterHalving stack => Sys2Proof.Machine.execCounterHalving stack s
  | .codeBind ctx obj ok => Sys2Proof.Machine.execCodeBind ctx obj ok s
  | .retentionExit tile => Sys2Proof.Machine.execRetentionExit tile s
  | .launchSubmit world record => Sys2Proof.Machine.execLaunchSubmit world record s
  | .launchEligibility launch => Sys2Proof.Machine.execLaunchEligibility launch s
  | .dispatchRound die grants => Sys2Proof.Machine.execDispatchRound die grants s
  | .launchAging launch => Sys2Proof.Machine.execLaunchAging launch s
  | .freeSlotAdvert die => Sys2Proof.Machine.execFreeSlotAdvert die s
  | .teamTransfer team die accepted => Sys2Proof.Machine.execTeamTransfer team die accepted s
  | .shareComplete launch => Sys2Proof.Machine.execShareComplete launch s
  | .becalm team places => Sys2Proof.Machine.execBecalm team places s
  | .teamWake team => Sys2Proof.Machine.execTeamWake team s
  | .teamEnd team reason => Sys2Proof.Machine.execTeamEnd team reason s
  | .serviceDelivery wave lane => Sys2Proof.Machine.execServiceDelivery wave lane s
  | .svcLaunch wave lane => Sys2Proof.Machine.execSvcLaunch wave lane s
  | .svcAlloc wave lane => Sys2Proof.Machine.execSvcAlloc wave lane s
  | .svcConsole wave lane => Sys2Proof.Machine.execSvcConsole wave lane s
  | .objectQuery wave lane => Sys2Proof.Machine.execObjectQuery wave lane s
  | .objectEvict wave lane => Sys2Proof.Machine.execObjectEvict wave lane s
  | .objectPin wave lane => Sys2Proof.Machine.execObjectPin wave lane s
  | .objectUnpin wave lane => Sys2Proof.Machine.execObjectUnpin wave lane s
  | .objectRetire wave lane => Sys2Proof.Machine.execObjectRetire wave lane s
  | .objectMakeWritable wave lane => Sys2Proof.Machine.execObjectMakeWritable wave lane s
  | .privateGrowth wave lane granted => Sys2Proof.Machine.execPrivateGrowth wave lane granted s
  | .freeze tile image => Sys2Proof.Machine.execFreeze tile image s
  | .quiesce tile pmask => Sys2Proof.Machine.execQuiesce tile pmask s
  | .restore tile image => Sys2Proof.Machine.execRestore tile image s
  | .stop tile => Sys2Proof.Machine.execStop tile s
  | .start tile => Sys2Proof.Machine.execStart tile s
  | .discard tile image => Sys2Proof.Machine.execDiscard tile image s
  | .freezeDone tile => Sys2Proof.Machine.execFreezeDone tile s
  | .fzpcStop tile n => Sys2Proof.Machine.execFzpcStop tile n s
  | .sliceRetry wave lane => Sys2Proof.Machine.execSliceRetry wave lane s
  | .worldConfigWrite tile off value => Sys2Proof.Machine.execWorldConfigWrite tile off value s
  | .arrayZeroingDone tile => Sys2Proof.Machine.execArrayZeroingDone tile s
  | .registerWrite addr value => Sys2Proof.Machine.execRegisterWrite addr value s
  | .functionLevelReset port world => Sys2Proof.Machine.execFunctionLevelReset port world s
  | .launchFile port q path threads waves teams prio => Sys2Proof.Machine.execLaunchFile port q path threads waves teams prio s
  | .launchRecord port q record => Sys2Proof.Machine.execLaunchRecord port q record s
  | .takeConfig r => Sys2Proof.Machine.execTakeConfig r s
  | .giveConfig r => Sys2Proof.Machine.execGiveConfig r s
  | .create r world => Sys2Proof.Machine.execCreate r world s
  | .destroy r world => Sys2Proof.Machine.execDestroy r world s
  | .grant r world base length => Sys2Proof.Machine.execGrant r world base length s
  | .revoke r world base length => Sys2Proof.Machine.execRevoke r world base length s
  | .bind r world target => Sys2Proof.Machine.execBind r world target s
  | .thresholds r world mask doldrums cold high low => Sys2Proof.Machine.execThresholds r world mask doldrums cold high low s
  | .auth r world authority => Sys2Proof.Machine.execAuth r world authority s
  | .key r world index mode ciphertext wrapped => Sys2Proof.Machine.execKey r world index mode ciphertext wrapped s
  | .residencyQuery r ctx => Sys2Proof.Machine.execResidencyQuery r ctx s
  | .residencyReset r ctx => Sys2Proof.Machine.execResidencyReset r ctx s
  | .pin r ctx name offset length => Sys2Proof.Machine.execPin r ctx name offset length s
  | .evict r ctx name offset length => Sys2Proof.Machine.execEvict r ctx name offset length s
  | .attest port q nonce => Sys2Proof.Machine.execAttest port q nonce s
  | .queueNotify port fn m => Sys2Proof.Machine.execQueueNotify port fn m s
  | .fileCreate port fn id path tensors => Sys2Proof.Machine.execFileCreate port fn id path tensors s
  | .fileWrite r ctx obj offset bytes close => Sys2Proof.Machine.execFileWrite r ctx obj offset bytes close s
  | .fileUnlink r ctx obj => Sys2Proof.Machine.execFileUnlink r ctx obj s
  | .fuseSetupmapping r file offset length place => Sys2Proof.Machine.execFuseSetupmapping r file offset length place s
  | .fuseRemovemapping port fn id place length => Sys2Proof.Machine.execFuseRemovemapping port fn id place length s
  | .daxAccess port fn id place size bytes => Sys2Proof.Machine.execDaxAccess port fn id place size bytes s
  | .replyReceive p => Sys2Proof.Machine.execReplyReceive p s
  | .readPacket p => Sys2Proof.Machine.execReadPacket p s
  | .writePacket p => Sys2Proof.Machine.execWritePacket p s
  | .atomicPacket p => Sys2Proof.Machine.execAtomicPacket p s
  | .xaPacket p => Sys2Proof.Machine.execXaPacket p s
  | .rstfPacket p => Sys2Proof.Machine.execRstfPacket p s
  | .grantPacket p => Sys2Proof.Machine.execGrantPacket p s
  | .recallPacket p => Sys2Proof.Machine.execRecallPacket p s
  | .pagePacket p => Sys2Proof.Machine.execPagePacket p s
  | .teamPacket p => Sys2Proof.Machine.execTeamPacket p s
  | .advertPacket p => Sys2Proof.Machine.execAdvertPacket p s
  | .launchPacket p => Sys2Proof.Machine.execLaunchPacket p s
  | .commitPacket p => Sys2Proof.Machine.execCommitPacket p s
  | .abortPacket p => Sys2Proof.Machine.execAbortPacket p s
  | .launchAnswerTimeout launch package => Sys2Proof.Machine.execLaunchAnswerTimeout launch package s
  | .managerPacket p => Sys2Proof.Machine.execManagerPacket p s
  | .managerElection reachable => Sys2Proof.Machine.execManagerElection reachable s
  | .routeCompute tables => Sys2Proof.Machine.execRouteCompute tables s
  | .packetForward port p => Sys2Proof.Machine.execPacketForward port p s
  | .outputGrant port => Sys2Proof.Machine.execOutputGrant port s
  | .requestResend dst tier seq => Sys2Proof.Machine.execRequestResend dst tier seq s
  | .frameReceive port fr => Sys2Proof.Machine.execFrameReceive port fr s
  | .frameClose port => Sys2Proof.Machine.execFrameClose port s
  | .nakResend port aseq => Sys2Proof.Machine.execNakResend port aseq s
  | .softError array place bits => Sys2Proof.Machine.execSoftError array place bits s
  | .memoryReply wave lane => Sys2Proof.Machine.execMemoryReply wave lane s
  | .restoreDone tile => Sys2Proof.Machine.execRestoreDone tile s
  | .contextCreate world ctx places => Sys2Proof.Machine.execContextCreate world ctx places s
  | .contextDestroy ctx => Sys2Proof.Machine.execContextDestroy ctx s
  | .heartbeat => Sys2Proof.Machine.execHeartbeat s
  | .overtemperature => Sys2Proof.Machine.execOvertemperature s
  | .replicaChange => Sys2Proof.Machine.execReplicaChange s
  | .powerOn image signature goodTiles => Sys2Proof.Machine.execPowerOn image signature goodTiles s
  | .recoveryUpload port u goodTiles => Sys2Proof.Machine.execRecoveryUpload port u goodTiles s
  | .thermalThrottle die => Sys2Proof.Machine.execThermalThrottle die s
  | .d2dLinkTraining die answer => Sys2Proof.Machine.execD2dLinkTraining die answer s
  | .isrStatusRead port fn => Sys2Proof.Machine.execIsrStatusRead port fn s
  | .refusedRead tile => Sys2Proof.Machine.execRefusedRead tile s
  | .portLinkDown port => Sys2Proof.Machine.execPortLinkDown port s
  | .deviceFunctionReset port fn => Sys2Proof.Machine.execDeviceFunctionReset port fn s
  | .featuresOk port fn features => Sys2Proof.Machine.execFeaturesOk port fn features s
  | .linkTraining port versions other => Sys2Proof.Machine.execLinkTraining port versions other s
  | .linkDown port => Sys2Proof.Machine.execLinkDown port s
  | .linkHandshake port certificate kem signature => Sys2Proof.Machine.execLinkHandshake port certificate kem signature s
  | .linkRekey port peer => Sys2Proof.Machine.execLinkRekey port peer s
  | .retentionEntry tile => Sys2Proof.Machine.execRetentionEntry tile s

end Sys2Proof.Machine
end

