-- ==== Sys2Proof/Machine/Events.lean ====
section
/-! DEFINITION. What the package does of itself, without an outside choice: the first event whose condition holds, and, where none
does, the issue cycle of the partition whose turn it is. DESIGN CHOICE (log 25): the order in which events are tried. -/

namespace Sys2Proof.Machine

/-- Whether a wave is on a tile whose clock runs. -/
def State.awake (s : State) (w : Nat) : Bool := (s.wave w).resident && (s.tile (s.wave w).tile).clock == .running

/-- The waves that are awake. -/
def State.awakeWaves (s : State) : List Nat := (List.range s.waves.length).filter s.awake

/-- The lanes of a wave. -/
def Wave.lanes (wv : Wave) : List Nat := List.range wv.threads.length

/-- Events of a wave: a trap delivery (R164), the leaving of a `join`, of `waitp` and of `cbacq`, a promotion (R268). -/
def State.waveEvent (s : State) (w : Nat) : Option Instr :=
  let wv := s.wave w
  let due (e : TrapEntry) : Bool := e.lanes.any fun x => (wv.thread x.lane).wait == .trapped
  if wv.nextEntry.any due then some (.trapDelivery w)
  else if wv.lanes.any wv.mayLeave then some (.joinRelease w)
  else
    match wv.lanes.find? (s.waitpReady w), wv.lanes.find? (s.cbacqReady w) with
    | some l, _ => some (.waitpRelease w l)
    | none, some l => some (.cbacqRelease w l)
    | none, none => (wv.groups.find? fun h => decide (64 ≤ h.count) && !h.promoted).map fun h => .groupPromotion w h.pc

/-- A barrier whose phase completes (R221), or whose word is to be read at PKG0 (R348). -/
def State.barrierEvent (s : State) : Option Instr :=
  ((List.range s.barriers.length).find? fun b =>
    (!(s.barrier b).arrived.isEmpty || s.cameFrom (s.barrier b)) && (s.phaseReady b || s.pollDue b)).map .barrierPhaseComplete

/-- A delivery that the service kernel can answer (R170). -/
def State.serviceEvent (s : State) : Option Instr :=
  (s.deliveries.find? fun d => !s.proxied d.wave && s.inRing d && (s.service d State.systemService).isSome).map fun d => .serviceDelivery d.wave d.lane

/-- Whether the service kernel answers a record with XLATE: its page has no valid frame-map entry, or is served at a home that no route reaches
(R280, R282, R285). -/
def State.untranslated (s : State) (r : FaultRec) : Bool :=
  let e := s.frameOf (r.aux.toNat / 65536)
  (r.kind == .frame || r.kind == .write) && !s.isLocal r.aux.toNat &&
    (!e.v || (e.direct && (s.fabric.route e.hid.toNat).isNone))

/-- Such an answer. -/
def State.answerEvent (s : State) : Option Instr :=
  (List.range s.dies.length).findSome? fun d =>
    ((s.die d).faultq.find? s.untranslated).map fun r => .faultAnswer d r.seq .xlate none

/-- An event of an engine command of a tile (R201, R204, R210). -/
def State.cmdEvent (s : State) (tile : Nat) (c : Cmd) : Option Instr :=
  if s.claimable tile c then some (.cbSlotClaim tile c.id)
  else if s.acceptable tile c then some (.commandAccept tile c.id)
  else if c.state ≠ .accepted then none
  else if s.finishable tile c then some (.commandFinish tile c.id)
  else
    match s.verdict tile c with
    | .fail why => some (.commandFailure tile c.id 0 why)
    | _ => none

/-- An event of a tile: its engines, the end of a stream of the freeze unit, of zeroing, of retention. -/
def State.tileEvent (s : State) (tile : Nat) : Option Instr :=
  let t := s.tile tile
  let cmds := if t.clock = .running then t.cmds.findSome? (s.cmdEvent tile) else none
  cmds.orElse fun _ =>
    if t.busy && t.fzOp == 1 then some (.freezeDone tile)
    else if t.busy && t.fzOp == 3 && (s.image? t.fzImage.toNat (s.headerId t.fzImage.toNat)).isSome then some (.restoreDone tile)
    else if !t.zeroing.isEmpty || !t.zeroParts.isEmpty then some (.arrayZeroingDone tile)
    else if s.exitDue tile then some (.retentionExit tile)
    else none

/-- The partitions with waves on running tiles. -/
def State.busyParts (s : State) : List Nat := distinct (s.awakeWaves.map fun w => (s.wave w).tile * 6 + (s.wave w).part)

/-- An exchange of an active set (R266). -/
def State.exchangeEvent (s : State) : Option Instr :=
  (s.busyParts.find? fun k => (s.exchange (k / 6) (k % 6)).isSome).map fun k => .activeSetExchange (k / 6) (k % 6)

/-- An event of a launch (R258, R259, R261). -/
def State.launchEvent (s : State) (i : Nat) : Option Instr :=
  match s.launches[i]? with
  | none => none
  | some l =>
    if s.eligibilityDue i l then some (.launchEligibility i)
    else if l.eligible && l.live && s.shareEnded l then
      match s.raisePennant i l with
      | (_, some _) => some (.shareComplete i)
      | (s', none) => if l.firstError.isSome || s' != s then some (.shareComplete i) else none
    else if l.live && l.queue < 7 && decide (2 ^ 18 ≤ l.age) then some (.launchAging i)
    else none

/-- A dispatch round that places something (R261). -/
def State.roundEvent (s : State) : Option Instr :=
  (List.range 4).findSome? fun d =>
    if s.roundDue d then
      let g := s.roundFor d
      if g.isEmpty then none else some (.dispatchRound d g)
    else none

/-- A team that wakes (R273). -/
def State.wakeEvent (s : State) : Option Instr := ((List.range s.teams.length).find? s.wakes).map .teamWake

/-- Events of the memory system (R294). -/
def State.memoryEvent (s : State) : Option Instr :=
  match (List.range 12).find? fun k => decide (2 ^ 20 ≤ s.stackCount.getD k 0) with
  | some k => some (.counterHalving k)
  | none =>
    ((List.range 64).find? fun w => (s.world w).live && s.overHigh w && !(s.coldPages w).isEmpty).map .watermarkDeparture

/-- An advertisement of a die's free slots (R265). -/
def State.advertEvent (s : State) : Option Instr :=
  ((List.range 4).find? fun d => (s.die d).present && decide (4096 ≤ (s.die d).sinceAdvert)).map .freeSlotAdvert

/-- A host request whose pages have come. -/
def State.hostEvent (s : State) : Option Instr := s.pkg.waiting.find? s.hostDue

/-- A grant or a frame of a link: a frame closes when it is full, or when nothing more can be granted (R342). -/
def State.linkEvent (s : State) : Option Instr :=
  (List.range s.fabric.links.length).findSome? fun p =>
    let l := s.fabric.link p
    if l.state ≠ .keyed then none
    else if l.frameFull then some (.frameClose p)
    else if (l.pick (s.fabric.candidates p)).isSome then some (.outputGrant p)
    else if l.frameDue || (l.unacked.isEmpty && s.fabric.creditWait p) then some (.frameClose p)
    else none

/-- The first event whose condition holds. -/
def State.event (s : State) : Option Instr :=
  (s.awakeWaves.findSome? s.waveEvent).orElse fun _ =>
  s.barrierEvent.orElse fun _ =>
  s.serviceEvent.orElse fun _ =>
  s.answerEvent.orElse fun _ =>
  ((List.range s.tiles.length).findSome? s.tileEvent).orElse fun _ =>
  s.exchangeEvent.orElse fun _ =>
  ((List.range s.launches.length).findSome? s.launchEvent).orElse fun _ =>
  s.roundEvent.orElse fun _ =>
  s.wakeEvent.orElse fun _ =>
  s.becalmDue.orElse fun _ =>
  s.transferDue.orElse fun _ =>
  s.advertEvent.orElse fun _ =>
  s.electionDue.orElse fun _ =>
  s.routesDue.orElse fun _ =>
  s.memoryEvent.orElse fun _ =>
  s.hostEvent.orElse fun _ =>
  s.linkEvent

/-- The issue cycle of the partition whose turn it is, unless a comparator stops its tile first (R312). -/
def State.cycleOp (s : State) : Instr :=
  let tile := s.turn / 6
  let part := s.turn % 6
  match (List.range 4).find? fun n => (s.tile tile).clock == .running && s.matched tile part n with
  | some n => .fzpcStop tile n
  | none => .issueCycle tile part

/-- What happens next where no slot issues and nothing from outside is due. -/
def State.ownOp (s : State) : Instr := s.event.getD s.cycleOp

/-- The operation a step performs where no slot is left: the next on the agenda that the boot ROM does not hide, else the package's own. -/
def State.nextOp (s : State) : Instr × State :=
  match s.agenda.dropWhile s.hides with
  | i :: rest => (i, { s with agenda := rest })
  | [] => (s.ownOp, { s with agenda := [] })

/-! ## A single instruction placed for the next step -/

/-- A code line whose slot 0 is a word, with its check bits. -/
def lineFor (w : Nat) : Nat :=
  let body := w % 2 ^ 96
  body + ((List.range 6).foldl (fun acc k => acc ^^^ bitsOf body (16 * k) 16) 0) * 2 ^ 496

/-- The context number that withFetchWord uses. -/
def probeCtx : Nat := 2 ^ 32 - 1

/-- A record of the code object that holds the line at physical address 0. -/
def probeRec : ObjRec :=
  { obj := 1, kind := 2, base := 0x5000000000010000, extent := 64, state := .bound, run := 0, writable := false, requester := none }

/-- A launch of one wave of 32 threads in world 0. -/
def probeRecord : BitVec 2048 := BitVec.ofNat 2048 (probeCtx * 2 ^ (24 * 8 + 32) + 32 * 2 ^ (32 * 8) + 2 ^ (60 * 8) + 2 ^ (64 * 8 + 12))

/-- A kernel of width 32 with every register. -/
def probeHeader : Header :=
  { width := .w32, compat := false, vregs := 1024, sregs := 128, pregs := 16, scratch := 0, levels := 3, entry := 0 }

/-- Place one word as the instruction that the next step fetches and runs. -/
def State.placeWord (s : State) (w : Nat) : State :=
  let l : Launch :=
    { handle := 0, record := probeRecord, header := probeHeader, entry := probeRec.base, host := none, hostOp := 0, committed := true
      eligible := true, queue := 0, age := 0, teams := [s.teams.length], resident := true, arrivalBase := 0, firstError := none
      completion := none, answers := [], origin := none, shares := [], words := [], lost := [], lane := none, guests := []
      debugged := false, die := 0, tids := [] }
  let wv := newWave l s.teams.length 0 0 0 0
  let tm : Team := { Team.fresh s.launches.length 0 0 with state := .resident, waves := [s.waves.length], placed := true }
  let c : Ctx := { Ctx.fresh 0 probeCtx 0 0 with roots := [], recs := [probeRec] }
  { s with
    mem := Memory.write s.mem 0 (toBytes (lineFor w) 64)
    fetchLines := s.fetchLines.filter fun e => e.1 != 0
    worlds := modifyAt s.worlds 0 fun x => { x with grants := (0, 65536) :: x.grants }
    ctxs := c :: s.ctxs
    launches := s.launches ++ [l]
    teams := s.teams ++ [tm]
    waves := s.waves ++ [{ wv with resident := true, active := true }]
    slots := { wave := s.waves.length, pc := probeRec.base, lanes := List.range 32, snap := none, replay := none, caps := [], follow := false } :: s.slots }

end Sys2Proof.Machine
end

