-- ==== Sys2Proof/Machine/Step.lean ====
section
/-! DEFINITION. One step of the package. -/

namespace Sys2Proof.Machine

/-- One step: the first issue slot that is left is fetched, decoded and performed; where none is left, the next operation of the
agenda, an event whose condition holds, or an issue cycle. The registers that lie in the wave's backing store are restored for an
instruction; what an operation leaves is brought into the register files, whose want of room may stop the instruction (R15, R316, R317). A
step never stops. -/
def step (s : State) : Host.Outcome State Fault Refusal :=
  match s.slots with
  | sl :: _ =>
    match s.slotWord sl with
    | .word w =>
      match decode w with
      | .ok i =>
        match s.refile sl.wave with
        | .ok s1 => s1.afterSlot sl (exec i s1)
        | .bad => .next (s.spoilt sl)
        | .wait wt post => .next (s.detain sl wt post)
      | .error _ => .next (s.illegalWord sl w)
    | f => .next (s.fetchFails sl f)
  | [] => settleOut s.waves (exec s.nextOp.1 s.nextOp.2)

/-- The state with an instruction placed where the next step fetches and runs it. -/
def State.withFetchWord (s : State) (nbits w : Nat) : State := s.placeWord (w % 2 ^ nbits)

end Sys2Proof.Machine
end

