-- ==== Sys2Proof/Safety.lean ====
section
/-! DEFINITION. What a safe run keeps: the canonical form of everything the package holds in sparse lists of bytes. -/

namespace Sys2Proof.Machine

/-- The memory of the package and the bytes at the homes of pages that are not here are in canonical form. -/
def State.Inv (s : State) : Prop := Memory.wf s.mem ∧ Memory.wf s.home

end Sys2Proof.Machine
end

