-- ==== Sys2Proof/Safety/Issue.lean ====
section
/-! DEFINITION. The terms in which claims speak of an issued instruction: when it is issued and performs, what its destination shows
afterwards, and what it leaves as it is. -/

namespace Sys2Proof

/-- Whether an operand names a register of a file. -/
def Opnd.names (o : Opnd) (file : RegFile) (r : Nat) : Bool :=
  o.ranges.any fun x => x.file == file && decide (x.first ≤ r) && decide (r < x.first + x.count)

/-- Whether an operand is a scalar register or a pair of them. -/
def Opnd.scalar (o : Opnd) : Bool := o.kind == .s || o.kind == .sd

/-- Header fields of an unguarded vector instruction without lookahead or hold. -/
def Hd.plain : Hd := ⟨0, false, false, 0, 0⟩

end Sys2Proof

namespace Sys2Proof.Machine

/-- What reading an operand shows once a value has been written to it: the value cut to the register, and for a predicate its
lowest bit, except that `p0` always reads true (R19). -/
def shown (o : Opnd) (x : W128) : W128 :=
  match o.kind with
  | .v | .s => ext32 (lo32 x)
  | .d | .sd => ext64 (lo64 x)
  | .q => x
  | .p => if o.num = 0 ∨ x.getLsbD 0 then 1 else 0
  | .none | .lvl | .imm => 0

/-- The group that a slot issues for an instruction: its lanes, those whose guard is true, and their operands (R52). -/
def State.groupOf (s : State) (i : Instr) (sl : Slot) : Grp := s.group sl ((encode i).getD 0) i.shape

/-- What beside its word makes an instruction ILLEGAL: a type or a barrier level that does not fit its wave (R117, R147, R221), a name that
`perf` may not perform (R155). -/
def ownIllegal (i : Instr) (g : Grp) : Bool :=
  match i with
  | .join f | .ballot f => f.ty != widthTy g.src.width
  | .bar f | .bara f | .barw f => g.omitted f.d.toNat
  | .cpy f | .cpym f => f.barLevel != 0 && g.omitted f.barLevel
  | .perf f => f.rn && badName (perfName f g)
  | _ => false

/-- A lane has gone on at a record (R159): `t0` is its thread before, `kind` the token's kind, `issues` the issue cycle of its wave. -/
structure Resumed (t t0 : Thread) (r : Record) (kind : BitVec 2) (lane block issues : Nat) : Prop where
  pc : t.pc = r.pc
  wait : t.wait = .none
  frames : t.frames = r.frames.reverse ++ t0.frames
  preds : t.preds = r.preds ||| 1
  saved : ∀ k, k < r.regs.length → t.v k = (r.regs.getD k (.general 0)).value lane block
  others : ∀ k, r.regs.length ≤ k → t.v k = t0.v k
  redo : t.redo = if kind = 1 then (r.redo.filter (·.1)).map fun e => { e.2 with issued := issues } else []

/-- Where a transfer of control sends a lane (R144, R145). -/
def transferTo (i : Instr) (g : Grp) (l : Nat) : Option W64 :=
  match i with
  | .bra f | .call f => some (relPc g.pc f.disp)
  | .brx _ | .ret _ | .callx _ => some (lo64 (g.a l))
  | _ => none

/-- The lanes of a group that read a register struck by a soft error (R298), and the group without them. -/
def State.hit (s : State) (g : Grp) : List Nat := g.lanes.filter (s.struck g)
def State.sparedOf (s : State) (g : Grp) : Grp := { g with lanes := g.lanes.filter fun l => !(s.hit g).contains l }

/-- The head slot issues the instruction, and nothing keeps it from performing: the word is legal (R61), its registers keep the
budgets (R14), no accumulator it names belongs to an unfinished command (R201), and no register it reads was struck by a soft error
(R298). -/
structure Issues (i : Instr) (s : State) (sl : Slot) : Prop where
  slot : s.slots.head? = some sl
  legal : i.wf = true
  wave : sl.wave < s.waves.length
  lanes : ∀ l ∈ sl.lanes, l < (s.wave sl.wave).threads.length
  budget : (s.groupOf i sl).shape.ranges.all (s.groupOf i sl).src.inBudget = true
  settled : (s.groupOf i sl).src.pendingFor i = []
  sound : ∀ l ∈ (s.groupOf i sl).lanes, s.struck (s.groupOf i sl) l = false

/-- The state in which an issued instruction has its effect: the group's lanes have moved on (R48). -/
def State.issued (s : State) (g : Grp) : State := s.advance g

/-- The state after an instruction whose effect on that state is `f`. -/
def State.after (s : State) (g : Grp) (f : State → State) : State := (f (s.issued g)).finish g

/-- A state with the memory of another and what goes with its bytes: poison, dirty pages, fetch versions, access counters. -/
def State.withMemoryOf (t s : State) : State :=
  { t with mem := s.mem, poison := s.poison, dirty := s.dirty, fetchLines := s.fetchLines, counters := s.counters
           stackCount := s.stackCount }

/-- Every byte outside the pieces reads in `t` as in `s`. -/
def sameOutside (ps : List Piece) (s t : State) : Prop :=
  ∀ k, (∀ p ∈ ps, k < p.1 ∨ p.1 + p.2 ≤ k) → Memory.byte t.mem k = Memory.byte s.mem k

/-- The state after the parts of lanes performed one after another, where each is done. -/
def inTurn (f : State → Nat → State × LaneEnd) : List Nat → State → Option State
  | [], s => some s
  | l :: ls, s =>
    match f s l with
    | (s', .done) => inTurn f ls s'
    | _ => none

/-- A lane that waited goes on, or waits for the delivery of its trap entry where one is owed. -/
def goesOn (t : State) (w l : Nat) : Prop := (t.thread w l).wait = .none ∨ (t.thread w l).wait = .trapped

/-- What a group's instruction leaves as it is when it writes the destinations `ds` and joins `flags` to its wave's set: every
register but the destinations', every predicate, every other flag, every other wave, every other part of the package, memory
included. The group's lanes move to the next slot, or past the entry they replay; no other lane moves. A line that another node has sent
for the wave's fetch has served it. -/
structure Kept (g : Grp) (ds : List Opnd) (flags : BitVec 5) (s t : State) : Prop where
  rest : t = { s with slots := s.slots.tail, waves := t.waves, regPoison := t.regPoison }
  healed : ∀ e ∈ t.regPoison, e ∈ s.regPoison
  others : ∀ w, w ≠ g.w → t.wave w = s.wave w
  wave : t.wave g.w = { s.wave g.w with
    threads := (t.wave g.w).threads, sregs := (t.wave g.w).sregs, tags := (t.wave g.w).tags, fetched := none
    fpflags := (s.wave g.w).fpflags ||| flags, newFlags := (s.wave g.w).newFlags ||| flags }
  lanes : (t.wave g.w).threads.length = (s.wave g.w).threads.length
  thread : ∀ l, t.thread g.w l = { s.thread g.w l with
    pc := (t.thread g.w l).pc, preds := (t.thread g.w l).preds, vregs := (t.thread g.w l).vregs
    redo := (t.thread g.w l).redo, hold := (t.thread g.w l).hold }
  moved : g.replay = none → ∀ l, (t.thread g.w l).pc = (if l ∈ g.all then nextPc (s.thread g.w l).pc else (s.thread g.w l).pc) ∧
    (t.thread g.w l).redo = (s.thread g.w l).redo ∧ (t.thread g.w l).hold = (s.thread g.w l).hold
  replayed : g.replay ≠ none → ∀ l, (t.thread g.w l).pc = (s.thread g.w l).pc ∧
    (t.thread g.w l).redo = if l ∈ g.all then (s.thread g.w l).redo.tail else (s.thread g.w l).redo
  vregs : ∀ l r, ¬ (l ∈ g.lanes ∧ ds.any (fun o => o.names .vec r) = true) → (t.thread g.w l).v r = (s.thread g.w l).v r
  preds : ∀ l n, ¬ (l ∈ g.lanes ∧ ds.any (fun o => o.names .pred n) = true) → (t.thread g.w l).p n = (s.thread g.w l).p n
  sregs : ∀ r, ¬ (g.lanes ≠ [] ∧ ds.any (fun o => o.names .scal r) = true) → (t.wave g.w).sreg r = (s.wave g.w).sreg r

/-- The instruction completes wherever it is issued: D shows in every executing lane the value that `val` gives there (under a
scalar destination the one of the first executing lane, in every lane), the flags of `flags` join the wave's set, and all else is
kept. -/
def Gives (i : Instr) (val : State → Grp → Nat → W128) (flags : State → Grp → BitVec 5) : Prop :=
  ∀ s sl, Issues i s sl → ∃ t, exec i s = .next t ∧
    Kept (s.groupOf i sl) [i.shape.d] (flags s (s.groupOf i sl)) s t ∧
    ∀ l ∈ (s.groupOf i sl).lanes,
      (t.wave sl.wave).operand i.shape.d l =
        shown i.shape.d (val s (s.groupOf i sl) (if i.shape.d.scalar then (s.groupOf i sl).head else l))

/-- As `Gives`, for a value that depends on the lane's operands alone and raises no flag. -/
def Computes (i : Instr) (val : W128 → W128 → W128 → W128) : Prop :=
  Gives i (fun _ g l => val (g.a l) (g.b l) (g.c l)) fun _ _ => 0

/-- The flags that a group's instruction joins to its wave's set: those of every lane it performs for (R81). -/
def Grp.joined (g : Grp) (flags : Nat → BitVec 5) : BitVec 5 := g.actors.foldl (fun f l => f ||| flags l) 0

/-- As `Gives`, for a floating-point instruction: a value and the flags raised, in each lane, from the lane's operands. -/
def ComputesF (i : Instr) (val : W128 → W128 → W128 → W128 × BitVec 5) : Prop :=
  Gives i (fun _ g l => (val (g.a l) (g.b l) (g.c l)).1) fun _ g => g.joined fun l => (val (g.a l) (g.b l) (g.c l)).2

end Sys2Proof.Machine
end

