-- ==== Sys2Proof/Certificates/Slice0/Obligations.lean ====
section
/-! DEFINITION. What is claimed of the model: statements for the provers. -/

open Sys2Proof Sys2Proof.Machine

/-- The words that the spec writes out in its examples (and two built from R50, R55 and R68 for classes without an example), with the
instructions they stand for. -/
def Obligations.SpecWordsDecode : Prop :=
  ∀ p ∈ ([(0x000000000000000000000000, .nop),
      (0x004E04040140600140000000, .iadd ⟨⟨3, true, false, 0, 1⟩, 4, 5, 6, 0, .u32, .rne, false, false, false, false, 0⟩),
      (0x034000040140600940000000, .iaddc ⟨.plain, 4, 5, 6, 2, .u32, .rne, false, false, false, false, 0⟩),
      (0x194000090200000000C00000, .shlImm ⟨.plain, 9, 8, 3, .b32, .rne, false, false, 0⟩),
      (0x28000007008FF000002C0000, .faddImm ⟨.plain, 7, 2, 0x3FC00000, .f32, .rne, false, false, 0⟩),
      (0x4080000501807003A8160000, .cvt ⟨.plain, 5, 6, 7, 0, .gf8, .sr, false, false, false, false, 0xB⟩),
      (0x500000010080300000000000, .pand ⟨.plain, 1, 2, 3, 0, .b32, .rne, false, false, false, false, 0⟩),
      (0x600400000000001800000000, .bra ⟨⟨1, false, false, 0, 0⟩, 0, 6⟩),
      (0x700000000000000FFFFC0020, .hpush ⟨.plain, 0, 3, 0xFFFF0008⟩),
      (0x808000040780_0000000F4420, .ldp ⟨.plain, 4, 30, 0, 0, 0xF4, .b128, .none, .dev, .rlx⟩),
      (0x90000001040020001000850B, .atom ⟨.plain, 1, 16, 2, 0, 1, 8, .u32, .none, .team, .acqrel⟩),
      (0xA1C000000382600000080721, .waitp ⟨.plain, 0, 14, 38, 0, 128, .u64, .none, .dev, .acq⟩),
      (0xB100002001006028000003EF, .mmasp ⟨.plain, 32, 4, 6, 10, 0, 0x3EF⟩),
      (0xC180002803000000_00100C21, .exrnd ⟨.plain, 40, 12, 0, 0, 0, 256, .f64, .none, .dev, .acq⟩),
      (0xD04000000000000000000000, .halt ⟨.plain, 0, 0, 0, 0, .b32, .rne, false, false, false, false, 0⟩)] : List (IWord × Instr)),
    decode p.1 = .ok p.2

/-- R50, R55, R61, R73: decoding the word of a legal instruction gives it back, with every field at every value, and each word has one
meaning: what a word decodes to is legal and has that word. -/
def Obligations.DecodeAndEncodeAgree : Prop :=
  (∀ i w, i.wf = true → encode i = some w → decode w = .ok i) ∧
  (∀ i w, decode w = .ok i → i.wf = true ∧ encode i = some w)

/-- R52, R61, R73: a step whose head slot's word decodes performs that instruction, and that alone where its wave's registers find room in
their register file and no thread's frames are spilled; one whose word is no instruction traps ILLEGAL in every lane of the group, whatever its
guard; without a slot the next operation is performed: that of the agenda, passing over what the boot ROM hides (R378), else the package's
own. R15, R16, R316: registers that lie in the wave's backing store are restored for an instruction, which waits for a page of the store that is
away and ends the team with POISON where a save area does not restore; what is performed is followed by the settling of the waves' registers
in the register files. R43, R46, R146, R174: the word of a slot that replays nothing is the one its line holds in memory,
12 bytes each from byte 0 up, after the line's checks; a line whose check fails traps PARITY. R334: a line that another node has sent for
the wave serves its fetch. -/
def Obligations.StepRunsTheDecodedInstruction : Prop :=
  (∀ (s : State) sl w i, s.slots.head? = some sl → s.slotWord sl = .word w → decode w = .ok i →
    ((s.wave sl.wave).moved = [] → s.refile sl.wave = .ok s) ∧
    (∀ s1, s.refile sl.wave = .ok s1 → step s = s1.afterSlot sl (exec i s1) ∧
      ∀ t, exec i s1 = .next t → step s = .next (s1.settled sl t) ∧
        ((t.wave sl.wave).cost ≤ t.fileRoom sl.wave → (t.wave sl.wave).moved = [] →
          (∀ wv ∈ t.waves, ∀ th ∈ wv.threads, ∀ a ∈ th.areas, ∀ d, a.use ≠ .frame d) → step s = .next t)) ∧
    (s.refile sl.wave = .bad → step s = .next (s.spoilt sl)) ∧
    (∀ wt post, s.refile sl.wave = .wait wt post → step s = .next (s.detain sl wt post))) ∧
  (∀ (s : State) sl w e, s.slots.head? = some sl → s.slotWord sl = .word w → decode w = .error e →
    let all := (s.slotGroup sl w).all
    sl.wave < s.waves.length → all ≠ [] → sl.replay = none → (∀ l ∈ all, l < (s.wave sl.wave).threads.length) →
    ∃ t, step s = .next t ∧ t.mem = s.mem ∧ (∀ l ∈ all, (t.thread sl.wave l).wait = .trapped ∧ (t.thread sl.wave l).pc = sl.pc) ∧
      ∃ x ∈ (t.wave sl.wave).trapq, x.kind = .illegal ∧ x.pc = sl.pc ∧ ∀ l ∈ all, l ∈ x.lanes.map (·.lane)) ∧
  (∀ (s : State) i rest, s.slots = [] → s.agenda = i :: rest → s.hides i = false →
    step s = settleOut s.waves (exec i { s with agenda := rest })) ∧
  (∀ (s : State) i rest, s.slots = [] → s.agenda = i :: rest → s.hides i = true → step s = step { s with agenda := rest }) ∧
  (∀ (s : State), s.slots = [] → s.agenda = [] → step s = settleOut s.waves (exec (s.event.getD s.cycleOp) s)) ∧
  (∀ (s : State) sl line x, sl.replay = none → (s.wave sl.wave).fetched = some (line, x) → line.toNat = linePc sl.pc →
    s.slotWord sl = fetchedLine x.toNat sl.pc) ∧
  (∀ (s : State) sl c r ps pad, sl.replay = none → (s.wave sl.wave).fetched = none →
    let who := s.who sl.wave (sl.lanes.headD 0) 2
    let line := s.lineVersion (s.codePa who.ctx r (linePc sl.pc))
    s.access who (linePc sl.pc) 64 64 .fetch = .ok ps pad → s.ctx? who.ctx = some c → c.codeRec sl.pc = some r →
    (lineCheck line = false → s.slotWord sl = .trap .parity) ∧
    (lineCheck line = true → lineReserved line = true → s.slotWord sl = .trap .illegal) ∧
    (lineCheck line = true → lineReserved line = false → s.slotWord sl = .word (lineWord line (pcSlot sl.pc))))

/-- R61, R14, R201, R298, for every instruction that has a word, whatever registers it names: one that does not fit its wave traps ILLEGAL in
its whole group; one that names a register beyond its budget traps BUDGET there; one that names an accumulator of an unfinished command is
not issued; of one that is issued, the executing lanes that read a register struck by a soft error trap POISON, several of them by one entry,
and the instruction is performed for the others alone: written out for `iadd`, and where a guarded `ld` or `st` reads a struck register in
every executing lane, nothing is read or stored. -/
def Obligations.ChecksBeforeTheEffect : Prop :=
  ∀ (i : Instr) (s : State) sl, s.slots.head? = some sl → (encode i).isSome = true →
    let g := s.groupOf i sl
    (ownIllegal i g = true → exec i s = .next (((s.advance g).raiseAll g .illegal g.all).finish g)) ∧
    (ownIllegal i g = false → g.shape.ranges.all g.src.inBudget = false →
      exec i s = .next (((s.advance g).raiseAll g .budget g.all).finish g)) ∧
    (ownIllegal i g = false → g.shape.ranges.all g.src.inBudget = true → g.src.pendingFor i ≠ [] →
      (∀ c ∈ s.waveCmds g.w, c.state = .failed → c.id ∉ g.src.pendingFor i) → exec i s = .next { s with slots := s.slots.tail }) ∧
    (ownIllegal i g = false → g.shape.ranges.all g.src.inBudget = true → g.src.pendingFor i = [] → s.hit g ≠ [] →
      (∃ u : State, exec i s = .next ((u.raiseAll g .poison (s.hit g)).finish g)) ∧
      (∀ f, i = .iadd f → exec i s = .next ((((s.advance g).writeD (s.sparedOf g) (s.sparedOf g).lanes
        (fun l => narrow f.ty f.sat (tval f.ty (g.a l) + tval f.ty (g.b l))) g.tag).raiseAll g .poison (s.hit g)).finish g)) ∧
      ((∃ f, i = .ld f) ∨ (∃ f, i = .st f) → s.hit g = g.lanes →
        ∃ t, exec i s = .next t ∧ t.mem = s.mem ∧ (∀ w, w ≠ g.w → t.wave w = s.wave w) ∧
          ∀ l ∈ g.lanes, l < (s.wave g.w).threads.length → g.w < s.waves.length →
            (t.thread g.w l).wait = .trapped ∧ (t.thread g.w l).pc = g.pc ∧ (t.thread g.w l).vregs = (s.thread g.w l).vregs))

/-- R11, R18, R19: what is written to a register is read back and no other register changes; `p0` reads true and discards writes. -/
def Obligations.RegistersHoldWhatIsWritten : Prop :=
  (∀ (t : Thread) r x, (t.setV r x).v r = x ∧ ∀ k, k ≠ r → (t.setV r x).v k = t.v k) ∧
  (∀ (wv : Wave) r x, (wv.setS r x).sreg r = x ∧ ∀ k, k ≠ r → (wv.setS r x).sreg k = wv.sreg k) ∧
  (∀ (t : Thread) n b, n < 16 → n ≠ 0 → (t.setP n b).p n = b ∧ ∀ k, k ≠ n → (t.setP n b).p k = t.p k) ∧
  (∀ (t : Thread) b, (t.setP 0 b) = t ∧ t.p 0 = true)

/-- R12, R13: the tags of a vector register after a write: in a block that the write fills, the tag the instruction gives it (uniform
where its sources are uniform there), general in a block that it touches, and unchanged elsewhere. -/
def Obligations.ShapeTagsFollowWrites : Prop :=
  (∀ (wv : Wave) (o : Opnd) lanes val (tag : Nat → Tag) b k, o.kind = .v ∨ o.kind = .d ∨ o.kind = .q → k < o.kind.words →
    o.num.toNat + o.kind.words ≤ 1024 →
    (wv.put o lanes val tag).tag b (o.num.toNat + k) =
      if b ∈ wv.blocks ∧ wv.touches lanes b = true then (if wv.full lanes b = true then tag b else .general)
      else wv.tag b (o.num.toNat + k)) ∧
  (∀ (wv : Wave) (o : Opnd) lanes val (tag : Nat → Tag) b r, r < 1024 → o.num.toNat + o.kind.words ≤ 1024 → o.names .vec r = false →
    (wv.put o lanes val tag).tag b r = wv.tag b r) ∧
  (∀ (g : Grp) b, g.tag b = .uniform ↔ g.src.uniformOpnd g.shape.a b = true ∧ g.src.uniformOpnd g.shape.b b = true ∧
    g.src.uniformOpnd g.shape.c b = true)

/-- What reset leaves: world 0 alone exists, no context, wave, launch or image does, each world has the thresholds of R274 and R294, each
tile's clock runs with its freeze unit idle and every bank without an owner, each link is untrained with its credits, and nothing is
listed in memory. That no context, wave, launch or image exists is the model's choice (log 56), and that memory lists nothing is log 2. -/
def Obligations.ResetLeaves : Prop :=
  (State.reset.world 0).live = true ∧ (∀ w, w ≠ 0 → (State.reset.world w).live = false) ∧
  State.reset.ctxs = [] ∧ State.reset.waves = [] ∧ State.reset.launches = [] ∧ State.reset.images = [] ∧ State.reset.mem = [] ∧
  (∀ w, (State.reset.world w).doldrums = 45000 ∧ (State.reset.world w).cold = 4 ∧ (State.reset.world w).high = 95 ∧
    (State.reset.world w).low = 90) ∧
  (∀ t, (State.reset.tile t).clock = .running ∧ (State.reset.tile t).busy = false ∧ (State.reset.tile t).status = 0 ∧
    (State.reset.tile t).cycle = 0 ∧ ∀ b, b < 32 → (State.reset.tile t).bankWorld b = none) ∧
  (∀ p, (State.reset.fabric.link p).state = .down ∧ (State.reset.fabric.link p).credits = List.replicate 18 32)

/-- A step never stops: every operation answers a next state from every state (R34, R39: what goes wrong is a trap, and traps are taken).
-/
def Obligations.StepsNeverStop : Prop :=
  (∀ i s, ∃ t, exec i s = .next t) ∧ ∀ s, ∃ t, step s = .next t

/-- Every step keeps the canonical form of memory and of the bytes at the homes of pages. -/
def Obligations.StepsKeepTheInvariant : Prop :=
  ∀ s t : State, s.Inv → step s = .next t → t.Inv

/-- The invariant holds after reset. -/
def Obligations.ResetMeetsTheInvariant : Prop :=
  State.reset.Inv

/-- R104: the results of integer arithmetic, in every executing lane; under `.sat` the clamp of R105. R106: quotient and remainder, with
the values it gives for a zero divisor and for the one quotient outside the type. -/
def Obligations.IntegerArithmeticResults : Prop :=
  (∀ f, Computes (.iadd f) fun a b _ => narrow f.ty f.sat (tval f.ty a + tval f.ty b)) ∧
  (∀ f, Computes (.iaddImm f) fun a _ _ => narrow f.ty f.sat (tval f.ty a + tval f.ty (immOf f.ty f.imm))) ∧
  (∀ f, Computes (.isub f) fun a b _ => narrow f.ty f.sat (tval f.ty a - tval f.ty b)) ∧
  (∀ f, Computes (.isubImm f) fun a _ _ => narrow f.ty f.sat (tval f.ty a - tval f.ty (immOf f.ty f.imm))) ∧
  (∀ f, Computes (.imul f) fun a b _ => narrow f.ty f.sat (tval f.ty a * tval f.ty b)) ∧
  (∀ f, Computes (.imulImm f) fun a _ _ => narrow f.ty f.sat (tval f.ty a * tval f.ty (immOf f.ty f.imm))) ∧
  (∀ f, Computes (.imad f) fun a b c => narrow f.ty f.sat (tval f.ty a * tval f.ty b + tval f.ty c)) ∧
  (∀ f, Computes (.imulhi f) fun a b _ => narrow f.ty f.sat (tval f.ty a * tval f.ty b / 2 ^ f.ty.bits)) ∧
  (∀ f, Computes (.imin f) fun a b _ => narrow f.ty f.sat (min (tval f.ty a) (tval f.ty b))) ∧
  (∀ f, Computes (.iminImm f) fun a _ _ => narrow f.ty f.sat (min (tval f.ty a) (tval f.ty (immOf f.ty f.imm)))) ∧
  (∀ f, Computes (.imax f) fun a b _ => narrow f.ty f.sat (max (tval f.ty a) (tval f.ty b))) ∧
  (∀ f, Computes (.imaxImm f) fun a _ _ => narrow f.ty f.sat (max (tval f.ty a) (tval f.ty (immOf f.ty f.imm)))) ∧
  (∀ f, Computes (.iabs f) fun a _ _ => narrow f.ty f.sat |tval f.ty a|) ∧
  (∀ f, Computes (.ineg f) fun a _ _ => narrow f.ty f.sat (-tval f.ty a)) ∧
  (∀ f, Computes (.iadd3 f) fun a b c => narrow f.ty f.sat (tval f.ty a + tval f.ty b + tval f.ty c)) ∧
  (∀ f, Computes (.idiv f) fun a b _ => narrow f.ty f.sat (
    if tval f.ty b = 0 then (if f.ty.signed then -1 else 2 ^ f.ty.bits - 1)
    else if f.ty.signed ∧ tval f.ty a = tmin f.ty ∧ tval f.ty b = -1 then tval f.ty a
    else (tval f.ty a).tdiv (tval f.ty b))) ∧
  (∀ f, Computes (.irem f) fun a b _ => narrow f.ty f.sat (
    if tval f.ty b = 0 then tval f.ty a
    else if f.ty.signed ∧ tval f.ty a = tmin f.ty ∧ tval f.ty b = -1 then 0
    else (tval f.ty a).tmod (tval f.ty b)))

/-- R108 to R110: `lea`, the comparisons into a predicate, and the selection by one. R113 and R114: bit fields, counts and reversal. -/
def Obligations.SelectFieldAndCountResults : Prop :=
  (∀ f, Computes (.lea f) fun a b c =>
    ofInt (tval f.ty a + (if f.ty = .s64 then lowInt b 32 else (lowNat b 32 : Int)) * 2 ^ (lowNat c 32 % f.ty.bits)) f.ty.bits) ∧
  (∀ f, Computes (.icmp f) fun a b _ => bit (intCond f.sub (tval f.ty a) (tval f.ty b))) ∧
  (∀ f, Computes (.icmpImm f) fun a _ _ =>
    bit (intCond (f.imod.extractLsb' 0 4) (tval f.ty a) (tval f.ty (immOf f.ty f.imm)))) ∧
  (∀ f, Computes (.isel f) fun a b c => if c.getLsbD 0 then a else b) ∧
  (∀ f, Computes (.bfe f) fun a b _ => fieldGet f.ty a b) ∧
  (∀ f, Computes (.bfi f) fun a b c => fieldPut f.ty.bits a b c) ∧
  (∀ f, Computes (.popc f) fun a _ _ => ofNat (((List.range f.ty.bits).filter fun i => a.getLsbD i).length) 32) ∧
  (∀ f, Computes (.clz f) fun a _ _ =>
    ofNat (if lowNat a f.ty.bits = 0 then f.ty.bits else f.ty.bits - 1 - Nat.log2 (lowNat a f.ty.bits)) 32) ∧
  (∀ f, Computes (.brev f) fun a _ _ => ofNat (reverseBits a.toNat f.ty.bits) f.ty.bits)

/-- R111 and R112: bitwise results, and shifts by any unsigned 32-bit amount, however large. -/
def Obligations.BitwiseAndShiftResults : Prop :=
  (∀ f, Computes (.and f) fun a b _ => a &&& b) ∧
  (∀ f, Computes (.andImm f) fun a _ _ => a &&& immOf f.ty f.imm) ∧
  (∀ f, Computes (.or f) fun a b _ => a ||| b) ∧
  (∀ f, Computes (.orImm f) fun a _ _ => a ||| immOf f.ty f.imm) ∧
  (∀ f, Computes (.xor f) fun a b _ => a ^^^ b) ∧
  (∀ f, Computes (.xorImm f) fun a _ _ => a ^^^ immOf f.ty f.imm) ∧
  (∀ f, Computes (.not f) fun a _ _ => ~~~a) ∧
  (∀ f, Computes (.lop3 f) fun a b c =>
    ext32 (BitVec.ofFnLE (n := 32) fun i =>
      f.table.getLsbD (4 * (a.getLsbD i.val).toNat + 2 * (b.getLsbD i.val).toNat + (c.getLsbD i.val).toNat))) ∧
  (∀ f, Computes (.shl f) fun a b _ => ofNat (lowNat a f.ty.bits * 2 ^ lowNat b 32) f.ty.bits) ∧
  (∀ f, Computes (.shlImm f) fun a _ _ => ofNat (lowNat a f.ty.bits * 2 ^ f.imm.toNat) f.ty.bits) ∧
  (∀ f, Computes (.shr f) fun a b _ => ofNat (lowNat a f.ty.bits / 2 ^ lowNat b 32) f.ty.bits) ∧
  (∀ f, Computes (.shrImm f) fun a _ _ => ofNat (lowNat a f.ty.bits / 2 ^ f.imm.toNat) f.ty.bits) ∧
  (∀ f, Computes (.sar f) fun a b _ => ofInt (lowInt a f.ty.bits / 2 ^ lowNat b 32) f.ty.bits) ∧
  (∀ f, Computes (.sarImm f) fun a _ _ => ofInt (lowInt a f.ty.bits / 2 ^ f.imm.toNat) f.ty.bits) ∧
  (∀ f, Computes (.rot f) fun a b _ =>
    ofNat (lowNat a f.ty.bits * 2 ^ (lowNat b 32 % f.ty.bits) + lowNat a f.ty.bits / 2 ^ (f.ty.bits - lowNat b 32 % f.ty.bits))
      f.ty.bits) ∧
  (∀ f, Computes (.rotImm f) fun a _ _ =>
    ofNat (lowNat a f.ty.bits * 2 ^ (f.imm.toNat % f.ty.bits) + lowNat a f.ty.bits / 2 ^ (f.ty.bits - f.imm.toNat % f.ty.bits))
      f.ty.bits)

/-- R128 to R134: the results and flags of floating-point arithmetic, element by element, each with one rounding of the exact value. R133,
R134, R138 to R140: comparisons, classes and conversions. -/
def Obligations.FloatArithmeticResults : Prop :=
  (∀ f, ComputesF (.fadd f) fun a b _ => perElem f.ty fun h =>
    fltAdd f.ty f.rnd (fdecode f.ty (elem f.ty a h)) (fdecode f.ty (elem f.ty b h))) ∧
  (∀ f, ComputesF (.faddImm f) fun a _ _ => perElem f.ty fun h =>
    fltAdd f.ty f.rnd (fdecode f.ty (elem f.ty a h)) (fdecode f.ty (elem f.ty (fimmOf f.ty f.imm) h))) ∧
  (∀ f, ComputesF (.fsub f) fun a b _ => perElem f.ty fun h =>
    fltAdd f.ty f.rnd (fdecode f.ty (elem f.ty a h)) (fdecode f.ty (elem f.ty b h)).negate) ∧
  (∀ f, ComputesF (.fsubImm f) fun a _ _ => perElem f.ty fun h =>
    fltAdd f.ty f.rnd (fdecode f.ty (elem f.ty a h)) (fdecode f.ty (elem f.ty (fimmOf f.ty f.imm) h)).negate) ∧
  (∀ f, ComputesF (.fmul f) fun a b _ => perElem f.ty fun h =>
    fltMul f.ty f.rnd (fdecode f.ty (elem f.ty a h)) (fdecode f.ty (elem f.ty b h))) ∧
  (∀ f, ComputesF (.fmulImm f) fun a _ _ => perElem f.ty fun h =>
    fltMul f.ty f.rnd (fdecode f.ty (elem f.ty a h)) (fdecode f.ty (elem f.ty (fimmOf f.ty f.imm) h))) ∧
  (∀ f, ComputesF (.ffma f) fun a b c => perElem f.ty fun h =>
    fltFma f.ty f.rnd (fdecode f.ty (elem f.ty a h)) (fdecode f.ty (elem f.ty b h)) (fdecode f.ty (elem f.ty c h))) ∧
  (∀ f, ComputesF (.fmin f) fun a b _ => perElem f.ty fun h => bitsMinMax f.ty false (elem f.ty a h) (elem f.ty b h)) ∧
  (∀ f, ComputesF (.fminImm f) fun a _ _ => perElem f.ty fun h =>
    bitsMinMax f.ty false (elem f.ty a h) (elem f.ty (fimmOf f.ty f.imm) h)) ∧
  (∀ f, ComputesF (.fmax f) fun a b _ => perElem f.ty fun h => bitsMinMax f.ty true (elem f.ty a h) (elem f.ty b h)) ∧
  (∀ f, ComputesF (.fmaxImm f) fun a _ _ => perElem f.ty fun h =>
    bitsMinMax f.ty true (elem f.ty a h) (elem f.ty (fimmOf f.ty f.imm) h)) ∧
  (∀ f, ComputesF (.fabs f) fun a _ _ => perElem f.ty fun h =>
    if (fdecode f.ty (elem f.ty a h)).isNan then (nanBits f.ty, 0) else (elem f.ty a h % 2 ^ (elemBits f.ty - 1), 0)) ∧
  (∀ f, ComputesF (.fneg f) fun a _ _ => perElem f.ty fun h =>
    if (fdecode f.ty (elem f.ty a h)).isNan then (nanBits f.ty, 0) else (elem f.ty a h ^^^ 2 ^ (elemBits f.ty - 1), 0)) ∧
  (∀ f, ComputesF (.fscale f) fun a b _ => perElem f.ty fun h => bitsScale f.ty f.rnd (elem f.ty a h) (lowInt b 32)) ∧
  (∀ f, ComputesF (.frnd f) fun a _ _ => perElem f.ty fun h => bitsIntegral f.ty f.rnd (elem f.ty a h)) ∧
  (∀ f, ComputesF (.fcmp f) fun a b _ =>
    let r := fltCond f.sub (fdecode f.ty (elem f.ty a 0)) (fdecode f.ty (elem f.ty b 0))
    (bit r.1, r.2)) ∧
  (∀ f, ComputesF (.fcmpImm f) fun a _ _ =>
    let r := fltCond (f.imod.extractLsb' 0 4) (fdecode f.ty (elem f.ty a 0)) (fdecode f.ty (elem f.ty (fimmOf f.ty f.imm) 0))
    (bit r.1, r.2)) ∧
  (∀ f, Computes (.fclass f) fun a _ _ => 1#128 <<< classOf f.ty (elem f.ty a 0)) ∧
  (∀ f, ComputesF (.cvt f) fun a b _ => convert f a b)

/-- R135 to R137: division, square root and the six functions. Where R137 only bounds a result, it is the pattern that an uninterpreted
constant proposes if R137 admits that pattern, else the rounded value (log 1, a choice of the model). -/
def Obligations.FloatFunctionResults : Prop :=
  (∀ f, ComputesF (.fdiv f) fun a b _ => perElem f.ty fun h =>
    fltDiv f.ty f.rnd (fdecode f.ty (elem f.ty a h)) (fdecode f.ty (elem f.ty b h))) ∧
  (∀ f, ComputesF (.fsqrt f) fun a _ _ => perElem f.ty fun h => fltSqrt f.ty f.rnd (fdecode f.ty (elem f.ty a h))) ∧
  (∀ f, ComputesF (.frcp f) fun a _ _ => perElem f.ty fun h => sfuRcp f.ty (elem f.ty a h)) ∧
  (∀ f, ComputesF (.frsq f) fun a _ _ => perElem f.ty fun h => sfuRsq f.ty (elem f.ty a h)) ∧
  (∀ f, ComputesF (.fex2 f) fun a _ _ => perElem f.ty fun h => sfuEx2 f.ty (elem f.ty a h)) ∧
  (∀ f, ComputesF (.flg2 f) fun a _ _ => perElem f.ty fun h => sfuLg2 f.ty (elem f.ty a h)) ∧
  (∀ f, ComputesF (.fsin f) fun a _ _ => perElem f.ty fun h => sfuTrig false f.ty (elem f.ty a h)) ∧
  (∀ f, ComputesF (.fcos f) fun a _ _ => perElem f.ty fun h => sfuTrig true f.ty (elem f.ty a h))

/-- R115, R117 to R119, R121, R124: moves, lane operations and predicates. -/
def Obligations.MoveAndLaneResults : Prop :=
  (∀ f, Computes (.mov f) fun a _ _ => a) ∧
  (∀ f, Computes (.movi f) fun _ _ _ => immOf f.ty f.imm) ∧
  (∀ f, Gives (.shuf f) (fun _ g l => g.aOf l (shufSource g.src l (lowNat (g.b l) 32))) fun _ _ => 0) ∧
  (∀ f, Gives (.bcast f) (fun _ g l => g.aOf l (lowNat (g.b g.head) 32 % g.src.width.lanes)) fun _ _ => 0) ∧
  (∀ f, Gives (.vote f) (fun _ g _ => bit (g.lanes.any fun l => (g.a l).getLsbD 0)) fun _ _ => 0) ∧
  (∀ f, Gives (.shp f) (fun _ g l => BitVec.ofNat 128 (g.src.tag (l / g.src.width.block) f.a.toNat).code) fun _ _ => 0) ∧
  (∀ f, Computes (.pand f) fun a b _ => a &&& b) ∧
  (∀ f, Computes (.por f) fun a b _ => a ||| b) ∧
  (∀ f, Computes (.pxor f) fun a b _ => a ^^^ b) ∧
  (∀ f, Computes (.pnot f) fun a _ _ => ~~~a) ∧
  (∀ f, Computes (.pmov f) fun a _ _ => a)

/-- R179: `ld` gives the access size at the lane's address, zero-extended, and writes no memory. -/
def Obligations.LoadReadsItsAddress : Prop :=
  ∀ (f : MForm) s sl l ps pad, Issues (.ld f) s sl →
    let g := s.groupOf (.ld f) sl
    let s1 := s.issued g
    g.actors = [l] → s1.reach (s1.whoFor g l 0 f.scope) (g.addr f.off.toInt l) f.wt.bytes f.wt.bytes .read = .ok ps pad →
    ∃ t, exec (.ld f) s = .next t ∧ t.mem = s.mem ∧ Kept g [(Instr.ld f).shape.d] 0 s (t.withMemoryOf s) ∧
      ∀ k ∈ g.lanes, (t.wave g.w).operand (Instr.ld f).shape.d k =
        shown (Instr.ld f).shape.d (BitVec.ofNat 128 (ofBytes (s1.load ps pad)))

/-- R178, R183, R184, R181: the loads that give something else than the bytes at an address: a name slot swizzled, the name of a pointer,
two pointers compared, a tensor's element, with its scale above it where the tensor has block scales; a lane that has waited goes on with the
entry it sampled, of the side that then holds. R183, R229: the other stores: a
pointer unswizzled into a name slot, and a line zeroed by `cctl`, whose other operations change nothing that a program can observe. -/
def Obligations.NamesTensorElementsAndLines : Prop :=
  (∀ (f : MForm) s sl l ps pad p, Issues (.ldp f) s sl →
    let g := s.groupOf (.ldp f) sl
    let s1 := s.issued g
    g.actors = [l] → g.replay.bind (·.slot) = none →
    s1.reach (s1.whoFor g l 0 f.scope) (g.addr f.off.toInt l) 16 16 .read = .ok ps pad →
    (s1.count ps).swizzle ((s1.count ps).who g.w l 0) (BitVec.ofNat 128 (ofBytes (s1.load ps pad))) = .ok p →
    exec (.ldp f) s = .next (s.after g fun s => (s.count ps).give g l p.toNat)) ∧
  (∀ (f : MForm) s sl l x p, Issues (.ldp f) s sl →
    let g := s.groupOf (.ldp f) sl
    let s1 := s.issued g
    g.actors = [l] → g.replay.bind (·.slot) = some x → s1.swizzle (s1.who g.w l 0) x = .ok p →
    exec (.ldp f) s = .next (s.after g fun s => s.give g l p.toNat)) ∧
  (∀ (f : VForm) s sl l n, Issues (.nameof f) s sl →
    let g := s.groupOf (.nameof f) sl
    g.actors = [l] → (s.issued g).unswizzle g.src.ctx (lo64 (g.a l)) = some n →
    exec (.nameof f) s = .next (s.after g fun s => s.give g l n.toNat)) ∧
  (∀ f, Computes (.ptreq f) fun a b _ => if a = b then 1 else 0) ∧
  (∀ (f : MForm) s sl l e ps pad, Issues (.ldt f) s sl →
    let g := s.groupOf (.ldt f) sl
    let s1 := s.issued g
    let off := f.wt.bytes * tElement e (g.indices l)
    let tid := (lo64 (g.a l)).toNat
    let plain (o : Nat) (bs : List Byte) : List Byte := s1.unpad (if tSealed e then some (tid, e, o) else none) bs
    g.actors = [l] →
    (g.replay.bind (·.entry) = none ∧ s1.ldtEntry (s1.who g.w l 0) (lo64 (g.a l)) f.wt.bytes (g.indices l) = .ok e ∨
      ∃ e0, g.replay.bind (·.entry) = some e0 ∧ e = s1.atRead (s1.who g.w l 0) tid e0) →
    s1.tensorAccess (s1.whoFor g l 0 f.scope) tid e off f.wt.bytes .read = .ok ps pad →
    (tBlk e ≠ 1 →
      exec (.ldt f) s = .next (s.after g fun s => (s.count ps).give g l (ofBytes (plain off (Memory.readPieces s.mem ps))))) ∧
    (∀ ps' pad', tBlk e = 1 →
      (s1.count ps).tensorAccess ((s1.count ps).whoFor g l 0 f.scope) tid e (tScale e (g.indices l)) 1 .read = .ok ps' pad' →
      exec (.ldt f) s = .next (s.after g fun s => ((s.count ps).count ps').give g l
        (ofBytes ((plain off (Memory.readPieces s.mem ps)).take 1 ++
          plain (tScale e (g.indices l)) (Memory.readPieces (s.count ps).mem ps')))))) ∧
  (∀ (f : MForm) s sl l ps pad n, Issues (.stp f) s sl →
    let g := s.groupOf (.stp f) sl
    let s1 := s.issued g
    g.actors = [l] → s1.reach (s1.whoFor g l 1 f.scope) (g.addr f.off.toInt l) 16 16 .write = .ok ps pad →
    s1.unswizzle g.src.ctx (lo64 (g.b l)) = some n →
    ∃ t, exec (.stp f) s = .next t ∧ t.mem = Memory.writePieces s.mem ps (toBytes n.toNat 16) ∧ sameOutside ps s t ∧
      Kept g [] 0 s (t.withMemoryOf s)) ∧
  (∀ (f : MopForm) s sl, Issues (.cctl f) s sl → f.opc ≠ 3 →
    ∃ t, exec (.cctl f) s = .next t ∧ Kept (s.groupOf (.cctl f) sl) [] 0 s t) ∧
  (∀ (f : MopForm) s sl l ps pad, Issues (.cctl f) s sl → f.opc = 3 →
    let g := s.groupOf (.cctl f) sl
    let s1 := s.issued g
    g.actors = [l] → s1.reach (s1.whoFor g l 1 f.scope) (g.addr f.off.toInt l) 64 64 .write = .ok ps pad →
    ∃ t, exec (.cctl f) s = .next t ∧ t.mem = Memory.writePieces s.mem ps (List.replicate 64 0) ∧ sameOutside ps s t ∧
      Kept g [] 0 s (t.withMemoryOf s))

/-- R12, R179: what the result of a lane's load does: the lane's destination shows it, and only that lane's registers change. R191, R298,
R321: what a store does: its bytes over its pieces in order, no other byte, and beside the memory only what goes with its bytes. -/
def Obligations.LaneEffectsTouchNothingElse : Prop :=
  (∀ (s : State) (g : Grp) l x, g.w < s.waves.length → l < (s.wave g.w).threads.length → g.shape.d.legal = true →
    ((s.give g l x).wave g.w).operand g.shape.d l = shown g.shape.d (BitVec.ofNat 128 x) ∧
    s.give g l x = { s with waves := (s.give g l x).waves, regPoison := (s.give g l x).regPoison } ∧
    (∀ e ∈ (s.give g l x).regPoison, e ∈ s.regPoison) ∧ (∀ e ∈ s.regPoison, e.1 ≠ g.w ∨ e.2.1 ≠ l → e ∈ (s.give g l x).regPoison) ∧
    (∀ w, w ≠ g.w → (s.give g l x).wave w = s.wave w) ∧
    (∀ k, k ≠ l → (s.give g l x).thread g.w k = s.thread g.w k) ∧
    (∀ r, g.shape.d.names .vec r = false → ((s.give g l x).thread g.w l).v r = (s.thread g.w l).v r)) ∧
  (∀ (s : State) ps bs,
    (s.store ps bs).mem = Memory.writePieces s.mem ps bs ∧ sameOutside ps s (s.store ps bs) ∧
    (s.store ps bs) = { s with mem := (s.store ps bs).mem, poison := (s.store ps bs).poison, dirty := (s.store ps bs).dirty
                               fetchLines := (s.store ps bs).fetchLines })

/-- R179: `st` writes the low bytes of B at its address and no other byte; no register changes. -/
def Obligations.StoreWritesItsBytes : Prop :=
  ∀ (f : MForm) s sl l ps pad, Issues (.st f) s sl →
    let g := s.groupOf (.st f) sl
    let s1 := s.issued g
    g.actors = [l] →
    s1.reach (s1.whoFor g l 1 f.scope) (g.addr f.off.toInt l) (toBytes (g.b l).toNat f.wt.bytes).length f.wt.bytes .write = .ok ps pad →
    ∃ t, exec (.st f) s = .next t ∧ t.mem = Memory.writePieces s.mem ps (toBytes (g.b l).toNat f.wt.bytes) ∧
      sameOutside ps s t ∧ Kept g [] 0 s (t.withMemoryOf s)

/-- R187: what each operation of `atom` and `red` makes of the old value and B, in every type it takes: integers wrap, floating-point results
are those of `fadd`, `fmin` and `fmax` under `.rne`; with any other type or operation the word is illegal. R187 to R189: an atomic step reads the old bytes and
writes the operation's result over them in one step; `atom` and `atomc` give the old value, `atomc` writes only where the old value is B.
-/
def Obligations.AtomicStepResults : Prop :=
  (∀ (a b : W128),
    (∀ t ∈ atomTypes 0, atomResult 0 t a b = b) ∧
    (∀ t ∈ atomTypes 4, atomResult 4 t a b = a &&& b ∧ atomResult 5 t a b = a ||| b ∧ atomResult 6 t a b = a ^^^ b) ∧
    (∀ t ∈ atomTypes 1, t.isInt = true → atomResult 1 t a b = ofInt (tval t a + tval t b) t.bits) ∧
    (∀ t ∈ atomTypes 2, t.isInt = true → atomResult 2 t a b = ofInt (min (tval t a) (tval t b)) t.bits ∧
      atomResult 3 t a b = ofInt (max (tval t a) (tval t b)) t.bits) ∧
    (∀ t ∈ atomTypes 1, t.isFloat = true → atomResult 1 t a b =
      BitVec.ofNat 128 (fltAdd t .rne (fdecode t (lowNat a t.bits)) (fdecode t (lowNat b t.bits))).1) ∧
    (∀ t ∈ atomTypes 2, t.isFloat = true →
      atomResult 2 t a b = BitVec.ofNat 128 (bitsMinMax t false (lowNat a t.bits) (lowNat b t.bits)).1 ∧
      atomResult 3 t a b = BitVec.ofNat 128 (bitsMinMax t true (lowNat a t.bits) (lowNat b t.bits)).1) ∧
    atomResult 1 .f16x2 a b = (perElem .f16x2 fun h =>
      fltAdd .f16 .rne (fdecode .f16 (elem .f16x2 a h)) (fdecode .f16 (elem .f16x2 b h))).1 ∧
    (lowNat b 32 ≤ lowNat a 32 → atomResult 7 .u32 a b = 0) ∧
    (lowNat a 32 < lowNat b 32 → atomResult 7 .u32 a b = ofNat (lowNat a 32 + 1) 32) ∧
    (lowNat a 32 = 0 ∨ lowNat b 32 < lowNat a 32 → atomResult 8 .u32 a b = b) ∧
    (lowNat a 32 ≠ 0 → lowNat a 32 ≤ lowNat b 32 → atomResult 8 .u32 a b = ofNat (lowNat a 32 - 1) 32)) ∧
  (∀ opc (t : Ty), t ∈ atomTypes opc → t.isInt = true ∨ t.isFloat = true ∨ t = .f16x2 ∨ t = .b32 ∨ t = .b64) ∧
  (∀ f : MopForm, f.wt ∉ atomTypes f.opc.toNat → (Instr.atom f).wf = false ∧ (Instr.red f).wf = false) ∧
  (∀ (f : MopForm) s sl l ps pad, Issues (.atom f) s sl →
    let g := s.groupOf (.atom f) sl
    let s1 := s.issued g
    g.actors = [l] → s1.reach (s1.whoFor g l 3 f.scope) (g.addr f.off.toInt l) f.wt.bytes f.wt.bytes .rmw = .ok ps pad →
    ∃ t, exec (.atom f) s = .next t ∧
      t.mem = Memory.writePieces s.mem ps (atomBytes f.opc.toNat f.wt (g.b l) (s1.load ps pad)) ∧ sameOutside ps s t ∧
      Kept g [(Instr.atom f).shape.d] 0 s (t.withMemoryOf s) ∧
      ∀ k ∈ g.lanes, (t.wave g.w).operand (Instr.atom f).shape.d k =
        shown (Instr.atom f).shape.d (BitVec.ofNat 128 (ofBytes (s1.load ps pad)))) ∧
  (∀ (f : MopForm) s sl l ps pad, Issues (.red f) s sl →
    let g := s.groupOf (.red f) sl
    let s1 := s.issued g
    g.actors = [l] → s1.reach (s1.whoFor g l 3 f.scope) (g.addr f.off.toInt l) f.wt.bytes f.wt.bytes .rmw = .ok ps pad →
    ∃ t, exec (.red f) s = .next t ∧
      t.mem = Memory.writePieces s.mem ps (atomBytes f.opc.toNat f.wt (g.b l) (s1.load ps pad)) ∧ sameOutside ps s t ∧
      Kept g [] 0 s (t.withMemoryOf s)) ∧
  (∀ (f : MForm) s sl l ps pad, Issues (.atomc f) s sl →
    let g := s.groupOf (.atomc f) sl
    let s1 := s.issued g
    g.actors = [l] → s1.reach (s1.whoFor g l 3 f.scope) (g.addr f.off.toInt l) f.wt.bytes f.wt.bytes .rmw = .ok ps pad →
    ∃ t, exec (.atomc f) s = .next t ∧
      t.mem = (if s1.load ps pad = toBytes (g.b l).toNat f.wt.bytes then Memory.writePieces s.mem ps (toBytes (g.c l).toNat f.wt.bytes)
        else s.mem) ∧ sameOutside ps s t ∧
      Kept g [(Instr.atomc f).shape.d] 0 s (t.withMemoryOf s) ∧
      ∀ k ∈ g.lanes, (t.wave g.w).operand (Instr.atomc f).shape.d k =
        shown (Instr.atomc f).shape.d (BitVec.ofNat 128 (ofBytes (s1.load ps pad))))

/-- R192: `rstf` stores its element, then adds one to a pennant word of the same home. R195 to R197: the exact accumulator steps. -/
def Obligations.FlaggedStoreAndAccumulatorSteps : Prop :=
  (∀ (f : MForm) s sl l pa pad pg pad', Issues (.rstf f) s sl →
    let g := s.groupOf (.rstf f) sl
    let s1 := s.issued g
    let who := s1.whoFor g l 1 .dev
    let a := g.addr f.off.toInt l
    let p := (lo64 (g.c l)).toNat
    let home (va : Nat) : Nat × Nat × Nat := s1.homeOf ((s1.physOf who va).getD 0)
    g.actors = [l] → s1.reach who a f.wt.bytes f.wt.bytes .write = .ok pa pad →
    s1.reach { who with acc := 3, late := who.late && (g.replay.bind (·.slot)).isSome } p 8 8 .rmw = .ok pg pad' → a < 4 * 2 ^ 60 → p < 4 * 2 ^ 60 →
    (home a).1 = (home p).1 → (home a).2.1 = (home p).2.1 →
    exec (.rstf f) s = .next (s.after g fun s =>
      let s2 := (s.count (pa ++ pg)).store pa (toBytes (g.b l).toNat f.wt.bytes)
      s2.store pg (toBytes ((ofBytes (s2.load pg pad') + 1) % 2 ^ 64) 8))) ∧
  (∀ (f : MForm) s sl l ps pad, Issues (.exadd f) s sl →
    let g := s.groupOf (.exadd f) sl
    let s1 := s.issued g
    g.actors = [l] → s1.xaReach g l (g.addr f.off.toInt l) .rmw = .ok ps pad →
    exec (.exadd f) s = .next (s.after g fun s => (s.count ps).store ps (xaAdd (lo64 (g.b l)).toNat (s.load ps pad)))) ∧
  (∀ (f : MForm) s sl l ps pad, Issues (.exclr f) s sl →
    let g := s.groupOf (.exclr f) sl
    let s1 := s.issued g
    g.actors = [l] → s1.xaReach g l (g.addr f.off.toInt l) .write = .ok ps pad →
    exec (.exclr f) s = .next (s.after g fun s => (s.count ps).store ps (List.replicate 288 0))) ∧
  (∀ (f : MopForm) s sl l ps pad, Issues (.exrnd f) s sl →
    let g := s.groupOf (.exrnd f) sl
    let s1 := s.issued g
    g.actors = [l] → s1.xaReach g l (g.addr f.off.toInt l) .read = .ok ps pad →
    exec (.exrnd f) s = .next (s.after g fun s =>
      let r := xaRound (xaRnd f.opc) (s.load ps pad)
      ((s.count ps).give g l r.1).modWave g.w fun wv => wv.orFlags r.2))

/-- R175, R177: the lanes of a memory instruction perform their parts one after another, in ascending order, each on the state that the
part before it left; where every part is done, that is the instruction. -/
def Obligations.LanesPerformInTurn : Prop :=
  (∀ (s t : State) (g : Grp) f, inTurn f g.actors s = some t → s.eachLane g f = t) ∧
  (∀ (f : MForm) s sl t, Issues (.ld f) s sl →
    let g := s.groupOf (.ld f) sl
    inTurn (fun s l => s.readFor g l (g.addr f.off.toInt l) f.wt.bytes f.wt f.scope f.ord fun s bs =>
      (s.give g l (ofBytes bs), .done)) g.actors (s.issued g) = some t →
    exec (.ld f) s = .next (t.finish g)) ∧
  (∀ (f : MForm) s sl t, Issues (.st f) s sl →
    let g := s.groupOf (.st f) sl
    inTurn (fun s l => s.writeFor g l (g.addr f.off.toInt l) f.wt.bytes f.wt f.scope f.ord (toBytes (g.b l).toNat f.wt.bytes))
      g.actors (s.issued g) = some t →
    exec (.st f) s = .next (t.finish g))

/-- R151, R224, R228, R182: instructions that only advance in one core that performs its accesses in order: no operation, fences,
cache invalidation of code, prefetches. That a fence has nothing to do is the model's choice (log 4). -/
def Obligations.OrderingInstructionsOnlyAdvance : Prop :=
  (∀ s sl, Issues .nop s sl → ∃ t, exec .nop s = .next t ∧ Kept (s.groupOf .nop sl) [] 0 s t) ∧
  (∀ f s sl, Issues (.fence f) s sl → ∃ t, exec (.fence f) s = .next t ∧ Kept (s.groupOf (.fence f) sl) [] 0 s t) ∧
  (∀ f s sl, Issues (.ifence f) s sl → ∃ t, exec (.ifence f) s = .next t ∧ Kept (s.groupOf (.ifence f) sl) [] 0 s t) ∧
  (∀ f s sl, Issues (.icinv f) s sl → ∃ t, exec (.icinv f) s = .next t ∧
    Kept (s.groupOf (.icinv f) sl) [] 0 s { t with fetchLines := s.fetchLines } ∧ ∀ e ∈ t.fetchLines, e ∈ s.fetchLines) ∧
  (∀ f s sl, Issues (.pref f) s sl → ∃ t, exec (.pref f) s = .next t ∧
    Kept (s.groupOf (.pref f) sl) [] 0 s { t with counters := s.counters, stackCount := s.stackCount, dies := s.dies, prefetches := s.prefetches })

/-- R144 to R146, R48: where every executing lane's destination passes, `bra`, `brx`, `ret`, `call` and `callx` send each lane there; the
calls first write the next slot's PC to their link register. R48, R146: each of the five, sent to a slot that is no target, traps TARGET in its
lanes, and sent into the code window outside every object traps STRAY; at an object whose record is UNBOUND its lane raises BIND, and at one
whose record is BINDING its lanes wait for it, each standing before its instruction. -/
def Obligations.TransfersReachTheirTargets : Prop :=
  (∀ f s sl, Issues (.bra f) s sl →
    let g := s.groupOf (.bra f) sl
    (∀ l ∈ g.lanes, (s.issued g).entryCheck g.src.ctx (relPc g.pc f.disp) = .ok) →
    exec (.bra f) s = .next (s.after g fun s => s.modLanes g.w g.lanes fun _ t => { t with pc := relPc g.pc f.disp })) ∧
  (∀ f s sl, Issues (.brx f) s sl →
    let g := s.groupOf (.brx f) sl
    (∀ l ∈ g.lanes, (s.issued g).entryCheck g.src.ctx (lo64 (g.a l)) = .ok) →
    exec (.brx f) s = .next (s.after g fun s => s.modLanes g.w g.lanes fun l t => { t with pc := lo64 (g.a l) })) ∧
  (∀ f s sl, Issues (.ret f) s sl →
    let g := s.groupOf (.ret f) sl
    (∀ l ∈ g.lanes, (s.issued g).entryCheck g.src.ctx (lo64 (g.a l)) = .ok) →
    exec (.ret f) s = .next (s.after g fun s => s.modLanes g.w g.lanes fun l t => { t with pc := lo64 (g.a l) })) ∧
  (∀ f s sl, Issues (.call f) s sl →
    let g := s.groupOf (.call f) sl
    (∀ l ∈ g.lanes, (s.issued g).entryCheck g.src.ctx (relPc g.pc f.disp) = .ok) →
    exec (.call f) s = .next (s.after g fun s => (s.writeD g g.lanes (fun _ => ext64 (nextPc g.pc)) fun _ => .uniform).modLanes g.w
      g.lanes fun _ t => { t with pc := relPc g.pc f.disp })) ∧
  (∀ f s sl, Issues (.callx f) s sl →
    let g := s.groupOf (.callx f) sl
    (∀ l ∈ g.lanes, (s.issued g).entryCheck g.src.ctx (lo64 (g.a l)) = .ok) →
    exec (.callx f) s = .next (s.after g fun s => (s.writeD g g.lanes (fun _ => ext64 (nextPc g.pc)) fun _ => .uniform).modLanes g.w
      g.lanes fun l t => { t with pc := lo64 (g.a l) })) ∧
  (∀ i s sl, Issues i s sl →
    let g := s.groupOf i sl
    let at_ (l : Nat) (e : Entry) : Prop := ∃ t, transferTo i g l = some t ∧ (s.issued g).entryCheck g.src.ctx t = e
    ((transferTo i g 0).isSome = true → (∀ l ∈ g.lanes, at_ l .clear) →
      exec i s = .next (s.after g fun s => s.raise g (g.lanes.map fun l => (l, TrapKind.target)))) ∧
    ((transferTo i g 0).isSome = true → (∀ l ∈ g.lanes, at_ l .gap) →
      exec i s = .next (s.after g fun s => s.raise g (g.lanes.map fun l => (l, TrapKind.stray)))) ∧
    (∀ l obj, g.lanes = [l] → at_ l (.unbound obj) →
      exec i s = .next (s.after g fun s => (s.block g l .none).raiseBind g.w obj g.pc [l])) ∧
    (∀ obj, (transferTo i g 0).isSome = true → (∀ l ∈ g.lanes, at_ l (.binding obj)) →
      exec i s = .next (s.after g fun s => g.lanes.foldl (fun s l => s.block g l (.binding g.src.ctx obj)) s)))

/-- R147, R149, R150: `join` holds its lanes until the threads of their masks are there, `yield` lets the group be passed over for 32
issue cycles, and `exit` ends its lanes where no unfinished or failed command of the wave holds the last of them back. R150: a lane that
exits no longer runs, and the lanes that do not exit keep their state; what a lane held for is released. -/
def Obligations.MeetingYieldingAndExit : Prop :=
  (∀ f s sl, Issues (.join f) s sl →
    let g := s.groupOf (.join f) sl
    f.ty = widthTy g.src.width →
    exec (.join f) s = .next (s.after g fun s => s.modLanes g.w g.lanes fun l t => { t with wait := .join (g.a l) g.pc })) ∧
  (∀ f s sl, Issues (.yield f) s sl →
    let g := s.groupOf (.yield f) sl
    g.lanes ≠ [] →
    exec (.yield f) s = .next (s.after g fun s => s.modLanes g.w g.all fun _ t => { t with passed := 32 })) ∧
  (∀ f s sl, Issues (.exit f) s sl →
    let g := s.groupOf (.exit f) sl
    (∀ c ∈ (s.issued g).waveCmds g.w, c.state ≠ .failed ∧ c.state ≠ .accepted ∧ c.state ≠ .issued) →
    exec (.exit f) s = .next (s.after g fun s => (s.exitLanes g.w g.lanes).reap g.w)) ∧
  (∀ (wv : Wave) (lanes : List Nat) l, l < wv.threads.length →
    (l ∈ lanes → ((wv.exitLanes lanes).thread l).status = .exited) ∧
    (l ∉ lanes → ((wv.exitLanes lanes).thread l).status = (wv.thread l).status ∧
      ((wv.exitLanes lanes).thread l).pc = (wv.thread l).pc))

/-- R152, R20: `hpush` puts one frame on top of each executing lane's stack, with the lane's frame counter as its identity, and moves the
counter on, whether the stack's sixteen registers take it or frames below it go to memory; a handler outside the code window traps TARGET.
R154: `hpop` pops the top frame where no return record has its identity, traps
PROTECT where only frame 0 is left, and returns to the newest return record with the identity where there is one, the record's registers and
predicates restored and A in its destination; a record whose destination is no target traps TARGET. `hpop.b128` does the same for the identity
in A, and pops nothing. -/
def Obligations.HandlerFramesArePushedAndPopped : Prop :=
  (∀ f s sl, Issues (.hpush f) s sl →
    let g := s.groupOf (.hpush f) sl
    (relPc g.pc f.disp).toNat / 2 ^ 60 = 5 → g.lanes.Nodup →
    (∀ l ∈ g.lanes, ((s.issued g).thread g.w l).frames.length < 15) →
    exec (.hpush f) s = .next (s.after g fun s => s.modLanes g.w g.lanes fun _ t =>
      { t with frames := ⟨t.fidCtr, relPc g.pc f.disp, g.src.sreg f.mreg.toNat, f.mtch⟩ :: t.frames
               fidCtr := if t.fidCtr = 0xFFFFFFFF then 1 else t.fidCtr + 1 })) ∧
  (∀ (s u : State) w l hpc mask mtch, w < s.waves.length → l < (s.wave w).threads.length → s.push w l hpc mask mtch = some u →
    (u.thread w l).frames = ⟨(s.thread w l).fidCtr, hpc, mask, mtch⟩ :: (s.thread w l).frames ∧
    (u.thread w l).fidCtr = (if (s.thread w l).fidCtr = 0xFFFFFFFF then 1 else (s.thread w l).fidCtr + 1) ∧
    (u.thread w l).pc = (s.thread w l).pc ∧ (u.thread w l).vregs = (s.thread w l).vregs ∧
    (∀ k, k ≠ l → u.thread w k = s.thread w k) ∧ (∀ x, x ≠ w → u.wave x = s.wave x) ∧
    u = { s with mem := u.mem, poison := u.poison, dirty := u.dirty, fetchLines := u.fetchLines, waves := u.waves }) ∧
  (∀ f s sl l u, Issues (.hpush f) s sl →
    let g := s.groupOf (.hpush f) sl
    (relPc g.pc f.disp).toNat / 2 ^ 60 = 5 → g.lanes = [l] →
    (s.issued g).push g.w l (relPc g.pc f.disp) (g.src.sreg f.mreg.toNat) f.mtch = some u →
    exec (.hpush f) s = .next (u.finish g)) ∧
  (∀ f s sl, Issues (.hpush f) s sl →
    let g := s.groupOf (.hpush f) sl
    (relPc g.pc f.disp).toNat / 2 ^ 60 ≠ 5 →
    exec (.hpush f) s = .next (s.after g fun s => s.raiseAll g .target g.lanes)) ∧
  (∀ f s sl, Issues (.hpop f) s sl →
    let g := s.groupOf (.hpop f) sl
    (∀ l ∈ g.lanes, ∃ fid : W32, (if f.ty = .b128 then fid = word32 (g.a l) 2 else
        ((s.issued g).thread g.w l).frames.head?.map (·.fid) = some fid) ∧
      ∀ r ∈ ((s.issued g).thread g.w l).rets, r.fid ≠ fid) →
    exec (.hpop f) s = .next (s.after g fun s => s.modLanes g.w g.lanes fun _ t =>
      (if f.ty = .b128 then t else { t with frames := t.frames.tail } : Thread).trim)) ∧
  (∀ f s sl, Issues (.hpop f) s sl → f.ty = .b64 →
    let g := s.groupOf (.hpop f) sl
    (∀ l ∈ g.lanes, ((s.issued g).thread g.w l).frames = []) →
    exec (.hpop f) s = .next (s.after g fun s => s.raise g (g.lanes.map fun l => (l, TrapKind.protect)))) ∧
  (∀ f s sl l (fid : W32) r, Issues (.hpop f) s sl →
    let g := s.groupOf (.hpop f) sl
    let t0 := (s.issued g).thread g.w l
    g.lanes = [l] → (if f.ty = .b128 then fid = word32 (g.a l) 2 else t0.frames.head?.map (·.fid) = some fid) →
    t0.rets.find? (fun r => r.fid == fid) = some r → r.dreg < 1023 →
    ((s.issued g).entryCheck g.src.ctx r.pc = .ok →
      ∃ t, exec (.hpop f) s = .next t ∧ (t.thread g.w l).pc = r.pc ∧
        (t.thread g.w l).frames = (if f.ty = .b128 then t0.frames else t0.frames.tail) ∧
        (t.thread g.w l).rets = (t0.rets.dropWhile fun x => x.fid != fid).tail ∧ (t.thread g.w l).preds = r.preds ||| 1 ∧
        (t.thread g.w l).dv r.dreg = lo64 (g.a l) ∧
        (∀ k, k < r.regs.length → k ≠ r.dreg → k ≠ r.dreg + 1 →
          (t.thread g.w l).v k = (r.regs.getD k (.general 0)).value l ((s.issued g).wave g.w).width.block) ∧
        (∀ k, r.regs.length ≤ k → k ≠ r.dreg → k ≠ r.dreg + 1 → (t.thread g.w l).v k = t0.v k)) ∧
    ((s.issued g).entryCheck g.src.ctx r.pc = .clear ∨ (s.issued g).entryCheck g.src.ctx r.pc = .gap →
      exec (.hpop f) s = .next (s.after g fun s => s.raise g [(l, TrapKind.target)])))

/-- R155: `perf` delivers its effect in every executing lane, the continuation at the slot after it; a name that may not be performed
traps ILLEGAL. -/
def Obligations.PerformDeliversEffect : Prop :=
  (∀ f s sl, Issues (.perf f) s sl →
    let g := s.groupOf (.perf f) sl
    (f.rn && badName (perfName f g)) = false →
    let items := g.lanes.map fun l =>
      (l, ({ name := perfName f g, kind := kindOf (perfName f g), pb := f.pay.toNat, k := f.k.toNat
             cont := ((s.issued g).thread g.w l).pc, redo := [], forced := false, src := g.pc } : Effect))
    (∀ x ∈ items, ((s.issued g).handlerEntry g.w x.1 x.2).binds = false) →
    ((s.issued g).deliverAll g.w f.pay.toNat items).2 = [] →
    exec (.perf f) s = .next (s.after g fun s => (s.deliverAll g.w f.pay.toNat items).1)) ∧
  (∀ f s sl, Issues (.perf f) s sl →
    let g := s.groupOf (.perf f) sl
    f.rn = true → badName (perfName f g) = true →
    exec (.perf f) s = .next (((s.advance g).raiseAll g .illegal g.all).finish g))

/-- R156, R157: an effect that a frame of the lane's stack handles: the frame and those above it leave the stack, the name and the token
stand in the registers after the payload base, the lane runs the frame's handler, and the continuation's record lies in the lane's private
space, its place live. R156, R169: an effect that no frame handles goes to frame 0: its token stands in a delivery to the service kernel,
for which the lane waits. -/
def Obligations.EffectEntersItsHandler : Prop :=
  (∀ (s u : State) w l (e : Effect) i, w < s.waves.length → l < (s.wave w).threads.length →
    s.handler w l e = (some i, false) → s.deliver (s.wave w) w l e = some u →
    ∃ p : RecPlace, (s.thread w l).findPlace ((s.wave w).continuation l (i + 1) e 0).bytes.length = some p ∧
      (u.thread w l).pc = ((s.thread w l).frames.getD i ⟨0, 0, 0, 0⟩).hpc ∧
      (u.thread w l).frames = (s.thread w l).frames.drop (i + 1) ∧
      (u.thread w l).v (e.pb + 1) = e.name ∧ (u.thread w l).dv (e.pb + 2) = tokenOf p.gen e.kind p.slot ∧
      (u.thread w l).preds = (s.thread w l).preds ∧
      (∀ r, ¬ (e.pb + 1 ≤ r ∧ r ≤ e.pb + 3) → (u.thread w l).v r = (s.thread w l).v r) ∧
      u.mem = (s.privWrite w l (64 * p.slot) ((s.wave w).continuation l (i + 1) e p.gen).bytes).mem ∧
      (∃ ps, s.privPieces w l (64 * p.slot) ((s.wave w).continuation l (i + 1) e p.gen).bytes.length = .ok ps ∧
        u.mem = Memory.writePieces s.mem ps ((s.wave w).continuation l (i + 1) e p.gen).bytes) ∧
      (∀ k, k ≠ l → u.thread w k = s.thread w k) ∧
    u = { s with mem := u.mem, poison := u.poison, dirty := u.dirty, fetchLines := u.fetchLines, waves := u.waves }) ∧
  (∀ (s u : State) w l (e : Effect), w < s.waves.length → l < (s.wave w).threads.length →
    s.handler w l e = (none, false) → s.deliver (s.wave w) w l e = some u →
    ∃ p : RecPlace, (s.thread w l).findPlace ((s.wave w).continuation l 0 e 0).bytes.length = some p ∧
      u.deliveries = s.deliveries ++ [{ wave := w, lane := l, name := e.name, kind := e.kind, pb := e.pb
                                        token := tokenOf p.gen e.kind p.slot, pc := e.cont, src := e.src }] ∧
      (u.thread w l).wait = .frame0 ∧ (u.thread w l).vregs = (s.thread w l).vregs ∧ (u.thread w l).frames = (s.thread w l).frames)

/-- R158 to R160: a resumption whose token passes: `resumet` and `resumec` consume the token, `resumek` keeps it, the last two leave a
return record, and the lane goes on at the record's PC with its saved registers, predicates and frames, its other registers as they were, and
a trap's pending instructions to be performed first; the place of a consumed record is free, that of a kept one live. R158, R160: a token that
fails its check traps TOKEN, as one of KIND 0b01 does at `resumek`; nothing else changes. R161, R162: `dropt` consumes the token, and `tinfo`
reads what it names. Each where the record's place can be read. -/
def Obligations.TokensResumeDropAndTell : Prop :=
  (∀ f s sl l p r u, Issues (.resumet f) s sl →
    let g := s.groupOf (.resumet f) sl
    let s1 := s.issued g
    let t := s1.thread g.w l
    g.lanes = [l] → s1.tokenAway g.w l (lo64 (g.a l)) = none → s1.checkToken g.w l (lo64 (g.a l)) = .ok (p, r) →
    s1.resumeOk g.src.ctx (tokKind (lo64 (g.a l))) r = true → t.claimUnder r.frames.length = some u →
    exec (.resumet f) s = .next (s.after g fun s =>
      ((((s.modThread g.w l fun t => { t with rets := u.rets, areas := u.areas }).consume g.w l p).resume g.w
        [(l, r, tokKind (lo64 (g.a l)))]).writeSpills g.w l t.areas)) ∧
    ∃ x, exec (.resumet f) s = .next x ∧ Resumed (x.thread g.w l) t r (tokKind (lo64 (g.a l))) l (s1.wave g.w).width.block (s1.wave g.w).issues ∧
      (x.thread g.w l).rets = t.rets ∧ ∀ q ∈ (x.thread g.w l).places, q.slot = p.slot → q.live = false) ∧
  (∀ f s sl l p r u, Issues (.resumec f) s sl →
    let g := s.groupOf (.resumec f) sl
    let s1 := s.issued g
    let t := s1.thread g.w l
    g.lanes = [l] → s1.tokenAway g.w l (lo64 (g.a l)) = none → s1.checkToken g.w l (lo64 (g.a l)) = .ok (p, r) →
    s1.resumeOk g.src.ctx (tokKind (lo64 (g.a l))) r = true →
    ((t.addRet ((s1.wave g.w).returnRecord l r f.d.toNat)).bind fun t => t.claimUnder r.frames.length) = some u →
    exec (.resumec f) s = .next (s.after g fun s =>
      ((((s.modThread g.w l fun t => { t with rets := u.rets, areas := u.areas }).consume g.w l p).resume g.w
        [(l, r, tokKind (lo64 (g.a l)))]).writeSpills g.w l t.areas)) ∧
    ∃ x, exec (.resumec f) s = .next x ∧ Resumed (x.thread g.w l) t r (tokKind (lo64 (g.a l))) l (s1.wave g.w).width.block (s1.wave g.w).issues ∧
      (x.thread g.w l).rets = (s1.wave g.w).returnRecord l r f.d.toNat :: t.rets ∧
      ∀ q ∈ (x.thread g.w l).places, q.slot = p.slot → q.live = false) ∧
  (∀ f s sl l p r u, Issues (.resumek f) s sl →
    let g := s.groupOf (.resumek f) sl
    let s1 := s.issued g
    let t := s1.thread g.w l
    g.lanes = [l] → tokKind (lo64 (g.a l)) ≠ 1 → s1.tokenAway g.w l (lo64 (g.a l)) = none →
    s1.checkToken g.w l (lo64 (g.a l)) = .ok (p, r) → s1.resumeOk g.src.ctx (tokKind (lo64 (g.a l))) r = true →
    ((t.addRet ((s1.wave g.w).returnRecord l r f.d.toNat)).bind fun t => t.claimUnder r.frames.length) = some u →
    exec (.resumek f) s = .next (s.after g fun s =>
      (((s.modThread g.w l fun t => { t with rets := u.rets, areas := u.areas }).resume g.w
        [(l, r, tokKind (lo64 (g.a l)))]).writeSpills g.w l t.areas)) ∧
    ∃ x, exec (.resumek f) s = .next x ∧ Resumed (x.thread g.w l) t r (tokKind (lo64 (g.a l))) l (s1.wave g.w).width.block (s1.wave g.w).issues ∧
      (x.thread g.w l).rets = (s1.wave g.w).returnRecord l r f.d.toNat :: t.rets ∧ (x.thread g.w l).places = t.places) ∧
  (∀ (t u : Thread) r, t.addRet r = some u →
    u.rets = r :: t.rets ∧ u = { t with rets := u.rets, areas := u.areas } ∧ ∃ o, u.areas = t.areas ++ [⟨.ret t.rets.length, o, r.size⟩] ∧
      o + r.size ≤ t.psize) ∧
  (∀ f s sl l, Issues (.resumet f) s sl →
    let g := s.groupOf (.resumet f) sl
    g.lanes = [l] → (s.issued g).tokenAway g.w l (lo64 (g.a l)) = none → (s.issued g).tokenRecord g.w l (lo64 (g.a l)) = none →
    exec (.resumet f) s = .next (s.after g fun s => s.raise g [(l, TrapKind.token)])) ∧
  (∀ f s sl l, Issues (.resumek f) s sl →
    let g := s.groupOf (.resumek f) sl
    g.lanes = [l] → (s.issued g).tokenAway g.w l (lo64 (g.a l)) = none → tokKind (lo64 (g.a l)) = 1 →
    exec (.resumek f) s = .next (s.after g fun s => s.raise g [(l, TrapKind.token)])) ∧
  (∀ f s sl l p r, Issues (.dropt f) s sl →
    let g := s.groupOf (.dropt f) sl
    g.lanes = [l] → (s.issued g).tokenAway g.w l (lo64 (g.a l)) = none → (s.issued g).checkToken g.w l (lo64 (g.a l)) = .ok (p, r) →
    exec (.dropt f) s = .next (s.after g fun s => s.consume g.w l p)) ∧
  (∀ f s sl l p r, Issues (.tinfo f) s sl →
    let g := s.groupOf (.tinfo f) sl
    let tok := lo64 (g.a l)
    g.lanes = [l] → (s.issued g).tokenAway g.w l tok = none → (s.issued g).checkToken g.w l tok = .ok (p, r) →
    exec (.tinfo f) s = .next (s.after g fun s => s.writeD g [l] (fun _ =>
      (BitVec.ofNat 32 (r.regs.length + 2 ^ 11 * r.redo.length + 2 ^ 16 * (tokKind tok).toNat) ++
        (r.frames.head?.map (·.fid)).getD 0 ++
        (if tokKind tok = 1 then (r.redo.head?.map fun e => e.2.pc).getD r.pc else r.pc) : W128)) fun _ => .general))

/-- R168, R37: `trap` puts one entry for its executing lanes into the wave's trap queue, at the slot after it and without replay, and the
lanes wait for its delivery. R164, R156: the next entry of a trap queue is delivered to its lanes, and keeps its place until the tokens it
gave are settled. -/
def Obligations.TrapsAreRaisedAndDelivered : Prop :=
  (∀ f s sl k, Issues (.trap f) s sl → TrapKind.ofCode f.name = some k →
    let g := s.groupOf (.trap f) sl
    g.lanes ≠ [] →
    exec (.trap f) s = .next (s.after g fun s => s.modWave g.w fun wv =>
      let e : TrapEntry :=
        { pc := g.pc, kind := k, issued := g.issued, delivered := false, begun := false, owed := []
          lanes := g.lanes.map fun l => { lane := l, cont := (wv.thread l).pc, redo := [] } }
      { wv with trapq := putEntry wv.trapq e }.modLanes g.lanes fun _ t => { t with redo := [], wait := .trapped })) ∧
  (∀ s w e, (s.wave w).nextEntry = some e →
    let items := e.lanes.map fun x =>
      (x.lane, ({ name := e.kind.code, kind := 1, pb := 0, k := (s.wave w).vBudget, cont := x.cont, redo := x.redo
                  forced := false, src := e.pc } : Effect))
    let r := s.deliverAll w 0 items
    let owed := items.map fun x => (x.1, r.1.tokenPlace w x.1)
    (∀ x ∈ items, (s.thread w x.1).wait = .trapped ∧ (s.handlerEntry w x.1 x.2).binds = false) → r.2 = [] →
    exec (.trapDelivery w) s = .next (r.1.modWave w fun wv =>
      { wv with trapq :=
          (if owed.isEmpty then [] else [{ e with delivered := true, begun := false, owed := owed }]) ++ wv.trapq.erase e }))

/-- R107: `iaddc` adds the carry of its predicate and writes the carry out to it. R120, R13: `ballot` gives every lane the mask of the
executing threads whose predicate is true, and traps ILLEGAL where its type is not that of the declared width. R21, R122, R123: `rdsr`
reads a special register; with its clear modifier the flags of earlier cycles go. -/
def Obligations.CarryBallotAndSpecialReads : Prop :=
  (∀ f s sl, Issues (.iaddc f) s sl →
    let g := s.groupOf (.iaddc f) sl
    let sum (l : Nat) : Nat := carrySum f.ty (g.a l) (g.b l) ((g.c (if f.hd.s then g.head else l)).getLsbD 0)
    ∃ t, exec (.iaddc f) s = .next t ∧ Kept g [(Instr.iaddc f).shape.d, (Instr.iaddc f).shape.c] 0 s t ∧
      ∀ l ∈ g.lanes,
        (t.wave g.w).operand (Instr.iaddc f).shape.d l =
          shown (Instr.iaddc f).shape.d (ofNat (sum (if (Instr.iaddc f).shape.d.scalar then g.head else l)) f.ty.bits) ∧
        (t.thread g.w l).p f.c.toNat = (f.c == 0 || decide (2 ^ f.ty.bits ≤ sum (if f.hd.s then g.head else l)))) ∧
  (∀ f s sl, Issues (.ballot f) s sl →
    let g := s.groupOf (.ballot f) sl
    f.ty = widthTy g.src.width →
    ∃ t, exec (.ballot f) s = .next t ∧ Kept g [(Instr.ballot f).shape.d] 0 s t ∧
      ∀ l ∈ g.lanes, (t.wave g.w).operand (Instr.ballot f).shape.d l =
        shown (Instr.ballot f).shape.d (BitVec.ofFnLE (n := 128) fun i => g.lanes.contains i.val && (g.a i.val).getLsbD 0)) ∧
  (∀ f s sl, Issues (.ballot f) s sl →
    let g := s.groupOf (.ballot f) sl
    f.ty ≠ widthTy g.src.width →
    exec (.ballot f) s = .next (((s.advance g).raiseAll g .illegal g.all).finish g)) ∧
  (∀ f s sl, Issues (.rdsr f) s sl →
    let g := s.groupOf (.rdsr f) sl
    let d := (Instr.rdsr f).shape.d
    ∃ t, exec (.rdsr f) s = .next t ∧
      Kept g [d] 0 s (t.modWave g.w fun wv => { wv with fpflags := (s.wave g.w).fpflags }) ∧
      (t.wave g.w).fpflags =
        (if f.imod.getLsbD 0 = true ∧ g.lanes ≠ [] then (s.wave g.w).newFlags else (s.wave g.w).fpflags) ∧
      ∀ l ∈ g.lanes, (t.wave g.w).operand d l =
        shown d ((s.issued g).special g (if d.scalar then g.head else l) f.imm.toNat)) ∧
  (∀ (s : State) (g : Grp) l k, k < 8 →
    s.special g l 0x00 = BitVec.ofNat 128 l ∧ s.special g l (0x10 + k) = ext32 ((g.src.thread l).idx.getD k 0) ∧
    s.special g l 0x20 = BitVec.ofNat 128 (s.logicalTile g.src.tile % 40) ∧
    s.special g l 0x21 = BitVec.ofNat 128 (s.logicalTile g.src.tile / 40) ∧
    s.special g l 0x22 = BitVec.ofNat 128 s.fabric.node ∧ s.special g l 0x23 = BitVec.ofNat 128 (s.waveWorld g.w) ∧
    s.special g l 0x30 = g.src.fpflags.setWidth 128 ∧ s.special g l 0x40 = ext64 (s.tile g.src.tile).cycle)

/-- R222: a lane that reaches `bar` or `bara` and has not arrived in the open phase arrives; `bar` then waits for the phase, `bara` adds
its bytes to the balance and goes on; `barw` waits for the phase of the lane's last arrival, if it is still open. R221, R222, R147, R223,
R227, R268: the events that end a wait: a phase completes, the next one opens without arrivals or balance, and its waiters are released;
lanes leave `join`, `waitp` and `cbacq`, and perform a `waitp` again whose word cannot be read here any more; a group that has waited long enough is promoted. -/
def Obligations.BarriersAndReleases : Prop :=
  (∀ f s sl l, Issues (.bar f) s sl →
    let g := s.groupOf (.bar f) sl
    let r := (s.issued g).barrierFor g.w f.d.toNat
    let b := r.1.barrier r.2
    g.lanes = [l] → g.omitted f.d.toNat = false → g.replay = none → (s.issued g).failedAt g.w f.d.toNat = none →
    b.has g.w l = false → r.1.wordFull r.2 = false →
    ∃ t, exec (.bar f) s = .next t ∧ t.barrier r.2 = { b with arrived := b.arrived ++ [(g.w, l)] } ∧
      (t.thread g.w l).wait = .bar r.2 b.phase) ∧
  (∀ f s sl l, Issues (.bara f) s sl →
    let g := s.groupOf (.bara f) sl
    let r := (s.issued g).barrierFor g.w f.d.toNat
    let b := r.1.barrier r.2
    g.lanes = [l] → g.omitted f.d.toNat = false → b.has g.w l = false → r.1.wordFull r.2 = false →
    ∃ t, exec (.bara f) s = .next t ∧
      t.barrier r.2 = { b with arrived := b.arrived ++ [(g.w, l)]
                               balance := b.balance + if f.skb then ((lo32 (g.b l)).toNat : Int) else 0 } ∧
      ((t.thread g.w l).wait = (s.thread g.w l).wait ∨
        ((r.1.launches[b.launch]?).any fun x => x.fabricLevel b.level && recPkg0 x.record != s.fabric.node) = true ∧
          ∃ tag, (t.thread g.w l).wait = .remote tag)) ∧
  (∀ f s sl l, Issues (.barw f) s sl →
    let g := s.groupOf (.barw f) sl
    let r := (s.issued g).barrierFor g.w f.d.toNat
    let b := r.1.barrier r.2
    g.lanes = [l] → g.omitted f.d.toNat = false → (s.issued g).failedAt g.w f.d.toNat = none →
    ∃ t, exec (.barw f) s = .next t ∧ t.barrier r.2 = b ∧
      (t.thread g.w l).wait =
        if Sparse.get 0 (s.thread g.w l).arrivals f.d.toNat = b.phase + 1 then .bar r.2 b.phase else (s.thread g.w l).wait) ∧
  (∀ s bar, bar < s.barriers.length → s.phaseReady bar = true →
    ∃ t, exec (.barrierPhaseComplete bar) s = .next t ∧
      t.barrier bar = { s.barrier bar with phase := (s.barrier bar).phase + 1, arrived := [], balance := 0 } ∧
      ∀ w l, (s.thread w l).wait = .bar bar (s.barrier bar).phase → (t.thread w l).wait = .none) ∧
  (∀ s w l, l < (s.wave w).width.lanes → (s.wave w).mayLeave l = true →
    ∃ t, exec (.joinRelease w) s = .next t ∧ (t.thread w l).wait = .none ∧ (t.thread w l).pc = (s.thread w l).pc ∧
      t = { s with waves := t.waves }) ∧
  (∀ s w l a goal x, (s.thread w l).wait = .waitp a goal → s.waitedWord w l a = some x → goal.toNat ≤ x → (s.wave w).resident = true →
    ∃ t, exec (.waitpRelease w l) s = .next t ∧ (t.thread w l).wait = .none ∧
      (t.thread w l).redo = (s.thread w l).redo.tail ∧ t = { s with waves := t.waves }) ∧
  (∀ s w l a goal, (s.thread w l).wait = .waitp a goal → s.waitedWord w l a = none → (s.wave w).resident = true →
    ∃ t, exec (.waitpRelease w l) s = .next t ∧ (t.thread w l).wait = .none ∧ (t.thread w l).redo = (s.thread w l).redo ∧
      t = { s with waves := t.waves }) ∧
  (∀ s w l, s.cbacqReady w l = true →
    ∃ t, exec (.cbacqRelease w l) s = .next t ∧ (t.thread w l).wait = .none ∧ (t.thread w l).redo = (s.thread w l).redo ∧
      t = { s with waves := t.waves }) ∧
  (∀ s w pc, w < s.waves.length → 64 ≤ ((s.wave w).hist pc).count →
    ∃ t, exec (.groupPromotion w pc) s = .next t ∧ ((t.wave w).hist pc).promoted = true ∧
      ((t.wave w).hist pc).count = ((s.wave w).hist pc).count ∧ t = { s with waves := t.waves })

/-- R225 to R227: `cbdef` writes a counter block with every slot free and records it for the team; `cbacq` takes the next filled slot, or
waits while there is none; `cbrel` frees one. R223: `waitp` goes on where the word has reached the threshold and writes nothing; else the
lane waits. R230: `halt` stops its lanes, and the service kernel, with no debugger attached, ends the team. -/
def Obligations.BuffersPennantsAndHalt : Prop :=
  (∀ f s sl ps pad, Issues (.cbdef f) s sl →
    let g := s.groupOf (.cbdef f) sl
    let s1 := s.issued g
    let base := (lo64 (g.a g.head)).toNat
    let size := (word32 (g.b g.head) 0).toNat
    let count := (word32 (g.b g.head) 1).toNat
    let block := (lo64 (g.c g.head)).toNat
    g.lanes ≠ [] → s1.cbdefCheck g.src.ctx base size count block = none →
    s1.reach (s1.whoFor g g.head 1 .dev) block 32 32 .write = .ok ps pad →
    exec (.cbdef f) s = .next (s.after g fun s =>
      ((s.count ps).store ps (Block.bytes ⟨count, 0, 0, 0, base, size, count⟩)).modTeam g.src.team fun t =>
        { t with cbufs := Sparse.insert (Sparse.erase t.cbufs f.d.toNat) f.d.toNat (BitVec.ofNat 64 block) })) ∧
  (∀ f s sl ps pad, Issues (.cbacq f) s sl →
    let g := s.groupOf (.cbacq f) sl
    let s1 := s.issued g
    let va := (lo64 (g.a g.head)).toNat
    let b := Block.of (s1.load ps pad)
    g.lanes ≠ [] → blockRegion va = true → s1.reach (s1.whoFor g g.head 3 .dev) va 32 32 .rmw = .ok ps pad →
    (b.filled ≠ 0 → exec (.cbacq f) s = .next (s.after g fun s =>
      ((s.count ps).store ps
        (Block.bytes { b with filled := b.filled - 1, get := if b.count = 0 then 0 else (b.get + 1) % b.count })).writeD g g.lanes
          (fun _ => BitVec.ofNat 128 ((b.base + b.get * b.size) % 2 ^ 64)) fun _ => .uniform)) ∧
    (b.filled = 0 → exec (.cbacq f) s = .next (s.after g fun s =>
      g.lanes.foldl (fun s x => s.block g x (.cbacq (BitVec.ofNat 64 va) (Instr.cbacq f).shape.d.num.toNat)) s))) ∧
  (∀ f s sl ps pad, Issues (.cbrel f) s sl →
    let g := s.groupOf (.cbrel f) sl
    let s1 := s.issued g
    let va := (lo64 (g.a g.head)).toNat
    let b := Block.of (s1.load ps pad)
    g.lanes ≠ [] → blockRegion va = true → s1.reach (s1.whoFor g g.head 3 .dev) va 32 32 .rmw = .ok ps pad →
    exec (.cbrel f) s = .next (s.after g fun s =>
      (s.count ps).store ps (Block.bytes { b with free := (b.free + 1) % 2 ^ 32 }))) ∧
  (∀ f s sl l ps pad, Issues (.waitp f) s sl →
    let g := s.groupOf (.waitp f) sl
    let s1 := s.issued g
    g.actors = [l] → s1.reach (s1.whoFor g l 0 f.scope) (g.addr f.off.toInt l) 8 8 .read = .ok ps pad →
    (lo64 (g.b l)).toNat ≤ ofBytes (s1.load ps pad) →
    ∃ t, exec (.waitp f) s = .next t ∧ t.mem = s.mem ∧ Kept g [] 0 s (t.withMemoryOf s)) ∧
  (∀ f s sl l ps pad, Issues (.waitp f) s sl →
    let g := s.groupOf (.waitp f) sl
    let s1 := s.issued g
    g.lanes = [l] → s1.reach (s1.whoFor g l 0 f.scope) (g.addr f.off.toInt l) 8 8 .read = .ok ps pad →
    ofBytes (s1.load ps pad) < (lo64 (g.b l)).toNat →
    ∃ t, exec (.waitp f) s = .next t ∧ t.mem = s.mem ∧
      (t.thread g.w l).wait = .waitp (BitVec.ofNat 64 (g.addr f.off.toInt l)) (lo64 (g.b l))) ∧
  (∀ f s sl l ls, Issues (.halt f) s sl →
    let g := s.groupOf (.halt f) sl
    g.lanes = l :: ls →
    ∃ t, exec (.halt f) s = .next t ∧ (∀ k ∈ g.lanes, (t.thread g.w k).wait = .halted) ∧
      t.pkg.log = s.pkg.log ++ [.halted g.w l g.pc] ∧
      t.agenda = if ((s.launchOf g.src.team).any (·.debugged)) = true then s.agenda else s.agenda ++ [.teamEnd g.src.team (.halt g.pc)])

/-- R200, R204, R206: `cpy`, `cpym` and `cpyw` that pass their checks put one command with their operands on the wave's tile; while it is
not accepted the lanes wait for that. R211, R213, R214, R201: `mma` and `mmasp` that pass their checks make a command, on the tile or,
with HOLD, held by the wave, and its accumulator registers are pending from then on, or spoiled where it has failed at once. -/
def Obligations.EngineInstructionsBecomeCommands : Prop :=
  (∀ (f : EForm) (c : CmdKind) (i : Instr),
    (i, c) ∈ [(Instr.cpy f, CmdKind.cpy), (Instr.cpym f, CmdKind.cpym), (Instr.cpyw f, CmdKind.cpyw)] →
    ∀ s sl, Issues i s sl →
      let g := s.groupOf i sl
      let s1 := s.issued g
      let x := g.copyOps f
      let id := (s1.tile g.src.tile).nextCmd * 192 + g.src.tile
      g.lanes ≠ [] → g.again = none → (c ≠ .cpyw → f.barLevel ≠ 0 → g.omitted f.barLevel = false) →
      s1.partialFor g false = false → s1.blockAway g f c none = none → s1.copyCheck g.w f c x none none = .done → g.src.tile < s1.tiles.length →
      s1.cmd? g.src.tile id = none →
      ∃ t d, exec i s = .next t ∧ t.cmd? g.src.tile id = some d ∧ d.kind = c ∧ d.form = f ∧ d.wave = g.w ∧ d.ops = x ∧
        (d.state = .issued → ∀ l ∈ g.lanes, (t.thread g.w l).wait = .accept g.src.tile id)) ∧
  (∀ (f : EForm) (c : CmdKind) (i : Instr), (i, c) ∈ [(Instr.mma f, CmdKind.mma), (Instr.mmasp f, CmdKind.mmasp)] →
    ∀ s sl, Issues i s sl →
      let g := s.groupOf i sl
      let s1 := s.issued g
      let a := lo64 (g.a g.head)
      let b := lo64 (g.b g.head)
      let m := lo64 (g.c g.head)
      let id := (s1.tile g.src.tile).nextCmd * 192 + g.src.tile
      g.lanes ≠ [] → g.again = none → s1.partialFor g true = false →
      s1.matrixCheck (s1.engineWho g.w 6 5) (matrixRows f (c == .mmasp) g.src.width.lanes a b m) = none →
      g.src.tile < s1.tiles.length → s1.cmd? g.src.tile id = none →
      ∃ t d, exec i s = .next t ∧ (if f.hold then (t.wave g.w).held = some d else t.cmd? g.src.tile id = some d) ∧
        d.kind = c ∧ d.form = f ∧ d.wave = g.w ∧ d.descA = a ∧ d.descB = b ∧ d.descC = m ∧
        ((mmaAcc f, id) ∈ (t.wave g.w).pending ∨ d.state = .failed ∧ (mmaAcc f, id) ∈ (t.wave g.w).spoiled))

/-- R201, R203, R205, R210: a command claims its slot, and is accepted with its entry sampled and its ranges in the scoreboard; the lanes
that waited for that go on. R204: an accepted command that fails releases its ranges and keeps why it failed. -/
def Obligations.CommandsAreClaimedAcceptedAndFail : Prop :=
  (∀ s tile id c blk ps pad, s.cmd? tile id = some c → c.wantsSlot = true → c.slot = none → c.state = .issued →
    (s.wave c.wave).resident = true → s.cbOf c.wave c.form.cbn = some blk →
    s.reach (s.engineWho c.wave 7 3) blk.toNat 32 32 .rmw = .ok ps pad →
    let k := Block.of (s.load ps pad)
    k.free ≠ 0 →
    exec (.cbSlotClaim tile id) s = .next (((s.count ps).store ps
      (Block.bytes { k with free := k.free - 1, put := if k.count = 0 then 0 else (k.put + 1) % k.count })).modCmd tile id fun c =>
        { c with slot := some (BitVec.ofNat 64 (k.slotAt k.put)), block := some blk })) ∧
  (∀ s tile id c, s.cmd? tile id = some c → s.acceptable tile c = true → c.isCopy = true →
    s.copyCheck c.wave c.form c.kind c.ops c.slot none = .done →
    ∃ t d, exec (.commandAccept tile id) s = .next t ∧ t.cmd? tile id = some d ∧ d.state = .accepted ∧
      d.entry = s.entryOf c.wave c.form.tid.toNat ∧ d.reads = (s.cmdRanges d).1 ∧ d.writes = (s.cmdRanges d).2 ∧
      ∀ l, (s.thread c.wave l).wait = .accept tile id → (t.thread c.wave l).wait = .none) ∧
  (∀ s tile id c, s.cmd? tile id = some c → s.acceptable tile c = true → c.isCopy = false → c.wave < s.waves.length →
    let check := s.matrixCheck (s.engineWho c.wave 6 5)
      (matrixRows c.form (c.kind == .mmasp) (s.wave c.wave).width.lanes c.descA c.descB c.descC)
    (check = none → ∃ t d, exec (.commandAccept tile id) s = .next t ∧ t.cmd? tile id = some d ∧ d.state = .accepted ∧
      d.reads = (s.cmdRanges d).1 ∧ d.writes = [] ∧ (t.wave c.wave).pending = (s.wave c.wave).pending ∧
      ∀ l, (s.thread c.wave l).wait = .accept tile id → (t.thread c.wave l).wait = .none) ∧
    (∀ k, check = some k → ∃ t d, exec (.commandAccept tile id) s = .next t ∧ t.cmd? tile id = some d ∧ d.state = .failed ∧
      d.why = trapWhy k ∧ (t.wave c.wave).pending = (s.wave c.wave).pending.filter (fun p => p.2 != id) ∧
      ∀ l, (s.thread c.wave l).wait = .accept tile id → (t.thread c.wave l).wait = .none)) ∧
  (∀ s tile id c landed why, s.cmd? tile id = some c → c.state = .accepted → why ≠ .resolved →
    ∃ t d, exec (.commandFailure tile id landed why) s = .next t ∧ t.cmd? tile id = some d ∧
      (d.state = .failed ∨ d.state = .delivered) ∧ d.why = why ∧ d.reads = [] ∧ d.writes = [])

/-- R203, R206 to R210, R212: a command that nothing holds back performs: a matrix command writes its accumulators; a copy moves its rows,
then credits its barrier, fills its slot and starts the held command. It leaves the tile, and what waited for it looks again. -/
def Obligations.CommandsFinish : Prop :=
  (∀ s tile id c, s.cmd? tile id = some c → c.state = .accepted → s.verdict tile c = .ready → c.isCopy = false →
    exec (.commandFinish tile id) s = .next (((s.matrixWrite c).dropCmd tile id).wakeFor c.wave tile id)) ∧
  (∀ s tile id c, s.cmd? tile id = some c → c.state = .accepted → s.verdict tile c = .ready → c.isCopy = true → c.sentAll = false →
    let s1 := (c.rowsLeft.foldl (fun s r => s.moveRow tile c r) s).modCmd tile id fun c => { c with sentAll := true }
    s1.cmdReqs tile id = [] →
    exec (.commandFinish tile id) s = .next ((s1.copyDone tile c).wakeFor c.wave tile id)) ∧
  (∀ (s : State) (c : Cmd) i j, c.form.atype ≠ .f64 → i < 32 → j < (s.wave c.wave).width.lanes →
    c.wave < s.waves.length → (s.wave c.wave).threads.length = (s.wave c.wave).width.lanes →
    let key (d : W64) (b : Nat) : Nat :=
      match s.scratchPlace (s.wave c.wave).ctx (Desc.of d).ltile with
      | some p => p.key b
      | none => sliceKey (s.wave c.wave).tile b
    (((s.matrixWrite c).wave c.wave).thread j).v (c.form.d.toNat + i) = BitVec.ofNat 32 (s.matResult c key i j))

/-- R215: `cwait` goes on where the wave has no unfinished command of those it names, and else waits. R217 to R220: the tensor-table
instructions, where their checks pass. -/
def Obligations.CommandWaitAndTensorTable : Prop :=
  (∀ f s sl, Issues (.cwait f) s sl →
    let g := s.groupOf (.cwait f) sl
    let named (c : Cmd) : Bool := !f.one || (c.isCopy && c.form.tid == f.tid)
    (s.issued g).failedCmd g.w named = none →
    ((∀ c ∈ (s.issued g).waveCmds g.w, named c = true → c.state ≠ .accepted) →
      ∃ t, exec (.cwait f) s = .next t ∧ Kept g [] 0 s t) ∧
    ((∃ c ∈ (s.issued g).waveCmds g.w, named c = true ∧ c.state = .accepted) →
      exec (.cwait f) s = .next (s.after g fun s =>
        g.lanes.foldl (fun s l => s.block g l (.cwait (if f.one then some f.tid.toNat else none))) s))) ∧
  (∀ f s sl ps pad, Issues (.tset f) s sl →
    let g := s.groupOf (.tset f) sl
    let s1 := s.issued g
    let img := BitVec.ofNat 512 (ofBytes (s1.load ps pad))
    g.lanes ≠ [] → s1.reach (s1.whoFor g g.head 0 .dev) (lo64 (g.a g.head)).toNat 64 64 .read = .ok ps pad →
    (s1.count ps).tsetCheck ((s1.count ps).waveWorld g.w) ((s1.count ps).entryOf g.w f.tid.toNat) img = none →
    exec (.tset f) s = .next (s.after g fun s => (s.count ps).setTensor g.src.ctx f.tid.toNat
      (tsetEntry (s.waveWorld g.w) (s.entryOf g.w f.tid.toNat) img))) ∧
  (∀ f s sl ps pad, Issues (.tget f) s sl →
    let g := s.groupOf (.tget f) sl
    let s1 := s.issued g
    let e := s1.entryOf g.w f.tid.toNat
    g.lanes ≠ [] → s1.reach (s1.whoFor g g.head 1 .dev) (lo64 (g.a g.head)).toNat 64 64 .write = .ok ps pad →
    (tFmt e = 0 ∨ tWorld e = s1.waveWorld g.w) →
    ∃ t, exec (.tget f) s = .next t ∧ t.mem = Memory.writePieces s.mem ps (toBytes e.toNat 64) ∧ sameOutside ps s t ∧
      Kept g [] 0 s (t.withMemoryOf s)) ∧
  (∀ f s sl, Issues (.tseal f) s sl →
    let g := s.groupOf (.tseal f) sl
    let s1 := s.issued g
    let e := s1.entryOf g.w f.tid.toNat
    g.lanes ≠ [] → tFmt e ≠ 0 → tWorld e = s1.waveWorld g.w → ((s1.world (tWorld e)).sealKeys.any fun k => k.1 == tKey e) = true →
    exec (.tseal f) s = .next (s.after g fun s => s.setTensor g.src.ctx f.tid.toNat (e ||| BitVec.ofNat 512 (2 ^ 52)))) ∧
  (∀ f s sl, Issues (.publ f) s sl →
    let g := s.groupOf (.publ f) sl
    let s1 := s.issued g
    let e := s1.entryOf g.w f.tid.toNat
    g.lanes ≠ [] → tFmt e ≠ 0 → tWorld e = s1.waveWorld g.w →
    (∀ c ∈ s1.waveCmds g.w, c.kind = .cpyw → c.form.tid ≠ f.tid) →
    exec (.publ f) s = .next (s.after g fun s => s.setTensor g.src.ctx f.tid.toNat (tPublished e))) ∧
  (∀ (s : State) c tid e x, s.ctx? c = some x → ((s.setTensor c tid e).ctx? c).map (fun y => y.tensor tid) = some e) ∧
  (∀ e : BitVec 512, tVersion (tPublished e) = (tVersion e + 1) % 2 ^ 48 ∧ tSide (tPublished e) = !tSide e)

/-- R285, R286: a sector of a page arrives in a free frame, or in the frame the page already has: its bytes are those at the page's home,
its SMASK bit is set, the page is PRESENT with the last, and the lanes that waited for the sector go on; where the home is a node that
PAGE packets reach, the packets bring the bytes first. R286, R294: a page that nothing exempts departs: what was written goes home, its
frame is free, and the lanes that waited for it look again, at once or once PAGE packets have taken the bytes; above the high mark the
cold pages of a world depart (here: a world's one cold page), and a stack's counters are halved after 2^20 accesses (R293, R294). That PAGE
packets bring and take the bytes where they reach the home, and that an unreached home's bytes move at once, is the model's choice (log 52),
and so is what a page without a home reads as (log 2). -/
def Obligations.PagesArriveAndDepart : Prop :=
  (∀ (s : State) page sector frame,
    let e := s.frameOf page
    let m : W32 := (if e.state = .absent then 0 else e.smask) ||| BitVec.ofNat 32 (2 ^ sector)
    Memory.wf s.home → e.v = true → e.direct = false → sector < 32 →
    (s.nextSector page e = none ∨ s.nextSector page e = some sector) →
    (e.state = .absent ∧ s.frameFree page frame = true ∨ e.state = .arriving ∧ e.frame = frame) →
    (s.homeReached e = false → ∃ t, exec (.pageSectorArrival page sector frame) s = .next t ∧
      t.frameOf page = { e with frame := frame, smask := m, state := if m = BitVec.allOnes 32 then .present else .arriving } ∧
      (∀ i, i < 2048 → Memory.byte t.mem (frame * 65536 + sector * 2048 + i) =
        if e.hkind = 0 then emptyByte else Memory.byte s.home (homeKey e (sector * 2048) + i)) ∧
      ∀ w l, (s.thread w l).wait = .page page sector → goesOn t w l) ∧
    (s.homeReached e = true → (page, sector, frame) ∉ s.fabric.coming → ∃ t, exec (.pageSectorArrival page sector frame) s = .next t ∧
      t.fabric.coming = s.fabric.coming ++ [(page, sector, frame)] ∧ t = { s with fabric := t.fabric })) ∧
  (∀ (s : State) page,
    let e := s.frameOf page
    Memory.wf s.mem → Memory.wf s.home → s.exempt page = false → e.v = true → e.hkind ≠ 0 → e.state = .present →
    ((s.dirty.contains e.frame && s.homeReached e) = false → ∃ t, exec (.pageDepart page) s = .next t ∧
      t.frameOf page = { e with state := .absent, smask := 0, frame := 0 } ∧ t.mem = s.mem ∧
      (s.dirty.contains e.frame = false → t.home = s.home) ∧
      (s.dirty.contains e.frame = true → ∀ i, i < 65536 → e.smask.getLsbD (i / 2048) = true →
        Memory.byte t.home (homeKey e 0 + i) = Memory.byte s.mem (e.frame * 65536 + i)) ∧
      ∀ w l k, (s.thread w l).wait = .page page k → goesOn t w l) ∧
    ((s.dirty.contains e.frame && s.homeReached e) = true → ∃ t, exec (.pageDepart page) s = .next t ∧
      t.frameOf page = { e with state := .departing } ∧ t.mem = s.mem ∧ t.home = s.home)) ∧
  (∀ (s : State) world page, s.overHigh world = true → s.coldPages world = [page] →
    (s.world world).low * s.worldFrames world ≤ 100 * (s.framedPages world).length →
    exec (.watermarkDeparture world) s = .next (s.depart page)) ∧
  (∀ (s : State) stack, stack < s.stackCount.length → 2 ^ 20 ≤ s.stackCount.getD stack 0 →
    Sparse.wf (0 : BitVec 16) s.counters = true →
    ∃ t, exec (.counterHalving stack) s = .next t ∧ t.stackCount.getD stack 0 = s.stackCount.getD stack 0 - 2 ^ 20 ∧
      ∀ frame, Sparse.get 0 t.counters frame =
        if frame * 65536 / 2 ^ 36 = stack then BitVec.ofNat 16 ((Sparse.get 0 s.counters frame).toNat / 2)
        else Sparse.get 0 s.counters frame)

/-- R290, R317, R291: the answer to a fault record leaves the die's ANSWER register, takes the record from the queue, and lets its waiters
go on or traps them, but for those that the reply proxy keeps it for. A private space grows or its lane stops: by how much it grows, and that
it ends where the next one begins, are choices of the model (log 79, log 9). A page-table entry that names a page of the world's grant is
written under an invalidation, which waits for accesses that are at another node; a frame-map entry of a page of the grant takes its home, V,
DIRECT and WG from the word written, and keeps STATE, FRAME and SMASK (R284, R353). R27, R295, R170: a code record whose pages have come
becomes BOUND and the lanes that waited for it go on, where the requester's record passes its check; where binding fails it is UNBOUND again
and they trap. -/
def Obligations.FaultsAreAnsweredAndCodeBound : Prop :=
  (∀ (s : State) die seq fix r, (s.die die).faultq.find? (fun x => x.seq == seq) = some r → r.kind = .frame → die < s.dies.length →
    ∃ t, exec (.faultAnswer die seq .resolved fix) s = .next t ∧ (t.die die).answer = BitVec.ofNat 64 seq.toNat ∧
      ((∀ p ∈ s.prefetches, p.die = die → p.seq ≠ seq) → ∀ x ∈ (t.die die).faultq, x.seq ≠ seq) ∧
      ∀ w l, (s.thread w l).wait = .fault die seq →
        if s.proxied w then (⟨w, .faultAnswer die seq .resolved none⟩ : Proxied) ∈ t.proxy else goesOn t w l) ∧
  (∀ (s : State) die seq fix r st, (s.die die).faultq.find? (fun x => x.seq == seq) = some r → r.kind = .map → st ≠ .resolved →
    ∃ t, exec (.faultAnswer die seq st fix) s = .next t ∧
      ∀ w l, (s.thread w l).wait = .fault die seq → s.proxied w = false → (t.thread w l).wait = .trapped) ∧
  (∀ (s : State) w l die seq r, (s.thread w l).wait = .fault die seq → (s.thread w l).status = .live →
    (s.die die).faultq.find? (fun x => x.seq == seq && x.kind == .priv) = some r →
    let size := max ((s.thread w l).psize + 65536) ((r.va.toNat % 2 ^ 60 / 65536 + 1) * 65536)
    (size ≤ privStride → ((s.wave w).lowest = l ∨ (s.thread w (s.wave w).lowest).psize + 65536 ≤ privStride) →
      ∃ t, exec (.privateGrowth w l true) s = .next t ∧ goesOn t w l ∧ (t.thread w l).psize = size) ∧
    (privStride < size → ∃ t, exec (.privateGrowth w l true) s = .next t ∧ (t.thread w l).wait = .backing) ∧
    (∃ t, exec (.privateGrowth w l false) s = .next t ∧ (t.thread w l).wait = .backing)) ∧
  (∀ (s : State) ctx c (va leaf : W64) a level, s.inFlight ctx = false → s.ctx? ctx = some c →
    ((c.tableOf va.toNat).bind fun root => s.entryPlace (va.toNat % 2 ^ 60) walkLevels root) = some (a, level) →
    s.entryMay c level leaf = true →
    exec (.translationInvalidate ctx (some va) ⟨some leaf, none⟩) s = .next (s.poke a (toBytes leaf.toNat 8))) ∧
  (∀ (s : State) ctx page entries, s.inFlight ctx = true → ∃ t, exec (.translationInvalidate ctx page entries) s = .next t ∧
    t.pkg.waiting = s.pkg.waiting ++ [.translationInvalidate ctx page entries] ∧ t = { s with pkg := t.pkg }) ∧
  (∀ (s : State) ctx c page (w : W128), s.inFlight ctx = false → s.ctx? ctx = some c →
    w.extractLsb' 124 4 = 0 → w.extractLsb' 56 3 = 0 → w.extractLsb' 122 2 ≠ 3 →
    let e := s.frameOf page
    exec (.translationInvalidate ctx none ⟨none, some (page, w)⟩) s = .next (if s.granted c.world (page * 65536) 65536 = true then
        s.setFrame page { frameWord w with state := e.state, frame := e.frame, smask := e.smask }
      else s)) ∧
  (∀ (s : State) ctx obj r, s.recOf ctx obj = some r → r.state = .binding →
    (∀ d ∈ s.deliveries, d.name = nameBind → s.badRecord d = none) →
    ((∀ p ∈ r.pages, (s.frameOf p).state = .present) →
      ∃ t, exec (.codeBind ctx obj true) s = .next t ∧ (t.recOf ctx obj).map (·.state) = some .bound ∧
        ∀ w l, (s.thread w l).wait = .binding ctx obj → goesOn t w l) ∧
    ∃ t, exec (.codeBind ctx obj false) s = .next t ∧ (t.recOf ctx obj).map (·.state) = some .unbound ∧
      ∀ w l, (s.thread w l).wait = .binding ctx obj → (t.thread w l).wait = .trapped)

/-- R297, R298, R303: retention and its exit; a corrected error is logged and changes nothing else, an uncorrectable one poisons its line
or register; a lane that waited for arrays of the package performs its access again. -/
def Obligations.RetentionSoftErrorsAndRetries : Prop :=
  (∀ (s : State) tile, tile < s.tiles.length → s.occupied tile = false →
    exec (.retentionEntry tile) s = .next (s.modTile tile fun x => { x with retention := .retained })) ∧
  (∀ (s : State) tile, tile < s.tiles.length →
    ∃ t, exec (.retentionExit tile) s = .next t ∧ (t.tile tile).retention = .normal ∧
      ∀ w l, (s.thread w l).wait = .array tile → goesOn t w l) ∧
  (∀ (s : State) array place, array ≠ .cleanLine →
    exec (.softError array place 1) s = .next { s with pkg := { s.pkg with log := s.pkg.log ++ [.correctedError array place] } }) ∧
  (∀ (s : State) array place bits, array ≠ .cleanLine → array ≠ .regfile → 3 ≤ bits →
    ∃ t, exec (.softError array place bits) s = .next t ∧ place ∈ t.poison ∧ (∀ p ∈ s.poison, p ∈ t.poison) ∧
      t = { s with poison := t.poison, pkg := { s.pkg with log := s.pkg.log ++ [.uncorrectable array place] } }) ∧
  (∀ (s : State) w l r bits, l < 128 → r < 1024 → 3 ≤ bits →
    ∃ t, exec (.softError .regfile (w * 2 ^ 17 + l * 2 ^ 10 + r) bits) s = .next t ∧ t.regPoison = s.regPoison ++ [(w, l, r)]) ∧
  (∀ (s : State) w l tile, (s.thread w l).wait = .array tile →
    (∃ t, exec (.sliceRetry w l) s = .next t ∧ goesOn t w l) ∧ ∃ t, exec (.memoryReply w l) s = .next t ∧ goesOn t w l)

/-- R256, R368, R369, R373: a record that passes its checks, for this package alone, becomes a committed launch under the next handle with its
share of teams, and is answered OK, under the request's ID where a host submitted it; one that a check refuses is answered with the check's
number and changes nothing else; a host's record waits behind the accesses through its port's windows that came before it. R259, R260: a share
all of whose teams have ended is complete, with the first error where one ended with an error, and with its pennant raised where none did.
-/
def Obligations.LaunchesAreSubmittedAndComplete : Prop :=
  (∀ (s : State) world r d h, s.checkRecord world r = .ok (d, h) → recPkgn r = 1 → recPkg0 r = s.fabric.node →
    ∃ t x, exec (.launchSubmit world r) s = .next t ∧ t.launches = s.launches ++ [x] ∧ x.record = r ∧ x.header = h ∧
      x.handle = s.pkg.nextHandle ∧ x.committed = true ∧ x.eligible = false ∧ x.teams.length = (s.shareTeams r).length ∧
      t.pkg.replies = s.pkg.replies ++
        [{ port := none, fn := none, id := none, op := 2, status := 0, aux := 0, value := BitVec.ofNat 64 s.pkg.nextHandle, body := [] }]) ∧
  (∀ (s : State) (q : HostReq) r d h, s.behindWindow q.port (.launchRecord q.port ⟨q.fn, q.id⟩ r) = false →
    s.checkRecord (fnWorld q.fn) r = .ok (d, h) →
    recPkgn r = 1 → recPkg0 r = s.fabric.node →
    ∃ t x, exec (.launchRecord q.port ⟨q.fn, q.id⟩ r) s = .next t ∧ t.launches = s.launches ++ [x] ∧ x.record = r ∧ x.host = some q ∧ x.hostOp = 2 ∧
      t.pkg.replies = s.pkg.replies ++
        [{ port := some q.port, fn := some q.fn, id := some q.id, op := 2, status := 0, aux := 0
           value := BitVec.ofNat 64 s.pkg.nextHandle, body := [] }]) ∧
  (∀ (s : State) (q : HostReq) r, s.behindWindow q.port (.launchRecord q.port ⟨q.fn, q.id⟩ r) = true →
    ∃ t, exec (.launchRecord q.port ⟨q.fn, q.id⟩ r) s = .next t ∧ .launchRecord q.port ⟨q.fn, q.id⟩ r ∈ t.pkg.waiting ∧
      t = { s with pkg := { s.pkg with waiting := t.pkg.waiting } }) ∧
  (∀ (s : State) world r k, s.checkRecord world r = .error k →
    exec (.launchSubmit world r) s = .next (s.reply none 2 1 (BitVec.ofNat 32 k) 0 [])) ∧
  (∀ (s : State) i l e, s.launches[i]? = some l → l.eligible = true → l.completion = none → s.shareEnded l = true →
    l.firstError = some e →
    ∃ t sh, exec (.shareComplete i) s = .next t ∧
      t.launches[i]? = some { l with completion := some (.error e), resident := false, shares := sh } ∧ t.mem = s.mem) ∧
  (∀ (s : State) i l, s.launches[i]? = some l → l.eligible = true → l.completion = none → s.shareEnded l = true →
    l.firstError = none → recCaddr l.record = 0 →
    ∃ t sh, exec (.shareComplete i) s = .next t ∧
      t.launches[i]? = some { l with completion := some .ok, resident := false, shares := sh } ∧ t.mem = s.mem) ∧
  (∀ (s : State) i l ps pad, s.launches[i]? = some l → l.eligible = true → l.completion = none → s.shareEnded l = true →
    l.firstError = none → recCaddr l.record ≠ 0 → (∀ r ∈ s.fabric.reqs, r.use ≠ .word i caddrField) →
    s.access { launchWho l 3 with fabric := l.scopeOf == .fabric } (recCaddr l.record) 8 8 .rmw = .ok ps pad →
    ∃ t sh, exec (.shareComplete i) s = .next t ∧
      t.launches[i]? = some { l with completion := some .ok, resident := false, shares := sh } ∧
      t.mem = Memory.writePieces s.mem ps (toBytes ((ofBytes (s.load ps pad) + 1) % 2 ^ 64) 8))

/-- R258, R261: a committed launch whose dependences have reached their thresholds is eligible in its own queue, at the end of its die's
order; one that holds undispatched teams and has had no grant for 2^18 cycles moves to the next higher queue. R261 to R265: the placements of a round are made where they
are those of the round and each team fits at its place, and none is made else; a team whose save areas are poisoned ends where it is
placed (R169, R273); a die tells the others of its free slots; a team moves to a die that accepts it. -/
def Obligations.LaunchesAreQueuedAndTeamsPlaced : Prop :=
  (∀ (s : State) i l, s.launches[i]? = some l → l.committed = true → l.eligible = false → l.completion = none →
    s.named l.record = true → s.badDep l = none → s.depsMet l = true → l.die < s.dies.length →
    ∃ t, exec (.launchEligibility i) s = .next t ∧
      t.launches[i]? = some { l with eligible := true, age := 0, queue := recPrio l.record } ∧
      (t.die l.die).order = (s.die l.die).order ++ [i]) ∧
  (∀ (s : State) i l, s.launches[i]? = some l → (∃ team ∈ l.all, (s.team team).state = .waiting) → 2 ^ 18 ≤ l.age → l.queue < 7 →
    ∃ t, exec (.launchAging i) s = .next t ∧ t.launches[i]? = some { l with queue := l.queue + 1, age := 0 } ∧
      t = { s with launches := t.launches }) ∧
  (∀ (s s' : State) die ps, s.round die (takeGiven die) ps = some (s', []) → exec (.dispatchRound die ps) s = .next s') ∧
  (∀ (s : State) die ps, (∀ s', s.round die (takeGiven die) ps ≠ some (s', [])) → exec (.dispatchRound die ps) s = .next s) ∧
  (∀ (s : State) die (p : Placement), (s.dieReach die p.team).contains (p.tile / 48) = true → s.fits p.team p.tile p.bank = true →
    takeGiven die s [p.team] [p] = some (s.place p, [])) ∧
  (∀ (s : State) (p : Placement) l k n, p.team < s.teams.length → s.launchOf p.team = some l → (s.team p.team).state = .woken →
    (s.team p.team).context = some (k, n) → n ≠ 0 → k + n ≤ 2 ^ 52 → s.poisoned [(k, n)] = true →
    ((s.place p).team p.team).state = .ended) ∧
  (∀ (s : State) (p : Placement) l, p.team < s.teams.length → s.launchOf p.team = some l → (s.team p.team).context = none →
    let x := (s.place p).team p.team
    x.state = .resident ∧ x.tile = p.tile ∧ x.bank = p.bank ∧ x.nbank = l.header.banks ∧ x.placed = true) ∧
  (∀ (s : State) die d a, d < s.dies.length → d ≠ die → a ∈ s.advertsOf die →
    ∃ t, exec (.freeSlotAdvert die) s = .next t ∧ a ∈ (t.die d).adverts) ∧
  (∀ (s : State) team die, team < s.teams.length → die < 4 → s.mayMove team die = true →
    ∃ t, exec (.teamTransfer team die true) s = .next t ∧ (t.team team).die = die ∧ (t.team team).state = (s.team team).state)

/-- R271 to R273, R16, R259, R170, R364: a team that may become becalmed leaves its tile with its region copied to memory and its context written
beside it, its save areas first, what lay in its backing store among them; one whose backing store does not restore ends. One that wakes is
queued on its die; a team that is ended leaves its tile and is reported in the device log and on its world's console. The layout of a context
after the save areas and the form of the console's line are choices of the model (log 19, log 89). -/
def Obligations.TeamsCalmWakeAndEnd : Prop :=
  (∀ (s : State) team (page context : BitVec 52) l, s.launchOf team = some l → s.calm team = true →
    s.copyOk l.world page.toNat (s.team team).nbank = true →
    s.contextOk l.world context.toNat (s.contextBytes team).length = true → Memory.wf s.mem →
    (s.refileTeam team = none → exec (.becalm team ⟨page, context⟩) s = .next (s.reportEnd team (.trap .poison l.entry))) ∧
    ∀ s1, s.refileTeam team = some s1 →
    let areas := s1.contextBytes team
    ∃ t, exec (.becalm team ⟨page, context⟩) s = .next t ∧ (t.team team).state = .becalmed ∧ (t.team team).placed = false ∧
      (t.team team).context = some (context.toNat, areas.length) ∧
      (∀ w ∈ (s.team team).waves, w < s.waves.length → (t.wave w).resident = false) ∧
      (∀ i, i < areas.length → Memory.byte t.mem (context.toNat + i) = areas.getD i 0) ∧
      ∀ i, i < (s.team team).nbank * 16384 → (page.toNat + i < context.toNat ∨ context.toNat + areas.length ≤ page.toNat + i) →
        Memory.byte t.mem (page.toNat + i) = Memory.byte s.mem (sliceKey (s.team team).tile ((s.team team).bank * 16384) + i)) ∧
  (∀ (s : State) team, s.wakes team = true → (s.team team).die < s.dies.length →
    ∃ t, exec (.teamWake team) s = .next t ∧ (t.team team).state = .woken ∧
      (t.die (s.team team).die).woken = (s.die (s.team team).die).woken ++ [team]) ∧
  (∀ (s : State) team reason, (s.team team).state ≠ .ended →
    ∃ t, exec (.teamEnd team reason) s = .next t ∧ (t.team team).state = .ended ∧ (t.team team).outcome = some reason ∧
      (∀ w ∈ (s.team team).waves, w < s.waves.length → (t.wave w).resident = false) ∧
      t.pkg.log = s.pkg.log ++ [.teamEnd (s.team team).launch (s.team team).index reason] ∧
      ∀ l, s.launchOf team = some l → l.world < s.worlds.length →
        (t.world l.world).console = (s.world l.world).console ++ endLine l.handle (s.team team).index reason)

/-- R149, R266, R267, R22: an issue cycle fills at most two slots, with groups of waves of its partition, passes the turn on, and with
partition 0 the tile's clock counts; a pending wave joins the active set. The order of the partitions and the leaving of a wave by force
are choices of the model (log 10, log 28). -/
def Obligations.CyclesIssueAndExchange : Prop :=
  (∀ (s : State) tile part, (s.tile tile).clock = .running → tile < s.tiles.length →
    ∃ t, exec (.issueCycle tile part) s = .next t ∧ t.turn = (tile * 6 + part + 1) % 1152 ∧ t.slots.length ≤ 2 ∧
      (∀ sl ∈ t.slots, (s.wave sl.wave).resident = true ∧ (s.wave sl.wave).tile = tile ∧ (s.wave sl.wave).part = part) ∧
      (t.tile tile).cycle = if part = 0 then (s.tile tile).cycle + 1 else (s.tile tile).cycle) ∧
  (∀ (s : State) tile part, (s.tile tile).clock ≠ .running →
    let next : State := { s with turn := (tile * 6 + part + 1) % 1152 }
    exec (.issueCycle tile part) s = .next (if part = 0 ∧ tile % 48 = 0 then next.dispatcherCycle (tile / 48) else next)) ∧
  (∀ (s : State) tile part out w, s.exchange tile part = some (out, w) →
    ∃ t, exec (.activeSetExchange tile part) s = .next t ∧ (out = none → (t.wave w).active = true) ∧
      (∀ x, out = some x → (t.wave x).active = false) ∧ t = { s with waves := t.waves })

/-- R170: a delivery of a call whose service has results is answered: its record is restored and the results stand in `vP` and up, or its
team ends with the record's trap where the record fails its check; one of a performed effect that no frame handles, or of a trap, ends its
team. The six OBJECT actions and the services have operations of their own, which do the same for a delivery of their name. R374: a delivery
waits while the ring of its die is full; that it waits outside it is the model's choice (log 86). R170: what answering a delivery does to its lane: it resumes at its record's PC and
waits no longer, its delivery is gone, and its registers hold the results from `vP` up and the record's registers elsewhere. -/
def Obligations.DeliveriesAreAnswered : Prop :=
  (∀ (s s' : State) w l d res, s.deliveryOf w l = some d → s.inRing d = true → d.kind = 2 → s.systemService d = some (s', res) → res ≠ [] →
    exec (.serviceDelivery w l) s = .next (match s'.badRecord d with
      | none => s'.serveDone d res
      | some k => s'.reportEnd (s'.wave d.wave).team (.trap k d.pc))) ∧
  (∀ (s : State) w l d, s.deliveryOf w l = some d → s.inRing d = false → exec (.serviceDelivery w l) s = .next s) ∧
  (∀ (s : State) w l d, s.deliveryOf w l = some d → s.inRing d = true → d.kind ≠ 2 → TrapKind.ofCode d.name = none →
    exec (.serviceDelivery w l) s = .next (s.reportEnd (s.wave d.wave).team (.unhandled d.name))) ∧
  (∀ (s : State) w l d k, s.deliveryOf w l = some d → s.inRing d = true → d.kind ≠ 2 → TrapKind.ofCode d.name = some k →
    exec (.serviceDelivery w l) s = .next (s.reportEnd (s.wave d.wave).team (.trap k d.src))) ∧
  (∀ (s s' : State) w l d res (i : Instr) (name : W32) (svc : State → Delivery → Served),
    (i, name, svc) ∈ [(Instr.svcLaunch w l, nameLaunch, State.serveLaunch), (.svcAlloc w l, nameAlloc, State.serveAlloc),
      (.svcConsole w l, nameConsole, State.serveConsole)] →
    s.deliveryOf w l = some d → s.inRing d = true → d.kind = 2 → d.name = name → svc s d = some (s', res) → res ≠ [] → s'.badRecord d = none →
    exec i s = .next (s'.serveDone d res)) ∧
  (∀ (s s' : State) w l d res (i : Instr) (action : Nat),
    (i, action) ∈ [(Instr.objectQuery w l, 0), (.objectEvict w l, 1), (.objectPin w l, 2), (.objectUnpin w l, 3),
      (.objectRetire w l, 4), (.objectMakeWritable w l, 5)] →
    s.deliveryOf w l = some d → s.inRing d = true → d.kind = 2 → d.name = nameObject → ((s.thread w l).v d.pb).toNat = action →
    s.serveObject d = some (s', res) → res ≠ [] → s'.badRecord d = none → exec i s = .next (s'.serveDone d res)) ∧
  (∀ (s : State) d res p r, s.tokenRecord d.wave d.lane d.token = some (p, r) → s.deliveries.Nodup →
    d.wave < s.waves.length → d.lane < (s.wave d.wave).threads.length →
    let t := s.serveDone d res
    (t.thread d.wave d.lane).pc = r.pc ∧ (t.thread d.wave d.lane).wait = .none ∧ d ∉ t.deliveries ∧
    (∀ k x, res[k]? = some x → (t.thread d.wave d.lane).v (d.pb + k) = x) ∧
    (∀ k x, (k < d.pb ∨ d.pb + res.length ≤ k) → r.regs[k]? = some x →
      (t.thread d.wave d.lane).v k = x.value d.lane (s.wave d.wave).width.block) ∧
    (t.thread d.wave d.lane).preds = r.preds ||| 1)

/-- R376, R377: a service whose pointer fails a check answers the check's status and does nothing else. CONSOLE appends the bytes to its
world's console; a size that is too large is malformed. OBJECT answers that an action does not exist or that a name has no object; else it
tells of the object's record, departs its pages, exempts, frees or retires it, or makes code writable: a query makes the record that is not
there, tells the access counters of the name's page and of the record with its state (R293; in which of the state's bytes, and the state's
code, are choices of the model, log 20), and answers that no range is left; departure is refused while a page is exempt, and where a page has no home; what has no record has
nothing to depart or to free; only code is made writable. -/
def Obligations.SystemServicesDoTheirWork : Prop :=
  (∀ (s : State) d ps,
    let n := ((s.thread d.wave d.lane).v (d.pb + 1)).toNat
    let w := s.waveWorld d.wave
    n ≤ 4096 → s.svcPtr d.wave d.lane ((s.thread d.wave d.lane).dv (d.pb + 2)).toNat n 1 .read = .ok ps →
    s.serveConsole d = some (s.modWorld w fun x => { x with console := x.console ++ Memory.readPieces s.mem ps }, [0])) ∧
  (∀ (s : State) d st,
    let n := ((s.thread d.wave d.lane).v (d.pb + 1)).toNat
    n ≤ 4096 → s.svcPtr d.wave d.lane ((s.thread d.wave d.lane).dv (d.pb + 2)).toNat n 1 .read = .bad st →
    s.serveConsole d = some (s, [BitVec.ofNat 32 st])) ∧
  (∀ (s : State) d, 4096 < ((s.thread d.wave d.lane).v (d.pb + 1)).toNat → s.serveConsole d = some (s, [4])) ∧
  (∀ (s : State) d st,
    let t := s.thread d.wave d.lane
    s.svcPtr d.wave d.lane (t.dv (d.pb + 2)).toNat 64 16 (if (t.v d.pb).toNat = 0 then .rmw else .read) = .bad st →
    s.serveObject d = some (s, [BitVec.ofNat 32 st])) ∧
  (∀ (s : State) d ps,
    let t := s.thread d.wave d.lane
    let ctx := (s.wave d.wave).ctx
    let action := (t.v d.pb).toNat
    let found := (s.ctx? ctx).bind fun c => c.known (BitVec.ofNat 128 (ofBytes ((Memory.readPieces s.mem ps).take 16)))
    s.svcPtr d.wave d.lane (t.dv (d.pb + 2)).toNat 64 16 (if action = 0 then .rmw else .read) = .ok ps →
    (5 < action → s.serveObject d = some (s, [4])) ∧
    (action ≤ 5 → found = none → s.serveObject d = some (s, [10])) ∧
    (∀ e, found = some e →
      (∀ s1 r, s.needRec ctx e = some (s1, r) →
        (action = 0 → s.serveObject d = some (s1.store ps ((Memory.readPieces s1.mem ps).take 16 ++ toBytes r.base.toNat 8 ++
          toBytes r.extent 8 ++ toBytes (recStateCode (s1.recState r)) 2 ++
          toBytes ((r.pages[nameOff (BitVec.ofNat 128 (ofBytes ((Memory.readPieces s1.mem ps).take 16))) / 65536]?.map s1.pageCount).getD 0) 2 ++
          toBytes ((r.pages.map s1.pageCount).foldl (· + ·) 0) 4 ++ toBytes r.run 8 ++ (Memory.readPieces s1.mem ps).drop 48), [0])) ∧
        (action = 2 → s1.allPresent r.pages = true → s.serveObject d = some (s1.pinPages ctx r.pages, [0])) ∧
        (action = 2 → s1.allPresent r.pages = false → s.serveObject d =
          (s1.bringIn (.serviceDelivery d.wave d.lane) (s.who d.wave d.lane 0) r.pages).map fun s2 => (s2, [])) ∧
        (action = 5 → e.kind = 2 →
          s.serveObject d = some ((s1.setRec ctx e.obj fun r => { r with writable := true }).mapRec ctx e.obj, [0]))) ∧
      (action ∈ [0, 2] ∨ action = 5 ∧ e.kind = 2 → s.needRec ctx e = none → s.serveObject d = some (s, [9])) ∧
      (action ∈ [1, 3] → s.recOf ctx e.obj = none → s.serveObject d = some (s, [0])) ∧
      (action = 4 → s.serveObject d = some ((s.retire ctx e.obj).sequence, [0])) ∧
      (action = 5 → e.kind ≠ 2 → s.serveObject d = some (s, [5])) ∧
      ∀ r, s.recOf ctx e.obj = some r →
        (action = 1 → (∃ p ∈ r.pages, s.exempt p = true) → s.serveObject d = some (s, [7])) ∧
        (action = 1 → (∀ p ∈ r.pages, s.exempt p = false) → (∃ p ∈ r.pages, (s.frameOf p).hkind = 0) →
          s.serveObject d = some (s, [5])) ∧
        (action = 1 → (∀ p ∈ r.pages, s.exempt p = false ∧ (s.frameOf p).hkind ≠ 0) →
          let s1 := r.pages.foldl State.depart s
          (s1.allAbsent r.pages = true → s.serveObject d = some (s1, [0])) ∧
          (s1.allAbsent r.pages = false → s.evictDue r.pages = true → s.serveObject d = some (s1, []))) ∧
        (action = 3 → s.serveObject d = some (s.unpinPages ctx r.pages, [0]))))

/-- R299 to R302: a command to an idle unit: FREEZE and RESTORE are under way with the clock stopped, STOP stops a running clock, START
lets a stopped tile run, QUIESCE ends the partitions' teams, DISCARD marks an image; STATUS says how it ended. R302, R309, R311, R312: the
end of a FREEZE leaves the tile's waves in an image under the package's next identity and the tile idle; the end of a RESTORE lets the
tile run with STATUS DONE and its image never to be restored again; a comparator stops its tile before the instruction at its PC issues.
That an image outside the local HBM of world 0 writes no byte, with STATUS DONE all the same, is the model's choice (log 83). -/
def Obligations.FreezeUnitsTakeAndPutImages : Prop :=
  (∀ (s : State) tile, tile < s.tiles.length → (s.tile tile).busy = false →
    (∀ image : BitVec 52, ∃ t, exec (.freeze tile image) s = .next t ∧ (t.tile tile).busy = true ∧ (t.tile tile).clock = .frozen ∧
      (t.tile tile).fzOp = 1 ∧ t = { s with tiles := t.tiles } ∧ ∀ k, k ≠ tile → t.tile k = s.tile k) ∧
    (∃ t, exec (.stop tile) s = .next t ∧ (t.tile tile).status = 0 ∧ t = { s with tiles := t.tiles } ∧
      (t.tile tile).clock = if (s.tile tile).clock = .running then .stopped else (s.tile tile).clock) ∧
    (∃ t, exec (.start tile) s = .next t ∧ (t.tile tile).status = 0 ∧
      (t.tile tile).clock = if (s.tile tile).clock = .stopped then .running else (s.tile tile).clock) ∧
    (∀ pmask, ∃ t, exec (.quiesce tile pmask) s = .next t ∧ (t.tile tile).status = 0 ∧ (t.tile tile).clock = (s.tile tile).clock ∧
      ∀ w, w < s.waves.length → (s.wave w).resident = true → (s.wave w).tile = tile → pmask.getLsbD (s.wave w).part = true →
        w ∈ (s.team (s.wave w).team).waves → (s.team (s.wave w).team).state ≠ .ended → (t.wave w).resident = false) ∧
    (∀ (image : BitVec 52) x, image.toNat % 4096 = 0 → s.image? image.toNat (s.headerId image.toNat) = some x →
      ∃ t, exec (.discard tile image) s = .next t ∧ (t.tile tile).status = 0 ∧
        t.pkg.consumed = if s.pkg.consumed.contains x.freezeId then s.pkg.consumed else s.pkg.consumed ++ [x.freezeId]) ∧
    (∀ (image : BitVec 52), image.toNat % 4096 = 0 → (s.tile tile).retention = .normal →
      ∃ t, exec (.restore tile image) s = .next t ∧
        match s.restoreCheck tile image.toNat with
        | none => (t.tile tile).busy = true ∧ (t.tile tile).clock = .restoring ∧ (t.tile tile).fzOp = 3
        | some st => (t.tile tile).status = st ∧ (t.tile tile).clock = (s.tile tile).clock ∧ t.waves = s.waves)) ∧
  (∀ (s : State) tile, tile < s.tiles.length → (s.tile tile).busy = true → (s.tile tile).fzOp = 1 →
    ∃ t x, exec (.freezeDone tile) s = .next t ∧ t.images = s.images ++ [x] ∧ x.freezeId = s.pkg.nextFreeze ∧
      x.waves = s.tileWaves tile ∧ (∀ w ∈ x.waves, (t.wave w).resident = false) ∧
      (t.tile tile).busy = false ∧ (t.tile tile).status = 0 ∧ (t.tile tile).freezeId = s.pkg.nextFreeze ∧
      t.pkg.nextFreeze = s.pkg.nextFreeze + 1 ∧
      let a := x.addr.toNat
      let n := (imageBytes x ((s.tileReqs tile).flatMap fun r => toBytes (s.ortEntry tile r) 32) (s.tileReqs tile).length s.free.1).length
      let fits := s.isLocal a = true ∧ s.isLocal (a + n - 1) = true ∧ s.granted 0 a n = true
      (Memory.wf s.mem → fits → t.headerId a = x.freezeId) ∧ (¬ fits → t.mem = s.mem)) ∧
  (∀ (s : State) tile x, tile < s.tiles.length → (s.tile tile).busy = true → (s.tile tile).fzOp = 3 →
    s.image? (s.tile tile).fzImage.toNat (s.headerId (s.tile tile).fzImage.toNat) = some x →
    (s.pkg.consumed.contains x.freezeId = false →
      ∃ t, exec (.restoreDone tile) s = .next t ∧ (t.tile tile).busy = false ∧ (t.tile tile).status = 0 ∧
        (t.tile tile).clock = .running ∧ (t.tile tile).freezeId = x.freezeId ∧ t.pkg.consumed = s.pkg.consumed ++ [x.freezeId]) ∧
    (s.pkg.consumed.contains x.freezeId = true →
      ∃ t, exec (.restoreDone tile) s = .next t ∧ (t.tile tile).busy = false ∧ (t.tile tile).status = fzConsumed ∧
        (t.tile tile).clock = .running ∧ t.pkg.consumed = s.pkg.consumed ∧ t.mem = s.mem)) ∧
  (∀ (s : State) tile part n, tile < s.tiles.length → (s.tile tile).clock = .running → n < 4 → part < 6 →
    s.matched tile part n = true →
    ∃ t, exec (.fzpcStop tile n) s = .next t ∧ (t.tile tile).clock = .stopped ∧ (t.tile tile).freezeId.extractLsb' 0 2 = BitVec.ofNat 2 n ∧
      t.waves = s.waves ∧ t.mem = s.mem)

/-- R6, R350, R351, R299, R312: a write to a word of a tile's world block is refused, and changes nothing but REFUSED, where its reserved
bits are not zero; a read of the last word gives REFUSED and clears it; zeroing ends; a write to a register of a freeze unit is that
command or comparator; and a read of control space gives the register's value, zero for the write-only one. -/
def Obligations.ControlSpaceWrites : Prop :=
  (∀ (s : State) tile off (v : W64), tile < s.tiles.length → off ∈ [0, 8, 16] →
    reservedWord off v = true →
    exec (.worldConfigWrite tile off v) s = .next (s.modTile tile fun x => { x with refused := true })) ∧
  (∀ (s : State) tile (v : W64), tile < s.tiles.length → v.toNat < 2 ^ 36 → (∀ p, p < 6 → s.partBusy tile p = false) →
    (∀ b, b < 32 → (s.tile tile).bankOwner b = ((s.tile tile).withWord 0 v).bankOwner b ∨ s.inRegion tile b = false) →
    ∃ t, exec (.worldConfigWrite tile 0 v) s = .next t ∧ (t.tile tile).pworld = v.setWidth 36 ∧
      (t.tile tile).bown0 = (s.tile tile).bown0 ∧ (t.tile tile).refused = (s.tile tile).refused) ∧
  (∀ (s : State) tile, tile < s.tiles.length →
    (∃ t, exec (.refusedRead tile) s = .next t ∧ t.tiles = (s.modTile tile fun x => { x with refused := false }).tiles ∧
      t.pkg.readback = (if (s.tile tile).refused then 1 else 0) ∧
      t = { s with tiles := t.tiles, pkg := { s.pkg with readback := t.pkg.readback } }) ∧
    ∃ t, exec (.arrayZeroingDone tile) s = .next t ∧ (t.tile tile).zeroing = [] ∧ (t.tile tile).zeroParts = [] ∧
      ∀ w l, (s.thread w l).wait = .array tile → goesOn t w l) ∧
  (∀ (s : State) die k n (v : W64), die < 4 → k < 48 → n < 4 → s.tiles.length = 192 → (s.tile (die * 48 + k)).fzpc.length = 4 →
    ∃ t, exec (.registerWrite (BitVec.ofNat 64 (0xF000000000100000 + die * 2 ^ 32 + k * 64 + 16 + n * 8)) v) s = .next t ∧
      (t.tile (die * 48 + k)).fzpc.getD n 0 = v ∧ t = { s with tiles := t.tiles }) ∧
  (∀ (s : State) die k, die < 4 → k < 48 →
    exec (.registerWrite (BitVec.ofNat 64 (0xF000000000100000 + die * 2 ^ 32 + k * 64)) 0x400) s = exec (.stop (die * 48 + k)) s) ∧
  (∀ (s : State) die k n, die < 4 → k < 48 → n < 4 →
    let unit := 0xF000000000100000 + die * 2 ^ 32 + k * 64
    let t := s.tile (die * 48 + k)
    s.readControl unit = (s, 0) ∧
    s.readControl (unit + 8) = (s, (if t.busy then (1 : BitVec 1) else 0) ++ t.status ++ (0 : BitVec 24) ++ t.freezeId) ∧
    s.readControl (unit + 16 + 8 * n) = (s, t.fzpc.getD n 0) ∧
    s.readControl (0xF000000000200000 + die * 2 ^ 32 + k * 32) = (s, t.pworld.setWidth 64))

/-- R364 to R370: a driver's features hold where it accepts VERSION_1 and nothing that is not offered; a request is taken from a queue that the
function has, and a message on a vsock's carries the operation that comes next, or is answered MALFORMED; a read of the ISR clears it. The
configuration semaphore is taken, given, and lost with its port's link or with a reset of function 0. A reset device answers the requests that
it has taken with RESET, forgets its features and its queues and, for a port of a world that is its own, the world. What the queues and the
FUSE fields are numbered is presumed (log 87). -/
def Obligations.DeviceFunctions : Prop :=
  (∀ (s : State) port fn (x : W64),
    (∃ t, exec (.featuresOk port fn x) s = .next t ∧ (t.fn port fn).features = x ∧
      ((t.fn port fn).featuresOk = true ↔ x.getLsbD 32 = true ∧ s.serves port fn = true ∧
        ∀ b, b < 64 → x.getLsbD b = true → b ∈ offered fn)) ∧
    (∃ t, exec (.isrStatusRead port fn) s = .next t ∧ t.fn port fn = { s.fn port fn with isr := 0 } ∧
      t.pkg.readback = (s.fn port fn).isr.setWidth 64) ∧
    (∀ q service m, (s.fn port fn).featuresOk = true → s.serves port fn = true → s.behindWindow port (.queueNotify port fn ⟨q, service, m⟩) = false →
      (fn % 3 = 2 → q < 17 →
        ∃ t, exec (.queueNotify port fn ⟨q, service, m⟩) s = .next t ∧
          t.fn port fn = { s.fn port fn with
            outstanding := (s.fn port fn).outstanding ++ [⟨q, BitVec.ofNat 64 (field m 8 8), field m 4 4⟩] }) ∧
      (fn % 3 = 0 → q = 1 → service ∈ [0x400, 0x401] →
        let r : HostReq := ⟨port, fn, BitVec.ofNat 64 (field m 8 8)⟩
        (∀ i, messageRequest service r m = some i →
          ∃ t, exec (.queueNotify port fn ⟨q, service, m⟩) s = .next t ∧ t.agenda = s.agenda ++ [i] ∧
            t.fn port fn = { s.fn port fn with outstanding := (s.fn port fn).outstanding ++ [⟨0, r.id, field m 4 2⟩] }) ∧
        (messageRequest service r m = none →
          ∃ t, exec (.queueNotify port fn ⟨q, service, m⟩) s = .next t ∧ t.agenda = s.agenda ∧
            t.pkg.replies = s.pkg.replies ++
              [{ port := some port, fn := some fn, id := some r.id, op := field m 4 2, status := 4, aux := 0, value := 0, body := [] }]))) ∧
    (∃ t, exec (.deviceFunctionReset port fn) s = .next t ∧
      t.fn port fn = { port := port, fn := fn, features := 0, featuresOk := false, isr := 0, pending := 0, outstanding := [] } ∧
      t.pkg.replies = s.pkg.replies ++ (s.unanswered port fn).map (fun e =>
        { port := some port, fn := some fn, id := some e.1, op := e.2, status := 8, aux := 0, value := 0, body := [] }) ∧
      (fn = 0 → t.pkg.cfgOwner ≠ some port) ∧ t.mem = s.mem ∧ t.waves = s.waves)) ∧
  (∀ (s : State) (r : HostReq),
    (s.pkg.cfgOwner = none → ∃ t, exec (.takeConfig r) s = .next t ∧ t.pkg.cfgOwner = some r.port) ∧
    (∀ p, s.pkg.cfgOwner = some p → ∃ t, exec (.takeConfig r) s = .next t ∧ t.pkg.cfgOwner = some p ∧
      (t.pkg.replies.getLast?).map (·.status) = some 7) ∧
    (s.pkg.cfgOwner = some r.port → ∃ t, exec (.giveConfig r) s = .next t ∧ t.pkg.cfgOwner = none) ∧
    (s.pkg.cfgOwner = some r.port → ∃ t, exec (.portLinkDown r.port) s = .next t ∧ t.pkg.cfgOwner = none ∧
      t.pkg.linkUp = s.pkg.linkUp.set r.port false)) ∧
  (∀ (s : State) port world, world ≠ 0 → (s.world world).live = true → (s.world world).port = some port →
    ∃ t, exec (.functionLevelReset port world) s = .next t ∧ (t.world world).lineKey = none ∧ (t.world world).sealKeys = [] ∧
      ∀ c ∈ t.ctxs, c.live = true → c.world ≠ world)

/-- R370, R274, R294, R355: the requests of the configuration's owner: a world is created with a line key, granted a range that no other
world holds, bound to a port, given thresholds, an authority and a sealed key, relieved of a range that nothing uses, and destroyed. -/
def Obligations.WorldsAreManaged : Prop :=
  ∀ (s : State) (q : HostReq) (world : W32), s.pkg.cfgOwner = some q.port → s.worlds.length = 64 →
    let w := world.toNat
    (0 < w → w < 64 → (s.world w).live = false →
      ∃ t, exec (.create q world) s = .next t ∧ (t.world w).live = true ∧ (t.world w).lineKey ≠ none ∧ (t.world w).grants = [] ∧
        t.pkg.epoch = s.pkg.epoch + 1) ∧
    (w < 64 → (s.world w).live = true →
      (∀ base length : W64, s.rangeGood base length = true → length ≠ 0 →
        (∀ k, k < 64 → k ≠ w → ∀ g ∈ (s.world k).grants, meets base.toNat length.toNat g.1 g.2 = false) →
        ∃ t, exec (.grant q world base length) s = .next t ∧
          (t.world w).grants = (s.world w).grants ++ [(base.toNat, length.toNat)] ∧ (s.pkg.formerly = [] → t.mem = s.mem)) ∧
      (∀ base length : W64, s.rangeGood base length = true →
        (∀ c ∈ s.ctxs, c.live = true → c.world = w → ∀ r ∈ s.ctxRanges c, meets base.toNat length.toNat r.1 r.2 = false) →
        (w = 0 → ∀ g ∈ reservedRanges s.lastDie, meets base.toNat length.toNat g.1 g.2 = false) →
        ∃ t, exec (.revoke q world base length) s = .next t ∧
          (t.world w).grants = (s.world w).grants.flatMap (cutRange base.toNat length.toNat) ∧
          ∀ g ∈ (t.world w).grants, meets base.toNat length.toNat g.1 g.2 = false) ∧
      (∀ target : W32, target.toNat ≤ 1 → w ≠ 0 →
        ∃ t, exec (.bind q world target) s = .next t ∧ (t.world w).port = some target.toNat) ∧
      (∀ (doldrums : W32) cold (high low : Byte), doldrums = 0 ∨ 4096 ≤ doldrums.toNat → high.toNat ≤ 100 → low.toNat < high.toNat →
        ∃ t, exec (.thresholds q world 15 doldrums cold high low) s = .next t ∧ (t.world w).doldrums = doldrums.toNat ∧
          (t.world w).cold = cold ∧ (t.world w).high = high.toNat ∧ (t.world w).low = low.toNat) ∧
      (∀ a, (∀ k, k < 64 → k ≠ w → a ∉ (s.world k).auths) →
        ∃ t, exec (.auth q world a) s = .next t ∧ a ∈ (t.world w).auths) ∧
      (∀ (index : Byte) ct wrapped, w ≠ 0 →
        ∃ t, exec (.key q world index 0 ct wrapped) s = .next t ∧
          Sparse.get 0 (t.world w).sealKeys index.toNat = s.worldKey (text "seal") w [index]) ∧
      (w ≠ 0 → ∃ t, exec (.destroy q world) s = .next t ∧ t.world w = World.reset))

/-- R31, R281, R319, R375: a context is created with empty tables, and destroyed with its teams; a change is applied by every present instance.
That its six root tables of 64 KiB lie one after another at a place given from outside, and that an arena holds the private spaces of its
threads, are choices of the model (log 12, log 9). -/
def Obligations.ContextsAndReplicas : Prop :=
  (∀ (s : State) world ctx tables arena, (s.world world).live = true → s.ctx? ctx = none →
    ∃ t c, exec (.contextCreate world ctx ⟨tables, arena⟩) s = .next t ∧ t.ctx? ctx = some c ∧ c.world = world ∧ c.recs = [] ∧
      c.tensors = [] ∧ c.scratch = [] ∧ c.arena = arena ∧ c.roots = (List.range 6).map (fun k => tables.toNat + k * 65536) ∧
      ∀ i, i < 6 * 65536 → t.peek (tables.toNat + i) 1 = emptyByte.toNat) ∧
  (∀ (s : State) ctx, ∃ t, exec (.contextDestroy ctx) s = .next t ∧ t.ctx? ctx = none ∧
    ∀ team, team < s.teams.length → ((s.launchOf team).any fun l => l.ctx == ctx) = true → (t.team team).state = .ended) ∧
  (∀ (s : State), ∃ t, exec .replicaChange s = .next t ∧ t.pkg.sequenced = s.pkg.sequenced + 1 ∧
    ∀ d, d < s.dies.length → (t.die d).applied = if (s.die d).present then s.pkg.sequenced + 1 else (s.die d).applied)

/-- R370, R369, R362: the residency of a context's world is reported and its pins taken back; a range of an object whose pages are present
is pinned, and one that nothing exempts is evicted; a report on the function's world is signed and counted; the path of a code file is
submitted as the record that names its kernel, with the scratch numbers it needs. -/
def Obligations.HostRequestsAreAnswered : Prop :=
  (∀ (s : State) (q : HostReq) ctx c, s.ctx? ctx = some c →
    (∃ t, exec (.residencyQuery q ctx) s = .next t ∧
      t.pkg.replies = s.pkg.replies ++
        [{ port := some q.port, fn := some q.fn, id := some q.id, op := 0x120, status := 0
           aux := BitVec.ofNat 32 ((s.world c.world).high * 256 + (s.world c.world).low)
           value := BitVec.ofNat 64 (s.framedPages c.world).length, body := [] }]) ∧
    (∃ t, exec (.residencyReset q ctx) s = .next t ∧ t.pinned = s.pinned.filter (fun e => e.1 != ctx)) ∧
    (∀ name offset length d r, c.known name = some d → s.recOf ctx d.obj = some r → offset.toNat ≤ d.size →
      let pages := r.rangePages offset.toNat length.toNat
      (s.allPresent pages = true →
        ∃ t, exec (.pin q ctx name offset length) s = .next t ∧ (∀ p ∈ pages, t.exempt p = true) ∧
          (t.pkg.replies.getLast?).map (·.status) = some 0) ∧
      ((∀ p ∈ pages, s.exempt p = false ∧ (s.frameOf p).hkind ≠ 0) →
        let s1 := pages.foldl State.depart s
        ∃ t, exec (.evict q ctx name offset length) s = .next t ∧ t.frameMap = s1.frameMap ∧
          if s1.allAbsent pages = true then (t.pkg.replies.getLast?).map (·.status) = some 0
          else t.pkg.replies = s.pkg.replies ∧ .evict q ctx name offset length ∈ t.pkg.waiting))) ∧
  (∀ (s : State) (q : HostReq) nonce, (s.world (q.fn / 3)).live = true →
    let report := s.report (q.fn / 3) nonce (s.pkg.attestCount.toNat + 1)
    let sig := (Config.falconSign identity.2 (shake report 64) (s.randomness 0)).take 1280
    ∃ t, exec (.attest q.port ⟨q.fn, q.id⟩ nonce) s = .next t ∧ t.pkg.attestCount = BitVec.ofNat 64 (s.pkg.attestCount.toNat + 1) ∧
      t.pkg.keyCount = s.pkg.keyCount + 1 ∧
      ((t.pkg.replies.getLast?).map fun r => r.body) =
        some (report ++ toBytes sig.length 2 ++ toBytes 0 6 ++ (sig ++ List.replicate (1280 - sig.length) 0))) ∧
  (∀ (s : State) (q : HostReq) path threads waves teams prio c obj, path.length ≤ 1024 → path.contains 0 = true → prio.toNat ≤ 7 →
    s.behindWindow q.port (.launchFile q.port ⟨q.fn, q.id⟩ path threads waves teams prio) = false → filePath path = some (c, obj, 2) →
    let record (base : Nat) : BitVec 2048 := fileRecord c (fnWorld q.fn) obj threads waves teams prio base s.fabric.node
    let s0 := s.unawait (.launchFile q.port ⟨q.fn, q.id⟩ path threads waves teams prio)
    exec (.launchFile q.port ⟨q.fn, q.id⟩ path threads waves teams prio) s =
      .next (s0.submitFor (fnWorld q.fn) (record (s0.fileBase c (record 0))) (some q) 1))

/-- R372, R373, R28: the file of an object is created under an authority of its world, written, and unlinked, which retires the object; code
that is BOUND on any package, and what lies beyond a closed file's extent, are not written. A range of it is mapped for a host at a place of
the window, where nothing else is mapped then, read and written there, in the order of the accesses, and unmapped. That a record made before
the first close gets its range with it is the model's choice (log 88). -/
def Obligations.FilesAndMappings : Prop :=
  (∀ (s : State) (q : HostReq) path ctx kind obj ts c, filePath path = some (ctx, obj, kind) → s.exported q ctx = some c →
    (s.world c.world).auths.contains (obj.extractLsb' 48 16) = true → (∀ d ∈ c.dir, d.obj ≠ obj) →
    ∃ t x, exec (.fileCreate q.port q.fn q.id path ts) s = .next t ∧ t.ctx? ctx = some x ∧
      x.dir = c.dir ++ [{ obj := obj, kind := kind, extent := 0, closed := false, retired := false, bytes := [], tensors := ts }]) ∧
  (∀ (s : State) (q : HostReq) ctx obj offset bytes close c d, s.exported q ctx = some c → c.entryOf obj = some d →
    (d.closed = true → offset + bytes.length ≤ d.extent) →
    let bound : Prop := (∃ r, c.recOf obj = some r ∧ r.state = .bound) ∨ (ctx, obj) ∈ s.pkg.boundAway
    (¬ (d.kind = 2 ∧ bound) → c.recOf obj = none →
      ∃ t x e, exec (.fileWrite q ctx obj offset bytes close) s = .next t ∧ t.ctx? ctx = some x ∧ x.entryOf obj = some e ∧
        e.bytes = Memory.write d.bytes offset bytes ∧ e.closed = (d.closed || close) ∧
        e.extent = if d.closed = true ∨ bytes = [] then d.extent else max d.extent (offset + bytes.length)) ∧
    (¬ (d.kind = 2 ∧ bound) → d.closed = true →
      exec (.fileWrite q ctx obj offset bytes close) s = .next ((s.rewrite ctx obj offset bytes).reply (some q) 16 0 0 0 [])) ∧
    (d.kind = 2 → bound → exec (.fileWrite q ctx obj offset bytes close) s = .next (s.reply (some q) 16 13 0 0 []))) ∧
  (∀ (s : State) (q : HostReq) ctx obj c d, s.exported q ctx = some c → c.entryOf obj = some d →
    ∃ t x, exec (.fileUnlink q ctx obj) s = .next t ∧ t.ctx? ctx = some x ∧ x.entryOf obj = none) ∧
  (∀ (s : State) (q : HostReq) ctx obj offset length place c d r, s.exported q ctx = some c → c.entryOf obj = some d →
    c.recOf obj = some r → 0 < length → offset + length ≤ r.extent → place + length ≤ 2 ^ 36 →
    s.allPresent (r.rangePages offset length) = true →
    ∃ t, exec (.fuseSetupmapping q ⟨ctx, obj⟩ offset length place) s = .next t ∧
      t.pkg.dax = (s.clearWindow q place length).pkg.dax ++
        [{ port := q.port, fn := q.fn, place := place, ctx := ctx, obj := obj, lo := offset, len := length }] ∧
      ∀ p ∈ r.rangePages offset length, t.exempt p = true) ∧
  (∀ (s : State) (q : HostReq) place length,
    ∃ t, exec (.fuseRemovemapping q.port q.fn q.id place length) s = .next t ∧ t.pkg.dax = (s.clearWindow q place length).pkg.dax ∧
      (∀ m ∈ t.pkg.dax, m.port = q.port → m.fn = q.fn → m.place + m.len ≤ place ∨ place + length ≤ m.place) ∧
      ∀ m ∈ s.pkg.dax, (m.port ≠ q.port ∨ m.fn ≠ q.fn) → m ∈ t.pkg.dax) ∧
  (∀ (s : State) (q : HostReq) place size bs ctx r offset, s.mapped q place size = some (ctx, r, offset) → 0 < size →
    (∀ ps pad, s.daxBehind q (.daxAccess q.port q.fn q.id place size (some bs)) = false → s.daxPlace ctx r offset size true = .ok ps pad →
      ∃ t, exec (.daxAccess q.port q.fn q.id place size (some bs)) s = .next t ∧ t.mem = Memory.writePieces s.mem ps (bs.take size)) ∧
    (∀ ps pad, s.daxBehind q (.daxAccess q.port q.fn q.id place size none) = false → s.daxPlace ctx r offset size false = .ok ps pad →
      ∃ t, exec (.daxAccess q.port q.fn q.id place size none) s = .next t ∧ t.mem = s.mem ∧
        (t.pkg.replies.getLast?).map (·.body) = some (Memory.readPieces s.mem ps)) ∧
    (s.daxBehind q (.daxAccess q.port q.fn q.id place size none) = true →
      ∃ t, exec (.daxAccess q.port q.fn q.id place size none) s = .next t ∧
        .daxAccess q.port q.fn q.id place size none ∈ t.pkg.waiting ∧ t = { s with pkg := { s.pkg with waiting := t.pkg.waiting } }))

/-- R378 to R381, R361, R355, R358: an image that passes its check starts the package on its good tiles, with what survives power loss kept and
world 0 under the next epoch; one that fails leaves it under recovery, where the first upload that is complete restarts it on the tiles that
are good then, if it passes, and any upload is BUSY else. A die lowers its clock by 75 MHz, not below 1.2 GHz; too high a temperature resets
every world as a reset of its functions does; a die whose link answers wrong is left out, and its link stays down. The place of the root key
before a signature is the model's choice (log 90). -/
def Obligations.StartUpAndLimits : Prop :=
  (∀ (s : State) image sig good, ∃ t, exec (.powerOn image sig good) s = .next t ∧
    if imageGood image sig = true then
      t.mem = [] ∧ t.waves = [] ∧ t.ctxs = [] ∧ t.pkg.recovery = false ∧ t.pkg.bootCount = s.pkg.bootCount + 1 ∧
        t.pkg.attestCount = s.pkg.attestCount ∧ t.pkg.epoch = s.pkg.epoch + 1 ∧ t.pkg.tileMap = gridOf good ∧
        (t.world 0).lineKey = some (worldKeyOf (text "line") 0 [] (s.pkg.epoch + 1))
    else t.pkg.recovery = true) ∧
  (∀ good die k tile, die < 4 → k < 40 → 40 ≤ (dieGood good die).length → (gridOf good)[die * 40 + k]? = some tile →
    tile ∈ good ∧ tile / 48 = die) ∧
  (∀ (s : State) port bytes sig good, s.pkg.recovery = true →
    let sofar := ((s.pkg.uploads.find? fun u => u.1 == port).map (·.2)).getD [] ++ bytes
    sofar.take 4 = text "GARC" →
    (uploaded sofar = none → ∃ t, exec (.recoveryUpload port ⟨bytes, sig⟩ good) s = .next t ∧ (port, sofar) ∈ t.pkg.uploads ∧
      t.pkg.recovery = true) ∧
    ∀ image, uploaded sofar = some image → ∃ t, exec (.recoveryUpload port ⟨bytes, sig⟩ good) s = .next t ∧
      if imageGood image sig = true then
        t.pkg.recovery = false ∧ t.pkg.bootCount = s.pkg.bootCount + 1 ∧ t.pkg.tileMap = gridOf good
      else t.pkg.recovery = true ∧ t.pkg.uploads = [] ∧ .recovery "REJECTED" ∈ t.pkg.log) ∧
  (∀ (s : State) port bytes sig good, s.pkg.recovery = false →
    exec (.recoveryUpload port ⟨bytes, sig⟩ good) s = .next (s.logLine (.recovery "BUSY"))) ∧
  (∀ (s : State) die, die < s.dies.length →
    ∃ t, exec (.thermalThrottle die) s = .next t ∧ (t.die die).mhz = max 1200 ((s.die die).mhz - 75)) ∧
  (∀ (s : State), exec .overtemperature s = .next (((List.range 64).foldl (fun (s : State) w =>
    if (s.world w).live then s.resetAll w else s) s).logLine .overtemperature)) ∧
  (∀ (s : State) w, ((s.resetAll w).world w).lineKey = none ∧ ((s.resetAll w).world w).sealKeys = [] ∧
    ∀ c ∈ (s.resetAll w).ctxs, c.live = true → c.world ≠ w) ∧
  (∀ (s : State) die answer, die < s.dies.length →
    (s.pkg.d2dUp.getD die false = true → ∃ t, exec (.d2dLinkTraining die answer) s = .next t ∧ t.pkg.trainings = s.pkg.trainings + 2 ∧
      (t.die die).present = ((s.die die).present && answer == s.d2dAnswer die) ∧
      t.pkg.d2dUp.getD die false = (answer == s.d2dAnswer die)) ∧
    (s.pkg.d2dUp.getD die false = false → exec (.d2dLinkTraining die answer) s = .next s))

/-- R332, R333, R335: a request whose turn it is on its stream is performed, answered, and its reply kept; the next SEQ is expected. One that
was performed before is answered with the stored reply and not performed again. One with a reserved field set is discarded and logged. -/
def Obligations.PacketsArePerformedInOrder : Prop :=
  ∀ (s : State) (p : Packet) (i : Instr) (ty : PacketType),
    (i, ty) ∈ [(Instr.readPacket p, PacketType.read), (.writePacket p, .write), (.atomicPacket p, .atomic), (.xaPacket p, .xa),
      (.rstfPacket p, .rstf), (.grantPacket p, .grant), (.recallPacket p, .recall), (.pagePacket p, .page), (.teamPacket p, .team),
      (.advertPacket p, .advert), (.launchPacket p, .launch), (.commitPacket p, .commit), (.abortPacket p, .abort),
      (.managerPacket p, .manager)] →
    (p.malformed = true → exec i s = .next (s.logLine (.discarded p))) ∧
    (p.typ = ty → p.reply = false → p.malformed = false →
    let x := s.fabric.inStream p.src.toNat p.tier
    let q : Packet := { p with status := 0 }
    (∀ s1 st bs, x.early = [] → p.seq = x.expect →
      ({ s with fabric := s.fabric.setIn { x with early := [q] } } : State).perform q = (s1, some (st, bs)) →
      ∃ t, exec i s = .next t ∧ t.fabric.out = s1.fabric.out ++ [q.answer st bs] ∧ t.mem = s1.mem ∧ t.waves = s1.waves ∧
        (t.fabric.inStream p.src.toNat p.tier).expect = (s1.fabric.inStream p.src.toNat p.tier).expect + 1) ∧
    (∀ a, seqBefore p.seq x.expect = true → x.replies.find? (fun a => a.seq == p.seq) = some a →
      exec i s = .next (s.sendReply { a with seq := 0, hop := 0 })))

/-- R333 to R335, R341, R285, R347: what a destination performs: a read gives the bytes, a write and an atomic step write them, each on
local memory of the packet's world that no third node holds and that is not poisoned; a request for a page that this package holds for its
home is performed at the page's frame; the pennant of an RSTF rises after its data; another home answers XLATE and another world's memory
PROTECT; messages of the service kernel do as they say (R328, R329). The payloads of GRANT, PAGE, TEAM, LAUNCH, COMMIT and MANAGER, the operation
code of a line's READ, the second range of an XA, and the address bit of a request at a frame are choices of the model (log 21, log 51). -/
def Obligations.HomesPerformRequests : Prop :=
  (∀ (s : State) (p : Packet), p.status = 0 →
    let a := p.addr.toNat
    let g := p.aux.toNat
    let n := p.wt.bytes
    let line := if p.opc = 1 then 64 else n
    let mine (a n : Nat) : Prop := s.isLocal a = true ∧ s.isLocal (a + n - 1) = true ∧ s.granted p.world.toNat a n = true
    let free (a n : Nat) (writes : Bool) : Prop := ∀ pg ∈ rangePages a n, s.fabric.holders pg p.src.toNat writes = []
    (p.typ = .read → mine a line → free a line false → s.poisoned [(a, line)] = false →
      s.perform p = (s.count [(a, line)], some (0, Memory.bytes s.mem a line))) ∧
    (∀ page e, p.typ = .read → atFrameBit ≤ a → s.frameFor p.src.toNat ((a - atFrameBit) / 65536) = some (page, e) →
      e.state = .present →
      let k := e.frame * 65536 + (a - atFrameBit) % 65536
      s.poisoned [(k, line)] = false → s.perform p = (s.count [(k, line)], some (0, Memory.bytes s.mem k line))) ∧
    (p.typ = .write → p.data ≠ [] → mine a p.data.length → free a p.data.length true →
      s.perform p = ((s.count [(a, p.data.length)]).store [(a, p.data.length)] p.data, some (0, []))) ∧
    (p.typ = .atomic → p.aux = 0 → p.data.length = n → mine a n → free a n true → s.poisoned [(a, n)] = false →
      s.perform p = ((s.count [(a, n)]).store [(a, n)]
        (atomBytes p.opc.toNat p.wt (BitVec.ofNat 128 (ofBytes p.data)) (Memory.bytes s.mem a n)),
        some (0, Memory.bytes s.mem a n))) ∧
    (let qs := xaRanges p
     p.typ = .xa → p.wt = .f64 → p.data ≠ [] → (∀ q ∈ qs, mine q.1 q.2 ∧ free q.1 q.2 true) → s.poisoned qs = false →
      s.perform p = ((s.count qs).store qs (xaAdd (ofBytes p.data) (Memory.readPieces s.mem qs)), some (0, []))) ∧
    (p.typ = .rstf → mine a p.data.length → mine g 8 → (∀ pg ∈ rangePages a p.data.length ++ rangePages g 8,
        s.fabric.holders pg s.fabric.node true = []) → s.poisoned [(g, 8)] = false → s.fabric.forwardOf p 0 = none →
      let s1 := (((s.count [(a, p.data.length)]).store [(a, p.data.length)] p.data).count [(g, 8)])
      s.perform p = (s1.store [(g, 8)] (toBytes ((Memory.read s1.mem g 8 + 1) % 2 ^ 64) 8), some (0, []))) ∧
    (p.typ = .read → a < atFrameBit → s.isLocal a = false → s.perform p = (s, some (3, []))) ∧
    (p.typ = .read → s.isLocal a = true → s.isLocal (a + line - 1) = true → s.granted p.world.toNat a line = false →
      s.perform p = (s, some (2, [])))) ∧
  (∀ (s : State) (p : Packet), p.status = 0 →
    (p.typ = .grant → p.opc = 1 → s.isLocal p.addr.toNat = true → s.fabric.holders (p.addr.toNat / 65536) p.src.toNat true = [] →
      ∃ t, s.perform p = (t, some (0, [])) ∧ Sparse.get 0 t.fabric.grantHolders (p.addr.toNat / 65536) = p.src.toNat + 1) ∧
    (p.typ = .recall → s.frameFor p.src.toNat (p.addr.toNat / 65536) = none → s.perform p = (s, some (0, []))) ∧
    (p.typ = .page → p.data ≠ [] → s.isLocal p.addr.toNat = true → s.isLocal (p.addr.toNat + p.data.length - 1) = true →
      let s1 := s.store [(p.addr.toNat, p.data.length)] p.data
      s.perform p = ({ s1 with poison := maskLines s1.poison (p.addr.toNat / 64) p.opc.toNat }, some (0, []))) ∧
    (p.typ = .manager → p.opc = 0 →
      let f := s.fabric
      let src := p.src.toNat
      (src = f.manager → s.perform p = ({ s with fabric := { f with missed := 0 } }, some (0, []))) ∧
      (src ≠ f.manager → src < f.node → (src < f.manager ∨ f.missed ≠ 0) → s.perform p = (s.takeManager src, some (0, []))) ∧
      (src ≠ f.manager → ¬ (src < f.node ∧ (src < f.manager ∨ f.missed ≠ 0)) → s.perform p = (s, some (0, [])))) ∧
    (p.typ = .manager → p.opc = 1 → (p.src.toNat < s.fabric.manager ∨ s.fabric.missed ≠ 0) →
      s.perform p = (s.takeManager (s.candidate p.src.toNat), some (0, []))) ∧
    (p.typ = .team → s.launchUnder p.addr.toNat (ofBytes ((p.data.drop 261).take 2)) = none → s.perform p = (s, some (3, []))) ∧
    (∀ k, p.typ = .launch → s.checkRecord (recWorld (BitVec.ofNat 2048 (ofBytes p.data))) (BitVec.ofNat 2048 (ofBytes p.data)) = .error k →
      s.perform p = (s, some (0, toBytes k 4))) ∧
    (∀ l, p.typ = .commit → s.offered p = some l →
      s.perform p =
        ((s.modLaunch l fun x => { x with arrivalBase := ofBytes ((p.data.drop 256).take 8) }).commit l, some (0, []))) ∧
    (∀ l, p.typ = .abort → s.offered p = some l →
      s.perform p = (s.modLaunch l fun x => { x with completion := some .cancelled }, some (0, []))))

/-- R333, R340, R347: the first reply to a request leaves its stream and takes effect, or is kept by the proxy for its wave (R303); a request
without a reply is sent again under its SEQ; a launch that a package has not answered in time is cancelled here, and an ABORT goes to every
other package that it names. R328, R329: the manager sends its heartbeat, and any other package counts one missed, of which three lead to an
election; of the candidates that can be reached the one with the lowest number is elected; the manager's tables are written where every entry
is minimal. That tables which are not, and which the rule forbids, are not written at all is the model's choice (log 53). -/
def Obligations.RepliesTimeoutsAndTheManager : Prop :=
  (∀ (s : State) (p : Packet) e,
    let x := s.fabric.stream p.src.toNat p.tier
    x.asked p = some e → p.malformed = false →
    let x1 := x.heard e p.echo
    let r := Stream.pump x1 x1.queued
    let f := s.fabric.setStream r.1
    let s1 : State := { s with fabric := { f with out := f.out ++ r.2 } }
    exec (.replyReceive p) s = .next (match s1.replyWave p e.seq with
      | some w => s1.holdReply w (.replyReceive { p with seq := e.seq })
      | none => s1.deliverReply e.seq e.packet p)) ∧
  (∀ (x : Stream) (e : Sent) echo, e ∉ (x.heard e echo).sent ∧
    (echo = true → e.beforeHalving = false → (x.heard e echo).window = max 4 (x.window / 2)) ∧
    (echo = false → (x.heard e echo).window = if x.window ≤ x.good + e.flits then min 256 (x.window + 1) else x.window)) ∧
  (∀ (s : State) dst tier seq e, (s.fabric.stream dst tier).sent.find? (fun e => e.seq == seq) = some e →
    exec (.requestResend dst tier seq) s = .next (s.sendReply e.packet)) ∧
  (∀ (s : State) i x package, s.launches[i]? = some x → x.committed = false → x.completion = none → x.origin = none →
    package ∈ s.otherPackages x.record → (∀ a ∈ x.answers, a.1 ≠ package) →
    ∃ t, exec (.launchAnswerTimeout i package) s = .next t ∧ (t.launches[i]?).map (·.completion) = some (some .cancelled) ∧
      ∀ n ∈ s.otherPackages x.record, n < 4096 →
        let y := t.fabric.stream n PacketType.abort.tier
        ∃ p, (p ∈ y.queued ∨ p ∈ y.sent.map (·.packet)) ∧ p.typ = .abort ∧ p.addr = BitVec.ofNat 64 x.handle ∧
          p.data = toBytes x.record.toNat 256) ∧
  (∀ (s : State), s.fabric.manager = s.fabric.node → ∃ t, exec .heartbeat s = .next t ∧ t.fabric.beats = s.fabric.beats + 1 ∧
    t.fabric.missed = 0 ∧ t.mem = s.mem) ∧
  (∀ (s : State), s.fabric.manager ≠ s.fabric.node →
    exec .heartbeat s = .next { s with fabric := { s.fabric with beats := s.fabric.beats + 1, missed := s.fabric.missed + 1 } } ∧
    (3 ≤ s.fabric.missed → s.electionDue = some (.managerElection (s.peers.filter (· != s.fabric.manager))))) ∧
  (∀ (s : State) l, ∃ t, exec (.managerElection l) s = .next t ∧ (t.fabric.manager = s.fabric.node ∨ t.fabric.manager ∈ l) ∧
    t.fabric.manager ≤ s.fabric.node ∧ (∀ n ∈ l, t.fabric.manager ≤ n) ∧ t.fabric.missed = 0) ∧
  (∀ (s : State) tables, s.fabric.manager = s.fabric.node →
    (s.fabric.tablesGood tables = true → (∀ n ∈ s.fabric.nodes, n < 4096) →
      ∃ t, exec (.routeCompute tables) s = .next t ∧ t.fabric.tablesSent = s.fabric.tablesSent + 1 ∧ t.fabric.stale = false ∧
        ∀ n ∈ s.fabric.nodes, Sparse.get 0 t.fabric.routes n = entryOf tables s.fabric.node n) ∧
    (s.fabric.tablesGood tables = false → exec (.routeCompute tables) s = .next s))

/-- R344, R345, R360: a link is trained to the highest version both ends support, with the other end's free slots as its credits, gets keys by
a handshake that passes, changes them once every frame is acknowledged, and goes down, which is reported, where training or the handshake
fails. R330, R331, R336 to R338, R342 to R344: a packet takes its next channel at the port its route names, or is discarded and reported; a
grant takes a whole packet and its credits, and marks a request where the credits are below half; a frame of up to 8 flits is closed, without
any where credit alone is wanted, received in order with its check, asked for again by a NAK where it fails its check or is out of order, and
sent again from a NAK on. That what the other end sends comes as the operands of training and handshake, the transcript that is signed, that a
rekey waits for every frame to be acknowledged, and that a packet granted stands as a whole in the open frame are choices of the model (log
22). -/
def Obligations.LinksAreTrainedAndCarryPackets : Prop :=
  (∀ (s : State) port peer peerPort lo hi (free : List Nat), port < s.fabric.links.length → lo ≤ min hi 2 → 1 ≤ hi →
    let l : Link := { s.fabric.link port with version := min hi 2 }
    ∃ t, exec (.linkTraining port ⟨lo, hi⟩ ⟨peer, peerPort, free⟩) s = .next t ∧ (t.fabric.link port).state = .trained ∧
      (t.fabric.link port).version = min hi 2 ∧ (t.fabric.link port).peer = peer ∧ (t.fabric.link port).peerPort = peerPort ∧
      ∀ c, c < 18 → (t.fabric.link port).credits.getD c 0 = min 32 (free.getD c 0) - l.owing c) ∧
  (∀ (s : State) port peer, port < s.fabric.links.length → (s.fabric.link port).state = .trained →
    (∀ secret, s.agree (s.fabric.isLow port) peer = some secret → ∃ t,
      exec (.linkHandshake port peer.certificate peer.kem peer.signature) s = .next t ∧
      (t.fabric.link port).state = .keyed ∧ (t.fabric.link port).txSeq = 0 ∧ (t.fabric.link port).rxSeq = 0 ∧
      (t.fabric.link port).keys = shake secret 72 ∧ (t.fabric.link port).low = s.fabric.isLow port ∧ t.pkg.keyCount = s.pkg.keyCount + 2) ∧
    (s.agree (s.fabric.isLow port) peer = none → ∃ t, exec (.linkHandshake port peer.certificate peer.kem peer.signature) s = .next t ∧
      (t.fabric.link port).state = .down ∧
      .linkReport port ∈ t.pkg.log)) ∧
  (∀ (s : State) low peer, certified peer.certificate = none → s.agree low peer = none) ∧
  (∀ (s : State) peer pub, certified peer.certificate = some pub →
    let sofar := Config.certificate ++ (Config.mlkemKeys (s.randomness 0)).1 ++ peer.certificate ++ peer.kem
    Config.falconVerify pub (shake sofar 64) peer.signature = false → s.agree true peer = none) ∧
  (∀ (s : State) port peer, port < s.fabric.links.length → (s.fabric.link port).state = .keyed →
    (∀ secret, (s.fabric.link port).unacked = [] → s.agree (s.fabric.isLow port) peer = some secret →
      ∃ t, exec (.linkRekey port peer) s = .next t ∧ (t.fabric.link port).keys = shake secret 72 ∧
        (t.fabric.link port).txSeq = 0 ∧ (t.fabric.link port).open_ = (s.fabric.link port).open_) ∧
    ((s.fabric.link port).unacked = [] → s.agree (s.fabric.isLow port) peer = none →
      ∃ t, exec (.linkRekey port peer) s = .next t ∧ (t.fabric.link port).state = .down ∧ .linkReport port ∈ t.pkg.log) ∧
    ((s.fabric.link port).unacked ≠ [] → exec (.linkRekey port peer) s = .next s)) ∧
  (∀ (s : State) port, port < s.fabric.links.length →
    ∃ t, exec (.linkDown port) s = .next t ∧ (t.fabric.link port).state = .down ∧ (t.fabric.link port).keys = [] ∧
      t.pkg.log = s.pkg.log ++ [.linkReport port]) ∧
  (∀ (s : State) port (p : Packet) o, s.fabric.portFor { p with hop := p.hop + 1 } = some o → p.malformed = false →
    p.hop + 1 + s.fabric.hops p.dst.toNat ≤ 6 → o < s.fabric.links.length →
    ∃ t, exec (.packetForward port p) s = .next t ∧
      (t.fabric.link o).waiting =
        (s.fabric.link o).waiting ++ [⟨port, (s.fabric.link port).channel p, { p with hop := p.hop + 1 }⟩]) ∧
  (∀ (s : State) port (p : Packet), s.fabric.portFor { p with hop := p.hop + 1 } = none →
    exec (.packetForward port p) s =
      .next ((s.freeBuffer port ((s.fabric.link port).channel p) p).logLine (.discarded p))) ∧
  (∀ (s : State) port b n, port < s.fabric.links.length → (s.fabric.link port).state = .keyed →
    (s.fabric.link port).pick (s.fabric.candidates port) = some (b, n) →
    let p := b.packet
    let c := (s.fabric.link port).channel p
    ∃ t, exec (.outputGrant port) s = .next t ∧ (t.fabric.link port).starved = n ∧
      (c < (s.fabric.link port).credits.length →
        (t.fabric.link port).credits.getD c 0 = (s.fabric.link port).credits.getD c 0 - p.flits) ∧
      (t.fabric.link port).waiting = (s.fabric.link port).waiting.erase b ∧
      let mark := p.sq || (!p.reply && decide ((s.fabric.link port).credits.getD c 0 < 16))
      (t.fabric.link port).open_ = (s.fabric.link port).open_ ++ (List.range p.flits).map (fun k => ({ p with sq := mark }, k))) ∧
  (∀ (s : State) port, port < s.fabric.links.length → ((s.fabric.link port).frameDue || s.fabric.creditWait port) = true →
    ∃ t fr, exec (.frameClose port) s = .next t ∧ fr.fseq = (s.fabric.link port).txSeq ∧ fr.aseq = (s.fabric.link port).rxSeq ∧
      (t.fabric.link port).unacked = (s.fabric.link port).unacked ++ [fr] ∧
      (t.fabric.link port).txSeq = (s.fabric.link port).txSeq + 1 ∧ fr.plain.length ≤ 8 ∧
      fr.plain ++ (t.fabric.link port).open_ = (s.fabric.link port).open_) ∧
  (∀ (s : State) port (fr : Frame), port < s.fabric.links.length → (s.fabric.link port).state = .keyed →
    fr.fseq = (s.fabric.link port).rxSeq → (s.fabric.link port).passes fr = true →
    ∃ t, exec (.frameReceive port fr) s = .next t ∧ (t.fabric.link port).rxSeq = (s.fabric.link port).rxSeq + 1 ∧
      t.agenda = s.agenda ++ (completed fr.plain).map (fun p =>
        if p.dst.toNat = s.fabric.node then arrivalOf p else .packetForward port p) ++
          (if fr.nak = true then [.nakResend port fr.aseq] else []) ∧
      ∀ u ∈ (t.fabric.link port).unacked, fr.aseq.toNat ≤ u.fseq.toNat) ∧
  (∀ (s : State) port (fr : Frame), port < s.fabric.links.length → (s.fabric.link port).state = .keyed →
    (s.fabric.link port).failed = false →
    ((s.fabric.link port).rxSeq.toNat < fr.fseq.toNat ∨
      fr.fseq = (s.fabric.link port).rxSeq ∧ (s.fabric.link port).passes fr = false) →
    ∃ t, exec (.frameReceive port fr) s = .next t ∧ (t.fabric.link port).nakDue = true ∧ (t.fabric.link port).failed = true ∧
      (t.fabric.link port).rxSeq = (s.fabric.link port).rxSeq ∧ t.agenda = s.agenda) ∧
  (∀ (s : State) port aseq, port < s.fabric.links.length →
    ∃ t, exec (.nakResend port aseq) s = .next t ∧
      (t.fabric.link port).unacked = (s.fabric.link port).unacked.filter (fun u => decide (aseq.toNat ≤ u.fseq.toNat)) ∧
      (t.fabric.link port).txSeq = (s.fabric.link port).txSeq)
end

