-- ==== Sys2Proof/Laws/Data.lean ====
section
/-! SUPPORT. Laws of the sparse maps, of changes at one place of a list, and of memory: reads after writes, and the canonical form
that every memory operation keeps. -/

namespace Sys2Proof.Machine

/-! ## Sparse maps -/

theorem Sparse.get_erase {α : Type} (d : α) (m : Sparse α) (k j : Nat) :
    Sparse.get d (Sparse.erase m k) j = if j = k then d else Sparse.get d m j := by
  induction m with
  | nil => simp [Sparse.erase, Sparse.get]
  | cons e m ih =>
    obtain ⟨k', v'⟩ := e
    unfold Sparse.erase at ih ⊢
    by_cases h : k' = k
    · by_cases h1 : j = k
      · subst h1; simpa [h] using ih
      · simp [h, h1, Sparse.get, ih, Ne.symm h1]
    · by_cases h2 : k' = j
      · have h3 : j ≠ k := fun h3 => h (h2.trans h3)
        simp [h2, h3, Sparse.get]
      · simp [h, h2, Sparse.get, ih]

theorem Sparse.get_insert_self {α : Type} (d : α) (m : Sparse α) (k : Nat) (v : α) (h : ∀ e ∈ m, e.1 ≠ k) :
    Sparse.get d (Sparse.insert m k v) k = v := by
  induction m with
  | nil => simp [Sparse.insert, Sparse.get]
  | cons e m ih =>
    obtain ⟨k', v'⟩ := e
    by_cases hk : k < k'
    · simp [Sparse.insert, Sparse.get, hk]
    · have h1 : k' ≠ k := h (k', v') (by simp)
      simp [Sparse.insert, Sparse.get, hk, h1]
      exact ih fun e he => h e (by simp [he])

theorem Sparse.get_insert_other {α : Type} (d : α) (m : Sparse α) (k j : Nat) (v : α) (h : j ≠ k) :
    Sparse.get d (Sparse.insert m k v) j = Sparse.get d m j := by
  induction m with
  | nil => simp [Sparse.insert, Sparse.get, h.symm]
  | cons e m ih =>
    obtain ⟨k', v'⟩ := e
    by_cases hk : k < k' <;> simp [Sparse.insert, Sparse.get, hk, h.symm, ih]

theorem Sparse.mem_erase {α : Type} (m : Sparse α) (k : Nat) : ∀ e ∈ Sparse.erase m k, e.1 ≠ k := by
  intro e he
  simpa using (List.mem_filter.mp he).2

/-- Reading a map after a write. -/
theorem Sparse.get_set {α : Type} [DecidableEq α] (d : α) (m : Sparse α) (k j : Nat) (v : α) :
    Sparse.get d (Sparse.set d m k v) j = if j = k then v else Sparse.get d m j := by
  unfold Sparse.set
  by_cases hv : v = d
  · simp [hv, Sparse.get_erase]
  · by_cases hj : j = k
    · subst hj; simp [hv, Sparse.get_insert_self d _ j v (Sparse.mem_erase m j)]
    · simp [hv, hj, Sparse.get_insert_other, Sparse.get_erase]

theorem Sparse.wf_cons {α : Type} [DecidableEq α] (d : α) (k : Nat) (v : α) (m : Sparse α) :
    Sparse.wf d ((k, v) :: m) = true ↔ v ≠ d ∧ (∀ e ∈ m, k < e.1) ∧ Sparse.wf d m = true := by
  simp [Sparse.wf, and_assoc]

/-- Leaving entries out keeps the canonical form. -/
theorem Sparse.wf_filter {α : Type} [DecidableEq α] (d : α) (m : Sparse α) (p : Nat × α → Bool) (h : Sparse.wf d m = true) :
    Sparse.wf d (m.filter p) = true := by
  induction m with
  | nil => simp [Sparse.wf]
  | cons e m ih =>
    obtain ⟨k, v⟩ := e
    obtain ⟨h1, h2, h3⟩ := (Sparse.wf_cons d k v m).mp h
    by_cases hp : p (k, v) = true
    · rw [List.filter_cons_of_pos hp]
      exact (Sparse.wf_cons ..).mpr ⟨h1, fun e he => h2 e (List.mem_filter.mp he).1, ih h3⟩
    · rw [List.filter_cons_of_neg hp]; exact ih h3

theorem Sparse.mem_insert {α : Type} (m : Sparse α) (k : Nat) (v : α) :
    ∀ e ∈ Sparse.insert m k v, e = (k, v) ∨ e ∈ m := by
  induction m with
  | nil => simp [Sparse.insert]
  | cons x m ih =>
    obtain ⟨k', v'⟩ := x
    intro e he
    by_cases hk : k < k'
    · simpa [Sparse.insert, hk] using he
    · simp only [Sparse.insert, hk, if_false, List.mem_cons] at he
      rcases he with he | he
      · simp [he]
      · rcases ih e he with h | h <;> simp [h]

theorem Sparse.wf_insert {α : Type} [DecidableEq α] (d : α) (m : Sparse α) (k : Nat) (v : α) (hv : v ≠ d)
    (hk : ∀ e ∈ m, e.1 ≠ k) (h : Sparse.wf d m = true) : Sparse.wf d (Sparse.insert m k v) = true := by
  induction m with
  | nil => simp [Sparse.insert, Sparse.wf, hv]
  | cons x m ih =>
    obtain ⟨k', v'⟩ := x
    obtain ⟨h1, h2, h3⟩ := (Sparse.wf_cons d k' v' m).mp h
    by_cases hlt : k < k'
    · simp only [Sparse.insert, hlt, if_true]
      refine (Sparse.wf_cons ..).mpr ⟨hv, ?_, h⟩
      intro e he
      rcases List.mem_cons.mp he with rfl | he
      · exact hlt
      · exact hlt.trans (h2 e he)
    · simp only [Sparse.insert, hlt, if_false]
      have hne : k' ≠ k := hk (k', v') (by simp)
      refine (Sparse.wf_cons ..).mpr ⟨h1, ?_, ih (fun e he => hk e (by simp [he])) h3⟩
      intro e he
      rcases Sparse.mem_insert m k v e he with rfl | he
      · show k' < k; omega
      · exact h2 e he

/-- A write keeps the canonical form. -/
theorem Sparse.wf_set {α : Type} [DecidableEq α] (d : α) (m : Sparse α) (k : Nat) (v : α) (h : Sparse.wf d m = true) :
    Sparse.wf d (Sparse.set d m k v) = true := by
  unfold Sparse.set
  have he : Sparse.wf d (Sparse.erase m k) = true := Sparse.wf_filter d m _ h
  split
  · exact he
  · exact Sparse.wf_insert d _ k v ‹_› (Sparse.mem_erase m k) he

/-! ## One place of a list -/

@[simp] theorem length_modifyAt {α : Type} (l : List α) (i : Nat) (f : α → α) : (modifyAt l i f).length = l.length := by
  simp [modifyAt]

theorem getElem?_modifyAt {α : Type} (l : List α) (i j : Nat) (f : α → α) :
    (modifyAt l i f)[j]? = if i = j then l[j]?.map f else l[j]? := by
  simp only [modifyAt, List.getElem?_modify]
  split <;> simp

theorem getElem?_modifyAt_ne {α : Type} (l : List α) (i j : Nat) (f : α → α) (h : j ≠ i) : (modifyAt l i f)[j]? = l[j]? := by
  simp [getElem?_modifyAt, h.symm]

theorem getD_modifyAt {α : Type} (l : List α) (i j : Nat) (f : α → α) (d : α) (h : j < l.length) :
    (modifyAt l i f).getD j d = if i = j then f (l.getD j d) else l.getD j d := by
  simp only [List.getD_eq_getElem?_getD, getElem?_modifyAt, List.getElem?_eq_getElem h]
  split <;> rfl

/-- What every step of a fold keeps, the fold keeps. -/
theorem foldl_rel {α β : Type} (R : β → β → Prop) (hr : ∀ b, R b b) (ht : ∀ a b c, R a b → R b c → R a c) (f : β → α → β)
    (hf : ∀ b a, R b (f b a)) (l : List α) (b : β) : R b (l.foldl f b) := by
  induction l generalizing b with
  | nil => exact hr b
  | cons a l ih => exact ht _ _ _ (hf b a) (ih (f b a))

/-- An invariant that every step of a fold keeps. -/
theorem foldl_inv {α β : Type} (P : β → Prop) (f : β → α → β) (hf : ∀ b a, P b → P (f b a)) (l : List α) (b : β) (h : P b) :
    P (l.foldl f b) := by
  induction l generalizing b with
  | nil => exact h
  | cons a l ih => exact ih (f b a) (hf b a h)

/-! ## Memory -/

theorem Memory.byte_setByte (m : List Host.Cell) (k j : Nat) (b : Byte) :
    Memory.byte (Memory.setByte m k b) j = if j = k then b else Memory.byte m j := Sparse.get_set emptyByte m k j b

theorem Memory.byte_write (m : List Host.Cell) (k j : Nat) (bs : List Byte) :
    Memory.byte (Memory.write m k bs) j = if k ≤ j ∧ j < k + bs.length then bs.getD (j - k) 0 else Memory.byte m j := by
  induction bs generalizing m k with
  | nil => simp [Memory.write]
  | cons b bs ih =>
    simp only [Memory.write, ih, Memory.byte_setByte, List.length_cons]
    by_cases h : j = k
    · subst h; simp
    · by_cases h2 : k + 1 ≤ j ∧ j < k + 1 + bs.length
      · have h3 : k ≤ j ∧ j < k + (bs.length + 1) := by omega
        have h4 : j - k = (j - (k + 1)) + 1 := by omega
        simp [h2, h3, h4]
      · have h3 : ¬ (k ≤ j ∧ j < k + (bs.length + 1)) := by omega
        rw [if_neg h2, if_neg h3, if_neg h]

/-- A write leaves every byte outside its range alone. -/
theorem Memory.byte_write_other (m : List Host.Cell) (k j : Nat) (bs : List Byte) (h : j < k ∨ k + bs.length ≤ j) :
    Memory.byte (Memory.write m k bs) j = Memory.byte m j := by
  rw [Memory.byte_write, if_neg]; omega

theorem Memory.length_bytes (m : List Host.Cell) (k n : Nat) : (Memory.bytes m k n).length = n := by
  induction n generalizing k with
  | zero => rfl
  | succ n ih => simp [Memory.bytes, ih]

theorem Memory.bytes_congr (m m' : List Host.Cell) (k n : Nat) (h : ∀ j, k ≤ j → j < k + n → Memory.byte m j = Memory.byte m' j) :
    Memory.bytes m k n = Memory.bytes m' k n := by
  induction n generalizing k with
  | zero => rfl
  | succ n ih =>
    simp only [Memory.bytes]
    rw [h k (by omega) (by omega), ih (k + 1) fun j h1 h2 => h j (by omega) (by omega)]

/-- Reading back what was written. -/
theorem Memory.bytes_write (m : List Host.Cell) (k : Nat) (bs : List Byte) : Memory.bytes (Memory.write m k bs) k bs.length = bs := by
  induction bs generalizing m k with
  | nil => rfl
  | cons b bs ih =>
    simp only [Memory.write, List.length_cons, Memory.bytes]
    rw [ih, Memory.byte_write_other _ _ _ _ (Or.inl (by omega)), Memory.byte_setByte, if_pos rfl]

theorem Memory.wf_setByte (m : List Host.Cell) (k : Nat) (b : Byte) (h : Memory.wf m) : Memory.wf (Memory.setByte m k b) :=
  Sparse.wf_set emptyByte m k b h

theorem Memory.wf_write (m : List Host.Cell) (k : Nat) (bs : List Byte) (h : Memory.wf m) : Memory.wf (Memory.write m k bs) := by
  induction bs generalizing m k with
  | nil => exact h
  | cons b bs ih => exact ih _ _ (Memory.wf_setByte m k b h)

theorem Memory.wf_filter (m : List Host.Cell) (p : Host.Cell → Bool) (h : Memory.wf m) : Memory.wf (m.filter p) :=
  Sparse.wf_filter emptyByte m p h

theorem Memory.wf_clear (m : List Host.Cell) (k n : Nat) (h : Memory.wf m) : Memory.wf (Memory.clear m k n) :=
  Memory.wf_filter m _ h

theorem Memory.wf_paste (m : List Host.Cell) (k n : Nat) (cells : List Host.Cell) (h : Memory.wf m) :
    Memory.wf (Memory.paste m k n cells) := by
  unfold Memory.paste
  generalize hm : Memory.clear m k n = m'
  have h' : Memory.wf m' := hm ▸ Memory.wf_clear m k n h
  clear hm h
  induction cells generalizing m' with
  | nil => exact h'
  | cons c cs ih =>
    simp only [List.foldl_cons]
    apply ih
    split
    · exact Memory.wf_setByte _ _ _ h'
    · exact h'

theorem Memory.wf_writePieces (m : List Host.Cell) (ps : List Piece) (bs : List Byte) (h : Memory.wf m) :
    Memory.wf (Memory.writePieces m ps bs) := by
  induction ps generalizing m bs with
  | nil => exact h
  | cons p ps ih => exact ih _ _ (Memory.wf_write m p.1 _ h)

end Sys2Proof.Machine
end

