-- ==== Sys2Proof/Laws/Encoding.lean ====
section
/-! SUPPORT. The fields of a word read back: what each format writes, its reader reads, and the OP value stands where the decoder looks
for it. -/

namespace Sys2Proof

/-! ## Fields of joined bit vectors -/

theorem extract_append_high {v w s l : Nat} (x : BitVec v) (y : BitVec w) (z : BitVec l) (h : w ≤ s)
    (hz : x.extractLsb' (s - w) l = z) : (x ++ y).extractLsb' s l = z := by
  rw [BitVec.extractLsb'_append_eq_of_le h]
  exact hz

theorem extract_append_low {v w s l : Nat} (x : BitVec v) (y : BitVec w) (z : BitVec l) (h : s + l ≤ w)
    (hz : y.extractLsb' s l = z) : (x ++ y).extractLsb' s l = z := by
  rw [BitVec.extractLsb'_append_eq_of_add_le h]
  exact hz

theorem extract_self {l : Nat} (x : BitVec l) : x.extractLsb' 0 l = x := by
  simp

theorem getLsbD_of_extract {n s : Nat} (x : BitVec n) (b : Bool) (h : x.extractLsb' s 1 = BitVec.ofBool b) :
    x.getLsbD s = b := by
  simpa using congrArg (fun t => t.getLsbD 0) h

/-! ## Codes -/

@[simp] theorem Ty.ofCode_code (x : Ty) : Ty.ofCode x.code = x := by
  cases x <;> rfl

@[simp] theorem Hint.ofCode_code (x : Hint) : Hint.ofCode x.code = x := by
  cases x <;> rfl

@[simp] theorem Rnd.ofCode_code (x : Rnd) : Rnd.ofCode x.code = some x := by
  cases x <;> rfl

@[simp] theorem Scope.ofCode_code (x : Scope) : Scope.ofCode x.code = some x := by
  cases x <;> rfl

@[simp] theorem Ord.ofCode_code (x : Ord) : Ord.ofCode x.code = some x := by
  cases x <;> rfl

/-! ## Formats -/

/-- The OP value of a word in format V. -/
theorem VForm.word_op (op : BitVec 10) (f : VForm) : (f.word op).extractLsb' 86 10 = op := by
  repeat first
    | exact extract_self _
    | refine extract_append_high _ _ _ (by decide) ?_

/-- A word in format V is read back whole. -/
theorem VForm.ofWord_word (op : BitVec 10) (f : VForm) : VForm.ofWord (f.word op) = some f := by
  have e0 : (f.word op).extractLsb' 27 3 = f.rnd.code := by
    repeat first
      | exact extract_self _
      | refine extract_append_high _ _ _ (by decide) ?_
      | refine extract_append_low _ _ _ (by decide) ?_
  have e1 : (f.word op).extractLsb' 30 4 = f.ty.code := by
    repeat first
      | exact extract_self _
      | refine extract_append_high _ _ _ (by decide) ?_
      | refine extract_append_low _ _ _ (by decide) ?_
  have hd : Hd.ofWord (f.word op) = f.hd := by
    simp only [Hd.ofWord]
    congr 1
    all_goals try apply getLsbD_of_extract
    all_goals repeat first
      | exact extract_self _
      | refine extract_append_high _ _ _ (by decide) ?_
      | refine extract_append_low _ _ _ (by decide) ?_
  simp only [VForm.ofWord, hd, e0, e1, Rnd.ofCode_code, Ty.ofCode_code, Option.map_some]
  congr 1
  cases f
  congr 1
  all_goals try apply getLsbD_of_extract
  all_goals repeat first
      | exact extract_self _
      | refine extract_append_high _ _ _ (by decide) ?_
      | refine extract_append_low _ _ _ (by decide) ?_

/-- The OP value of a word in format I. -/
theorem IForm.word_op (op : BitVec 10) (f : IForm) : (f.word op).extractLsb' 86 10 = op := by
  repeat first
    | exact extract_self _
    | refine extract_append_high _ _ _ (by decide) ?_

/-- A word in format I is read back whole. -/
theorem IForm.ofWord_word (op : BitVec 10) (f : IForm) : IForm.ofWord (f.word op) = some f := by
  have e0 : (f.word op).extractLsb' 15 3 = f.rnd.code := by
    repeat first
      | exact extract_self _
      | refine extract_append_high _ _ _ (by decide) ?_
      | refine extract_append_low _ _ _ (by decide) ?_
  have e1 : (f.word op).extractLsb' 18 4 = f.ty.code := by
    repeat first
      | exact extract_self _
      | refine extract_append_high _ _ _ (by decide) ?_
      | refine extract_append_low _ _ _ (by decide) ?_
  have hd : Hd.ofWord (f.word op) = f.hd := by
    simp only [Hd.ofWord]
    congr 1
    all_goals try apply getLsbD_of_extract
    all_goals repeat first
      | exact extract_self _
      | refine extract_append_high _ _ _ (by decide) ?_
      | refine extract_append_low _ _ _ (by decide) ?_
  simp only [IForm.ofWord, hd, e0, e1, Rnd.ofCode_code, Ty.ofCode_code, Option.map_some]
  congr 1
  cases f
  congr 1
  all_goals try apply getLsbD_of_extract
  all_goals repeat first
      | exact extract_self _
      | refine extract_append_high _ _ _ (by decide) ?_
      | refine extract_append_low _ _ _ (by decide) ?_

/-- The OP value of a word in the layout of `lop3`. -/
theorem LopForm.word_op (op : BitVec 10) (f : LopForm) : (f.word op).extractLsb' 86 10 = op := by
  repeat first
    | exact extract_self _
    | refine extract_append_high _ _ _ (by decide) ?_

/-- A word in the layout of `lop3` is read back whole. -/
theorem LopForm.ofWord_word (op : BitVec 10) (f : LopForm) : LopForm.ofWord (f.word op) = some f := by
  have e0 : (f.word op).extractLsb' 15 3 = f.rnd.code := by
    repeat first
      | exact extract_self _
      | refine extract_append_high _ _ _ (by decide) ?_
      | refine extract_append_low _ _ _ (by decide) ?_
  have e1 : (f.word op).extractLsb' 18 4 = f.ty.code := by
    repeat first
      | exact extract_self _
      | refine extract_append_high _ _ _ (by decide) ?_
      | refine extract_append_low _ _ _ (by decide) ?_
  have hd : Hd.ofWord (f.word op) = f.hd := by
    simp only [Hd.ofWord]
    congr 1
    all_goals try apply getLsbD_of_extract
    all_goals repeat first
      | exact extract_self _
      | refine extract_append_high _ _ _ (by decide) ?_
      | refine extract_append_low _ _ _ (by decide) ?_
  simp only [LopForm.ofWord, hd, e0, e1, Rnd.ofCode_code, Ty.ofCode_code, Option.map_some]
  congr 1
  cases f
  congr 1
  all_goals try apply getLsbD_of_extract
  all_goals repeat first
      | exact extract_self _
      | refine extract_append_high _ _ _ (by decide) ?_
      | refine extract_append_low _ _ _ (by decide) ?_

/-- The OP value of a word in format M. -/
theorem MForm.word_op (op : BitVec 10) (f : MForm) : (f.word op).extractLsb' 86 10 = op := by
  repeat first
    | exact extract_self _
    | refine extract_append_high _ _ _ (by decide) ?_

/-- A word in format M is read back whole. -/
theorem MForm.ofWord_word (op : BitVec 10) (f : MForm) : MForm.ofWord (f.word op) = some f := by
  have e0 : (f.word op).extractLsb' 3 3 = f.scope.code := by
    repeat first
      | exact extract_self _
      | refine extract_append_high _ _ _ (by decide) ?_
      | refine extract_append_low _ _ _ (by decide) ?_
  have e1 : (f.word op).extractLsb' 0 3 = f.ord.code := by
    repeat first
      | exact extract_self _
      | refine extract_append_high _ _ _ (by decide) ?_
      | refine extract_append_low _ _ _ (by decide) ?_
  have e2 : (f.word op).extractLsb' 6 2 = f.hint.code := by
    repeat first
      | exact extract_self _
      | refine extract_append_high _ _ _ (by decide) ?_
      | refine extract_append_low _ _ _ (by decide) ?_
  have e3 : (f.word op).extractLsb' 8 4 = f.wt.code := by
    repeat first
      | exact extract_self _
      | refine extract_append_high _ _ _ (by decide) ?_
      | refine extract_append_low _ _ _ (by decide) ?_
  have hd : Hd.ofWord (f.word op) = f.hd := by
    simp only [Hd.ofWord]
    congr 1
    all_goals try apply getLsbD_of_extract
    all_goals repeat first
      | exact extract_self _
      | refine extract_append_high _ _ _ (by decide) ?_
      | refine extract_append_low _ _ _ (by decide) ?_
  simp only [MForm.ofWord, hd, e0, e1, e2, e3, Scope.ofCode_code, Ord.ofCode_code, Hint.ofCode_code, Ty.ofCode_code, Option.map_some, Option.bind_some]
  congr 1
  cases f
  congr 1
  all_goals repeat first
      | exact extract_self _
      | refine extract_append_high _ _ _ (by decide) ?_
      | refine extract_append_low _ _ _ (by decide) ?_

/-- The OP value of a word in the M-op layout. -/
theorem MopForm.word_op (op : BitVec 10) (f : MopForm) : (f.word op).extractLsb' 86 10 = op := by
  repeat first
    | exact extract_self _
    | refine extract_append_high _ _ _ (by decide) ?_

/-- A word in the M-op layout is read back whole. -/
theorem MopForm.ofWord_word (op : BitVec 10) (f : MopForm) : MopForm.ofWord (f.word op) = some f := by
  have e0 : (f.word op).extractLsb' 3 3 = f.scope.code := by
    repeat first
      | exact extract_self _
      | refine extract_append_high _ _ _ (by decide) ?_
      | refine extract_append_low _ _ _ (by decide) ?_
  have e1 : (f.word op).extractLsb' 0 3 = f.ord.code := by
    repeat first
      | exact extract_self _
      | refine extract_append_high _ _ _ (by decide) ?_
      | refine extract_append_low _ _ _ (by decide) ?_
  have e2 : (f.word op).extractLsb' 6 2 = f.hint.code := by
    repeat first
      | exact extract_self _
      | refine extract_append_high _ _ _ (by decide) ?_
      | refine extract_append_low _ _ _ (by decide) ?_
  have e3 : (f.word op).extractLsb' 8 4 = f.wt.code := by
    repeat first
      | exact extract_self _
      | refine extract_append_high _ _ _ (by decide) ?_
      | refine extract_append_low _ _ _ (by decide) ?_
  have hd : Hd.ofWord (f.word op) = f.hd := by
    simp only [Hd.ofWord]
    congr 1
    all_goals try apply getLsbD_of_extract
    all_goals repeat first
      | exact extract_self _
      | refine extract_append_high _ _ _ (by decide) ?_
      | refine extract_append_low _ _ _ (by decide) ?_
  simp only [MopForm.ofWord, hd, e0, e1, e2, e3, Scope.ofCode_code, Ord.ofCode_code, Hint.ofCode_code, Ty.ofCode_code, Option.map_some, Option.bind_some]
  congr 1
  cases f
  congr 1
  all_goals repeat first
      | exact extract_self _
      | refine extract_append_high _ _ _ (by decide) ?_
      | refine extract_append_low _ _ _ (by decide) ?_

/-- The OP value of a word in format J. -/
theorem JForm.word_op (op : BitVec 10) (f : JForm) : (f.word op).extractLsb' 86 10 = op := by
  repeat first
    | exact extract_self _
    | refine extract_append_high _ _ _ (by decide) ?_

/-- A word in format J is read back whole. -/
theorem JForm.ofWord_word (op : BitVec 10) (f : JForm) : JForm.ofWord (f.word op) = some f := by
  have hd : Hd.ofWord (f.word op) = f.hd := by
    simp only [Hd.ofWord]
    congr 1
    all_goals try apply getLsbD_of_extract
    all_goals repeat first
      | exact extract_self _
      | refine extract_append_high _ _ _ (by decide) ?_
      | refine extract_append_low _ _ _ (by decide) ?_
  simp only [JForm.ofWord, hd]
  congr 1
  cases f
  congr 1
  all_goals repeat first
      | exact extract_self _
      | refine extract_append_high _ _ _ (by decide) ?_
      | refine extract_append_low _ _ _ (by decide) ?_

/-- The OP value of a word in format E. -/
theorem EForm.word_op (op : BitVec 10) (f : EForm) : (f.word op).extractLsb' 86 10 = op := by
  repeat first
    | exact extract_self _
    | refine extract_append_high _ _ _ (by decide) ?_

/-- A word in format E is read back whole. -/
theorem EForm.ofWord_word (op : BitVec 10) (f : EForm) : EForm.ofWord (f.word op) = some f := by
  have hd : Hd.ofWord (f.word op) = f.hd := by
    simp only [Hd.ofWord]
    congr 1
    all_goals try apply getLsbD_of_extract
    all_goals repeat first
      | exact extract_self _
      | refine extract_append_high _ _ _ (by decide) ?_
      | refine extract_append_low _ _ _ (by decide) ?_
  simp only [EForm.ofWord, hd]
  congr 1
  cases f
  congr 1
  all_goals repeat first
      | exact extract_self _
      | refine extract_append_high _ _ _ (by decide) ?_
      | refine extract_append_low _ _ _ (by decide) ?_

/-- The OP value of a word in the layout of `hpush`. -/
theorem HpushForm.word_op (op : BitVec 10) (f : HpushForm) : (f.word op).extractLsb' 86 10 = op := by
  repeat first
    | exact extract_self _
    | refine extract_append_high _ _ _ (by decide) ?_

/-- A word in the layout of `hpush` is read back whole. -/
theorem HpushForm.ofWord_word (op : BitVec 10) (f : HpushForm) : HpushForm.ofWord (f.word op) = some f := by
  have hd : Hd.ofWord (f.word op) = f.hd := by
    simp only [Hd.ofWord]
    congr 1
    all_goals try apply getLsbD_of_extract
    all_goals repeat first
      | exact extract_self _
      | refine extract_append_high _ _ _ (by decide) ?_
      | refine extract_append_low _ _ _ (by decide) ?_
  simp only [HpushForm.ofWord, hd]
  congr 1
  cases f
  congr 1
  all_goals repeat first
      | exact extract_self _
      | refine extract_append_high _ _ _ (by decide) ?_
      | refine extract_append_low _ _ _ (by decide) ?_

/-- The OP value of a word in the layout of `perf`. -/
theorem PerfForm.word_op (op : BitVec 10) (f : PerfForm) : (f.word op).extractLsb' 86 10 = op := by
  repeat first
    | exact extract_self _
    | refine extract_append_high _ _ _ (by decide) ?_

/-- A word in the layout of `perf` is read back whole. -/
theorem PerfForm.ofWord_word (op : BitVec 10) (f : PerfForm) : PerfForm.ofWord (f.word op) = some f := by
  have hd : Hd.ofWord (f.word op) = f.hd := by
    simp only [Hd.ofWord]
    congr 1
    all_goals try apply getLsbD_of_extract
    all_goals repeat first
      | exact extract_self _
      | refine extract_append_high _ _ _ (by decide) ?_
      | refine extract_append_low _ _ _ (by decide) ?_
  simp only [PerfForm.ofWord, hd]
  congr 1
  cases f
  congr 1
  all_goals try apply getLsbD_of_extract
  all_goals repeat first
      | exact extract_self _
      | refine extract_append_high _ _ _ (by decide) ?_
      | refine extract_append_low _ _ _ (by decide) ?_

/-- The OP value of a word in format Y. -/
theorem TrapForm.word_op (op : BitVec 10) (f : TrapForm) : (f.word op).extractLsb' 86 10 = op := by
  repeat first
    | exact extract_self _
    | refine extract_append_high _ _ _ (by decide) ?_

/-- A word in format Y is read back whole. -/
theorem TrapForm.ofWord_word (op : BitVec 10) (f : TrapForm) : TrapForm.ofWord (f.word op) = some f := by
  have hd : Hd.ofWord (f.word op) = f.hd := by
    simp only [Hd.ofWord]
    congr 1
    all_goals try apply getLsbD_of_extract
    all_goals repeat first
      | exact extract_self _
      | refine extract_append_high _ _ _ (by decide) ?_
      | refine extract_append_low _ _ _ (by decide) ?_
  simp only [TrapForm.ofWord, hd]
  congr 1
  cases f
  congr 1
  all_goals repeat first
      | exact extract_self _
      | refine extract_append_high _ _ _ (by decide) ?_
      | refine extract_append_low _ _ _ (by decide) ?_

end Sys2Proof
end

