-- ==== Sys2Proof/Laws/State.lean ====
section
/-! SUPPORT. What each update of one part of the state leaves in every field: one lemma per field per update. -/

namespace Sys2Proof.Machine

/-! ## `modWave` -/

@[simp] theorem State.modWave_slots (s : State) (w : Nat) (f : Wave → Wave) : (s.modWave w f).slots = s.slots := rfl
@[simp] theorem State.modWave_agenda (s : State) (w : Nat) (f : Wave → Wave) : (s.modWave w f).agenda = s.agenda := rfl
@[simp] theorem State.modWave_turn (s : State) (w : Nat) (f : Wave → Wave) : (s.modWave w f).turn = s.turn := rfl
@[simp] theorem State.modWave_freeCtr (s : State) (w : Nat) (f : Wave → Wave) : (s.modWave w f).freeCtr = s.freeCtr := rfl
theorem State.modWave_waves (s : State) (w : Nat) (f : Wave → Wave) : (s.modWave w f).waves = modifyAt s.waves w f := rfl
@[simp] theorem State.modWave_teams (s : State) (w : Nat) (f : Wave → Wave) : (s.modWave w f).teams = s.teams := rfl
@[simp] theorem State.modWave_launches (s : State) (w : Nat) (f : Wave → Wave) : (s.modWave w f).launches = s.launches := rfl
@[simp] theorem State.modWave_barriers (s : State) (w : Nat) (f : Wave → Wave) : (s.modWave w f).barriers = s.barriers := rfl
@[simp] theorem State.modWave_deliveries (s : State) (w : Nat) (f : Wave → Wave) : (s.modWave w f).deliveries = s.deliveries := rfl
@[simp] theorem State.modWave_prefetches (s : State) (w : Nat) (f : Wave → Wave) : (s.modWave w f).prefetches = s.prefetches := rfl
@[simp] theorem State.modWave_ctxs (s : State) (w : Nat) (f : Wave → Wave) : (s.modWave w f).ctxs = s.ctxs := rfl
@[simp] theorem State.modWave_worlds (s : State) (w : Nat) (f : Wave → Wave) : (s.modWave w f).worlds = s.worlds := rfl
@[simp] theorem State.modWave_tiles (s : State) (w : Nat) (f : Wave → Wave) : (s.modWave w f).tiles = s.tiles := rfl
@[simp] theorem State.modWave_dies (s : State) (w : Nat) (f : Wave → Wave) : (s.modWave w f).dies = s.dies := rfl
@[simp] theorem State.modWave_mem (s : State) (w : Nat) (f : Wave → Wave) : (s.modWave w f).mem = s.mem := rfl
@[simp] theorem State.modWave_home (s : State) (w : Nat) (f : Wave → Wave) : (s.modWave w f).home = s.home := rfl
@[simp] theorem State.modWave_frameMap (s : State) (w : Nat) (f : Wave → Wave) : (s.modWave w f).frameMap = s.frameMap := rfl
@[simp] theorem State.modWave_poison (s : State) (w : Nat) (f : Wave → Wave) : (s.modWave w f).poison = s.poison := rfl
@[simp] theorem State.modWave_homePoison (s : State) (w : Nat) (f : Wave → Wave) : (s.modWave w f).homePoison = s.homePoison := rfl
@[simp] theorem State.modWave_regPoison (s : State) (w : Nat) (f : Wave → Wave) : (s.modWave w f).regPoison = s.regPoison := rfl
@[simp] theorem State.modWave_counters (s : State) (w : Nat) (f : Wave → Wave) : (s.modWave w f).counters = s.counters := rfl
@[simp] theorem State.modWave_stackCount (s : State) (w : Nat) (f : Wave → Wave) : (s.modWave w f).stackCount = s.stackCount := rfl
@[simp] theorem State.modWave_pinned (s : State) (w : Nat) (f : Wave → Wave) : (s.modWave w f).pinned = s.pinned := rfl
@[simp] theorem State.modWave_dirty (s : State) (w : Nat) (f : Wave → Wave) : (s.modWave w f).dirty = s.dirty := rfl
@[simp] theorem State.modWave_fetchLines (s : State) (w : Nat) (f : Wave → Wave) : (s.modWave w f).fetchLines = s.fetchLines := rfl
@[simp] theorem State.modWave_images (s : State) (w : Nat) (f : Wave → Wave) : (s.modWave w f).images = s.images := rfl
@[simp] theorem State.modWave_proxy (s : State) (w : Nat) (f : Wave → Wave) : (s.modWave w f).proxy = s.proxy := rfl
@[simp] theorem State.modWave_fabric (s : State) (w : Nat) (f : Wave → Wave) : (s.modWave w f).fabric = s.fabric := rfl
@[simp] theorem State.modWave_pkg (s : State) (w : Nat) (f : Wave → Wave) : (s.modWave w f).pkg = s.pkg := rfl

/-! ## `modCtx` -/

@[simp] theorem State.modCtx_slots (s : State) (c : Nat) (f : Ctx → Ctx) : (s.modCtx c f).slots = s.slots := rfl
@[simp] theorem State.modCtx_agenda (s : State) (c : Nat) (f : Ctx → Ctx) : (s.modCtx c f).agenda = s.agenda := rfl
@[simp] theorem State.modCtx_turn (s : State) (c : Nat) (f : Ctx → Ctx) : (s.modCtx c f).turn = s.turn := rfl
@[simp] theorem State.modCtx_freeCtr (s : State) (c : Nat) (f : Ctx → Ctx) : (s.modCtx c f).freeCtr = s.freeCtr := rfl
@[simp] theorem State.modCtx_waves (s : State) (c : Nat) (f : Ctx → Ctx) : (s.modCtx c f).waves = s.waves := rfl
@[simp] theorem State.modCtx_teams (s : State) (c : Nat) (f : Ctx → Ctx) : (s.modCtx c f).teams = s.teams := rfl
@[simp] theorem State.modCtx_launches (s : State) (c : Nat) (f : Ctx → Ctx) : (s.modCtx c f).launches = s.launches := rfl
@[simp] theorem State.modCtx_barriers (s : State) (c : Nat) (f : Ctx → Ctx) : (s.modCtx c f).barriers = s.barriers := rfl
@[simp] theorem State.modCtx_deliveries (s : State) (c : Nat) (f : Ctx → Ctx) : (s.modCtx c f).deliveries = s.deliveries := rfl
@[simp] theorem State.modCtx_prefetches (s : State) (c : Nat) (f : Ctx → Ctx) : (s.modCtx c f).prefetches = s.prefetches := rfl
theorem State.modCtx_ctxs (s : State) (c : Nat) (f : Ctx → Ctx) : (s.modCtx c f).ctxs = s.ctxs.map fun x => if x.num == c && x.live then f x else x := rfl
@[simp] theorem State.modCtx_worlds (s : State) (c : Nat) (f : Ctx → Ctx) : (s.modCtx c f).worlds = s.worlds := rfl
@[simp] theorem State.modCtx_tiles (s : State) (c : Nat) (f : Ctx → Ctx) : (s.modCtx c f).tiles = s.tiles := rfl
@[simp] theorem State.modCtx_dies (s : State) (c : Nat) (f : Ctx → Ctx) : (s.modCtx c f).dies = s.dies := rfl
@[simp] theorem State.modCtx_mem (s : State) (c : Nat) (f : Ctx → Ctx) : (s.modCtx c f).mem = s.mem := rfl
@[simp] theorem State.modCtx_home (s : State) (c : Nat) (f : Ctx → Ctx) : (s.modCtx c f).home = s.home := rfl
@[simp] theorem State.modCtx_frameMap (s : State) (c : Nat) (f : Ctx → Ctx) : (s.modCtx c f).frameMap = s.frameMap := rfl
@[simp] theorem State.modCtx_poison (s : State) (c : Nat) (f : Ctx → Ctx) : (s.modCtx c f).poison = s.poison := rfl
@[simp] theorem State.modCtx_homePoison (s : State) (c : Nat) (f : Ctx → Ctx) : (s.modCtx c f).homePoison = s.homePoison := rfl
@[simp] theorem State.modCtx_regPoison (s : State) (c : Nat) (f : Ctx → Ctx) : (s.modCtx c f).regPoison = s.regPoison := rfl
@[simp] theorem State.modCtx_counters (s : State) (c : Nat) (f : Ctx → Ctx) : (s.modCtx c f).counters = s.counters := rfl
@[simp] theorem State.modCtx_stackCount (s : State) (c : Nat) (f : Ctx → Ctx) : (s.modCtx c f).stackCount = s.stackCount := rfl
@[simp] theorem State.modCtx_pinned (s : State) (c : Nat) (f : Ctx → Ctx) : (s.modCtx c f).pinned = s.pinned := rfl
@[simp] theorem State.modCtx_dirty (s : State) (c : Nat) (f : Ctx → Ctx) : (s.modCtx c f).dirty = s.dirty := rfl
@[simp] theorem State.modCtx_fetchLines (s : State) (c : Nat) (f : Ctx → Ctx) : (s.modCtx c f).fetchLines = s.fetchLines := rfl
@[simp] theorem State.modCtx_images (s : State) (c : Nat) (f : Ctx → Ctx) : (s.modCtx c f).images = s.images := rfl
@[simp] theorem State.modCtx_proxy (s : State) (c : Nat) (f : Ctx → Ctx) : (s.modCtx c f).proxy = s.proxy := rfl
@[simp] theorem State.modCtx_fabric (s : State) (c : Nat) (f : Ctx → Ctx) : (s.modCtx c f).fabric = s.fabric := rfl
@[simp] theorem State.modCtx_pkg (s : State) (c : Nat) (f : Ctx → Ctx) : (s.modCtx c f).pkg = s.pkg := rfl

/-! ## `modTile` -/

@[simp] theorem State.modTile_slots (s : State) (t : Nat) (f : Tile → Tile) : (s.modTile t f).slots = s.slots := rfl
@[simp] theorem State.modTile_agenda (s : State) (t : Nat) (f : Tile → Tile) : (s.modTile t f).agenda = s.agenda := rfl
@[simp] theorem State.modTile_turn (s : State) (t : Nat) (f : Tile → Tile) : (s.modTile t f).turn = s.turn := rfl
@[simp] theorem State.modTile_freeCtr (s : State) (t : Nat) (f : Tile → Tile) : (s.modTile t f).freeCtr = s.freeCtr := rfl
@[simp] theorem State.modTile_waves (s : State) (t : Nat) (f : Tile → Tile) : (s.modTile t f).waves = s.waves := rfl
@[simp] theorem State.modTile_teams (s : State) (t : Nat) (f : Tile → Tile) : (s.modTile t f).teams = s.teams := rfl
@[simp] theorem State.modTile_launches (s : State) (t : Nat) (f : Tile → Tile) : (s.modTile t f).launches = s.launches := rfl
@[simp] theorem State.modTile_barriers (s : State) (t : Nat) (f : Tile → Tile) : (s.modTile t f).barriers = s.barriers := rfl
@[simp] theorem State.modTile_deliveries (s : State) (t : Nat) (f : Tile → Tile) : (s.modTile t f).deliveries = s.deliveries := rfl
@[simp] theorem State.modTile_prefetches (s : State) (t : Nat) (f : Tile → Tile) : (s.modTile t f).prefetches = s.prefetches := rfl
@[simp] theorem State.modTile_ctxs (s : State) (t : Nat) (f : Tile → Tile) : (s.modTile t f).ctxs = s.ctxs := rfl
@[simp] theorem State.modTile_worlds (s : State) (t : Nat) (f : Tile → Tile) : (s.modTile t f).worlds = s.worlds := rfl
theorem State.modTile_tiles (s : State) (t : Nat) (f : Tile → Tile) : (s.modTile t f).tiles = modifyAt s.tiles t f := rfl
@[simp] theorem State.modTile_dies (s : State) (t : Nat) (f : Tile → Tile) : (s.modTile t f).dies = s.dies := rfl
@[simp] theorem State.modTile_mem (s : State) (t : Nat) (f : Tile → Tile) : (s.modTile t f).mem = s.mem := rfl
@[simp] theorem State.modTile_home (s : State) (t : Nat) (f : Tile → Tile) : (s.modTile t f).home = s.home := rfl
@[simp] theorem State.modTile_frameMap (s : State) (t : Nat) (f : Tile → Tile) : (s.modTile t f).frameMap = s.frameMap := rfl
@[simp] theorem State.modTile_poison (s : State) (t : Nat) (f : Tile → Tile) : (s.modTile t f).poison = s.poison := rfl
@[simp] theorem State.modTile_homePoison (s : State) (t : Nat) (f : Tile → Tile) : (s.modTile t f).homePoison = s.homePoison := rfl
@[simp] theorem State.modTile_regPoison (s : State) (t : Nat) (f : Tile → Tile) : (s.modTile t f).regPoison = s.regPoison := rfl
@[simp] theorem State.modTile_counters (s : State) (t : Nat) (f : Tile → Tile) : (s.modTile t f).counters = s.counters := rfl
@[simp] theorem State.modTile_stackCount (s : State) (t : Nat) (f : Tile → Tile) : (s.modTile t f).stackCount = s.stackCount := rfl
@[simp] theorem State.modTile_pinned (s : State) (t : Nat) (f : Tile → Tile) : (s.modTile t f).pinned = s.pinned := rfl
@[simp] theorem State.modTile_dirty (s : State) (t : Nat) (f : Tile → Tile) : (s.modTile t f).dirty = s.dirty := rfl
@[simp] theorem State.modTile_fetchLines (s : State) (t : Nat) (f : Tile → Tile) : (s.modTile t f).fetchLines = s.fetchLines := rfl
@[simp] theorem State.modTile_images (s : State) (t : Nat) (f : Tile → Tile) : (s.modTile t f).images = s.images := rfl
@[simp] theorem State.modTile_proxy (s : State) (t : Nat) (f : Tile → Tile) : (s.modTile t f).proxy = s.proxy := rfl
@[simp] theorem State.modTile_fabric (s : State) (t : Nat) (f : Tile → Tile) : (s.modTile t f).fabric = s.fabric := rfl
@[simp] theorem State.modTile_pkg (s : State) (t : Nat) (f : Tile → Tile) : (s.modTile t f).pkg = s.pkg := rfl

/-! ## `modDie` -/

@[simp] theorem State.modDie_slots (s : State) (d : Nat) (f : Die → Die) : (s.modDie d f).slots = s.slots := rfl
@[simp] theorem State.modDie_agenda (s : State) (d : Nat) (f : Die → Die) : (s.modDie d f).agenda = s.agenda := rfl
@[simp] theorem State.modDie_turn (s : State) (d : Nat) (f : Die → Die) : (s.modDie d f).turn = s.turn := rfl
@[simp] theorem State.modDie_freeCtr (s : State) (d : Nat) (f : Die → Die) : (s.modDie d f).freeCtr = s.freeCtr := rfl
@[simp] theorem State.modDie_waves (s : State) (d : Nat) (f : Die → Die) : (s.modDie d f).waves = s.waves := rfl
@[simp] theorem State.modDie_teams (s : State) (d : Nat) (f : Die → Die) : (s.modDie d f).teams = s.teams := rfl
@[simp] theorem State.modDie_launches (s : State) (d : Nat) (f : Die → Die) : (s.modDie d f).launches = s.launches := rfl
@[simp] theorem State.modDie_barriers (s : State) (d : Nat) (f : Die → Die) : (s.modDie d f).barriers = s.barriers := rfl
@[simp] theorem State.modDie_deliveries (s : State) (d : Nat) (f : Die → Die) : (s.modDie d f).deliveries = s.deliveries := rfl
@[simp] theorem State.modDie_prefetches (s : State) (d : Nat) (f : Die → Die) : (s.modDie d f).prefetches = s.prefetches := rfl
@[simp] theorem State.modDie_ctxs (s : State) (d : Nat) (f : Die → Die) : (s.modDie d f).ctxs = s.ctxs := rfl
@[simp] theorem State.modDie_worlds (s : State) (d : Nat) (f : Die → Die) : (s.modDie d f).worlds = s.worlds := rfl
@[simp] theorem State.modDie_tiles (s : State) (d : Nat) (f : Die → Die) : (s.modDie d f).tiles = s.tiles := rfl
theorem State.modDie_dies (s : State) (d : Nat) (f : Die → Die) : (s.modDie d f).dies = modifyAt s.dies d f := rfl
@[simp] theorem State.modDie_mem (s : State) (d : Nat) (f : Die → Die) : (s.modDie d f).mem = s.mem := rfl
@[simp] theorem State.modDie_home (s : State) (d : Nat) (f : Die → Die) : (s.modDie d f).home = s.home := rfl
@[simp] theorem State.modDie_frameMap (s : State) (d : Nat) (f : Die → Die) : (s.modDie d f).frameMap = s.frameMap := rfl
@[simp] theorem State.modDie_poison (s : State) (d : Nat) (f : Die → Die) : (s.modDie d f).poison = s.poison := rfl
@[simp] theorem State.modDie_homePoison (s : State) (d : Nat) (f : Die → Die) : (s.modDie d f).homePoison = s.homePoison := rfl
@[simp] theorem State.modDie_regPoison (s : State) (d : Nat) (f : Die → Die) : (s.modDie d f).regPoison = s.regPoison := rfl
@[simp] theorem State.modDie_counters (s : State) (d : Nat) (f : Die → Die) : (s.modDie d f).counters = s.counters := rfl
@[simp] theorem State.modDie_stackCount (s : State) (d : Nat) (f : Die → Die) : (s.modDie d f).stackCount = s.stackCount := rfl
@[simp] theorem State.modDie_pinned (s : State) (d : Nat) (f : Die → Die) : (s.modDie d f).pinned = s.pinned := rfl
@[simp] theorem State.modDie_dirty (s : State) (d : Nat) (f : Die → Die) : (s.modDie d f).dirty = s.dirty := rfl
@[simp] theorem State.modDie_fetchLines (s : State) (d : Nat) (f : Die → Die) : (s.modDie d f).fetchLines = s.fetchLines := rfl
@[simp] theorem State.modDie_images (s : State) (d : Nat) (f : Die → Die) : (s.modDie d f).images = s.images := rfl
@[simp] theorem State.modDie_proxy (s : State) (d : Nat) (f : Die → Die) : (s.modDie d f).proxy = s.proxy := rfl
@[simp] theorem State.modDie_fabric (s : State) (d : Nat) (f : Die → Die) : (s.modDie d f).fabric = s.fabric := rfl
@[simp] theorem State.modDie_pkg (s : State) (d : Nat) (f : Die → Die) : (s.modDie d f).pkg = s.pkg := rfl

/-! ## `modWorld` -/

@[simp] theorem State.modWorld_slots (s : State) (w : Nat) (f : World → World) : (s.modWorld w f).slots = s.slots := rfl
@[simp] theorem State.modWorld_agenda (s : State) (w : Nat) (f : World → World) : (s.modWorld w f).agenda = s.agenda := rfl
@[simp] theorem State.modWorld_turn (s : State) (w : Nat) (f : World → World) : (s.modWorld w f).turn = s.turn := rfl
@[simp] theorem State.modWorld_freeCtr (s : State) (w : Nat) (f : World → World) : (s.modWorld w f).freeCtr = s.freeCtr := rfl
@[simp] theorem State.modWorld_waves (s : State) (w : Nat) (f : World → World) : (s.modWorld w f).waves = s.waves := rfl
@[simp] theorem State.modWorld_teams (s : State) (w : Nat) (f : World → World) : (s.modWorld w f).teams = s.teams := rfl
@[simp] theorem State.modWorld_launches (s : State) (w : Nat) (f : World → World) : (s.modWorld w f).launches = s.launches := rfl
@[simp] theorem State.modWorld_barriers (s : State) (w : Nat) (f : World → World) : (s.modWorld w f).barriers = s.barriers := rfl
@[simp] theorem State.modWorld_deliveries (s : State) (w : Nat) (f : World → World) : (s.modWorld w f).deliveries = s.deliveries := rfl
@[simp] theorem State.modWorld_prefetches (s : State) (w : Nat) (f : World → World) : (s.modWorld w f).prefetches = s.prefetches := rfl
@[simp] theorem State.modWorld_ctxs (s : State) (w : Nat) (f : World → World) : (s.modWorld w f).ctxs = s.ctxs := rfl
theorem State.modWorld_worlds (s : State) (w : Nat) (f : World → World) : (s.modWorld w f).worlds = modifyAt s.worlds w f := rfl
@[simp] theorem State.modWorld_tiles (s : State) (w : Nat) (f : World → World) : (s.modWorld w f).tiles = s.tiles := rfl
@[simp] theorem State.modWorld_dies (s : State) (w : Nat) (f : World → World) : (s.modWorld w f).dies = s.dies := rfl
@[simp] theorem State.modWorld_mem (s : State) (w : Nat) (f : World → World) : (s.modWorld w f).mem = s.mem := rfl
@[simp] theorem State.modWorld_home (s : State) (w : Nat) (f : World → World) : (s.modWorld w f).home = s.home := rfl
@[simp] theorem State.modWorld_frameMap (s : State) (w : Nat) (f : World → World) : (s.modWorld w f).frameMap = s.frameMap := rfl
@[simp] theorem State.modWorld_poison (s : State) (w : Nat) (f : World → World) : (s.modWorld w f).poison = s.poison := rfl
@[simp] theorem State.modWorld_homePoison (s : State) (w : Nat) (f : World → World) : (s.modWorld w f).homePoison = s.homePoison := rfl
@[simp] theorem State.modWorld_regPoison (s : State) (w : Nat) (f : World → World) : (s.modWorld w f).regPoison = s.regPoison := rfl
@[simp] theorem State.modWorld_counters (s : State) (w : Nat) (f : World → World) : (s.modWorld w f).counters = s.counters := rfl
@[simp] theorem State.modWorld_stackCount (s : State) (w : Nat) (f : World → World) : (s.modWorld w f).stackCount = s.stackCount := rfl
@[simp] theorem State.modWorld_pinned (s : State) (w : Nat) (f : World → World) : (s.modWorld w f).pinned = s.pinned := rfl
@[simp] theorem State.modWorld_dirty (s : State) (w : Nat) (f : World → World) : (s.modWorld w f).dirty = s.dirty := rfl
@[simp] theorem State.modWorld_fetchLines (s : State) (w : Nat) (f : World → World) : (s.modWorld w f).fetchLines = s.fetchLines := rfl
@[simp] theorem State.modWorld_images (s : State) (w : Nat) (f : World → World) : (s.modWorld w f).images = s.images := rfl
@[simp] theorem State.modWorld_proxy (s : State) (w : Nat) (f : World → World) : (s.modWorld w f).proxy = s.proxy := rfl
@[simp] theorem State.modWorld_fabric (s : State) (w : Nat) (f : World → World) : (s.modWorld w f).fabric = s.fabric := rfl
@[simp] theorem State.modWorld_pkg (s : State) (w : Nat) (f : World → World) : (s.modWorld w f).pkg = s.pkg := rfl

/-! ## `modTeam` -/

@[simp] theorem State.modTeam_slots (s : State) (t : Nat) (f : Team → Team) : (s.modTeam t f).slots = s.slots := rfl
@[simp] theorem State.modTeam_agenda (s : State) (t : Nat) (f : Team → Team) : (s.modTeam t f).agenda = s.agenda := rfl
@[simp] theorem State.modTeam_turn (s : State) (t : Nat) (f : Team → Team) : (s.modTeam t f).turn = s.turn := rfl
@[simp] theorem State.modTeam_freeCtr (s : State) (t : Nat) (f : Team → Team) : (s.modTeam t f).freeCtr = s.freeCtr := rfl
@[simp] theorem State.modTeam_waves (s : State) (t : Nat) (f : Team → Team) : (s.modTeam t f).waves = s.waves := rfl
theorem State.modTeam_teams (s : State) (t : Nat) (f : Team → Team) : (s.modTeam t f).teams = modifyAt s.teams t f := rfl
@[simp] theorem State.modTeam_launches (s : State) (t : Nat) (f : Team → Team) : (s.modTeam t f).launches = s.launches := rfl
@[simp] theorem State.modTeam_barriers (s : State) (t : Nat) (f : Team → Team) : (s.modTeam t f).barriers = s.barriers := rfl
@[simp] theorem State.modTeam_deliveries (s : State) (t : Nat) (f : Team → Team) : (s.modTeam t f).deliveries = s.deliveries := rfl
@[simp] theorem State.modTeam_prefetches (s : State) (t : Nat) (f : Team → Team) : (s.modTeam t f).prefetches = s.prefetches := rfl
@[simp] theorem State.modTeam_ctxs (s : State) (t : Nat) (f : Team → Team) : (s.modTeam t f).ctxs = s.ctxs := rfl
@[simp] theorem State.modTeam_worlds (s : State) (t : Nat) (f : Team → Team) : (s.modTeam t f).worlds = s.worlds := rfl
@[simp] theorem State.modTeam_tiles (s : State) (t : Nat) (f : Team → Team) : (s.modTeam t f).tiles = s.tiles := rfl
@[simp] theorem State.modTeam_dies (s : State) (t : Nat) (f : Team → Team) : (s.modTeam t f).dies = s.dies := rfl
@[simp] theorem State.modTeam_mem (s : State) (t : Nat) (f : Team → Team) : (s.modTeam t f).mem = s.mem := rfl
@[simp] theorem State.modTeam_home (s : State) (t : Nat) (f : Team → Team) : (s.modTeam t f).home = s.home := rfl
@[simp] theorem State.modTeam_frameMap (s : State) (t : Nat) (f : Team → Team) : (s.modTeam t f).frameMap = s.frameMap := rfl
@[simp] theorem State.modTeam_poison (s : State) (t : Nat) (f : Team → Team) : (s.modTeam t f).poison = s.poison := rfl
@[simp] theorem State.modTeam_homePoison (s : State) (t : Nat) (f : Team → Team) : (s.modTeam t f).homePoison = s.homePoison := rfl
@[simp] theorem State.modTeam_regPoison (s : State) (t : Nat) (f : Team → Team) : (s.modTeam t f).regPoison = s.regPoison := rfl
@[simp] theorem State.modTeam_counters (s : State) (t : Nat) (f : Team → Team) : (s.modTeam t f).counters = s.counters := rfl
@[simp] theorem State.modTeam_stackCount (s : State) (t : Nat) (f : Team → Team) : (s.modTeam t f).stackCount = s.stackCount := rfl
@[simp] theorem State.modTeam_pinned (s : State) (t : Nat) (f : Team → Team) : (s.modTeam t f).pinned = s.pinned := rfl
@[simp] theorem State.modTeam_dirty (s : State) (t : Nat) (f : Team → Team) : (s.modTeam t f).dirty = s.dirty := rfl
@[simp] theorem State.modTeam_fetchLines (s : State) (t : Nat) (f : Team → Team) : (s.modTeam t f).fetchLines = s.fetchLines := rfl
@[simp] theorem State.modTeam_images (s : State) (t : Nat) (f : Team → Team) : (s.modTeam t f).images = s.images := rfl
@[simp] theorem State.modTeam_proxy (s : State) (t : Nat) (f : Team → Team) : (s.modTeam t f).proxy = s.proxy := rfl
@[simp] theorem State.modTeam_fabric (s : State) (t : Nat) (f : Team → Team) : (s.modTeam t f).fabric = s.fabric := rfl
@[simp] theorem State.modTeam_pkg (s : State) (t : Nat) (f : Team → Team) : (s.modTeam t f).pkg = s.pkg := rfl

/-! ## `modLaunch` -/

@[simp] theorem State.modLaunch_slots (s : State) (l : Nat) (f : Launch → Launch) : (s.modLaunch l f).slots = s.slots := rfl
@[simp] theorem State.modLaunch_agenda (s : State) (l : Nat) (f : Launch → Launch) : (s.modLaunch l f).agenda = s.agenda := rfl
@[simp] theorem State.modLaunch_turn (s : State) (l : Nat) (f : Launch → Launch) : (s.modLaunch l f).turn = s.turn := rfl
@[simp] theorem State.modLaunch_freeCtr (s : State) (l : Nat) (f : Launch → Launch) : (s.modLaunch l f).freeCtr = s.freeCtr := rfl
@[simp] theorem State.modLaunch_waves (s : State) (l : Nat) (f : Launch → Launch) : (s.modLaunch l f).waves = s.waves := rfl
@[simp] theorem State.modLaunch_teams (s : State) (l : Nat) (f : Launch → Launch) : (s.modLaunch l f).teams = s.teams := rfl
theorem State.modLaunch_launches (s : State) (l : Nat) (f : Launch → Launch) : (s.modLaunch l f).launches = modifyAt s.launches l f := rfl
@[simp] theorem State.modLaunch_barriers (s : State) (l : Nat) (f : Launch → Launch) : (s.modLaunch l f).barriers = s.barriers := rfl
@[simp] theorem State.modLaunch_deliveries (s : State) (l : Nat) (f : Launch → Launch) : (s.modLaunch l f).deliveries = s.deliveries := rfl
@[simp] theorem State.modLaunch_prefetches (s : State) (l : Nat) (f : Launch → Launch) : (s.modLaunch l f).prefetches = s.prefetches := rfl
@[simp] theorem State.modLaunch_ctxs (s : State) (l : Nat) (f : Launch → Launch) : (s.modLaunch l f).ctxs = s.ctxs := rfl
@[simp] theorem State.modLaunch_worlds (s : State) (l : Nat) (f : Launch → Launch) : (s.modLaunch l f).worlds = s.worlds := rfl
@[simp] theorem State.modLaunch_tiles (s : State) (l : Nat) (f : Launch → Launch) : (s.modLaunch l f).tiles = s.tiles := rfl
@[simp] theorem State.modLaunch_dies (s : State) (l : Nat) (f : Launch → Launch) : (s.modLaunch l f).dies = s.dies := rfl
@[simp] theorem State.modLaunch_mem (s : State) (l : Nat) (f : Launch → Launch) : (s.modLaunch l f).mem = s.mem := rfl
@[simp] theorem State.modLaunch_home (s : State) (l : Nat) (f : Launch → Launch) : (s.modLaunch l f).home = s.home := rfl
@[simp] theorem State.modLaunch_frameMap (s : State) (l : Nat) (f : Launch → Launch) : (s.modLaunch l f).frameMap = s.frameMap := rfl
@[simp] theorem State.modLaunch_poison (s : State) (l : Nat) (f : Launch → Launch) : (s.modLaunch l f).poison = s.poison := rfl
@[simp] theorem State.modLaunch_homePoison (s : State) (l : Nat) (f : Launch → Launch) : (s.modLaunch l f).homePoison = s.homePoison := rfl
@[simp] theorem State.modLaunch_regPoison (s : State) (l : Nat) (f : Launch → Launch) : (s.modLaunch l f).regPoison = s.regPoison := rfl
@[simp] theorem State.modLaunch_counters (s : State) (l : Nat) (f : Launch → Launch) : (s.modLaunch l f).counters = s.counters := rfl
@[simp] theorem State.modLaunch_stackCount (s : State) (l : Nat) (f : Launch → Launch) : (s.modLaunch l f).stackCount = s.stackCount := rfl
@[simp] theorem State.modLaunch_pinned (s : State) (l : Nat) (f : Launch → Launch) : (s.modLaunch l f).pinned = s.pinned := rfl
@[simp] theorem State.modLaunch_dirty (s : State) (l : Nat) (f : Launch → Launch) : (s.modLaunch l f).dirty = s.dirty := rfl
@[simp] theorem State.modLaunch_fetchLines (s : State) (l : Nat) (f : Launch → Launch) : (s.modLaunch l f).fetchLines = s.fetchLines := rfl
@[simp] theorem State.modLaunch_images (s : State) (l : Nat) (f : Launch → Launch) : (s.modLaunch l f).images = s.images := rfl
@[simp] theorem State.modLaunch_proxy (s : State) (l : Nat) (f : Launch → Launch) : (s.modLaunch l f).proxy = s.proxy := rfl
@[simp] theorem State.modLaunch_fabric (s : State) (l : Nat) (f : Launch → Launch) : (s.modLaunch l f).fabric = s.fabric := rfl
@[simp] theorem State.modLaunch_pkg (s : State) (l : Nat) (f : Launch → Launch) : (s.modLaunch l f).pkg = s.pkg := rfl

/-! ## A free value -/

@[simp] theorem State.free_value (s : State) : s.free.1 = Config.freeValue s.freeCtr := rfl
@[simp] theorem State.free_slots (s : State) : s.free.2.slots = s.slots := rfl
@[simp] theorem State.free_agenda (s : State) : s.free.2.agenda = s.agenda := rfl
@[simp] theorem State.free_turn (s : State) : s.free.2.turn = s.turn := rfl
@[simp] theorem State.free_freeCtr (s : State) : s.free.2.freeCtr = s.freeCtr + 1 := rfl
@[simp] theorem State.free_waves (s : State) : s.free.2.waves = s.waves := rfl
@[simp] theorem State.free_teams (s : State) : s.free.2.teams = s.teams := rfl
@[simp] theorem State.free_launches (s : State) : s.free.2.launches = s.launches := rfl
@[simp] theorem State.free_barriers (s : State) : s.free.2.barriers = s.barriers := rfl
@[simp] theorem State.free_deliveries (s : State) : s.free.2.deliveries = s.deliveries := rfl
@[simp] theorem State.free_prefetches (s : State) : s.free.2.prefetches = s.prefetches := rfl
@[simp] theorem State.free_ctxs (s : State) : s.free.2.ctxs = s.ctxs := rfl
@[simp] theorem State.free_worlds (s : State) : s.free.2.worlds = s.worlds := rfl
@[simp] theorem State.free_tiles (s : State) : s.free.2.tiles = s.tiles := rfl
@[simp] theorem State.free_dies (s : State) : s.free.2.dies = s.dies := rfl
@[simp] theorem State.free_mem (s : State) : s.free.2.mem = s.mem := rfl
@[simp] theorem State.free_home (s : State) : s.free.2.home = s.home := rfl
@[simp] theorem State.free_frameMap (s : State) : s.free.2.frameMap = s.frameMap := rfl
@[simp] theorem State.free_poison (s : State) : s.free.2.poison = s.poison := rfl
@[simp] theorem State.free_homePoison (s : State) : s.free.2.homePoison = s.homePoison := rfl
@[simp] theorem State.free_regPoison (s : State) : s.free.2.regPoison = s.regPoison := rfl
@[simp] theorem State.free_counters (s : State) : s.free.2.counters = s.counters := rfl
@[simp] theorem State.free_stackCount (s : State) : s.free.2.stackCount = s.stackCount := rfl
@[simp] theorem State.free_pinned (s : State) : s.free.2.pinned = s.pinned := rfl
@[simp] theorem State.free_dirty (s : State) : s.free.2.dirty = s.dirty := rfl
@[simp] theorem State.free_fetchLines (s : State) : s.free.2.fetchLines = s.fetchLines := rfl
@[simp] theorem State.free_images (s : State) : s.free.2.images = s.images := rfl
@[simp] theorem State.free_proxy (s : State) : s.free.2.proxy = s.proxy := rfl
@[simp] theorem State.free_fabric (s : State) : s.free.2.fabric = s.fabric := rfl
@[simp] theorem State.free_pkg (s : State) : s.free.2.pkg = s.pkg := rfl

end Sys2Proof.Machine
end

