-- ==== Sys2Proof/Laws/Invariant.lean ====
section
/-! SUPPORT. The shared operations and the invariant: those that leave every byte as it is, those that write bytes and keep the
canonical form, and what the sweep of an instruction over its lanes and the issue of an instruction keep where their parts do. -/

namespace Sys2Proof.Machine

/-- A state with the bytes of one that meets the invariant meets it. -/
theorem State.Inv.of_eq {s t : State} (h : s.Inv) (hm : t.mem = s.mem) (hh : t.home = s.home) : t.Inv := by
  unfold State.Inv
  rw [hm, hh]
  exact h

/-- A fold keeps the invariant where each of its steps does. -/
theorem State.Inv.foldl {α : Type} {s : State} (h : s.Inv) (f : State → α → State) (hf : ∀ s a, s.Inv → (f s a).Inv) (l : List α) :
    (l.foldl f s).Inv :=
  foldl_inv State.Inv f hf l s h

/-! ## Operations that leave every byte -/

/-- Two states with the same bytes, in memory and at the homes. -/
def sameBytes (s t : State) : Prop := t.mem = s.mem ∧ t.home = s.home

theorem sameBytes.refl (s : State) : sameBytes s s := ⟨rfl, rfl⟩

theorem sameBytes.trans {s t u : State} (h : sameBytes s t) (k : sameBytes t u) : sameBytes s u :=
  ⟨k.1.trans h.1, k.2.trans h.2⟩

theorem sameBytes.inv {s t : State} (h : sameBytes s t) (hi : s.Inv) : t.Inv := hi.of_eq h.1 h.2

theorem sameBytes_foldl {α : Type} (f : State → α → State) (hf : ∀ s a, sameBytes s (f s a)) (l : List α) (s : State) :
    sameBytes s (l.foldl f s) :=
  foldl_rel sameBytes sameBytes.refl (fun _ _ _ => sameBytes.trans) f hf l s

theorem State.modWave_bytes (s : State) (w : Nat) (f : Wave → Wave) : sameBytes s (s.modWave w f) := ⟨rfl, rfl⟩
theorem State.modThread_bytes (s : State) (w l : Nat) (f : Thread → Thread) : sameBytes s (s.modThread w l f) := ⟨rfl, rfl⟩
theorem State.modLanes_bytes (s : State) (w : Nat) (ls : List Nat) (f : Nat → Thread → Thread) :
    sameBytes s (s.modLanes w ls f) := ⟨rfl, rfl⟩
theorem State.modCtx_bytes (s : State) (c : Nat) (f : Ctx → Ctx) : sameBytes s (s.modCtx c f) := ⟨rfl, rfl⟩
theorem State.modTile_bytes (s : State) (t : Nat) (f : Tile → Tile) : sameBytes s (s.modTile t f) := ⟨rfl, rfl⟩
theorem State.modDie_bytes (s : State) (d : Nat) (f : Die → Die) : sameBytes s (s.modDie d f) := ⟨rfl, rfl⟩
theorem State.modWorld_bytes (s : State) (w : Nat) (f : World → World) : sameBytes s (s.modWorld w f) := ⟨rfl, rfl⟩
theorem State.modTeam_bytes (s : State) (t : Nat) (f : Team → Team) : sameBytes s (s.modTeam t f) := ⟨rfl, rfl⟩
theorem State.modLaunch_bytes (s : State) (l : Nat) (f : Launch → Launch) : sameBytes s (s.modLaunch l f) := ⟨rfl, rfl⟩
theorem State.modBarrier_bytes (s : State) (i : Nat) (f : Barrier → Barrier) : sameBytes s (s.modBarrier i f) := ⟨rfl, rfl⟩
theorem State.modCmd_bytes (s : State) (t i : Nat) (f : Cmd → Cmd) : sameBytes s (s.modCmd t i f) := ⟨rfl, rfl⟩
theorem State.dropCmd_bytes (s : State) (t i : Nat) : sameBytes s (s.dropCmd t i) := ⟨rfl, rfl⟩
theorem State.unaccept_bytes (s : State) (w t i : Nat) : sameBytes s (s.unaccept w t i) := ⟨rfl, rfl⟩
theorem State.wakeFor_bytes (s : State) (w t i : Nat) : sameBytes s (s.wakeFor w t i) := ⟨rfl, rfl⟩
theorem State.setFrame_bytes (s : State) (p : Nat) (e : FrameEntry) : sameBytes s (s.setFrame p e) := ⟨rfl, rfl⟩
theorem State.setRec_bytes (s : State) (c : Nat) (o : W64) (f : ObjRec → ObjRec) : sameBytes s (s.setRec c o f) := ⟨rfl, rfl⟩
theorem State.setTensor_bytes (s : State) (c t : Nat) (e : BitVec 512) : sameBytes s (s.setTensor c t e) := ⟨rfl, rfl⟩
theorem State.resumeAll_bytes (s : State) (p : Thread → Bool) : sameBytes s (s.resumeAll p) := ⟨rfl, rfl⟩
theorem State.resume_bytes (s : State) (w : Nat) (xs : List (Nat × Record × BitVec 2)) : sameBytes s (s.resume w xs) := ⟨rfl, rfl⟩
theorem State.request_bytes (s : State) (p : Packet) : sameBytes s (s.request p) := ⟨rfl, rfl⟩
theorem State.tell_bytes (s : State) (h : Option HostReq) (id : Option W64) (op st : Nat) (a : W32) (v : W64) (b : List Byte) :
    sameBytes s (s.tell h id op st a v b) := ⟨rfl, rfl⟩
theorem State.reply_bytes (s : State) (h : Option HostReq) (op st : Nat) (a : W32) (v : W64) (b : List Byte) :
    sameBytes s (s.reply h op st a v b) := ⟨rfl, rfl⟩
theorem State.writeD_bytes (s : State) (g : Grp) (ls : List Nat) (val : Nat → W128) (tag : Nat → Tag) :
    sameBytes s (s.writeD g ls val tag) := ⟨rfl, rfl⟩
theorem State.give_bytes (s : State) (g : Grp) (l x : Nat) : sameBytes s (s.give g l x) := ⟨rfl, rfl⟩
theorem State.advance_bytes (s : State) (g : Grp) : sameBytes s (s.advance g) := ⟨rfl, rfl⟩
theorem State.heal_bytes (s : State) (g : Grp) (ls : List Nat) : sameBytes s (s.heal g ls) := ⟨rfl, rfl⟩
theorem State.block_bytes (s : State) (g : Grp) (l : Nat) (wt : Wait) : sameBytes s (s.block g l wt) := ⟨rfl, rfl⟩
theorem State.raiseAll_bytes (s : State) (g : Grp) (k : TrapKind) (ls : List Nat) : sameBytes s (s.raiseAll g k ls) := ⟨rfl, rfl⟩
theorem State.raise_bytes (s : State) (g : Grp) (ts : List (Nat × TrapKind)) : sameBytes s (s.raise g ts) :=
  sameBytes_foldl _ (fun s _ => s.modWave_bytes _ _) _ _

theorem State.holdFor_bytes (s : State) (g : Grp) (bs : List Nat) : sameBytes s (s.holdFor g bs) := by
  unfold State.holdFor
  split
  · exact .refl s
  · exact s.modLanes_bytes _ _ _

theorem State.finish_bytes (s : State) (g : Grp) : sameBytes s (s.finish g) := by
  unfold State.finish
  split
  · exact s.modWave_bytes _ _
  · exact .refl s

theorem State.failAt_bytes (s : State) (g : Grp) (c : Cmd) (ls : List Nat) (b : Nat → Bool) : sameBytes s (s.failAt g c ls b) := by
  unfold State.failAt
  split
  · exact .refl s
  · exact (s.modWave_bytes _ _).trans (State.modTile_bytes _ _ _)

theorem State.post_bytes (s : State) (r : FaultRec) : sameBytes s (s.post r).1 := by
  unfold State.post
  simp only
  split
  · exact s.modDie_bytes _ _
  · split
    · exact .refl s
    · exact s.modDie_bytes _ _

theorem State.postOnce_bytes (s : State) (op : Instr) (r : FaultRec) : sameBytes s (s.postOnce op r) := by
  unfold State.postOnce
  have h := s.post_bytes r
  split
  · exact .refl s
  · split <;> rename_i e <;> rw [e] at h <;> exact h

theorem State.recallFrom_bytes (s : State) (page : Nat) (ns : List Nat) : sameBytes s (s.recallFrom page ns) :=
  sameBytes_foldl _ (fun s n => by
    split
    · exact .refl s
    · exact s.request_bytes _) _ _

theorem State.waitFor_bytes (s : State) (wt : Wait) (p : Option FaultRec) : sameBytes s (s.waitFor wt p).1 := by
  cases p with
  | none =>
    simp only [State.waitFor]
    split
    · exact s.recallFrom_bytes _ _
    · exact .refl s
  | some r =>
    simp only [State.waitFor]
    have h := s.post_bytes r
    split <;> simp_all

theorem State.postPrivate_bytes (s : State) (w l : Nat) : sameBytes s (s.postPrivate w l).1 := by
  unfold State.postPrivate
  simp only
  split <;> exact s.waitFor_bytes _ _

theorem State.countPiece_bytes (s : State) (p : Piece) : sameBytes s (s.countPiece p) := by
  unfold State.countPiece
  split <;> exact ⟨rfl, rfl⟩

theorem State.count_bytes (s : State) (ps : List Piece) : sameBytes s (s.count ps) :=
  sameBytes_foldl _ State.countPiece_bytes _ _

theorem State.touchCode_bytes (s : State) (k n : Nat) : sameBytes s (s.touchCode k n) :=
  sameBytes_foldl (fun s line => { s with fetchLines := s.touchLine line (k % 64) n }) (fun _ _ => ⟨rfl, rfl⟩) _ _

theorem State.requestFor_bytes {s u : State} {tile w l t : Nat} {part : List Byte} {use : ReqUse} {p : Packet}
    (h : s.requestFor tile w l part use p = some (u, t)) : sameBytes s u := by
  simp only [State.requestFor, Option.map_eq_some_iff] at h
  obtain ⟨t', -, e⟩ := h
  cases e
  exact ⟨rfl, rfl⟩

theorem State.keep_bytes (s : State) (g : Grp) (l : Nat) (x : Option W128) (e : Option (BitVec 512)) : sameBytes s (s.keep g l x e) :=
  ⟨rfl, rfl⟩

theorem State.ask_bytes (s : State) (g : Grp) (l : Nat) (p : Packet) (part : List Byte) : sameBytes s (s.ask g l p part).1 := by
  unfold State.ask
  split
  · exact .refl s
  · rename_i h
    exact State.requestFor_bytes h

theorem State.barrierFor_bytes (s : State) (w level : Nat) : sameBytes s (s.barrierFor w level).1 := by
  unfold State.barrierFor
  split <;> exact ⟨rfl, rfl⟩

theorem State.raiseFetch_bytes (s : State) (w : Nat) (pc : W64) (k : TrapKind) (ls : List Nat) :
    sameBytes s (s.raiseFetch w pc k ls) := by
  unfold State.raiseFetch
  split
  · exact .refl s
  · exact s.modWave_bytes _ _

theorem State.trapWaiting_bytes (s : State) (w : Nat) (k : TrapKind) (ls : List Nat) : sameBytes s (s.trapWaiting w k ls) := by
  unfold State.trapWaiting
  refine (s.modWave_bytes w _).trans (sameBytes_foldl _ (fun s' l => ?_) _ _)
  simp only
  split
  · exact s'.raiseFetch_bytes _ _ _ _
  · exact s'.modWave_bytes _ _

theorem State.trapAll_bytes (s : State) (k : TrapKind) (p : Thread → Bool) : sameBytes s (s.trapAll k p) :=
  sameBytes_foldl _ (fun s' _ => s'.trapWaiting_bytes _ _ _) _ _

/-! ## Operations that write bytes -/

theorem State.withMem_inv (s : State) (m : List Host.Cell) (hm : Memory.wf m) (h : s.Inv) : ({ s with mem := m } : State).Inv :=
  ⟨hm, h.2⟩

theorem State.withHome_inv (s : State) (m : List Host.Cell) (hm : Memory.wf m) (h : s.Inv) : ({ s with home := m } : State).Inv :=
  ⟨h.1, hm⟩

theorem State.withDeliveries_bytes (s : State) (ds : List Delivery) : sameBytes s { s with deliveries := ds } := ⟨rfl, rfl⟩

theorem State.storeLine_home (s : State) (k : Nat) (bs : List Byte) : (s.storeLine k bs).home = s.home :=
  (s.touchCode_bytes k bs.length).2

theorem State.storeLine_inv (s : State) (k : Nat) (bs : List Byte) (h : s.Inv) : (s.storeLine k bs).Inv := by
  have h' := (s.touchCode_bytes k bs.length).inv h
  exact ⟨Memory.wf_write _ _ _ h'.1, h'.2⟩

theorem State.store_inv (s : State) (ps : List Piece) (bs : List Byte) (h : s.Inv) : (s.store ps bs).Inv := by
  induction ps generalizing s bs with
  | nil => exact h
  | cons p ps ih =>
    refine ih _ _ ?_
    exact foldl_inv (fun a : State × List Byte => a.1.Inv) _ (fun a q ha => a.1.storeLine_inv _ _ ha) _ (s, bs) h

theorem State.privWrite_inv (s : State) (w l o : Nat) (bs : List Byte) (h : s.Inv) : (s.privWrite w l o bs).Inv := by
  unfold State.privWrite
  split
  · exact s.store_inv _ _ h
  · exact h

theorem State.putRecord_inv (s : State) (w l : Nat) (p : RecPlace) (r : Record) (h : s.Inv) : (s.putRecord w l p r).Inv :=
  (State.modThread_bytes _ _ _ _).inv (s.privWrite_inv w l _ _ h)

theorem State.writeSpills_inv (s : State) (w l : Nat) (old : List Area) (h : s.Inv) : (s.writeSpills w l old).Inv := by
  unfold State.writeSpills
  refine h.foldl _ (fun s a hs => ?_) _
  split
  · split
    · exact hs
    · exact s.privWrite_inv _ _ _ _ hs
  · exact hs

theorem State.push_inv (s u : State) (w l : Nat) (hpc : W64) (mask mtch : W32) (h : s.Inv) (hu : s.push w l hpc mask mtch = some u) :
    u.Inv := by
  simp only [State.push, Option.map_eq_some_iff] at hu
  obtain ⟨t, -, rfl⟩ := hu
  exact State.writeSpills_inv _ w l _ ((s.modThread_bytes w l _).inv h)

theorem State.consume_inv (s : State) (w l : Nat) (p : RecPlace) (h : s.Inv) : (s.consume w l p).Inv := by
  unfold State.consume
  exact (State.modWave_bytes _ _ _).inv (s.privWrite_inv w l _ _ h)

theorem State.deliver_inv (s u : State) (wv : Wave) (w l : Nat) (e : Effect) (h : s.Inv) (hu : s.deliver wv w l e = some u) :
    u.Inv := by
  simp only [State.deliver, Option.map_eq_some_iff] at hu
  obtain ⟨p, -, rfl⟩ := hu
  split
  · exact ((State.withDeliveries_bytes _ _).trans (State.modThread_bytes _ _ _ _)).inv (s.putRecord_inv w l p _ h)
  · exact (State.modThread_bytes _ _ _ _).inv (s.putRecord_inv w l p _ h)

theorem State.deliverAll_inv (s : State) (w pb : Nat) (xs : List (Nat × Effect)) (h : s.Inv) : (s.deliverAll w pb xs).1.Inv := by
  unfold State.deliverAll
  refine (State.modWave_bytes _ _ _).inv (foldl_inv (fun a : State × List Nat => a.1.Inv) _ (fun a x ha => ?_) xs (s, []) h)
  cases hu : a.1.deliver (s.wave w) w x.1 x.2 with
  | none => exact ha
  | some u => exact State.deliver_inv _ u _ _ _ _ ha hu

theorem State.raiseBind_inv (s : State) (w : Nat) (obj cont : W64) (ls : List Nat) (h : s.Inv) : (s.raiseBind w obj cont ls).Inv := by
  cases ls with
  | nil => exact h
  | cons l rest =>
    simp only [State.raiseBind]
    split
    · rename_i hu
      refine (State.modThread_bytes _ _ _ _).inv (State.deliver_inv _ _ _ _ _ _ ?_ hu)
      exact ((s.setRec_bytes _ _ _).trans (State.modLanes_bytes _ _ _ _)).inv h
    · exact (State.modThread_bytes _ _ _ _).inv ((s.postPrivate_bytes w l).inv h)

theorem State.raiseWord_inv (s : State) (b n w l : Nat) (h : s.Inv) : (s.raiseWord b n w l).1.Inv := by
  unfold State.raiseWord
  simp only
  split
  · exact h
  · split
    · exact h
    · split
      · exact s.store_inv _ _ h
      · split
        · rename_i e
          exact (State.requestFor_bytes e).inv h
        · exact (s.request_bytes _).inv h

theorem State.arrive_inv (s : State) (bar w l : Nat) (h : s.Inv) : (s.arrive bar w l).Inv :=
  ((State.modBarrier_bytes _ _ _).trans (State.modThread_bytes _ _ _ _)).inv (s.raiseWord_inv bar 1 w l h)

/-! ## The lanes of an instruction, and its issue -/

theorem State.eachLane_inv (s : State) (g : Grp) (f : State → Nat → State × LaneEnd) (hf : ∀ s l, s.Inv → (f s l).1.Inv)
    (h : s.Inv) : (s.eachLane g f).Inv := by
  have key := foldl_inv (fun m : Sweep => m.st.Inv) (fun m l => m.lane g f l) (fun m l hm => by
    have hl := hf m.st l hm
    simp only [Sweep.lane]
    split <;> rename_i he <;> rw [he] at hl
    · exact hl
    · exact hl
    · exact ((State.waitFor_bytes _ _ _).inv hl).foldl _ (fun s x hs => (s.block_bytes g x _).inv hs) _
    · exact ((State.waitFor_bytes _ _ _).inv hl).foldl _
        (fun s x hs => ((s.block_bytes g x _).trans (State.keep_bytes _ g x _ _)).inv hs) _) g.actors ⟨s, [], []⟩ h
  exact (State.raise_bytes _ g _).inv ((State.holdFor_bytes _ g _).inv key)

theorem State.onceFor_inv (s : State) (g : Grp) (f : State → Nat → State × LaneEnd) (hf : ∀ s l, s.Inv → (f s l).1.Inv)
    (h : s.Inv) : (s.onceFor g f).Inv := by
  unfold State.onceFor
  split
  · exact h
  · rename_i l _ _
    have hl := hf s l h
    split <;> rename_i he <;> rw [he] at hl
    · exact hl
    · exact (State.raiseAll_bytes _ g _ _).inv hl
    · exact ((State.waitFor_bytes _ _ _).inv hl).foldl _ (fun s x hs => (s.block_bytes g x _).inv hs) _
    · exact ((State.waitFor_bytes _ _ _).inv hl).foldl _
        (fun s x hs => ((s.block_bytes g x _).trans (State.keep_bytes _ g x _ _)).inv hs) _

theorem State.readFor_inv (s : State) (g : Grp) (l va size : Nat) (wt : Ty) (scope : Scope) (ord : Ord)
    (k : State → List Byte → State × LaneEnd) (hk : ∀ s bs, s.Inv → (k s bs).1.Inv) (h : s.Inv) :
    (s.readFor g l va size wt scope ord k).1.Inv := by
  unfold State.readFor
  simp only
  split
  · exact hk _ _ h
  · split
    · exact hk _ _ ((s.count_bytes _).inv h)
    · exact (s.ask_bytes _ _ _ _).inv h
    · exact h

theorem State.writeFor_inv (s : State) (g : Grp) (l va align : Nat) (wt : Ty) (scope : Scope) (ord : Ord) (bs : List Byte)
    (h : s.Inv) : (s.writeFor g l va align wt scope ord bs).1.Inv := by
  unfold State.writeFor
  simp only
  split
  · exact State.store_inv _ _ _ ((s.count_bytes _).inv h)
  · exact (s.ask_bytes _ _ _ _).inv h
  · exact h

/-- An issue answers a next state, and keeps the invariant where the instruction's effect does. -/
theorem issue_next (i : Instr) (s : State) (illegal : Grp → Bool) (k : Grp → State → State) :
    ∃ t, issue i s illegal k = .next t ∧ ((∀ g s, s.Inv → (k g s).Inv) → s.Inv → t.Inv) := by
  unfold issue
  split
  · exact ⟨s, rfl, fun _ h => h⟩
  · simp only
    split
    · exact ⟨_, rfl, fun _ h => (((s.advance_bytes _).trans (State.raiseAll_bytes _ _ _ _)).trans (State.finish_bytes _ _)).inv h⟩
    · split
      · exact ⟨_, rfl, fun _ h => (((s.advance_bytes _).trans (State.failAt_bytes _ _ _ _ _)).trans (State.finish_bytes _ _)).inv h⟩
      · exact ⟨_, rfl, fun _ h => h.of_eq rfl rfl⟩
    · refine ⟨_, rfl, fun hk h => (State.finish_bytes _ _).inv ?_⟩
      split
      · exact hk _ _ ((s.advance_bytes _).inv h)
      · exact (State.raiseAll_bytes _ _ _ _).inv (hk _ _ ((s.advance_bytes _).inv h))

theorem lanesOp_next (i : Instr) (s : State) (val : Grp → Nat → W128) (tag : Grp → Nat → Tag) :
    ∃ t, lanesOp i s val tag = .next t ∧ (s.Inv → t.Inv) := by
  obtain ⟨t, ht, hi⟩ := issue_next i s lawful fun g s => s.writeD g g.lanes (val g) (tag g)
  exact ⟨t, ht, hi fun g s h => (s.writeD_bytes g _ _ _).inv h⟩

theorem flagsOp_next (i : Instr) (s : State) (val : Grp → Nat → W128 × BitVec 5) :
    ∃ t, flagsOp i s val = .next t ∧ (s.Inv → t.Inv) := by
  obtain ⟨t, ht, hi⟩ := issue_next i s lawful fun g s =>
    (s.writeD g g.lanes (fun l => (val g l).1) g.tag).modWave g.w fun wv =>
      wv.orFlags (g.actors.foldl (fun f l => f ||| (val g l).2) 0)
  exact ⟨t, ht, hi fun g s h => ((s.writeD_bytes g _ _ _).trans (State.modWave_bytes _ _ _)).inv h⟩

/-! ## The register files -/

theorem State.settle_inv {s u : State} {old : Wave} {w : Nat} (h : s.Inv) (hu : s.settle old w = some u) : u.Inv := by
  unfold State.settle at hu
  simp only at hu
  split at hu
  · cases hu; exact h
  · split at hu
    · cases hu; exact h
    · split at hu
      · cases hu; exact (s.modWave_bytes w _).inv h
      · split at hu
        · cases hu
        · split at hu
          · cases hu; exact State.privWrite_inv _ _ _ _ _ ((s.modWave_bytes w _).inv h)
          · cases hu

theorem State.refile_bytes {s u : State} {w : Nat} (hu : s.refile w = .ok u) : sameBytes s u := by
  unfold State.refile at hu
  simp only at hu
  split at hu
  · cases hu; exact .refl s
  · split at hu
    · cases hu
    · split at hu
      · cases hu
      · split at hu
        · cases hu
        · cases hu; exact s.modWave_bytes w _

theorem State.keepFrame_inv (s : State) (w l : Nat) (a : Area) (h : s.Inv) : (s.keepFrame w l a).Inv := by
  unfold State.keepFrame
  split
  · simp only
    split
    · split
      · exact h
      · exact s.privWrite_inv _ _ _ _ h
    · exact h
  · exact h

theorem State.keepFrames_inv (s : State) (h : s.Inv) : s.keepFrames.Inv :=
  h.foldl _ (fun _ w hs => hs.foldl _ (fun _ l ht => ht.foldl _ (fun s a hu => s.keepFrame_inv w l a hu) _) _) _

theorem State.slotWaits_bytes (s : State) (w : Nat) (ls : List Nat) (wt : Wait) : sameBytes s (s.slotWaits w ls wt) := by
  cases ls with
  | nil => exact .refl s
  | cons l rest => exact (s.modThread_bytes _ _ _).trans (State.modLanes_bytes _ _ _ _)

theorem State.starve_inv (s : State) (sl : Slot) (h : s.Inv) : (s.starve sl).Inv :=
  (State.slotWaits_bytes _ _ _ _).inv ((State.postPrivate_bytes _ _ _).inv (h.of_eq rfl rfl))

theorem State.detain_inv (s : State) (sl : Slot) (wt : Wait) (p : Option FaultRec) (h : s.Inv) : (s.detain sl wt p).Inv :=
  (State.slotWaits_bytes _ _ _ _).inv ((State.waitFor_bytes _ _ _).inv (h.of_eq rfl rfl))

theorem State.settled_inv (s : State) (sl : Slot) (t : State) (h : s.Inv) (ht : t.Inv) : (s.settled sl t).Inv := by
  unfold State.settled
  refine State.keepFrames_inv _ ?_
  cases e : t.settle (s.wave sl.wave) sl.wave with
  | none => exact s.starve_inv sl h
  | some u => exact State.settle_inv ht e

theorem State.settleAll_inv (s : State) (old : List Wave) (h : s.Inv) : (s.settleAll old).Inv := by
  refine State.keepFrames_inv _ (h.foldl _ (fun s w hs => ?_) _)
  cases e : s.settle (old.getD w Wave.blank) w with
  | none => exact hs
  | some u => exact State.settle_inv hs e

end Sys2Proof.Machine
end

