-- ==== Sys2Proof/Laws/Registers.lean ====
section
/-! SUPPORT. Laws of the registers: what a write to a register of a thread or a wave leaves in every register, and what writing an
operand does to a wave. -/

namespace Sys2Proof.Machine

/-! ## A thread -/

theorem Thread.v_setV (t : Thread) (r j : Nat) (x : W32) : (t.setV r x).v j = if j = r then x else t.v j :=
  Sparse.get_set 0 t.vregs r j x

theorem Thread.setWords_fields (t : Thread) (r n : Nat) (x : W128) : t.setWords r n x = { t with vregs := (t.setWords r n x).vregs } :=
  foldl_rel (fun a b : Thread => b = { a with vregs := b.vregs }) (fun _ => rfl) (fun a b c h1 h2 => by rw [h2, h1])
    (fun t k => t.setV (r + k) (word32 x k)) (fun _ _ => rfl) (List.range n) t

/-- A view after it is written. -/
theorem Thread.v_setWords (t : Thread) (r n j : Nat) (x : W128) :
    (t.setWords r n x).v j = if r ≤ j ∧ j < r + n then word32 x (j - r) else t.v j := by
  unfold Thread.setWords
  induction n with
  | zero => simp
  | succ n ih =>
    rw [List.range_succ, List.foldl_append]
    simp only [List.foldl_cons, List.foldl_nil, Thread.v_setV, ih]
    by_cases h : j = r + n
    · subst h; simp
    · by_cases h2 : r ≤ j ∧ j < r + n
      · rw [if_neg h, if_pos h2, if_pos (by omega)]
      · rw [if_neg h, if_neg h2, if_neg (by omega)]

theorem Thread.setP_fields (t : Thread) (n : Nat) (b : Bool) : t.setP n b = { t with preds := (t.setP n b).preds } := by
  unfold Thread.setP; split <;> rfl

theorem setBit16_getLsbD (x : BitVec 16) (n m : Nat) (b : Bool) (h : n < 16) :
    (setBit16 x n b).getLsbD m = if m = n then b else x.getLsbD m := by
  unfold setBit16
  by_cases hm : m < 16
  · cases b <;> by_cases hmn : m = n
    · subst hmn; simp [hm]
    · by_cases hlt : m < n
      · simp [hm, hmn, hlt]
      · have : m - n ≠ 0 := by omega
        simp [hm, hmn, hlt, this]
    · subst hmn; simp [hm]
    · by_cases hlt : m < n
      · simp [hm, hmn, hlt]
      · have : m - n ≠ 0 := by omega
        simp [hm, hmn, hlt, this]
  · have hmn : m ≠ n := by omega
    simp [BitVec.getLsbD_of_ge _ _ (Nat.le_of_not_lt hm), hmn]

/-- A predicate after one is written; `p0` reads true whatever is written. -/
theorem Thread.p_setP (t : Thread) (n m : Nat) (b : Bool) (h : n < 16) :
    (t.setP n b).p m = if m = n ∧ n ≠ 0 then b else t.p m := by
  unfold Thread.setP
  by_cases hn : n = 0
  · simp [hn]
  · simp only [if_neg hn, Thread.p, setBit16_getLsbD _ _ _ _ h]
    by_cases hm : m = n
    · simp [hm, hn]
    · simp [hm]

/-! ## A wave -/

theorem Wave.sreg_setS (wv : Wave) (r j : Nat) (x : W32) : (wv.setS r x).sreg j = if j = r then x else wv.sreg j :=
  Sparse.get_set 0 wv.sregs r j x

theorem Wave.sreg_words (wv : Wave) (r n j : Nat) (x : W128) :
    ((List.range n).foldl (fun wv k => wv.setS (r + k) (word32 x k)) wv).sreg j =
      if r ≤ j ∧ j < r + n then word32 x (j - r) else wv.sreg j := by
  induction n with
  | zero => simp
  | succ n ih =>
    rw [List.range_succ, List.foldl_append]
    simp only [List.foldl_cons, List.foldl_nil, Wave.sreg_setS, ih]
    by_cases h : j = r + n
    · subst h; simp
    · by_cases h2 : r ≤ j ∧ j < r + n
      · rw [if_neg h, if_pos h2, if_pos (by omega)]
      · rw [if_neg h, if_neg h2, if_neg (by omega)]

theorem Wave.setS_fields (wv : Wave) (r n : Nat) (x : W128) :
    (List.range n).foldl (fun wv k => wv.setS (r + k) (word32 x k)) wv =
      { wv with sregs := ((List.range n).foldl (fun wv k => wv.setS (r + k) (word32 x k)) wv).sregs } :=
  foldl_rel (fun a b : Wave => b = { a with sregs := b.sregs }) (fun _ => rfl) (fun a b c h1 h2 => by rw [h2, h1])
    (fun wv k => wv.setS (r + k) (word32 x k)) (fun _ _ => rfl) (List.range n) wv

@[simp] theorem Wave.length_modLanes (wv : Wave) (ls : List Nat) (f : Nat → Thread → Thread) :
    (wv.modLanes ls f).threads.length = wv.threads.length := by simp [Wave.modLanes]

/-- A thread after the threads of some lanes are changed. -/
theorem Wave.thread_modLanes (wv : Wave) (ls : List Nat) (f : Nat → Thread → Thread) (l : Nat) (h : l < wv.threads.length) :
    (wv.modLanes ls f).thread l = if l ∈ ls then f l (wv.thread l) else wv.thread l := by
  simp only [Wave.thread, Wave.modLanes, List.getD_eq_getElem?_getD, List.getElem?_mapIdx, List.getElem?_eq_getElem h]
  by_cases hl : l ∈ ls <;> simp [hl]

theorem Wave.thread_modLanes_not (wv : Wave) (ls : List Nat) (f : Nat → Thread → Thread) (l : Nat) (h : l ∉ ls) :
    (wv.modLanes ls f).thread l = wv.thread l := by
  by_cases hl : l < wv.threads.length
  · rw [Wave.thread_modLanes _ _ _ _ hl, if_neg h]
  · simp [Wave.thread, Wave.modLanes, List.getD_eq_getElem?_getD, List.getElem?_mapIdx,
      List.getElem?_eq_none (Nat.le_of_not_lt hl)]

/-- Setting tags changes nothing else. -/
theorem Wave.retag_fields (wv : Wave) (ls : List Nat) (r n : Nat) (tag : Nat → Tag) :
    wv.retag ls r n tag = { wv with tags := (wv.retag ls r n tag).tags } := by
  have ht : ∀ a b c : Wave, b = { a with tags := b.tags } → c = { b with tags := c.tags } → c = { a with tags := c.tags } :=
    fun a b c h1 h2 => by rw [h2, h1]
  exact foldl_rel (fun a b : Wave => b = { a with tags := b.tags }) (fun _ => rfl) ht _
    (fun wv b => foldl_rel (fun a b : Wave => b = { a with tags := b.tags }) (fun _ => rfl) ht _ (fun _ _ => rfl) _ wv) _ wv

@[simp] theorem Wave.retag_threads (wv : Wave) (ls : List Nat) (r n : Nat) (tag : Nat → Tag) :
    (wv.retag ls r n tag).threads = wv.threads := by rw [Wave.retag_fields]

@[simp] theorem Wave.retag_sregs (wv : Wave) (ls : List Nat) (r n : Nat) (tag : Nat → Tag) :
    (wv.retag ls r n tag).sregs = wv.sregs := by rw [Wave.retag_fields]

@[simp] theorem Wave.retag_thread (wv : Wave) (ls : List Nat) (r n : Nat) (tag : Nat → Tag) (l : Nat) :
    (wv.retag ls r n tag).thread l = wv.thread l := by simp [Wave.thread]

@[simp] theorem Wave.retag_sreg (wv : Wave) (ls : List Nat) (r n : Nat) (tag : Nat → Tag) (j : Nat) :
    (wv.retag ls r n tag).sreg j = wv.sreg j := by simp [Wave.sreg]

/-! ## Waves of the package -/

theorem State.wave_modWave (s : State) (w : Nat) (f : Wave → Wave) (h : w < s.waves.length) : (s.modWave w f).wave w = f (s.wave w) := by
  simp only [State.wave, State.modWave_waves, getD_modifyAt _ _ _ _ _ h, if_true]

theorem State.wave_modWave_ne (s : State) (w j : Nat) (f : Wave → Wave) (h : j ≠ w) : (s.modWave w f).wave j = s.wave j := by
  simp [State.wave, State.modWave_waves, List.getD_eq_getElem?_getD, getElem?_modifyAt_ne _ _ _ _ h]

end Sys2Proof.Machine
end

