-- ==== Sys2Proof/Laws/Issue.lean ====
section
/-! SUPPORT. What issuing an instruction does: one law for writing an operand, one for an issue that nothing stops, and from them
the whole effect of every instruction that only writes its destination. -/

namespace Sys2Proof.Machine

/-! ## Words of a view -/

theorem word32_pair (x : W128) : word32 x 1 ++ word32 x 0 = lo64 x := by
  apply BitVec.eq_of_getLsbD_eq
  intro i hi
  simp only [word32, lo64, BitVec.getLsbD_append, BitVec.getLsbD_extractLsb', BitVec.getLsbD_setWidth]
  by_cases h : i < 32
  · simp [h, show i < 64 by omega]
  · have h2 : i - 32 < 32 := by omega
    have h3 : 32 + (i - 32) = i := by omega
    simp [h, h2, h3, hi]

theorem word32_quad (x : W128) : word32 x 3 ++ word32 x 2 ++ word32 x 1 ++ word32 x 0 = x := by
  apply BitVec.eq_of_getLsbD_eq
  intro i hi
  simp only [word32, BitVec.getLsbD_append, BitVec.getLsbD_extractLsb']
  by_cases h : i < 32
  · simp [h]
  · by_cases h2 : i - 32 < 32
    · have h3 : 32 + (i - 32) = i := by omega
      simp [h, h2, h3]
    · by_cases h4 : i - 32 - 32 < 32
      · have h5 : 64 + (i - 32 - 32) = i := by omega
        simp [h, h2, h4, h5]
      · have h6 : i - 32 - 32 - 32 < 32 := by omega
        have h7 : 96 + (i - 32 - 32 - 32) = i := by omega
        simp [h, h2, h4, h6, h7]

theorem word32_zero (x : W128) : word32 x 0 = lo32 x := rfl

/-! ## Writing an operand -/

/-- What writing an operand can do to a wave. -/
structure Put (wv : Wave) (o : Opnd) (lanes : List Nat) (out : Wave) : Prop where
  wave : out = { wv with threads := out.threads, sregs := out.sregs, tags := out.tags }
  count : out.threads.length = wv.threads.length
  thread : ∀ l, out.thread l = { wv.thread l with vregs := (out.thread l).vregs, preds := (out.thread l).preds }
  vregs : ∀ l r, ¬ (l ∈ lanes ∧ o.names .vec r = true) → (out.thread l).v r = (wv.thread l).v r
  preds : ∀ l n, ¬ (l ∈ lanes ∧ o.names .pred n = true) → (out.thread l).p n = (wv.thread l).p n
  sregs : ∀ r, ¬ (lanes ≠ [] ∧ o.names .scal r = true) → out.sreg r = wv.sreg r

theorem Put.refl (wv : Wave) (o : Opnd) (lanes : List Nat) : Put wv o lanes wv :=
  ⟨rfl, rfl, fun _ => rfl, fun _ _ _ => rfl, fun _ _ _ => rfl, fun _ _ => rfl⟩

theorem put_vec (wv : Wave) (o : Opnd) (n : Nat) (hn : o.ranges = [⟨.vec, o.num.toNat, n⟩]) (lanes : List Nat) (val : Nat → W128)
    (tag : Nat → Tag) :
    Put wv o lanes ((wv.modLanes lanes fun l t => t.setWords o.num.toNat n (val l)).retag lanes o.num.toNat n tag) := by
  have hth : ∀ l, ((wv.modLanes lanes fun l t => t.setWords o.num.toNat n (val l)).thread l) =
      { wv.thread l with vregs := ((wv.modLanes lanes fun l t => t.setWords o.num.toNat n (val l)).thread l).vregs } := by
    intro l
    by_cases hlen : l < wv.threads.length
    · rw [Wave.thread_modLanes _ _ _ _ hlen]
      split
      · rw [Thread.setWords_fields]
      · rfl
    · simp [Wave.thread, Wave.modLanes, List.getD_eq_getElem?_getD, List.getElem?_mapIdx,
        List.getElem?_eq_none (Nat.le_of_not_lt hlen)]
  refine ⟨?_, by simp, ?_, ?_, ?_, ?_⟩
  · rw [Wave.retag_fields]; rfl
  · intro l
    rw [Wave.retag_thread, hth l]
  · intro l r h
    rw [Wave.retag_thread]
    by_cases hlen : l < wv.threads.length
    · rw [Wave.thread_modLanes _ _ _ _ hlen]
      split
      · rename_i hl
        rw [Thread.v_setWords, if_neg]
        intro hr
        exact h ⟨hl, by simp [Opnd.names, hn, hr.1, hr.2]⟩
      · rfl
    · simp [Wave.thread, Wave.modLanes, List.getD_eq_getElem?_getD, List.getElem?_mapIdx,
        List.getElem?_eq_none (Nat.le_of_not_lt hlen)]
  · intro l m _
    rw [Wave.retag_thread, hth l]; rfl
  · intro r _
    rw [Wave.retag_sreg]; rfl

theorem put_scal (wv : Wave) (o : Opnd) (n l : Nat) (hn : o.ranges = [⟨.scal, o.num.toNat, n⟩]) (lanes : List Nat) (x : W128) :
    Put wv o (l :: lanes) ((List.range n).foldl (fun wv k => wv.setS (o.num.toNat + k) (word32 x k)) wv) := by
  have hf := Wave.setS_fields wv o.num.toNat n x
  refine ⟨by rw [hf], by rw [hf], fun l' => by rw [hf]; rfl, fun l' r _ => by rw [hf]; rfl, fun l' r _ => by rw [hf]; rfl, ?_⟩
  intro r h
  rw [Wave.sreg_words, if_neg]
  intro hr
  exact h ⟨by simp, by simp [Opnd.names, hn, hr.1, hr.2]⟩

theorem put_put (wv : Wave) (o : Opnd) (lanes : List Nat) (val : Nat → W128) (tag : Nat → Tag) (ho : o.legal = true) :
    Put wv o lanes (wv.put o lanes val tag) := by
  obtain ⟨k, n⟩ := o
  cases k <;> simp only [Wave.put, OpKind.words]
  case none => exact Put.refl ..
  case lvl => exact Put.refl ..
  case imm => exact Put.refl ..
  case v => exact put_vec wv ⟨.v, n⟩ 1 rfl lanes val tag
  case d => exact put_vec wv ⟨.d, n⟩ 2 rfl lanes val tag
  case q => exact put_vec wv ⟨.q, n⟩ 4 rfl lanes val tag
  case s =>
    cases lanes with
    | nil => exact Put.refl ..
    | cons l ls => exact put_scal wv ⟨.s, n⟩ 1 l rfl ls (val l)
  case sd =>
    cases lanes with
    | nil => exact Put.refl ..
    | cons l ls => exact put_scal wv ⟨.sd, n⟩ 2 l rfl ls (val l)
  case p =>
    have hn : n.toNat < 16 := by simpa [Opnd.legal] using ho
    have hth : ∀ l, ((wv.modLanes lanes fun l t => t.setP n.toNat ((val l).getLsbD 0)).thread l) =
        { wv.thread l with preds := ((wv.modLanes lanes fun l t => t.setP n.toNat ((val l).getLsbD 0)).thread l).preds } := by
      intro l
      by_cases hlen : l < wv.threads.length
      · rw [Wave.thread_modLanes _ _ _ _ hlen]
        split
        · rw [Thread.setP_fields]
        · rfl
      · simp [Wave.thread, Wave.modLanes, List.getD_eq_getElem?_getD, List.getElem?_mapIdx,
          List.getElem?_eq_none (Nat.le_of_not_lt hlen)]
    refine ⟨rfl, by simp, fun l => by rw [hth l], ?_, ?_, fun r _ => rfl⟩
    · intro l r _
      rw [hth l]; rfl
    · intro l m h
      by_cases hlen : l < wv.threads.length
      · rw [Wave.thread_modLanes _ _ _ _ hlen]
        split
        · rename_i hl
          rw [Thread.p_setP _ _ _ _ hn, if_neg]
          intro hm
          exact h ⟨hl, by simp [Opnd.names, Opnd.ranges, hm.1]⟩
        · rfl
      · simp [Wave.thread, Wave.modLanes, List.getD_eq_getElem?_getD, List.getElem?_mapIdx,
          List.getElem?_eq_none (Nat.le_of_not_lt hlen)]

theorem head_of_mem {l : Nat} : ∀ {lanes : List Nat}, l ∈ lanes → ∃ ls, lanes = lanes.headD 0 :: ls
  | _ :: xs, _ => ⟨xs, rfl⟩

/-- What a written operand shows in a lane. -/
theorem put_shown (wv : Wave) (o : Opnd) (lanes : List Nat) (val : Nat → W128) (tag : Nat → Tag) (ho : o.legal = true) (l : Nat)
    (hl : l ∈ lanes) (hlen : l < wv.threads.length) :
    (wv.put o lanes val tag).operand o l = shown o (val (if o.scalar then lanes.headD 0 else l)) := by
  obtain ⟨k, n⟩ := o
  cases k <;> simp only [Wave.put, OpKind.words, Wave.operand, shown, Opnd.scalar]
  case v =>
    simp [Wave.thread_modLanes _ _ _ _ hlen, hl, Thread.v_setWords, word32_zero]
  case d =>
    simp [Wave.thread_modLanes _ _ _ _ hlen, hl, Thread.v_setWords, Thread.dv, word32_pair]
  case q =>
    simp [Wave.thread_modLanes _ _ _ _ hlen, hl, Thread.v_setWords, word32_quad]
  case s =>
    obtain ⟨ls, hls⟩ := head_of_mem hl
    rw [hls]
    simp only [Wave.sreg_words]
    simp [word32_zero]
  case sd =>
    obtain ⟨ls, hls⟩ := head_of_mem hl
    rw [hls]
    simp only [Wave.sd, Wave.sreg_words]
    simp [word32_pair]
  case p =>
    have hn : n.toNat < 16 := by simpa [Opnd.legal] using ho
    simp only [Wave.thread_modLanes _ _ _ _ hlen, hl, if_true, Thread.p_setP _ _ _ _ hn, true_and]
    have hz : (n = 0) ↔ n.toNat = 0 := by
      constructor
      · intro h; simp [h]
      · intro h; exact BitVec.eq_of_toNat_eq (by simpa using h)
    by_cases h0 : n.toNat = 0
    · simp [Thread.p, hz.mpr h0]
    · have h1 : ¬ n = 0#10 := fun h => h0 (hz.mp h)
      simp [h0, h1]

/-! ## What an instruction's effect may do to its wave -/

/-- A change of a wave that writes the destinations `ds` in the given lanes and joins `flags`. -/
structure Wrote (wv : Wave) (ds : List Opnd) (lanes : List Nat) (flags : BitVec 5) (out : Wave) : Prop where
  wave : out = { wv with
    threads := out.threads, sregs := out.sregs, tags := out.tags
    fpflags := wv.fpflags ||| flags, newFlags := wv.newFlags ||| flags }
  count : out.threads.length = wv.threads.length
  thread : ∀ l, out.thread l = { wv.thread l with vregs := (out.thread l).vregs, preds := (out.thread l).preds }
  vregs : ∀ l r, ¬ (l ∈ lanes ∧ ds.any (fun o => o.names .vec r) = true) → (out.thread l).v r = (wv.thread l).v r
  preds : ∀ l n, ¬ (l ∈ lanes ∧ ds.any (fun o => o.names .pred n) = true) → (out.thread l).p n = (wv.thread l).p n
  sregs : ∀ r, ¬ (lanes ≠ [] ∧ ds.any (fun o => o.names .scal r) = true) → out.sreg r = wv.sreg r

theorem Wrote.refl (wv : Wave) (ds : List Opnd) (lanes : List Nat) : Wrote wv ds lanes 0 wv :=
  ⟨by simp, rfl, fun _ => rfl, fun _ _ _ => rfl, fun _ _ _ => rfl, fun _ _ => rfl⟩

theorem Put.wrote {wv out : Wave} {o : Opnd} {lanes : List Nat} (h : Put wv o lanes out) : Wrote wv [o] lanes 0 out :=
  ⟨by rw [h.wave]; simp, h.count, h.thread, fun l r hn => h.vregs l r (by simpa using hn), fun l r hn => h.preds l r (by simpa using hn),
    fun r hn => h.sregs r (by simpa using hn)⟩

theorem Wrote.trans {wv mid out : Wave} {ds es : List Opnd} {lanes : List Nat} {f f' : BitVec 5} (h : Wrote wv ds lanes f mid)
    (h' : Wrote mid es lanes f' out) : Wrote wv (ds ++ es) lanes (f ||| f') out := by
  refine ⟨?_, h'.count.trans h.count, fun l => ?_, fun l r hn => ?_, fun l r hn => ?_, fun r hn => ?_⟩
  · rw [h'.wave, h.wave]; simp [BitVec.or_assoc]
  · rw [h'.thread l, h.thread l]
  · rw [h'.vregs l r fun x => hn ⟨x.1, by simp [List.any_append, x.2]⟩, h.vregs l r fun x => hn ⟨x.1, by simp [List.any_append, x.2]⟩]
  · rw [h'.preds l r fun x => hn ⟨x.1, by simp [List.any_append, x.2]⟩, h.preds l r fun x => hn ⟨x.1, by simp [List.any_append, x.2]⟩]
  · rw [h'.sregs r fun x => hn ⟨x.1, by simp [List.any_append, x.2]⟩, h.sregs r fun x => hn ⟨x.1, by simp [List.any_append, x.2]⟩]

theorem wrote_flags (wv : Wave) (lanes : List Nat) (f : BitVec 5) : Wrote wv [] lanes f (wv.orFlags f) :=
  ⟨rfl, rfl, fun _ => rfl, fun _ _ _ => rfl, fun _ _ _ => rfl, fun _ _ => rfl⟩

theorem wrote_put (wv : Wave) (o : Opnd) (lanes : List Nat) (val : Nat → W128) (tag : Nat → Tag) (ho : o.legal = true) :
    Wrote wv [o] lanes 0 (wv.put o lanes val tag) := (put_put wv o lanes val tag ho).wrote

/-! ## Issuing -/

theorem Issues.legalD {i : Instr} {s : State} {sl : Slot} (h : Issues i s sl) : i.shape.d.legal = true := by
  have hw := h.legal
  simp only [Instr.wf, Instr.illegal, Rule.check, Option.isNone_iff_eq_none] at hw
  by_contra hd
  have hd' := eq_false_of_ne_true hd
  rw [Instr.shape] at hd'
  simp [hd'] at hw

theorem Issues.legalC {i : Instr} {s : State} {sl : Slot} (h : Issues i s sl) : i.shape.c.legal = true := by
  have hw := h.legal
  simp only [Instr.wf, Instr.illegal, Rule.check, Option.isNone_iff_eq_none] at hw
  by_contra hd
  have hd' := eq_false_of_ne_true hd
  rw [Instr.shape] at hd'
  simp [hd'] at hw

theorem Issues.run {i : Instr} {s : State} {sl : Slot} (h : Issues i s sl) (illegal : Grp → Bool) (k : Grp → State → State)
    (hi : illegal (s.groupOf i sl) = false) :
    issue i s illegal k = .next ((k (s.groupOf i sl)
      (s.advance (s.groupOf i sl))).finish (s.groupOf i sl)) := by
  obtain ⟨rest, hs⟩ : ∃ rest, s.slots = sl :: rest := by
    have := h.slot
    cases hsl : s.slots with
    | nil => simp [hsl] at this
    | cons x xs => simp [hsl] at this; exact ⟨xs, by rw [this]⟩
  have hg : s.group sl ((encode i).getD 0) i.shape = s.groupOf i sl := rfl
  have hit : (s.groupOf i sl).lanes.filter (s.struck (s.groupOf i sl)) = [] := by
    rw [List.filter_eq_nil_iff]; intro l hl; simp [h.sound l hl]
  have hlanes : (s.groupOf i sl).lanes.filter (fun _ => true) = (s.groupOf i sl).lanes := List.filter_true _
  unfold issue
  rw [hs]
  simp only [hg, Grp.check, hi, h.budget, h.settled, hit]
  simp [hlanes]

/-- What a group's step makes of one of its threads. -/
def stepped (g : Grp) (t : Thread) : Thread :=
  if g.replay.isSome then { t with redo := t.redo.tail } else { t with pc := nextPc t.pc }

theorem stepped_fields (g : Grp) (x : Thread) : stepped g x = { x with pc := (stepped g x).pc, redo := (stepped g x).redo } := by
  unfold stepped; split <;> rfl

theorem stepped_none (g : Grp) (x : Thread) (h : g.replay = none) : stepped g x = { x with pc := nextPc x.pc } := by
  simp [stepped, h]

theorem stepped_some (g : Grp) (x : Thread) (h : g.replay ≠ none) : stepped g x = { x with redo := x.redo.tail } := by
  simp [stepped, Option.isSome_iff_ne_none.mpr h]

theorem State.finish_cases (m : State) (g : Grp) :
    m.finish g = m ∨ ∃ done : Wave → List Nat, m.finish g = m.modWave g.w fun wv => wv.unhold (done wv) := by
  unfold State.finish
  split
  · refine Or.inr ⟨fun wv => g.all.filter fun l => !(wv.thread l).redo.head?.any fun r => r.pc == g.pc && r.word == g.word, ?_⟩
    rfl
  · exact Or.inl rfl

theorem State.finish_none (m : State) (g : Grp) (h : g.replay = none) : m.finish g = m := by simp [State.finish, h]

theorem Wave.thread_unhold (wv : Wave) (done : List Nat) (l : Nat) :
    (wv.unhold done).thread l = { wv.thread l with hold := ((wv.unhold done).thread l).hold } := by
  simp only [Wave.unhold, Wave.thread, List.getD_eq_getElem?_getD, List.getElem?_map]
  by_cases hl : l < wv.threads.length
  · simp [List.getElem?_eq_getElem hl]
  · simp [List.getElem?_eq_none (Nat.le_of_not_lt hl)]

/-- What the end of an issue can still do: lanes that waited for the group are released. -/
theorem State.finish_wave (m : State) (g : Grp) (h : g.w < m.waves.length) :
    (m.finish g).wave g.w = { m.wave g.w with threads := ((m.finish g).wave g.w).threads } ∧
    ((m.finish g).wave g.w).threads.length = (m.wave g.w).threads.length ∧
    ∀ l, ((m.finish g).wave g.w).thread l = { (m.wave g.w).thread l with hold := (((m.finish g).wave g.w).thread l).hold } := by
  rcases m.finish_cases g with hf | ⟨done, hf⟩
  · rw [hf]; exact ⟨rfl, rfl, fun _ => rfl⟩
  · rw [hf, State.wave_modWave _ _ _ h]
    exact ⟨rfl, by simp [Wave.unhold], fun l => Wave.thread_unhold ..⟩

theorem State.finish_other (m : State) (g : Grp) (w : Nat) (h : w ≠ g.w) : (m.finish g).wave w = m.wave w := by
  rcases m.finish_cases g with hf | ⟨done, hf⟩
  · rw [hf]
  rw [hf]
  exact State.wave_modWave_ne _ _ _ _ h

theorem State.finish_rest (m : State) (g : Grp) : m.finish g = { m with waves := (m.finish g).waves } := by
  rcases m.finish_cases g with hf | ⟨done, hf⟩ <;> rw [hf]
  rfl

/-- The group's wave after the group has moved on. -/
def State.moved (s : State) (g : Grp) : Wave := { (s.wave g.w).modLanes g.all fun _ => stepped g with fetched := none }

/-- A thread of the group's wave after the group has moved on. -/
theorem thread_stepped (s : State) (g : Grp) (hl : ∀ l ∈ g.all, l < (s.wave g.w).threads.length) (l : Nat) :
    (s.moved g).thread l =
      if l ∈ g.all then stepped g (s.thread g.w l) else s.thread g.w l := by
  show ((s.wave g.w).modLanes g.all fun _ => stepped g).thread l = _
  by_cases h : l ∈ g.all
  · rw [Wave.thread_modLanes _ _ _ _ (hl l h)]; rfl
  · rw [Wave.thread_modLanes_not _ _ _ _ h, if_neg h]; rfl

theorem thread_stepped_fields (s : State) (g : Grp) (hl : ∀ l ∈ g.all, l < (s.wave g.w).threads.length) (l : Nat) :
    (s.moved g).thread l = { s.thread g.w l with pc := ((s.moved g).thread l).pc, redo := ((s.moved g).thread l).redo } := by
  rw [thread_stepped s g hl l]
  split
  · exact stepped_fields ..
  · rfl

/-- A state whose group's wave is a `Wrote` of the stepped wave is kept, through the end of the issue. -/
theorem kept_of_wrote {s m : State} {g : Grp} {adv out : Wave} {ds : List Opnd} {flags : BitVec 5}
    (hl : ∀ l ∈ g.all, l < (s.wave g.w).threads.length)
    (hadv : adv = s.moved g)
    (hrest : m = { s with slots := s.slots.tail, waves := m.waves, regPoison := m.regPoison })
    (hp : ∀ e ∈ m.regPoison, e ∈ s.regPoison) (ho : ∀ w, w ≠ g.w → m.wave w = s.wave w) (hlen : g.w < m.waves.length)
    (hout : m.wave g.w = out) (hF : Wrote adv ds g.lanes flags out) : Kept g ds flags s (m.finish g) := by
  obtain ⟨f1, f2, f3⟩ := m.finish_wave g hlen
  rw [hout] at f1 f2 f3
  have hfld := thread_stepped_fields s g hl
  have hthr := thread_stepped s g hl
  rw [← hadv] at hfld hthr
  have hT : ∀ l, (m.finish g).thread g.w l = { adv.thread l with
      vregs := (out.thread l).vregs, preds := (out.thread l).preds, hold := ((m.finish g).thread g.w l).hold } := fun l => by
    have e : (m.finish g).thread g.w l = ((m.finish g).wave g.w).thread l := rfl
    rw [e, f3 l, hF.thread l]
  have hv : ∀ l, ((m.finish g).thread g.w l).vregs = (out.thread l).vregs := fun l => by rw [hT l]
  have hpr : ∀ l, ((m.finish g).thread g.w l).preds = (out.thread l).preds := fun l => by rw [hT l]
  have hpc : ∀ l, ((m.finish g).thread g.w l).pc = (adv.thread l).pc := fun l => by rw [hT l]
  have hre : ∀ l, ((m.finish g).thread g.w l).redo = (adv.thread l).redo := fun l => by rw [hT l]
  have hs : ((m.finish g).wave g.w).sregs = out.sregs := by rw [f1]
  refine ⟨?_, ?_, ?_, ?_, ?_, ?_, ?_, ?_, ?_, ?_, ?_⟩
  · rw [State.finish_rest, hrest]
  · intro e he
    rw [State.finish_rest] at he; exact hp e he
  · intro w hne
    rw [State.finish_other _ _ _ hne, ho w hne]
  · rw [f1, hF.wave, hadv]; rfl
  · rw [f2, hF.count, hadv]; simp [State.moved]
  · intro l
    rw [hT l, hfld l]
  · intro hr l
    rw [State.finish_none _ _ hr]
    have e : m.thread g.w l = out.thread l := by show (m.wave g.w).thread l = _; rw [hout]
    rw [e, hF.thread l, hthr l]
    refine ⟨?_, ?_, ?_⟩ <;> split <;> simp [stepped_none _ _ hr]
  · intro hr l
    rw [hpc l, hre l, hthr l]
    refine ⟨?_, ?_⟩ <;> split <;> simp [stepped_some _ _ hr]
  · intro l r hn
    have e1 : ((m.finish g).thread g.w l).v r = (out.thread l).v r := by simp only [Thread.v, hv l]
    rw [e1, hF.vregs l r hn, hfld l]; rfl
  · intro l r hn
    have e1 : ((m.finish g).thread g.w l).p r = (out.thread l).p r := by simp only [Thread.p, hpr l]
    rw [e1, hF.preds l r hn, hfld l]; rfl
  · intro r hn
    have e1 : ((m.finish g).wave g.w).sreg r = out.sreg r := by simp only [Wave.sreg, hs]
    rw [e1, hF.sregs r hn, hadv]; rfl

/-- What an operand reads is not changed by the end of an issue. -/
theorem operand_finish (m : State) (g : Grp) (h : g.w < m.waves.length) (o : Opnd) (l : Nat) :
    ((m.finish g).wave g.w).operand o l = (m.wave g.w).operand o l := by
  obtain ⟨f1, _, f3⟩ := m.finish_wave g h
  have e1 : ∀ r, (((m.finish g).wave g.w).thread l).v r = ((m.wave g.w).thread l).v r := fun r => by rw [f3 l]; rfl
  have e2 : ∀ r, (((m.finish g).wave g.w).thread l).p r = ((m.wave g.w).thread l).p r := fun r => by rw [f3 l]; rfl
  have e3 : ∀ r, ((m.finish g).wave g.w).sreg r = (m.wave g.w).sreg r := fun r => by rw [f1]; rfl
  simp only [Wave.operand, Thread.dv, Wave.sd, e1, e2, e3]

/-- The wave of the group after the group has moved on. -/
theorem wave_moved (s : State) (i : Instr) (sl : Slot) (h : sl.wave < s.waves.length) (ls : List Nat) :
    ((s.advance (s.groupOf i sl)).heal (s.groupOf i sl) ls).wave sl.wave =
      s.moved (s.groupOf i sl) := by
  show (modifyAt s.waves sl.wave _).getD sl.wave Wave.blank = _
  rw [getD_modifyAt _ _ _ _ _ h, if_pos rfl]; rfl

/-- The lanes of a slot's group are lanes of its wave. -/
theorem Issues.all {i : Instr} {s : State} {sl : Slot} (h : Issues i s sl) :
    ∀ l ∈ (s.groupOf i sl).all, l < (s.wave sl.wave).threads.length := by
  intro l hl
  refine h.lanes l ?_
  simp only [State.groupOf, State.group, State.slotLanes] at hl
  split at hl
  · exact (List.mem_filter.mp hl).1
  · exact hl

theorem Issues.lane {i : Instr} {s : State} {sl : Slot} (h : Issues i s sl) {l : Nat} (hl : l ∈ (s.groupOf i sl).lanes) :
    l < (s.moved (s.groupOf i sl)).threads.length := by
  have e : (s.moved (s.groupOf i sl)).threads.length = (s.wave sl.wave).threads.length := Wave.length_modLanes ..
  rw [e]
  refine h.all l ?_
  simp only [State.groupOf, State.group] at hl ⊢
  split at hl
  · exact hl
  · exact (List.mem_filter.mp hl).1

/-- An issue whose effect is one change of the wave keeps all else, and its registers read as the change leaves them. -/
theorem Issues.kept {i : Instr} {s : State} {sl : Slot} (h : Issues i s sl) (F : Wave → Wave) (ds : List Opnd) (flags : BitVec 5)
    (hF : Wrote (s.moved (s.groupOf i sl)) ds (s.groupOf i sl).lanes flags
      (F (s.moved (s.groupOf i sl)))) :
    Kept (s.groupOf i sl) ds flags s
      ((((s.advance (s.groupOf i sl)).heal (s.groupOf i sl) (s.groupOf i sl).lanes).modWave sl.wave F).finish (s.groupOf i sl)) ∧
    ∀ l o, ((((( s.advance (s.groupOf i sl)).heal (s.groupOf i sl) (s.groupOf i sl).lanes).modWave sl.wave F).finish
      (s.groupOf i sl)).wave sl.wave).operand o l =
      (F (s.moved (s.groupOf i sl))).operand o l := by
  have hlen1 : sl.wave < ((s.advance (s.groupOf i sl)).heal (s.groupOf i sl) (s.groupOf i sl).lanes).waves.length := by
    show sl.wave < (modifyAt s.waves sl.wave _).length
    rw [length_modifyAt]; exact h.wave
  have hout := State.wave_modWave _ _ F hlen1
  rw [wave_moved s i sl h.wave] at hout
  have hlen2 : sl.wave < (((s.advance (s.groupOf i sl)).heal (s.groupOf i sl) (s.groupOf i sl).lanes).modWave sl.wave F).waves.length := by
    rw [State.modWave_waves, length_modifyAt]; exact hlen1
  refine ⟨kept_of_wrote h.all rfl rfl (fun e he => (List.mem_filter.mp he).1) (fun w hne => ?_) hlen2 hout hF, fun l o => ?_⟩
  · have hne : w ≠ sl.wave := hne
    rw [State.wave_modWave_ne _ _ _ _ hne]
    show (modifyAt s.waves sl.wave _).getD w Wave.blank = _
    simp only [List.getD_eq_getElem?_getD, getElem?_modifyAt_ne _ _ _ _ hne]; rfl
  · have := operand_finish _ (s.groupOf i sl) hlen2 o l
    rw [← hout]; exact this

/-! ## Instructions that only write their destination -/

/-- Every meaning written with `lanesOp` gives its value in every executing lane and keeps all else. -/
theorem gives_lanesOp (i : Instr) (val : Grp → Nat → W128) (tag : Grp → Nat → Tag)
    (he : ∀ s, exec i s = lanesOp i s val tag) : Gives i (fun _ => val) fun _ _ => 0 := by
  intro s sl h
  have hw := wrote_put (s.moved (s.groupOf i sl)) i.shape.d (s.groupOf i sl).lanes
    (val (s.groupOf i sl)) (tag (s.groupOf i sl)) h.legalD
  obtain ⟨hk, ho⟩ := h.kept (fun wv => wv.put i.shape.d (s.groupOf i sl).lanes (val (s.groupOf i sl)) (tag (s.groupOf i sl)))
    [i.shape.d] 0 hw
  refine ⟨_, (he s).trans (h.run lawful _ rfl), hk, fun l hl => ?_⟩
  refine (ho l i.shape.d).trans (put_shown _ _ _ _ _ h.legalD l hl ?_)
  exact h.lane hl

/-- Every meaning written with `flagsOp` gives its value, joins its flags, and keeps all else. -/
theorem gives_flagsOp (i : Instr) (val : Grp → Nat → W128 × BitVec 5) (he : ∀ s, exec i s = flagsOp i s val) :
    Gives i (fun _ g l => (val g l).1) fun _ g => g.joined fun l => (val g l).2 := by
  intro s sl h
  have hw := (wrote_put (s.moved (s.groupOf i sl)) i.shape.d (s.groupOf i sl).lanes
    (fun l => (val (s.groupOf i sl) l).1) (s.groupOf i sl).tag h.legalD).trans
      (wrote_flags _ (s.groupOf i sl).lanes ((s.groupOf i sl).joined fun l => (val (s.groupOf i sl) l).2))
  obtain ⟨hk, ho⟩ := h.kept (fun wv => (wv.put i.shape.d (s.groupOf i sl).lanes (fun l => (val (s.groupOf i sl) l).1)
    (s.groupOf i sl).tag).orFlags ((s.groupOf i sl).joined fun l => (val (s.groupOf i sl) l).2)) ([i.shape.d] ++ []) (0 ||| (s.groupOf i sl).joined fun l => (val (s.groupOf i sl) l).2) hw
  have hz : (0 ||| (s.groupOf i sl).joined fun l => (val (s.groupOf i sl) l).2) = ((s.groupOf i sl).joined fun l => (val (s.groupOf i sl) l).2) := by simp
  rw [hz, List.append_nil] at hk
  have twice : ∀ (x : State) (w : Nat) (f f' : Wave → Wave), (x.modWave w f).modWave w f' = x.modWave w fun wv => f' (f wv) := by
    intro x w f f'
    simp only [State.modWave, modifyAt, List.modify_modify_eq]
    rfl
  refine ⟨_, ((he s).trans (h.run lawful _ rfl)).trans ?_, hk, fun l hl => ?_⟩
  · simp only [State.writeD, twice]; rfl
  · refine (ho l i.shape.d).trans ((put_shown _ _ _ _ _ h.legalD l hl ?_))
    exact h.lane hl

end Sys2Proof.Machine
end

