-- ==== Sys2Proof/Tests/Slice0.lean ====
section
/-! SUPPORT. The author's own tests: words written out from the encodings, ill-formed terms that are refused, results that the spec's
examples give, and for each statement with hypotheses states and operands that meet them. -/

open Sys2Proof Sys2Proof.Machine

set_option maxRecDepth 200000
set_option exponentiation.threshold 4096

namespace Sys2Proof.Tests

/-! ## Words (OP from R68 and R69, fields from R50, R55, R71, R142, R172) -/

/-- One word of each instruction, written from the layouts. -/
def wordsInteger : List (IWord × Instr) := [
  (0x004A0003_01407001_84000000, .iadd ⟨⟨2, true, false, 0, 0⟩, 3, 5, 7, 0, .s32, .rne, true, false, false, false, 0⟩),
  (0x08400004_01A00000_005C0000, .iaddImm ⟨⟨0, false, false, 0, 0⟩, 4, 6, 0x80000001, .u64, .rne, false, false, 0⟩),
  (0x00800008_0280C002_00000000, .isub ⟨⟨0, false, false, 0, 0⟩, 8, 10, 12, 0, .s64, .rne, false, false, false, false, 0⟩),
  (0x08800003_01400000_02544000, .isubImm ⟨⟨0, false, false, 0, 0⟩, 3, 5, 0x9, .u32, .rne, true, false, 0⟩),
  (0x00C00003_01407001_40400000, .imul ⟨⟨0, false, false, 0, 0⟩, 3, 5, 7, 0, .u32, .rne, false, false, true, false, 0⟩),
  (0x08C00003_017FFFFF_FFD82000, .imulImm ⟨⟨0, false, false, 0, 0⟩, 3, 5, 0xffffffff, .s32, .rne, false, true, 0⟩),
  (0x01000008_0280C039_C0200000, .imad ⟨⟨0, false, false, 0, 0⟩, 8, 10, 12, 14, .u64, .rne, false, false, false, true, 0⟩),
  (0x01410003_01407001_80000000, .imulhi ⟨⟨0, false, true, 0, 0⟩, 3, 5, 7, 0, .s32, .rne, false, false, false, false, 0⟩),
  (0x01809003_01407001_80000000, .idiv ⟨⟨0, false, false, 9, 0⟩, 3, 5, 7, 0, .s32, .rne, false, false, false, false, 0⟩),
  (0x01C00808_0280C001_C0000000, .irem ⟨⟨0, false, false, 0, 2⟩, 8, 10, 12, 0, .u64, .rne, false, false, false, false, 0⟩),
  (0x02000003_01407001_80000000, .imin ⟨⟨0, false, false, 0, 0⟩, 3, 5, 7, 0, .s32, .rne, false, false, false, false, 0⟩),
  (0x0A000003_01400000_00540000, .iminImm ⟨⟨0, false, false, 0, 0⟩, 3, 5, 0x1, .u32, .rne, false, false, 0⟩),
  (0x02400003_01407001_40000000, .imax ⟨⟨0, false, false, 0, 0⟩, 3, 5, 7, 0, .u32, .rne, false, false, false, false, 0⟩),
  (0x0A400003_01400000_00980000, .imaxImm ⟨⟨0, false, false, 0, 0⟩, 3, 5, 0x2, .s32, .rne, false, false, 0⟩),
  (0x02800008_02800002_04000000, .iabs ⟨⟨0, false, false, 0, 0⟩, 8, 10, 0, 0, .s64, .rne, true, false, false, false, 0⟩),
  (0x02C00003_01400001_40000000, .ineg ⟨⟨0, false, false, 0, 0⟩, 3, 5, 0, 0, .u32, .rne, false, false, false, false, 0⟩),
  (0x03000C03_01407025_40000000, .iadd3 ⟨⟨0, false, false, 0, 3⟩, 3, 5, 7, 9, .u32, .rne, false, false, false, false, 0⟩),
  (0x03400003_0140702D_40000000, .iaddc ⟨⟨0, false, false, 0, 0⟩, 3, 5, 7, 11, .u32, .rne, false, false, false, false, 0⟩),
  (0x03800008_0280501E_00000000, .lea ⟨⟨0, false, false, 0, 0⟩, 8, 10, 5, 7, .s64, .rne, false, false, false, false, 0⟩),
  (0x03C0000B_01407001_800A0000, .icmp ⟨⟨0, false, false, 0, 0⟩, 11, 5, 7, 0, .s32, .rne, false, false, false, false, 5⟩),
  (0x0BC0000B_01400000_13400001, .icmpImm ⟨⟨0, false, false, 0, 0⟩, 11, 5, 0x4d, .b32, .rne, false, false, 1⟩),
  (0x04000003_01407034_00000000, .isel ⟨⟨0, false, false, 0, 0⟩, 3, 5, 7, 13, .b32, .rne, false, false, false, false, 0⟩)]

/-- One word of each instruction, written from the layouts. -/
def wordsBit : List (IWord × Instr) := [
  (0x10000003_01407000_00000000, .and ⟨⟨0, false, false, 0, 0⟩, 3, 5, 7, 0, .b32, .rne, false, false, false, false, 0⟩),
  (0x18000003_01400000_3C000000, .andImm ⟨⟨0, false, false, 0, 0⟩, 3, 5, 0xf0, .b32, .rne, false, false, 0⟩),
  (0x10400008_0280C000_C0000000, .or ⟨⟨0, false, false, 0, 0⟩, 8, 10, 12, 0, .b64, .rne, false, false, false, false, 0⟩),
  (0x18400003_01400000_01804000, .orImm ⟨⟨0, false, false, 0, 0⟩, 3, 5, 0x6, .b32, .rne, true, false, 0⟩),
  (0x10800003_01407000_00800000, .xor ⟨⟨0, false, false, 0, 0⟩, 3, 5, 7, 0, .b32, .rne, false, true, false, false, 0⟩),
  (0x18800003_01400015_6A800000, .xorImm ⟨⟨0, false, false, 0, 0⟩, 3, 5, 0x55aa, .b32, .rne, false, false, 0⟩),
  (0x10C00003_01400000_00000000, .not ⟨⟨0, false, false, 0, 0⟩, 3, 5, 0, 0, .b32, .rne, false, false, false, false, 0⟩),
  (0x11000403_01407024_000000E0, .lop3 ⟨⟨0, false, false, 0, 1⟩, 3, 5, 7, 9, .b32, .rne, false, false, 0xe0⟩),
  (0x11400008_02807000_C0000000, .shl ⟨⟨0, false, false, 0, 0⟩, 8, 10, 7, 0, .b64, .rne, false, false, false, false, 0⟩),
  (0x19400003_01400000_07C00000, .shlImm ⟨⟨0, false, false, 0, 0⟩, 3, 5, 0x1f, .b32, .rne, false, false, 0⟩),
  (0x11800003_01407000_00400000, .shr ⟨⟨0, false, false, 0, 0⟩, 3, 5, 7, 0, .b32, .rne, false, false, true, false, 0⟩),
  (0x19800003_01400000_01000000, .shrImm ⟨⟨0, false, false, 0, 0⟩, 3, 5, 0x4, .b32, .rne, false, false, 0⟩),
  (0x11C00003_01407001_80000000, .sar ⟨⟨0, false, false, 0, 0⟩, 3, 5, 7, 0, .s32, .rne, false, false, false, false, 0⟩),
  (0x19C00008_02800000_0FE00000, .sarImm ⟨⟨0, false, false, 0, 0⟩, 8, 10, 0x3f, .s64, .rne, false, false, 0⟩),
  (0x12000003_01407000_00000000, .rot ⟨⟨0, false, false, 0, 0⟩, 3, 5, 7, 0, .b32, .rne, false, false, false, false, 0⟩),
  (0x1A000003_01400000_09000000, .rotImm ⟨⟨0, false, false, 0, 0⟩, 3, 5, 0x24, .b32, .rne, false, false, 0⟩),
  (0x12400003_01407001_80000000, .bfe ⟨⟨0, false, false, 0, 0⟩, 3, 5, 7, 0, .s32, .rne, false, false, false, false, 0⟩),
  (0x12800008_0280C01C_C0000000, .bfi ⟨⟨0, false, false, 0, 0⟩, 8, 10, 12, 7, .b64, .rne, false, false, false, false, 0⟩),
  (0x12C00003_02800000_C0000000, .popc ⟨⟨0, false, false, 0, 0⟩, 3, 10, 0, 0, .b64, .rne, false, false, false, false, 0⟩),
  (0x13000003_01400000_00000000, .clz ⟨⟨0, false, false, 0, 0⟩, 3, 5, 0, 0, .b32, .rne, false, false, false, false, 0⟩),
  (0x13400003_01400000_00000000, .brev ⟨⟨0, false, false, 0, 0⟩, 3, 5, 0, 0, .b32, .rne, false, false, false, false, 0⟩)]

/-- One word of each instruction, written from the layouts. -/
def wordsFloat : List (IWord × Instr) := [
  (0x20000003_01407002_D0000000, .fadd ⟨⟨0, false, false, 0, 0⟩, 3, 5, 7, 0, .f32, .rup, false, false, false, false, 0⟩),
  (0x28000003_0140000F_00240000, .faddImm ⟨⟨0, false, false, 0, 0⟩, 3, 5, 0x3c00, .f16, .rne, false, false, 0⟩),
  (0x20400008_0280C003_18000000, .fsub ⟨⟨0, false, false, 0, 0⟩, 8, 10, 12, 0, .f64, .rdn, false, false, false, false, 0⟩),
  (0x28400003_014FF000_002C0000, .fsubImm ⟨⟨0, false, false, 0, 0⟩, 3, 5, 0x3fc00000, .f32, .rne, false, false, 0⟩),
  (0x20800003_01407002_A0000000, .fmul ⟨⟨0, false, false, 0, 0⟩, 3, 5, 7, 0, .bf16, .rna, false, false, false, false, 0⟩),
  (0x28800008_02900000_00308000, .fmulImm ⟨⟨0, false, false, 0, 0⟩, 8, 10, 0x40000000, .f64, .rtz, false, false, 0⟩),
  (0x20C00003_01407027_40000000, .ffma ⟨⟨0, false, false, 0, 0⟩, 3, 5, 7, 9, .f16x2, .rne, false, false, false, false, 0⟩),
  (0x21000003_01407002_C0000000, .fmin ⟨⟨0, false, false, 0, 0⟩, 3, 5, 7, 0, .f32, .rne, false, false, false, false, 0⟩),
  (0x29000003_014FE000_002C0000, .fminImm ⟨⟨0, false, false, 0, 0⟩, 3, 5, 0x3f800000, .f32, .rne, false, false, 0⟩),
  (0x21400003_01407002_40000000, .fmax ⟨⟨0, false, false, 0, 0⟩, 3, 5, 7, 0, .f16, .rne, false, false, false, false, 0⟩),
  (0x29400003_016FE000_002C0000, .fmaxImm ⟨⟨0, false, false, 0, 0⟩, 3, 5, 0xbf800000, .f32, .rne, false, false, 0⟩),
  (0x21800003_01400002_C0000000, .fabs ⟨⟨0, false, false, 0, 0⟩, 3, 5, 0, 0, .f32, .rne, false, false, false, false, 0⟩),
  (0x21C10008_02800003_00000000, .fneg ⟨⟨0, false, true, 0, 0⟩, 8, 10, 0, 0, .f64, .rne, false, false, false, false, 0⟩),
  (0x2200000B_01407002_C01A0000, .fcmp ⟨⟨0, false, false, 0, 0⟩, 11, 5, 7, 0, .f32, .rne, false, false, false, false, 13⟩),
  (0x2A00000B_0140000F_E0280009, .fcmpImm ⟨⟨0, false, false, 0, 0⟩, 11, 5, 0x3f80, .bf16, .rne, false, false, 9⟩),
  (0x22400003_02800003_00000000, .fclass ⟨⟨0, false, false, 0, 0⟩, 3, 10, 0, 0, .f64, .rne, false, false, false, false, 0⟩),
  (0x22800008_02807003_00000000, .fscale ⟨⟨0, false, false, 0, 0⟩, 8, 10, 7, 0, .f64, .rne, false, false, false, false, 0⟩),
  (0x22C00003_01400002_C8000000, .frnd ⟨⟨0, false, false, 0, 0⟩, 3, 5, 0, 0, .f32, .rtz, false, false, false, false, 0⟩)]

/-- One word of each instruction, written from the layouts. -/
def wordsFunction : List (IWord × Instr) := [
  (0x3000F003_01407002_C0000000, .fdiv ⟨⟨0, false, false, 15, 0⟩, 3, 5, 7, 0, .f32, .rne, false, false, false, false, 0⟩),
  (0x30400008_02800003_10000000, .fsqrt ⟨⟨0, false, false, 0, 0⟩, 8, 10, 0, 0, .f64, .rup, false, false, false, false, 0⟩),
  (0x30800003_01400002_C0000000, .frcp ⟨⟨0, false, false, 0, 0⟩, 3, 5, 0, 0, .f32, .rne, false, false, false, false, 0⟩),
  (0x30C00003_01400002_40000000, .frsq ⟨⟨0, false, false, 0, 0⟩, 3, 5, 0, 0, .f16, .rne, false, false, false, false, 0⟩),
  (0x31000003_01400002_C0000000, .fex2 ⟨⟨0, false, false, 0, 0⟩, 3, 5, 0, 0, .f32, .rne, false, false, false, false, 0⟩),
  (0x31400003_01400002_C0000000, .flg2 ⟨⟨0, false, false, 0, 0⟩, 3, 5, 0, 0, .f32, .rne, false, false, false, false, 0⟩),
  (0x31800008_02800003_00000000, .fsin ⟨⟨0, false, false, 0, 0⟩, 8, 10, 0, 0, .f64, .rne, false, false, false, false, 0⟩),
  (0x31C00003_01400002_C0000000, .fcos ⟨⟨0, false, false, 0, 0⟩, 3, 5, 0, 0, .f32, .rne, false, false, false, false, 0⟩)]

/-- One word of each instruction, written from the layouts. -/
def wordsMoveAndLane : List (IWord × Instr) := [
  (0x40000010_05000001_00000000, .mov ⟨⟨0, false, false, 0, 0⟩, 16, 20, 0, 0, .b128, .rne, false, false, false, false, 0⟩),
  (0x40400003_0037AB6F_BBD40000, .movi ⟨⟨0, false, false, 0, 0⟩, 3, 0, 0xdeadbeef, .u32, .rne, false, false, 0⟩),
  (0x40800003_02807003_A8180000, .cvt ⟨⟨0, false, false, 0, 0⟩, 3, 10, 7, 0, .gf8, .sr, false, false, false, false, 12⟩),
  (0x40C00008_02807000_C0000000, .shuf ⟨⟨0, false, false, 0, 0⟩, 8, 10, 7, 0, .b64, .rne, false, false, false, false, 0⟩),
  (0x41000003_01407000_00400000, .bcast ⟨⟨0, false, false, 0, 0⟩, 3, 5, 7, 0, .b32, .rne, false, false, true, false, 0⟩),
  (0x4140000B_03400000_00000000, .vote ⟨⟨0, false, false, 0, 0⟩, 11, 13, 0, 0, .b32, .rne, false, false, false, false, 0⟩),
  (0x41800008_03400000_C0000000, .ballot ⟨⟨0, false, false, 0, 0⟩, 8, 13, 0, 0, .b64, .rne, false, false, false, false, 0⟩),
  (0x41C00003_01400000_00000000, .shp ⟨⟨0, false, false, 0, 0⟩, 3, 5, 0, 0, .b32, .rne, false, false, false, false, 0⟩),
  (0x42000008_00000000_100C0000, .rdsr ⟨⟨0, false, false, 0, 0⟩, 8, 0, 0x40, .b64, .rne, false, false, 0⟩)]

/-- One word of each instruction, written from the layouts. -/
def wordsPredicate : List (IWord × Instr) := [
  (0x50000001_00803000_00000000, .pand ⟨⟨0, false, false, 0, 0⟩, 1, 2, 3, 0, .b32, .rne, false, false, false, false, 0⟩),
  (0x5040000F_0380D000_00000000, .por ⟨⟨0, false, false, 0, 0⟩, 15, 14, 13, 0, .b32, .rne, false, false, false, false, 0⟩),
  (0x50800004_00009000_00000000, .pxor ⟨⟨0, false, false, 0, 0⟩, 4, 0, 9, 0, .b32, .rne, false, false, false, false, 0⟩),
  (0x50C00005_01800000_00000000, .pnot ⟨⟨0, false, false, 0, 0⟩, 5, 6, 0, 0, .b32, .rne, false, false, false, false, 0⟩),
  (0x510C0007_02000000_00000000, .pmov ⟨⟨3, false, false, 0, 0⟩, 7, 8, 0, 0, .b32, .rne, false, false, false, false, 0⟩)]

/-- One word of each instruction, written from the layouts. -/
def wordsControl : List (IWord × Instr) := [
  (0x60060000_FFFFFFF0_00000000, .bra ⟨⟨1, true, false, 0, 0⟩, 0, 0x3ffffffc⟩),
  (0x60400000_02800000_00000000, .brx ⟨⟨0, false, false, 0, 0⟩, 0, 10, 0, 0, .b32, .rne, false, false, false, false, 0⟩),
  (0x6080001E_00000014_00000000, .call ⟨⟨0, false, false, 0, 0⟩, 30, 0x5⟩),
  (0x60C0001E_02800000_00000000, .callx ⟨⟨0, false, false, 0, 0⟩, 30, 10, 0, 0, .b32, .rne, false, false, false, false, 0⟩),
  (0x61000000_07800000_00000000, .ret ⟨⟨0, false, false, 0, 0⟩, 0, 30, 0, 0, .b32, .rne, false, false, false, false, 0⟩),
  (0x61400000_03000000_C0000000, .join ⟨⟨0, false, false, 0, 0⟩, 0, 12, 0, 0, .b64, .rne, false, false, false, false, 0⟩),
  (0x61800000_00000000_00000000, .yield ⟨⟨0, false, false, 0, 0⟩, 0, 0, 0, 0, .b32, .rne, false, false, false, false, 0⟩),
  (0x61D00000_00000000_00000000, .exit ⟨⟨4, false, false, 0, 0⟩, 0, 0, 0, 0, .b32, .rne, false, false, false, false, 0⟩)]

/-- One word of each instruction, written from the layouts. -/
def wordsEffect : List (IWord × Instr) := [
  (0x70000003_0000003F_FFFC0020, .hpush ⟨⟨0, false, false, 0, 0⟩, 3, 0xf, 0xffff0008⟩),
  (0x70400000_03000000_C0000000, .hpop ⟨⟨0, false, false, 0, 0⟩, 0, 12, 0, 0, .b64, .rne, false, false, false, false, 0⟩),
  (0x70800008_01E00030_00000000, .perf ⟨⟨0, false, false, 0, 0⟩, 8, 7, true, 12, 0x0⟩),
  (0x70C00000_02800000_00000000, .resumet ⟨⟨0, false, false, 0, 0⟩, 0, 10, 0, 0, .b32, .rne, false, false, false, false, 0⟩),
  (0x7100000C_02800000_00000000, .resumec ⟨⟨0, false, false, 0, 0⟩, 12, 10, 0, 0, .b32, .rne, false, false, false, false, 0⟩),
  (0x7140000C_02800000_00000000, .resumek ⟨⟨0, false, false, 0, 0⟩, 12, 10, 0, 0, .b32, .rne, false, false, false, false, 0⟩),
  (0x71800000_02800000_00000000, .dropt ⟨⟨0, false, false, 0, 0⟩, 0, 10, 0, 0, .b32, .rne, false, false, false, false, 0⟩),
  (0x71C00010_02800000_00000000, .tinfo ⟨⟨0, false, false, 0, 0⟩, 16, 10, 0, 0, .b32, .rne, false, false, false, false, 0⟩),
  (0x72000000_00000003_FFFC0044, .trap ⟨⟨0, false, false, 0, 0⟩, 0, 0, 0, 0, 0xffff0011⟩)]

/-- One word of each instruction, written from the layouts. -/
def wordsMemory : List (IWord × Instr) := [
  (0x80004010_02800003_FFFFE449, .ld ⟨⟨0, false, false, 4, 0⟩, 16, 10, 0, 0, 0x3ffffe, .b128, .keep, .team, .acq⟩),
  (0x80400000_02807000_0000822A, .st ⟨⟨0, false, false, 0, 0⟩, 0, 10, 7, 0, 0x8, .b16, .none, .fabric, .rel⟩),
  (0x80800008_02800000_00000420, .ldp ⟨⟨0, false, false, 0, 0⟩, 8, 10, 0, 0, 0x0, .b128, .none, .dev, .rlx⟩),
  (0x80C00000_0280C000_000004E0, .stp ⟨⟨0, false, false, 0, 0⟩, 0, 10, 12, 0, 0x0, .b128, .bypass, .dev, .rlx⟩),
  (0x81000003_0281001C_00000218, .ldt ⟨⟨0, false, false, 0, 0⟩, 3, 10, 16, 7, 0x0, .b16, .none, .die, .rlx⟩),
  (0x81400000_02800000_00040020, .pref ⟨⟨0, false, false, 0, 0⟩, 0, 10, 0, 0, 0x40, .b32, .none, .dev, .rlx⟩),
  (0x81801010_02800001_00000000, .nameof ⟨⟨0, false, false, 1, 0⟩, 16, 10, 0, 0, .b128, .rne, false, false, false, false, 0⟩),
  (0x81C0000B_04014001_00000000, .ptreq ⟨⟨0, false, false, 0, 0⟩, 11, 16, 20, 0, .b128, .rne, false, false, false, false, 0⟩),
  (0x90000003_02807000_8FFFC513, .atom ⟨⟨0, false, false, 0, 0⟩, 3, 10, 7, 0, 8, 0xfffc, .u32, .none, .cluster, .acqrel⟩),
  (0x90400008_0280C038_00000323, .atomc ⟨⟨0, false, false, 0, 0⟩, 8, 10, 12, 14, 0x0, .b64, .none, .dev, .acqrel⟩),
  (0x90800000_0280C000_10000C22, .red ⟨⟨0, false, false, 0, 0⟩, 0, 10, 12, 0, 1, 0x0, .f64, .none, .dev, .rel⟩),
  (0x90C00000_02807030_0000402A, .rstf ⟨⟨0, false, false, 0, 0⟩, 0, 10, 7, 12, 0x4, .b32, .none, .fabric, .rel⟩),
  (0xC1000000_0280C000_00000C20, .exadd ⟨⟨0, false, false, 0, 0⟩, 0, 10, 12, 0, 0x0, .f64, .none, .dev, .rlx⟩),
  (0xC1400000_02800000_00000028, .exclr ⟨⟨0, false, false, 0, 0⟩, 0, 10, 0, 0, 0x0, .b32, .none, .fabric, .rlx⟩),
  (0xC180000C_02800000_40000C21, .exrnd ⟨⟨0, false, false, 0, 0⟩, 12, 10, 0, 0, 4, 0x0, .f64, .none, .dev, .acq⟩)]

/-- One word of each instruction, written from the layouts. -/
def wordsSynchronisation : List (IWord × Instr) := [
  (0xA0000000_00000000_00000003, .fence ⟨⟨0, false, false, 0, 0⟩, 0, 0, 0, 0, 0x0, .b32, .none, .wave, .acqrel⟩),
  (0xA0400007_00000000_00000000, .bar ⟨⟨0, false, false, 0, 0⟩, 7, 0, 0, 0, .b32, .rne, false, false, false, false, 0⟩),
  (0xA0800002_00009000_00400000, .bara ⟨⟨0, false, false, 0, 0⟩, 2, 0, 9, 0, .b32, .rne, false, false, true, false, 0⟩),
  (0xA0C00001_00000000_00000000, .barw ⟨⟨0, false, false, 0, 0⟩, 1, 0, 0, 0, .b32, .rne, false, false, false, false, 0⟩),
  (0xA100000F_01006020_00E00000, .cbdef ⟨⟨0, false, false, 0, 0⟩, 15, 4, 6, 8, .b32, .rne, false, true, true, true, 0⟩),
  (0xA1400008_01000000_00800000, .cbacq ⟨⟨0, false, false, 0, 0⟩, 8, 4, 0, 0, .b32, .rne, false, true, false, false, 0⟩),
  (0xA1800000_01000000_00800000, .cbrel ⟨⟨0, false, false, 0, 0⟩, 0, 4, 0, 0, .b32, .rne, false, true, false, false, 0⟩),
  (0xA1C00000_0280C000_00010721, .waitp ⟨⟨0, false, false, 0, 0⟩, 0, 10, 12, 0, 0x10, .u64, .none, .dev, .acq⟩),
  (0xA2000000_02800000_00000018, .icinv ⟨⟨0, false, false, 0, 0⟩, 0, 10, 0, 0, 0x0, .b32, .none, .die, .rlx⟩),
  (0xA2400000_00000000_00000000, .ifence ⟨⟨0, false, false, 0, 0⟩, 0, 0, 0, 0, .b32, .rne, false, false, false, false, 0⟩),
  (0xD0000000_02800000_30040020, .cctl ⟨⟨0, false, false, 0, 0⟩, 0, 10, 0, 0, 3, 0x40, .b32, .none, .dev, .rlx⟩),
  (0xD0400000_00000000_00000000, .halt ⟨⟨0, false, false, 0, 0⟩, 0, 0, 0, 0, .b32, .rne, false, false, false, false, 0⟩)]

/-- One word of each instruction, written from the layouts. -/
def wordsEngine : List (IWord × Instr) := [
  (0xB0000000_0100602C_08040B4B, .cpy ⟨⟨0, false, false, 0, 0⟩, 0, 4, 6, 11, 513, 0xb4b⟩),
  (0xB0400000_0100602C_000800FE, .cpym ⟨⟨0, false, false, 0, 0⟩, 0, 4, 6, 11, 2, 0xfe⟩),
  (0xB0800000_0100602F_FFFC000E, .cpyw ⟨⟨0, false, false, 0, 0⟩, 0, 4, 6, 11, 65535, 0xe⟩),
  (0xB0C00040_01006000_000003BB, .mma ⟨⟨0, false, false, 0, 0⟩, 64, 4, 6, 0, 0, 0x3bb⟩),
  (0xB1003040_01006020_000000EF, .mmasp ⟨⟨0, false, false, 3, 0⟩, 64, 4, 6, 8, 0, 0xef⟩),
  (0xB1400000_00000000_01340001, .cwait ⟨⟨0, false, false, 0, 0⟩, 0, 0, 0, 0, 77, 0x1⟩),
  (0xC0000000_01000000_00040000, .tset ⟨⟨0, false, false, 0, 0⟩, 0, 4, 0, 0, 1, 0x0⟩),
  (0xC0402000_01000000_00080000, .tget ⟨⟨0, false, false, 2, 0⟩, 0, 4, 0, 0, 2, 0x0⟩),
  (0xC0800000_00000000_000C0000, .tseal ⟨⟨0, false, false, 0, 0⟩, 0, 0, 0, 0, 3, 0x0⟩),
  (0xC0C00000_00000000_00100005, .publ ⟨⟨0, false, false, 0, 0⟩, 0, 0, 0, 0, 4, 0x5⟩)]

theorem test_decode_integer : wordsInteger.map (fun p => decode p.1) = wordsInteger.map fun p => .ok p.2 := by rfl

theorem test_decode_bit : wordsBit.map (fun p => decode p.1) = wordsBit.map fun p => .ok p.2 := by rfl

theorem test_decode_float : wordsFloat.map (fun p => decode p.1) = wordsFloat.map fun p => .ok p.2 := by rfl

theorem test_decode_function : wordsFunction.map (fun p => decode p.1) = wordsFunction.map fun p => .ok p.2 := by rfl

theorem test_decode_move_and_lane : wordsMoveAndLane.map (fun p => decode p.1) = wordsMoveAndLane.map fun p => .ok p.2 := by rfl

theorem test_decode_predicate : wordsPredicate.map (fun p => decode p.1) = wordsPredicate.map fun p => .ok p.2 := by rfl

theorem test_decode_control : wordsControl.map (fun p => decode p.1) = wordsControl.map fun p => .ok p.2 := by rfl

theorem test_decode_effect : wordsEffect.map (fun p => decode p.1) = wordsEffect.map fun p => .ok p.2 := by rfl

theorem test_decode_memory : wordsMemory.map (fun p => decode p.1) = wordsMemory.map fun p => .ok p.2 := by rfl

theorem test_decode_synchronisation : wordsSynchronisation.map (fun p => decode p.1) = wordsSynchronisation.map fun p => .ok p.2 := by rfl

theorem test_decode_engine : wordsEngine.map (fun p => decode p.1) = wordsEngine.map fun p => .ok p.2 := by rfl

/-- Words that the spec writes out beside their assembly, other than those of the statement `SpecWordsDecode`. -/
def wordsOfTheSpec : List (IWord × Instr) := [
  -- 06: ffma.f64.rtz d8, d10, d12, d14
  (0x20C00008_0280C03B_08000000, .ffma ⟨Hd.plain, 8, 10, 12, 14, .f64, .rtz, false, false, false, false, 0⟩),
  -- 08: ld.b16 v6, [d4+6]; ldp d4, [d16] !la3
  (0x80000006_01000000_00006220, .ld ⟨Hd.plain, 6, 4, 0, 0, 6, .b16, .none, .dev, .rlx⟩),
  (0x80803004_04000000_00000420, .ldp ⟨⟨0, false, false, 3, 0⟩, 4, 16, 0, 0, 0, .b128, .none, .dev, .rlx⟩),
  -- 09: mma.d8.gf8.zero v32, sd4, sd6
  (0xB0C00020_01006000_000001EF, .mma ⟨Hd.plain, 32, 4, 6, 0, 0, 0x1EF⟩),
  -- 11: stp [d4+16], d6; ptreq.b64 p1, d6, d12
  (0x80C00000_01006000_00010420, .stp ⟨Hd.plain, 0, 4, 6, 0, 16, .b128, .none, .dev, .rlx⟩),
  (0x81C00001_0180C000_C0000000, .ptreq ⟨Hd.plain, 1, 6, 12, 0, .b64, .rne, false, false, false, false, 0⟩),
  -- 12: perf q8, 0x0000_0C40, 8; resumek d6, d4; hpop.b128 q12; call with DISP 1 and D 30
  (0x70800008_00000020_00003100, .perf ⟨Hd.plain, 8, 0, false, 8, 0xC40⟩),
  (0x71400006_01000000_00000000, .resumek ⟨Hd.plain, 6, 4, 0, 0, .b32, .rne, false, false, false, false, 0⟩),
  (0x70400000_03000001_00000000, .hpop ⟨Hd.plain, 0, 12, 0, 0, .b128, .rne, false, false, false, false, 0⟩),
  (0x6080001E_00000004_00000000, .call ⟨Hd.plain, 30, 1⟩),
  -- 13: (!p1) st.rel.b64 [d8], d6; bra spin, four slots back; atomc.acqrel.b64 d16, [d4], d6, d14
  (0x80460000_02006000_00000322, .st ⟨⟨1, true, false, 0, 0⟩, 0, 8, 6, 0, 0, .b64, .none, .dev, .rel⟩),
  (0x60000000_FFFFFFF0_00000000, .bra ⟨Hd.plain, 0, 0x3FFFFFFC⟩),
  (0x90400010_01006038_00000323, .atomc ⟨Hd.plain, 16, 4, 6, 14, 0, .b64, .none, .dev, .acqrel⟩),
  -- 17: rdsr s5, %idx2; cpym 0x0041, sd4, s12, s20; fcmp.eq.f32 p1, v63, 72.0
  (0x42010005_00000000_04800000, .rdsr ⟨⟨0, false, true, 0, 0⟩, 5, 0, 0x12, .b32, .rne, false, false, 0⟩),
  (0xB0400000_0100C050_01040000, .cpym ⟨Hd.plain, 0, 4, 12, 20, 0x41, 0⟩),
  (0x2A000001_0FD0A400_002C0000, .fcmpImm ⟨Hd.plain, 1, 63, 0x42900000, .f32, .rne, false, false, 0⟩),
  -- 19: (p1) rstf.b64 [d16+72], d20, d32; shuf.b64 d22, d20, v30; fmul.f64 d28, d20, -2.0
  (0x90C40000_04014080_00048320, .rstf ⟨⟨1, false, false, 0, 0⟩, 0, 16, 20, 32, 72, .b64, .none, .dev, .rlx⟩),
  (0x40C00016_0501E000_C0000000, .shuf ⟨Hd.plain, 22, 20, 30, 0, .b64, .rne, false, false, false, false, 0⟩),
  (0x2880001C_05300000_00300000, .fmulImm ⟨Hd.plain, 28, 20, 0xC0000000, .f64, .rne, false, false, 0⟩)]

theorem test_decode_words_of_the_spec : wordsOfTheSpec.map (fun p => decode p.1) = wordsOfTheSpec.map fun p => .ok p.2 := by rfl

/-- R60, R69, R73: words that stand for no instruction: the all-ones word, OP 0 with a bit set, class 0xE, a blank cell, an immediate
form that is not allocated (the spec's 0x0A80_0000), a reserved bit, a reserved rounding, scope or order code. -/
theorem test_decode_refuses : ([0xFFFFFFFF_FFFFFFFF_FFFFFFFF, 0x00000000_00000000_00000001, 0xE0000000_00000000_00000000,
    0x04400000_00000000_00000000, 0x0A800000_00000000_00000000, 0x00400001_00800000_40000001, 0x00400001_00800000_68000000,
    0x80000006_01000000_00006230, 0x80000006_01000000_00006224] : List IWord).all (fun w => (decode w).toOption.isNone) = true := by
  rfl

/-- Terms that break one part of R61 each, with the part. -/
def illFormed : List (Illegal × Instr) := [
    -- an odd number for a 64-bit register
    (.registerField, .iadd ⟨Hd.plain, 7, 8, 10, 0, .u64, .rne, false, false, false, false, 0⟩),
    -- a register number of 128 for a scalar register
    (.registerField, .iadd ⟨⟨0, false, true, 0, 0⟩, 128, 0, 0, 0, .u32, .rne, false, false, false, false, 0⟩),
    -- a field that the instruction does not use
    (.registerField, .iadd ⟨Hd.plain, 1, 2, 3, 4, .u32, .rne, false, false, false, false, 0⟩),
    -- a type the entry does not list
    (.typeCode, .iadd ⟨Hd.plain, 1, 2, 3, 0, .b32, .rne, false, false, false, false, 0⟩),
    (.typeCode, .iabs ⟨Hd.plain, 1, 2, 0, 0, .u32, .rne, false, false, false, false, 0⟩),
    -- a rounding where nothing rounds, and `.sr` where no narrowing does
    (.rounding, .iadd ⟨Hd.plain, 1, 2, 3, 0, .u32, .rtz, false, false, false, false, 0⟩),
    (.rounding, .fadd ⟨Hd.plain, 1, 2, 3, 0, .f32, .sr, false, false, false, false, 0⟩),
    -- a condition that is not allocated
    (.subCode, .icmp ⟨Hd.plain, 1, 2, 3, 0, .s32, .rne, false, false, false, false, 6⟩),
    (.subCode, .icmp ⟨Hd.plain, 1, 2, 3, 0, .b32, .rne, false, false, false, false, 2⟩),
    (.subCode, .fcmp ⟨Hd.plain, 1, 2, 3, 0, .f32, .rne, false, false, false, false, 14⟩),
    -- an order a load does not take, a scope a flagged store does not take
    (.scopeOrder, .ld ⟨Hd.plain, 1, 2, 0, 0, 0, .b32, .none, .dev, .rel⟩),
    (.scopeOrder, .rstf ⟨Hd.plain, 0, 2, 4, 6, 0, .b32, .none, .team, .rlx⟩),
    -- a scalar form that does not exist
    (.scalarForm, .icmp ⟨⟨0, false, true, 0, 0⟩, 1, 2, 3, 0, .s32, .rne, false, false, false, false, 0⟩),
    (.scalarForm, .ld ⟨⟨0, false, true, 0, 0⟩, 4, 2, 0, 0, 0, .b128, .none, .dev, .rlx⟩),
    -- lookahead on an instruction that is not long-latency
    (.lookahead, .iadd ⟨⟨0, false, false, 1, 0⟩, 1, 2, 3, 0, .u32, .rne, false, false, false, false, 0⟩),
    -- a hold of a source the instruction has not, of a scalar source, and of the third source of `lop3`
    (.hold, .iadd ⟨⟨0, false, false, 0, 3⟩, 1, 2, 3, 0, .u32, .rne, false, false, false, false, 0⟩),
    (.hold, .iadd ⟨⟨0, false, false, 0, 1⟩, 1, 2, 3, 0, .u32, .rne, false, true, false, false, 0⟩),
    (.hold, .lop3 ⟨⟨0, false, false, 0, 3⟩, 1, 2, 3, 4, .b32, .rne, false, false, 0⟩),
    -- saturation where R103 marks none
    (.saturation, .imulhi ⟨Hd.plain, 1, 2, 3, 0, .u32, .rne, true, false, false, false, 0⟩),
    (.saturation, .ineg ⟨Hd.plain, 1, 2, 0, 0, .u32, .rne, true, false, false, false, 0⟩),
    -- a scalar mark on a source under S = 1, and on one that is not there
    (.sourceKind, .iadd ⟨⟨0, false, true, 0, 0⟩, 1, 2, 3, 0, .u32, .rne, false, true, false, false, 0⟩),
    (.sourceKind, .iadd ⟨Hd.plain, 1, 2, 3, 0, .u32, .rne, false, false, false, true, 0⟩),
    -- modifiers: a special register, a trap code, a barrier level, an accumulator pair, an immediate's top half
    (.typeCode, .rdsr ⟨Hd.plain, 1, 0, 0x24, .b32, .rne, false, false, 0⟩),
    (.modifier, .rdsr ⟨Hd.plain, 1, 0, 0x10, .b32, .rne, false, false, 1⟩),
    (.modifier, .trap ⟨Hd.plain, 0, 0, 0, 0, 0xFFFF0012⟩),
    (.modifier, .bar ⟨Hd.plain, 0, 0, 0, 0, .b32, .rne, false, false, false, false, 0⟩),
    (.modifier, .mma ⟨Hd.plain, 65, 4, 6, 0, 0, 0x0CC⟩),
    (.modifier, .faddImm ⟨Hd.plain, 1, 2, 0x10000, .f16, .rne, false, false, 0⟩),
    (.modifier, .perf ⟨Hd.plain, 8, 0, false, 8, 0xFFFF0012⟩)]

theorem test_wellformed_refuses : illFormed.map (fun p => p.2.illegal) = illFormed.map fun p => some p.1 := by rfl

theorem test_decode_refuses_ill_formed :
    illFormed.all (fun p => match encode p.2 with
      | some w => (decode w).toOption.isNone
      | none => false) = true := by rfl

/-! ## Small states -/

/-- Reset with one wave of 32 threads, its head slot at a line in memory that holds one word. -/
def stWord (w : Nat) : State := State.reset.placeWord w

/-- The same with `nop` in the line. -/
def st0 : State := stWord 0

/-- The slot at the head of `st0`. -/
def sl0 : Slot := st0.slots.headD ⟨0, 0, [], none, none, [], false⟩

/-- As `sl0`, for thread 0 alone. -/
def slOne : Slot := { sl0 with lanes := [0] }

/-- A state with `slOne` at its head. -/
def alone (s : State) : State := { s with slots := [slOne] }

/-- Registers of one lane: first register, count, value. -/
def withRegs (s : State) (l : Nat) (rs : List (Nat × Nat × W128)) : State :=
  s.modThread 0 l fun t => rs.foldl (fun t r => t.setWords r.1 r.2.1 r.2.2) t

/-- Scalar registers. -/
def withScalars (s : State) (rs : List (Nat × W32)) : State :=
  s.modWave 0 fun wv => rs.foldl (fun wv r => wv.setS r.1 r.2) wv

/-- The state that an instruction leads to. -/
def ran (i : Instr) (s : State) : State :=
  match exec i s with
  | .next t => t
  | .fault _ => s
  | .refused _ => s

/-- `Issues`, decided. -/
def issuesB (i : Instr) (s : State) (sl : Slot) : Bool :=
  decide (s.slots.head? = some sl) && i.wf && decide (sl.wave < s.waves.length) &&
    sl.lanes.all (fun l => decide (l < (s.wave sl.wave).threads.length)) &&
    (s.groupOf i sl).shape.ranges.all (s.groupOf i sl).src.inBudget && ((s.groupOf i sl).src.pendingFor i).isEmpty &&
    (s.groupOf i sl).lanes.all fun l => !s.struck (s.groupOf i sl) l

theorem issues_of {i : Instr} {s : State} {sl : Slot} (h : issuesB i s sl = true) : Issues i s sl := by
  simp only [issuesB, Bool.and_eq_true, decide_eq_true_eq, List.all_eq_true, List.isEmpty_iff, Bool.not_eq_true'] at h
  obtain ⟨⟨⟨⟨⟨⟨h1, h2⟩, h3⟩, h4⟩, h5⟩, h6⟩, h7⟩ := h
  exact ⟨h1, h2, h3, h4, by simpa only [List.all_eq_true] using h5, h6, h7⟩

theorem issues_all {l : List Instr} {s : State} {sl : Slot} (h : l.all (fun i => issuesB i s sl) = true) : ∀ i ∈ l, Issues i s sl :=
  fun i hi => issues_of (List.all_eq_true.mp h i hi)

theorem test_issues_integer : ∀ i ∈ wordsInteger.map (·.2), Issues i st0 sl0 := issues_all (by rfl)

theorem test_issues_bit : ∀ i ∈ wordsBit.map (·.2), Issues i st0 sl0 := issues_all (by rfl)

theorem test_issues_float : ∀ i ∈ wordsFloat.map (·.2), Issues i st0 sl0 := issues_all (by rfl)

theorem test_issues_function : ∀ i ∈ wordsFunction.map (·.2), Issues i st0 sl0 := issues_all (by rfl)

theorem test_issues_move_and_lane : ∀ i ∈ wordsMoveAndLane.map (·.2), Issues i st0 sl0 := issues_all (by rfl)

theorem test_issues_predicate : ∀ i ∈ wordsPredicate.map (·.2), Issues i st0 sl0 := issues_all (by rfl)

theorem test_issues_control : ∀ i ∈ wordsControl.map (·.2), Issues i st0 sl0 := issues_all (by rfl)

theorem test_issues_effect : ∀ i ∈ wordsEffect.map (·.2), Issues i st0 sl0 := issues_all (by rfl)

theorem test_issues_memory : ∀ i ∈ wordsMemory.map (·.2), Issues i st0 sl0 := issues_all (by rfl)

theorem test_issues_synchronisation : ∀ i ∈ wordsSynchronisation.map (·.2), Issues i st0 sl0 := issues_all (by rfl)

theorem test_issues_engine : ∀ i ∈ wordsEngine.map (·.2), Issues i st0 sl0 := issues_all (by rfl)

theorem test_issues_nop : Issues .nop st0 sl0 := issues_of (by rfl)

/-! ## Results that the spec's examples give, lane 0 of one step -/

/-- Register `vN` of lane 0 after an instruction that finds these registers. -/
def vAfter (i : Instr) (rs : List (Nat × Nat × W128)) (r : Nat) : W32 := ((ran i (withRegs st0 0 rs)).thread 0 0).v r

/-- As `vAfter`, for `dN`. -/
def dAfter (i : Instr) (rs : List (Nat × Nat × W128)) (r : Nat) : W64 := ((ran i (withRegs st0 0 rs)).thread 0 0).dv r

/-- The wave's flags after it. -/
def flagsAfter (i : Instr) (rs : List (Nat × Nat × W128)) : BitVec 5 := ((ran i (withRegs st0 0 rs)).wave 0).fpflags

/-- Predicate `pN` of lane 0 after it. -/
def pAfter (i : Instr) (rs : List (Nat × Nat × W128)) (r : Nat) : Bool := ((ran i (withRegs st0 0 rs)).thread 0 0).p r

theorem test_imad : vAfter (.imad ⟨Hd.plain, 1, 2, 3, 4, .s32, .rne, true, false, false, false, 0⟩) [(2, 1, 70000), (3, 1, 40000)] 1 =
    0x7FFFFFFF := by decide

theorem test_imulhi : vAfter (.imulhi ⟨Hd.plain, 1, 2, 3, 0, .u32, .rne, false, false, false, false, 0⟩)
    [(2, 1, 0x80000000), (3, 1, 0x80000000)] 1 = 0x40000000 := by decide

theorem test_iabs : vAfter (.iabs ⟨Hd.plain, 1, 2, 0, 0, .s32, .rne, false, false, false, false, 0⟩) [(2, 1, 0x80000000)] 1 =
    0x80000000 ∧
    vAfter (.iabs ⟨Hd.plain, 1, 2, 0, 0, .s32, .rne, true, false, false, false, 0⟩) [(2, 1, 0x80000000)] 1 = 0x7FFFFFFF := by decide

theorem test_ineg : vAfter (.ineg ⟨Hd.plain, 1, 2, 0, 0, .u32, .rne, false, false, false, false, 0⟩) [(2, 1, 1)] 1 = 0xFFFFFFFF := by
  decide

theorem test_irem : vAfter (.irem ⟨Hd.plain, 1, 2, 3, 0, .s32, .rne, false, false, false, false, 0⟩) [(2, 1, 0xFFFFFFF9), (3, 1, 2)] 1 =
    0xFFFFFFFF := by decide

theorem test_idiv_by_zero : vAfter (.idiv ⟨Hd.plain, 1, 2, 3, 0, .s32, .rne, false, false, false, false, 0⟩) [(2, 1, 5)] 1 =
    0xFFFFFFFF := by decide

theorem test_iaddc : vAfter (.iaddc ⟨Hd.plain, 4, 5, 6, 0, .u32, .rne, false, false, false, false, 0⟩) [(5, 1, 0xFFFFFFFF)] 4 = 0 ∧
    pAfter (.iaddc ⟨Hd.plain, 4, 5, 6, 2, .u32, .rne, false, false, false, false, 0⟩) [(5, 1, 0xFFFFFFFF), (6, 1, 1)] 2 = true := by
  decide

theorem test_lea : dAfter (.lea ⟨Hd.plain, 20, 16, 4, 5, .u64, .rne, false, false, false, false, 0⟩)
    [(16, 2, 0x4000000000030000), (4, 1, 3), (5, 1, 1)] 20 = 0x4000000000030006 := by decide

theorem test_icmp : pAfter (.icmp ⟨Hd.plain, 3, 1, 2, 0, .s32, .rne, false, false, false, false, 2⟩) [(1, 1, 0xFFFFFFFF), (2, 1, 1)] 3 =
    true ∧
    pAfter (.icmp ⟨Hd.plain, 3, 1, 2, 0, .u32, .rne, false, false, false, false, 2⟩) [(1, 1, 0xFFFFFFFF), (2, 1, 1)] 3 = false := by
  decide

theorem test_lop3 : vAfter (.lop3 ⟨Hd.plain, 1, 2, 3, 4, .b32, .rne, false, false, 0xE0⟩)
    [(2, 1, 0xFF00FF00), (3, 1, 0xF0F0F0F0), (4, 1, 0xCCCCCCCC)] 1 = 0xFC00FC00 := by decide

theorem test_sar : vAfter (.sarImm ⟨Hd.plain, 1, 2, 40, .s32, .rne, false, false, 0⟩) [(2, 1, 0x80000000)] 1 = 0xFFFFFFFF := by decide

theorem test_rot : vAfter (.rotImm ⟨Hd.plain, 1, 2, 36, .b32, .rne, false, false, 0⟩) [(2, 1, 0x80000001)] 1 = 0x18 := by decide

theorem test_bfe : vAfter (.bfe ⟨Hd.plain, 1, 2, 3, 0, .s32, .rne, false, false, false, false, 0⟩) [(2, 1, 0xF00), (3, 1, 0x408)] 1 =
    0xFFFFFFFF := by decide

theorem test_bfi : vAfter (.bfi ⟨Hd.plain, 1, 2, 3, 4, .b32, .rne, false, false, false, false, 0⟩) [(2, 1, 0xFFFFFFFF), (4, 1, 0x810)] 1 =
    0xFF00FFFF := by decide

theorem test_popc : vAfter (.popc ⟨Hd.plain, 1, 2, 0, 0, .b64, .rne, false, false, false, false, 0⟩) [(2, 2, 0x000000FF00000001)] 1 =
    9 := by decide

theorem test_clz : vAfter (.clz ⟨Hd.plain, 1, 2, 0, 0, .b32, .rne, false, false, false, false, 0⟩) [(2, 1, 0x10000)] 1 = 15 := by decide

theorem test_fadd : vAfter (.fadd ⟨Hd.plain, 1, 2, 3, 0, .f32, .rne, false, false, false, false, 0⟩)
    [(2, 1, 0x3F800000), (3, 1, 0x33800000)] 1 = 0x3F800000 ∧
    flagsAfter (.fadd ⟨Hd.plain, 1, 2, 3, 0, .f32, .rne, false, false, false, false, 0⟩) [(2, 1, 0x3F800000), (3, 1, 0x33800000)] =
      0x10 ∧
    vAfter (.fadd ⟨Hd.plain, 1, 2, 3, 0, .f32, .rup, false, false, false, false, 0⟩) [(2, 1, 0x3F800000), (3, 1, 0x33800000)] 1 =
      0x3F800001 := by decide

theorem test_fsub : dAfter (.fsub ⟨Hd.plain, 2, 4, 4, 0, .f64, .rdn, false, false, false, false, 0⟩) [(4, 2, 0x3FF0000000000000)] 2 =
    0x8000000000000000 := by decide

theorem test_ffma : vAfter (.ffma ⟨Hd.plain, 1, 2, 3, 4, .f32, .rne, false, false, false, false, 0⟩)
    [(2, 1, 0x3F800001), (3, 1, 0x3F800001), (4, 1, 0xBF800002)] 1 = 0x28800000 := by decide

theorem test_fmin_fmax : vAfter (.fmin ⟨Hd.plain, 1, 2, 3, 0, .f32, .rne, false, false, false, false, 0⟩)
    [(2, 1, 0x7FC00000), (3, 1, 0x40000000)] 1 = 0x40000000 ∧
    vAfter (.fmax ⟨Hd.plain, 1, 2, 3, 0, .f16x2, .rne, false, false, false, false, 0⟩) [(2, 1, 0x80003C00), (3, 1, 0x4000)] 1 =
      0x4000 := by decide

theorem test_fneg : vAfter (.fneg ⟨Hd.plain, 1, 2, 0, 0, .f16, .rne, false, false, false, false, 0⟩) [(2, 1, 0x3C00)] 1 = 0xBC00 := by
  decide

theorem test_fscale : vAfter (.fscale ⟨Hd.plain, 1, 2, 3, 0, .f32, .rne, false, false, false, false, 0⟩)
    [(2, 1, 0x3FC00000), (3, 1, 0xFFFFFF7E)] 1 = 0xC0000 := by decide

theorem test_frnd : vAfter (.frnd ⟨Hd.plain, 1, 2, 0, 0, .f32, .rna, false, false, false, false, 0⟩) [(2, 1, 0x40200000)] 1 =
    0x40400000 ∧
    vAfter (.frnd ⟨Hd.plain, 1, 2, 0, 0, .f32, .rne, false, false, false, false, 0⟩) [(2, 1, 0x40200000)] 1 = 0x40000000 := by decide

theorem test_fcmp : pAfter (.fcmp ⟨Hd.plain, 2, 1, 3, 0, .f32, .rne, false, false, false, false, 2⟩) [(1, 1, 0x7FC00000)] 2 = false ∧
    flagsAfter (.fcmp ⟨Hd.plain, 2, 1, 3, 0, .f32, .rne, false, false, false, false, 2⟩) [(1, 1, 0x7FC00000)] = 1 := by decide

theorem test_fclass : vAfter (.fclass ⟨Hd.plain, 1, 2, 0, 0, .f64, .rne, false, false, false, false, 0⟩) [(2, 2, 0x8000000000000001)] 1 =
    0x10 := by decide

theorem test_fdiv : vAfter (.fdiv ⟨Hd.plain, 1, 2, 3, 0, .f32, .rne, false, false, false, false, 0⟩) [(2, 1, 0x3F800000)] 1 =
    0x7F800000 := by decide

theorem test_fsqrt : dAfter (.fsqrt ⟨Hd.plain, 2, 4, 0, 0, .f64, .rne, false, false, false, false, 0⟩) [(4, 2, 0x4000000000000000)] 2 =
    0x3FF6A09E667F3BCD := by decide

theorem test_frcp : vAfter (.frcp ⟨Hd.plain, 1, 2, 0, 0, .f32, .rne, false, false, false, false, 0⟩) [(2, 1, 0x40800000)] 1 =
    0x3E800000 := by decide

theorem test_flg2 : dAfter (.flg2 ⟨Hd.plain, 2, 4, 0, 0, .f64, .rne, false, false, false, false, 0⟩) [(4, 2, 0x8000000000000000)] 2 =
    0xFFF0000000000000 := by decide

theorem test_cvt : vAfter (.cvt ⟨Hd.plain, 1, 2, 0, 0, .s32, .rtz, false, false, false, false, 0xB⟩) [(2, 1, 0xC0300000)] 1 =
    0xFFFFFFFE ∧
    vAfter (.cvt ⟨Hd.plain, 1, 2, 0, 0, .f32, .rne, false, false, false, false, 8⟩) [(2, 2, 0x20000000000001)] 1 = 0x5A000000 := by
  decide

theorem test_cvt_d8 : vAfter (.cvt ⟨Hd.plain, 1, 2, 0, 0, .d8, .rne, false, false, false, false, 0xB⟩) [(2, 1, 0x3F000000)] 1 =
    9 := by decide

/-! ## States that meet the hypotheses of the statements about memory -/

/-- A tensor of 1,000 words from physical address 0x1000, with or without block scales from its byte 2,048. -/
def tensorOf (fmt blk : Nat) : BitVec 512 :=
  BitVec.ofNat 512 (fmt * 2 ^ 56 + 1 * 2 ^ 53 + blk * 2 ^ 48 + 0x10 * 2 ^ 64 + 2048 * 2 ^ 192 + 1000 * 2 ^ 256)

/-- Thread 0 alone, with tensor 0 in the context's table: `d16` is the tensor's window, `d18` its byte 72, `d20` a place in the
thread's private space; `d12` and `v7` hold values. -/
def stMem (fmt blk : Nat) : State :=
  alone ((withRegs st0 0 [(16, 2, 0x3F00000000000000), (18, 2, 0x3F00000000000048), (20, 2, 0x7000000000000040), (12, 2, 5), (7, 1, 9)]).setTensor
    probeCtx 0 (tensorOf fmt blk))

/-- The same for words. -/
def stW : State := stMem 9 0

/-- `s` with the page at offset `o` of a lane's private space at physical address 0x30000, its tables at 0x4000. -/
def withSpace (s : State) (l o : Nat) : State :=
  let va := (s.thread 0 l).pbase + o
  let put (m : List Host.Cell) (table shift n e : Nat) : List Host.Cell := Memory.write m (table + 8 * (va / 2 ^ shift % n)) (toBytes (2 ^ 63 + e) 8)
  let s := s.modWorld 0 fun w => { w with grants := (0x30000, 65536) :: w.grants }
  let s := s.modCtx probeCtx fun c => { c with roots := [0x4000] }
  let m := put (put (put s.mem 0x4000 47 8192 0x5000) 0x5000 36 2048 0x6000) 0x6000 25 2048 0xA000
  { s with mem := put m 0xA000 16 512 (3 * 2 ^ 60 + 0x30000) }

/-- What an access of lane 0 at device scope reaches in the issued state. -/
def reached (s : State) (i : Instr) (va n al acc : Nat) (m : Mode) : Acc :=
  let g := s.groupOf i slOne
  let s1 := s.issued g
  s1.reach (s1.whoFor g 0 acc .dev) va n al m

/-- The instruction issues for lane 0 alone, and its access passes. -/
def Meets (s : State) (i : Instr) (va n al acc : Nat) (m : Mode) : Prop :=
  Issues i s slOne ∧ (s.groupOf i slOne).actors = [0] ∧ ∃ ps pad, reached s i va n al acc m = .ok ps pad

theorem test_meets_ld : let i := Instr.ld ⟨Hd.plain, 4, 16, 0, 0, 8, .b32, .none, .dev, .rlx⟩
    (stW.groupOf i slOne).addr 8 0 = 0x3F00000000000008 ∧ Meets stW i 0x3F00000000000008 4 4 0 .read :=
  ⟨by rfl, issues_of (by rfl), by rfl, _, _, by rfl⟩

/-- A load at the last byte of the private space that exists. -/
theorem test_meets_ld_private : let i := Instr.ld ⟨Hd.plain, 4, 20, 0, 0, 0, .b8, .none, .dev, .rlx⟩
    let s := withSpace (alone (withRegs st0 0 [(20, 2, 0x7000000003FFFFFF)])) 0 0x3FF0000
    (s.groupOf i slOne).addr 0 0 = 0x7000000003FFFFFF ∧ Meets s i 0x7000000003FFFFFF 1 1 0 .read :=
  ⟨by rfl, issues_of (by rfl), by rfl, [(262143, 1)], none, by decide⟩

theorem test_meets_ldp : let i := Instr.ldp ⟨Hd.plain, 4, 16, 0, 0, 0, .b128, .none, .dev, .rlx⟩
    let g := stW.groupOf i slOne
    let s1 := stW.issued g
    Meets stW i 0x3F00000000000000 16 16 0 .read ∧ g.replay.bind (·.slot) = none ∧ ∃ ps pad, reached stW i 0x3F00000000000000 16 16 0 .read = .ok ps pad ∧
      (s1.count ps).swizzle ((s1.count ps).who g.w 0 0) (BitVec.ofNat 128 (ofBytes (s1.load ps pad))) = .ok 0 :=
  ⟨⟨issues_of (by rfl), by rfl, _, _, by rfl⟩, by rfl, _, _, by rfl, by rfl⟩

/-- A lane that waited for the record of a name that it had read. -/
theorem test_meets_ldp_again : let i := Instr.ldp ⟨Hd.plain, 4, 16, 0, 0, 0, .b128, .none, .dev, .rlx⟩
    let sl : Slot := { slOne with replay := some ⟨probeRec.base, 0, ⟨0, 0, 0⟩, true, false, none, true, some 0, none, 0⟩ }
    let s : State := { stW with slots := [sl] }
    let g := s.groupOf i sl
    Issues i s sl ∧ g.actors = [0] ∧ g.replay.bind (·.slot) = some 0 ∧ (s.issued g).swizzle ((s.issued g).who g.w 0 0) 0 = .ok 0 :=
  ⟨issues_of (by rfl), by rfl, by rfl, by rfl⟩

theorem test_meets_nameof : let i := Instr.nameof ⟨Hd.plain, 8, 16, 0, 0, .b128, .rne, false, false, false, false, 0⟩
    let s := alone (withRegs st0 0 [(16, 2, 0x5000000000010004)])
    let g := s.groupOf i slOne
    Issues i s slOne ∧ g.actors = [0] ∧ ∃ n, (s.issued g).unswizzle g.src.ctx (lo64 (g.a 0)) = some n :=
  ⟨issues_of (by rfl), by rfl, _, by rfl⟩

theorem test_meets_ldt : let i := Instr.ldt ⟨Hd.plain, 4, 22, 24, 7, 0, .b32, .none, .dev, .rlx⟩
    let s := stW
    let g := s.groupOf i slOne
    let s1 := s.issued g
    Issues i s slOne ∧ g.actors = [0] ∧ s1.ldtEntry (s1.who g.w 0 0) (lo64 (g.a 0)) 4 (g.indices 0) = .ok (tensorOf 9 0) ∧
      (∃ ps pad, s1.tensorAccess (s1.whoFor g 0 0 .dev) 0 (tensorOf 9 0) (4 * tElement (tensorOf 9 0) (g.indices 0)) 4 .read = .ok ps pad) ∧
      tBlk (tensorOf 9 0) ≠ 1 :=
  ⟨issues_of (by rfl), by rfl, by rfl, ⟨_, _, by rfl⟩, by decide⟩

theorem test_meets_ldt_scaled : let i := Instr.ldt ⟨Hd.plain, 4, 22, 24, 9, 0, .b8, .none, .dev, .rlx⟩
    let s := stMem 1 1
    let e := tensorOf 1 1
    let g := s.groupOf i slOne
    let s1 := s.issued g
    Issues i s slOne ∧ g.actors = [0] ∧ s1.ldtEntry (s1.who g.w 0 0) (lo64 (g.a 0)) 1 (g.indices 0) = .ok e ∧ tBlk e = 1 ∧
      ∃ ps pad ps' pad', s1.tensorAccess (s1.whoFor g 0 0 .dev) 0 e (1 * tElement e (g.indices 0)) 1 .read = .ok ps pad ∧
        (s1.count ps).tensorAccess ((s1.count ps).whoFor g 0 0 .dev) 0 e (tScale e (g.indices 0)) 1 .read = .ok ps' pad' :=
  ⟨issues_of (by rfl), by rfl, by rfl, by decide, _, _, _, _, by rfl, by rfl⟩

theorem test_meets_st : Meets stW (.st ⟨Hd.plain, 0, 16, 7, 0, 4, .b32, .none, .dev, .rlx⟩) 0x3F00000000000004 4 4 1 .write :=
  ⟨issues_of (by rfl), by rfl, _, _, by rfl⟩

theorem test_meets_stp : let i := Instr.stp ⟨Hd.plain, 0, 16, 12, 0, 0, .b128, .none, .dev, .rlx⟩
    let g := stW.groupOf i slOne
    Meets stW i 0x3F00000000000000 16 16 1 .write ∧ (stW.issued g).unswizzle g.src.ctx (lo64 (g.b 0)) = some 5 :=
  ⟨⟨issues_of (by rfl), by rfl, _, _, by rfl⟩, by rfl⟩

theorem test_meets_cctl_zero : Meets stW (.cctl ⟨Hd.plain, 0, 16, 0, 0, 3, 0, .b32, .none, .dev, .rlx⟩) 0x3F00000000000000 64 64 1
    .write :=
  ⟨issues_of (by rfl), by rfl, _, _, by rfl⟩

theorem test_meets_cctl_other : Issues (.cctl ⟨Hd.plain, 0, 16, 0, 0, 2, 0, .b32, .none, .dev, .rlx⟩) stW slOne ∧
    (2 : BitVec 6) ≠ 3 := ⟨issues_of (by rfl), by decide⟩

theorem test_meets_atom : Meets stW (.atom ⟨Hd.plain, 4, 16, 7, 0, 8, 0, .u32, .none, .dev, .acqrel⟩) 0x3F00000000000000 4 4 3 .rmw :=
  ⟨issues_of (by rfl), by rfl, _, _, by rfl⟩

theorem test_meets_red : Meets stW (.red ⟨Hd.plain, 0, 16, 12, 0, 1, 0, .u64, .none, .dev, .rel⟩) 0x3F00000000000000 8 8 3 .rmw :=
  ⟨issues_of (by rfl), by rfl, _, _, by rfl⟩

theorem test_meets_atomc : Meets stW (.atomc ⟨Hd.plain, 4, 16, 12, 14, 0, .b64, .none, .dev, .acqrel⟩) 0x3F00000000000000 8 8 3 .rmw :=
  ⟨issues_of (by rfl), by rfl, _, _, by rfl⟩

/-- Operands at which the clauses about `inc` and `dec` (R187) meet: equal, zero, and one apart. -/
theorem test_meets_atom_table : Ty.isInt .u32 = true ∧ lowNat 5 32 ≤ lowNat 5 32 ∧ lowNat 4 32 < lowNat 5 32 ∧ lowNat 0 32 = 0 ∧
    lowNat 5 32 < lowNat 6 32 ∧ lowNat 5 32 ≠ 0 := by decide

theorem test_meets_rstf : let i := Instr.rstf ⟨Hd.plain, 0, 16, 7, 18, 4, .b32, .none, .dev, .rel⟩
    let g := stW.groupOf i slOne
    let s1 := stW.issued g
    let who := s1.whoFor g 0 1 .dev
    let home (va : Nat) : Nat × Nat × Nat := s1.homeOf ((s1.physOf who va).getD 0)
    Meets stW i 0x3F00000000000004 4 4 1 .write ∧ (lo64 (g.c 0)).toNat = 0x3F00000000000048 ∧
      (∃ ps pad, s1.reach { who with acc := 3, late := who.late && (g.replay.bind (·.slot)).isSome } 0x3F00000000000048 8 8 .rmw = .ok ps pad) ∧ 0x3F00000000000048 < 4 * 2 ^ 60 ∧
      (home 0x3F00000000000004).1 = (home 0x3F00000000000048).1 ∧ (home 0x3F00000000000004).2.1 = (home 0x3F00000000000048).2.1 :=
  ⟨⟨issues_of (by rfl), by rfl, _, _, by rfl⟩, by rfl, ⟨_, _, by rfl⟩, by decide, by decide, by decide⟩

/-- An accumulator of 288 bytes in the tensor, for `exadd`, `exclr` and `exrnd`. -/
theorem test_meets_accumulator : ∀ p ∈ ([
    (.exadd ⟨Hd.plain, 0, 16, 12, 0, 0, .f64, .none, .dev, .rlx⟩, .rmw),
    (.exclr ⟨Hd.plain, 0, 16, 0, 0, 0, .b32, .none, .fabric, .rlx⟩, .write),
    (.exrnd ⟨Hd.plain, 12, 16, 0, 0, 4, 0, .f64, .none, .dev, .acq⟩, .read)] : List (Instr × Mode)),
    let g := stW.groupOf p.1 slOne
    Issues p.1 stW slOne ∧ g.actors = [0] ∧ ∃ ps pad, (stW.issued g).xaReach g 0 0x3F00000000000000 p.2 = .ok ps pad := by
  intro p hp
  simp only [List.mem_cons, List.not_mem_nil, or_false] at hp
  obtain rfl | rfl | rfl := hp <;> exact ⟨issues_of (by rfl), by rfl, _, _, by rfl⟩

/-- The group of a load for lane 0, its destination a pair at the top of the file. -/
theorem test_meets_lane_result : let g := stW.groupOf (.ld ⟨Hd.plain, 1022, 16, 0, 0, 0, .b64, .none, .dev, .rlx⟩) slOne
    g.w < stW.waves.length ∧ 0 < (stW.wave g.w).threads.length ∧ g.shape.d.legal = true ∧ g.shape.d.names .vec 1021 = false := by decide

theorem test_meets_in_turn :
    (let i := Instr.ld ⟨Hd.plain, 4, 16, 0, 0, 8, .b32, .none, .dev, .rlx⟩
     let g := stW.groupOf i slOne
     Issues i stW slOne ∧ (inTurn (fun s l => s.readFor g l (g.addr 8 l) 4 .b32 .dev .rlx fun s bs => (s.give g l (ofBytes bs), .done))
       g.actors (stW.issued g)).isSome = true) ∧
    (let i := Instr.st ⟨Hd.plain, 0, 16, 7, 0, 4, .b32, .none, .dev, .rlx⟩
     let g := stW.groupOf i slOne
     Issues i stW slOne ∧ (inTurn (fun s l => s.writeFor g l (g.addr 4 l) 4 .b32 .dev .rlx (toBytes (g.b l).toNat 4))
       g.actors (stW.issued g)).isSome = true) :=
  ⟨⟨issues_of (by rfl), by rfl⟩, issues_of (by rfl), by rfl⟩

/-! ## States that meet the hypotheses of the statements about control, effects and traps -/

/-- The slot PC of `st0`. -/
def pc0 : W64 := 0x5000000000010000

/-- `st0` with every slot of its line a target, and the PC of slot 1 in `d10` of every lane. -/
def stTgt : State :=
  let s : State := { st0 with mem := Memory.write st0.mem 60 [0x1F] }
  s.modWave 0 fun wv => wv.modLanes (List.range 32) fun _ t => t.setWords 10 2 0x500000000001000C

/-- Handlers at slot 2 for every name, in lane 0, whose private space is mapped. -/
def stHandler : State := withSpace (alone (stTgt.modThread 0 0 fun t => { t with frames := [⟨1, 0x5000000000010018, 0, 0⟩] })) 0 0

/-- The state after lane 0 has performed the name 5 with `v8` as its payload: its token is in `d10`. -/
def stToken : State := alone (ran (.perf ⟨Hd.plain, 8, 0, false, 12, 5⟩) stHandler)

def v (m : VForm → Instr) (d a b c : BitVec 10) (ty : Ty) : Instr := m ⟨Hd.plain, d, a, b, c, ty, .rne, false, false, false, false, 0⟩

theorem test_meets_transfers :
    (let i := Instr.bra ⟨Hd.plain, 0, 4⟩
     let g := stTgt.groupOf i sl0
     Issues i stTgt sl0 ∧ ∀ l ∈ g.lanes, (stTgt.issued g).entryCheck g.src.ctx (relPc g.pc 4) = .ok) ∧
    (let i := Instr.call ⟨Hd.plain, 30, 0⟩
     let g := stTgt.groupOf i sl0
     Issues i stTgt sl0 ∧ ∀ l ∈ g.lanes, (stTgt.issued g).entryCheck g.src.ctx (relPc g.pc 0) = .ok) ∧
    ∀ i ∈ [v .brx 0 10 0 0 .b32, v .callx 30 10 0 0 .b32, v .ret 0 10 0 0 .b32],
      let g := stTgt.groupOf i sl0
      Issues i stTgt sl0 ∧ ∀ l ∈ g.lanes, (stTgt.issued g).entryCheck g.src.ctx (lo64 (g.a l)) = .ok := by
  refine ⟨⟨issues_of (by rfl), by decide⟩, ⟨issues_of (by rfl), by decide⟩, ?_⟩
  intro i hi
  simp only [List.mem_cons, List.not_mem_nil, or_false] at hi
  obtain rfl | rfl | rfl := hi <;> exact ⟨issues_of (by rfl), by decide⟩

/-- `st0` for lane 0, with another code object beyond the first one, and a PC in `d10`. -/
def stCode (st : RecState) (pc : W64) : State :=
  alone ((withRegs st0 0 [(10, 2, ext64 pc)]).modCtx probeCtx fun c =>
    { c with recs := c.recs ++ [{ probeRec with obj := 7, base := 0x5000000000020000, state := st }] })

/-- Each of the five transfers at a slot that is no target, outside every object, and at an unbound and a binding object. -/
theorem test_meets_bad_transfers : ∀ x ∈ [(RecState.bound, (0x5000000000010000 : W64), (0 : BitVec 30), Entry.clear), (.bound, 0x5000000000010040, 5, .gap),
      (.unbound, 0x5000000000020000, 5120, .unbound 7), (.binding, 0x5000000000020000, 5120, .binding 7)],
    ∀ i ∈ [Instr.bra ⟨Hd.plain, 0, x.2.2.1⟩, .call ⟨Hd.plain, 30, x.2.2.1⟩, v .brx 0 10 0 0 .b32, v .callx 30 10 0 0 .b32, v .ret 0 10 0 0 .b32],
      let s := stCode x.1 x.2.1
      let g := s.groupOf i slOne
      Issues i s slOne ∧ g.lanes = [0] ∧ transferTo i g 0 = some x.2.1 ∧ (s.issued g).entryCheck g.src.ctx x.2.1 = x.2.2.2 := by
  intro x hx i hi
  simp only [List.mem_cons, List.not_mem_nil, or_false] at hx
  obtain rfl | rfl | rfl | rfl := hx <;> simp only [List.mem_cons, List.not_mem_nil, or_false] at hi <;>
    obtain rfl | rfl | rfl | rfl | rfl := hi <;> exact ⟨issues_of (by rfl), by rfl, by decide, by rfl⟩

theorem test_meets_join_yield_exit :
    (Issues (v .join 0 12 0 0 .b32) st0 sl0 ∧ Ty.b32 = widthTy (st0.groupOf (v .join 0 12 0 0 .b32) sl0).src.width) ∧
    (Issues (v .yield 0 0 0 0 .b32) st0 sl0 ∧ (st0.groupOf (v .yield 0 0 0 0 .b32) sl0).lanes ≠ []) ∧
    (let g := st0.groupOf (v .exit 0 0 0 0 .b32) sl0
     Issues (v .exit 0 0 0 0 .b32) st0 sl0 ∧
      ∀ c ∈ (st0.issued g).waveCmds g.w, c.state ≠ .failed ∧ c.state ≠ .accepted ∧ c.state ≠ .issued) ∧
    (31 < (st0.wave 0).threads.length ∧ 31 ∈ [31] ∧ 30 ∉ [31]) :=
  ⟨⟨issues_of (by rfl), by rfl⟩, ⟨issues_of (by rfl), by decide⟩, ⟨issues_of (by rfl), by decide⟩, by decide⟩

/-- Fifteen frames on the stack of every lane: one more goes to memory. -/
def stDeep : State := withSpace (alone <| st0.modWave 0 fun wv => wv.modLanes (List.range 32) fun _ t => { t with frames := List.replicate 15 ⟨1, pc0, 0, 0⟩ }) 0 0

theorem test_meets_hpush :
    (let i := Instr.hpush ⟨Hd.plain, 3, 2, 0xFFFF0008⟩
     let g := st0.groupOf i sl0
     Issues i st0 sl0 ∧ (relPc g.pc 2).toNat / 2 ^ 60 = 5 ∧ g.lanes.Nodup ∧
       ∀ l ∈ g.lanes, ((st0.issued g).thread g.w l).frames.length < 15) ∧
    (let i := Instr.hpush ⟨Hd.plain, 3, 2, 0xFFFF0008⟩
     let g := stDeep.groupOf i slOne
     Issues i stDeep slOne ∧ (relPc g.pc 2).toNat / 2 ^ 60 = 5 ∧ g.lanes = [0] ∧
       ((stDeep.issued g).push g.w 0 (relPc g.pc 2) (g.src.sreg 3) 0xFFFF0008).isSome = true) ∧
    (let i := Instr.hpush ⟨Hd.plain, 3, 0x20000000, 0xFFFF0008⟩
     Issues i st0 sl0 ∧ (relPc (st0.groupOf i sl0).pc 0x20000000).toNat / 2 ^ 60 ≠ 5) :=
  ⟨⟨issues_of (by rfl), by decide, by decide, by decide⟩, ⟨issues_of (by rfl), by decide, by rfl, by rfl⟩,
    issues_of (by rfl), by decide⟩

/-- A return record of frame 1, to slot 1 with `v0` as it was saved, and one to a slot that is no target. -/
def ret1 : RetRec := ⟨1, [.general 7], 3, 0x500000000001000C, 12⟩
def retBad : RetRec := ⟨1, [], 3, 0x5000000000010001, 12⟩

/-- `stHandler` with a return record, and an identity in `v14` for `hpop.b128`. -/
def stReturn (r : RetRec) (fid : Nat) : State :=
  alone (withRegs (stHandler.modThread 0 0 fun t => { t with rets := [r] }) 0 [(14, 1, BitVec.ofNat 128 fid)])

theorem test_meets_hpop :
    (∀ p ∈ [(v .hpop 0 12 0 0 .b64, stHandler, (1 : W32)), (v .hpop 0 12 0 0 .b128, stReturn ret1 9, 9)],
      let g := p.2.1.groupOf p.1 slOne
      Issues p.1 p.2.1 slOne ∧ ∀ l ∈ g.lanes, (((p.2.1.issued g).thread g.w l).frames.head?.map (·.fid) = some 1) ∧
        (p.2.2 = 1 ∨ word32 (g.a l) 2 = p.2.2) ∧ ∀ r ∈ ((p.2.1.issued g).thread g.w l).rets, r.fid ≠ p.2.2) ∧
    (let i := v .hpop 0 12 0 0 .b64
     let g := st0.groupOf i sl0
     Issues i st0 sl0 ∧ ∀ l ∈ g.lanes, ((st0.issued g).thread g.w l).frames = []) ∧
    (∀ p ∈ [(v .hpop 0 12 0 0 .b64, ret1, Entry.ok), (v .hpop 0 12 0 0 .b64, retBad, .clear), (v .hpop 0 12 0 0 .b128, ret1, .ok)],
      let s := stReturn p.2.1 1
      let g := s.groupOf p.1 slOne
      let t0 := (s.issued g).thread g.w 0
      Issues p.1 s slOne ∧ g.lanes = [0] ∧ t0.frames.head?.map (·.fid) = some 1 ∧ t0.rets.find? (fun r => r.fid == 1) = some p.2.1 ∧
        p.2.1.dreg < 1023 ∧ (s.issued g).entryCheck g.src.ctx p.2.1.pc = p.2.2) := by
  refine ⟨?_, ⟨issues_of (by rfl), by decide⟩, ?_⟩ <;> intro p hp <;> simp only [List.mem_cons, List.not_mem_nil, or_false] at hp
  · obtain rfl | rfl := hp <;> exact ⟨issues_of (by rfl), by decide⟩
  · obtain rfl | rfl | rfl := hp <;> exact ⟨issues_of (by rfl), by rfl, by rfl, by rfl, by decide, by rfl⟩

/-- The items that `perf` delivers in lane 0. -/
def performed (s : State) (i : Instr) (name : W32) (pay k : Nat) : List (Nat × Effect) :=
  let g := s.groupOf i slOne
  g.lanes.map fun l => (l, { name := name, kind := kindOf name, pb := pay, k := k, cont := ((s.issued g).thread g.w l).pc, redo := [],
                             forced := false, src := g.pc })

theorem test_meets_perf :
    (let i := Instr.perf ⟨Hd.plain, 8, 0, false, 12, 5⟩
     let g := stHandler.groupOf i slOne
     Issues i stHandler slOne ∧ (false && badName (perfName ⟨Hd.plain, 8, 0, false, 12, 5⟩ g)) = false ∧
      (∀ x ∈ performed stHandler i 5 8 12, ((stHandler.issued g).handlerEntry g.w x.1 x.2).binds = false) ∧
      ((stHandler.issued g).deliverAll g.w 8 (performed stHandler i 5 8 12)).2 = []) ∧
    (let i := Instr.perf ⟨Hd.plain, 8, 3, true, 12, 0⟩
     let s := withScalars st0 [(3, 0xFFFF0012)]
     Issues i s sl0 ∧ badName (perfName ⟨Hd.plain, 8, 3, true, 12, 0⟩ (s.groupOf i sl0)) = true) :=
  ⟨⟨issues_of (by rfl), by decide, by decide, by rfl⟩, issues_of (by rfl), by rfl⟩

/-- An effect of lane 0, for the clauses of R156. -/
def effect5 : Effect := { name := 5, kind := 0, pb := 8, k := 12, cont := 0x500000000001000C, redo := [], forced := false, src := pc0 }

theorem test_meets_effects :
    (0 < stHandler.waves.length ∧ 0 < (stHandler.wave 0).threads.length ∧ stHandler.handler 0 0 effect5 = (some 0, false) ∧
      (stHandler.deliver (stHandler.wave 0) 0 0 effect5).isSome = true) ∧
    (let s := withSpace st0 31 0
     s.handler 0 31 effect5 = (none, false) ∧ 31 < (s.wave 0).threads.length ∧ (s.deliver (s.wave 0) 0 31 effect5).isSome = true) := by decide

theorem test_meets_resumptions : ∀ i ∈ [v .resumet 0 10 0 0 .b32, v .resumec 20 10 0 0 .b32, v .resumek 20 10 0 0 .b32],
    let g := stToken.groupOf i slOne
    let s1 := stToken.issued g
    Issues i stToken slOne ∧ g.lanes = [0] ∧ s1.tokenAway g.w 0 (lo64 (g.a 0)) = none ∧ ∃ p r, s1.checkToken g.w 0 (lo64 (g.a 0)) = .ok (p, r) ∧
      s1.resumeOk g.src.ctx (tokKind (lo64 (g.a 0))) r = true ∧
      ((s1.thread g.w 0).claimUnder r.frames.length).isSome = true ∧
      (((s1.thread g.w 0).addRet ((s1.wave g.w).returnRecord 0 r 20)).bind fun t => t.claimUnder r.frames.length).isSome = true ∧
      tokKind (lo64 (g.a 0)) ≠ 1 := by
  intro i hi
  simp only [List.mem_cons, List.not_mem_nil, or_false] at hi
  obtain rfl | rfl | rfl := hi <;> exact ⟨issues_of (by rfl), by rfl, by rfl, _, _, by rfl, by rfl, by rfl, by rfl, by decide⟩

theorem test_meets_tokens :
    (let i := v .resumet 0 12 0 0 .b32
     let g := stToken.groupOf i slOne
     Issues i stToken slOne ∧ g.lanes = [0] ∧ (stToken.issued g).tokenAway g.w 0 (lo64 (g.a 0)) = none ∧
       (stToken.issued g).tokenRecord g.w 0 (lo64 (g.a 0)) = none) ∧
    (let i := v .resumek 20 12 0 0 .b32
     let s := alone (withRegs stToken 0 [(12, 2, 0x0000400000000100)])
     let g := s.groupOf i slOne
     Issues i s slOne ∧ g.lanes = [0] ∧ (s.issued g).tokenAway g.w 0 (lo64 (g.a 0)) = none ∧ tokKind (lo64 (g.a 0)) = 1) ∧
    ∀ i ∈ [v .dropt 0 10 0 0 .b32, v .tinfo 20 10 0 0 .b32],
      let g := stToken.groupOf i slOne
      Issues i stToken slOne ∧ g.lanes = [0] ∧ (stToken.issued g).tokenAway g.w 0 (lo64 (g.a 0)) = none ∧ ∃ p r, (stToken.issued g).checkToken g.w 0 (lo64 (g.a 0)) = .ok (p, r) := by
  refine ⟨⟨issues_of (by rfl), by rfl, by rfl, by rfl⟩, ⟨issues_of (by rfl), by rfl, by rfl, by rfl⟩, ?_⟩
  intro i hi
  simp only [List.mem_cons, List.not_mem_nil, or_false] at hi
  obtain rfl | rfl := hi <;> exact ⟨issues_of (by rfl), by rfl, by rfl, _, _, by rfl⟩

theorem test_meets_trap : Issues (.trap ⟨Hd.plain, 0, 0, 0, 0, 0xFFFF0011⟩) st0 sl0 ∧ TrapKind.ofCode 0xFFFF0011 = some .poison ∧
    (st0.groupOf (.trap ⟨Hd.plain, 0, 0, 0, 0, 0xFFFF0011⟩) sl0).lanes ≠ [] := ⟨issues_of (by rfl), by decide, by decide⟩

theorem test_meets_trap_delivery :
    let s := ran (.trap ⟨Hd.plain, 0, 0, 0, 0, 0xFFFF0011⟩) stHandler
    let items (e : TrapEntry) : List (Nat × Effect) := e.lanes.map fun x =>
      (x.lane, { name := e.kind.code, kind := 1, pb := 0, k := (s.wave 0).vBudget, cont := x.cont, redo := x.redo, forced := false
                 src := e.pc })
    ∃ e, (s.wave 0).nextEntry = some e ∧
      ((items e).all fun x => (s.thread 0 x.1).wait == .trapped && !(s.handlerEntry 0 x.1 x.2).binds) = true ∧
      (s.deliverAll 0 0 (items e)).2 = [] :=
  ⟨_, by rfl, by rfl, by rfl⟩

theorem test_meets_ballot_illegal : Issues (v .ballot 8 13 0 0 .b64) st0 sl0 ∧
    Ty.b64 ≠ widthTy (st0.groupOf (v .ballot 8 13 0 0 .b64) sl0).src.width := ⟨issues_of (by rfl), by decide⟩

/-! ## States that meet the hypotheses of the statements about barriers, buffers and engines -/

/-- One team with four banks of scratchpad on tile 0, and tensor 0 of the context. -/
def stEng (fmt blk : Nat) : State :=
  let s := st0.setTensor probeCtx 0 (tensorOf fmt blk)
  { s with
    launches := s.launches.map fun l => { l with header := { l.header with scratch := 65536 } }
    ctxs := s.ctxs.map fun c => { c with scratch := [(0, BitVec.ofNat 64 (2 ^ 63 + 4 * 2 ^ 56))] }
    tiles := modifyAt s.tiles 0 fun t => { t with bown0 := 0, bown1 := 0 } }

/-- The same with scalar registers: descriptors in `sd4`, `sd6`, `sd8`, origins from `s16`, extents from `s24`. -/
def stCpy : State := withScalars (stEng 9 0) [(24, 4), (25, 1), (26, 1), (27, 1), (28, 1)]

def cpyForm : EForm := ⟨Hd.plain, 0, 4, 16, 24, 0, 0⟩

theorem test_meets_copies : ∀ p ∈ [(Instr.cpy cpyForm, CmdKind.cpy), (.cpym cpyForm, .cpym), (.cpyw cpyForm, .cpyw)],
    let g := stCpy.groupOf p.1 sl0
    let s1 := stCpy.issued g
    Issues p.1 stCpy sl0 ∧ g.lanes ≠ [] ∧ g.again = none ∧ cpyForm.barLevel = 0 ∧ s1.partialFor g false = false ∧
      s1.blockAway g cpyForm p.2 none = none ∧ s1.copyCheck g.w cpyForm p.2 (g.copyOps cpyForm) none none = .done ∧ g.src.tile < s1.tiles.length ∧
      s1.cmd? g.src.tile ((s1.tile g.src.tile).nextCmd * 192 + g.src.tile) = none := by
  intro p hp
  simp only [List.mem_cons, List.not_mem_nil, or_false] at hp
  obtain rfl | rfl | rfl := hp <;> exact ⟨issues_of (by rfl), by decide, by rfl, by rfl, by rfl, by rfl, by rfl, by decide, by rfl⟩

/-- A copy that credits a barrier names a level its header has. -/
theorem test_meets_copy_barrier : let f : EForm := ⟨Hd.plain, 0, 4, 16, 24, 0, 0x20⟩
    f.barLevel ≠ 0 ∧ (stCpy.groupOf (.cpy f) sl0).omitted f.barLevel = false := by decide

def mmaForm (hold : Bool) : EForm := ⟨Hd.plain, 64, 4, 6, 0, 0, if hold then 0x399 else 0x199⟩

theorem test_meets_matrix : ∀ p ∈ [(Instr.mma (mmaForm false), CmdKind.mma, mmaForm false), (.mma (mmaForm true), .mma, mmaForm true),
      (.mmasp (mmaForm true), .mmasp, mmaForm true)],
    let s := stEng 9 0
    let g := s.groupOf p.1 sl0
    let s1 := s.issued g
    Issues p.1 s sl0 ∧ g.lanes ≠ [] ∧ g.again = none ∧ s1.partialFor g true = false ∧
      s1.matrixCheck (s1.engineWho g.w 6 5) (matrixRows p.2.2 (p.2.1 == .mmasp) g.src.width.lanes 0 0 0) = none ∧
      lo64 (g.a g.head) = 0 ∧ g.src.tile < s1.tiles.length ∧
      s1.cmd? g.src.tile ((s1.tile g.src.tile).nextCmd * 192 + g.src.tile) = none := by
  intro p hp
  simp only [List.mem_cons, List.not_mem_nil, or_false] at hp
  obtain rfl | rfl | rfl := hp <;> exact ⟨issues_of (by rfl), by decide, by rfl, by rfl, by rfl, by rfl, by decide, by rfl⟩

/-- Barrier level 1 with all lanes but lane 0 arrived, lane 0 alone at the head. -/
def stBar : State := alone (ran (v .bara 1 0 0 0 .b32) { st0 with slots := [{ sl0 with lanes := (List.range 32).drop 1 }] })

theorem test_meets_bar : ∀ i ∈ [v .bar 1 0 0 0 .b32, v .bara 1 0 0 0 .b32, v .barw 1 0 0 0 .b32],
    let g := stBar.groupOf i slOne
    let r := (stBar.issued g).barrierFor g.w 1
    Issues i stBar slOne ∧ g.lanes = [0] ∧ g.omitted 1 = false ∧ g.replay = none ∧ (stBar.issued g).failedAt g.w 1 = none ∧
      (r.1.barrier r.2).has g.w 0 = false ∧ r.1.wordFull r.2 = false := by
  intro i hi
  simp only [List.mem_cons, List.not_mem_nil, or_false] at hi
  obtain rfl | rfl | rfl := hi <;> exact ⟨issues_of (by rfl), by rfl, by rfl, by rfl, by rfl, by rfl, by rfl⟩

/-- All 32 lanes wait at `bar`. -/
def stPhase : State := ran (v .bar 1 0 0 0 .b32) st0

/-- Lane 0 waits at `waitp` for a word that has reached its threshold since. -/
def stPennant : State :=
  let s := ran (.waitp ⟨Hd.plain, 0, 16, 12, 0, 0, .u64, .none, .dev, .acq⟩) stW
  { s with mem := Memory.write s.mem 0x1000 [5] }

/-- Lane 0 waits at `cbacq` for a block of which a slot has been filled since. -/
def stBuffer : State :=
  let s := ran (.cbacq ⟨Hd.plain, 8, 4, 0, 0, .b32, .rne, false, true, false, false, 0⟩)
    (alone (withScalars stW [(5, 0x3F000000)]))
  { s with mem := Memory.write s.mem 0x1000 (Block.bytes ⟨0, 0, 1, 0, 0x6000000000000000, 64, 4⟩) }

theorem test_meets_releases :
    (0 < stPhase.barriers.length ∧ stPhase.phaseReady 0 = true ∧ (stPhase.thread 0 31).wait = .bar 0 (stPhase.barrier 0).phase) ∧
    (let s := ran (v .join 0 12 0 0 .b32) (alone (withRegs st0 0 [(12, 1, 1)]))
     0 < (s.wave 0).width.lanes ∧ (s.wave 0).mayLeave 0 = true) ∧
    ((stPennant.thread 0 0).wait = .waitp 0x3F00000000000000 5 ∧ stPennant.waitedWord 0 0 0x3F00000000000000 = some 5 ∧
      (stPennant.wave 0).resident = true) ∧
    (stPennant.setTensor probeCtx 0 0).waitedWord 0 0 0x3F00000000000000 = none ∧
    stBuffer.cbacqReady 0 0 = true ∧
    (let s := st0.modWave 0 fun wv => wv.setHist ⟨pc0, 64, false, 0⟩
     0 < s.waves.length ∧ 64 ≤ ((s.wave 0).hist pc0).count) := by decide

/-- `cbdef` with the largest number of slots of 64 bytes that fits from the region's first byte. -/
theorem test_meets_cbdef : let i := Instr.cbdef ⟨Hd.plain, 15, 4, 6, 8, .b32, .rne, false, true, true, true, 0⟩
    let s := withScalars (stEng 9 0) [(5, 0x60000000), (6, 64), (7, 8192), (9, 0x3F000000)]
    let g := s.groupOf i sl0
    let s1 := s.issued g
    Issues i s sl0 ∧ g.lanes ≠ [] ∧ s1.cbdefCheck g.src.ctx (lo64 (g.a g.head)).toNat (word32 (g.b g.head) 0).toNat
      (word32 (g.b g.head) 1).toNat (lo64 (g.c g.head)).toNat = none ∧
      ∃ ps pad, s1.reach (s1.whoFor g g.head 1 .dev) (lo64 (g.c g.head)).toNat 32 32 .write = .ok ps pad :=
  ⟨issues_of (by rfl), by decide, by rfl, _, _, by rfl⟩

/-- `cbacq` and `cbrel` at a block with one slot filled, and at one with none. -/
theorem test_meets_cbacq_cbrel : ∀ i ∈ [Instr.cbacq ⟨Hd.plain, 8, 4, 0, 0, .b32, .rne, false, true, false, false, 0⟩,
      .cbrel ⟨Hd.plain, 0, 4, 0, 0, .b32, .rne, false, true, false, false, 0⟩],
    ∀ filled ∈ [0, 1],
    let s0 := alone (withScalars stW [(5, 0x3F000000)])
    let s : State := { s0 with mem := Memory.write s0.mem 0x1000 (Block.bytes ⟨0, 0, filled, 0, 0x6000000000000000, 64, 4⟩) }
    let g := s.groupOf i slOne
    let s1 := s.issued g
    let va := (lo64 (g.a g.head)).toNat
    Issues i s slOne ∧ g.lanes ≠ [] ∧ blockRegion va = true ∧ ∃ ps pad, s1.reach (s1.whoFor g g.head 3 .dev) va 32 32 .rmw = .ok ps pad ∧
      (Block.of (s1.load ps pad)).filled = filled := by
  intro i hi filled hf
  simp only [List.mem_cons, List.not_mem_nil, or_false] at hi hf
  obtain rfl | rfl := hi <;> obtain rfl | rfl := hf <;> exact ⟨issues_of (by rfl), by decide, by rfl, _, _, by rfl, by rfl⟩

/-- `waitp` at a word that holds 5: a threshold it has just reached, and one above. -/
theorem test_meets_waitp : ∀ goal ∈ [5, 6],
    let i := Instr.waitp ⟨Hd.plain, 0, 16, 12, 0, 0, .u64, .none, .dev, .acq⟩
    let s0 := alone (withRegs stW 0 [(12, 2, BitVec.ofNat 128 goal)])
    let s : State := { s0 with mem := Memory.write s0.mem 0x1000 [5] }
    let g := s.groupOf i slOne
    let s1 := s.issued g
    Issues i s slOne ∧ g.actors = [0] ∧ g.lanes = [0] ∧ ∃ ps pad, s1.reach (s1.whoFor g 0 0 .dev) (g.addr 0 0) 8 8 .read = .ok ps pad ∧
      ofBytes (s1.load ps pad) = 5 ∧ (lo64 (g.b 0)).toNat = goal := by
  intro goal hg
  simp only [List.mem_cons, List.not_mem_nil, or_false] at hg
  obtain rfl | rfl := hg <;> exact ⟨issues_of (by rfl), by rfl, by rfl, _, _, by rfl, by rfl, by rfl⟩

theorem test_meets_halt : (st0.groupOf (v .halt 0 0 0 0 .b32) sl0).lanes = 0 :: (List.range 32).drop 1 := by decide

/-- A copy with a circular buffer, not yet claimed. -/
def stClaim : State :=
  let s := (stCpy.modTeam 0 fun t => { t with cbufs := [(5, 0x3F00000000000000)] })
  let s := { s with mem := Memory.write s.mem 0x1000 (Block.bytes ⟨1, 0, 0, 0, 0x6000000000000000, 64, 4⟩) }
  (s.addCmd (s.groupOf (.cpy ⟨Hd.plain, 0, 4, 16, 24, 0, 0xB00⟩) sl0)
    ((s.groupOf (.cpy ⟨Hd.plain, 0, 4, 16, 24, 0, 0xB00⟩) sl0).newCmd .cpy ⟨Hd.plain, 0, 4, 16, 24, 0, 0xB00⟩ 0 0 0 (List.replicate 5 0)
      [4, 1, 1, 1, 1])).1

theorem test_meets_claim : ∃ c blk ps pad, stClaim.cmd? 0 0 = some c ∧ c.wantsSlot = true ∧ c.slot = none ∧ c.state = .issued ∧
    (stClaim.wave c.wave).resident = true ∧ stClaim.cbOf c.wave c.form.cbn = some blk ∧
    stClaim.reach (stClaim.engineWho c.wave 7 3) blk.toNat 32 32 .rmw = .ok ps pad ∧ (Block.of (stClaim.load ps pad)).free ≠ 0 :=
  ⟨_, _, _, _, by rfl, by rfl, by rfl, by rfl, by rfl, by rfl, by rfl, by decide⟩

/-- A copy that is not accepted yet, and the same accepted. -/
def stIssued : State :=
  (stCpy.addCmd (stCpy.groupOf (.cpy cpyForm) sl0)
    ((stCpy.groupOf (.cpy cpyForm) sl0).newCmd .cpy cpyForm 0 0 0 (List.replicate 5 0) [4, 1, 1, 1, 1])).1

def stAccepted : State := stIssued.accept 0 0

theorem test_meets_acceptance : ∃ c d, stIssued.cmd? 0 0 = some c ∧ stIssued.acceptable 0 c = true ∧ c.isCopy = true ∧
    stIssued.copyCheck c.wave c.form c.kind c.ops c.slot none = .done ∧
    stAccepted.cmd? 0 0 = some d ∧ d.state = .accepted ∧ FaultStatus.xlate ≠ .resolved ∧
    stAccepted.verdict 0 d = .ready ∧ d.isCopy = true ∧ d.sentAll = false ∧
    (((d.rowsLeft.foldl (fun s r => s.moveRow 0 d r) stAccepted).modCmd 0 0 fun c => { c with sentAll := true }).cmdReqs 0 0) = [] :=
  ⟨_, _, by rfl, by rfl, by rfl, by rfl, by rfl, by rfl, by decide, by rfl, by rfl, by rfl, by rfl⟩

/-- A matrix command that waits to be accepted, its operands in the scratchpad or at an address that is not. -/
def stHeld (desc : W64) : State :=
  let g := (stEng 9 0).groupOf (.mma (mmaForm false)) sl0
  ((stEng 9 0).addCmd g (g.newCmd .mma (mmaForm false) desc 0 0 [] [])).1

theorem test_meets_matrix_acceptance : ∀ d ∈ [(0 : W64), 0xFFFF], ∃ c, (stHeld d).cmd? 0 0 = some c ∧ (stHeld d).acceptable 0 c = true ∧
    c.isCopy = false ∧ c.wave < (stHeld d).waves.length ∧
    ((stHeld d).matrixCheck ((stHeld d).engineWho c.wave 6 5)
      (matrixRows c.form (c.kind == .mmasp) ((stHeld d).wave c.wave).width.lanes c.descA c.descB c.descC)).isNone = (d == 0) := by
  intro d hd
  simp only [List.mem_cons, List.not_mem_nil, or_false] at hd
  obtain rfl | rfl := hd <;> exact ⟨_, by rfl, by rfl, by rfl, by decide, by rfl⟩

/-- A matrix command under way. -/
def stMatrix : State := ran (.mma (mmaForm false)) (stEng 9 0)

theorem test_meets_matrix_finish : ∃ c, stMatrix.cmd? 0 0 = some c ∧ c.state = .accepted ∧ stMatrix.verdict 0 c = .ready ∧
    c.isCopy = false ∧ c.form.atype ≠ .f64 ∧ 31 < (stMatrix.wave c.wave).width.lanes ∧ c.wave < stMatrix.waves.length ∧
    (stMatrix.wave c.wave).threads.length = (stMatrix.wave c.wave).width.lanes :=
  ⟨_, by rfl, by rfl, by rfl, by rfl, by decide, by decide, by decide, by rfl⟩

theorem test_meets_cwait :
    (let i := Instr.cwait ⟨Hd.plain, 0, 0, 0, 0, 0, 0⟩
     let g := st0.groupOf i sl0
     Issues i st0 sl0 ∧ (st0.issued g).failedCmd g.w (fun _ => true) = none ∧
       ∀ c ∈ (st0.issued g).waveCmds g.w, c.state ≠ .accepted) ∧
    (let i := Instr.cwait ⟨Hd.plain, 0, 0, 0, 0, 0, 0⟩
     let s := { stAccepted with slots := [sl0] }
     let g := s.groupOf i sl0
     Issues i s sl0 ∧ (s.issued g).failedCmd g.w (fun _ => true) = none ∧
       ∃ c ∈ (s.issued g).waveCmds g.w, c.state = .accepted) :=
  ⟨⟨issues_of (by rfl), by rfl, by decide⟩, issues_of (by rfl), by rfl, by decide⟩

/-- A tensor whose entry lies in memory at physical address 0x2000, its window address in `sd4`. -/
def stTable : State :=
  let s := withScalars stW [(4, 0x800), (5, 0x3F000000)]
  alone { s with mem := Memory.write s.mem 0x1800 (toBytes (9 * 2 ^ 56 + 2 ^ 53 + 0x10 * 2 ^ 64 + 16 * 2 ^ 256) 64) }

theorem test_meets_tensor_table :
    (let i := Instr.tset ⟨Hd.plain, 0, 4, 0, 0, 1, 0⟩
     let g := stTable.groupOf i slOne
     let s1 := stTable.issued g
     Issues i stTable slOne ∧ g.lanes ≠ [] ∧ ∃ ps pad, s1.reach (s1.whoFor g g.head 0 .dev) (lo64 (g.a g.head)).toNat 64 64 .read = .ok ps pad ∧
       (s1.count ps).tsetCheck ((s1.count ps).waveWorld g.w) ((s1.count ps).entryOf g.w 1)
         (BitVec.ofNat 512 (ofBytes (s1.load ps pad))) = none) ∧
    (let i := Instr.tget ⟨Hd.plain, 0, 4, 0, 0, 0, 0⟩
     let g := stTable.groupOf i slOne
     let s1 := stTable.issued g
     Issues i stTable slOne ∧ g.lanes ≠ [] ∧ (∃ ps pad, s1.reach (s1.whoFor g g.head 1 .dev) (lo64 (g.a g.head)).toNat 64 64 .write = .ok ps pad) ∧
       tWorld (s1.entryOf g.w 0) = s1.waveWorld g.w) ∧
    (let i := Instr.tseal ⟨Hd.plain, 0, 0, 0, 0, 0, 0⟩
     let s := alone (stW.modWorld 0 fun w => { w with sealKeys := [(0, 7)] })
     let g := s.groupOf i slOne
     let s1 := s.issued g
     let e := s1.entryOf g.w 0
     Issues i s slOne ∧ g.lanes ≠ [] ∧ tFmt e ≠ 0 ∧ tWorld e = s1.waveWorld g.w ∧
       ((s1.world (tWorld e)).sealKeys.any fun k => k.1 == tKey e) = true) ∧
    (let i := Instr.publ ⟨Hd.plain, 0, 0, 0, 0, 0, 4⟩
     let g := stW.groupOf i slOne
     let s1 := stW.issued g
     let e := s1.entryOf g.w 0
     Issues i stW slOne ∧ g.lanes ≠ [] ∧ tFmt e ≠ 0 ∧ tWorld e = s1.waveWorld g.w ∧ s1.waveCmds g.w = []) ∧
    ∃ x, stW.ctx? probeCtx = some x :=
  ⟨⟨issues_of (by rfl), by decide, _, _, by rfl, by rfl⟩, ⟨issues_of (by rfl), by decide, ⟨_, _, by rfl⟩, by rfl⟩,
    ⟨issues_of (by rfl), by decide, by decide, by rfl, by rfl⟩, ⟨issues_of (by rfl), by decide, by decide, by rfl, by rfl⟩, _, by rfl⟩

/-! ## States that meet the hypotheses of the statements about pages, faults, launches and teams -/

/-- A backed page, the first of its space, at home in node 7. -/
def page0 : Nat := 2 ^ 35

/-- Its entry: absent, arriving in frame 1 with every sector but the last, or present there. -/
def entry (st : PageState) : FrameEntry :=
  match st with
  | .absent => ⟨1, 7, 3, true, .absent, false, false, 0, 0⟩
  | .arriving => ⟨1, 7, 3, true, .arriving, false, false, 1, 0x7FFFFFFF⟩
  | st => ⟨1, 7, 3, true, st, false, false, 1, 0xFFFFFFFF⟩

/-- `st0` with that page, and lane 3 waiting for its last sector. -/
def stPage (st : PageState) : State :=
  ({ st0 with frameMap := [(page0, entry st)] } : State).modThread 0 3 fun t => { t with wait := .page page0 31 }

/-- A route to node 7, two links away by port 3. -/
def toHome (s : State) : State :=
  { s with fabric := { s.fabric with routes := [(7, BitVec.ofNat 128 (2 ^ 127 + 2 * 2 ^ 124 + (3 + 2 ^ 24) * (1 + 2 ^ 40 + 2 ^ 80)))] } }

theorem test_meets_sectors :
    (let s := (stPage .absent).modWorld 0 fun w => { w with grants := [(65536, 65536), (page0 * 65536, 65536)] }
     Memory.wf s.home ∧ (s.frameOf page0).v = true ∧ (s.frameOf page0).direct = false ∧ s.nextSector page0 (s.frameOf page0) = none ∧
      (s.frameOf page0).state = .absent ∧ s.frameFree page0 1 = true ∧ s.homeReached (s.frameOf page0) = false) ∧
    (let s := toHome (stPage .arriving)
     s.homeReached (s.frameOf page0) = true ∧ (page0, 31, 1) ∉ s.fabric.coming) ∧
    (let s := stPage .arriving
     (s.frameOf page0).v = true ∧ (s.frameOf page0).direct = false ∧ s.nextSector page0 (s.frameOf page0) = some 31 ∧
      (s.frameOf page0).state = .arriving ∧ (s.frameOf page0).frame = 1 ∧ (s.thread 0 3).wait = .page page0 31) := by decide

/-- World 0 with a grant of one local frame and the backed page, all its frames used. -/
def stFull : State :=
  (stPage .present).modWorld 0 fun w => { w with grants := [(0, 65536), (page0 * 65536, 65536)] }

theorem test_meets_departures :
    (let s := stPage .present
     Memory.wf s.mem ∧ Memory.wf s.home ∧ s.exempt page0 = false ∧ (s.frameOf page0).v = true ∧ (s.frameOf page0).hkind ≠ 0 ∧
      (s.frameOf page0).state = .present ∧ s.dirty.contains 1 = false ∧ (s.frameOf page0).smask.getLsbD 31 = true) ∧
    (let s : State := { stPage .present with dirty := [1] }
     s.dirty.contains (s.frameOf page0).frame = true ∧ s.homeReached (s.frameOf page0) = false ∧
      (toHome s).homeReached (s.frameOf page0) = true) ∧
    (stFull.overHigh 0 = true ∧ stFull.coldPages 0 = [page0] ∧
      (stFull.world 0).low * stFull.worldFrames 0 ≤ 100 * (stFull.framedPages 0).length) ∧
    (let s : State := { st0 with stackCount := [2 ^ 20], counters := [(5, 9)] }
     0 < s.stackCount.length ∧ 2 ^ 20 ≤ s.stackCount.getD 0 0 ∧ Sparse.wf (0 : BitVec 16) s.counters = true) := by decide

/-- A record of each kind in the queue of die 0, and lanes that wait for them. -/
def stFault : State :=
  let r : FaultRec := { va := 0x7000000004000000, ctx := probeCtx, seq := 1, aux := 0, die := 0, ptile := 0, part := 0, sect := 0
                        kind := .frame, acc := 0, waiters := 1 }
  let s := st0.modDie 0 fun d => { d with faultq := [r, { r with seq := 2, kind := .map }, { r with seq := 3, kind := .priv }] }
  (s.modThread 0 1 fun t => { t with wait := .fault 0 1 }).modThread 0 2 fun t => { t with wait := .fault 0 3 }

theorem test_meets_fault_answers :
    ((stFault.die 0).faultq.find? fun x => x.seq == 1).map (·.kind) = some .frame ∧ 0 < stFault.dies.length ∧
    ((stFault.die 0).faultq.find? fun x => x.seq == 2).map (·.kind) = some .map ∧ FaultStatus.protect ≠ .resolved ∧
    (stFault.thread 0 1).wait = .fault 0 1 ∧ (stFault.thread 0 2).wait = .fault 0 3 ∧ (stFault.thread 0 2).status = .live ∧
    ((stFault.die 0).faultq.find? fun x => x.seq == 3 && x.kind == .priv).isSome = true ∧ stFault.prefetches = [] ∧
    max ((stFault.thread 0 2).psize + 65536) ((0x7000000004000000 % 2 ^ 60 / 65536 + 1) * 65536) ≤ privStride ∧
    (stFault.thread 0 (stFault.wave 0).lowest).psize + 65536 ≤ privStride ∧
    privStride < (0x7000000100000000 % 2 ^ 60 / 65536 + 1) * 65536 ∧
    stFault.proxied 0 = false ∧ (ran (.stop 0) stFault).proxied 0 = true := by decide

theorem test_meets_page_table :
    let s := st0.modCtx probeCtx fun c => { c with roots := [0x4000, 0x4000, 0x4000, 0x4000] }
    ∃ c a level, s.inFlight probeCtx = false ∧ s.ctx? probeCtx = some c ∧
      ((c.tableOf (0x3FFFFFFFFFFF0000 : W64).toNat).bind fun root =>
        s.entryPlace ((0x3FFFFFFFFFFF0000 : W64).toNat % 2 ^ 60) walkLevels root) = some (a, level) ∧ s.entryMay c level 0 = true :=
  ⟨_, _, _, by rfl, by rfl, by rfl, by rfl⟩

/-- A read of lane 0 is on its way to node 9; the word of an entry for page 5, at home in pool node 7. -/
theorem test_meets_invalidations :
    ({ st0 with fabric := { st0.fabric with reqs := [⟨0, 0, 0, 0, 9, 0, 0, [], .lane⟩] } } : State).inFlight probeCtx = true ∧
    (let w := BitVec.ofNat 128 (2 * 2 ^ 122 + 7 * 2 ^ 110 + 3 * 2 ^ 64 + 2 ^ 63)
     st0.inFlight probeCtx = false ∧ st0.granted 0 0 65536 = true ∧ st0.granted 0 (5 * 65536) 65536 = false ∧ w.extractLsb' 124 4 = 0 ∧ w.extractLsb' 56 3 = 0 ∧
      w.extractLsb' 122 2 ≠ 3) := by decide

/-- The code object of the context in a backed page, being bound. -/
def stBinding : State :=
  let s := (stPage .present).modCtx probeCtx fun c => { c with recs := c.recs.map fun r => { r with state := .binding, run := page0 * 65536 } }
  s.modThread 0 4 fun t => { t with wait := .binding probeCtx 1 }

theorem test_meets_binding : ∃ r, stBinding.recOf probeCtx 1 = some r ∧ r.state = .binding ∧
    (∀ p ∈ r.pages, (stBinding.frameOf p).state = .present) ∧ (stBinding.thread 0 4).wait = .binding probeCtx 1 ∧
    stBinding.deliveries = [] := ⟨_, by rfl, by rfl, by decide, by rfl, by rfl⟩

theorem test_meets_retention_and_errors :
    191 < st0.tiles.length ∧ st0.occupied 191 = false ∧ SoftArray.l2 ≠ .cleanLine ∧ SoftArray.l2 ≠ .regfile ∧ 3 ≤ 3 ∧
    127 < 128 ∧ 1023 < 1024 ∧
    ((st0.modThread 0 5 fun t => { t with wait := .array 0 }).thread 0 5).wait = .array 0 := by decide

/-- A kernel's header at the start of its code object, one line before the line of `st0`, and a record that launches it. -/
def stSubmit : State :=
  let d : DirEntry := { obj := 1, kind := 2, extent := 64, closed := true, retired := false, bytes := [], tensors := [] }
  st0.modCtx probeCtx fun c => { c with dir := [d] }

theorem test_meets_record_refused : ∃ k, st0.checkRecord 0 0 = .error k := ⟨_, by rfl⟩

/-- A committed launch that nothing holds back, and one that has waited long enough. -/
def stLaunch (eligible : Bool) : State :=
  { st0 with launches := st0.launches.map fun l => { l with eligible := eligible, age := 2 ^ 18, queue := 6 } }

theorem test_meets_eligibility : ∃ l, (stLaunch false).launches[0]? = some l ∧ l.committed = true ∧ l.eligible = false ∧
    l.completion = none ∧ (stLaunch false).named l.record = true ∧ (stLaunch false).badDep l = none ∧ (stLaunch false).depsMet l = true ∧
    l.die < (stLaunch false).dies.length :=
  ⟨_, by rfl, by rfl, by rfl, by rfl, by rfl, by rfl, by rfl, by decide⟩

/-- A second team of the launch, queued on die 0. -/
def stQueued : State :=
  let s := stLaunch true
  ({ s with teams := s.teams ++ [Team.fresh 0 1 0], launches := s.launches.map fun l => { l with teams := [0, 1] } } : State).modDie 0
    fun d => { d with order := [0] }

theorem test_meets_aging : ∃ l, stQueued.launches[0]? = some l ∧ (∃ team ∈ l.all, (stQueued.team team).state = .waiting) ∧ 2 ^ 18 ≤ l.age ∧
    l.queue < 7 := ⟨_, by rfl, ⟨1, by decide, by rfl⟩, by decide, by decide⟩
/-! ## States that meet the hypotheses of the statements about records and teams -/

/-- A line with the TGT bit of its slot 0, and behind it a kernel's header. -/
def codeBytes : List Byte :=
  toBytes (2 ^ 480) 64 ++ toBytes (0x47413934 + 0x10001 * 2 ^ 32 + (16 * 2 ^ 16 + 8 * 2 ^ 8 + 1) * 2 ^ 64 + 3 * 2 ^ 128) 64

/-- The context with that kernel in its code object. -/
def stKernel : State :=
  let d : DirEntry := { obj := 1, kind := 2, extent := 128, closed := true, retired := false, bytes := [], tensors := [] }
  let s := st0.modCtx probeCtx fun c => { c with dir := [d], recs := c.recs.map fun r => { r with extent := 128 } }
  { s with mem := Memory.write s.mem 0 codeBytes }

/-- A record that launches one team of it. -/
def launchWords : BitVec 2048 := BitVec.ofNat 2048 ((longName 2 1 64).toNat + 4 * 2 ^ (24 * 8 + 16)) + probeRecord

theorem test_meets_record_accepted : ∃ p, stKernel.checkRecord 0 launchWords = .ok p ∧ recPkgn launchWords = 1 ∧
    recPkg0 launchWords = stKernel.fabric.node := ⟨_, by rfl, by decide, by decide⟩

/-- A share whose one team has ended, with the pennant word it raises and how the team ended. -/
def stEnded (caddr : Nat) (reason : Option EndReason) : State :=
  { st0 with
    launches := st0.launches.map fun l =>
      { l with record := l.record + BitVec.ofNat 2048 (caddr * 2 ^ (136 * 8)), firstError := reason }
    teams := st0.teams.map fun t => { t with state := .ended } }

theorem test_meets_shares :
    (∃ l, (stEnded 0 none).launches[0]? = some l ∧ l.eligible = true ∧ l.completion = none ∧ (stEnded 0 none).shareEnded l = true ∧
      l.firstError = none ∧ recCaddr l.record = 0) ∧
    (∃ l e, (stEnded 0 (some .quiesced)).launches[0]? = some l ∧ l.eligible = true ∧ l.completion = none ∧
      (stEnded 0 (some .quiesced)).shareEnded l = true ∧ l.firstError = some e) :=
  ⟨⟨_, by rfl, by rfl, by rfl, by rfl, by rfl, by rfl⟩, ⟨_, _, by rfl, by rfl, by rfl, by rfl, by rfl⟩⟩

theorem test_meets_pennant : let s := (stEnded 0x3F00000000000008 none).setTensor probeCtx 0 (tensorOf 9 0)
    ∃ l ps pad, s.launches[0]? = some l ∧ s.shareEnded l = true ∧ recCaddr l.record ≠ 0 ∧ s.fabric.reqs = [] ∧
      s.access { launchWho l 3 with fabric := l.scopeOf == .fabric } (recCaddr l.record) 8 8 .rmw = .ok ps pad :=
  ⟨_, _, _, by rfl, by rfl, by decide, by rfl, by rfl⟩

/-- A round that follows the placement of team 1 on tile 1, and one that names no place. -/
theorem test_meets_rounds : (stQueued.round 0 (takeGiven 0) [⟨1, 1, 0⟩]).map (·.2) = some [] ∧
    (stQueued.round 0 (takeGiven 0) []).isNone = true := ⟨by rfl, by rfl⟩

/-- Team 0 woken from the doldrums, with save areas whose first line is poisoned. -/
def stSpoilt : State :=
  { st0 with teams := st0.teams.map fun t => { t with state := .woken, placed := false, context := some (0x8000, 64) }, poison := [0x200] }

theorem test_meets_placements :
    (stQueued.dieReach 0 1).contains (1 / 48) = true ∧ stQueued.fits 1 1 0 = true ∧ 1 < stQueued.teams.length ∧
    (stQueued.launchOf 1).isSome = true ∧ (stQueued.team 1).context = none ∧ (⟨0, 1, 0, 7680⟩ : Advert) ∈ st0.advertsOf 1 ∧
    ((stSpoilt.team 0).state = .woken ∧ (stSpoilt.launchOf 0).isSome = true ∧ stSpoilt.poisoned [(0x8000, 64)] = true) := by decide

/-- No tile of die 0 runs, and die 1 has told it of its free slots. -/
theorem test_meets_transfer : (let s := stQueued.modDie 0 fun d => { d with adverts := [⟨0, 1, 0, 7680⟩] }
    let s : State := { s with tiles := s.tiles.mapIdx fun i t => if i < 48 then { t with clock := .stopped } else t }
    s.mayMove 1 1) = true := by rfl

/-- A team of one bank that has waited for its doldrums. -/
def stCalm : State :=
  let s := st0.modLanes 0 (List.range 32) fun _ t => { t with wait := .halted }
  { s with teams := s.teams.map fun t => { t with waited := 45000, patience := 45000, nbank := 1 } }

theorem test_meets_calm : ∃ l, stCalm.launchOf 0 = some l ∧ stCalm.calm 0 = true ∧ stCalm.copyOk l.world 0 (stCalm.team 0).nbank = true ∧
    stCalm.contextOk l.world 0x4000 (stCalm.contextBytes 0).length = true ∧ (stCalm.contextBytes 0).length ≠ 0 ∧ Memory.wf stCalm.mem ∧
    ∃ s, stCalm.refileTeam 0 = some s :=
  ⟨_, by rfl, by rfl, by rfl, by rfl, by decide, by rfl, _, by rfl⟩

/-- The same with a register in the backing store, a line of which is poisoned. -/
def stMoved : State :=
  let s := (withSpace stCalm 0 0).modWave 0 fun wv => { wv with moved := [1] }
  { s.modThread 0 0 fun t => { t with areas := [⟨.store, 0x1000, 16⟩] } with poison := [0xC40] }

theorem test_meets_lost_store : stMoved.calm 0 = true ∧ stMoved.refileTeam 0 = none := by decide

/-- Team 0 in the doldrums, lane 0 with a wait of its own and the others halted, its tensor's first word 0. -/
def stBecalmed (wt : Wait) : State :=
  let s := (stW.modLanes 0 (List.range 32) fun _ t => { t with wait := .halted }).modThread 0 0 fun t => { t with wait := wt }
  { s with teams := s.teams.map fun t => { t with state := .becalmed, placed := false } }

theorem test_meets_wake : (stBecalmed (.waitp 0x3F00000000000000 1)).wakes 0 = false ∧ (stBecalmed (.waitp 0x3F00000000000000 0)).wakes 0 = true ∧
    ((stBecalmed .none).team 0).die < st0.dies.length := by decide

theorem test_meets_cycles : (st0.tile 191).clock = .running ∧ 191 < st0.tiles.length ∧
    ((ran (.stop 0) st0).tile 0).clock ≠ .running ∧
    (st0.modWave 0 fun wv => { wv with active := false }).exchange 0 0 = some (none, 0) ∧
    (let s : State := { st0 with waves := (List.range 9).map fun i => { st0.wave 0 with half := 2 * i, active := decide (i < 8), notReady := 16 } }
     s.exchange 0 0 = some (some 0, 8)) := by decide
/-! ## States that meet the hypotheses of the statements about the service kernel -/

/-- Lane 0 waits for the delivery of an effect with payload from `v8` up: action or kind, size, and a pointer to the name of the
context's object, which lies in a backed page. -/
def stService (name : W32) (v8 v9 : Nat) : State :=
  let s := { stPage .present with mem := Memory.write (stPage .present).mem 0x1000 (toBytes (longName 2 1 0).toNat 16) }
  let d : DirEntry := { obj := 1, kind := 2, extent := 64, closed := true, retired := false, bytes := [], tensors := [] }
  let s := s.modCtx probeCtx fun c => { c with dir := [d] }
  let s := (withRegs s 0 [(8, 1, BitVec.ofNat 128 v8), (9, 1, BitVec.ofNat 128 v9), (10, 2, 0x3F00000000000000)]).setTensor probeCtx 0 (tensorOf 9 0 + BitVec.ofNat 512 (24 * 2 ^ 256))
  let s := ran (.perf ⟨Hd.plain, 8, 0, false, 12, name⟩) (withSpace (alone s) 0 0)
  s.modCtx probeCtx fun c => { c with recs := c.recs.map fun r => { r with run := page0 * 65536 } }

/-- Whether lane 0's delivery passes a test, its record sound. -/
def delivers (s : State) (p : Delivery → Bool) : Bool := (s.deliveryOf 0 0).any fun d => s.badRecord d == none && p d

/-- Whether a service answers a delivery with results, its record sound afterwards too. -/
def gives (d : Delivery) (r : Served) : Bool := r.any fun x => !x.2.isEmpty && x.1.badRecord d == none

theorem test_meets_services :
    (let s := stService 0xFFFE0009 0 0
     (delivers s fun d => d.kind == 2 && s.inRing d && gives d (s.systemService d)) = true) ∧
    (delivers (stService 5 0 0) fun d => d.kind != 2 && TrapKind.ofCode d.name == none) = true ∧
    (delivers (ran (.trapDelivery 0) (ran (.trap ⟨Hd.plain, 0, 0, 0, 0, 0xFFFF0011⟩) (withSpace (alone (st0.modWave 0 fun wv => { wv with vBudget := 8 })) 0 0))) fun d =>
      d.kind != 2 && (TrapKind.ofCode d.name).isSome) = true := ⟨by rfl, by rfl, by rfl⟩

theorem test_meets_named_services :
    (let s := stService nameLaunch 0 0
     (delivers s fun d => d.kind == 2 && d.name == nameLaunch && gives d (s.serveLaunch d)) = true) ∧
    (let s := stService nameAlloc 0 1
     (delivers s fun d => d.kind == 2 && d.name == nameAlloc && gives d (s.serveAlloc d)) = true) ∧
    (let s := stService nameConsole 0 4
     (delivers s fun d => d.kind == 2 && d.name == nameConsole && gives d (s.serveConsole d)) = true) := ⟨by rfl, by rfl, by rfl⟩

theorem test_meets_object_services : (([0, 1, 2, 3, 4, 5] : List Nat).all fun a =>
    let s := stService nameObject a 0
    delivers s fun d => d.kind == 2 && d.name == nameObject && ((s.thread 0 0).v d.pb).toNat == a && gives d (s.serveObject d)) = true := by
  rfl

theorem test_meets_answered : (let s := stService nameConsole 0 4
    (delivers s fun d => (s.tokenRecord d.wave d.lane d.token).isSome && decide s.deliveries.Nodup && decide (d.wave < s.waves.length) &&
      decide (d.lane < (s.wave d.wave).threads.length)) = true) := by rfl

/-- The same delivery behind a full ring of others. -/
theorem test_meets_full_ring :
    (let s := stService nameConsole 0 4
     ((s.deliveryOf 0 0).any fun d =>
      let s : State := { s with deliveries := List.replicate 4096 { d with lane := 1 } ++ [d] }
      s.deliveryOf 0 0 == some d && !s.inRing d) = true) := by rfl

/-- Whether a service finds the pointer of a delivery good, or answers that it is bad. -/
def points (s : State) (d : Delivery) (n al : Nat) (m : Mode) : Bool :=
  match s.svcPtr d.wave d.lane ((s.thread d.wave d.lane).dv (d.pb + 2)).toNat n al m with
  | .ok _ => true
  | _ => false
def misses (s : State) (d : Delivery) (n al : Nat) (m : Mode) : Bool :=
  match s.svcPtr d.wave d.lane ((s.thread d.wave d.lane).dv (d.pb + 2)).toNat n al m with
  | .bad _ => true
  | _ => false

/-- `v10` and `v11` point into the scratchpad. -/
def offMark (s : State) : State := withRegs s 0 [(10, 2, 0x6000000000000000)]

theorem test_meets_console :
    (let s := stService nameConsole 0 4096
     (delivers s fun d => ((s.thread d.wave d.lane).v (d.pb + 1)).toNat == 4096 && points s d 4096 1 .read) = true) ∧
    (let s := offMark (stService nameConsole 0 4096)
     (delivers s fun d => misses s d 4096 1 .read) = true) ∧
    (let s := stService nameConsole 0 4097
     (delivers s fun d => decide (4096 < ((s.thread d.wave d.lane).v (d.pb + 1)).toNat)) = true) := ⟨by rfl, by rfl, by rfl⟩

/-- The entry of the object that an action names, where its pointer passes. -/
def objectOf (s : State) (a : Nat) : Option DirEntry :=
  (s.deliveryOf 0 0).bind fun d =>
    match s.svcPtr 0 0 ((s.thread 0 0).dv (d.pb + 2)).toNat 64 16 (if a = 0 then .rmw else .read) with
    | .ok ps => if ((s.thread 0 0).v d.pb).toNat = a then
        (s.ctx? probeCtx).bind fun c => c.known (BitVec.ofNat 128 (ofBytes ((Memory.readPieces s.mem ps).take 16))) else none
    | _ => none

/-- `stService nameObject a` whose object has no record, whose page is exempt, absent or without a home, and that names a data object. -/
def stLost (a : Nat) : State := (stService nameObject a 0).modCtx probeCtx fun c => { c with recs := [] }
def stData : State :=
  ({ stService nameObject 5 0 with mem := Memory.write (stService nameObject 5 0).mem 0x1000 (toBytes (longName 0 2 0).toNat 16) } : State).modCtx
    probeCtx fun c => { c with dir := { obj := 2, kind := 0, extent := 8, closed := true, retired := false, bytes := [], tensors := [] } :: c.dir }

theorem test_meets_object_refusals :
    (let s := offMark (stService nameObject 0 0)
     (delivers s fun d => misses s d 64 16 .rmw) = true) ∧
    (let s := stService nameObject 6 0
     (delivers s fun d => points s d 64 16 .read && ((s.thread 0 0).v d.pb).toNat == 6) = true) ∧
    (let s : State := { stService nameObject 1 0 with mem := Memory.write (stService nameObject 1 0).mem 0x1000 (List.replicate 16 0) }
     (delivers s fun d => points s d 64 16 .read) = true ∧ objectOf s 1 = none) ∧
    (∀ a ∈ [0, 2, 5], (objectOf (stLost a) a).any (fun e => e.kind == 2 && ((stLost a).needRec probeCtx e).isNone) = true) ∧
    (∀ a ∈ [1, 3], (objectOf (stLost a) a).any (fun e => ((stLost a).recOf probeCtx e.obj).isNone) = true) ∧
    (objectOf stData 5).any (fun e => e.kind == 0) = true ∧
    (let s : State := { stService nameObject 1 0 with pinned := [(0, page0)] }
     ((s.recOf probeCtx 1).any fun r => r.pages.any s.exempt) = true) ∧
    (let s := (stService nameObject 1 0).setFrame page0 { entry .present with hkind := 0 }
     ((s.recOf probeCtx 1).any fun r => r.pages.all (fun p => !s.exempt p) && r.pages.any fun p => (s.frameOf p).hkind == 0) = true) ∧
    (let s := (stService nameObject 2 0).setFrame page0 (entry .absent)
     ((objectOf s 2).bind fun e => s.needRec probeCtx e).any fun x => !x.1.allPresent x.2.pages) = true := by
  refine ⟨by rfl, by rfl, ⟨by rfl, by rfl⟩, by decide, by decide, by rfl, by rfl, by rfl, by rfl⟩

theorem test_meets_object : (([0, 1, 2, 3, 4, 5] : List Nat).all fun a =>
    let s := stService nameObject a 0
    delivers s fun d => points s d 64 16 (if a = 0 then .rmw else .read) && ((s.thread d.wave d.lane).v d.pb).toNat == a &&
      (((s.ctx? (s.wave d.wave).ctx).bind fun c => c.known (longName 2 1 0)).any fun e => e.kind == 2 &&
        (s.recOf (s.wave d.wave).ctx e.obj).any fun r =>
          s.allPresent r.pages && (r.pages.all fun p => !s.exempt p && (s.frameOf p).hkind != 0) &&
          (r.pages.foldl State.depart s).allAbsent r.pages)) = true := by rfl

/-- An eviction whose page goes home by packets: the page was written, and its home is another node. -/
theorem test_meets_eviction : (let s : State := { toHome (stService nameObject 1 0) with dirty := [1] }
    delivers s fun d => ((s.recOf (s.wave d.wave).ctx 1).any fun r =>
      !(r.pages.foldl State.depart s).allAbsent r.pages && s.evictDue r.pages)) = true := by rfl
/-! ## States that meet the hypotheses of the statements about freeze units, hosts and the fabric -/

/-- An image of tile 0 at 0x2000 under identity 7, whose header stands in memory as far as FREEZEID. -/
def stImage : State :=
  let x := { st0.imageOf 0 with addr := 0x2000, freezeId := 7 }
  { st0 with mem := Memory.write st0.mem 0x2018 (toBytes 7 8), images := [x] }

theorem test_meets_freeze_units :
    (191 < st0.tiles.length ∧ (st0.tile 191).busy = false ∧ (st0.wave 0).resident = true ∧ (st0.wave 0).tile = 0 ∧ (st0.wave 0).part = 0 ∧
      (st0.tile 0).busy = false ∧ 0 ∈ (st0.team (st0.wave 0).team).waves ∧ (st0.team (st0.wave 0).team).state ≠ .ended ∧
      (st0.tile 0).retention = .normal) ∧
    (stImage.image? 0x2000 (stImage.headerId 0x2000)).isSome = true ∧
    (let s := ran (.freeze 0 0x2000) st0
     (s.tile 0).busy = true ∧ (s.tile 0).fzOp = 1) ∧
    (let s := stImage.modTile 47 fun t => { t with busy := true, fzOp := 3, fzImage := 0x2000 }
     (s.tile 47).busy = true ∧ (s.tile 47).fzOp = 3 ∧ (s.image? (s.tile 47).fzImage.toNat (s.headerId (s.tile 47).fzImage.toNat)).isSome = true ∧
      s.pkg.consumed.contains 7 = false ∧ (s.consumeImage 7).pkg.consumed.contains 7 = true) ∧
    (let s := st0.modTile 0 fun t => { t with fzpc := [0, 0, 0, 0x5000000000010001] }
     (s.tile 0).clock = .running ∧ s.matched 0 0 3 = true) := by decide

theorem test_meets_control_space : reservedWord 0 0x1000000000 = true ∧ reservedWord 16 0x1000000000000 = true ∧
    (∀ p, p < 6 → st0.partBusy 191 p = false) ∧ (∀ b, b < 32 → st0.inRegion 191 b = false) ∧ (0xFFFFFFFFF : W64).toNat < 2 ^ 36 ∧
    st0.tiles.length = 192 ∧ (st0.tile 191).fzpc.length = 4 ∧ ((st0.modThread 0 3 fun t => { t with wait := .array 191 }).thread 0 3).wait =
      .array 191 := by decide

/-- Port 0 holds the configuration, world 63 is its own, and functions 0 and 2 have accepted their features. -/
def stOwner : State :=
  let s := { st0 with pkg := { st0.pkg with
    cfgOwner := some 0
    fns := [0, 2].map fun f => { port := 0, fn := f, features := 2 ^ 32, featuresOk := true, isr := 1, pending := 0, outstanding := [⟨0, 5, 2⟩] } } }
  s.modWorld 63 fun w => { w with live := true, port := some 0 }

/-- TAKE-CONFIG as a host sends it, and the same with a reserved byte set. -/
def takeMessage (reserved : Byte) : List Byte := toBytes (16 + 0x101 * 2 ^ 32 + 9 * 2 ^ 64) 6 ++ [reserved, 0] ++ toBytes 9 8

/-- A request of function 0 of port 0. -/
def q0 : HostReq := ⟨0, 0, 9⟩

theorem test_meets_messages_of_hosts : (stOwner.fn 0 0).featuresOk = true ∧ (stOwner.fn 0 2).featuresOk = true ∧ stOwner.serves 0 0 = true ∧
    stOwner.serves 0 2 = true ∧ (∀ i : Instr, stOwner.behindWindow 0 i = false) ∧
    messageRequest 0x401 q0 (takeMessage 0) = some (.takeConfig q0) ∧ messageRequest 0x401 q0 (takeMessage 1) = none ∧
    (let s := stOwner.await (.daxAccess q0.port q0.fn q0.id 0 8 none)
     s.behindWindow 0 (.launchRecord q0.port ⟨q0.fn, q0.id⟩ launchWords) = true ∧ s.behindWindow 1 (.launchRecord 1 ⟨0, 9⟩ launchWords) = false) :=
  ⟨by rfl, by rfl, by rfl, by rfl, fun _ => by rfl, by rfl, by rfl, by rfl, by rfl⟩

theorem test_meets_devices : st0.pkg.cfgOwner = none ∧ stOwner.pkg.cfgOwner = some 0 ∧
    (stOwner.world 63).live = true ∧ (stOwner.world 63).port = some 0 := by decide

theorem test_meets_worlds : stOwner.worlds.length = 64 ∧ (stOwner.world 62).live = false ∧
    stOwner.rangeGood 0xBDFFFF0000 0x10000 = true ∧ stOwner.rangeGood 0x10000 0x10000 = true ∧
    (∀ k, k < 64 → k ≠ 63 → ∀ g ∈ (stOwner.world k).grants, meets 0xBDFFFF0000 0x10000 g.1 g.2 = false) ∧
    (∀ c ∈ stOwner.ctxs, c.live = true → c.world = 0 → ∀ r ∈ stOwner.ctxRanges c, meets 0x10000 0x10000 r.1 r.2 = false) ∧
    (∀ g ∈ reservedRanges stOwner.lastDie, meets 0x10000 0x10000 g.1 g.2 = false) ∧ stOwner.pkg.formerly = [] ∧
    (∀ k, k < 64 → k ≠ 63 → (7 : BitVec 16) ∉ (stOwner.world k).auths) := by decide

theorem test_meets_contexts : (st0.world 0).live = true ∧ st0.ctx? 5 = none ∧
    ((st0.launchOf 0).any fun l => l.ctx == probeCtx) = true := by decide

/-- A context whose world has authority 0, with its code object, a data object without a record and one in a backed page. -/
def stFiles : State :=
  let d (obj : W64) (kind : BitVec 3) (extent : Nat) (closed : Bool) : DirEntry :=
    { obj := obj, kind := kind, extent := extent, closed := closed, retired := false, bytes := [], tensors := [] }
  let s := ((stPage .present).modWorld 0 fun w => { w with auths := [0], grants := (page0 * 65536, 65536) :: w.grants }).modCtx probeCtx fun c =>
    { c with dir := [d 1 2 64 true, d 2 0 8 true, d 3 0 0 false],
             recs := c.recs.map fun r => { r with run := page0 * 65536 } }
  { s with pkg := { s.pkg with dax := [{ port := 0, fn := 2, place := 4096, ctx := probeCtx, obj := 1, lo := 0, len := 64 }] } }

theorem test_meets_host_requests : ∃ c d r, stFiles.ctx? probeCtx = some c ∧ c.known (longName 2 1 0) = some d ∧ stFiles.recOf probeCtx d.obj = some r ∧
    (64 : W64).toNat ≤ d.size ∧ stFiles.allPresent (r.rangePages 0 0) = true ∧
    ((r.rangePages 0 0).all fun p => !stFiles.exempt p && (stFiles.frameOf p).hkind != 0) = true ∧
    ((r.rangePages 0 0).foldl State.depart stFiles).allAbsent (r.rangePages 0 0) = true ∧ (stFiles.world 0).live = true ∧ r.rangePages 0 0 ≠ [] :=
  ⟨_, _, _, by rfl, by rfl, by rfl, by decide, by rfl, by rfl, by rfl, by rfl, by decide⟩

theorem test_meets_launch_file : ∃ c obj,
    filePath (text "/ctx/4294967295/0000-000000000001.code" ++ [0]) = some (c, obj, 2) ∧
    (text "/ctx/4294967295/0000-000000000001.code" ++ [0]).length ≤ 1024 ∧ stKernel.behindWindow 0 (.launchFile q0.port ⟨q0.fn, q0.id⟩ [] 0 0 0 0) = false :=
  ⟨_, _, by rfl, by decide, by rfl⟩

/-- A request of the file system of port 0. -/
def q2 : HostReq := ⟨0, 2, 9⟩

theorem test_meets_files : ∃ c d e f, stFiles.exported q2 probeCtx = some c ∧
    filePath (text "/ctx/4294967295/0000-000000000004.data") = some (probeCtx, 4, 0) ∧
    (stFiles.world c.world).auths.contains ((4 : W64).extractLsb' 48 16) = true ∧ (∀ d ∈ c.dir, d.obj ≠ 4) ∧
    (c.entryOf 2 = some d ∧ c.recOf 2 = none ∧ d.closed = true ∧ 4 + 4 ≤ d.extent ∧ d.kind ≠ 2) ∧
    (c.entryOf 3 = some e ∧ c.recOf 3 = none ∧ e.closed = false ∧ e.kind ≠ 2) ∧
    c.entryOf 1 = some f ∧ f.kind = 2 ∧ ∃ r, c.recOf 1 = some r ∧ r.state = .bound :=
  ⟨_, _, _, _, by rfl, by rfl, by rfl, by decide, ⟨by rfl, by rfl, by rfl, by decide, by decide⟩, ⟨by rfl, by rfl, by rfl, by decide⟩,
    by rfl, by rfl, _, by rfl, by rfl⟩

theorem test_meets_mappings : ∃ c d r, stFiles.exported q2 probeCtx = some c ∧ c.entryOf 1 = some d ∧ c.recOf 1 = some r ∧
    0 + 64 ≤ r.extent ∧ 4096 + 64 ≤ 2 ^ 36 ∧ stFiles.allPresent (r.rangePages 0 64) = true ∧
    stFiles.mapped q2 4096 64 = some (probeCtx, r, 0) ∧ stFiles.daxBehind q2 (.daxAccess q2.port q2.fn q2.id 4096 64 none) = false ∧
    stFiles.daxBehind q2 (.daxAccess q2.port q2.fn q2.id 4096 64 (some [])) = false ∧ (∃ ps pad, stFiles.daxPlace probeCtx r 0 64 false = .ok ps pad) ∧
    (∃ ps pad, (stFiles.setFrame page0 { entry .present with wg := true }).daxPlace probeCtx r 0 64 true = .ok ps pad) ∧
    (stFiles.await (.daxAccess q2.port q2.fn q2.id 4100 1 none)).daxBehind q2 (.daxAccess q2.port q2.fn q2.id 4096 64 none) = true :=
  ⟨_, _, _, by rfl, by rfl, by rfl, by decide, by decide, by rfl, by rfl, by rfl, by rfl, ⟨_, _, by rfl⟩, ⟨_, _, by rfl⟩, by rfl⟩

/-- An upload of two bytes in two pieces. -/
theorem test_meets_recovery : ({ st0 with pkg := { st0.pkg with recovery := true } } : State).pkg.recovery = true ∧ 3 < st0.dies.length ∧
    40 ≤ (dieGood (List.range 192) 3).length ∧ (gridOf (List.range 192))[3 * 40 + 39]? = some 183 ∧
    (text "GARC" ++ toBytes 2 4 ++ [7]).take 4 = text "GARC" ∧ uploaded (text "GARC" ++ toBytes 2 4 ++ [7]) = none ∧
    uploaded (text "GARC" ++ toBytes 2 4 ++ [7, 8]) = some [7, 8] ∧ st0.pkg.recovery = false ∧ st0.pkg.d2dUp.getD 0 false = true ∧
    ({ st0 with pkg := { st0.pkg with d2dUp := [false] } } : State).pkg.d2dUp.getD 0 false = false := by decide
/-- A request of package 9 to this one. -/
def from9 (t : PacketType) (addr : Nat) (data : List Byte) : Packet :=
  { st0.packet 0 t 0 addr with src := 9, data := data, wt := .f64, aux := if t = .xa ∨ t = .atomic then 0 else 0x8000 }

theorem test_meets_packets : (([.read, .write, .atomic, .xa, .rstf, .grant, .recall, .page, .team, .advert, .launch, .commit, .abort, .manager] :
    List PacketType).all fun t =>
      let p := from9 t 0x1000 (List.replicate 8 1)
      (st0.fabric.inStream 9 p.tier).early.isEmpty && p.seq == (st0.fabric.inStream 9 p.tier).expect && !p.malformed &&
      (({ st0 with fabric := st0.fabric.setIn { st0.fabric.inStream 9 p.tier with early := [p] } } : State).perform p).2.isSome) = true := by
  rfl

theorem test_meets_duplicates : let p := from9 .read 0x1000 []
    let s := ran (.readPacket p) st0
    let x := s.fabric.inStream 9 p.tier
    seqBefore p.seq x.expect = true ∧ (x.replies.find? fun a => a.seq == p.seq).isSome = true ∧ ({ p with resv := 1 } : Packet).malformed = true := by decide

theorem test_meets_homes :
    (st0.isLocal 0xFFF8 = true ∧ st0.isLocal 0xFFFF = true ∧ st0.granted 0 0xFFF8 8 = true ∧ st0.fabric.holders 0 9 true = [] ∧
      st0.fabric.holders 0 9 false = [] ∧ st0.poisoned [(0xFFF8, 8)] = false) ∧
    (st0.isLocal 0xFEFF = true ∧ st0.granted 0 0xFEE0 288 = true ∧ st0.poisoned [(0xFEE0, 288)] = false) ∧
    (st0.isLocal 0x8000 = true ∧ st0.granted 0 0x8000 8 = true ∧ rangePages 0xFFF8 8 = [0] ∧
      st0.fabric.forwardOf (from9 .rstf 0xFFF8 []) 0 = none ∧
      st0.fabric.holders 0 st0.fabric.node true = []) ∧
    xaRanges (from9 .xa 0xFEE0 [1]) = [(0xFEE0, 288)] ∧
    (let q := { from9 .xa 0xFFE0 [1] with aux := 0x100 }
     xaRanges q = [(0xFFE0, 32), (0x100, 256)] ∧ st0.granted 0 0x100 256 = true ∧ st0.poisoned (xaRanges q) = false) ∧
    (let s := stPage .present
     s.frameFor 7 ((atFrameBit + 3 * 65536 - atFrameBit) / 65536) = some (page0, entry .present) ∧ s.poisoned [(65536, 64)] = false) ∧
    st0.isLocal (page0 * 65536) = false ∧ (st0.isLocal 0x10000 = true ∧ st0.isLocal 0x10007 = true ∧ st0.granted 0 0x10000 8 = false) := by
  decide

theorem test_meets_messages :
    st0.frameFor 9 0 = none ∧ st0.launchUnder 0x8000 0 = none ∧
    (∃ k, st0.checkRecord 0 0 = .error k) ∧
    (let s : State := { st0 with launches := st0.launches.map fun l => { l with committed := false, handle := 0x8000, origin := some 9 } }
     s.offered (from9 .commit 0x8000 (toBytes probeRecord.toNat 256)) = some 0) := ⟨by rfl, by rfl, ⟨_, by rfl⟩, by rfl⟩

/-- A heartbeat of package 9, heard by package `node` under a manager, and an announcement. -/
theorem test_meets_heartbeats : let f (node manager missed : Nat) : Fabric := { st0.fabric with node := node, manager := manager, missed := missed }
    (9 = (f 5 9 0).manager) ∧ (9 ≠ (f 10 10 0).manager ∧ 9 < (f 10 10 0).node ∧ 9 < (f 10 10 0).manager) ∧
    (9 ≠ (f 10 3 1).manager ∧ (f 10 3 1).missed ≠ 0) ∧
    (9 ≠ (f 5 5 3).manager ∧ ¬ (9 < (f 5 5 3).node ∧ (9 < (f 5 5 3).manager ∨ (f 5 5 3).missed ≠ 0))) ∧
    ((from9 .manager 0 []).opc = 0 ∧ ({ from9 .manager 0 [] with opc := 1 } : Packet).opc = 1) := by decide

/-- A request of this package to package 9 that has left. -/
def stAsked : State := st0.request (st0.packet 0 .page 9 0)

theorem test_meets_replies : let p : Packet := { from9 .page 0 [] with reply := true, aux := 0 }
    ∃ e, (stAsked.fabric.stream p.src.toNat p.tier).asked p = some e ∧ p.malformed = false ∧
      ((stAsked.fabric.stream 9 p.tier).sent.find? fun e => e.seq == 0).isSome = true := ⟨_, by rfl, by rfl, by rfl⟩

/-- A launch of two packages, offered by a host and not answered. -/
def stOffered : State :=
  { st0 with launches := st0.launches.map fun l =>
      { l with record := l.record + BitVec.ofNat 2048 (2 ^ (64 * 8 + 12)), committed := false, host := some ⟨0, 0, 0⟩ } }

theorem test_meets_timeout : ∃ x, stOffered.launches[0]? = some x ∧ x.committed = false ∧ x.completion = none ∧ x.origin = none ∧
    1 ∈ stOffered.otherPackages x.record ∧ 1 < 4096 ∧ (∀ a ∈ x.answers, a.1 ≠ 1) := ⟨_, by rfl, by rfl, by rfl, by rfl, by decide, by decide, by decide⟩

theorem test_meets_manager : st0.fabric.manager = st0.fabric.node ∧
    ({ st0 with fabric := { st0.fabric with manager := 1, missed := 3 } } : State).fabric.manager ≠ st0.fabric.node := by decide

/-- The manager knows of a link to node 9; its own tables are minimal, and empty ones are not. -/
theorem test_meets_tables : (let f : Fabric := { st0.fabric with graph := [(0, 35, 9), (9, 35, 0)] }
    f.tablesGood f.ownTables && !f.tablesGood [] && f.nodes.all fun n => decide (n < 4096)) = true := by rfl

/-- A route to node 9 by port 35 with six hops, and a keyed link there with a packet granted. -/
def stLink : State :=
  let s := st0.modLink 35 fun l => { l with state := .keyed, open_ := [(st0.packet 0 .page 9 0, 0)] }
  { s with fabric := { s.fabric with
    routes := [(9, BitVec.ofNat 128 (2 ^ 127 + 6 * 2 ^ 124 + (35 + 2 ^ 24) * (1 + 2 ^ 40 + 2 ^ 80)))]
    out := [st0.packet 0 .page 9 0] } }

/-- A frame with one packet as the other end of that link sends it. -/
def frameIn : Frame :=
  let l := stLink.fabric.link 35
  let part := [(from9 .page 0 [], 0)]
  let plain := part.map flitAt
  let k := l.key false
  { flits := Config.gcmCipher k.1 (frameIv k.2 0) plain, plain := part
    gtag := Config.gcmTag k.1 (frameIv k.2 0) plain (frameAad 0 0 plain.length false []), fseq := 0, aseq := 0, nak := false, cred := [] }

theorem test_meets_links : 35 < st0.fabric.links.length ∧ (2 ≤ min 2 2 ∧ 1 ≤ 2) ∧ (1 ≤ min 9 2 ∧ 1 ≤ 9) ∧
    ((ran (.linkTraining 35 ⟨1, 2⟩ ⟨9, 35, List.replicate 18 32⟩) st0).fabric.link 35).state = .trained ∧ (stLink.fabric.link 35).state = .keyed ∧
    (let p := st0.packet 0 .page 9 0
     stLink.fabric.portFor { p with dst := 9, hop := p.hop } = some 35 ∧
      (let s : State := { stLink with fabric := { stLink.fabric with
        routes := [(9, BitVec.ofNat 128 (2 ^ 127 + 5 * 2 ^ 124 + (35 + 2 ^ 24) * (1 + 2 ^ 40 + 2 ^ 80)))] } }
       s.fabric.portFor { p with hop := p.hop + 1 } = some 35 ∧ p.hop + 1 + s.fabric.hops p.dst.toNat ≤ 6) ∧
      st0.fabric.portFor { p with hop := p.hop + 1 } = none) ∧
    ((stLink.fabric.link 35).pick (stLink.fabric.candidates 35)).isSome = true ∧ (stLink.fabric.link 35).frameDue = true ∧
    (stLink.fabric.link 35).unacked = [] ∧ (({ stLink.fabric.link 35 with unacked := [frameIn] } : Link).unacked ≠ []) := by decide

theorem test_meets_frame : frameIn.fseq = (stLink.fabric.link 35).rxSeq ∧ (stLink.fabric.link 35).passes frameIn = true := by
  refine ⟨by rfl, ?_⟩
  simp [Link.passes, frameIn]

/-- The same frame with another tag, and one that comes out of order. -/
theorem test_meets_bad_frames : (stLink.fabric.link 35).passes { frameIn with gtag := ~~~frameIn.gtag } = false ∧
    (stLink.fabric.link 35).failed = false ∧ (stLink.fabric.link 35).rxSeq.toNat < ({ frameIn with fseq := 1 } : Frame).fseq.toNat := by
  refine ⟨?_, by rfl, by decide⟩
  simp [Link.passes, frameIn]

/-- A link that is open for frames and whose one packet has no credit. -/
theorem test_meets_credit_wait : (let s := stLink.modLink 35 fun l => { l with open_ := [], credits := List.replicate 18 0 }
    { s.fabric with links := s.fabric.links.set 35 { s.fabric.link 35 with waiting := [⟨36, 0, st0.packet 0 .page 9 0⟩] } }.creditWait 35) = true := by
  rfl
/-! ## States that meet the hypotheses of the statements about the step itself -/

theorem test_meets_step :
    (∃ w i, st0.slots.head? = some sl0 ∧ st0.slotWord sl0 = .word w ∧ decode w = .ok i) ∧
    (∃ w e, (stWord (2 ^ 96 - 1)).slotWord sl0 = .word w ∧ decode w = .error e ∧ sl0.wave < st0.waves.length ∧ sl0.lanes ≠ [] ∧
      sl0.replay = none ∧ ∀ l ∈ sl0.lanes, l < (st0.wave sl0.wave).threads.length) ∧
    (∃ i rest, ({ State.reset with agenda := [.nop] } : State).slots = [] ∧
      ({ State.reset with agenda := [.nop] } : State).agenda = i :: rest) ∧
    State.reset.slots = [] ∧ State.reset.agenda = [] :=
  ⟨⟨_, _, by rfl, by rfl, by rfl⟩, ⟨_, _, by rfl, by rfl, by decide, by decide, by rfl, by decide⟩, ⟨_, _, by rfl, by rfl⟩, by rfl, by rfl⟩

/-- A wave whose store is in order, is poisoned, and is not mapped; what the boot ROM hides under recovery. -/
theorem test_meets_step_waits : stMoved.slots.head? = some sl0 ∧ (∃ w i, stMoved.slotWord sl0 = .word w ∧ decode w = .ok i) ∧
    (∃ s, ({ stMoved with poison := [] } : State).refile 0 = .ok s) ∧ stMoved.refile 0 = .bad ∧
    (∃ wt post, (stMoved.modCtx probeCtx fun c => { c with roots := [] }).refile 0 = .wait wt post) ∧
    (let s : State := { State.reset with pkg := { State.reset.pkg with recovery := true } }
     s.hides (.takeConfig q0) = true ∧ s.hides (.takeConfig ⟨0, 1, 9⟩) = false) :=
  ⟨by rfl, ⟨_, _, by rfl, by rfl⟩, ⟨_, by rfl⟩, by rfl, ⟨_, _, by rfl⟩, by rfl, by rfl⟩

/-- `st0` with another byte at the end of its line. -/
def stTail (b : Byte) (c : Byte) : State := { st0 with mem := Memory.write st0.mem 61 [b, 0, c] }

/-- What `slotWord` reads for the head slot. -/
def lineNow (s : State) : Option (Bool × Bool) :=
  (s.ctx? (s.who sl0.wave 0 2).ctx).bind fun c => (c.codeRec sl0.pc).map fun r =>
    let line := s.lineVersion (r.run + (linePc sl0.pc - r.base.toNat))
    (lineCheck line, lineReserved line)

theorem test_meets_fetch :
    (∃ ps pad, st0.access (st0.who sl0.wave (sl0.lanes.headD 0) 2) (linePc sl0.pc) 64 64 .fetch = .ok ps pad) ∧
    lineNow (stTail 0 1) = some (false, false) ∧ lineNow (stTail 2 2) = some (true, true) ∧ lineNow st0 = some (true, false) :=
  ⟨⟨_, _, by rfl⟩, by rfl, by rfl, by rfl⟩

theorem test_meets_checks :
    (let i := Instr.iadd ⟨Hd.plain, 8, 1, 2, 0, .u32, .rne, false, false, false, false, 0⟩
     let g := (st0.modWave 0 fun wv => { wv with vBudget := 8 }).groupOf i sl0
     ownIllegal i g = false ∧ g.shape.ranges.all g.src.inBudget = false) ∧
    (let i := v .join 0 12 0 0 .b64
     ownIllegal i (st0.groupOf i sl0) = true ∧ st0.slots.head? = some sl0 ∧ (encode i).isSome = true) ∧
    (let i := Instr.ffma ⟨Hd.plain, 1, 2, 3, 64, .f32, .rne, false, false, false, false, 0⟩
     let s := ran (.mma (mmaForm false)) { stEng 9 0 with slots := [sl0] }
     let g := { s with slots := [sl0] : State }.groupOf i sl0
     g.shape.ranges.all g.src.inBudget = true ∧ g.src.pendingFor i ≠ [] ∧
      ∀ c ∈ { s with slots := [sl0] : State }.waveCmds g.w, c.state = .failed → c.id ∉ g.src.pendingFor i) ∧
    (let i := Instr.iadd ⟨Hd.plain, 1023, 1, 2, 0, .u32, .rne, false, false, false, false, 0⟩
     let s : State := { st0 with regPoison := [(0, 0, 1), (0, 31, 2), (0, 5, 3)] }
     let g := s.groupOf i sl0
     ownIllegal i g = false ∧ g.shape.ranges.all g.src.inBudget = true ∧ g.src.pendingFor i = [] ∧ s.hit g = [0, 31] ∧
      (s.sparedOf g).lanes ≠ []) ∧
    (let i := Instr.ld ⟨Hd.plain, 4, 16, 0, 0, 8, .b32, .none, .dev, .rlx⟩
     let s := { alone st0 with regPoison := [(0, 0, 17)] }
     let g := s.groupOf i slOne
     ownIllegal i g = false ∧ g.shape.ranges.all g.src.inBudget = true ∧ g.src.pendingFor i = [] ∧ s.hit g = g.lanes ∧ s.hit g ≠ []) := by decide

theorem test_meets_registers : (15 < 16 ∧ 15 ≠ 0) ∧ (({ num := 1020, kind := .q } : Opnd).num.toNat + OpKind.q.words ≤ 1024 ∧ 3 < OpKind.q.words) ∧
    (({ num := 1022, kind := .d } : Opnd).names .vec 1023 = true ∧ ({ num := 1022, kind := .d } : Opnd).names .vec 1021 = false) := by decide

theorem test_meets_steps : st0.Inv ∧ ∃ t, step st0 = .next t := ⟨⟨by rfl, by rfl⟩, _, by rfl⟩

end Sys2Proof.Tests
end

/-! SUPPORT. Control space (R6): the tiles after a change of one, lanes that leave a wait, the world block of a tile (R350, R351), and
which register an address names (R299, R350). -/

namespace Sys2Proof.Machine

/-! ## Tiles -/

theorem State.tile_modTile (s : State) (tile : Nat) (f : Tile → Tile) (h : tile < s.tiles.length) :
    (s.modTile tile f).tile tile = f (s.tile tile) := by
  simp only [State.tile, State.modTile_tiles, getD_modifyAt _ _ _ _ _ h, if_true]

@[simp] theorem State.wipe_tiles (s : State) (k n : Nat) : (s.wipe k n).tiles = s.tiles := rfl

theorem State.foldl_wipe_tiles (key : Nat → Nat) (n : Nat) (bs : List Nat) (s : State) :
    (bs.foldl (fun s b => s.wipe (key b) n) s).tiles = s.tiles :=
  foldl_inv (fun t : State => t.tiles = s.tiles) (fun t b => t.wipe (key b) n) (fun _ _ h => h) bs s rfl

/-! ## Lanes that leave a wait -/

@[simp] theorem State.resumeAll_tiles (s : State) (p : Thread → Bool) : (s.resumeAll p).tiles = s.tiles := rfl

theorem State.wave_resumeAll (s : State) (p : Thread → Bool) (w : Nat) : (s.resumeAll p).wave w = (s.wave w).resumeLanes p := by
  have hblank : Wave.blank = Wave.blank.resumeLanes p := rfl
  simp only [State.wave, State.resumeAll, List.getD_eq_getElem?_getD, List.getElem?_map]
  cases s.waves[w]? with
  | none => exact hblank
  | some wv => rfl

/-- A lane of a wave that passes the test leaves its wait. -/
theorem Wave.wait_resumeLanes (wv : Wave) (p : Thread → Bool) (l : Nat) (hl : l < wv.threads.length) (hp : p (wv.thread l) = true) :
    ((wv.resumeLanes p).thread l).wait = .none ∨ ((wv.resumeLanes p).thread l).wait = .trapped := by
  have hthread : wv.thread l = wv.threads[l] := by simp [Wave.thread, hl]
  rw [hthread] at hp
  simp only [Wave.resumeLanes, Wave.thread, List.getD_eq_getElem?_getD, List.getElem?_mapIdx, List.getElem?_eq_getElem hl,
    Option.map_some, Option.getD_some, if_pos hp]
  split
  · exact .inr rfl
  · exact .inl rfl

/-- A lane that waits for something and passes the test goes on; a lane that does not exist waits for nothing. -/
theorem State.resumeAll_goesOn (s : State) (p : Thread → Bool) (w l : Nat) (hwait : (s.thread w l).wait ≠ .none)
    (hp : p (s.thread w l) = true) : goesOn (s.resumeAll p) w l := by
  have hl : l < (s.wave w).threads.length := by
    by_contra hout
    exact hwait (by simp [State.thread, Wave.thread, hout, Thread.blank])
  unfold goesOn State.thread
  rw [State.wave_resumeAll]
  exact Wave.wait_resumeLanes _ p l hl hp

/-- Every lane that waited for the arrays of a tile goes on. -/
theorem State.wakeArray_goesOn (s : State) (tile w l : Nat) (h : (s.thread w l).wait = .array tile) : goesOn (s.wakeArray tile) w l :=
  s.resumeAll_goesOn _ w l (by simp [h]) (by simp [h])

/-! ## The world block (R350, R351) -/

theorem State.tile_assignWorlds (s : State) (tile : Nat) (new : Tile) (h : tile < s.tiles.length) :
    (s.assignWorlds tile new).tile tile =
      { new with zeroing := addAll new.zeroing (changedBanks (s.tile tile) new)
                 zeroParts := addAll new.zeroParts (changedParts (s.tile tile) new) } := by
  unfold State.assignWorlds
  exact State.tile_modTile _ _ _ (by rwa [State.foldl_wipe_tiles])

/-- The first ground of R351: a reserved bit that is not zero. -/
theorem State.writeWorlds_reserved (s : State) (tile off : Nat) (v : W64) (hoff : off ∈ [0, 8, 16]) (hv : reservedWord off v = true) :
    s.writeWorlds tile off v = s.modTile tile fun x => { x with refused := true } := by
  have hword : ¬ (off ≠ 0 ∧ off ≠ 8 ∧ off ≠ 16) := by simp at hoff; omega
  simp [State.writeWorlds, hword, hv]

/-- None of the grounds of R351: the write takes effect. -/
theorem State.writeWorlds_accepted (s : State) (tile off : Nat) (v : W64) (hoff : off ∈ [0, 8, 16]) (hv : reservedWord off v = false)
    (hparts : ∀ p, p < 6 → s.partBusy tile p = false)
    (hbanks : ∀ b, b < 32 → (s.tile tile).bankOwner b = ((s.tile tile).withWord off v).bankOwner b ∨ s.inRegion tile b = false) :
    s.writeWorlds tile off v = s.assignWorlds tile ((s.tile tile).withWord off v) := by
  have hword : ¬ (off ≠ 0 ∧ off ≠ 8 ∧ off ≠ 16) := by simp at hoff; omega
  have hidle : (changedParts (s.tile tile) ((s.tile tile).withWord off v)).any (s.partBusy tile) = false := by
    refine List.any_eq_false.mpr fun p hp => ?_
    simp [hparts p (List.mem_range.mp (List.mem_filter.mp hp).1)]
  have hfree : (List.range 32).any (fun b =>
      (s.tile tile).bankOwner b != ((s.tile tile).withWord off v).bankOwner b && s.inRegion tile b) = false := by
    refine List.any_eq_false.mpr fun b hb => ?_
    rcases hbanks b (List.mem_range.mp hb) with howner | hregion
    · simp [howner]
    · simp [hregion]
  simp [State.writeWorlds, hword, hv, hidle, hfree]

theorem State.tile_zeroed (s : State) (tile : Nat) (h : tile < s.tiles.length) :
    (s.zeroed tile).tile tile = { s.tile tile with zeroing := [], zeroParts := [] } := s.tile_modTile tile _ h

/-! ## Registers at their addresses (R299, R350) -/

theorem controlPlace_freezeReg {die k off : Nat} (hdie : die < 4) (hk : k < 48) (hoff : off < 64) :
    controlPlace (0xF000000000100000 + die * 2 ^ 32 + k * 64 + off) = .freezeReg (die * 48 + k) off := by
  have hhigh : (0xF000000000100000 + die * 2 ^ 32 + k * 64 + off - 0xF000000000000000) / 2 ^ 32 = die := by omega
  have hlow : (0xF000000000100000 + die * 2 ^ 32 + k * 64 + off) % 2 ^ 32 = 0x100000 + (k * 64 + off) := by omega
  simp only [controlPlace, hhigh, hlow, Nat.add_sub_cancel_left]
  rw [if_neg (by omega), if_pos (by omega), show (k * 64 + off) / 64 = k by omega, show (k * 64 + off) % 64 = off by omega]

theorem controlPlace_worldReg {die k off : Nat} (hdie : die < 4) (hk : k < 48) (hoff : off < 32) :
    controlPlace (0xF000000000200000 + die * 2 ^ 32 + k * 32 + off) = .worldReg (die * 48 + k) off := by
  have hhigh : (0xF000000000200000 + die * 2 ^ 32 + k * 32 + off - 0xF000000000000000) / 2 ^ 32 = die := by omega
  have hlow : (0xF000000000200000 + die * 2 ^ 32 + k * 32 + off) % 2 ^ 32 = 0x200000 + (k * 32 + off) := by omega
  simp only [controlPlace, hhigh, hlow, Nat.add_sub_cancel_left]
  rw [if_neg (by omega), if_neg (by omega), if_pos (by omega), show (k * 32 + off) / 32 = k by omega,
    show (k * 32 + off) % 32 = off by omega]

theorem State.readControl_of_freezeReg (s : State) {addr tile off : Nat} (h : controlPlace addr = .freezeReg tile off) :
    s.readControl addr = (s, s.readFreezeReg tile off) := by rw [State.readControl, h]

theorem State.readControl_of_worldReg (s : State) {addr tile off : Nat} (h : controlPlace addr = .worldReg tile off) :
    s.readControl addr = s.readWorlds tile off := by rw [State.readControl, h]

theorem State.writeControl_of_freezeReg (s : State) {addr tile off : Nat} (v : W64) (h : controlPlace addr = .freezeReg tile off) :
    s.writeControl addr v = s.writeFreezeReg tile off v := by rw [State.writeControl, h]

theorem State.readControl_freezeReg (s : State) {die k off : Nat} (hdie : die < 4) (hk : k < 48) (hoff : off < 64) :
    s.readControl (0xF000000000100000 + die * 2 ^ 32 + k * 64 + off) = (s, s.readFreezeReg (die * 48 + k) off) :=
  s.readControl_of_freezeReg (controlPlace_freezeReg hdie hk hoff)

theorem State.readControl_worldReg (s : State) {die k off : Nat} (hdie : die < 4) (hk : k < 48) (hoff : off < 32) :
    s.readControl (0xF000000000200000 + die * 2 ^ 32 + k * 32 + off) = s.readWorlds (die * 48 + k) off :=
  s.readControl_of_worldReg (controlPlace_worldReg hdie hk hoff)

theorem exec_registerWrite_freezeReg (s : State) {die k off : Nat} (v : W64) (hdie : die < 4) (hk : k < 48) (hoff : off < 64) :
    exec (.registerWrite (BitVec.ofNat 64 (0xF000000000100000 + die * 2 ^ 32 + k * 64 + off)) v) s =
      .next (s.writeFreezeReg (die * 48 + k) off v) := by
  have haddr : (BitVec.ofNat 64 (0xF000000000100000 + die * 2 ^ 32 + k * 64 + off)).toNat =
      0xF000000000100000 + die * 2 ^ 32 + k * 64 + off := by
    rw [BitVec.toNat_ofNat, Nat.mod_eq_of_lt (by omega)]
  show Host.Outcome.next (s.writeControl _ v) = _
  rw [haddr, s.writeControl_of_freezeReg v (controlPlace_freezeReg hdie hk hoff)]

/-- A comparator's register is plain: a write to it is that comparator. -/
theorem State.writeFreezeReg_fzpc (s : State) (tile n : Nat) (v : W64) (hn : n < 4) :
    s.writeFreezeReg tile (16 + n * 8) v = s.modTile tile fun t => { t with fzpc := t.fzpc.set n v } := by
  match n, hn with
  | 0, _ | 1, _ | 2, _ | 3, _ => rfl

theorem State.readFreezeReg_fzpc (s : State) (tile n : Nat) (hn : n < 4) :
    s.readFreezeReg tile (16 + 8 * n) = (s.tile tile).fzpc.getD n 0 := by
  match n, hn with
  | 0, _ | 1, _ | 2, _ | 3, _ => rfl

/-- OP of the word is 4 and its other fields are zero; while the unit is busy the word and the command alike are ignored (R299). -/
theorem State.writeFzcmd_stop (s : State) (tile : Nat) : Host.Outcome.next (s.writeFzcmd tile 0x400) = exec (.stop tile) s := by
  show _ = execStop tile s
  by_cases hbusy : (s.tile tile).busy = true
  · simp only [State.writeFzcmd, execStop, State.fzCommand, hbusy, if_true]
  · simp only [State.writeFzcmd, hbusy]
    rfl

/-! ## Writes to control space, and the end of zeroing -/

theorem exec_worldConfigWrite (tile off : Nat) (v : W64) (s : State) :
    exec (.worldConfigWrite tile off v) s = .next (s.writeWorlds tile off v) := rfl

/-- A write of the partitions' worlds that R351 does not refuse. -/
theorem worldConfigWrite_pworld (s : State) (tile : Nat) (v : W64) (htile : tile < s.tiles.length) (hv : v.toNat < 2 ^ 36)
    (hparts : ∀ p, p < 6 → s.partBusy tile p = false)
    (hbanks : ∀ b, b < 32 → (s.tile tile).bankOwner b = ((s.tile tile).withWord 0 v).bankOwner b ∨ s.inRegion tile b = false) :
    ∃ t, exec (.worldConfigWrite tile 0 v) s = .next t ∧ (t.tile tile).pworld = v.setWidth 36 ∧
      (t.tile tile).bown0 = (s.tile tile).bown0 ∧ (t.tile tile).refused = (s.tile tile).refused := by
  have hreserved : reservedWord 0 v = false := by simpa [reservedWord] using hv
  refine ⟨s.assignWorlds tile ((s.tile tile).withWord 0 v), ?_, ?_⟩
  · rw [exec_worldConfigWrite, s.writeWorlds_accepted tile 0 v (by simp) hreserved hparts hbanks]
  · rw [s.tile_assignWorlds tile _ htile]
    exact ⟨rfl, rfl, rfl⟩

/-- The end of zeroing lets the tile's arrays be used, and what waited for them goes on. -/
theorem arrayZeroingDone_effect (s : State) (tile : Nat) (htile : tile < s.tiles.length) :
    ∃ t, exec (.arrayZeroingDone tile) s = .next t ∧ (t.tile tile).zeroing = [] ∧ (t.tile tile).zeroParts = [] ∧
      ∀ w l, (s.thread w l).wait = .array tile → goesOn t w l := by
  refine ⟨s.zeroed tile, rfl, ?_, ?_, fun w l hwait => State.wakeArray_goesOn _ tile w l hwait⟩
  · rw [s.tile_zeroed tile htile]
  · rw [s.tile_zeroed tile htile]

/-- A write to a comparator's register changes that comparator and no other part of the package. -/
theorem registerWrite_fzpc (s : State) (die k n : Nat) (v : W64) (hdie : die < 4) (hk : k < 48) (hn : n < 4)
    (htiles : s.tiles.length = 192) (hfzpc : (s.tile (die * 48 + k)).fzpc.length = 4) :
    ∃ t, exec (.registerWrite (BitVec.ofNat 64 (0xF000000000100000 + die * 2 ^ 32 + k * 64 + 16 + n * 8)) v) s = .next t ∧
      (t.tile (die * 48 + k)).fzpc.getD n 0 = v ∧ t = { s with tiles := t.tiles } := by
  refine ⟨s.modTile (die * 48 + k) fun t => { t with fzpc := t.fzpc.set n v }, ?_, ?_, rfl⟩
  · rw [Nat.add_assoc _ 16, exec_registerWrite_freezeReg s v hdie hk (by omega), s.writeFreezeReg_fzpc _ n v hn]
  · rw [s.tile_modTile _ _ (by omega)]
    simp [hfzpc, hn]

/-- Settles O49: the grounds of R351 for the world block, the addresses of R299 and R350 for the registers. -/
theorem controlSpaceWrites : Obligations.ControlSpaceWrites := by
  unfold Obligations.ControlSpaceWrites
  refine ⟨?reserved, worldConfigWrite_pworld, ?lastWord, ?comparator, ?stop, ?reads⟩
  case reserved =>
    intro s tile off v _ hoff hv
    rw [exec_worldConfigWrite, s.writeWorlds_reserved tile off v hoff hv]
  case lastWord =>
    exact fun s tile htile => ⟨⟨_, rfl, rfl, rfl, rfl⟩, arrayZeroingDone_effect s tile htile⟩
  case comparator =>
    exact fun s die k n v => registerWrite_fzpc s die k n v
  case stop =>
    intro s die k hdie hk
    exact (exec_registerWrite_freezeReg s (off := 0) 0x400 hdie hk (by decide)).trans (s.writeFzcmd_stop _)
  case reads =>
    intro s die k n hdie hk hn
    refine ⟨s.readControl_freezeReg (off := 0) hdie hk (by decide), s.readControl_freezeReg (off := 8) hdie hk (by decide), ?_,
      s.readControl_worldReg (off := 0) hdie hk (by decide)⟩
    rw [Nat.add_assoc _ 16, s.readControl_freezeReg hdie hk (by omega), s.readFreezeReg_fzpc _ n hn]

end Sys2Proof.Machine

/-! SUPPORT. Registers and their shape tags (R11, R12, R13, R18, R19): what a write leaves in every register, and the tags it sets. -/

namespace Sys2Proof.Machine

/-- Settles O5: a register file is a sparse map (R11, R18), a predicate one bit of a word, of which `p0` is none (R19). -/
theorem registersHoldWhatIsWritten : Obligations.RegistersHoldWhatIsWritten := by
  unfold Obligations.RegistersHoldWhatIsWritten
  refine ⟨fun t r x => ⟨?_, fun k hk => ?_⟩, fun wv r x => ⟨?_, fun k hk => ?_⟩, fun t n b hn h0 => ⟨?_, fun k hk => ?_⟩, ?p0⟩
  · rw [Thread.v_setV, if_pos rfl]
  · rw [Thread.v_setV, if_neg hk]
  · rw [Wave.sreg_setS, if_pos rfl]
  · rw [Wave.sreg_setS, if_neg hk]
  · rw [Thread.p_setP t n n b hn, if_pos ⟨rfl, h0⟩]
  · rw [Thread.p_setP t n k b hn, if_neg fun h => hk h.1]
  case p0 => exact fun t b => ⟨rfl, rfl⟩

/-! ## Shape tags (R12, R13) -/

theorem Wave.tag_setTag (wv : Wave) {r j : Nat} (t : Tag) (b c : Nat) (hr : r < 1024) (hj : j < 1024) :
    (wv.setTag b r t).tag c j = if c = b ∧ j = r then t else wv.tag c j := by
  have hkey : c * 1024 + j = b * 1024 + r ↔ c = b ∧ j = r := by omega
  simp only [Wave.tag, Wave.setTag, Sparse.get_set, hkey]

/-- The tag that a write by some lanes gives in a block: that of the instruction where it fills the block (R13). -/
def Wave.newTag (wv : Wave) (lanes : List Nat) (tag : Nat → Tag) (b : Nat) : Tag :=
  if wv.full lanes b = true then tag b else .general

/-- The part of `retag` for one block. -/
def Wave.retagBlock (wv : Wave) (lanes : List Nat) (r n : Nat) (tag : Nat → Tag) (b : Nat) : Wave :=
  (List.range n).foldl (fun wv k => wv.setTag b (r + k) (wv.newTag lanes tag b)) wv

theorem Wave.retag_eq_blocks (wv : Wave) (lanes : List Nat) (r n : Nat) (tag : Nat → Tag) :
    wv.retag lanes r n tag =
      (wv.blocks.filter (wv.touches lanes)).foldl (fun wv b => wv.retagBlock lanes r n tag b) wv := rfl

theorem Wave.retagBlock_succ (wv : Wave) (lanes : List Nat) (r n : Nat) (tag : Nat → Tag) (b : Nat) :
    wv.retagBlock lanes r (n + 1) tag b =
      (wv.retagBlock lanes r n tag b).setTag b (r + n) ((wv.retagBlock lanes r n tag b).newTag lanes tag b) := by
  simp only [Wave.retagBlock, List.range_succ, List.foldl_append, List.foldl_cons, List.foldl_nil]

/-- What a write gives depends on the wave's threads and width alone, which tags are no part of. -/
theorem Wave.newTag_retagBlock (wv : Wave) (lanes : List Nat) (r n : Nat) (tag : Nat → Tag) (b c : Nat) :
    (wv.retagBlock lanes r n tag b).newTag lanes tag c = wv.newTag lanes tag c := by
  induction n with
  | zero => rfl
  | succ n ih => rw [Wave.retagBlock_succ]; exact ih

theorem Wave.tag_retagBlock (wv : Wave) (lanes : List Nat) {r n j : Nat} (tag : Nat → Tag) (b c : Nat) (hr : r + n ≤ 1024) (hj : j < 1024) :
    (wv.retagBlock lanes r n tag b).tag c j =
      if c = b ∧ r ≤ j ∧ j < r + n then wv.newTag lanes tag b else wv.tag c j := by
  induction n with
  | zero => rw [if_neg (by omega)]; rfl
  | succ n ih =>
    have hrange : (c = b ∧ r ≤ j ∧ j < r + (n + 1)) ↔ (c = b ∧ j = r + n) ∨ (c = b ∧ r ≤ j ∧ j < r + n) := by omega
    rw [Wave.retagBlock_succ, Wave.tag_setTag _ _ _ _ (by omega) hj, Wave.newTag_retagBlock, ih (by omega)]
    simp only [hrange, ite_or]

theorem Wave.tag_retagBlocks (lanes : List Nat) {r n j : Nat} (tag : Nat → Tag) (c : Nat) (hr : r + n ≤ 1024) (hj : j < 1024)
    (bs : List Nat) (wv : Wave) :
    (bs.foldl (fun wv b => wv.retagBlock lanes r n tag b) wv).tag c j =
      if c ∈ bs ∧ r ≤ j ∧ j < r + n then wv.newTag lanes tag c else wv.tag c j := by
  induction bs generalizing wv with
  | nil => simp
  | cons b bs ih =>
    rw [List.foldl_cons, ih, Wave.newTag_retagBlock, Wave.tag_retagBlock _ _ _ _ _ hr hj]
    by_cases hin : r ≤ j ∧ j < r + n
    · by_cases hb : c = b
      · subst hb; simp [hin]
      · simp [hin, hb]
    · simp [hin]

/-- The tags after a write by some lanes: new ones in the blocks that it touches, of the registers that it writes. -/
theorem Wave.tag_retag (wv : Wave) (lanes : List Nat) {r n j : Nat} (tag : Nat → Tag) (c : Nat) (hr : r + n ≤ 1024) (hj : j < 1024) :
    (wv.retag lanes r n tag).tag c j =
      if (c ∈ wv.blocks ∧ wv.touches lanes c = true) ∧ r ≤ j ∧ j < r + n then wv.newTag lanes tag c else wv.tag c j := by
  rw [Wave.retag_eq_blocks, Wave.tag_retagBlocks lanes tag c hr hj]
  simp only [List.mem_filter]

theorem Thread.status_setWords (t : Thread) (r n : Nat) (x : W128) : (t.setWords r n x).status = t.status := by
  rw [Thread.setWords_fields]

/-- A change of threads that leaves each one's status leaves what a write gives. -/
theorem Wave.newTag_modLanes (wv : Wave) (ls : List Nat) (f : Nat → Thread → Thread) (hf : ∀ l t, (f l t).status = t.status)
    (lanes : List Nat) (tag : Nat → Tag) (b : Nat) : (wv.modLanes ls f).newTag lanes tag b = wv.newTag lanes tag b := by
  have hstatus : (wv.modLanes ls f).threads.map (·.status) = wv.threads.map (·.status) := by
    refine List.ext_getElem (by simp) fun k h1 h2 => ?_
    simp only [Wave.modLanes, List.getElem_map, List.getElem_mapIdx]
    split
    · exact hf _ _
    · rfl
  have hall : ∀ x : Wave, x.whole = (x.threads.map (·.status)).all (· != .absent) := fun x => by
    rw [List.all_map]; rfl
  have hwhole : (wv.modLanes ls f).whole = wv.whole := by rw [hall, hall, hstatus]
  unfold Wave.newTag Wave.full
  rw [hwhole]
  rfl

/-- The tags after an operand of `n` vector registers is written. -/
theorem Wave.tag_put_vec (wv : Wave) (o : Opnd) (lanes : List Nat) (val : Nat → W128) (tag : Nat → Tag) (c : Nat) {j : Nat}
    (ho : o.kind = .v ∨ o.kind = .d ∨ o.kind = .q) (hr : o.num.toNat + o.kind.words ≤ 1024) (hj : j < 1024) :
    (wv.put o lanes val tag).tag c j =
      if (c ∈ wv.blocks ∧ wv.touches lanes c = true) ∧ o.num.toNat ≤ j ∧ j < o.num.toNat + o.kind.words then wv.newTag lanes tag c
      else wv.tag c j := by
  have hput : wv.put o lanes val tag =
      (wv.modLanes lanes fun l t => t.setWords o.num.toNat o.kind.words (val l)).retag lanes o.num.toNat o.kind.words tag := by
    rcases ho with h | h | h <;> simp only [Wave.put, h]
  rw [hput, Wave.tag_retag _ _ _ _ hr hj, Wave.newTag_modLanes _ _ _ fun l t => Thread.status_setWords _ _ _ _]
  rfl

/-- An operand that is no vector register is written without a tag. -/
theorem Wave.tags_put_other (wv : Wave) (o : Opnd) (lanes : List Nat) (val : Nat → W128) (tag : Nat → Tag)
    (ho : ¬ (o.kind = .v ∨ o.kind = .d ∨ o.kind = .q)) : (wv.put o lanes val tag).tags = wv.tags := by
  obtain ⟨k, n⟩ := o
  cases k with
  | v | d | q => simp at ho
  | none | lvl | imm | p => rfl
  | s | sd =>
    cases lanes with
    | nil => rfl
    | cons l ls =>
      simp only [Wave.put]
      rw [Wave.setS_fields]

/-- Settles O6: one law for the tags after a write, of which the three cases of R13 are the branches. -/
theorem shapeTagsFollowWrites : Obligations.ShapeTagsFollowWrites := by
  unfold Obligations.ShapeTagsFollowWrites
  refine ⟨?written, ?others, ?uniform⟩
  case written =>
    intro wv o lanes val tag b k ho hk hr
    rw [wv.tag_put_vec o lanes val tag b ho hr (by omega)]
    simp [hk, Wave.newTag]
  case others =>
    intro wv o lanes val tag b r hr hbound hnames
    by_cases ho : o.kind = .v ∨ o.kind = .d ∨ o.kind = .q
    · rw [wv.tag_put_vec o lanes val tag b ho hbound hr, if_neg]
      rintro ⟨-, hle, hlt⟩
      rcases ho with h | h | h <;> simp [Opnd.names, Opnd.ranges, OpKind.words, h, hle] at hnames hlt <;> omega
    · unfold Wave.tag
      rw [wv.tags_put_other o lanes val tag ho]
  case uniform =>
    intro g b
    unfold Grp.tag Grp.uniform
    split <;> simp_all [and_assoc]

end Sys2Proof.Machine

/-! SUPPORT. Every operation answers a next state: each word is issued (R61), and every other operation's meaning ends in a next state in
each of its cases (R34, R39). -/

namespace Sys2Proof.Machine

/-! ## Every instruction is issued (R61) -/

/-- A meaning is the issue of an instruction, with what beside the word makes it illegal, and some effect. -/
def IssuesBy (i : Instr) (run : State → Out) : Prop :=
  ∃ k : Grp → State → State, ∀ s, run s = issue i s (ownIllegal i) k

section
variable {i : Instr} (h : ownIllegal i = lawful)
include h

theorem issuesBy_lawful (k : Grp → State → State) : IssuesBy i fun s => issue i s lawful k := ⟨k, fun s => by rw [h]⟩
theorem issuesBy_lanesOp (val : Grp → Nat → W128) (tag : Grp → Nat → Tag) : IssuesBy i fun s => lanesOp i s val tag :=
  issuesBy_lawful h _
theorem issuesBy_flagsOp (val : Grp → Nat → W128 × BitVec 5) : IssuesBy i fun s => flagsOp i s val := issuesBy_lawful h _

theorem issuesBy_sumOp (t : Ty) (sat : Bool) (b : Grp → Nat → W128) (x : Int → Int → Int) : IssuesBy i (sumOp i t sat b x) :=
  issuesBy_lanesOp h _ _
theorem issuesBy_intOp (f : VForm) (x : Int → Int → Int) : IssuesBy i (intOp i f x) := issuesBy_lanesOp h _ _
theorem issuesBy_intImmOp (f : IForm) (x : Int → Int → Int) : IssuesBy i (intImmOp i f x) := issuesBy_lanesOp h _ _
theorem issuesBy_intOp3 (f : VForm) (x : Int → Int → Int → Int) : IssuesBy i (intOp3 i f x) := issuesBy_lanesOp h _ _
theorem issuesBy_bitOp (x : W128 → W128 → W128) : IssuesBy i (bitOp i x) := issuesBy_lanesOp h _ _
theorem issuesBy_bitImmOp (f : IForm) (x : W128 → W128 → W128) : IssuesBy i (bitImmOp i f x) := issuesBy_lanesOp h _ _
theorem issuesBy_shiftOp (f : VForm) (x : Nat → W128 → Nat → W128) : IssuesBy i (shiftOp i f x) := issuesBy_lanesOp h _ _
theorem issuesBy_shiftImmOp (f : IForm) (x : Nat → W128 → Nat → W128) : IssuesBy i (shiftImmOp i f x) := issuesBy_lanesOp h _ _
theorem issuesBy_fltOp (f : VForm) (x : Nat → Nat → FRes) : IssuesBy i (fltOp i f x) := issuesBy_flagsOp h _
theorem issuesBy_fltImmOp (f : IForm) (x : Nat → Nat → FRes) : IssuesBy i (fltImmOp i f x) := issuesBy_flagsOp h _
theorem issuesBy_fltOp1 (f : VForm) (x : Nat → FRes) : IssuesBy i (fltOp1 i f x) := issuesBy_flagsOp h _
end

theorem exec_issuesBy (i : Instr) (h : (encode i).isSome = true) : IssuesBy i (exec i) := by
  unfold exec
  cases i
  all_goals dsimp only
  case nop | iaddc | rdsr | bra | brx | call | callx | ret | yield | exit | hpush | hpop | resumet | resumec | resumek | dropt | tinfo
      | trap | ld | st | ldp | stp | ldt | pref | nameof | atom | atomc | red | rstf | exadd | exclr | exrnd | fence | cbdef | cbacq |
      cbrel | waitp | icinv | ifence | cpyw | mma | mmasp | cwait | tset | tget | tseal | publ | cctl | halt =>
    exact ⟨_, fun _ => rfl⟩
  case iadd | iaddImm | isub | isubImm => exact issuesBy_sumOp rfl _ _ _ _
  case imul | imulhi | idiv | irem | imin | imax | iabs | ineg => exact issuesBy_intOp rfl _ _
  case imulImm | iminImm | imaxImm => exact issuesBy_intImmOp rfl _ _
  case imad | iadd3 => exact issuesBy_intOp3 rfl _ _
  case lea | icmp | icmpImm | isel | not | lop3 | shl | shlImm | bfe | bfi | popc | clz | brev | fclass | mov | movi | shuf | bcast |
      vote | shp | pnot | pmov | ptreq =>
    exact issuesBy_lanesOp rfl _ _
  case and | or | xor | pand | por | pxor => exact issuesBy_bitOp rfl _
  case andImm | orImm | xorImm => exact issuesBy_bitImmOp rfl _ _
  case shr | sar | rot => exact issuesBy_shiftOp rfl _ _
  case shrImm | sarImm | rotImm => exact issuesBy_shiftImmOp rfl _ _
  case fadd | fsub | fmul | fmin | fmax | fdiv => exact issuesBy_fltOp rfl _ _
  case faddImm | fsubImm | fmulImm | fminImm | fmaxImm => exact issuesBy_fltImmOp rfl _ _
  case ffma | fcmp | fcmpImm | fscale | cvt => exact issuesBy_flagsOp rfl _
  case fabs | fneg | frnd | fsqrt | frcp | frsq | fex2 | flg2 | fsin | fcos => exact issuesBy_fltOp1 rfl _ _
  case ballot | join | perf | bar | bara | barw | cpy | cpym => exact ⟨_, fun _ => rfl⟩
  all_goals cases h

/-! ## Every operation answers a next state (R34, R39) -/

/-- An outcome that is a next state. -/
def Answers (o : Out) : Prop := ∃ t, o = .next t

theorem answers_next (s : State) : Answers (.next s) := ⟨s, rfl⟩

theorem answers_ite {c : Prop} [Decidable c] {a b : Out} (ha : Answers a) (hb : Answers b) : Answers (if c then a else b) := by
  split
  · exact ha
  · exact hb

/-- An instruction's issue answers. -/
theorem IssuesBy.answers {i : Instr} {run : State → Out} (h : IssuesBy i run) (s : State) : Answers (run s) := by
  obtain ⟨k, hk⟩ := h
  obtain ⟨t, ht, -⟩ := issue_next i s (ownIllegal i) k
  exact ⟨t, (hk s).trans ht⟩


/-! Operations with several cases of their own: one leaf for each. -/

theorem execActiveSetExchange_answers (tile part : Nat) (s : State) : Answers (execActiveSetExchange tile part s) := by
  unfold execActiveSetExchange
  split <;> exact answers_next _

theorem execTrapDelivery_answers (wave : Nat) (s : State) : Answers (execTrapDelivery wave s) := by
  unfold execTrapDelivery
  dsimp only
  split <;> exact answers_next _

theorem execWaitpRelease_answers (wave lane : Nat) (s : State) : Answers (execWaitpRelease wave lane s) := by
  unfold execWaitpRelease
  refine answers_ite ?_ (answers_next _)
  split <;> exact answers_next _

theorem execCommandFinish_answers (tile cmd : Nat) (s : State) : Answers (execCommandFinish tile cmd s) := by
  unfold execCommandFinish
  split
  · exact answers_next _
  · exact answers_ite (answers_next _) (answers_ite (answers_next _) (answers_ite (answers_ite (answers_next _) (answers_next _))
      (answers_ite (answers_next _) (answers_next _))))

theorem execFaultAnswer_answers (die : Nat) (seq : W32) (status : FaultStatus) (fix : Option W64) (s : State) :
    Answers (execFaultAnswer die seq status fix s) := by
  unfold execFaultAnswer
  split
  · exact answers_next _
  · dsimp only
    split
    · exact answers_next _
    · refine answers_ite ?_ (answers_ite ?_ (answers_next _))
      · split <;> exact answers_next _
      · split <;> exact answers_next _

theorem execCodeBind_answers (ctx : Nat) (obj : W64) (ok : Bool) (s : State) : Answers (execCodeBind ctx obj ok s) := by
  unfold execCodeBind
  split
  · exact answers_next _
  · exact answers_ite (answers_next _) (answers_ite (answers_next _) (answers_next _))

theorem execLaunchEligibility_answers (launch : Nat) (s : State) : Answers (execLaunchEligibility launch s) := by
  unfold execLaunchEligibility
  split
  · exact answers_next _
  · refine answers_ite (answers_next _) ?_
    split
    · exact answers_next _
    · exact answers_ite (answers_next _) (answers_next _)

theorem execDispatchRound_answers (die : Nat) (grants : List Placement) (s : State) : Answers (execDispatchRound die grants s) := by
  unfold execDispatchRound
  split <;> exact answers_next _

theorem execLaunchAging_answers (launch : Nat) (s : State) : Answers (execLaunchAging launch s) := by
  unfold execLaunchAging
  split
  · exact answers_next _
  · exact answers_ite (answers_next _) (answers_next _)

theorem execTeamTransfer_answers (team die : Nat) (accepted : Bool) (s : State) : Answers (execTeamTransfer team die accepted s) := by
  unfold execTeamTransfer
  split
  · exact answers_next _
  · exact answers_ite (answers_next _) (answers_ite (answers_next _) (answers_next _))

theorem execShareComplete_answers (launch : Nat) (s : State) : Answers (execShareComplete launch s) := by
  unfold execShareComplete
  split
  · exact answers_next _
  · refine answers_ite (answers_next _) ?_
    split
    · exact answers_next _
    · split <;> exact answers_next _

theorem execBecalm_answers (team : Nat) (places : CalmPlaces) (s : State) : Answers (execBecalm team places s) := by
  unfold execBecalm
  dsimp only
  split
  · exact answers_next _
  · refine answers_ite (answers_next _) ?_
    split <;> exact answers_next _

theorem execLaunchFile_answers (port : Nat) (q : FnReq) (path : List Byte) (threads waves teams : W32) (prio : Byte) (s : State) :
    Answers (execLaunchFile port q path threads waves teams prio s) := by
  unfold execLaunchFile
  refine answers_ite (answers_next _) (answers_ite (answers_next _) ?_)
  split <;> exact answers_next _

theorem execTakeConfig_answers (r : HostReq) (s : State) : Answers (execTakeConfig r s) := by
  unfold execTakeConfig
  split <;> exact answers_next _

theorem execResidencyQuery_answers (r : HostReq) (ctx : Nat) (s : State) : Answers (execResidencyQuery r ctx s) := by
  unfold execResidencyQuery
  split <;> exact answers_next _

theorem execResidencyReset_answers (r : HostReq) (ctx : Nat) (s : State) : Answers (execResidencyReset r ctx s) := by
  unfold execResidencyReset
  split <;> exact answers_next _

theorem execPin_answers (r : HostReq) (ctx : Nat) (name : W128) (offset length : W64) (s : State) :
    Answers (execPin r ctx name offset length s) := by
  unfold execPin
  dsimp only
  split
  · exact answers_next _
  · refine answers_ite (answers_next _) ?_
    split <;> exact answers_next _

theorem execEvict_answers (r : HostReq) (ctx : Nat) (name : W128) (offset length : W64) (s : State) :
    Answers (execEvict r ctx name offset length s) := by
  unfold execEvict
  dsimp only
  split
  · exact answers_next _
  · refine answers_ite (answers_next _) ?_
    split
    · exact answers_next _
    · split <;> exact answers_next _

theorem execFileCreate_answers (port fn : Nat) (id : W64) (path : List Byte) (tensors : List TensorMark) (s : State) :
    Answers (execFileCreate port fn id path tensors s) := by
  unfold execFileCreate
  dsimp only
  split
  · exact answers_next _
  · split
    · exact answers_next _
    · exact answers_ite (answers_next _) (answers_ite (answers_next _) (answers_next _))

theorem execFileWrite_answers (r : HostReq) (ctx : Nat) (obj : W64) (offset : Nat) (bytes : List Byte) (close : Bool) (s : State) :
    Answers (execFileWrite r ctx obj offset bytes close s) := by
  unfold execFileWrite
  dsimp only
  split
  · exact answers_next _
  · exact answers_ite (answers_next _) (answers_ite (answers_next _) (answers_next _))

theorem execFileUnlink_answers (r : HostReq) (ctx : Nat) (obj : W64) (s : State) : Answers (execFileUnlink r ctx obj s) := by
  unfold execFileUnlink
  split <;> exact answers_next _

theorem execFuseSetupmapping_answers (r : HostReq) (file : ObjectFile) (offset length place : Nat) (s : State) :
    Answers (execFuseSetupmapping r file offset length place s) := by
  unfold execFuseSetupmapping
  dsimp only
  split
  · exact answers_next _
  · split
    · exact answers_next _
    · exact answers_ite (answers_next _) (answers_next _)

theorem execDaxAccess_answers (port fn : Nat) (id : W64) (place size : Nat) (bytes : Option (List Byte)) (s : State) :
    Answers (execDaxAccess port fn id place size bytes s) := by
  unfold execDaxAccess
  dsimp only
  split
  · exact answers_next _
  · refine answers_ite (answers_next _) (answers_ite (answers_next _) ?_)
    split <;> exact answers_next _

theorem execReplyReceive_answers (p : Packet) (s : State) : Answers (execReplyReceive p s) := by
  unfold execReplyReceive
  refine answers_ite (answers_next _) ?_
  split <;> exact answers_next _

theorem execLaunchAnswerTimeout_answers (launch package : Nat) (s : State) : Answers (execLaunchAnswerTimeout launch package s) := by
  unfold execLaunchAnswerTimeout
  split
  · exact answers_next _
  · exact answers_ite (answers_next _) (answers_next _)

theorem execPacketForward_answers (port : Nat) (p : Packet) (s : State) : Answers (execPacketForward port p s) := by
  unfold execPacketForward
  dsimp only
  split
  · exact answers_next _
  · exact answers_ite (answers_next _) (answers_next _)

theorem execOutputGrant_answers (port : Nat) (s : State) : Answers (execOutputGrant port s) := by
  unfold execOutputGrant
  refine answers_ite (answers_next _) ?_
  split <;> exact answers_next _

theorem execRequestResend_answers (dst tier : Nat) (seq : BitVec 16) (s : State) : Answers (execRequestResend dst tier seq s) := by
  unfold execRequestResend
  split <;> exact answers_next _

theorem execSoftError_answers (array : SoftArray) (place bits : Nat) (s : State) : Answers (execSoftError array place bits s) := by
  unfold execSoftError
  refine answers_ite (answers_next _) (answers_ite (answers_next _) ?_)
  split <;> exact answers_next _

theorem execRestoreDone_answers (tile : Nat) (s : State) : Answers (execRestoreDone tile s) := by
  unfold execRestoreDone
  refine answers_ite (answers_next _) ?_
  split
  · exact answers_ite (answers_next _) (answers_next _)
  · exact answers_next _

theorem execRecoveryUpload_answers (port : Nat) (u : Upload) (goodTiles : List Nat) (s : State) :
    Answers (execRecoveryUpload port u goodTiles s) := by
  unfold execRecoveryUpload
  refine answers_ite (answers_next _) (answers_ite (answers_next _) ?_)
  split <;> exact answers_next _

theorem exec_answers (i : Instr) (s : State) : Answers (exec i s) := by
  by_cases hword : (encode i).isSome = true
  · exact (exec_issuesBy i hword).answers s
  unfold exec
  cases i
  all_goals dsimp only
  case cbSlotClaim | commandAccept | commandFailure | pageDepart | retentionExit | launchSubmit | teamWake | teamEnd | serviceDelivery
      | svcLaunch | svcAlloc | svcConsole | privateGrowth | freeze | quiesce | restore | stop | start | discard | freezeDone | sliceRetry
      | worldConfigWrite | arrayZeroingDone | registerWrite | nakResend | memoryReply | contextDestroy | overtemperature | replicaChange |
      thermalThrottle | isrStatusRead | refusedRead | portLinkDown | linkDown | linkHandshake | retentionEntry | groupPromotion |
      joinRelease | freeSlotAdvert | launchRecord | managerElection | heartbeat | deviceFunctionReset | featuresOk | linkRekey |
      fuseRemovemapping | objectQuery | objectEvict | objectPin | objectUnpin | objectRetire | objectMakeWritable | readPacket |
      writePacket | atomicPacket | xaPacket | rstfPacket | grantPacket | recallPacket | pagePacket | teamPacket | advertPacket |
      launchPacket | commitPacket | abortPacket | managerPacket =>
    exact answers_next _
  -- the words, which `hword` excludes, are closed last
  case create | destroy | grant | revoke | bind | thresholds | auth | key => exact answers_ite (answers_next _) (answers_next _)
  case issueCycle | cbacqRelease | watermarkDeparture | counterHalving | translationInvalidate | fzpcStop | giveConfig | attest |
      barrierPhaseComplete | routeCompute | frameClose | contextCreate | powerOn | linkTraining =>
    exact answers_ite (answers_next _) (answers_next _)
  case functionLevelReset | d2dLinkTraining =>
    exact answers_ite (answers_next _) (answers_ite (answers_next _) (answers_next _))
  case queueNotify =>
    exact answers_ite (answers_next _) (answers_ite (answers_next _) (answers_next _))
  case pageSectorArrival =>
    exact answers_ite (answers_next _) (answers_ite (answers_next _) (answers_ite (answers_next _) (answers_next _)))
  case frameReceive =>
    exact answers_ite (answers_next _) (answers_ite (answers_next _)
      (answers_ite (answers_ite (answers_next _) (answers_next _)) (answers_next _)))
  case activeSetExchange => exact execActiveSetExchange_answers ..
  case trapDelivery => exact execTrapDelivery_answers ..
  case waitpRelease => exact execWaitpRelease_answers ..
  case commandFinish => exact execCommandFinish_answers ..
  case faultAnswer => exact execFaultAnswer_answers ..
  case codeBind => exact execCodeBind_answers ..
  case launchEligibility => exact execLaunchEligibility_answers ..
  case dispatchRound => exact execDispatchRound_answers ..
  case launchAging => exact execLaunchAging_answers ..
  case teamTransfer => exact execTeamTransfer_answers ..
  case shareComplete => exact execShareComplete_answers ..
  case becalm => exact execBecalm_answers ..
  case launchFile => exact execLaunchFile_answers ..
  case takeConfig => exact execTakeConfig_answers ..
  case residencyQuery => exact execResidencyQuery_answers ..
  case residencyReset => exact execResidencyReset_answers ..
  case pin => exact execPin_answers ..
  case evict => exact execEvict_answers ..
  case fileCreate => exact execFileCreate_answers ..
  case fileWrite => exact execFileWrite_answers ..
  case fileUnlink => exact execFileUnlink_answers ..
  case fuseSetupmapping => exact execFuseSetupmapping_answers ..
  case daxAccess => exact execDaxAccess_answers ..
  case replyReceive => exact execReplyReceive_answers ..
  case launchAnswerTimeout => exact execLaunchAnswerTimeout_answers ..
  case packetForward => exact execPacketForward_answers ..
  case outputGrant => exact execOutputGrant_answers ..
  case requestResend => exact execRequestResend_answers ..
  case softError => exact execSoftError_answers ..
  case restoreDone => exact execRestoreDone_answers ..
  case recoveryUpload => exact execRecoveryUpload_answers ..
  all_goals exact absurd rfl hword

theorem afterSlot_answers (s : State) (sl : Slot) {o : Out} (h : Answers o) : Answers (s.afterSlot sl o) := by
  obtain ⟨t, rfl⟩ := h
  exact answers_next _

theorem settleOut_answers (old : List Wave) {o : Out} (h : Answers o) : Answers (settleOut old o) := by
  obtain ⟨t, rfl⟩ := h
  exact answers_next _

theorem step_answers (s : State) : Answers (step s) := by
  unfold step
  split
  case h_1 sl _ _ =>
    split
    · split
      · split
        · exact afterSlot_answers _ sl (exec_answers _ _)
        · exact answers_next _
        · exact answers_next _
      · exact answers_next _
    · exact answers_next _
  case h_2 => exact settleOut_answers _ (exec_answers _ _)

/-- Settles O8: every meaning is an issue or ends in a next state, and a step performs one. -/
theorem stepsNeverStop : Obligations.StepsNeverStop := by
  unfold Obligations.StepsNeverStop
  exact ⟨exec_answers, step_answers⟩

end Sys2Proof.Machine

/-! SUPPORT. The tag that an `iadd` gives where one of its lanes reads a struck register (R13, R298): a state in which the other lanes fill
a block, and their sum is affine there. -/

namespace Sys2Proof.Machine

/-- An `iadd` of 32 bits: `v2` becomes `v0 + v1`. -/
def affineSum : VForm := ⟨.plain, 2, 0, 1, 0, .u32, .rne, false, false, false, false, 0⟩

/-- A wave of two blocks whose `v0` is affine in the second, its other registers uniform. -/
def affineWave : Wave :=
  { Wave.blank with
    width := .w64, vBudget := 3, threads := List.replicate 64 { Thread.blank with status := .live }, tags := [(1024, .affine)] }

/-- A slot that issues for every lane of the wave. -/
def affineSlot : Slot := ⟨0, 0, List.range 64, none, none, [], false⟩

/-- The wave at that slot; a soft error has struck `v0` of lane 0, which lies in the first block. -/
def struckState : State := { State.reset with slots := [affineSlot], waves := [affineWave], regPoison := [(0, 0, 0)] }

/-- The state that the statement gives for the sum: the spared lanes write it with the tag of `Grp.tag`, which is never affine. -/
def statedSum (s : State) (g : Grp) (f : VForm) : State :=
  (((s.advance g).writeD (s.sparedOf g) (s.sparedOf g).lanes
    (fun l => narrow f.ty f.sat (tval f.ty (g.a l) + tval f.ty (g.b l))) g.tag).raiseAll g .poison (s.hit g)).finish g

/-- The tag of `v2` in the second block after a step. -/
def sumTag (o : Out) : Option Tag :=
  match o with
  | .next t => some ((t.wave 0).tag 1 2)
  | _ => none

/-- The lanes of the second block fill it, and an affine register plus a uniform one is affine (R13). -/
theorem exec_affineSum_tag : sumTag (exec (.iadd affineSum) struckState) = some .affine := by rfl

theorem statedSum_tag :
    sumTag (.next (statedSum struckState (struckState.groupOf (.iadd affineSum) affineSlot) affineSum)) = some .general := by rfl

/-- Refutes O4: its clause for `iadd` gives the sum the tag of R13's general rule, and the model gives it the affine tag of R13 where an
affine and a uniform register are added in a block that the spared lanes fill. -/
theorem not_checksBeforeTheEffect : ¬ Obligations.ChecksBeforeTheEffect := by
  unfold Obligations.ChecksBeforeTheEffect
  intro h
  obtain ⟨-, -, -, hstruck⟩ := h (.iadd affineSum) struckState affineSlot rfl rfl
  obtain ⟨-, hsum, -⟩ := hstruck rfl (by rfl) (by rfl) (by decide)
  have htag : sumTag (exec (.iadd affineSum) struckState) =
      sumTag (.next (statedSum struckState (struckState.groupOf (.iadd affineSum) affineSlot) affineSum)) :=
    congrArg sumTag (hsum affineSum rfl)
  rw [exec_affineSum_tag, statedSum_tag] at htag
  exact absurd htag (by decide)

end Sys2Proof.Machine

/-! SUPPORT. What a lane's load result and a store do (R12, R179, R191, R298, R321): the bytes of a store over its pieces, whatever lines
they fall into, and the parts of the state that each of the two may change. -/

namespace Sys2Proof.Machine

/-! ## Bytes over pieces -/

theorem Memory.write_append (m : List Host.Cell) (k : Nat) (a b : List Byte) :
    Memory.write m k (a ++ b) = Memory.write (Memory.write m k a) (k + a.length) b := by
  induction a generalizing m k with
  | nil => rfl
  | cons x a ih =>
    have hlen : k + 1 + a.length = k + (x :: a).length := by simp only [List.length_cons]; omega
    simp only [List.cons_append, Memory.write, ih, hlen]

/-- A write of two runs of a list, one after the other, is the write of both. -/
theorem Memory.write_take_take (m : List Host.Cell) (k i n : Nat) (bs : List Byte) :
    Memory.write (Memory.write m k (bs.take i)) (k + i) ((bs.drop i).take n) = Memory.write m k (bs.take (i + n)) := by
  rw [List.take_add, Memory.write_append]
  rcases Nat.le_total i bs.length with hle | hle
  · rw [List.length_take, Nat.min_eq_left hle]
  · simp only [List.drop_eq_nil_of_le hle, List.take_nil, Memory.write]

/-- A byte that lies in none of the pieces is not written. -/
theorem Memory.byte_writePieces (ps : List Piece) (m : List Host.Cell) (bs : List Byte) (k : Nat) (h : ∀ p ∈ ps, k < p.1 ∨ p.1 + p.2 ≤ k) :
    Memory.byte (Memory.writePieces m ps bs) k = Memory.byte m k := by
  induction ps generalizing m bs with
  | nil => rfl
  | cons p ps ih =>
    have hp := h p (by simp)
    have hlen : (bs.take p.2).length ≤ p.2 := List.length_take_le _ _
    simp only [Memory.writePieces]
    rw [ih _ _ fun q hq => h q (by simp [hq]), Memory.byte_write_other _ _ _ _ (by omega)]

/-! ## Stores -/

/-- A step of a store over one part of a line: the bytes it takes are written, the others are left. -/
def State.storePart (a : State × List Byte) (q : Piece) : State × List Byte := (a.1.storeLine q.1 (a.2.take q.2), a.2.drop q.2)

theorem State.store_cons (s : State) (p : Piece) (ps : List Piece) (bs : List Byte) :
    s.store (p :: ps) bs =
      ((Piece.lines p).foldl State.storePart (s, bs)).1.store ps ((Piece.lines p).foldl State.storePart (s, bs)).2 := rfl

theorem State.storeLine_mem (s : State) (k : Nat) (bs : List Byte) : (s.storeLine k bs).mem = Memory.write s.mem k bs := by
  show Memory.write (s.touchCode k bs.length).mem k bs = _
  rw [(s.touchCode_bytes k bs.length).1]

/-- The parts of a stretch in its lines are its bytes, where there is fuel for every line that it meets. -/
theorem State.storeParts (fuel k n : Nat) (s : State) (bs : List Byte) (hfuel : n = 0 ∨ n + k % 64 ≤ 64 * fuel) :
    ((lineParts fuel k n).foldl State.storePart (s, bs)).1.mem = Memory.write s.mem k (bs.take n) ∧
    ((lineParts fuel k n).foldl State.storePart (s, bs)).2 = bs.drop n := by
  induction fuel generalizing k n s bs with
  | zero =>
    have hn : n = 0 := by omega
    subst hn
    exact ⟨rfl, rfl⟩
  | succ fuel ih =>
    by_cases hn : n = 0
    · subst hn
      exact ⟨rfl, rfl⟩
    · have hstep : lineParts (fuel + 1) k n =
          (k, min n (64 - k % 64)) :: lineParts fuel (k + min n (64 - k % 64)) (n - min n (64 - k % 64)) := by
        simp only [lineParts, if_neg hn]
      generalize hm : min n (64 - k % 64) = i at hstep
      have hrest : n - i = 0 ∨ n - i + (k + i) % 64 ≤ 64 * fuel := by omega
      obtain ⟨hmem, hleft⟩ := ih (k + i) (n - i) (s.storeLine k (bs.take i)) (bs.drop i) hrest
      have hsum : i + (n - i) = n := by omega
      rw [hstep, List.foldl_cons]
      constructor
      · exact hmem.trans (by rw [State.storeLine_mem, Memory.write_take_take, hsum])
      · exact hleft.trans (by rw [List.drop_drop, hsum])

/-- A store writes its bytes over its pieces in order (R191). -/
theorem State.store_mem (s : State) (ps : List Piece) (bs : List Byte) : (s.store ps bs).mem = Memory.writePieces s.mem ps bs := by
  induction ps generalizing s bs with
  | nil => rfl
  | cons p ps ih =>
    obtain ⟨hmem, hleft⟩ := State.storeParts (p.2 / 64 + 2) p.1 p.2 s bs (by omega)
    rw [State.store_cons, ih]
    exact congrArg₂ (fun m l => Memory.writePieces m ps l) hmem hleft

theorem State.store_sameOutside (s : State) (ps : List Piece) (bs : List Byte) : sameOutside ps s (s.store ps bs) := by
  intro k hk
  rw [s.store_mem, Memory.byte_writePieces ps _ _ k hk]

/-- Two states that agree but for memory and what goes with its bytes in a store: poison, dirty pages and fetch versions. -/
def sameButStored (s t : State) : Prop :=
  t = { s with mem := t.mem, poison := t.poison, dirty := t.dirty, fetchLines := t.fetchLines }

theorem sameButStored.refl (s : State) : sameButStored s s := rfl

theorem sameButStored.trans {s t u : State} (h : sameButStored s t) (k : sameButStored t u) : sameButStored s u := by
  unfold sameButStored at *
  rw [k, h]

theorem State.touchCode_sameButStored (s : State) (k n : Nat) : sameButStored s (s.touchCode k n) :=
  foldl_rel sameButStored .refl (fun _ _ _ => .trans) (fun s line => { s with fetchLines := s.touchLine line (k % 64) n })
    (fun _ _ => rfl) _ s

theorem State.storeLine_sameButStored (s : State) (k : Nat) (bs : List Byte) : sameButStored s (s.storeLine k bs) :=
  (s.touchCode_sameButStored k bs.length).trans rfl

theorem State.store_sameButStored (s : State) (ps : List Piece) (bs : List Byte) : sameButStored s (s.store ps bs) := by
  induction ps generalizing s bs with
  | nil => exact .refl s
  | cons p ps ih =>
    have hparts : sameButStored s ((Piece.lines p).foldl State.storePart (s, bs)).1 :=
      foldl_inv (fun a : State × List Byte => sameButStored s a.1) State.storePart
        (fun a q h => h.trans (a.1.storeLine_sameButStored q.1 (a.2.take q.2))) _ (s, bs) (.refl s)
    rw [State.store_cons]
    exact hparts.trans (ih _ _)

/-! ## The result of a lane's load -/

/-- A write of an operand for one lane changes no other lane's thread. -/
theorem Wave.thread_put_other (wv : Wave) (o : Opnd) (l k : Nat) (val : Nat → W128) (tag : Nat → Tag) (hk : k ≠ l) :
    (wv.put o [l] val tag).thread k = wv.thread k := by
  have hnot : k ∉ [l] := by simpa using hk
  obtain ⟨kind, n⟩ := o
  cases kind with
  | v | d | q => simp only [Wave.put, Wave.retag_thread, Wave.thread_modLanes_not _ _ _ _ hnot]
  | p => simp only [Wave.put, Wave.thread_modLanes_not _ _ _ _ hnot]
  | none | lvl | imm => rfl
  | s | sd =>
    simp only [Wave.put]
    rw [Wave.setS_fields]
    rfl

/-- What `give` does to the group's wave (R179). -/
theorem State.wave_give (s : State) (g : Grp) (l x : Nat) (hw : g.w < s.waves.length) :
    (s.give g l x).wave g.w = (s.wave g.w).put g.shape.d [l] (fun _ => BitVec.ofNat 128 x) fun _ => .general :=
  State.wave_modWave (s.heal g [l]) g.w _ hw

theorem State.thread_give (s : State) (g : Grp) (l x k : Nat) (hw : g.w < s.waves.length) :
    (s.give g l x).thread g.w k = ((s.wave g.w).put g.shape.d [l] (fun _ => BitVec.ofNat 128 x) fun _ => .general).thread k := by
  unfold State.thread
  rw [s.wave_give g l x hw]

theorem State.give_operand (s : State) (g : Grp) (l x : Nat) (hw : g.w < s.waves.length) (hl : l < (s.wave g.w).threads.length)
    (hd : g.shape.d.legal = true) : ((s.give g l x).wave g.w).operand g.shape.d l = shown g.shape.d (BitVec.ofNat 128 x) := by
  rw [s.wave_give g l x hw]
  exact put_shown _ _ [l] _ _ hd l (by simp) hl

/-- A mark that is not of a lane stays when that lane's register is healed. -/
theorem State.heal_other (s : State) (g : Grp) (l : Nat) {e : Nat × Nat × Nat} (he : e ∈ s.regPoison) (hne : e.1 ≠ g.w ∨ e.2.1 ≠ l) :
    e ∈ (s.heal g [l]).regPoison := by
  refine List.mem_filter.mpr ⟨he, ?_⟩
  rcases hne with h | h <;> simp [h]

/-- Settles O19: a load's result is a write of one operand in one lane, a store a run of writes each within one line. -/
theorem laneEffectsTouchNothingElse : Obligations.LaneEffectsTouchNothingElse := by
  unfold Obligations.LaneEffectsTouchNothingElse
  refine ⟨fun s g l x hw hl hd => ?give, fun s ps bs => ?store⟩
  case give =>
    refine ⟨s.give_operand g l x hw hl hd, rfl, fun e he => (List.mem_filter.mp he).1, fun e he hne => s.heal_other g l he hne, ?_, ?_, ?_⟩
    · exact fun w hne => State.wave_modWave_ne (s.heal g [l]) g.w w _ hne
    · intro k hk
      rw [s.thread_give g l x k hw, Wave.thread_put_other _ _ _ _ _ _ hk]
      rfl
    · intro r hr
      rw [s.thread_give g l x l hw]
      exact (put_put (s.wave g.w) g.shape.d [l] _ _ hd).vregs l r (by simp [hr])
  case store => exact ⟨s.store_mem ps bs, s.store_sameOutside ps bs, s.store_sameButStored ps bs⟩

end Sys2Proof.Machine

/-! SUPPORT. Traps (R37, R156, R164, R168): the entry that `trap` queues, and the delivery of an entry all of whose lanes take it. -/

namespace Sys2Proof.Machine

/-- An instruction that is issued, and that nothing keeps from performing, has its effect on the group. -/
theorem Issues.performs {i : Instr} {s : State} {sl : Slot} (h : Issues i s sl) (k : Grp → State → State)
    (he : exec i s = issue i s lawful k) : exec i s = .next (s.after (s.groupOf i sl) (k (s.groupOf i sl))) :=
  he.trans (h.run lawful k rfl)

/-- What `trap` does to the wave of its group: one entry for the executing lanes, which wait for its delivery (R168). -/
def Wave.trapEntry (wv : Wave) (g : Grp) (k : TrapKind) : Wave :=
  let e : TrapEntry :=
    { pc := g.pc, kind := k, issued := g.issued, delivered := false, begun := false, owed := []
      lanes := g.lanes.map fun l => { lane := l, cont := (wv.thread l).pc, redo := [] } }
  { wv with trapq := putEntry wv.trapq e }.modLanes g.lanes fun _ t => { t with redo := [], wait := .trapped }

/-- The effect of `trap`. -/
def trapEffect (f : TrapForm) (g : Grp) (s : State) : State :=
  match TrapKind.ofCode f.name with
  | none => s
  | some k => if g.lanes.isEmpty then s else s.modWave g.w fun wv => wv.trapEntry g k

theorem exec_trap (f : TrapForm) (s : State) : exec (.trap f) s = issue (.trap f) s lawful (trapEffect f) := rfl

theorem trapEffect_raises {f : TrapForm} {k : TrapKind} (hk : TrapKind.ofCode f.name = some k) (g : Grp) (hg : g.lanes ≠ []) (s : State) :
    trapEffect f g s = s.modWave g.w fun wv => wv.trapEntry g k := by
  unfold trapEffect
  rw [hk]
  simp [hg]

/-! ## Delivery (R164) -/

/-- What the queue becomes when every lane of an entry has taken it: the entry goes, but for its owed tokens (R37). -/
def Wave.delivered (wv : Wave) (e : TrapEntry) (owed : List (Nat × Nat)) : Wave :=
  { wv with trapq :=
      (if owed.isEmpty then [] else [{ e with delivered := true, begun := false, owed := owed }]) ++ wv.trapq.erase e }

/-- Delivery where every lane of the entry waits for it and finds bound code and a place for its record. -/
theorem exec_trapDelivery_all (s : State) (w : Nat) (e : TrapEntry) (hnext : (s.wave w).nextEntry = some e)
    (htake : ∀ x ∈ e.effects (s.wave w), (s.thread w x.1).wait = .trapped ∧ (s.handlerEntry w x.1 x.2).binds = false)
    (hroom : (s.deliverAll w 0 (e.effects (s.wave w))).2 = []) :
    exec (.trapDelivery w) s = .next ((s.deliverAll w 0 (e.effects (s.wave w))).1.modWave w fun wv =>
      wv.delivered e ((e.effects (s.wave w)).map fun x => (x.1, (s.deliverAll w 0 (e.effects (s.wave w))).1.tokenPlace w x.1))) := by
  have htaken : (e.effects (s.wave w)).filter (fun x =>
      ((s.wave w).thread x.1).wait == .trapped && !(s.handlerEntry w x.1 x.2).binds) = e.effects (s.wave w) := by
    refine List.filter_eq_self.mpr fun x hx => ?_
    obtain ⟨hwait, hbinds⟩ := htake x hx
    have hwait' : ((s.wave w).thread x.1).wait = .trapped := hwait
    simp [hwait', hbinds]
  have hstays : ∀ l, (e.effects (s.wave w)).any (fun x =>
      x.1 == l && (((s.wave w).thread l).wait != .trapped || (s.handlerEntry w l x.2).binds)) = false := by
    refine fun l => List.any_eq_false.mpr fun x hx => ?_
    obtain ⟨hwait, hbinds⟩ := htake x hx
    have hwait' : ((s.wave w).thread x.1).wait = .trapped := hwait
    by_cases hl : x.1 = l
    · subst hl; simp [hwait', hbinds]
    · simp [hl]
  show execTrapDelivery w s = _
  unfold execTrapDelivery
  simp only [hnext, htaken, hroom, hstays]
  by_cases hnone : e.effects (s.wave w) = [] <;> simp [Wave.delivered, hnone]

/-- Settles O31: `trap` queues one entry, and a delivery that every lane takes leaves of the entry its owed tokens alone. -/
theorem trapsAreRaisedAndDelivered : Obligations.TrapsAreRaisedAndDelivered := by
  unfold Obligations.TrapsAreRaisedAndDelivered
  refine ⟨fun f s sl k h hk hg => ?raised, fun s w e hnext htake hroom => ?delivered⟩
  case raised =>
    rw [h.performs _ (exec_trap f s)]
    unfold State.after
    rw [trapEffect_raises hk _ hg]
    rfl
  case delivered => exact exec_trapDelivery_all s w e hnext htake hroom

end Sys2Proof.Machine

/-! SUPPORT. Threads of a wave after a change of some of them, and the handler stack (R20, R152 to R154): a frame that is pushed, with and
without a spill, and what `hpop` does in a lane. -/

namespace Sys2Proof.Machine

/-! ## Threads after a change of one or of several -/

theorem Wave.thread_modThread (wv : Wave) (l : Nat) (f : Thread → Thread) (h : l < wv.threads.length) :
    (wv.modThread l f).thread l = f (wv.thread l) := by
  simp only [Wave.thread, Wave.modThread, getD_modifyAt _ _ _ _ _ h, if_true]

theorem Wave.thread_modThread_ne (wv : Wave) (l k : Nat) (f : Thread → Thread) (h : k ≠ l) :
    (wv.modThread l f).thread k = wv.thread k := by
  simp [Wave.thread, Wave.modThread, List.getD_eq_getElem?_getD, getElem?_modifyAt_ne _ _ _ _ h]

@[simp] theorem Wave.length_modThread (wv : Wave) (l : Nat) (f : Thread → Thread) :
    (wv.modThread l f).threads.length = wv.threads.length := length_modifyAt ..

theorem State.thread_modThread (s : State) (w l : Nat) (f : Thread → Thread) (hw : w < s.waves.length)
    (hl : l < (s.wave w).threads.length) : (s.modThread w l f).thread w l = f (s.thread w l) := by
  unfold State.thread State.modThread
  rw [State.wave_modWave _ _ _ hw, Wave.thread_modThread _ _ _ hl]

theorem State.thread_modThread_ne (s : State) (w l k : Nat) (f : Thread → Thread) (hw : w < s.waves.length) (h : k ≠ l) :
    (s.modThread w l f).thread w k = s.thread w k := by
  unfold State.thread State.modThread
  rw [State.wave_modWave _ _ _ hw, Wave.thread_modThread_ne _ _ _ _ h]

theorem modifyAt_congr {α : Type} (xs : List α) (i : Nat) (f f' : α → α) (d : α) (h : f (xs.getD i d) = f' (xs.getD i d)) :
    modifyAt xs i f = modifyAt xs i f' := by
  refine List.ext_getElem? fun k => ?_
  rw [getElem?_modifyAt, getElem?_modifyAt]
  split
  · next hk =>
    subst hk
    rw [List.getD_eq_getElem?_getD] at h
    cases hx : xs[i]? with
    | none => rfl
    | some x =>
      rw [hx] at h
      exact congrArg some h
  · rfl

theorem State.modWave_congr (s : State) (w : Nat) (f f' : Wave → Wave) (h : f (s.wave w) = f' (s.wave w)) :
    s.modWave w f = s.modWave w f' := by
  unfold State.modWave
  rw [modifyAt_congr s.waves w f f' Wave.blank h]

theorem State.modWave_self (s : State) (w : Nat) (f : Wave → Wave) (h : f (s.wave w) = s.wave w) : s.modWave w f = s := by
  rw [s.modWave_congr w f id h]
  simp only [State.modWave, modifyAt, List.modify_id]

theorem State.modWave_modWave (s : State) (w : Nat) (f f' : Wave → Wave) :
    (s.modWave w f).modWave w f' = s.modWave w fun wv => f' (f wv) := by
  simp only [State.modWave, modifyAt, List.modify_modify_eq]
  rfl

theorem State.modThread_const (s : State) (w l : Nat) (f : Thread → Thread) :
    (s.modThread w l fun _ => f (s.thread w l)) = s.modThread w l f := by
  refine s.modWave_congr w _ _ ?_
  unfold Wave.modThread
  rw [modifyAt_congr (s.wave w).threads l (fun _ => f (s.thread w l)) f Thread.blank rfl]

theorem Wave.modLanes_nil (wv : Wave) (f : Nat → Thread → Thread) : wv.modLanes [] f = wv := by
  have h : wv.threads.mapIdx (fun l t => if [].contains l then f l t else t) = wv.threads := by
    refine List.ext_getElem? fun k => ?_
    simp
  unfold Wave.modLanes
  rw [h]

theorem State.modLanes_nil (s : State) (w : Nat) (f : Nat → Thread → Thread) : s.modLanes w [] f = s :=
  s.modWave_self w _ (Wave.modLanes_nil _ _)

theorem Wave.modLanes_cons (wv : Wave) (l : Nat) (ls : List Nat) (f : Nat → Thread → Thread) (h : l ∉ ls) :
    (wv.modThread l (f l)).modLanes ls f = wv.modLanes (l :: ls) f := by
  have hthreads : ((modifyAt wv.threads l (f l)).mapIdx fun k t => if ls.contains k then f k t else t) =
      wv.threads.mapIdx fun k t => if (l :: ls).contains k then f k t else t := by
    refine List.ext_getElem? fun k => ?_
    rw [List.getElem?_mapIdx, List.getElem?_mapIdx, getElem?_modifyAt]
    cases wv.threads[k]? with
    | none => simp
    | some t =>
      by_cases hk : l = k
      · subst hk; simp [h]
      · simp [hk, Ne.symm hk]
  unfold Wave.modLanes Wave.modThread
  rw [hthreads]

theorem State.modLanes_cons (s : State) (w l : Nat) (ls : List Nat) (f : Nat → Thread → Thread) (h : l ∉ ls) :
    (s.modThread w l (f l)).modLanes w ls f = s.modLanes w (l :: ls) f := by
  unfold State.modThread State.modLanes
  rw [State.modWave_modWave]
  exact congrArg (s.modWave w) (funext fun wv => wv.modLanes_cons l ls f h)

theorem foldl_eq_self {α β : Type} (f : β → α → β) (b : β) (l : List α) (h : ∀ a ∈ l, f b a = b) : l.foldl f b = b := by
  induction l with
  | nil => rfl
  | cons a l ih => rw [List.foldl_cons, h a (by simp)]; exact ih fun x hx => h x (by simp [hx])

/-! ## Pushing a frame (R152) -/

/-- A thread with one more frame, its frame counter as the frame's identity (R20). -/
def Thread.pushed (t : Thread) (hpc : W64) (mask mtch : W32) : Thread :=
  { t with frames := ⟨t.fidCtr, hpc, mask, mtch⟩ :: t.frames, fidCtr := if t.fidCtr = 0xFFFFFFFF then 1 else t.fidCtr + 1 }

theorem State.push_eq (s : State) (w l : Nat) (hpc : W64) (mask mtch : W32) :
    s.push w l hpc mask mtch = ((s.thread w l).pushed hpc mask mtch).claimFrames.map fun t' =>
      (s.modThread w l fun _ => t').writeSpills w l (s.thread w l).areas := rfl

/-- Claims for spilled frames change the areas alone. -/
theorem Thread.claimFrames_fields {t u : Thread} (h : t.claimFrames = some u) : u = { t with areas := u.areas } := by
  have key := foldl_inv (fun o : Option Thread => ∀ u, o = some u → u = { t with areas := u.areas })
    (fun o d => o.bind fun t => if t.areas.any fun a => a.use == .frame d then some t else t.claim (.frame d) 32 32)
    (fun o d ho u hu => by
      obtain ⟨t', ht', hclaim⟩ := Option.bind_eq_some_iff.mp hu
      have hfields := ho t' ht'
      split at hclaim
      · cases hclaim
        exact hfields
      · unfold Thread.claim at hclaim
        dsimp only at hclaim
        split at hclaim
        · cases hclaim
          rw [hfields]
        · cases hclaim)
    (List.range t.spilled.length) (some t) (fun u hu => by cases hu; rfl)
  exact key u h

/-- Sixteen frames, frame 0 among them, lie in the stack's registers (R20). -/
theorem Thread.claimFrames_short (t : Thread) (h : t.frames.length < 16) : t.claimFrames = some t := by
  have hspilled : t.spilled = [] := by simp [Thread.spilled]; omega
  unfold Thread.claimFrames
  rw [hspilled]
  rfl

theorem State.privWrite_sameButStored (s : State) (w l o : Nat) (bs : List Byte) : sameButStored s (s.privWrite w l o bs) := by
  unfold State.privWrite
  split
  · exact s.store_sameButStored _ _
  · exact .refl s

theorem State.writeSpills_sameButStored (s : State) (w l : Nat) (old : List Area) : sameButStored s (s.writeSpills w l old) := by
  refine foldl_rel sameButStored .refl (fun _ _ _ => .trans) _ (fun s' a => ?_) _ s
  split
  · split
    · exact .refl s'
    · exact s'.privWrite_sameButStored _ _ _ _
  · exact .refl s'

/-- Areas that have been written before are not written again. -/
theorem State.writeSpills_old (s : State) (w l : Nat) (old : List Area) (h : ∀ a ∈ (s.thread w l).areas, a ∈ old) :
    s.writeSpills w l old = s := by
  refine foldl_eq_self _ s _ fun a ha => ?_
  have hold : old.contains a = true := by simpa using h a ha
  split
  · rw [if_pos hold]
  · rfl

/-- What a push does, whether or not frames are spilled. -/
theorem State.push_some {s u : State} {w l : Nat} {hpc : W64} {mask mtch : W32} (h : s.push w l hpc mask mtch = some u) :
    ∃ areas, sameButStored (s.modThread w l fun _ => { (s.thread w l).pushed hpc mask mtch with areas := areas }) u := by
  rw [State.push_eq] at h
  obtain ⟨t', hclaim, rfl⟩ := Option.map_eq_some_iff.mp h
  refine ⟨t'.areas, ?_⟩
  rw [← Thread.claimFrames_fields hclaim]
  exact State.writeSpills_sameButStored _ _ _ _

theorem sameButStored.waves {s t : State} (h : sameButStored s t) : t.waves = s.waves := by
  rw [h]

theorem sameButStored.wave {s t : State} (h : sameButStored s t) (w : Nat) : t.wave w = s.wave w := by
  unfold State.wave
  rw [h.waves]

theorem sameButStored.thread {s t : State} (h : sameButStored s t) (w l : Nat) : t.thread w l = s.thread w l := by
  unfold State.thread
  rw [h.wave]

/-- A push onto a stack with room in its registers. -/
theorem State.push_short (s : State) (w l : Nat) (hpc : W64) (mask mtch : W32) (hw : w < s.waves.length)
    (hl : l < (s.wave w).threads.length) (h : (s.thread w l).frames.length < 15) :
    s.push w l hpc mask mtch = some (s.modThread w l fun t => t.pushed hpc mask mtch) := by
  have hshort : ((s.thread w l).pushed hpc mask mtch).frames.length < 16 := by
    simp only [Thread.pushed, List.length_cons]; omega
  rw [State.push_eq, Thread.claimFrames_short _ hshort, Option.map_some, s.modThread_const w l fun t => t.pushed hpc mask mtch]
  refine congrArg some (State.writeSpills_old _ _ _ _ fun a ha => ?_)
  rw [s.thread_modThread w l _ hw hl] at ha
  exact ha

/-- A lane's part of `hpush`: the push, or the wait for backing store (R317). -/
def pushLane (f : HpushForm) (g : Grp) (s : State) (l : Nat) : State :=
  match s.push g.w l (relPc g.pc f.disp) (g.src.sreg f.mreg.toNat) f.mtch with
  | some s' => s'
  | none => (s.postPrivate g.w l).1.block g l (s.postPrivate g.w l).2

/-- The effect of `hpush`. -/
def hpushEffect (f : HpushForm) (g : Grp) (s : State) : State :=
  if (relPc g.pc f.disp).toNat / 2 ^ 60 ≠ 5 then s.raiseAll g .target g.lanes else g.lanes.foldl (pushLane f g) s

theorem exec_hpush (f : HpushForm) (s : State) : exec (.hpush f) s = issue (.hpush f) s lawful (hpushEffect f) := rfl

/-- Pushes in several lanes, whose stacks all have room in their registers. -/
theorem pushLanes_short (f : HpushForm) (g : Grp) (lanes : List Nat) (s : State) (hnodup : lanes.Nodup) (hw : g.w < s.waves.length)
    (hlanes : ∀ l ∈ lanes, l < (s.wave g.w).threads.length ∧ (s.thread g.w l).frames.length < 15) :
    lanes.foldl (pushLane f g) s =
      s.modLanes g.w lanes fun _ t => t.pushed (relPc g.pc f.disp) (g.src.sreg f.mreg.toNat) f.mtch := by
  induction lanes generalizing s with
  | nil => exact (s.modLanes_nil g.w _).symm
  | cons l ls ih =>
    obtain ⟨hnot, hrest⟩ := List.nodup_cons.mp hnodup
    obtain ⟨hl, hroom⟩ := hlanes l (by simp)
    have hlane : pushLane f g s l =
        s.modThread g.w l fun t => t.pushed (relPc g.pc f.disp) (g.src.sreg f.mreg.toNat) f.mtch := by
      unfold pushLane
      rw [s.push_short _ _ _ _ _ hw hl hroom]
    rw [List.foldl_cons, hlane, ih _ hrest (by simpa [State.modThread, State.modWave] using hw),
      s.modLanes_cons g.w l ls (fun _ t => t.pushed (relPc g.pc f.disp) (g.src.sreg f.mreg.toNat) f.mtch) hnot]
    intro k hk
    have hne : k ≠ l := fun e => hnot (e ▸ hk)
    obtain ⟨hkl, hkroom⟩ := hlanes k (by simp [hk])
    refine ⟨?_, by rwa [s.thread_modThread_ne _ _ _ _ hw hne]⟩
    rw [State.modThread, State.wave_modWave _ _ _ hw, Wave.length_modThread]
    exact hkl

end Sys2Proof.Machine

/-! SUPPORT. `hpop` (R154): what it does in a lane, by cases, and what a return record restores. -/

namespace Sys2Proof.Machine

/-! ## No trap, no change -/

theorem Wave.raise_nil (wv : Wave) (g : Grp) (k : TrapKind) : wv.raise g k [] = wv := rfl

theorem State.raise_nil (s : State) (g : Grp) : s.raise g [] = s :=
  foldl_eq_self _ s _ fun k _ => s.modWave_self g.w _ (Wave.raise_nil _ g k)

theorem State.modLanes_congr (s : State) (w : Nat) (lanes : List Nat) (f f' : Nat → Thread → Thread)
    (h : ∀ l ∈ lanes, f l (s.thread w l) = f' l (s.thread w l)) : s.modLanes w lanes f = s.modLanes w lanes f' := by
  refine s.modWave_congr w _ _ ?_
  have hthreads : ((s.wave w).threads.mapIdx fun l t => if lanes.contains l then f l t else t) =
      (s.wave w).threads.mapIdx fun l t => if lanes.contains l then f' l t else t := by
    refine List.ext_getElem? fun k => ?_
    rw [List.getElem?_mapIdx, List.getElem?_mapIdx]
    cases hk : (s.wave w).threads[k]? with
    | none => rfl
    | some t =>
      by_cases hmem : k ∈ lanes
      · have ht : s.thread w k = t := by simp [State.thread, Wave.thread, List.getD_eq_getElem?_getD, hk]
        simpa [hmem, ht] using h k hmem
      · simp [hmem]
  unfold Wave.modLanes
  rw [hthreads]

/-! ## The parts of `hpop` -/

/-- The return record a lane returns to, if any. -/
def hpopRet (f : VForm) (g : Grp) (s : State) (l : Nat) : Option RetRec :=
  (hpopFid f (s.thread g.w l) (g.a l)).bind fun x => (s.thread g.w l).rets.find? fun r => r.fid == x.1

def hpopEntry (f : VForm) (g : Grp) (s : State) (l : Nat) : Entry :=
  ((hpopRet f g s l).map fun r => s.entryCheck g.src.ctx r.pc).getD .ok

def hpopTrap (f : VForm) (g : Grp) (s : State) (l : Nat) : Option TrapKind :=
  if (hpopFid f (s.thread g.w l) (g.a l)).isNone then some .protect
  else if hpopEntry f g s l = .clear ∨ hpopEntry f g s l = .gap then some .target
  else none

/-- The lane's stack without the frame that `hpop` pops; `hpop.b128` pops none. -/
def Thread.popped (t : Thread) (f : VForm) : Thread :=
  if f.ty = .b128 then t else { t with frames := t.frames.tail }

/-- A lane after its `hpop`, its registers aside. -/
def hpopThread (f : VForm) (ret : Option RetRec) (t : Thread) : Thread :=
  match ret with
  | none => (t.popped f).trim
  | some r => ({ t.popped f with rets := ((t.popped f).rets.dropWhile fun x => x.fid != r.fid).tail, pc := r.pc } : Thread).trim

/-- The record that restores the registers and predicates a return record holds. -/
def RetRec.saved (r : RetRec) : Record :=
  { pc := r.pc, serial := 0, gen := 0, preds := r.preds, frames := [], regs := r.regs, redo := [] }

/-- The registers after lanes return to their return records: those saved there, and A in each record's destination. -/
def Wave.returned (wv : Wave) (g : Grp) (back : List (Nat × RetRec)) : Wave :=
  (distinct (back.map fun e => e.2.dreg)).foldl (fun wv d =>
    wv.put ⟨.d, BitVec.ofNat 10 d⟩ ((back.filter fun e => e.2.dreg == d).map (·.1)) (fun l => ext64 (lo64 (g.a l))) g.tag)
    (wv.restoreRegs (back.map fun e => (e.1, e.2.saved)))

def hpopBack (f : VForm) (g : Grp) (s : State) (lanes : List Nat) : List (Nat × RetRec) :=
  lanes.filterMap fun l => (hpopRet f g s l).map fun r => (l, r)

/-- The state after the lanes `ok` have popped their frames and returned. -/
def hpopLanes (f : VForm) (g : Grp) (s : State) (ok : List Nat) : State :=
  (s.modLanes g.w ok fun l => hpopThread f (hpopRet f g s l)).modWave g.w fun wv => wv.returned g (hpopBack f g s ok)

/-- A lane whose return meets unbound code (R146). -/
def hpopBind (f : VForm) (g : Grp) (s0 s : State) (l : Nat) : State :=
  if (hpopTrap f g s0 l).isNone then
    s.bindFor g l (((hpopRet f g s0 l).map fun r => s.entryCheck g.src.ctx r.pc).getD .ok) else s

/-- The effect of `hpop`. -/
def hpopEffect (f : VForm) (g : Grp) (s : State) : State :=
  (g.lanes.foldl (hpopBind f g s) (hpopLanes f g s (g.lanes.filter fun l =>
    (hpopTrap f g s l).isNone && !(hpopEntry f g s l).binds))).raise g
      (g.lanes.filterMap fun l => (hpopTrap f g s l).map fun k => (l, k))

theorem exec_hpop (f : VForm) (s : State) : exec (.hpop f) s = issue (.hpop f) s lawful (hpopEffect f) := rfl

theorem hpopLanes_nil (f : VForm) (g : Grp) (s : State) : hpopLanes f g s [] = s := by
  unfold hpopLanes
  rw [s.modLanes_nil]
  exact s.modWave_self g.w _ rfl

/-- Lanes that trap do nothing else. -/
theorem hpopEffect_traps (f : VForm) (g : Grp) (s : State) (k : TrapKind) (h : ∀ l ∈ g.lanes, hpopTrap f g s l = some k) :
    hpopEffect f g s = s.raise g (g.lanes.map fun l => (l, k)) := by
  have hok : (g.lanes.filter fun l => (hpopTrap f g s l).isNone && !(hpopEntry f g s l).binds) = [] := by
    refine List.filter_eq_nil_iff.mpr fun l hl => ?_
    simp [h l hl]
  have hbad : (g.lanes.filterMap fun l => (hpopTrap f g s l).map fun k => (l, k)) = g.lanes.map fun l => (l, k) := by
    rw [← List.filterMap_eq_map]
    exact List.filterMap_congr fun l hl => by simp [h l hl]
  have hbind : ∀ l ∈ g.lanes, hpopBind f g s s l = s := fun l hl => by simp [hpopBind, h l hl]
  unfold hpopEffect
  rw [hok, hbad, hpopLanes_nil, foldl_eq_self _ s _ hbind]

theorem hpopTrap_ok {f : VForm} {g : Grp} {s : State} {l : Nat} (hfid : (hpopFid f (s.thread g.w l) (g.a l)).isSome)
    (hentry : hpopEntry f g s l = .ok) : hpopTrap f g s l = none := by
  obtain ⟨x, hx⟩ := Option.isSome_iff_exists.mp hfid
  simp [hpopTrap, hx, hentry]

/-- What a lane's check says is not changed by what other lanes of its wave do. -/
theorem hpopBind_ok {f : VForm} {g : Grp} {s : State} {l : Nat} (hentry : hpopEntry f g s l = .ok) (ok : List Nat) :
    hpopBind f g s (hpopLanes f g s ok) l = hpopLanes f g s ok := by
  have hsame : ((hpopRet f g s l).map fun r => (hpopLanes f g s ok).entryCheck g.src.ctx r.pc).getD .ok = .ok := hentry
  unfold hpopBind
  rw [hsame]
  split <;> rfl

/-- Lanes that hold a frame, and whose returns pass their checks, all pop and return. -/
theorem hpopEffect_goes (f : VForm) (g : Grp) (s : State)
    (h : ∀ l ∈ g.lanes, (hpopFid f (s.thread g.w l) (g.a l)).isSome ∧ hpopEntry f g s l = .ok) :
    hpopEffect f g s = hpopLanes f g s g.lanes := by
  have htrap : ∀ l ∈ g.lanes, hpopTrap f g s l = none := fun l hl => hpopTrap_ok (h l hl).1 (h l hl).2
  have hok : (g.lanes.filter fun l => (hpopTrap f g s l).isNone && !(hpopEntry f g s l).binds) = g.lanes := by
    refine List.filter_eq_self.mpr fun l hl => ?_
    simp [htrap l hl, (h l hl).2, Entry.binds]
  have hbad : (g.lanes.filterMap fun l => (hpopTrap f g s l).map fun k => (l, k)) = [] := by
    refine List.filterMap_eq_nil_iff.mpr fun l hl => ?_
    simp [htrap l hl]
  unfold hpopEffect
  rw [hok, hbad, State.raise_nil, foldl_eq_self _ _ _ fun l hl => hpopBind_ok (h l hl).2 g.lanes]

/-! ## Lanes without a return record -/

/-- The identity that `hpop` names in a lane. -/
def hpopNames (f : VForm) (t : Thread) (a : W128) (fid : W32) : Prop :=
  if f.ty = .b128 then fid = word32 a 2 else t.frames.head?.map (·.fid) = some fid

theorem hpopFid_of_names {f : VForm} {t : Thread} {a : W128} {fid : W32} (h : hpopNames f t a fid) :
    ∃ pops, hpopFid f t a = some (fid, pops) := by
  unfold hpopNames at h
  unfold hpopFid
  split at h
  · next hty => exact ⟨false, by rw [if_pos hty, h]⟩
  · next hty =>
    obtain ⟨x, hx, rfl⟩ := Option.map_eq_some_iff.mp h
    exact ⟨true, by rw [if_neg hty, hx]; rfl⟩

theorem hpopRet_of_names {f : VForm} {g : Grp} {s : State} {l : Nat} {fid : W32} (h : hpopNames f (s.thread g.w l) (g.a l) fid) :
    hpopRet f g s l = (s.thread g.w l).rets.find? fun r => r.fid == fid := by
  obtain ⟨pops, hfid⟩ := hpopFid_of_names h
  unfold hpopRet
  rw [hfid]
  rfl

theorem hpopLanes_none (f : VForm) (g : Grp) (s : State) (h : ∀ l ∈ g.lanes, hpopRet f g s l = none) :
    hpopLanes f g s g.lanes = s.modLanes g.w g.lanes fun _ t => (t.popped f).trim := by
  have hback : hpopBack f g s g.lanes = [] := List.filterMap_eq_nil_iff.mpr fun l hl => by simp [h l hl]
  unfold hpopLanes
  rw [hback, State.modWave_self _ g.w _ rfl]
  exact s.modLanes_congr g.w g.lanes _ _ fun l hl => by rw [h l hl]; rfl

/-! ## A lane that returns to its return record -/

/-- Saved values written into the registers from register `n` on. -/
theorem Thread.v_setSaved (regs : List SavedReg) (n l blk k : Nat) (t : Thread) :
    ((regs.zipIdx n).foldl (fun (t : Thread) e => t.setV e.2 (e.1.value l blk)) t).v k =
      if n ≤ k ∧ k < n + regs.length then (regs.getD (k - n) (.general 0)).value l blk else t.v k := by
  induction regs generalizing n t with
  | nil => simp
  | cons r regs ih =>
    rw [List.zipIdx_cons, List.foldl_cons, ih, Thread.v_setV, List.length_cons]
    by_cases hk : k = n
    · subst hk; simp
    · by_cases hin : n + 1 ≤ k ∧ k < n + 1 + regs.length
      · have hsub : k - n = (k - (n + 1)) + 1 := by omega
        rw [if_pos hin, if_pos (by omega), hsub, List.getD_cons_succ]
      · rw [if_neg hin, if_neg hk, if_neg (by omega)]

theorem Thread.setSaved_fields (regs : List SavedReg) (n l blk : Nat) (t : Thread) :
    (regs.zipIdx n).foldl (fun (t : Thread) e => t.setV e.2 (e.1.value l blk)) t =
      { t with vregs := ((regs.zipIdx n).foldl (fun (t : Thread) e => t.setV e.2 (e.1.value l blk)) t).vregs } :=
  foldl_rel (fun a b : Thread => b = { a with vregs := b.vregs }) (fun _ => rfl) (fun a b c h1 h2 => by rw [h2, h1])
    (fun (t : Thread) (e : SavedReg × Nat) => t.setV e.2 (e.1.value l blk)) (fun _ _ => rfl) _ t

/-- A thread with the registers and predicates of a record. -/
def Thread.restored (t : Thread) (r : Record) (l blk : Nat) : Thread :=
  { r.regs.zipIdx.foldl (fun (t : Thread) e => t.setV e.2 (e.1.value l blk)) t with preds := r.preds ||| 1 }

theorem Wave.thread_restoreRegs (wv : Wave) (l : Nat) (r : Record) (hl : l < wv.threads.length) :
    (wv.restoreRegs [(l, r)]).thread l = (wv.thread l).restored r l wv.width.block := by
  unfold Wave.restoreRegs
  have htags := foldl_inv (fun w : Wave => w.thread l = (wv.thread l).restored r l wv.width.block)
    (fun wv2 k => wv2.retag (([(l, r)].filter fun x => decide (k < x.2.regs.length)).map (·.1)) k 1 (restoredTag wv [(l, r)] k))
    (fun w k hw => by rw [Wave.retag_thread]; exact hw)
  exact htags _ _ (wv.thread_modThread l _ hl)

theorem Wave.length_restoreRegs (wv : Wave) (l : Nat) (r : Record) :
    (wv.restoreRegs [(l, r)]).threads.length = wv.threads.length := by
  unfold Wave.restoreRegs
  have htags := foldl_inv (fun w : Wave => w.threads.length = wv.threads.length)
    (fun wv2 k => wv2.retag (([(l, r)].filter fun x => decide (k < x.2.regs.length)).map (·.1)) k 1 (restoredTag wv [(l, r)] k))
    (fun w k hw => by rw [Wave.retag_threads]; exact hw)
  exact htags _ _ (wv.length_modThread l _)

/-- A thread after a double register is written for its lane. -/
theorem Wave.thread_put_d (wv : Wave) (n : BitVec 10) (l : Nat) (val : Nat → W128) (tag : Nat → Tag) (hl : l < wv.threads.length) :
    (wv.put ⟨.d, n⟩ [l] val tag).thread l = (wv.thread l).setWords n.toNat 2 (val l) := by
  simp only [Wave.put, Wave.retag_thread, Wave.thread_modLanes _ _ _ _ hl, List.mem_singleton, if_true, OpKind.words]

/-- A thread that returns to a record. -/
theorem Wave.thread_returned (wv : Wave) (g : Grp) (l : Nat) (r : RetRec) (hl : l < wv.threads.length) (hd : r.dreg < 1023) :
    (wv.returned g [(l, r)]).thread l =
      ((wv.thread l).restored r.saved l wv.width.block).setWords r.dreg 2 (ext64 (lo64 (g.a l))) := by
  have hput : wv.returned g [(l, r)] =
      (wv.restoreRegs [(l, r.saved)]).put ⟨.d, BitVec.ofNat 10 r.dreg⟩ [l] (fun l => ext64 (lo64 (g.a l))) g.tag := by
    simp [Wave.returned, distinct]
  have hnum : (BitVec.ofNat 10 r.dreg).toNat = r.dreg := by simp; omega
  rw [hput, Wave.thread_put_d _ _ _ _ _ (by rwa [Wave.length_restoreRegs]), Wave.thread_restoreRegs _ _ _ hl, hnum]

/-- The only executing lane, after its return to a record. -/
theorem hpopLanes_thread {f : VForm} {g : Grp} {s : State} {l : Nat} {r : RetRec} (hw : g.w < s.waves.length)
    (hl : l < (s.wave g.w).threads.length) (hret : hpopRet f g s l = some r) (hd : r.dreg < 1023) :
    (hpopLanes f g s [l]).thread g.w l =
      ((hpopThread f (some r) (s.thread g.w l)).restored r.saved l (s.wave g.w).width.block).setWords r.dreg 2
        (ext64 (lo64 (g.a l))) := by
  have hback : hpopBack f g s [l] = [(l, r)] := by simp [hpopBack, hret]
  have hthread : ((s.wave g.w).modLanes [l] fun l => hpopThread f (hpopRet f g s l)).thread l =
      hpopThread f (some r) (s.thread g.w l) := by
    rw [Wave.thread_modLanes _ _ _ _ hl, if_pos (by simp), hret]
    rfl
  have hmod : (s.modLanes g.w [l] fun l => hpopThread f (hpopRet f g s l)).wave g.w =
      (s.wave g.w).modLanes [l] fun l => hpopThread f (hpopRet f g s l) := State.wave_modWave _ _ _ hw
  unfold hpopLanes State.thread
  rw [hback, State.wave_modWave _ _ _ (by simpa [State.modLanes, State.modWave] using hw), hmod,
    Wave.thread_returned _ _ _ _ (by rwa [Wave.length_modLanes]) hd, hthread]
  rfl

/-- The fields of a thread that returned to a record. -/
structure ReturnedTo (f : VForm) (t0 t : Thread) (r : RetRec) (a : W64) (l blk : Nat) : Prop where
  pc : t.pc = r.pc
  frames : t.frames = if f.ty = .b128 then t0.frames else t0.frames.tail
  rets : t.rets = (t0.rets.dropWhile fun x => x.fid != r.fid).tail
  preds : t.preds = r.preds ||| 1
  dest : t.dv r.dreg = a
  saved : ∀ k, k < r.regs.length → k ≠ r.dreg → k ≠ r.dreg + 1 → t.v k = (r.regs.getD k (.general 0)).value l blk
  others : ∀ k, r.regs.length ≤ k → k ≠ r.dreg → k ≠ r.dreg + 1 → t.v k = t0.v k

theorem Thread.v_restored (t : Thread) (r : Record) (l blk k : Nat) :
    (t.restored r l blk).v k = if k < r.regs.length then (r.regs.getD k (.general 0)).value l blk else t.v k := by
  refine (Thread.v_setSaved r.regs 0 l blk k t).trans ?_
  simp

theorem Thread.popped_fields (t : Thread) (f : VForm) :
    t.popped f = { t with frames := if f.ty = .b128 then t.frames else t.frames.tail } := by
  unfold Thread.popped
  split <;> rfl

theorem hpopThread_some (f : VForm) (r : RetRec) (t : Thread) : hpopThread f (some r) t =
    { t with
      frames := if f.ty = .b128 then t.frames else t.frames.tail
      rets := (t.rets.dropWhile fun x => x.fid != r.fid).tail, pc := r.pc
      areas := (hpopThread f (some r) t).areas } := by
  unfold hpopThread
  rw [Thread.popped_fields]
  rfl

theorem Thread.restored_fields (t : Thread) (r : Record) (l blk : Nat) :
    t.restored r l blk = { t with vregs := (t.restored r l blk).vregs, preds := r.preds ||| 1 } := by
  unfold Thread.restored
  rw [Thread.setSaved_fields]

theorem returnedTo (f : VForm) (t0 : Thread) (r : RetRec) (a : W64) (l blk : Nat) :
    ReturnedTo f t0 (((hpopThread f (some r) t0).restored r.saved l blk).setWords r.dreg 2 (ext64 a)) r a l blk := by
  have hother : ∀ k, k ≠ r.dreg → k ≠ r.dreg + 1 →
      (((hpopThread f (some r) t0).restored r.saved l blk).setWords r.dreg 2 (ext64 a)).v k =
        if k < r.regs.length then (r.regs.getD k (.general 0)).value l blk else t0.v k := by
    intro k h1 h2
    rw [Thread.v_setWords, if_neg (by omega), Thread.v_restored, hpopThread_some]
    rfl
  have hdest : (((hpopThread f (some r) t0).restored r.saved l blk).setWords r.dreg 2 (ext64 a)).dv r.dreg = a := by
    have hlo : lo64 (ext64 a) = a := by simp [lo64, ext64]
    rw [Thread.dv, Thread.v_setWords, Thread.v_setWords, if_pos (by omega), if_pos (by omega)]
    simpa [hlo] using word32_pair (ext64 a)
  refine ⟨?pc, ?frames, ?rets, ?preds, hdest, fun k hk h1 h2 => by rw [hother k h1 h2, if_pos hk],
    fun k hk h1 h2 => by rw [hother k h1 h2, if_neg (by omega)]⟩
  case preds => rw [Thread.setWords_fields, Thread.restored_fields]; rfl
  case pc | frames | rets => rw [Thread.setWords_fields, Thread.restored_fields, hpopThread_some]

/-- The end of an issue changes no field that a return to a record sets. -/
theorem ReturnedTo.finish {f : VForm} {t0 : Thread} {m : State} {g : Grp} {r : RetRec} {a : W64} {l blk : Nat}
    (h : ReturnedTo f t0 (m.thread g.w l) r a l blk) (hw : g.w < m.waves.length) :
    ReturnedTo f t0 ((m.finish g).thread g.w l) r a l blk := by
  obtain ⟨_, _, hthread⟩ := m.finish_wave g hw
  have hhold : (m.finish g).thread g.w l = { m.thread g.w l with hold := ((m.finish g).thread g.w l).hold } := hthread l
  rw [hhold]
  exact ⟨h.pc, h.frames, h.rets, h.preds, h.dest, h.saved, h.others⟩

/-! ## The statement -/

theorem Issues.issued_wave {i : Instr} {s : State} {sl : Slot} (h : Issues i s sl) :
    (s.groupOf i sl).w < (s.issued (s.groupOf i sl)).waves.length := by
  show sl.wave < (modifyAt s.waves sl.wave _).length
  rw [length_modifyAt]
  exact h.wave

theorem Issues.issued_lane {i : Instr} {s : State} {sl : Slot} (h : Issues i s sl) {l : Nat} (hl : l ∈ (s.groupOf i sl).lanes) :
    l < ((s.issued (s.groupOf i sl)).wave (s.groupOf i sl).w).threads.length := by
  have hmoved : (s.issued (s.groupOf i sl)).wave (s.groupOf i sl).w = s.moved (s.groupOf i sl) :=
    State.wave_modWave s _ _ h.wave
  rw [hmoved]
  exact h.lane hl

/-- What a push changes and what it leaves (R152). -/
theorem State.push_frame {s u : State} {w l : Nat} {hpc : W64} {mask mtch : W32} (hw : w < s.waves.length)
    (hl : l < (s.wave w).threads.length) (h : s.push w l hpc mask mtch = some u) :
    (∃ areas, u.thread w l = { (s.thread w l).pushed hpc mask mtch with areas := areas }) ∧
    (∀ k, k ≠ l → u.thread w k = s.thread w k) ∧ (∀ x, x ≠ w → u.wave x = s.wave x) ∧
    u = { s with mem := u.mem, poison := u.poison, dirty := u.dirty, fetchLines := u.fetchLines, waves := u.waves } := by
  obtain ⟨areas, hpush⟩ := State.push_some h
  refine ⟨⟨areas, ?_⟩, fun k hk => ?_, fun x hx => ?_, ?_⟩
  · rw [hpush.thread, State.thread_modThread _ _ _ _ hw hl]
  · rw [hpush.thread, State.thread_modThread_ne _ _ _ _ _ hw hk]
  · rw [hpush.wave, State.modThread, State.wave_modWave_ne _ _ _ _ hx]
  · rw [hpush]; rfl

/-- Settles O27: a push changes one lane's stack, and `hpop` falls into lanes that trap, lanes with no record, and lanes that return. -/
theorem handlerFramesArePushedAndPopped : Obligations.HandlerFramesArePushedAndPopped := by
  unfold Obligations.HandlerFramesArePushedAndPopped
  refine ⟨fun f s sl h => ?push, fun s u w l hpc mask mtch hw hl h => ?frame, fun f s sl l u h => ?spill, fun f s sl h => ?target,
    fun f s sl h => ?pop, fun f s sl h hty => ?protect, fun f s sl l fid r h => ?back⟩
  case push =>
    intro g hin hnodup hroom
    rw [h.performs _ (exec_hpush f s)]
    unfold State.after hpushEffect
    rw [if_neg (by simpa using hin), pushLanes_short f _ _ _ hnodup h.issued_wave fun l hl => ⟨h.issued_lane hl, hroom l hl⟩]
    rfl
  case frame =>
    obtain ⟨⟨areas, ht⟩, hothers, hwaves, hrest⟩ := State.push_frame hw hl h
    rw [ht]
    exact ⟨rfl, rfl, rfl, rfl, hothers, hwaves, hrest⟩
  case spill =>
    intro g hin hlanes hpush
    rw [h.performs _ (exec_hpush f s)]
    unfold State.after hpushEffect
    rw [if_neg (by simpa using hin)]
    have hlane : pushLane f g (s.issued g) l = u := by
      unfold pushLane
      rw [hpush]
    rw [hlanes, List.foldl_cons, List.foldl_nil, hlane]
  case target =>
    intro g hout
    rw [h.performs _ (exec_hpush f s)]
    unfold State.after hpushEffect
    rw [if_pos hout]
  case pop =>
    intro g hnone
    have hret : ∀ l ∈ g.lanes, (hpopFid f ((s.issued g).thread g.w l) (g.a l)).isSome ∧ hpopRet f g (s.issued g) l = none := by
      intro l hl
      obtain ⟨fid, hnames, hother⟩ := hnone l hl
      obtain ⟨pops, hfid⟩ := hpopFid_of_names (f := f) hnames
      refine ⟨by rw [hfid]; rfl, ?_⟩
      rw [hpopRet_of_names hnames]
      exact List.find?_eq_none.mpr fun r hr => by simpa using hother r hr
    have hgoes := hpopEffect_goes f g (s.issued g) fun l hl => ⟨(hret l hl).1, by simp [hpopEntry, (hret l hl).2]⟩
    rw [h.performs _ (exec_hpop f s)]
    unfold State.after
    rw [hgoes, hpopLanes_none f g _ fun l hl => (hret l hl).2]
    rfl
  case protect =>
    intro g hframes
    have htraps := hpopEffect_traps f g (s.issued g) .protect fun l hl => by simp [hpopTrap, hpopFid, hty, hframes l hl]
    rw [h.performs _ (exec_hpop f s)]
    unfold State.after
    rw [htraps]
  case back =>
    intro g t0 hlanes hnames hfind hd
    have hl : l ∈ g.lanes := by simp [hlanes]
    have hnames' : hpopNames f ((s.issued g).thread g.w l) (g.a l) fid := hnames
    obtain ⟨pops, hfid⟩ := hpopFid_of_names hnames'
    have hret : hpopRet f g (s.issued g) l = some r := (hpopRet_of_names hnames').trans hfind
    have hentry : hpopEntry f g (s.issued g) l = (s.issued g).entryCheck g.src.ctx r.pc := by simp [hpopEntry, hret]
    rw [h.performs _ (exec_hpop f s)]
    refine ⟨fun hok => ⟨_, rfl, ?_⟩, fun hbad => ?_⟩
    · have hgoes := hpopEffect_goes f g (s.issued g) fun k hk => by
        obtain rfl : k = l := by simpa [hlanes] using hk
        exact ⟨by rw [hfid]; rfl, hentry.trans hok⟩
      have hthread := hpopLanes_thread h.issued_wave (h.issued_lane hl) hret hd
      have hreturned : ReturnedTo f t0 ((hpopLanes f g (s.issued g) [l]).thread g.w l) r (lo64 (g.a l)) l
          ((s.issued g).wave g.w).width.block := by
        rw [hthread]
        exact returnedTo f t0 r _ l _
      have hfinished := hreturned.finish (by simpa [hpopLanes, State.modLanes, State.modWave] using h.issued_wave)
      have hfid' : r.fid = fid := by simpa using List.find?_some hfind
      unfold State.after
      rw [hgoes, hlanes]
      obtain ⟨hpc, hframes, hrets, hpreds, hdest, hsaved, hothers⟩ := hfinished
      exact ⟨hpc, hframes, by rw [hrets, hfid'], hpreds, hdest, hsaved, hothers⟩
    · have htraps := hpopEffect_traps f g (s.issued g) .target fun k hk => by
        obtain rfl : k = l := by simpa [hlanes] using hk
        simp [hpopTrap, hfid, hentry, hbad]
      unfold State.after
      rw [htraps, hlanes]
      rfl

end Sys2Proof.Machine

/-! SUPPORT. Issue cycles and the active set (R149, R266, R267, R22): what a tile's engines do in a cycle leaves every wave on its
partition, the other clocks and the turn; what an issue cycle chooses is of its partition. -/

namespace Sys2Proof.Machine

/-! ## Stations -/

/-- Where a wave stands: its tile, its partition, and its half of a hardware slot. -/
def Wave.station (wv : Wave) : Bool × Nat × Nat × Nat := (wv.resident, wv.tile, wv.part, wv.half)

/-- Two states with the same turn, the same clocks, and every wave at the same place. -/
structure sameStations (s t : State) : Prop where
  turn : t.turn = s.turn
  clocks : t.tiles.map (·.cycle) = s.tiles.map (·.cycle)
  stations : t.waves.map Wave.station = s.waves.map Wave.station

theorem sameStations.refl (s : State) : sameStations s s := ⟨rfl, rfl, rfl⟩

theorem sameStations.trans {s t u : State} (h : sameStations s t) (k : sameStations t u) : sameStations s u :=
  ⟨k.turn.trans h.turn, k.clocks.trans h.clocks, k.stations.trans h.stations⟩

theorem sameStations_foldl {α : Type} (f : State → α → State) (hf : ∀ s a, sameStations s (f s a)) (l : List α) (s : State) :
    sameStations s (l.foldl f s) :=
  foldl_rel sameStations sameStations.refl (fun _ _ _ => sameStations.trans) f hf l s

theorem map_modifyAt {α β : Type} (xs : List α) (i : Nat) (f : α → α) (p : α → β) (h : ∀ x, p (f x) = p x) :
    (modifyAt xs i f).map p = xs.map p := by
  refine List.ext_getElem? fun k => ?_
  rw [List.getElem?_map, List.getElem?_map, getElem?_modifyAt]
  split
  · cases xs[k]? with
    | none => rfl
    | some x => exact congrArg some (h x)
  · rfl

theorem State.modTile_stations (s : State) (t : Nat) (f : Tile → Tile) (h : ∀ x, (f x).cycle = x.cycle) :
    sameStations s (s.modTile t f) := ⟨rfl, map_modifyAt s.tiles t f _ h, rfl⟩

theorem State.modWave_stations (s : State) (w : Nat) (f : Wave → Wave) (h : ∀ x, (f x).station = x.station) :
    sameStations s (s.modWave w f) := ⟨rfl, rfl, map_modifyAt s.waves w f _ h⟩

theorem sameButStored.sameStations {s t : State} (h : sameButStored s t) : sameStations s t := by
  rw [h]
  exact ⟨rfl, rfl, rfl⟩

theorem getD_map_of_eq {α β : Type} {xs ys : List α} {p : α → β} (h : ys.map p = xs.map p) (i : Nat) (d : α) :
    p (ys.getD i d) = p (xs.getD i d) := by
  rw [← List.getD_map (f := p), ← List.getD_map (f := p), h]

theorem sameStations.cycle {s t : State} (h : sameStations s t) (i : Nat) : (t.tile i).cycle = (s.tile i).cycle :=
  getD_map_of_eq (p := fun x : Tile => x.cycle) h.clocks i Tile.reset

theorem sameStations.station {s t : State} (h : sameStations s t) (w : Nat) : (t.wave w).station = (s.wave w).station :=
  getD_map_of_eq h.stations w Wave.blank

theorem sameStations.tiles {s t : State} (h : sameStations s t) : t.tiles.length = s.tiles.length := by
  simpa using congrArg List.length h.clocks

/-! ## What the engines do -/

theorem State.modCmd_stations (s : State) (t id : Nat) (f : Cmd → Cmd) : sameStations s (s.modCmd t id f) :=
  s.modTile_stations t _ fun _ => rfl

theorem State.dropCmd_stations (s : State) (t id : Nat) : sameStations s (s.dropCmd t id) := s.modTile_stations t _ fun _ => rfl

theorem State.request_stations (s : State) (p : Packet) : sameStations s (s.request p) := ⟨rfl, rfl, rfl⟩

theorem State.requestFor_stations {s u : State} {tile w l t : Nat} {part : List Byte} {use : ReqUse} {p : Packet}
    (h : s.requestFor tile w l part use p = some (u, t)) : sameStations s u := by
  obtain ⟨t', -, e⟩ := Option.map_eq_some_iff.mp h
  cases e
  exact ⟨rfl, rfl, rfl⟩

/-- A request, or nothing where no tag is free. -/
theorem State.requestFor_getD_stations (s : State) (tile w l : Nat) (part : List Byte) (use : ReqUse) (p : Packet) :
    sameStations s (((s.requestFor tile w l part use p).map (·.1)).getD s) := by
  cases h : s.requestFor tile w l part use p with
  | none => exact .refl s
  | some u => exact State.requestFor_stations h

theorem State.post_stations (s : State) (r : FaultRec) : sameStations s (s.post r).1 := by
  unfold State.post
  dsimp only
  split
  · exact ⟨rfl, rfl, rfl⟩
  · split
    · exact .refl s
    · exact ⟨rfl, rfl, rfl⟩

theorem State.postOnce_stations (s : State) (op : Instr) (r : FaultRec) : sameStations s (s.postOnce op r) := by
  unfold State.postOnce
  have h := s.post_stations r
  split
  · exact .refl s
  · split
    · next e => rw [e] at h; exact ⟨h.turn, h.clocks, h.stations⟩
    · next e => rw [e] at h; exact h

theorem State.recallFrom_stations (s : State) (page : Nat) (nodes : List Nat) : sameStations s (s.recallFrom page nodes) :=
  sameStations_foldl _ (fun s n => by
    split
    · exact .refl s
    · exact s.request_stations _) _ _

theorem State.countPiece_stations (s : State) (p : Piece) : sameStations s (s.countPiece p) := by
  unfold State.countPiece
  split <;> exact ⟨rfl, rfl, rfl⟩

theorem State.count_stations (s : State) (ps : List Piece) : sameStations s (s.count ps) :=
  sameStations_foldl _ State.countPiece_stations _ _

theorem State.countStore_stations (s : State) (ps qs : List Piece) (bs : List Byte) : sameStations s ((s.count ps).store qs bs) :=
  (s.count_stations ps).trans ((s.count ps).store_sameButStored qs bs).sameStations

theorem State.cmdMiss_stations (s : State) (tile : Nat) (c : Cmd) (page : Nat) (r : FaultRec) :
    sameStations s (s.cmdMiss tile c page r) := by
  unfold State.cmdMiss
  split
  · exact .refl s
  · exact (s.post_stations r).trans (State.modCmd_stations _ _ _ _)

theorem State.askBlock_stations (s : State) (tile id w step : Nat) (p : Packet) : sameStations s (s.askBlock tile id w step p) := by
  unfold State.askBlock
  split
  · exact .refl s
  · exact s.requestFor_getD_stations _ _ _ _ _ _

theorem State.askCmd_stations (s : State) (tile : Nat) (c : Cmd) (line : Nat) (p : Packet) : sameStations s (s.askCmd tile c line p) :=
  s.requestFor_getD_stations _ _ _ _ _ _

theorem State.unaccept_stations (s : State) (w t id : Nat) : sameStations s (s.unaccept w t id) := s.modWave_stations w _ fun _ => rfl

theorem State.failClaim_stations (s : State) (tile : Nat) (c : Cmd) (why : FaultStatus) : sameStations s (s.failClaim tile c why) :=
  (s.modCmd_stations _ _ _).trans (State.unaccept_stations _ _ _ _)

theorem State.claimFar_stations (s : State) (tile : Nat) (c : Cmd) (blk : W64) (n h : Nat) :
    sameStations s (s.claimFar tile c blk n h) := by
  have hagain := s.modCmd_stations tile c.id fun c => { c with seen := [] }
  unfold State.claimFar
  dsimp only
  split
  · exact s.askBlock_stations _ _ _ _ _
  · split
    · exact hagain
    · split
      · exact s.askBlock_stations _ _ _ _ _
      · split
        · exact hagain.trans (State.modCmd_stations _ _ _ _)
        · exact hagain

theorem State.claim_stations (s : State) (tile id : Nat) : sameStations s (s.claim tile id) := by
  unfold State.claim
  split
  · exact .refl s
  · next c =>
    split
    · exact .refl s
    · split
      · exact .refl s
      · split
        · dsimp only
          split
          · exact .refl s
          · exact (s.countStore_stations _ _ _).trans (State.modCmd_stations _ _ _ _)
        · exact s.cmdMiss_stations _ _ _ _
        · exact s.recallFrom_stations _ _
        · exact s.claimFar_stations _ _ _ _ _
        · exact s.failClaim_stations _ _ _
        · exact .refl s

theorem State.tryFill_stations (s : State) (tile : Nat) (f : Fill) : sameStations s (s.tryFill tile f) := by
  have hdrop (u : State) : sameStations u (u.modTile tile fun x => { x with fills := x.fills.filter fun y => y.id != f.id }) :=
    u.modTile_stations tile _ fun _ => rfl
  unfold State.tryFill
  dsimp only
  split
  · exact .refl s
  · split
    · exact (s.countStore_stations _ _ _).trans (hdrop _)
    · exact (s.askBlock_stations _ _ _ _ _).trans (State.modTile_stations _ _ _ fun _ => rfl)
    · exact s.postOnce_stations _ _
    · exact s.recallFrom_stations _ _
    · exact .refl s
    · exact hdrop s

theorem State.fillSlot_stations (s : State) (tile : Nat) (c : Cmd) : sameStations s (s.fillSlot tile c) := by
  unfold State.fillSlot
  split
  · exact .refl s
  · next blk _ =>
    have hadd := s.modTile_stations tile (fun x => { x with fills := x.fills ++ [⟨c.id, c.wave, blk, false⟩] }) fun _ => rfl
    exact hadd.trans (State.tryFill_stations _ _ _)

theorem State.stepBlocks_stations (s : State) (tile : Nat) : sameStations s (s.stepBlocks tile) :=
  (sameStations_foldl _ (fun s c => by
    split
    · exact s.claim_stations _ _
    · exact .refl s) _ _).trans (sameStations_foldl _ (fun s f => s.tryFill_stations tile f) _ _)

theorem State.wakeFor_stations (s : State) (w t id : Nat) : sameStations s (s.wakeFor w t id) := by
  refine ⟨rfl, rfl, List.ext_getElem? fun k => ?_⟩
  simp only [State.wakeFor, List.getElem?_map, List.getElem?_mapIdx]
  cases s.waves[k]? <;> rfl

theorem State.abandon_stations (s : State) (tile : Nat) : sameStations s (s.abandon tile) :=
  sameStations_foldl _ (fun s c => by
    split
    · exact ((s.fillSlot_stations _ _).trans (State.dropCmd_stations _ _ _)).trans (State.wakeFor_stations _ _ _ _)
    · exact .refl s) _ _

theorem State.engineAsk_stations (s : State) (tile id : Nat) : sameStations s (s.engineAsk tile id) := by
  unfold State.engineAsk
  split
  · exact .refl s
  · split
    · exact .refl s
    · refine sameStations_foldl _ (fun s q => ?_) _ _
      split
      · exact s.cmdMiss_stations _ _ _ _
      · exact s.recallFrom_stations _ _
      · split
        · exact .refl s
        · refine sameStations_foldl _ (fun s p => ?_) _ _
          dsimp only
          split
          · exact .refl s
          · exact s.askCmd_stations _ _ _ _
      · exact .refl s

/-- What counts of accesses, stores and requests keep is kept when a row of a tensor's shadow is written. -/
theorem State.putRow_rel {R : State → State → Prop} (hr : ∀ s, R s s) (ht : ∀ s t u, R s t → R t u → R s u)
    (hstore : ∀ (s : State) ps bs, R s ((s.count ps).store ps bs)) (hask : ∀ (s : State) tile c line p, R s (s.askCmd tile c line p))
    (s : State) (tile : Nat) (c : Cmd) (r : Row) (bs : List Byte) : R s (s.putRow tile c r bs) := by
  unfold State.putRow
  refine foldl_inv (fun a : State × List Byte => R s a.1) _ (fun a q ha => ?_) _ (s, bs) (hr s)
  refine ht _ _ _ ha ?_
  dsimp only
  split
  · exact hstore a.1 _ _
  · exact foldl_inv (fun x : State × List Byte => R a.1 x.1) _
      (fun x p hx => ht _ _ _ hx (hask x.1 _ _ _ _)) _ (a.1, a.2) (hr a.1)
  · exact hr a.1

/-- The same for a row of a copy, in either direction. -/
theorem State.moveRow_rel {R : State → State → Prop} (hr : ∀ s, R s s) (ht : ∀ s t u, R s t → R t u → R s u)
    (hcount : ∀ (s : State) ps, R s (s.count ps)) (hstore : ∀ (s : State) ps bs, R s (s.store ps bs))
    (hask : ∀ (s : State) tile c line p, R s (s.askCmd tile c line p)) (s : State) (tile : Nat) (c : Cmd) (r : Row) :
    R s (s.moveRow tile c r) := by
  unfold State.moveRow
  split
  · exact hr s
  · split
    · exact State.putRow_rel hr ht (fun s ps bs => ht _ _ _ (hcount s ps) (hstore _ ps bs)) hask s tile c r _
    · refine ht _ _ _ (foldl_rel R hr ht _ (fun s q => ?_) _ _) (hstore _ _ _)
      split
      · exact hcount s _
      · exact hr s

theorem State.moveRow_stations (s : State) (tile : Nat) (c : Cmd) (r : Row) : sameStations s (s.moveRow tile c r) :=
  State.moveRow_rel .refl (fun _ _ _ => .trans) State.count_stations (fun s ps bs => (s.store_sameButStored ps bs).sameStations)
    State.askCmd_stations s tile c r

theorem State.clockCmd_stations (s : State) (tile : Nat) (c : Cmd) : sameStations s (s.clockCmd tile c) := by
  unfold State.clockCmd
  split
  · exact .refl s
  · refine .trans ?_ (State.modCmd_stations _ _ _ _)
    split
    · exact sameStations_foldl _ (fun s r => s.moveRow_stations tile c r) _ _
    · exact .refl s

/-- A cycle of a tile moves its clock on (R22) and no wave. -/
theorem State.tileCycle_stations (s : State) (tile : Nat) :
    sameStations (s.modTile tile fun x => { x with cycle := x.cycle + 1 }) (s.tileCycle tile) := by
  let s1 := (s.modTile tile fun x => { x with cycle := x.cycle + 1 }).countWaits tile
  have hasked := (s1.abandon_stations tile).trans
    (sameStations_foldl (fun s id => s.engineAsk tile id) (fun s id => s.engineAsk_stations tile id) ((s1.tile tile).cmds.map (·.id)) _)
  have hstepped := hasked.trans (State.stepBlocks_stations _ tile)
  have hcounted : sameStations (s.modTile tile fun x => { x with cycle := x.cycle + 1 }) s1 := ⟨rfl, rfl, rfl⟩
  exact hcounted.trans
    (hstepped.trans (sameStations_foldl _ (fun s c => s.clockCmd_stations tile c) _ _))

theorem State.modHw_stations (s : State) (w : Nat) (f : Wave → Wave) (h : ∀ x, (f x).station = x.station) :
    sameStations s (s.modHw w f) :=
  sameStations_foldl _ (fun s x => s.modWave_stations x f h) _ _

theorem State.readiness_stations (s : State) (tile part : Nat) : sameStations s (s.readiness tile part) := by
  unfold State.readiness
  refine sameStations_foldl _ (fun s w => ?_) _ _
  exact s.modHw_stations w _ fun _ => rfl

theorem Wave.counted_station (wv : Wave) (stamp : Nat) (all votes issued : List Slot) :
    (wv.counted stamp all votes issued).station = wv.station := by
  unfold Wave.counted
  refine foldl_inv (fun x : Wave => x.station = wv.station) _ (fun x sl hx => ?_) all _ rfl
  dsimp only
  split
  · exact hx
  · split
    · exact hx
    · exact hx

theorem State.cycleOf_stations (s : State) (w stamp : Nat) (issued : List Slot) : sameStations s (s.cycleOf w stamp issued) :=
  sameStations_foldl _ (fun s x => s.modWave_stations x _ fun wv => wv.counted_station _ _ _ _) _ _

/-! ## What a cycle chooses -/

theorem State.mem_partWaves {s : State} {tile part w : Nat} : w ∈ s.partWaves tile part ↔
    w < s.waves.length ∧ (s.wave w).resident = true ∧ (s.wave w).tile = tile ∧ (s.wave w).part = part := by
  simp [State.partWaves, and_assoc]

theorem State.mem_partWaves_of_packed {s : State} {tile part w x : Nat} (hw : w ∈ s.partWaves tile part) (hx : x ∈ s.packed w) :
    x ∈ s.partWaves tile part := by
  obtain ⟨_, _, htile, hpart⟩ := State.mem_partWaves.mp hw
  rw [State.packed, htile, hpart] at hx
  simp only [List.mem_append, List.mem_filter] at hx
  obtain ⟨⟨h, _⟩, _⟩ | ⟨⟨h, _⟩, _⟩ := hx <;> exact h

theorem State.mem_partWaves_of_hw {s : State} {tile part w : Nat} (h : w ∈ s.hwWaves tile part) : w ∈ s.partWaves tile part :=
  (List.mem_filter.mp h).1

theorem State.wave_of_readySlots {s : State} {w : Nat} {sl : Slot} (h : sl ∈ s.readySlots w) : sl.wave = w := by
  obtain ⟨l, _, rfl⟩ := List.mem_map.mp (List.mem_filter.mp h).1
  unfold Wave.slotOf
  dsimp only
  split <;> rfl

theorem State.voters_station {s : State} {tile part w : Nat} (hw : w ∈ s.partWaves tile part) {sl : Slot} (h : sl ∈ s.voters w) :
    sl.wave ∈ s.partWaves tile part := by
  obtain ⟨x, hx, hsl⟩ := List.mem_flatMap.mp h
  have hready : sl ∈ s.readySlots x := by
    dsimp only at hsl
    split at hsl
    · exact hsl
    · exact (List.mem_filter.mp hsl).1
  rw [State.wave_of_readySlots hready]
  exact State.mem_partWaves_of_packed hw hx

/-- A fold that keeps the better of two elements answers one of the list. -/
theorem mem_of_foldl_pick {α : Type} (f : Option α → α → Option α) (hf : ∀ m a, f m a = m ∨ f m a = some a) (l : List α) {x : α}
    (h : l.foldl f none = some x) : x ∈ l := by
  have key : ∀ y, l.foldl f none = some y → y ∈ l := by
    refine List.foldlRecOn l f (motive := fun m => ∀ y, m = some y → y ∈ l) (fun y hy => by cases hy) fun m hm a ha y hy => ?_
    rcases hf m a with h | h
    · exact hm y (h ▸ hy)
    · rw [h] at hy
      cases hy
      exact ha
  exact key x h

theorem mem_of_lowest {l : List Slot} {sl : Slot} (h : lowest l = some sl) : sl ∈ l := by
  refine mem_of_foldl_pick _ (fun m a => ?_) l h
  cases m with
  | none => exact .inr rfl
  | some x =>
    dsimp only
    split
    · exact .inr rfl
    · exact .inl rfl

theorem State.mem_of_promoted {s : State} {w : Nat} {l : List Slot} {sl : Slot} (h : s.promoted w l = some sl) : sl ∈ l := by
  unfold State.promoted at h
  obtain ⟨e, he, rfl⟩ := Option.map_eq_some_iff.mp h
  have hmem := mem_of_foldl_pick _ (fun m a => ?_) _ he
  · obtain ⟨x, _, hx⟩ := List.mem_flatMap.mp hmem
    obtain ⟨h, _, hfind⟩ := List.mem_filterMap.mp hx
    obtain ⟨sl, hsl, rfl⟩ := Option.map_eq_some_iff.mp hfind
    exact List.mem_of_find?_eq_some hsl
  · cases m with
    | none => exact .inr rfl
    | some x =>
      dsimp only
      split
      · exact .inr rfl
      · exact .inl rfl

theorem State.slot0_station {s : State} {tile part w : Nat} (hw : w ∈ s.partWaves tile part) {sl : Slot} (h : s.slot0 w = some sl) :
    sl.wave ∈ s.partWaves tile part := by
  refine State.voters_station hw ?_
  unfold State.slot0 at h
  dsimp only at h
  cases hp : s.promoted w (s.voters w) with
  | none => rw [hp] at h; exact mem_of_lowest h
  | some x => rw [hp] at h; cases h; exact State.mem_of_promoted hp

theorem State.slot1_station {s : State} {tile part w : Nat} (hw : w ∈ s.partWaves tile part) {a : Option Slot} {op : Option Instr}
    {sl : Slot} (h : s.slot1 w a op = some sl) : sl.wave ∈ s.partWaves tile part := by
  obtain ⟨hlow, _⟩ := Option.filter_eq_some_iff.mp h
  exact State.voters_station hw (List.mem_filter.mp (mem_of_lowest hlow)).1

theorem State.pairOf_wave {s : State} {a b : Slot} (h : s.pairOf a = some b) : b.wave = a.wave := by
  unfold State.pairOf at h
  dsimp only at h
  split at h
  · cases h
  · split at h
    · split at h
      · cases h; rfl
      · cases h
    · cases h

theorem State.mem_hwWaves_of_votes {s : State} {tile part w : Nat} (h : w ∈ s.votes tile part) : w ∈ s.hwWaves tile part := by
  refine List.foldlRecOn (motive := fun acc : List Nat => ∀ w ∈ acc, w ∈ s.hwWaves tile part)
    ((s.hwWaves tile part).filter fun w => (s.wave w).active && !(s.hwSlots w).isEmpty) _ (by simp) (fun acc hacc a ha w hw => ?_) w h
  rcases List.mem_append.mp hw with hw | hw
  · exact hacc w ((List.takeWhile_sublist _).mem hw)
  · rcases List.mem_cons.mp hw with rfl | hw
    · exact (List.mem_filter.mp ha).1
    · exact hacc w ((List.dropWhile_sublist _).mem hw)

theorem State.mem_partWaves_of_votes {s : State} {tile part w : Nat} (h : w ∈ s.votes tile part) : w ∈ s.partWaves tile part :=
  State.mem_partWaves_of_hw (State.mem_hwWaves_of_votes h)

/-- The first group of a list of voting waves. -/
theorem State.nextOf_station {s : State} {tile part : Nat} {ws : List Nat} (hws : ∀ w ∈ ws, w ∈ s.partWaves tile part) {sl : Slot}
    (h : ws.head?.bind s.slot0 = some sl) : sl.wave ∈ s.partWaves tile part := by
  obtain ⟨w, hw, hsl⟩ := Option.bind_eq_some_iff.mp h
  exact State.slot0_station (hws w (List.mem_of_head? hw)) hsl

theorem numbered_of_some {P : Slot → Prop} {o : Option Slot} (n : Nat) (h : ∀ sl, o = some sl → P sl) :
    (o.map fun b => (n, b)).toList.length ≤ 1 ∧ ∀ e ∈ (o.map fun b => (n, b)).toList, P e.2 := by
  cases o with
  | none => exact ⟨by simp, by simp⟩
  | some a => exact ⟨by simp, by simpa using h a rfl⟩

theorem orElse_of_some {P : Slot → Prop} {o : Option Slot} {k : Unit → Option Slot} (ho : ∀ sl, o = some sl → P sl)
    (hk : ∀ sl, k () = some sl → P sl) : ∀ sl, o.orElse k = some sl → P sl := by
  cases o with
  | none => exact hk
  | some a => exact ho

/-- What an issue cycle chooses is at most two groups of waves of its partition (R267). -/
theorem State.choose_station (s : State) (tile part : Nat) :
    (s.choose tile part).length ≤ 2 ∧ ∀ e ∈ s.choose tile part, e.2.wave ∈ s.partWaves tile part := by
  have hvotes : ∀ w ∈ s.votes tile part, w ∈ s.partWaves tile part := fun w hw => State.mem_partWaves_of_votes hw
  unfold State.choose
  dsimp only
  split
  · exact ⟨by simp, by simp⟩
  · obtain ⟨hlen, hstation⟩ := numbered_of_some 0 fun sl h => State.nextOf_station hvotes h
    exact ⟨by omega, hstation⟩
  · next p _ _ =>
    have hmate : ∀ sl, (if (s.partWaves tile part).contains p.wave then s.slot1 p.wave none p.op else none) = some sl →
        sl.wave ∈ s.partWaves tile part := by
      intro sl h
      split at h
      · next hp => exact State.slot1_station (by simpa using hp) h
      · cases h
    have hrest : ∀ w ∈ (s.votes tile part).filter (· != p.wave), w ∈ s.partWaves tile part :=
      fun w hw => hvotes w (List.mem_filter.mp hw).1
    obtain ⟨hlen, hstation⟩ := numbered_of_some 1 (orElse_of_some hmate
      (k := fun _ => ((s.votes tile part).filter (· != p.wave)).head?.bind s.slot0) fun sl h => State.nextOf_station hrest h)
    exact ⟨by omega, hstation⟩
  · split
    · exact ⟨by simp, by simp⟩
    · next w rest hcons =>
      rw [hcons] at hvotes
      have hw := hvotes w (by simp)
      split
      · exact ⟨by simp, by simp⟩
      · next a ha =>
        have hfirst := State.slot0_station hw ha
        have hpair : ∀ sl, s.pairOf a = some sl → sl.wave ∈ s.partWaves tile part := fun sl h => by
          rwa [State.pairOf_wave h]
        obtain ⟨hlen, hstation⟩ := numbered_of_some 1 (orElse_of_some
          (orElse_of_some (fun sl h => State.slot1_station hw h) (k := fun _ => s.pairOf a) hpair)
          (k := fun _ => rest.head?.bind s.slot0) fun sl h => State.nextOf_station (fun w hw => hvotes w (by simp [hw])) h)
        refine ⟨?_, fun e he => ?_⟩
        · rw [List.length_cons]
          exact Nat.succ_le_succ hlen
        · rcases List.mem_cons.mp he with rfl | he
          · exact hfirst
          · exact hstation e he

/-- The order of a cycle's slots takes none away and adds none. -/
theorem State.inOrder_slots (s : State) (sel : List Slot) :
    (s.inOrder sel).length = sel.length ∧ ∀ sl ∈ s.inOrder sel, ∃ sl' ∈ sel, sl.wave = sl'.wave := by
  unfold State.inOrder
  split
  · next a b =>
    dsimp only
    split
    · exact ⟨rfl, fun sl h => ⟨sl, h, rfl⟩⟩
    · split
      · split <;> exact ⟨rfl, by simp⟩
      · split <;> exact ⟨rfl, by simp⟩
  · exact ⟨rfl, fun sl h => ⟨sl, h, rfl⟩⟩

/-! ## The issue cycle -/

/-- The state that a cycle of a running tile chooses its groups in. -/
def State.cycleStart (s : State) (tile part : Nat) : State :=
  let next := { s with turn := nextTurn (tile * 6 + part) }
  let s0 := if part = 0 ∧ tile % 48 = 0 then next.dispatcherCycle (tile / 48) else next
  (if part = 0 then s0.tileCycle tile else s0).readiness tile part

/-- The state before its cycle, at the clock and the turn of it. -/
def State.ticked (s : State) (tile part : Nat) : State :=
  let next := { s with turn := nextTurn (tile * 6 + part) }
  if part = 0 then next.modTile tile fun x => { x with cycle := x.cycle + 1 } else next

theorem State.cycleStart_stations (s : State) (tile part : Nat) : sameStations (s.ticked tile part) (s.cycleStart tile part) := by
  unfold State.cycleStart State.ticked
  refine .trans ?_ (State.readiness_stations _ tile part)
  dsimp only
  by_cases h : part = 0
  · rw [if_pos h, if_pos h]
    refine .trans ?_ (State.tileCycle_stations _ tile)
    split
    · exact ⟨rfl, rfl, rfl⟩
    · exact .refl _
  · rw [if_neg h, if_neg h, if_neg fun hp => h hp.1]
    exact .refl _

/-- The state after the counting of a cycle, its slots not yet filled. -/
def State.cycleCounted (s1 : State) (tile part : Nat) : State :=
  let chosen := s1.choose tile part
  let sel := s1.inOrder (chosen.map (·.2))
  let stamp := (s1.tile tile).cycle.toNat + 1
  let going := ((s1.tile tile).passes.filter fun p => p.part == part).map (·.wave)
  let hw := distinct ((sel.map (·.wave) ++ going).map fun w => ((s1.packed w).head?).getD w)
  (hw.foldl (fun s w => s.cycleOf w stamp sel) s1).modTile tile fun t => { t with passes := s1.passesAfter tile part chosen }

theorem State.cycleCounted_stations (s1 : State) (tile part : Nat) : sameStations s1 (s1.cycleCounted tile part) :=
  (sameStations_foldl _ (fun s w => s.cycleOf_stations w _ _) _ _).trans (State.modTile_stations _ tile _ fun _ => rfl)

/-- The slots that a cycle fills. -/
def State.cycleSlots (s1 : State) (tile part : Nat) : List Slot :=
  (s1.inOrder ((s1.choose tile part).map (·.2))).map fun sl =>
    { sl with snap := sl.snap.map fun _ => (s1.cycleCounted tile part).wave sl.wave }

theorem exec_issueCycle_running (s : State) (tile part : Nat) (h : (s.tile tile).clock = .running) :
    exec (.issueCycle tile part) s = .next { (s.cycleStart tile part).cycleCounted tile part with
      slots := (s.cycleStart tile part).cycleSlots tile part } := by
  show execIssueCycle tile part s = _
  unfold execIssueCycle
  rw [if_neg (by simp [h])]
  rfl

theorem exec_issueCycle_stopped (s : State) (tile part : Nat) (h : (s.tile tile).clock ≠ .running) :
    let next : State := { s with turn := (tile * 6 + part + 1) % 1152 }
    exec (.issueCycle tile part) s = .next (if part = 0 ∧ tile % 48 = 0 then next.dispatcherCycle (tile / 48) else next) := by
  show execIssueCycle tile part s = _
  unfold execIssueCycle
  dsimp only
  rw [if_pos h]
  rfl

theorem State.cycleSlots_station (s1 : State) (tile part : Nat) : (s1.cycleSlots tile part).length ≤ 2 ∧
    ∀ sl ∈ s1.cycleSlots tile part, sl.wave ∈ s1.partWaves tile part := by
  obtain ⟨hlen, hstation⟩ := s1.choose_station tile part
  obtain ⟨hsame, hfrom⟩ := s1.inOrder_slots ((s1.choose tile part).map (·.2))
  refine ⟨by simpa [State.cycleSlots, hsame] using hlen, fun sl hsl => ?_⟩
  obtain ⟨sl1, hsl1, rfl⟩ := List.mem_map.mp hsl
  obtain ⟨sl2, hsl2, hwave⟩ := hfrom sl1 hsl1
  obtain ⟨e, he, rfl⟩ := List.mem_map.mp hsl2
  have hw : sl1.wave ∈ s1.partWaves tile part := hwave ▸ hstation e he
  exact hw

theorem State.ticked_wave (s : State) (tile part w : Nat) : (s.ticked tile part).wave w = s.wave w := by
  unfold State.ticked
  dsimp only
  split <;> rfl

theorem State.ticked_turn (s : State) (tile part : Nat) : (s.ticked tile part).turn = (tile * 6 + part + 1) % 1152 := by
  unfold State.ticked
  dsimp only
  split <;> rfl

theorem State.ticked_cycle (s : State) {tile : Nat} (part : Nat) (h : tile < s.tiles.length) :
    ((s.ticked tile part).tile tile).cycle = if part = 0 then (s.tile tile).cycle + 1 else (s.tile tile).cycle := by
  unfold State.ticked
  dsimp only
  split
  · exact congrArg Tile.cycle (State.tile_modTile _ tile _ h)
  · rfl

/-! ## The active set (R266) -/

theorem State.leaver_mem {s : State} {active : List Nat} {w x : Nat} (h : s.leaver active w = some x) : x ∈ active := by
  unfold State.leaver at h
  split at h
  · next y hy =>
    cases h
    exact List.mem_of_find?_eq_some hy
  · split at h
    · cases h
    · obtain ⟨hx, _⟩ := Option.filter_eq_some_iff.mp h
      refine mem_of_foldl_pick _ (fun m a => ?_) active hx
      cases m with
      | none => exact .inr rfl
      | some y =>
        dsimp only
        split
        · exact .inr rfl
        · exact .inl rfl

/-- Waves that share a hardware slot are packed alike. -/
theorem State.packed_eq_of_mem {s : State} {tile part w x : Nat} (hw : w ∈ s.partWaves tile part) (hx : x ∈ s.packed w) :
    s.packed x = s.packed w := by
  obtain ⟨_, _, htile, hpart⟩ := State.mem_partWaves.mp hw
  obtain ⟨_, _, htile', hpart'⟩ := State.mem_partWaves.mp (State.mem_partWaves_of_packed hw hx)
  have hhalf : (s.wave x).half / 2 = (s.wave w).half / 2 := by
    simp only [State.packed, List.mem_append, List.mem_filter, beq_iff_eq] at hx
    obtain ⟨⟨_, h⟩, _⟩ | ⟨⟨_, h⟩, _⟩ := hx <;> exact h
  simp only [State.packed, htile, hpart, htile', hpart', hhalf]

theorem State.mem_packed_of_hw {s : State} {tile part w : Nat} (h : w ∈ s.hwWaves tile part) : w ∈ s.packed w :=
  List.mem_of_head? (by simpa using (List.mem_filter.mp h).2)

/-- Two hardware waves of a partition share no wave. -/
theorem State.eq_of_mem_packed {s : State} {tile part w x : Nat} (hw : w ∈ s.hwWaves tile part) (hx : x ∈ s.hwWaves tile part)
    (h : x ∈ s.packed w) : x = w := by
  have hheadw : (s.packed w).head? = some w := by simpa using (List.mem_filter.mp hw).2
  have hheadx : (s.packed x).head? = some x := by simpa using (List.mem_filter.mp hx).2
  rw [State.packed_eq_of_mem (State.mem_partWaves_of_hw hw) h, hheadw] at hheadx
  exact (Option.some.inj hheadx).symm

theorem State.modHw_waves (s : State) (w : Nat) (f : Wave → Wave) :
    s.modHw w f = { s with waves := (s.modHw w f).waves } :=
  foldl_rel (fun a b : State => b = { a with waves := b.waves }) (fun _ => rfl) (fun a b c h1 h2 => by rw [h2, h1]) _
    (fun _ _ => rfl) _ s

/-- A field that a change sets alike in every wave, after the change of the waves of a list. -/
theorem State.field_modWaves {β : Type} (p : Wave → β) (f : Wave → Wave) (b : β) (hf : ∀ wv, p (f wv) = b) (ls : List Nat) (s : State)
    {x : Nat} (hx : x < s.waves.length) :
    p ((ls.foldl (fun s y => s.modWave y f) s).wave x) = if x ∈ ls then b else p (s.wave x) := by
  induction ls generalizing s with
  | nil => simp
  | cons y ls ih =>
    rw [List.foldl_cons, ih (s.modWave y f) (by rwa [State.modWave_waves, length_modifyAt])]
    by_cases hy : x = y
    · subst hy
      rw [State.wave_modWave _ _ _ hx, hf]
      simp
    · rw [State.wave_modWave_ne _ _ _ _ hy]
      simp [hy]

theorem State.active_modHw (s : State) (w : Nat) (f : Wave → Wave) (b : Bool) (hf : ∀ wv, (f wv).active = b) {x : Nat}
    (hx : x < s.waves.length) : ((s.modHw w f).wave x).active = if x ∈ s.packed w then b else (s.wave x).active :=
  State.field_modWaves Wave.active f b hf _ s hx

theorem sameStations.waves {s t : State} (h : sameStations s t) : t.waves.length = s.waves.length := by
  simpa using congrArg List.length h.stations

theorem sameStations.partWaves {s t : State} (h : sameStations s t) (tile part : Nat) :
    t.partWaves tile part = s.partWaves tile part := by
  unfold State.partWaves
  rw [h.waves]
  refine List.filter_congr fun w _ => ?_
  obtain ⟨hres, htile, hpart, _⟩ : _ ∧ _ ∧ _ ∧ _ := by simpa only [Wave.station, Prod.mk.injEq] using h.station w
  simp only [hres, htile, hpart]

theorem sameStations.packed {s t : State} (h : sameStations s t) (w : Nat) : t.packed w = s.packed w := by
  have hfields (x : Nat) : (t.wave x).tile = (s.wave x).tile ∧ (t.wave x).part = (s.wave x).part ∧ (t.wave x).half = (s.wave x).half := by
    obtain ⟨_, htile, hpart, hhalf⟩ : _ ∧ _ ∧ _ ∧ _ := by simpa only [Wave.station, Prod.mk.injEq] using h.station x
    exact ⟨htile, hpart, hhalf⟩
  simp only [State.packed, h.partWaves, hfields]

theorem State.exchange_cases {s : State} {tile part : Nat} {out : Option Nat} {w : Nat} (h : s.exchange tile part = some (out, w)) :
    (w ∈ s.hwWaves tile part ∧ (s.wave w).active = false) ∧
    (out = none → ((w :: (s.hwWaves tile part).filter fun x => (s.wave x).active).map fun x =>
      (s.wave x).width.hwWaves).foldl (· + ·) 0 ≤ 8) ∧
    ∀ x, out = some x → x ∈ s.hwWaves tile part ∧ (s.wave x).active = true := by
  unfold State.exchange at h
  obtain ⟨y, hy, hsome⟩ := Option.bind_eq_some_iff.mp h
  have hmem := mem_of_foldl_pick _ (fun m a => by
    cases m with
    | none => exact .inr rfl
    | some y =>
      dsimp only
      split
      · exact .inr rfl
      · exact .inl rfl) _ hy
  obtain ⟨hhw, hready⟩ := List.mem_filter.mp hmem
  have hpending : (s.wave y).active = false := by simpa using (Bool.and_eq_true_iff.mp hready).1
  dsimp only at hsome
  split at hsome
  · next hroom =>
    cases hsome
    exact ⟨⟨hhw, hpending⟩, fun _ => hroom, fun _ hx => nomatch hx⟩
  · obtain ⟨x, hx, heq⟩ := Option.map_eq_some_iff.mp hsome
    cases heq
    refine ⟨⟨hhw, hpending⟩, fun hnone => (nomatch hnone), fun z hz => ?_⟩
    cases hz
    simpa using List.mem_filter.mp (State.leaver_mem hx)

/-- A wave that leaves the active set. -/
def Wave.leaves (wv : Wave) : Wave := { wv with active := false, readySince := 0 }

/-- A wave that joins the active set. -/
def Wave.joins (wv : Wave) : Wave := { wv with active := true, notReady := 0, readySince := 0, stay := 0 }

/-- Whether a hardware wave finds room beside the active ones. -/
def State.roomFor (s : State) (tile part w : Nat) : Prop :=
  ((w :: (s.hwWaves tile part).filter fun x => (s.wave x).active).map fun x => (s.wave x).width.hwWaves).foldl (· + ·) 0 ≤ 8

theorem exec_exchange_none {s : State} {tile part w : Nat} (h : s.exchange tile part = some (none, w)) (hroom : s.roomFor tile part w) :
    exec (.activeSetExchange tile part) s = .next (s.modHw w Wave.joins) := by
  show execActiveSetExchange tile part s = _
  unfold execActiveSetExchange
  rw [h]
  exact congrArg Host.Outcome.next (if_pos hroom)

theorem exec_exchange_some {s : State} {tile part w x : Nat} (h : s.exchange tile part = some (some x, w)) :
    exec (.activeSetExchange tile part) s = .next (s.modHw x Wave.leaves) ∨
    exec (.activeSetExchange tile part) s = .next ((s.modHw x Wave.leaves).modHw w Wave.joins) := by
  show execActiveSetExchange tile part s = _ ∨ execActiveSetExchange tile part s = _
  unfold execActiveSetExchange
  rw [h]
  dsimp only
  split
  · exact .inr rfl
  · exact .inl rfl

theorem State.hw_lt {s : State} {tile part w : Nat} (h : w ∈ s.hwWaves tile part) : w < s.waves.length :=
  (State.mem_partWaves.mp (State.mem_partWaves_of_hw h)).1

/-- Settles O45: a cycle's slots come from its partition, which nothing in a cycle changes; an exchange changes `active` of two hardware
waves that share no wave. -/
theorem cyclesIssueAndExchange : Obligations.CyclesIssueAndExchange := by
  unfold Obligations.CyclesIssueAndExchange
  refine ⟨fun s tile part hrun htile => ?cycle, fun s tile part hstop => ?stopped, fun s tile part out w h => ?exchange⟩
  case cycle =>
    have hstart := s.cycleStart_stations tile part
    have hend := hstart.trans ((s.cycleStart tile part).cycleCounted_stations tile part)
    obtain ⟨hlen, hstation⟩ := (s.cycleStart tile part).cycleSlots_station tile part
    have hexec := exec_issueCycle_running s tile part hrun
    generalize (s.cycleStart tile part).cycleCounted tile part = u at hend hexec
    refine ⟨_, hexec, hend.turn.trans (s.ticked_turn tile part), hlen, fun sl hsl => ?_,
      (hend.cycle tile).trans (s.ticked_cycle part htile)⟩
    have hmem := hstation sl hsl
    rw [hstart.partWaves] at hmem
    obtain ⟨_, hin⟩ := State.mem_partWaves.mp hmem
    rwa [State.ticked_wave] at hin
  case stopped =>
    exact exec_issueCycle_stopped s tile part hstop
  case exchange =>
    obtain ⟨⟨hw, hpending⟩, hroom, hleaver⟩ := State.exchange_cases h
    cases out with
    | none =>
      refine ⟨_, exec_exchange_none h (hroom rfl), fun _ => ?_, fun _ hx => (nomatch hx), s.modHw_waves w _⟩
      rw [s.active_modHw w Wave.joins true (fun _ => rfl) (State.hw_lt hw), if_pos (State.mem_packed_of_hw hw)]
    | some x =>
      obtain ⟨hx, hactive⟩ := hleaver x rfl
      have hleft : ((s.modHw x Wave.leaves).wave x).active = false := by
        rw [s.active_modHw x Wave.leaves false (fun _ => rfl) (State.hw_lt hx), if_pos (State.mem_packed_of_hw hx)]
      have hstations : sameStations s (s.modHw x Wave.leaves) := s.modHw_stations x _ fun _ => rfl
      rcases exec_exchange_some h with he | he
      · refine ⟨_, he, fun hnone => (nomatch hnone), fun z hz => ?_, s.modHw_waves x _⟩
        cases hz
        exact hleft
      · refine ⟨_, he, fun hnone => (nomatch hnone), fun z hz => ?_, ?_⟩
        · cases hz
          have hapart : x ∉ (s.modHw x Wave.leaves).packed w := by
            rw [hstations.packed]
            intro hmem
            rw [State.eq_of_mem_packed hw hx hmem, hpending] at hactive
            cases hactive
          rw [State.active_modHw _ w Wave.joins true (fun _ => rfl) (by rw [hstations.waves]; exact State.hw_lt hx), if_neg hapart]
          exact hleft
        · rw [State.modHw_waves _ w, s.modHw_waves x]

end Sys2Proof.Machine

/-! SUPPORT. The end and the waking of teams (R150, R170, R259, R273): what ends a team changes, and that what an access finds does not
depend on the waves. -/

namespace Sys2Proof.Machine

/-! ## An access does not look at the waves -/

theorem State.locateAll_waves (s : State) (ws : List Wave) (who : Who) (ps : List Piece) :
    ({ s with waves := ws } : State).locateAll who ps = s.locateAll who ps := by
  induction ps with
  | nil => rfl
  | cons p ps ih =>
    simp only [State.locateAll, ih]
    rfl

theorem State.walk_waves (s : State) (ws : List Wave) (who : Who) (va : Nat) (ls : List Level) (table : Nat) :
    ({ s with waves := ws } : State).walk who va ls table = s.walk who va ls table := by
  induction ls generalizing table with
  | nil => rfl
  | cons l ls ih =>
    simp only [State.walk, ih]
    rfl

theorem State.walkAll_waves (s : State) (ws : List Wave) (who : Who) (c : Ctx) (mode : Mode) (ps : List Piece) :
    ({ s with waves := ws } : State).walkAll who c mode ps = s.walkAll who c mode ps := by
  induction ps with
  | nil => rfl
  | cons p ps ih => simp only [State.walkAll, State.walk_waves, ih]

theorem State.tableAccess_waves (s : State) (ws : List Wave) (who : Who) (c : Ctx) (va size : Nat) (mode : Mode) (may : Bool) :
    ({ s with waves := ws } : State).tableAccess who c va size mode may = s.tableAccess who c va size mode may := by
  simp only [State.tableAccess, State.walkAll_waves, State.locateAll_waves]
  rfl

theorem State.windowAccess_waves (s : State) (ws : List Wave) (who : Who) (c : Ctx) (va size : Nat) (mode : Mode) :
    ({ s with waves := ws } : State).windowAccess who c va size mode = s.windowAccess who c va size mode := by
  simp only [State.windowAccess, State.locateAll_waves]
  rfl

theorem State.objectAccess_waves (s : State) (ws : List Wave) (who : Who) (c : Ctx) (va size : Nat) (mode : Mode) :
    ({ s with waves := ws } : State).objectAccess who c va size mode = s.objectAccess who c va size mode := by
  simp only [State.objectAccess, State.locateAll_waves, State.tableAccess_waves]
  rfl

theorem State.scratchAccess_waves (s : State) (ws : List Wave) (who : Who) (c : Ctx) (va size : Nat) (mode : Mode) :
    ({ s with waves := ws } : State).scratchAccess who c va size mode = s.scratchAccess who c va size mode := by
  simp only [State.scratchAccess, State.locateAll_waves]
  rfl

theorem State.access_waves (s : State) (ws : List Wave) (who : Who) (va size align : Nat) (mode : Mode) :
    ({ s with waves := ws } : State).access who va size align mode = s.access who va size align mode := by
  simp only [State.access, State.privAccess, State.windowAccess_waves, State.tableAccess_waves, State.objectAccess_waves,
    State.scratchAccess_waves]
  rfl

theorem State.blockNow_waves (s : State) (ws : List Wave) (who : Who) (va : Nat) :
    ({ s with waves := ws } : State).blockNow who va = s.blockNow who va := by
  simp only [State.blockNow, State.access_waves]
  rfl

theorem State.pennant_waves (s : State) (ws : List Wave) (who : Who) (va : Nat) :
    ({ s with waves := ws } : State).pennant who va = s.pennant who va := by
  simp only [State.pennant, State.access_waves]
  rfl

/-! ## Lanes that a debugger holds go on (R230, R273) -/

/-- A wave that differs in threads alone is the same to what makes an access for one of its lanes. -/
theorem State.who_waves (s : State) (ws : List Wave) (w l acc : Nat)
    (hwave : ({ s with waves := ws } : State).wave w = { s.wave w with threads := (({ s with waves := ws } : State).wave w).threads })
    (hthread : ({ s with waves := ws } : State).thread w l = s.thread w l) :
    ({ s with waves := ws } : State).who w l acc = s.who w l acc := by
  have hlane : (({ s with waves := ws } : State).wave w).thread l = (s.wave w).thread l := hthread
  simp only [State.who, State.waveWorld, hlane]
  rw [hwave]
  rfl

theorem State.claimFree_waves (s : State) (ws : List Wave) (w tile id : Nat)
    (hwave : ({ s with waves := ws } : State).wave w = { s.wave w with threads := (({ s with waves := ws } : State).wave w).threads }) :
    ({ s with waves := ws } : State).claimFree w tile id = s.claimFree w tile id := by
  have hwho : ({ s with waves := ws } : State).engineWho w 7 3 = s.engineWho w 7 3 := by
    simp only [State.engineWho, State.waveWorld]
    rw [hwave]
    rfl
  have hblock (n : Nat) : ({ s with waves := ws } : State).cbOf w n = s.cbOf w n := by
    simp only [State.cbOf]
    rw [hwave]
    rfl
  simp only [State.claimFree, hwho, hblock, State.access_waves]
  rfl

/-- Whether a lane's wait has ended depends on its own thread alone of the waves. -/
theorem State.laneWakes_waves (s : State) (ws : List Wave) (w l : Nat)
    (hwave : ({ s with waves := ws } : State).wave w = { s.wave w with threads := (({ s with waves := ws } : State).wave w).threads })
    (hthread : ({ s with waves := ws } : State).thread w l = s.thread w l) :
    ({ s with waves := ws } : State).laneWakes w l = s.laneWakes w l := by
  have hwho (acc : Nat) := s.who_waves ws w l acc hwave hthread
  have hwaitp : ({ s with waves := ws } : State).waitpReady w l = s.waitpReady w l := by
    simp only [State.waitpReady, State.waitedWord, hthread, hwho, State.pennant_waves]
  have hcbacq : ({ s with waves := ws } : State).cbacqReady w l = s.cbacqReady w l := by
    simp only [State.cbacqReady, hthread, hwho, State.blockNow_waves]
  simp only [State.laneWakes, hthread, hwaitp, hcbacq, s.claimFree_waves ws w _ _ hwave]

/-- A thread that a debugger holds goes on. -/
def Thread.unhalted (t : Thread) : Thread := if t.wait = .halted then { t with wait := .none } else t

def Wave.unhalted (wv : Wave) : Wave := { wv with threads := wv.threads.map Thread.unhalted }

theorem State.unhalt_eq (s : State) (t : Nat) : s.unhalt t = (s.team t).waves.foldl (fun s w => s.modWave w Wave.unhalted) s := rfl

theorem Wave.thread_unhalted (wv : Wave) (l : Nat) (h : (wv.thread l).wait ≠ .halted) : wv.unhalted.thread l = wv.thread l := by
  have hblank : Thread.unhalted Thread.blank = Thread.blank := rfl
  have hmap : wv.unhalted.thread l = (wv.thread l).unhalted := by
    unfold Wave.thread Wave.unhalted
    rw [← List.getD_map (f := Thread.unhalted), hblank]
  rw [hmap]
  exact if_neg h

/-- Two states that differ in threads alone, and in none of them that is not held at `halt`. -/
structure unhaltedFrom (s t : State) : Prop where
  rest : t = { s with waves := t.waves }
  count : t.waves.length = s.waves.length
  wave : ∀ w, t.wave w = { s.wave w with threads := (t.wave w).threads } ∧ (t.wave w).threads.length = (s.wave w).threads.length
  thread : ∀ w l, (s.thread w l).wait ≠ .halted → t.thread w l = s.thread w l

theorem unhaltedFrom.refl (s : State) : unhaltedFrom s s := ⟨rfl, rfl, fun _ => ⟨rfl, rfl⟩, fun _ _ _ => rfl⟩

theorem unhaltedFrom.trans {s t u : State} (h : unhaltedFrom s t) (k : unhaltedFrom t u) : unhaltedFrom s u := by
  refine ⟨?_, k.count.trans h.count, fun w => ?_, fun w l hl => ?_⟩
  · rw [k.rest, h.rest]
  · obtain ⟨hw, hc⟩ := h.wave w
    obtain ⟨kw, kc⟩ := k.wave w
    exact ⟨by rw [kw, hw], kc.trans hc⟩
  · have ht := h.thread w l hl
    exact (k.thread w l (by rw [ht]; exact hl)).trans ht

theorem State.modWave_unhalted (s : State) (w : Nat) : unhaltedFrom s (s.modWave w Wave.unhalted) := by
  have hcases (x : Nat) : (s.modWave w Wave.unhalted).wave x = s.wave x ∨ (s.modWave w Wave.unhalted).wave x = (s.wave x).unhalted := by
    by_cases hx : x = w
    · subst hx
      by_cases hlt : x < s.waves.length
      · exact .inr (State.wave_modWave _ _ _ hlt)
      · refine .inl ?_
        have hle := Nat.le_of_not_lt hlt
        simp [State.wave, State.modWave_waves, List.getD_eq_getElem?_getD, getElem?_modifyAt, List.getElem?_eq_none hle]
    · exact .inl (State.wave_modWave_ne _ _ _ _ hx)
  refine ⟨rfl, length_modifyAt .., fun x => ?_, fun x l hl => ?_⟩
  · rcases hcases x with h | h <;> rw [h]
    · exact ⟨rfl, rfl⟩
    · exact ⟨rfl, List.length_map ..⟩
  · unfold State.thread
    rcases hcases x with h | h <;> rw [h]
    exact Wave.thread_unhalted _ _ hl

theorem State.unhalt_from (s : State) (t : Nat) : unhaltedFrom s (s.unhalt t) := by
  rw [State.unhalt_eq]
  exact foldl_rel unhaltedFrom .refl (fun _ _ _ => .trans) _ (fun s w => s.modWave_unhalted w) _ s

theorem unhaltedFrom.laneWakes {s t : State} (h : unhaltedFrom s t) {w l : Nat} (hl : s.laneWakes w l = true) :
    t.laneWakes w l = true := by
  have hwait : (s.thread w l).wait ≠ .halted := by
    intro hhalted
    simp [State.laneWakes, hhalted] at hl
  have hrest := h.rest
  have hwave := (h.wave w).1
  have hthread := h.thread w l hwait
  generalize t.waves = ws at hrest
  subst hrest
  exact (s.laneWakes_waves ws w l hwave hthread).trans hl

theorem unhaltedFrom.wakes {s t : State} (h : unhaltedFrom s t) {team : Nat} (hw : s.wakes team = true) : t.wakes team = true := by
  have hteam : t.team team = s.team team := by rw [h.rest]; rfl
  simp only [State.wakes, Bool.and_eq_true, List.any_eq_true, List.mem_range] at hw ⊢
  obtain ⟨hstate, w, hmem, l, hl, hwakes⟩ := hw
  rw [hteam]
  exact ⟨hstate, w, hmem, l, (h.wave w).2 ▸ hl, h.laneWakes hwakes⟩

theorem State.lt_of_team_state {s : State} {t : Nat} (h : (s.team t).state ≠ .ended) : t < s.teams.length := by
  refine Nat.lt_of_not_le fun hle => h ?_
  simp [State.team, List.getD_eq_getElem?_getD, List.getElem?_eq_none hle, Team.blank]

theorem State.team_modTeam (s : State) (t : Nat) (f : Team → Team) (h : t < s.teams.length) :
    (s.modTeam t f).team t = f (s.team t) := by
  simp only [State.team, State.modTeam_teams, getD_modifyAt _ _ _ _ _ h, if_true]

theorem State.die_modDie (s : State) (d : Nat) (f : Die → Die) (h : d < s.dies.length) : (s.modDie d f).die d = f (s.die d) := by
  simp only [State.die, State.modDie_dies, getD_modifyAt _ _ _ _ _ h, if_true]

/-- A team that wakes is queued on its die (R273). -/
theorem State.wake_queued (s : State) (t : Nat) (h : s.wakes t = true) (hd : (s.team t).die < s.dies.length) :
    ((s.wake t).team t).state = .woken ∧ ((s.wake t).die (s.team t).die).woken = (s.die (s.team t).die).woken ++ [t] := by
  have hstate : (s.team t).state = .becalmed := by
    simp only [State.wakes, Bool.and_eq_true, beq_iff_eq] at h
    exact h.1
  have hlt : t < s.teams.length := State.lt_of_team_state (by rw [hstate]; decide)
  unfold State.wake
  rw [if_pos h]
  refine ⟨?_, ?_⟩
  · exact congrArg Team.state (s.team_modTeam t _ hlt)
  · exact congrArg Die.woken (State.die_modDie (s.modTeam t _) _ _ hd)

theorem exec_teamWake_queued (s : State) (team : Nat) (h : s.wakes team = true) (hd : (s.team team).die < s.dies.length) :
    ∃ t, exec (.teamWake team) s = .next t ∧ (t.team team).state = .woken ∧
      (t.die (s.team team).die).woken = (s.die (s.team team).die).woken ++ [team] := by
  refine ⟨_, rfl, ?_⟩
  split
  · have hu := s.unhalt_from team
    have hteam : (s.unhalt team).team team = s.team team := by rw [hu.rest]; rfl
    have hdies : (s.unhalt team).dies = s.dies := by rw [hu.rest]
    have hq := (s.unhalt team).wake_queued team (hu.wakes h) (by rw [hteam, hdies]; exact hd)
    rw [hteam] at hq
    refine ⟨hq.1, hq.2.trans ?_⟩
    unfold State.die
    rw [hdies]
  · exact s.wake_queued team h hd

end Sys2Proof.Machine

/-! SUPPORT. The end of a team (R150, R170, R259, R364): what it changes, and its report. -/

namespace Sys2Proof.Machine

/-- Two states that differ in barriers and in what has been sent alone. -/
def sameButSent (s t : State) : Prop := t = { s with barriers := t.barriers, fabric := t.fabric }

theorem sameButSent.refl (s : State) : sameButSent s s := rfl

theorem sameButSent.trans {s t u : State} (h : sameButSent s t) (k : sameButSent t u) : sameButSent s u := by
  unfold sameButSent at *
  rw [k, h]

theorem State.barrierFor_sent (s : State) (w level : Nat) : sameButSent s (s.barrierFor w level).1 := by
  unfold State.barrierFor
  split <;> rfl

/-- Other packages learn of the exits (R348); nothing else changes. -/
theorem State.exitWords_sent (s : State) (w : Nat) (lanes : List Nat) : sameButSent s (s.exitWords w lanes) := by
  unfold State.exitWords
  split
  · exact .refl s
  · refine foldl_rel sameButSent .refl (fun _ _ _ => .trans) _ (fun s level => ?_) _ s
    split
    · have hbar := s.barrierFor_sent w level
      dsimp only
      split
      · exact hbar
      · exact hbar.trans rfl
    · exact .refl s

/-- A wave of a team that has ended. -/
def Wave.gone (wv : Wave) : Wave :=
  { wv with threads := wv.threads.map Thread.ended, trapq := [], held := none, pending := [], resident := false, active := false }

/-- The state in which a team's exits are known. -/
def State.exited (s : State) (t : Nat) : State :=
  (s.team t).waves.foldl (fun s w => s.exitWords w (s.wave w).liveLanes) s

theorem State.exited_sent (s : State) (t : Nat) : sameButSent s (s.exited t) :=
  foldl_rel sameButSent .refl (fun _ _ _ => .trans) _ (fun s w => s.exitWords_sent w _) _ s

/-- The state with a team's waves, slots, deliveries and commands gone, its place and the error of its launch not yet settled. -/
def State.cleared (s : State) (t : Nat) : State :=
  let mine (w : Nat) : Bool := (s.team t).waves.contains w
  let s0 := s.exited t
  { s0 with
    waves := s0.waves.mapIdx fun w wv => if mine w then wv.gone else wv
    slots := s0.slots.filter fun sl => !mine sl.wave
    deliveries := s0.deliveries.filter fun d => !mine d.wave
    tiles := s0.tiles.map fun x => { x with cmds := x.cmds.filter fun c => !mine c.wave }
    dies := s0.dies.map fun d => { d with woken := d.woken.filter (· != t) } }

/-- What the rest of a team's end leaves alone: all but contexts, launches and what has been sent. -/
def sameButLaunches (s t : State) : Prop := t = { s with ctxs := t.ctxs, launches := t.launches, fabric := t.fabric }

theorem sameButLaunches.trans {s t u : State} (h : sameButLaunches s t) (k : sameButLaunches t u) : sameButLaunches s u := by
  unfold sameButLaunches at *
  rw [k, h]

theorem State.guestEnd_launches (s : State) (t n : Nat) (r : Option EndReason) : sameButLaunches s (s.guestEnd t n r) := by
  unfold State.guestEnd
  dsimp only
  split <;> rfl

/-- The state in which a team's waves are gone and it stands as ended. -/
def State.teamGone (s : State) (t : Nat) (r : Option EndReason) : State :=
  (s.cleared t).modTeam t fun x => { x with state := .ended, placed := false, outcome := r }

/-- A scratch number of a team's context translates to nothing. -/
def State.unscratched (s : State) (t no : Nat) : State :=
  match s.launchOf t with
  | some l => if l.header.scratch = 0 then s else s.modCtx l.ctx fun c => { c with scratch := Sparse.set 0 c.scratch no 0 }
  | none => s

/-- The end is told to the package that holds the team's share, or noted in its launch (R259). -/
def State.endNoted (s : State) (t : Nat) (tm : Team) (r : Option EndReason) : State :=
  match tm.origin, r with
  | some n, r => s.guestEnd t n r
  | none, none => s
  | none, some r => s.modLaunch tm.launch fun l => { l with firstError := l.firstError.orElse fun _ => some r }

theorem State.endTeam_eq (s : State) (t : Nat) (r : Option EndReason) (h : (s.team t).state ≠ .ended) :
    s.endTeam t r = ((s.teamGone t r).unscratched t (s.scratchNo (s.team t))).endNoted t (s.team t) r := by
  unfold State.endTeam
  rw [if_neg h]
  rfl

theorem State.unscratched_launches (s : State) (t no : Nat) : sameButLaunches s (s.unscratched t no) := by
  unfold State.unscratched
  split
  · split <;> rfl
  · rfl

theorem State.endNoted_launches (s : State) (t : Nat) (tm : Team) (r : Option EndReason) : sameButLaunches s (s.endNoted t tm r) := by
  unfold State.endNoted
  split
  · exact s.guestEnd_launches t _ _
  · rfl
  · rfl

/-- What a team's end changes beside its waves, its slots and its place (R150, R259). -/
theorem State.endTeam_launches (s : State) (t : Nat) (r : Option EndReason) (h : (s.team t).state ≠ .ended) :
    sameButLaunches (s.teamGone t r) (s.endTeam t r) := by
  rw [s.endTeam_eq t r h]
  exact (State.unscratched_launches _ _ _).trans (State.endNoted_launches _ _ _ _)

theorem State.teamGone_team (s : State) (t : Nat) (r : Option EndReason) (h : (s.team t).state ≠ .ended) :
    (s.teamGone t r).team t = { s.team t with state := .ended, placed := false, outcome := r } := by
  have hteams : (s.cleared t).teams = s.teams := by
    unfold State.cleared
    rw [s.exited_sent t]
  have hlt : t < (s.cleared t).teams.length := by rw [hteams]; exact State.lt_of_team_state h
  unfold State.teamGone
  rw [State.team_modTeam _ _ _ hlt]
  simp only [State.team, hteams]

/-- The waves of a team that has ended have left their tile. -/
theorem State.teamGone_wave (s : State) (t : Nat) (r : Option EndReason) {w : Nat} (hw : w ∈ (s.team t).waves)
    (hlt : w < s.waves.length) : ((s.teamGone t r).wave w).resident = false := by
  have hwaves : (s.exited t).waves = s.waves := by rw [s.exited_sent t]
  have hget : (s.teamGone t r).waves[w]? = some (s.waves[w].gone) := by
    simp [State.teamGone, State.modTeam, State.cleared, hwaves, hw, List.getElem?_eq_getElem hlt]
  simp [State.wave, List.getD_eq_getElem?_getD, hget, Wave.gone]

theorem State.teamGone_rest (s : State) (t : Nat) (r : Option EndReason) :
    (s.teamGone t r).pkg = s.pkg ∧ (s.teamGone t r).worlds = s.worlds := by
  have h := s.exited_sent t
  unfold State.teamGone State.cleared
  rw [h]
  exact ⟨rfl, rfl⟩

theorem State.world_modWorld (s : State) (w : Nat) (f : World → World) (h : w < s.worlds.length) :
    (s.modWorld w f).world w = f (s.world w) := by
  simp only [State.world, State.modWorld_worlds, getD_modifyAt _ _ _ _ _ h, if_true]

/-- A team's end in the device log. -/
def State.logged (s : State) (e : LogEntry) : State := { s with pkg := { s.pkg with log := s.pkg.log ++ [e] } }

theorem State.reportEnd_eq (s : State) (t : Nat) (r : EndReason) (h : (s.team t).state ≠ .ended) :
    s.reportEnd t r = match s.launchOf t with
      | some l => ((s.endTeam t (some r)).logged (.teamEnd (s.team t).launch (s.team t).index r)).modWorld l.world fun w =>
          { w with console := w.console ++ endLine l.handle (s.team t).index r }
      | none => (s.endTeam t (some r)).logged (.teamEnd (s.team t).launch (s.team t).index r) := by
  unfold State.reportEnd
  rw [if_neg h]
  rfl

/-- The end of a team, and its report in the device log and on its world's console (R170, R364). -/
theorem exec_teamEnd_reported (s : State) (team : Nat) (reason : EndReason) (h : (s.team team).state ≠ .ended) :
    ∃ t, exec (.teamEnd team reason) s = .next t ∧ (t.team team).state = .ended ∧ (t.team team).outcome = some reason ∧
      (∀ w ∈ (s.team team).waves, w < s.waves.length → (t.wave w).resident = false) ∧
      t.pkg.log = s.pkg.log ++ [.teamEnd (s.team team).launch (s.team team).index reason] ∧
      ∀ l, s.launchOf team = some l → l.world < s.worlds.length →
        (t.world l.world).console = (s.world l.world).console ++ endLine l.handle (s.team team).index reason := by
  have hends := s.endTeam_launches team (some reason) h
  have hteam : (s.endTeam team (some reason)).team team =
      { s.team team with state := .ended, placed := false, outcome := some reason } := by
    rw [hends]
    exact s.teamGone_team team (some reason) h
  have hwave : ∀ w ∈ (s.team team).waves, w < s.waves.length → ((s.endTeam team (some reason)).wave w).resident = false := by
    intro w hw hlt
    rw [hends]
    exact s.teamGone_wave team (some reason) hw hlt
  obtain ⟨hpkg, hworlds⟩ := s.teamGone_rest team (some reason)
  have hpkg' : (s.endTeam team (some reason)).pkg = s.pkg := by rw [hends]; exact hpkg
  have hworlds' : (s.endTeam team (some reason)).worlds = s.worlds := by rw [hends]; exact hworlds
  have hlog : ((s.endTeam team (some reason)).logged (.teamEnd (s.team team).launch (s.team team).index reason)).pkg.log =
      s.pkg.log ++ [.teamEnd (s.team team).launch (s.team team).index reason] := by
    unfold State.logged
    rw [hpkg']
  refine ⟨_, rfl, ?_⟩
  rw [s.reportEnd_eq team reason h]
  generalize s.endTeam team (some reason) = u at *
  split
  · next l hl =>
    refine ⟨congrArg Team.state hteam, congrArg Team.outcome hteam, hwave, hlog, fun l' hl' hlt => ?_⟩
    obtain rfl : l = l' := Option.some.inj (hl.symm.trans hl')
    refine (congrArg World.console (State.world_modWorld _ _ _ (by rw [State.logged, hworlds']; exact hlt))).trans ?_
    simp only [State.logged, State.world, hworlds']
  · next hl => exact ⟨congrArg Team.state hteam, congrArg Team.outcome hteam, hwave, hlog, fun l hl' => (nomatch hl.symm.trans hl')⟩

end Sys2Proof.Machine

/-! SUPPORT. Becalming (R271 to R273, R16): the region and the context of a team that leaves its tile. -/

namespace Sys2Proof.Machine

/-! ## A range of memory copied (R287) -/

theorem Sparse.get_of_not_mem {α : Type} (d : α) (m : Sparse α) (j : Nat) (h : ∀ e ∈ m, e.1 ≠ j) : Sparse.get d m j = d := by
  induction m with
  | nil => rfl
  | cons e m ih =>
    rw [Sparse.get, if_neg (h e (by simp))]
    exact ih fun x hx => h x (by simp [hx])

theorem Memory.byte_clear (m : List Host.Cell) (k n i : Nat) (h : i < n) : Memory.byte (Memory.clear m k n) (k + i) = emptyByte := by
  refine Sparse.get_of_not_mem _ _ _ fun e he => ?_
  have hout := (List.mem_filter.mp he).2
  simp only [Bool.or_eq_true, decide_eq_true_eq] at hout
  omega

/-- The cells of a range put down at another place, one after another. -/
theorem Memory.byte_paste_cells {m : List Host.Cell} (hm : Memory.wf m) (base : List Host.Cell) (k p n i : Nat) (hi : i < n) :
    Memory.byte ((Memory.cut m k n).foldl (fun m c => if c.1 < n then Memory.setByte m (p + c.1) c.2 else m) base) (p + i) =
      Sparse.get (Memory.byte base (p + i)) m (k + i) := by
  induction m generalizing base with
  | nil => rfl
  | cons e m ih =>
    obtain ⟨key, v⟩ := e
    obtain ⟨_, hkeys, hwf⟩ := (Sparse.wf_cons emptyByte key v m).mp hm
    rw [Sparse.get]
    by_cases hin : k ≤ key ∧ key < k + n
    · have hcut : Memory.cut ((key, v) :: m) k n = (key - k, v) :: Memory.cut m k n := by simp [Memory.cut, hin]
      rw [hcut, List.foldl_cons, if_pos (by omega), ih hwf, Memory.byte_setByte]
      by_cases hk : key = k + i
      · rw [if_pos hk, if_pos (by omega)]
        exact Sparse.get_of_not_mem _ _ _ fun e he => by have := hkeys e he; omega
      · rw [if_neg hk, if_neg (by omega)]
    · have hcut : Memory.cut ((key, v) :: m) k n = Memory.cut m k n := by
        unfold Memory.cut
        rw [List.filter_cons_of_neg (by simpa using hin)]
      rw [hcut, ih hwf, if_neg (by omega)]

/-- A range that is pasted shows the bytes of the range that was cut. -/
theorem Memory.byte_paste_cut {m : List Host.Cell} (hm : Memory.wf m) (k p n i : Nat) (hi : i < n) :
    Memory.byte (Memory.paste m p n (Memory.cut m k n)) (p + i) = Memory.byte m (k + i) := by
  unfold Memory.paste
  rw [Memory.byte_paste_cells hm _ k p n i hi, Memory.byte_clear m p n i hi]
  rfl

/-! ## The parts of becalming -/

/-- Two states that differ in waves alone, and have as many. -/
def sameButWaves (s t : State) : Prop := t = { s with waves := t.waves } ∧ t.waves.length = s.waves.length

theorem sameButWaves.refl (s : State) : sameButWaves s s := ⟨rfl, rfl⟩

theorem sameButWaves.trans {s t u : State} (h : sameButWaves s t) (k : sameButWaves t u) : sameButWaves s u := by
  obtain ⟨hr, hc⟩ := h
  obtain ⟨kr, kc⟩ := k
  exact ⟨by rw [kr, hr], kc.trans hc⟩

theorem State.modWave_sameButWaves (s : State) (w : Nat) (f : Wave → Wave) : sameButWaves s (s.modWave w f) :=
  ⟨rfl, length_modifyAt ..⟩

theorem State.modWaves_sameButWaves (f : Wave → Wave) (ws : List Nat) (s : State) :
    sameButWaves s (ws.foldl (fun s w => s.modWave w f) s) :=
  foldl_rel sameButWaves .refl (fun _ _ _ => .trans) _ (fun s w => s.modWave_sameButWaves w f) ws s

theorem State.refile_sameButWaves {s u : State} {w : Nat} (h : s.refile w = .ok u) : sameButWaves s u := by
  unfold State.refile at h
  dsimp only at h
  split at h
  · cases h; exact .refl s
  · split at h
    · cases h
    · split at h
      · cases h
      · split at h
        · cases h
        · cases h; exact s.modWave_sameButWaves w _

/-- Bringing a team's registers back from its backing store changes waves alone. -/
theorem State.refileTeam_sameButWaves {s u : State} {t : Nat} (h : s.refileTeam t = some u) : sameButWaves s u := by
  have key := foldl_inv (fun a : Option State => ∀ u, a = some u → sameButWaves s u)
    (fun (a : Option State) w => a.bind fun s =>
      match s.refile w with
      | .ok s' => some s'
      | .bad => none
      | .wait _ _ => some s)
    (fun a w ha u hu => by
      obtain ⟨x, hx, hstep⟩ := Option.bind_eq_some_iff.mp hu
      have hbefore := ha x hx
      split at hstep
      · next x' hr => cases hstep; exact hbefore.trans (State.refile_sameButWaves hr)
      · cases hstep
      · cases hstep; exact hbefore)
    (s.team t).waves (some s) (fun u hu => by cases hu; exact .refl s)
  exact key u h

/-- A team's region copied to memory. -/
def State.regionCopied (s : State) (tm : Team) (p : Nat) : State :=
  let n := tm.nbank
  let key := sliceKey tm.tile (tm.bank * 16384)
  if n = 0 then s
  else { s with mem := Memory.paste s.mem p (n * 16384) (Memory.cut s.mem key (n * 16384))
                poison := moveMarks s.poison s.poison (p / 64) (key / 64) (n * 256) }

/-- A team off its tile, its region and its context in memory. -/
def State.becalmed (s : State) (team : Nat) (tm : Team) (p k : Nat) : State :=
  let s1 := s.regionCopied tm p
  let s2 := if tm.nbank = 0 then s1 else s1.setScratch team (smapCopy p tm.nbank)
  (tm.waves.foldl (fun s w => s.modWave w fun wv => { wv with resident := false, active := false }) (s2.saveContext team k)).modTeam team
    fun x => { x with state := .becalmed, placed := false }

theorem exec_becalm (s : State) (team : Nat) (places : CalmPlaces) (l : Launch) (hl : s.launchOf team = some l)
    (hcalm : s.calm team = true) (hcopy : s.copyOk l.world places.region.toNat (s.team team).nbank = true)
    (hcontext : s.contextOk l.world places.context.toNat (s.contextBytes team).length = true) :
    exec (.becalm team places) s = match s.refileTeam team with
      | none => .next (s.reportEnd team (.trap .poison l.entry))
      | some r => .next (r.becalmed team (s.team team) places.region.toNat places.context.toNat) := by
  show execBecalm team places s = _
  unfold execBecalm
  simp only [hl, hcalm, hcopy, hcontext]
  rfl

theorem State.setScratch_rest (s : State) (t : Nat) (e : W64) : s.setScratch t e = { s with ctxs := (s.setScratch t e).ctxs } := by
  unfold State.setScratch
  split
  · rfl
  · split <;> rfl

/-- The state whose context is saved. -/
def State.atRest (s : State) (team : Nat) (tm : Team) (p : Nat) : State :=
  if tm.nbank = 0 then s.regionCopied tm p else (s.regionCopied tm p).setScratch team (smapCopy p tm.nbank)

theorem State.atRest_rest (s : State) (team : Nat) (tm : Team) (p : Nat) : s.atRest team tm p =
    { s with mem := (s.regionCopied tm p).mem, poison := (s.regionCopied tm p).poison, ctxs := (s.atRest team tm p).ctxs } := by
  have hcopied : s.regionCopied tm p = { s with mem := (s.regionCopied tm p).mem, poison := (s.regionCopied tm p).poison } := by
    unfold State.regionCopied
    dsimp only
    split <;> rfl
  unfold State.atRest
  split
  · rw [hcopied]
  · rw [State.setScratch_rest, hcopied]

theorem State.atRest_contextBytes (s : State) (team : Nat) (tm : Team) (p : Nat) :
    (s.atRest team tm p).contextBytes team = s.contextBytes team := by
  rw [s.atRest_rest team tm p]
  rfl

/-- The context stands in memory at its place. -/
def State.contextStored (s : State) (team : Nat) (tm : Team) (p k : Nat) : State :=
  (s.atRest team tm p).store [(k, (s.contextBytes team).length)] (s.contextBytes team)

/-- A wave whose payloads have left the backing store. -/
def Wave.unstored (wv : Wave) : Wave := { wv.freeStore with moved := [] }

/-- A wave that has left its tile. -/
def Wave.offTile (wv : Wave) : Wave := { wv with resident := false, active := false }

theorem State.becalmed_eq (s : State) (team : Nat) (tm : Team) (p k : Nat) :
    s.becalmed team tm p k = (tm.waves.foldl (fun s w => s.modWave w Wave.offTile)
      ((((s.atRest team tm p).team team).waves.foldl (fun s w => s.modWave w Wave.unstored) (s.contextStored team tm p k)).modTeam team
        fun x => { x with context := some (k, (s.contextBytes team).length) })).modTeam team
        fun x => { x with state := .becalmed, placed := false } := by
  have h : (s.atRest team tm p).saveContext team k =
      (((s.atRest team tm p).team team).waves.foldl (fun s w => s.modWave w Wave.unstored) (s.contextStored team tm p k)).modTeam team
        fun x => { x with context := some (k, (s.contextBytes team).length) } := by
    unfold State.saveContext State.contextStored
    rw [s.atRest_contextBytes team tm p]
    rfl
  unfold State.becalmed
  dsimp only
  rw [← State.atRest, h]
  rfl

theorem State.contextStored_waves (s : State) (team : Nat) (tm : Team) (p k : Nat) :
    (s.contextStored team tm p k).waves = s.waves ∧ (s.contextStored team tm p k).teams = s.teams := by
  have h := (s.atRest team tm p).store_sameButStored [(k, (s.contextBytes team).length)] (s.contextBytes team)
  unfold State.contextStored
  rw [h, s.atRest_rest team tm p]
  exact ⟨rfl, rfl⟩

/-- What becalming makes of the team, of its waves and of memory. -/
theorem State.becalmed_facts (s : State) (team : Nat) (tm : Team) (p k : Nat) (ht : team < s.teams.length) :
    (s.becalmed team tm p k).team team =
      { s.team team with context := some (k, (s.contextBytes team).length), state := .becalmed, placed := false } ∧
    (∀ w ∈ tm.waves, w < s.waves.length → ((s.becalmed team tm p k).wave w).resident = false) ∧
    (s.becalmed team tm p k).mem = (s.contextStored team tm p k).mem := by
  obtain ⟨hwaves, hteams⟩ := s.contextStored_waves team tm p k
  rw [s.becalmed_eq team tm p k]
  generalize s.contextStored team tm p k = u at *
  obtain ⟨hrest, hcount⟩ := State.modWaves_sameButWaves Wave.unstored ((s.atRest team tm p).team team).waves u
  generalize ((s.atRest team tm p).team team).waves.foldl (fun s w => s.modWave w Wave.unstored) u = u1 at *
  have hteams1 : u1.teams = s.teams := by rw [hrest]; exact hteams
  obtain ⟨hrest2, _⟩ := State.modWaves_sameButWaves Wave.offTile tm.waves
    (u1.modTeam team fun x => { x with context := some (k, (s.contextBytes team).length) })
  refine ⟨?_, fun w hw hlt => ?_, ?_⟩
  · have hfold : (tm.waves.foldl (fun s w => s.modWave w Wave.offTile) (u1.modTeam team fun x =>
        { x with context := some (k, (s.contextBytes team).length) })).teams =
        (u1.modTeam team fun x => { x with context := some (k, (s.contextBytes team).length) }).teams := by rw [hrest2]
    have hlen : team < u1.teams.length := by rwa [hteams1]
    rw [State.team_modTeam _ _ _ (by rw [hfold, State.modTeam_teams, length_modifyAt]; exact hlen)]
    simp only [State.team, hfold]
    rw [← State.team, State.team_modTeam _ _ _ hlen]
    simp only [State.team, hteams1]
  · refine (State.field_modWaves Wave.resident Wave.offTile false (fun _ => rfl) tm.waves _ ?_).trans (if_pos hw)
    show w < u1.waves.length
    rwa [hcount, hwaves]
  · rw [hrest2]
    show u1.mem = u.mem
    rw [hrest]

/-! ## The bytes -/

theorem Memory.writePieces_one (m : List Host.Cell) (k : Nat) (bs : List Byte) :
    Memory.writePieces m [(k, bs.length)] bs = Memory.write m k bs := by
  simp [Memory.writePieces]

theorem State.contextStored_mem (s : State) (team : Nat) (tm : Team) (p k : Nat) :
    (s.contextStored team tm p k).mem = Memory.write (s.regionCopied tm p).mem k (s.contextBytes team) := by
  unfold State.contextStored
  rw [State.store_mem, Memory.writePieces_one, s.atRest_rest team tm p]

theorem State.regionCopied_byte {s : State} (hm : Memory.wf s.mem) (tm : Team) (p i : Nat) (hi : i < tm.nbank * 16384) :
    Memory.byte (s.regionCopied tm p).mem (p + i) = Memory.byte s.mem (sliceKey tm.tile (tm.bank * 16384) + i) := by
  unfold State.regionCopied
  dsimp only
  rw [if_neg (by omega)]
  exact Memory.byte_paste_cut hm _ p _ i hi

theorem State.becalmed_byte_context (s : State) (team : Nat) (tm : Team) (p k i : Nat) (ht : team < s.teams.length)
    (hi : i < (s.contextBytes team).length) :
    Memory.byte (s.becalmed team tm p k).mem (k + i) = (s.contextBytes team).getD i 0 := by
  obtain ⟨_, _, hmem⟩ := s.becalmed_facts team tm p k ht
  rw [hmem, State.contextStored_mem, Memory.byte_write, if_pos (by omega), Nat.add_sub_cancel_left]

theorem State.becalmed_byte_region {s : State} (hm : Memory.wf s.mem) (team : Nat) (tm : Team) (p k i : Nat) (ht : team < s.teams.length)
    (hi : i < tm.nbank * 16384) (hout : p + i < k ∨ k + (s.contextBytes team).length ≤ p + i) :
    Memory.byte (s.becalmed team tm p k).mem (p + i) = Memory.byte s.mem (sliceKey tm.tile (tm.bank * 16384) + i) := by
  obtain ⟨_, _, hmem⟩ := s.becalmed_facts team tm p k ht
  rw [hmem, State.contextStored_mem, Memory.byte_write_other _ _ _ _ hout, State.regionCopied_byte hm tm p i hi]

theorem State.lt_of_calm {s : State} {t : Nat} (h : s.calm t = true) : t < s.teams.length := by
  refine State.lt_of_team_state fun hended => ?_
  unfold State.calm at h
  dsimp only at h
  split at h
  · cases h
  · simp [hended] at h

/-- Settles O44: a team's three ways off its tile or back to it, each by the parts of the operation. -/
theorem teamsCalmWakeAndEnd : Obligations.TeamsCalmWakeAndEnd := by
  unfold Obligations.TeamsCalmWakeAndEnd
  refine ⟨fun s team page context l hl hcalm hcopy hcontext hm => ?calm, fun s team h hd => exec_teamWake_queued s team h hd,
    fun s team reason h => exec_teamEnd_reported s team reason h⟩
  have hexec := exec_becalm s team ⟨page, context⟩ l hl hcalm hcopy hcontext
  refine ⟨fun hbad => by rw [hexec, hbad], fun r hr => ?_⟩
  rw [hr] at hexec
  obtain ⟨hrest, hcount⟩ := State.refileTeam_sameButWaves hr
  have hteams : r.teams = s.teams := by rw [hrest]
  have hteam : r.team team = s.team team := by simp only [State.team, hteams]
  have hmem : r.mem = s.mem := by rw [hrest]
  have hlt : team < r.teams.length := by rw [hteams]; exact State.lt_of_calm hcalm
  obtain ⟨hbecalmed, hleft, _⟩ := r.becalmed_facts team (s.team team) page.toNat context.toNat hlt
  refine ⟨_, hexec, by rw [hbecalmed], by rw [hbecalmed], by rw [hbecalmed], fun w hw hlen => hleft w hw (by rwa [hcount]),
    fun i hi => r.becalmed_byte_context team _ _ _ i hlt hi, fun i hi hout => ?_⟩
  rw [← hmem]
  exact State.becalmed_byte_region (by rwa [hmem]) team _ _ _ i hlt hi hout

end Sys2Proof.Machine

/-! SUPPORT. Root tables in a page that is arriving (R280, R285, R290): a context's creation zeroes such a page at one place alone, in its
frame where the page's first sector has come, and at its home where it has not. -/

namespace Sys2Proof.Machine

/-- A page of backed space that is arriving, its first sector in the frame and the others still at its home. -/
def arrivingPage : FrameEntry := ⟨2, 0, 0, true, .arriving, false, false, 0, 1⟩

/-- That page at the foot of backed space, its second sector not zero at its home. -/
def arrivingState : State :=
  { State.reset with frameMap := [(backedBase / 65536, arrivingPage)], home := [(homeKey arrivingPage 2048, 1)] }

/-- Root tables from that page on. -/
def arrivingPlaces : ContextPlaces := ⟨BitVec.ofNat 52 backedBase, 0⟩

/-- The first byte of the second sector after a step. -/
def tableByte (o : Out) : Option Nat :=
  match o with
  | .next t => some (t.peek (backedBase + 2048) 1)
  | _ => none

theorem exec_contextCreate_arriving : tableByte (exec (.contextCreate 0 0 arrivingPlaces) arrivingState) = some 1 := by rfl

/-- Refutes O52: the root tables of a new context need not be empty. Where a page of theirs is arriving and its first sector has come, the
frame is zeroed, and the other sectors, which are read at the page's home, stay. -/
theorem not_contextsAndReplicas : ¬ Obligations.ContextsAndReplicas := by
  unfold Obligations.ContextsAndReplicas
  rintro ⟨hcreate, -, -⟩
  obtain ⟨t, _, hexec, -, -, -, -, -, -, -, hempty⟩ := hcreate arrivingState 0 0 (BitVec.ofNat 52 backedBase) 0 rfl rfl
  have hzero : t.peek (backedBase + 2048) 1 = 0 := hempty 2048 (by decide)
  have hone : some (t.peek (backedBase + 2048) 1) = some 1 :=
    (congrArg tableByte hexec).symm.trans exec_contextCreate_arriving
  rw [hzero] at hone
  exact absurd hone (by decide)

end Sys2Proof.Machine

/-! SUPPORT. Files and mappings (R28, R372, R373): contexts and directory entries after a change, and the stretches of a window. -/

namespace Sys2Proof.Machine

/-! ## Contexts and entries after a change -/

/-- A live context after a change that keeps its number and its life. -/
theorem State.ctx?_modCtx (s : State) (ctx : Nat) (f : Ctx → Ctx) (hf : ∀ c, (f c).num = c.num ∧ (f c).live = c.live) {c : Ctx}
    (h : s.ctx? ctx = some c) : (s.modCtx ctx f).ctx? ctx = some (f c) := by
  have htest : (fun x : Ctx => x.num == ctx && x.live) ∘ (fun x => if x.num == ctx && x.live then f x else x) =
      fun x : Ctx => x.num == ctx && x.live := by
    funext x
    by_cases hx : (x.num == ctx && x.live) = true
    · simp only [Function.comp_apply, if_pos hx, (hf x).1, (hf x).2]
    · simp only [Function.comp_apply, if_neg hx]
  have hc : (c.num == ctx && c.live) = true := List.find?_some (p := fun x : Ctx => x.num == ctx && x.live) h
  unfold State.ctx? State.modCtx
  rw [List.find?_map, htest]
  rw [State.ctx?] at h
  rw [h, Option.map_some, if_pos hc]

theorem Ctx.entryOf_obj {c : Ctx} {obj : W64} {d : DirEntry} (h : c.entryOf obj = some d) : d.obj = obj := by
  have hd := List.find?_some h
  simpa using (Bool.and_eq_true_iff.mp hd).1

/-- A context with the entries of an object changed. -/
def Ctx.modDir (c : Ctx) (obj : W64) (f : DirEntry → DirEntry) : Ctx :=
  { c with dir := c.dir.map fun d => if d.obj = obj then f d else d }

/-- The entry of an object after a change of its entries that keeps which object they are of and whether it is retired. -/
theorem Ctx.entryOf_map (c : Ctx) (obj : W64) (f : DirEntry → DirEntry) (hf : ∀ d, (f d).obj = d.obj ∧ (f d).retired = d.retired)
    {d : DirEntry} (h : c.entryOf obj = some d) :
    (c.modDir obj f).entryOf obj = some (f d) := by
  have htest : (fun x : DirEntry => x.obj == obj && !x.retired) ∘ (fun x => if x.obj = obj then f x else x) =
      fun x : DirEntry => x.obj == obj && !x.retired := by
    funext x
    by_cases hx : x.obj = obj
    · simp only [Function.comp_apply, if_pos hx, (hf x).1, (hf x).2]
    · simp only [Function.comp_apply, if_neg hx]
  have hobj := Ctx.entryOf_obj h
  unfold Ctx.entryOf at h
  unfold Ctx.entryOf Ctx.modDir
  rw [List.find?_map, htest, h, Option.map_some, if_pos hobj]

/-- A retired object has no entry (R28). -/
theorem Ctx.entryOf_retired (c : Ctx) (obj : W64) :
    (c.modDir obj fun d => { d with retired := true }).entryOf obj = none := by
  refine List.find?_eq_none.mpr fun d hd => ?_
  obtain ⟨x, _, rfl⟩ := List.mem_map.mp hd
  by_cases hx : x.obj = obj
  · simp [hx]
  · simp [hx]

theorem State.ctx?_of_exported {s : State} {q : HostReq} {ctx : Nat} {c : Ctx} (h : s.exported q ctx = some c) : s.ctx? ctx = some c :=
  (Option.filter_eq_some_iff.mp h).1

theorem State.fileOf_of_exported {s : State} {q : HostReq} {ctx : Nat} {obj : W64} {c : Ctx} {d : DirEntry}
    (h : s.exported q ctx = some c) (hd : c.entryOf obj = some d) : s.fileOf q ctx obj = some d := by
  unfold State.fileOf
  rw [h]
  exact hd

theorem State.recOf_of_exported {s : State} {q : HostReq} {ctx : Nat} {c : Ctx} (h : s.exported q ctx = some c) (obj : W64) :
    s.recOf ctx obj = c.recOf obj := by
  unfold State.recOf
  rw [State.ctx?_of_exported h]
  rfl

/-! ## Files (R372) -/

/-- The entry of an object that has just been made. -/
def DirEntry.created (obj : W64) (kind : BitVec 3) (ts : List TensorMark) : DirEntry :=
  { obj := obj, kind := kind, extent := 0, closed := false, retired := false, bytes := [], tensors := ts }

theorem exec_fileCreate {s : State} {q : HostReq} {path : List Byte} {ctx : Nat} {kind : BitVec 3} {obj : W64} (ts : List TensorMark)
    {c : Ctx} (hpath : filePath path = some (ctx, obj, kind)) (hc : s.exported q ctx = some c)
    (hauth : (s.world c.world).auths.contains (obj.extractLsb' 48 16) = true) (hnew : ∀ d ∈ c.dir, d.obj ≠ obj) :
    exec (.fileCreate q.port q.fn q.id path ts) s =
      .next (((s.addObject ctx (.created obj kind ts)).sequence).reply (some q) fuseCreateOp 0 0 0 []) := by
  have hnone : (c.dir.any fun d => d.obj == obj) = false := List.any_eq_false.mpr fun d hd => by simpa using hnew d hd
  show execFileCreate q.port q.fn q.id path ts s = _
  unfold execFileCreate
  simp only [hpath, hc, hauth, hnone]
  rfl

/-- Whether a file holds code that is BOUND on a package. -/
def State.codeBound (s : State) (ctx : Nat) (obj : W64) : Bool :=
  (s.recOf ctx obj).any (fun x => x.state == .bound) || s.pkg.boundAway.contains (ctx, obj)

theorem State.codeBound_iff (s : State) (ctx : Nat) (obj : W64) :
    s.codeBound ctx obj = true ↔ (∃ r, s.recOf ctx obj = some r ∧ r.state = .bound) ∨ (ctx, obj) ∈ s.pkg.boundAway := by
  simp [State.codeBound, Option.any_eq_true]

theorem exec_fileWrite_bound {s : State} {q : HostReq} {ctx : Nat} {obj : W64} {d : DirEntry} (offset : Nat) (bytes : List Byte)
    (close : Bool) (hd : s.fileOf q ctx obj = some d) (hkind : d.kind = 2) (hbound : s.codeBound ctx obj = true) :
    exec (.fileWrite q ctx obj offset bytes close) s = .next (s.reply (some q) fuseWriteOp eAcces 0 0 []) := by
  show execFileWrite q ctx obj offset bytes close s = _
  unfold execFileWrite
  rw [hd]
  exact if_pos ⟨hkind, hbound⟩

theorem exec_fileWrite_taken {s : State} {q : HostReq} {ctx : Nat} {obj : W64} {d : DirEntry} (offset : Nat) (bytes : List Byte)
    (close : Bool) (hd : s.fileOf q ctx obj = some d) (hbound : ¬ (d.kind = 2 ∧ s.codeBound ctx obj = true))
    (hextent : d.closed = true → offset + bytes.length ≤ d.extent) :
    exec (.fileWrite q ctx obj offset bytes close) s =
      .next ((if d.closed then s.rewrite ctx obj offset bytes else s.writeOpen ctx obj offset bytes close).reply (some q) fuseWriteOp 0 0 0
        []) := by
  have hfits : ¬ (d.closed && decide (d.extent < offset + bytes.length)) = true := by
    rw [Bool.and_eq_true, decide_eq_true_eq]
    rintro ⟨hclosed, hbeyond⟩
    exact absurd (hextent hclosed) (by omega)
  show execFileWrite q ctx obj offset bytes close s = _
  unfold execFileWrite
  rw [hd]
  exact (if_neg hbound).trans (if_neg hfits)

/-- A closed file's entry after bytes are written to it. -/
def DirEntry.rewritten (d : DirEntry) (offset : Nat) (bytes : List Byte) : DirEntry :=
  { d with bytes := Memory.write d.bytes offset bytes }

/-- A file's entry after bytes are written to it and it is perhaps closed. -/
def DirEntry.wrote (d : DirEntry) (offset : Nat) (bytes : List Byte) (close : Bool) : DirEntry :=
  { d with bytes := Memory.write d.bytes offset bytes, closed := close
           extent := if bytes.isEmpty then d.extent else max d.extent (offset + bytes.length) }

theorem State.ctx?_modEntry (s : State) (ctx : Nat) (obj : W64) (f : DirEntry → DirEntry) {c : Ctx} (h : s.ctx? ctx = some c) :
    (s.modEntry ctx obj f).ctx? ctx = some (c.modDir obj f) :=
  s.ctx?_modCtx ctx (fun c => c.modDir obj f) (fun _ => ⟨rfl, rfl⟩) h

theorem State.rewrite_none {s : State} {ctx : Nat} {obj : W64} (h : s.recOf ctx obj = none) (offset : Nat) (bytes : List Byte) :
    s.rewrite ctx obj offset bytes = s.modEntry ctx obj fun d => d.rewritten offset bytes := by
  unfold State.rewrite
  rw [h]
  rfl

/-- An object without a record: what is written to its file, and its close, change its entry alone. -/
theorem State.ctx?_writeOpen {s : State} {ctx : Nat} {obj : W64} {c : Ctx} (h : s.ctx? ctx = some c) (hrec : c.recOf obj = none)
    (offset : Nat) (bytes : List Byte) (close : Bool) :
    (s.writeOpen ctx obj offset bytes close).ctx? ctx = some (c.modDir obj fun d => d.wrote offset bytes close) := by
  have hctx := s.ctx?_modEntry ctx obj (fun d => d.wrote offset bytes close) h
  have hnone : (s.modEntry ctx obj fun d => d.wrote offset bytes close).recOf ctx obj = none := by
    unfold State.recOf
    rw [hctx]
    exact hrec
  have hsettle : (s.modEntry ctx obj fun d => d.wrote offset bytes close).settleRec ctx obj =
      s.modEntry ctx obj fun d => d.wrote offset bytes close := by
    unfold State.settleRec
    rw [hnone]
  show (if close then ((s.modEntry ctx obj fun d => d.wrote offset bytes close).settleRec ctx obj).sequence
    else s.modEntry ctx obj fun d => d.wrote offset bytes close).ctx? ctx = _
  split
  · rw [hsettle]
    exact hctx
  · exact hctx

theorem exec_fileWrite_entry {s : State} {q : HostReq} {ctx : Nat} {obj : W64} {c : Ctx} {d : DirEntry} (offset : Nat) (bytes : List Byte)
    (close : Bool) (hc : s.exported q ctx = some c) (hd : c.entryOf obj = some d)
    (hbound : ¬ (d.kind = 2 ∧ s.codeBound ctx obj = true)) (hrec : c.recOf obj = none)
    (hextent : d.closed = true → offset + bytes.length ≤ d.extent) :
    ∃ t x e, exec (.fileWrite q ctx obj offset bytes close) s = .next t ∧ t.ctx? ctx = some x ∧ x.entryOf obj = some e ∧
      e.bytes = Memory.write d.bytes offset bytes ∧ e.closed = (d.closed || close) ∧
      e.extent = if d.closed = true ∨ bytes = [] then d.extent else max d.extent (offset + bytes.length) := by
  have hctx := State.ctx?_of_exported hc
  have hexec := exec_fileWrite_taken offset bytes close (State.fileOf_of_exported hc hd) hbound hextent
  by_cases hclosed : d.closed = true
  · rw [if_pos hclosed, State.rewrite_none ((State.recOf_of_exported hc obj).trans hrec)] at hexec
    exact ⟨_, _, _, hexec, s.ctx?_modEntry ctx obj _ hctx,
      c.entryOf_map obj (fun d => d.rewritten offset bytes) (fun _ => ⟨rfl, rfl⟩) hd, rfl, by simp [hclosed, DirEntry.rewritten],
      by simp [hclosed, DirEntry.rewritten]⟩
  · rw [if_neg hclosed] at hexec
    refine ⟨_, _, _, hexec, State.ctx?_writeOpen hctx hrec offset bytes close,
      c.entryOf_map obj (fun d => d.wrote offset bytes close) (fun _ => ⟨rfl, rfl⟩) hd, rfl, by simp [hclosed, DirEntry.wrote], ?_⟩
    simp [hclosed, DirEntry.wrote]

theorem exec_fileUnlink_retires {s : State} {q : HostReq} {ctx : Nat} {obj : W64} {c : Ctx} {d : DirEntry}
    (hc : s.exported q ctx = some c) (hd : c.entryOf obj = some d) :
    ∃ t x, exec (.fileUnlink q ctx obj) s = .next t ∧ t.ctx? ctx = some x ∧ x.entryOf obj = none := by
  have hexec : exec (.fileUnlink q ctx obj) s = .next (((s.retire ctx obj).sequence).reply (some q) fuseUnlinkOp 0 0 0 []) := by
    show execFileUnlink q ctx obj s = _
    unfold execFileUnlink
    rw [State.fileOf_of_exported hc hd]
  refine ⟨_, _, hexec, ?_, c.entryOf_retired obj⟩
  exact s.ctx?_modCtx ctx (fun c => c.modDir obj fun d => { d with retired := true }) (fun _ => ⟨rfl, rfl⟩) (State.ctx?_of_exported hc)

/-! ## The window (R373) -/

/-- What a stretch of a window leaves of a mapping lies outside the stretch. -/
theorem DaxMap.cut_outside {place length : Nat} {m x : DaxMap} (h : x ∈ m.cut place length) :
    x.place + x.len ≤ place ∨ place + length ≤ x.place := by
  obtain ⟨g, hg, rfl⟩ := List.mem_map.mp h
  unfold cutRange at hg
  split at hg
  · next hapart =>
    obtain rfl : g = (m.place, m.len) := by simpa using hg
    simp only [meets, Bool.not_eq_true', Bool.and_eq_false_iff, decide_eq_false_iff_not] at hapart
    dsimp only
    omega
  · rcases List.mem_append.mp hg with hg | hg
    · split at hg
      · obtain rfl := List.mem_singleton.mp hg
        dsimp only
        omega
      · cases hg
    · split at hg
      · obtain rfl := List.mem_singleton.mp hg
        dsimp only
        omega
      · cases hg

/-- A cleared stretch of a function's window maps nothing. -/
theorem State.clearWindow_outside {s : State} {q : HostReq} {place length : Nat} {m : DaxMap}
    (h : m ∈ (s.clearWindow q place length).pkg.dax) (hport : m.port = q.port) (hfn : m.fn = q.fn) :
    m.place + m.len ≤ place ∨ place + length ≤ m.place := by
  obtain ⟨x, _, hx⟩ := List.mem_flatMap.mp h
  split at hx
  · exact DaxMap.cut_outside hx
  · next hother =>
    obtain rfl := List.mem_singleton.mp hx
    simp [hport, hfn] at hother

/-- The mappings of other functions stay. -/
theorem State.clearWindow_others {s : State} {q : HostReq} {place length : Nat} {m : DaxMap} (h : m ∈ s.pkg.dax)
    (hother : m.port ≠ q.port ∨ m.fn ≠ q.fn) : m ∈ (s.clearWindow q place length).pkg.dax := by
  refine List.mem_flatMap.mpr ⟨m, h, ?_⟩
  have hnot : ¬ (m.port == q.port && m.fn == q.fn) = true := by
    rw [Bool.and_eq_true, beq_iff_eq, beq_iff_eq]
    rintro ⟨hport, hfn⟩
    rcases hother with h | h
    · exact h hport
    · exact h hfn
  rw [if_neg hnot]
  exact List.mem_singleton_self m

theorem mem_distinct {l : List Nat} {x : Nat} (h : x ∈ l) : x ∈ distinct l := by
  have key : ∀ (l acc : List Nat), (x ∈ acc ∨ x ∈ l) → x ∈ l.foldl (fun acc x => if acc.contains x then acc else acc ++ [x]) acc := by
    intro l
    induction l with
    | nil => intro acc h; simpa using h
    | cons y l ih =>
      intro acc h
      rw [List.foldl_cons]
      refine ih _ ?_
      rcases h with h | h
      · refine .inl ?_
        split <;> simp [h]
      · rcases List.mem_cons.mp h with rfl | h
        · refine .inl ?_
          split
          · next hin => simpa using hin
          · simp
        · exact .inr h
  exact key l [] (.inr h)

/-- The pages of what is mapped are exempt from departure. -/
theorem State.repin_exempt {s : State} {m : DaxMap} {r : ObjRec} (hm : m ∈ s.pkg.dax) (hr : s.recOf m.ctx m.obj = some r) {p : Nat}
    (hp : p ∈ r.rangePages m.lo m.len) : s.repin.exempt p = true := by
  refine List.any_eq_true.mpr ⟨(daxOwner, p), List.mem_append_right _ ?_, by simp⟩
  refine List.mem_map.mpr ⟨p, mem_distinct (List.mem_flatMap.mpr ⟨m, hm, ?_⟩), rfl⟩
  rw [hr]
  exact hp

/-- The state with a mapping put in place of what its stretch of the window mapped. -/
def State.withMapping (s : State) (q : HostReq) (m : DaxMap) : State :=
  let s2 := s.clearWindow q m.place m.len
  ({ s2 with pkg := { s2.pkg with dax := s2.pkg.dax ++ [m] } } : State).repin

theorem exec_fuseSetupmapping {s : State} {q : HostReq} {ctx : Nat} {obj : W64} {c : Ctx} {d : DirEntry} {r : ObjRec}
    {offset length place : Nat} (hc : s.exported q ctx = some c) (hd : c.entryOf obj = some d) (hr : c.recOf obj = some r)
    (hlen : 0 < length) (hext : offset + length ≤ r.extent) (hwindow : place + length ≤ 2 ^ 36)
    (hpages : s.allPresent (r.rangePages offset length) = true) :
    exec (.fuseSetupmapping q ⟨ctx, obj⟩ offset length place) s =
      .next (((s.unawait (.fuseSetupmapping q ⟨ctx, obj⟩ offset length place)).withMapping q
        { port := q.port, fn := q.fn, place := place, ctx := ctx, obj := obj, lo := offset, len := length }).reply (some q) fuseMapOp 0
          0 0 []) := by
  have hneed : s.needRec ctx d = some (s, r) := by
    unfold State.needRec
    rw [State.ctx?_of_exported hc, Option.bind_some, Ctx.entryOf_obj hd, hr]
  have hgood : ¬ (r.extent < offset + length ∨ length = 0 ∨ windowSize < place + length) := by
    unfold windowSize
    omega
  show execFuseSetupmapping q ⟨ctx, obj⟩ offset length place s = _
  unfold execFuseSetupmapping
  simp only [State.fileOf_of_exported hc hd, hneed, if_neg hgood, State.whenPresent, hpages, if_true]
  rfl

theorem exec_fuseSetupmapping_maps {s : State} {q : HostReq} {ctx : Nat} {obj : W64} {c : Ctx} {d : DirEntry} {r : ObjRec}
    {offset length place : Nat} (hc : s.exported q ctx = some c) (hd : c.entryOf obj = some d) (hr : c.recOf obj = some r)
    (hlen : 0 < length) (hext : offset + length ≤ r.extent) (hwindow : place + length ≤ 2 ^ 36)
    (hpages : s.allPresent (r.rangePages offset length) = true) :
    ∃ t, exec (.fuseSetupmapping q ⟨ctx, obj⟩ offset length place) s = .next t ∧
      t.pkg.dax = (s.clearWindow q place length).pkg.dax ++
        [{ port := q.port, fn := q.fn, place := place, ctx := ctx, obj := obj, lo := offset, len := length }] ∧
      ∀ p ∈ r.rangePages offset length, t.exempt p = true := by
  refine ⟨_, exec_fuseSetupmapping hc hd hr hlen hext hwindow hpages, rfl, fun p hp => ?_⟩
  exact State.repin_exempt (List.mem_append_right _ (List.mem_singleton_self _)) ((State.recOf_of_exported hc obj).trans hr) hp

/-- What an access through the window does where it may be performed. -/
def State.daxDone (s : State) (q : HostReq) (i : Instr) (ps : List Piece) (size : Nat) (bytes : Option (List Byte)) : State :=
  match bytes with
  | some bs => ((s.unawait i).count ps).store ps (bs.take size)
  | none => ((s.unawait i).count ps).reply (some q) 0 stOk 0 0 (Memory.readPieces s.mem ps)

theorem exec_daxAccess_done {s : State} {q : HostReq} {place size ctx offset : Nat} {r : ObjRec} {bytes : Option (List Byte)}
    {ps : List Piece} {pad : Option (Nat × BitVec 512 × Nat)} (hmap : s.mapped q place size = some (ctx, r, offset)) (hsize : 0 < size)
    (hnone : s.daxBehind q (.daxAccess q.port q.fn q.id place size bytes) = false)
    (hplace : s.daxPlace ctx r offset size bytes.isSome = .ok ps pad) :
    exec (.daxAccess q.port q.fn q.id place size bytes) s =
      .next (s.daxDone q (.daxAccess q.port q.fn q.id place size bytes) ps size bytes) := by
  show execDaxAccess q.port q.fn q.id place size bytes s = _
  unfold execDaxAccess
  simp only [hmap, if_neg (Nat.ne_of_gt hsize), hnone, hplace]
  rfl

theorem exec_daxAccess_waits {s : State} {q : HostReq} {place size ctx offset : Nat} {r : ObjRec} {bytes : Option (List Byte)}
    (hmap : s.mapped q place size = some (ctx, r, offset)) (hsize : 0 < size)
    (hbehind : s.daxBehind q (.daxAccess q.port q.fn q.id place size bytes) = true) :
    exec (.daxAccess q.port q.fn q.id place size bytes) s = .next (s.await (.daxAccess q.port q.fn q.id place size bytes)) := by
  show execDaxAccess q.port q.fn q.id place size bytes s = _
  unfold execDaxAccess
  simp only [hmap, if_neg (Nat.ne_of_gt hsize), hbehind]
  rfl

theorem State.mem_await (s : State) (i : Instr) : i ∈ (s.await i).pkg.waiting := by
  unfold State.await
  dsimp only
  split
  · next h => simpa using h
  · simp

theorem State.count_mem (s : State) (ps : List Piece) : (s.count ps).mem = s.mem := (s.count_bytes ps).1

/-- Settles O54: what each request makes of an object's entry, of the window and of memory. -/
theorem filesAndMappings : Obligations.FilesAndMappings := by
  unfold Obligations.FilesAndMappings
  refine ⟨fun s q path ctx kind obj ts c hpath hc hauth hnew => ?create, fun s q ctx obj offset bytes close c d hc hd hextent => ?write,
    fun s q ctx obj c d hc hd => exec_fileUnlink_retires hc hd,
    fun s q ctx obj offset length place c d r hc hd hr hlen hext hwindow hpages =>
      exec_fuseSetupmapping_maps hc hd hr hlen hext hwindow hpages,
    fun s q place length => ?unmap, fun s q place size bs ctx r offset hmap hsize => ?access⟩
  case create =>
    refine ⟨_, { c with dir := c.dir ++ [.created obj kind ts] }, exec_fileCreate ts hpath hc hauth hnew, ?_, rfl⟩
    exact s.ctx?_modCtx ctx (fun c => { c with dir := c.dir ++ [.created obj kind ts] }) (fun _ => ⟨rfl, rfl⟩)
      (State.ctx?_of_exported hc)
  case write =>
    have hfile := State.fileOf_of_exported hc hd
    have hiff := s.codeBound_iff ctx obj
    rw [State.recOf_of_exported hc] at hiff
    refine ⟨fun hfree hrec => ?_, fun hfree hclosed => ?_, fun hkind hbound => ?_⟩
    · exact exec_fileWrite_entry offset bytes close hc hd (by rw [hiff]; exact hfree) hrec hextent
    · rw [exec_fileWrite_taken offset bytes close hfile (by rw [hiff]; exact hfree) hextent, if_pos hclosed]
      rfl
    · exact exec_fileWrite_bound offset bytes close hfile hkind (hiff.mpr hbound)
  case unmap =>
    exact ⟨_, rfl, rfl, fun m hm hport hfn => State.clearWindow_outside hm hport hfn, fun m hm h => State.clearWindow_others hm h⟩
  case access =>
    refine ⟨fun ps pad hnone hplace => ?_, fun ps pad hnone hplace => ?_, fun hbehind => ?_⟩
    · refine ⟨_, exec_daxAccess_done hmap hsize hnone hplace, ?_⟩
      exact (State.store_mem _ ps _).trans (congrArg (fun m => Memory.writePieces m ps (bs.take size)) (State.count_mem _ ps))
    · refine ⟨_, exec_daxAccess_done hmap hsize hnone hplace, State.count_mem _ ps, ?_⟩
      simp [State.daxDone, State.reply, State.tell]
    · exact ⟨_, exec_daxAccess_waits hmap hsize hbehind, s.mem_await _, rfl⟩

end Sys2Proof.Machine

/-! SUPPORT. Lanes that wait and are trapped (R37, R146, R290): each ends up waiting for the delivery of a trap, and goes on waiting for
it. -/

namespace Sys2Proof.Machine

/-! ## A lane that waits for a trap's delivery goes on waiting for it -/

theorem Wave.lt_of_wait {wv : Wave} {l : Nat} (h : (wv.thread l).wait ≠ .none) : l < wv.threads.length := by
  by_contra hout
  exact h (by simp [Wave.thread, hout, Thread.blank])

theorem State.lt_of_wait {s : State} {w l : Nat} (h : (s.thread w l).wait ≠ .none) : w < s.waves.length := by
  by_contra hout
  have hwave : s.wave w = Wave.blank := by simp [State.wave, hout]
  refine h ?_
  rw [State.thread, hwave]
  rfl

/-- The lanes of a wave that wait for a trap's delivery still do. -/
def Wave.keepsTrapped (a b : Wave) : Prop := ∀ l, (a.thread l).wait = .trapped → (b.thread l).wait = .trapped

theorem Wave.modLanes_keepsTrapped (wv : Wave) (ls : List Nat) (f : Nat → Thread → Thread)
    (hf : ∀ l t, t.wait = .trapped → (f l t).wait = .trapped) : wv.keepsTrapped (wv.modLanes ls f) := by
  intro l h
  rw [Wave.thread_modLanes _ _ _ _ (Wave.lt_of_wait (by rw [h]; decide))]
  split
  · exact hf l _ h
  · exact h

theorem Wave.wait_unhold (wv : Wave) (ls : List Nat) (l : Nat) : ((wv.unhold ls).thread l).wait = (wv.thread l).wait := by
  rw [Wave.thread_unhold]

theorem Wave.unhold_keepsTrapped (wv : Wave) (ls : List Nat) : wv.keepsTrapped (wv.unhold ls) := by
  intro l h
  rwa [Wave.wait_unhold]

/-- The lanes of every wave that wait for a trap's delivery still do. -/
def keepsTrapped (s t : State) : Prop := ∀ w l, (s.thread w l).wait = .trapped → (t.thread w l).wait = .trapped

theorem keepsTrapped.refl (s : State) : keepsTrapped s s := fun _ _ h => h

theorem keepsTrapped.trans {s t u : State} (h : keepsTrapped s t) (k : keepsTrapped t u) : keepsTrapped s u :=
  fun w l hs => k w l (h w l hs)

theorem keepsTrapped_foldl {α : Type} (f : State → α → State) (hf : ∀ s a, keepsTrapped s (f s a)) (l : List α) (s : State) :
    keepsTrapped s (l.foldl f s) :=
  foldl_rel keepsTrapped .refl (fun _ _ _ => .trans) f hf l s

theorem keepsTrapped.of_waves {s t : State} (h : t.waves = s.waves) : keepsTrapped s t := by
  intro w l hs
  have hthread : t.thread w l = s.thread w l := by simp only [State.thread, State.wave, h]
  rwa [hthread]

theorem State.modWave_keepsTrapped (s : State) (w : Nat) (f : Wave → Wave) (hf : ∀ wv : Wave, wv.keepsTrapped (f wv)) :
    keepsTrapped s (s.modWave w f) := by
  intro x l h
  have hx := State.lt_of_wait (by rw [h]; decide)
  unfold State.thread
  by_cases hxw : x = w
  · subst hxw
    rw [State.wave_modWave _ _ _ hx]
    exact hf _ l h
  · rw [State.wave_modWave_ne _ _ _ _ hxw]
    exact h

/-! ## A lane that has a trap's delivery to wait for already (R146) -/

/-- The lanes of a wave's trap entries that have not been delivered. -/
def Wave.owedLanes (wv : Wave) : List Nat := (wv.trapq.filter fun e => !e.delivered).flatMap fun e => e.lanes.map (·.lane)

theorem Wave.mem_owedLanes {wv : Wave} {l : Nat} :
    l ∈ wv.owedLanes ↔ ∃ e ∈ wv.trapq, e.delivered = false ∧ ∃ x ∈ e.lanes, x.lane = l := by
  simp [Wave.owedLanes, and_assoc]

/-- Lanes added to an entry take none away. -/
theorem TrapEntry.mem_join {e : TrapEntry} {more : List TrapLane} {x : TrapLane} (h : x ∈ e.lanes) : x ∈ (e.join more).lanes := by
  refine foldl_inv (fun l : List TrapLane => x ∈ l) _ (fun l y hx => ?_) more e.lanes h
  rw [← List.takeWhile_append_dropWhile (p := fun z : TrapLane => decide (z.lane < y.lane)) (l := l)] at hx
  rcases List.mem_append.mp hx with hx | hx
  · exact List.mem_append_left _ hx
  · exact List.mem_append_right _ (List.mem_cons_of_mem _ hx)

/-- What was owed to a lane still is when an entry is put into the queue. -/
theorem putEntry_owes {q : List TrapEntry} (e : TrapEntry) {l : Nat}
    (h : ∃ x ∈ q, x.delivered = false ∧ ∃ y ∈ x.lanes, y.lane = l) :
    ∃ x ∈ putEntry q e, x.delivered = false ∧ ∃ y ∈ x.lanes, y.lane = l := by
  obtain ⟨x, hx, hnew, y, hy, hlane⟩ := h
  unfold putEntry
  split
  · by_cases hsame : x.same e = true
    · exact ⟨x.join e.lanes, List.mem_map.mpr ⟨x, hx, if_pos hsame⟩, hnew, y, TrapEntry.mem_join hy, hlane⟩
    · exact ⟨x, List.mem_map.mpr ⟨x, hx, if_neg hsame⟩, hnew, y, hy, hlane⟩
  · refine ⟨x, ?_, hnew, y, hy, hlane⟩
    rw [← List.takeWhile_append_dropWhile (p := fun z : TrapEntry => z.before e) (l := q)] at hx
    rcases List.mem_append.mp hx with hx | hx
    · exact List.mem_append_left _ hx
    · exact List.mem_append_right _ (List.mem_cons_of_mem _ hx)

/-- A lane waits for a trap's delivery, or an entry of the queue has it to deliver. -/
def Wave.trappedOrOwed (wv : Wave) (l : Nat) : Prop := (wv.thread l).wait = .trapped ∨ l ∈ wv.owedLanes

/-- A lane that takes another trap instead of the one it waits for. -/
theorem Wave.retrap_self {wv : Wave} (k : TrapKind) {l : Nat} (hl : l < wv.threads.length) (h : wv.trappedOrOwed l) :
    ((wv.retrap k l).thread l).wait = .trapped := by
  unfold Wave.retrap
  split
  · next hnone =>
    rcases h with h | h
    · exact h
    · obtain ⟨e, he, hnew, x, hx, hlane⟩ := Wave.mem_owedLanes.mp h
      have hmiss := List.find?_eq_none.mp hnone e he
      simp only [hnew, Bool.not_false, Bool.true_and, List.any_eq_true, beq_iff_eq, not_exists, not_and] at hmiss
      exact absurd hlane (hmiss x hx)
  · have hthread := Wave.thread_modThread
      ({ wv with trapq := _ } : Wave) l (fun t => { t with wait := .trapped }) hl
    exact (congrArg Thread.wait hthread).trans rfl

/-- The other lanes keep what they wait for and what is owed to them. -/
theorem Wave.retrap_other {wv : Wave} (k : TrapKind) {l m : Nat} (hm : m ≠ l) (h : wv.trappedOrOwed m) :
    (wv.retrap k l).trappedOrOwed m := by
  unfold Wave.retrap
  split
  · exact h
  · next e hfind =>
    dsimp only
    rcases h with h | h
    · refine .inl ?_
      rw [Wave.thread_modThread_ne _ _ _ _ hm]
      exact h
    · refine .inr (Wave.mem_owedLanes.mpr (putEntry_owes _ ?_))
      obtain ⟨x, hx, hnew, y, hy, hlane⟩ := Wave.mem_owedLanes.mp h
      have hyl : (y.lane != l) = true := by simpa [hlane] using hm
      by_cases hxe : x = e
      · subst hxe
        have hleft : y ∈ x.lanes.filter fun z => z.lane != l := List.mem_filter.mpr ⟨hy, hyl⟩
        rw [if_neg (by rw [List.isEmpty_iff]; exact List.ne_nil_of_mem hleft)]
        exact ⟨_, List.mem_map.mpr ⟨x, hx, if_pos rfl⟩, hnew, y, hleft, hlane⟩
      · split
        · exact ⟨x, (List.mem_erase_of_ne hxe).mpr hx, hnew, y, hy, hlane⟩
        · exact ⟨x, List.mem_map.mpr ⟨x, hx, if_neg hxe⟩, hnew, y, hy, hlane⟩

theorem Wave.length_retrap (wv : Wave) (k : TrapKind) (l : Nat) : (wv.retrap k l).threads.length = wv.threads.length := by
  unfold Wave.retrap
  split
  · rfl
  · exact Wave.length_modThread ..

theorem Wave.retrap_keepsTrapped (wv : Wave) (k : TrapKind) (l : Nat) : wv.keepsTrapped (wv.retrap k l) := by
  intro m h
  by_cases hm : m = l
  · subst hm
    exact Wave.retrap_self k (Wave.lt_of_wait (by rw [h]; decide)) (.inl h)
  · unfold Wave.retrap
    split
    · exact h
    · rw [Wave.thread_modThread_ne _ _ _ _ hm]
      exact h

/-- A fold that brings a property about at one of its elements, and keeps it afterwards. -/
theorem foldl_reaches {α β : Type} (f : β → α → β) (I P : β → Prop) (hI : ∀ b x, I b → I (f b x)) (hP : ∀ b x, P b → P (f b x)) (a : α)
    (ha : ∀ b, I b → P (f b a)) (l : List α) (hmem : a ∈ l) (b : β) (hb : I b) : P (l.foldl f b) := by
  induction l generalizing b with
  | nil => cases hmem
  | cons x l ih =>
    rcases List.mem_cons.mp hmem with rfl | hmem
    · exact foldl_inv P f hP l _ (ha b hb)
    · exact ih hmem _ (hI b x hb)

/-- Each of the lanes to which a trap is owed waits for one after all of them took another. -/
theorem Wave.retraps_trapped (k : TrapKind) (ls : List Nat) (wv : Wave) {l : Nat} (hl : l < wv.threads.length) (hmem : l ∈ ls)
    (howed : l ∈ wv.owedLanes) : ((ls.foldl (fun wv l => wv.retrap k l) wv).thread l).wait = .trapped := by
  refine foldl_reaches (fun wv l => wv.retrap k l) (fun wv : Wave => l < wv.threads.length ∧ wv.trappedOrOwed l)
    (fun wv => (wv.thread l).wait = .trapped) (fun wv m h => ?_) (fun wv m h => wv.retrap_keepsTrapped k m l h) l
    (fun wv h => Wave.retrap_self k h.1 h.2) ls hmem wv ⟨hl, .inr howed⟩
  refine ⟨by rw [Wave.length_retrap]; exact h.1, ?_⟩
  by_cases hm : l = m
  · subst hm
    exact .inl (Wave.retrap_self k h.1 h.2)
  · exact Wave.retrap_other k hm h.2

end Sys2Proof.Machine

/-! SUPPORT. What trapping waiting lanes does to each of them, in one wave and in all (R37, R290, R295). -/

namespace Sys2Proof.Machine

/-! ## Lanes at one instruction -/

/-- Where a lane stands: its next replay entry, or its PC. -/
def Thread.trapKey (t : Thread) : W64 × Option (IWord × Nat) :=
  match t.redo.head? with
  | some r => (r.pc, some (r.word, r.issued))
  | none => (t.pc, none)

/-- Whether two lanes of a wave stand at one instruction. -/
def State.sameTrap (s : State) (w a b : Nat) : Bool :=
  match (s.thread w a).redo.head?, (s.thread w b).redo.head? with
  | some x, some y => x.pc == y.pc && x.word == y.word && x.issued == y.issued
  | none, none => (s.thread w a).pc == (s.thread w b).pc
  | _, _ => false

theorem State.sameTrap_iff (s : State) (w a b : Nat) :
    s.sameTrap w a b = true ↔ (s.thread w a).trapKey = (s.thread w b).trapKey := by
  unfold State.sameTrap Thread.trapKey
  cases (s.thread w a).redo.head? <;> cases (s.thread w b).redo.head? <;> simp [and_assoc]

/-- The first lanes of a list, each at an instruction of its own. -/
def State.trapFirsts (s : State) (w : Nat) (lanes : List Nat) : List Nat :=
  lanes.filter fun l => (lanes.takeWhile (· != l)).all fun x => !s.sameTrap w x l

/-- Every lane stands where one of the first lanes does. -/
theorem State.exists_trapFirst (s : State) (w : Nat) {lanes : List Nat} {l : Nat} (hl : l ∈ lanes) :
    ∃ x ∈ s.trapFirsts w lanes, s.sameTrap w x l = true := by
  have hsome : (lanes.find? fun x => s.sameTrap w x l).isSome = true :=
    List.find?_isSome.mpr ⟨l, hl, (s.sameTrap_iff w l l).mpr rfl⟩
  obtain ⟨x, hx⟩ := Option.isSome_iff_exists.mp hsome
  obtain ⟨hsame, as, bs, hlist, hbefore⟩ := List.find?_eq_some_iff_append.mp hx
  refine ⟨x, List.mem_filter.mpr ⟨List.mem_of_find?_eq_some hx, List.all_eq_true.mpr fun y hy => ?_⟩, hsame⟩
  have hne : ∀ a ∈ as, (a != x) = true := by
    intro a ha
    have hnot := hbefore a ha
    by_contra heq
    have hax : a = x := by simpa using heq
    rw [hax, hsame] at hnot
    simp at hnot
  have hyas : y ∈ as := by
    rw [hlist, List.takeWhile_append_of_pos hne, List.takeWhile_cons_of_neg (by simp), List.append_nil] at hy
    exact hy
  have hyl : ¬ s.sameTrap w y l = true := by simpa using hbefore y hyas
  have hyx : ¬ s.sameTrap w y x = true := by
    rw [State.sameTrap_iff] at hyl hsame ⊢
    rwa [hsame]
  simpa using hyx

/-! ## Waiting lanes of a wave are trapped -/

/-- The entry of lanes that stand at a replay entry, and the lanes' wait for its delivery. -/
def Wave.trapReplay (wv : Wave) (k : TrapKind) (mine : List Nat) (r : Redo) : Wave :=
  let item (x : Nat) : TrapLane :=
    { lane := x, cont := (wv.thread x).pc
      redo := (wv.thread x).redo.mapIdx fun i r => { r with first := i == 0, late := false, slot := none, entry := none } }
  let e : TrapEntry :=
    { pc := r.pc, kind := k, issued := r.issued, lanes := mine.map item, delivered := false, begun := false, owed := [] }
  ({ wv with trapq := putEntry wv.trapq e }.modLanes mine fun _ t => { t with redo := [], wait := .trapped }).unhold mine

/-- The trap of the lanes that stand with a lane. -/
def State.trapMates (s0 : State) (w : Nat) (k : TrapKind) (lanes : List Nat) (s : State) (l : Nat) : State :=
  match (s0.thread w l).redo.head? with
  | none => s.raiseFetch w (s.thread w l).pc k (lanes.filter (s0.sameTrap w l))
  | some r => s.modWave w fun wv => wv.trapReplay k (lanes.filter (s0.sameTrap w l)) r

/-- The state in which the lanes to which a trap is owed have taken another. -/
def State.retrapped (s : State) (w : Nat) (k : TrapKind) (all : List Nat) : State :=
  s.modWave w fun wv => (all.filter (s.wave w).owedLanes.contains).foldl (fun wv l => wv.retrap k l) wv

theorem State.trapWaiting_eq (s : State) (w : Nat) (k : TrapKind) (all : List Nat) :
    s.trapWaiting w k all = (s.trapFirsts w (all.filter fun l => !(s.wave w).owedLanes.contains l)).foldl
      (s.trapMates w k (all.filter fun l => !(s.wave w).owedLanes.contains l)) (s.retrapped w k all) := rfl

theorem Wave.thread_modLanes_mem (wv : Wave) {ls : List Nat} (f : Nat → Thread → Thread) {l : Nat} (hl : l < wv.threads.length)
    (hmem : l ∈ ls) : (wv.modLanes ls f).thread l = f l (wv.thread l) := by
  rw [Wave.thread_modLanes _ _ _ _ hl, if_pos hmem]

theorem Wave.trapReplay_trapped (wv : Wave) (k : TrapKind) {mine : List Nat} (r : Redo) {l : Nat} (hl : l < wv.threads.length)
    (hmem : l ∈ mine) : ((wv.trapReplay k mine r).thread l).wait = .trapped := by
  have hlane := Wave.thread_modLanes_mem ({ wv with trapq := _ } : Wave) (fun _ t => { t with redo := [], wait := .trapped }) hl hmem
  exact (Wave.wait_unhold _ mine l).trans (congrArg Thread.wait hlane)

theorem Wave.trapReplay_keepsTrapped (wv : Wave) (k : TrapKind) (mine : List Nat) (r : Redo) : wv.keepsTrapped (wv.trapReplay k mine r) :=
  fun l h => Wave.unhold_keepsTrapped _ _ l (Wave.modLanes_keepsTrapped { wv with trapq := _ } mine _ (fun _ _ _ => rfl) l h)

theorem Wave.length_trapReplay (wv : Wave) (k : TrapKind) (mine : List Nat) (r : Redo) :
    (wv.trapReplay k mine r).threads.length = wv.threads.length := by
  simp [Wave.trapReplay, Wave.unhold, Wave.modLanes]

/-- Lanes that were fetching, and their wait for the delivery. -/
def Wave.trapFetch (wv : Wave) (pc : W64) (k : TrapKind) (lanes : List Nat) : Wave :=
  let entry : TrapEntry :=
    { pc := pc, kind := k, issued := wv.issues, lanes := lanes.map fun l => ⟨l, pc, []⟩, delivered := false
      begun := false, owed := [] }
  { wv with trapq := putEntry wv.trapq entry }.modLanes lanes fun _ t => { t with wait := .trapped }

theorem State.raiseFetch_eq (s : State) (w : Nat) (pc : W64) (k : TrapKind) {lanes : List Nat} (h : lanes ≠ []) :
    s.raiseFetch w pc k lanes = s.modWave w fun wv => wv.trapFetch pc k lanes := by
  unfold State.raiseFetch
  rw [if_neg (by simpa using h)]
  rfl

theorem State.trapMates_cases (s0 : State) (w : Nat) (k : TrapKind) (lanes : List Nat) (s : State) (l : Nat) :
    (s0.trapMates w k lanes s l = s ∧ ∀ m ∈ lanes, s0.sameTrap w l m ≠ true) ∨
    ∃ f : Wave → Wave, s0.trapMates w k lanes s l = s.modWave w f ∧ (∀ wv : Wave, wv.keepsTrapped (f wv)) ∧
      (∀ wv : Wave, (f wv).threads.length = wv.threads.length) ∧ (∀ wv : Wave, ∃ q ts, f wv = { wv with trapq := q, threads := ts }) ∧
      ∀ (wv : Wave) m, m < wv.threads.length → m ∈ lanes → s0.sameTrap w l m = true → ((f wv).thread m).wait = .trapped := by
  unfold State.trapMates
  split
  · by_cases hnil : lanes.filter (s0.sameTrap w l) = []
    · refine .inl ⟨by rw [hnil]; rfl, fun m hm hsame => ?_⟩
      have hmem : m ∈ lanes.filter (s0.sameTrap w l) := List.mem_filter.mpr ⟨hm, hsame⟩
      rw [hnil] at hmem
      cases hmem
    · refine .inr ⟨_, s.raiseFetch_eq w _ k hnil, fun wv => Wave.modLanes_keepsTrapped { wv with trapq := _ } _ _ fun _ _ _ => rfl,
        fun wv => Wave.length_modLanes .., fun wv => ⟨_, _, rfl⟩, fun wv m hm hmem hsame => ?_⟩
      exact congrArg Thread.wait
        (Wave.thread_modLanes_mem ({ wv with trapq := _ } : Wave) _ hm (List.mem_filter.mpr ⟨hmem, hsame⟩))
  · next r _ =>
    exact .inr ⟨_, rfl, fun wv => wv.trapReplay_keepsTrapped k _ r, fun wv => wv.length_trapReplay k _ r, fun wv => ⟨_, _, rfl⟩,
      fun wv m hm hmem hsame => wv.trapReplay_trapped k r hm (List.mem_filter.mpr ⟨hmem, hsame⟩)⟩

/-- Trapping lanes of a wave changes the queue and the threads of that wave alone. -/
structure trapsIn (w : Nat) (s t : State) : Prop where
  keeps : keepsTrapped s t
  rest : t = { s with waves := t.waves }
  count : t.waves.length = s.waves.length
  other : ∀ x, x ≠ w → t.wave x = s.wave x
  lanes : (t.wave w).threads.length = (s.wave w).threads.length
  fields : ∃ q ts, t.wave w = { s.wave w with trapq := q, threads := ts }

theorem trapsIn.refl (w : Nat) (s : State) : trapsIn w s s := ⟨.refl s, rfl, rfl, fun _ _ => rfl, rfl, _, _, rfl⟩

theorem trapsIn.trans {w : Nat} {s t u : State} (h : trapsIn w s t) (k : trapsIn w t u) : trapsIn w s u := by
  refine ⟨h.keeps.trans k.keeps, by rw [k.rest, h.rest], k.count.trans h.count, fun x hx => (k.other x hx).trans (h.other x hx),
    k.lanes.trans h.lanes, ?_⟩
  obtain ⟨q, ts, hw⟩ := h.fields
  obtain ⟨q', ts', kw⟩ := k.fields
  exact ⟨q', ts', by rw [kw, hw]⟩

theorem State.modWave_trapsIn (s : State) {w : Nat} (hw : w < s.waves.length) (f : Wave → Wave)
    (hkeeps : ∀ wv : Wave, wv.keepsTrapped (f wv)) (hlen : ∀ wv : Wave, (f wv).threads.length = wv.threads.length)
    (hfields : ∀ wv : Wave, ∃ q ts, f wv = { wv with trapq := q, threads := ts }) : trapsIn w s (s.modWave w f) := by
  refine ⟨s.modWave_keepsTrapped w f hkeeps, rfl, length_modifyAt .., fun x hx => State.wave_modWave_ne _ _ _ _ hx, ?_, ?_⟩
  · rw [State.wave_modWave _ _ _ hw, hlen]
  · rw [State.wave_modWave _ _ _ hw]
    exact hfields _

theorem State.trapMates_trapsIn (s0 : State) {w : Nat} (k : TrapKind) (lanes : List Nat) {s : State} (hw : w < s.waves.length) (l : Nat) :
    trapsIn w s (s0.trapMates w k lanes s l) := by
  rcases s0.trapMates_cases w k lanes s l with ⟨h, _⟩ | ⟨f, h, hkeeps, hlen, hfields, _⟩
  · rw [h]
    exact .refl w s
  · rw [h]
    exact s.modWave_trapsIn hw f hkeeps hlen hfields

theorem Wave.retrap_fields (wv : Wave) (k : TrapKind) (l : Nat) : ∃ q ts, wv.retrap k l = { wv with trapq := q, threads := ts } := by
  unfold Wave.retrap
  split
  · exact ⟨_, _, rfl⟩
  · exact ⟨_, _, rfl⟩

theorem State.retrapped_trapsIn (s : State) {w : Nat} (hw : w < s.waves.length) (k : TrapKind) (all : List Nat) :
    trapsIn w s (s.retrapped w k all) := by
  refine s.modWave_trapsIn hw _ (fun wv => ?_) (fun wv => ?_) (fun wv => ?_)
  · exact foldl_rel Wave.keepsTrapped (fun _ _ h => h) (fun _ _ _ h k l hl => k l (h l hl)) _ (fun wv l => wv.retrap_keepsTrapped k l) _ wv
  · exact foldl_inv (fun x : Wave => x.threads.length = wv.threads.length) _ (fun x l hx => (x.length_retrap k l).trans hx) _ wv rfl
  · refine foldl_inv (fun x : Wave => ∃ q ts, x = { wv with trapq := q, threads := ts }) _ (fun x l hx => ?_) _ wv ⟨_, _, rfl⟩
    obtain ⟨q, ts, hx⟩ := hx
    obtain ⟨q', ts', hr⟩ := x.retrap_fields k l
    exact ⟨q', ts', by rw [hr, hx]⟩

theorem State.trapWaiting_trapsIn (s : State) {w : Nat} (hw : w < s.waves.length) (k : TrapKind) (all : List Nat) :
    trapsIn w s (s.trapWaiting w k all) := by
  rw [State.trapWaiting_eq]
  refine foldl_inv (fun t : State => trapsIn w s t) _ (fun t l ht => ?_) _ _ (s.retrapped_trapsIn hw k all)
  exact ht.trans (s.trapMates_trapsIn k _ (by rw [ht.count]; exact hw) l)

/-- Each of the waiting lanes waits for the delivery of its trap. -/
theorem State.trapWaiting_trapped (s : State) {w : Nat} (hw : w < s.waves.length) (k : TrapKind) {all : List Nat} {l : Nat}
    (hl : l < (s.wave w).threads.length) (hmem : l ∈ all) : ((s.trapWaiting w k all).thread w l).wait = .trapped := by
  have hretrapped := s.retrapped_trapsIn hw k all
  rw [State.trapWaiting_eq]
  by_cases howed : l ∈ (s.wave w).owedLanes
  · have hfirst : ((s.retrapped w k all).thread w l).wait = .trapped := by
      unfold State.thread State.retrapped
      rw [State.wave_modWave _ _ _ hw]
      exact Wave.retraps_trapped k _ _ hl (List.mem_filter.mpr ⟨hmem, by simpa using howed⟩) howed
    refine (foldl_inv (fun t : State => w < t.waves.length ∧ (t.thread w l).wait = .trapped) _ (fun t x ht => ?_) _ _
      ⟨by rw [hretrapped.count]; exact hw, hfirst⟩).2
    have hmates := s.trapMates_trapsIn k (all.filter fun l => !(s.wave w).owedLanes.contains l) ht.1 x
    exact ⟨by rw [hmates.count]; exact ht.1, hmates.keeps w l ht.2⟩
  · have hlane : l ∈ all.filter fun l => !(s.wave w).owedLanes.contains l := List.mem_filter.mpr ⟨hmem, by simpa using howed⟩
    obtain ⟨x, hx, hsame⟩ := s.exists_trapFirst w hlane
    generalize (all.filter fun l => !(s.wave w).owedLanes.contains l) = lanes at *
    refine (foldl_reaches (s.trapMates w k lanes) (fun t : State => w < t.waves.length ∧ l < (t.wave w).threads.length)
      (fun t => (w < t.waves.length ∧ l < (t.wave w).threads.length) ∧ (t.thread w l).wait = .trapped) (fun t y ht => ?_)
      (fun t y ht => ?_) x (fun t ht => ?_) _ hx _ ⟨by rw [hretrapped.count]; exact hw, by rw [hretrapped.lanes]; exact hl⟩).2
    · have hmates := s.trapMates_trapsIn k lanes ht.1 y
      exact ⟨by rw [hmates.count]; exact ht.1, by rw [hmates.lanes]; exact ht.2⟩
    · obtain ⟨hin, htrapped⟩ := ht
      have hmates := s.trapMates_trapsIn k lanes hin.1 y
      exact ⟨⟨by rw [hmates.count]; exact hin.1, by rw [hmates.lanes]; exact hin.2⟩, hmates.keeps w l htrapped⟩
    · have hmates := s.trapMates_trapsIn k lanes ht.1 x
      refine ⟨⟨by rw [hmates.count]; exact ht.1, by rw [hmates.lanes]; exact ht.2⟩, ?_⟩
      rcases s.trapMates_cases w k lanes t x with ⟨_, hnone⟩ | ⟨f, h, _, _, _, htraps⟩
      · exact absurd hsame (hnone l hlane)
      · rw [h]
        unfold State.thread
        rw [State.wave_modWave _ _ _ ht.1]
        exact htraps _ l ht.2 hlane hsame

end Sys2Proof.Machine

/-! SUPPORT. Answers to fault records (R290, R303): what the lanes that wait on a record learn, and that telling the others keeps it. -/

namespace Sys2Proof.Machine

/-! ## Lanes that leave a wait -/

theorem Wave.thread_resumeLanes_not (wv : Wave) (p : Thread → Bool) (l : Nat) (hp : p (wv.thread l) = false) :
    (wv.resumeLanes p).thread l = wv.thread l := by
  simp only [Wave.resumeLanes, Wave.thread, List.getD_eq_getElem?_getD, List.getElem?_mapIdx] at hp ⊢
  cases h : wv.threads[l]? with
  | none => rfl
  | some t =>
    rw [h] at hp
    have hpt : p t = false := hp
    simp [hpt]

theorem Wave.resumeLanes_fields (wv : Wave) (p : Thread → Bool) : ∃ q ts, wv.resumeLanes p = { wv with trapq := q, threads := ts } :=
  ⟨_, _, rfl⟩

theorem State.thread_resumeAll_not (s : State) (p : Thread → Bool) (w l : Nat) (hp : p (s.thread w l) = false) :
    (s.resumeAll p).thread w l = s.thread w l := by
  unfold State.thread
  rw [State.wave_resumeAll]
  exact Wave.thread_resumeLanes_not _ _ _ hp

/-! ## What the proxy holds (R303, R312) -/

theorem State.proxied_congr {s t : State} {w : Nat} (hteams : t.teams = s.teams) (htiles : t.tiles = s.tiles)
    (hwave : ∃ q ts, t.wave w = { s.wave w with trapq := q, threads := ts }) : t.proxied w = s.proxied w := by
  obtain ⟨q, ts, h⟩ := hwave
  simp only [State.proxied, State.team, State.tile, hteams, htiles, h]

/-- Lanes have been told of an answer: waves' threads and trap queues, and what the proxy holds, may differ. -/
structure toldFrom (s t : State) : Prop where
  rest : t = { s with waves := t.waves, proxy := t.proxy }
  count : t.waves.length = s.waves.length
  held : ∀ x ∈ s.proxy, x ∈ t.proxy
  fields : ∀ w, ∃ q ts, t.wave w = { s.wave w with trapq := q, threads := ts }

theorem toldFrom.refl (s : State) : toldFrom s s := ⟨rfl, rfl, fun _ h => h, fun _ => ⟨_, _, rfl⟩⟩

theorem toldFrom.trans {s t u : State} (h : toldFrom s t) (k : toldFrom t u) : toldFrom s u := by
  refine ⟨by rw [k.rest, h.rest], k.count.trans h.count, fun x hx => k.held x (h.held x hx), fun w => ?_⟩
  obtain ⟨_, _, hw⟩ := h.fields w
  obtain ⟨q, ts, kw⟩ := k.fields w
  exact ⟨q, ts, by rw [kw, hw]⟩

theorem toldFrom.proxied {s t : State} (h : toldFrom s t) (w : Nat) : t.proxied w = s.proxied w :=
  State.proxied_congr (by rw [h.rest]) (by rw [h.rest]) (h.fields w)

/-- A step at a wave tells that wave's lanes, and no other wave changes. -/
def tellsOne (f : State → Nat → State) : Prop :=
  ∀ s w, w < s.waves.length → toldFrom s (f s w) ∧ ∀ x, x ≠ w → (f s w).wave x = s.wave x

theorem tellsOne.foldl {f : State → Nat → State} (hf : tellsOne f) (ws : List Nat) (s : State) (hlt : ∀ x ∈ ws, x < s.waves.length) :
    toldFrom s (ws.foldl f s) := by
  induction ws generalizing s with
  | nil => exact .refl s
  | cons x ws ih =>
    have hx := (hf s x (hlt x (by simp))).1
    exact hx.trans (ih _ fun y hy => by rw [hx.count]; exact hlt y (by simp [hy]))

/-- What telling a wave brings about, and telling the others keeps, holds once all the waves are told. -/
theorem tellsOne.foldl_reaches {f : State → Nat → State} (hf : tellsOne f) {s : State} {w : Nat} (P : State → Prop)
    (hkeep : ∀ t x, toldFrom s t → x < t.waves.length → P t → P (f t x))
    (hgive : ∀ t, toldFrom s t → t.wave w = s.wave w → w < t.waves.length → P (f t w)) (ws : List Nat)
    (hlt : ∀ x ∈ ws, x < s.waves.length) (hmem : w ∈ ws) : P (ws.foldl f s) := by
  have key : ∀ t, toldFrom s t → (P t ∨ (t.wave w = s.wave w ∧ w ∈ ws)) → P (ws.foldl f t) := by
    clear hmem
    induction ws with
    | nil => exact fun t _ h => h.resolve_right (by simp)
    | cons x ws ih =>
      intro t ht h
      have hx : x < t.waves.length := by rw [ht.count]; exact hlt x (by simp)
      obtain ⟨htold, hothers⟩ := hf t x hx
      refine ih (fun y hy => hlt y (by simp [hy])) _ (ht.trans htold) ?_
      rcases h with h | ⟨hsame, hmem⟩
      · exact .inl (hkeep t x ht hx h)
      · by_cases hxw : x = w
        · subst hxw
          exact .inl (hgive t ht hsame hx)
        · refine .inr ⟨(hothers w (Ne.symm hxw)).trans hsame, ?_⟩
          exact (List.mem_cons.mp hmem).resolve_left (Ne.symm hxw)
  exact key s (.refl s) (.inr ⟨rfl, hmem⟩)

/-- What the waiting lanes of one wave learn. -/
def State.tellWave (die : Nat) (seq : W32) (status : FaultStatus) (s : State) (w : Nat) : State :=
  if s.proxied w then s.holdReply w (.faultAnswer die seq status none)
  else if status = .resolved then s.modWave w fun wv => wv.resumeLanes fun t => t.wait == .fault die seq
  else s.trapWaiting w (statusTrap status) ((s.wave w).lanesWith fun t => t.wait == .fault die seq)

theorem State.modWave_toldFrom (s : State) {w : Nat} (hw : w < s.waves.length) (f : Wave → Wave)
    (hf : ∀ wv : Wave, ∃ q ts, f wv = { wv with trapq := q, threads := ts }) : toldFrom s (s.modWave w f) := by
  refine ⟨rfl, length_modifyAt .., fun _ h => h, fun x => ?_⟩
  by_cases hx : x = w
  · subst hx
    rw [State.wave_modWave _ _ _ hw]
    exact hf _
  · rw [State.wave_modWave_ne _ _ _ _ hx]
    exact ⟨_, _, rfl⟩

theorem trapsIn.toldFrom {w : Nat} {s t : State} (h : trapsIn w s t) : toldFrom s t := by
  refine ⟨?_, h.count, fun x hx => ?_, fun x => ?_⟩
  · rw [h.rest]
  · rw [h.rest]
    exact hx
  · by_cases hx : x = w
    · subst hx
      exact h.fields
    · rw [h.other x hx]
      exact ⟨_, _, rfl⟩

theorem State.tellWave_told (die : Nat) (seq : W32) (status : FaultStatus) : tellsOne (State.tellWave die seq status) := by
  intro s w hw
  unfold State.tellWave
  split
  · exact ⟨⟨rfl, rfl, fun x hx => List.mem_append_left _ hx, fun _ => ⟨_, _, rfl⟩⟩, fun _ _ => rfl⟩
  · split
    · exact ⟨s.modWave_toldFrom hw _ fun wv => wv.resumeLanes_fields _, fun x hx => State.wave_modWave_ne _ _ _ _ hx⟩
    · have h := s.trapWaiting_trapsIn hw (statusTrap status) ((s.wave w).lanesWith fun t => t.wait == .fault die seq)
      exact ⟨h.toldFrom, h.other⟩

/-- The waves with lanes that wait on a record. -/
def State.waitingWaves (s : State) (die : Nat) (seq : W32) : List Nat :=
  (List.range s.waves.length).filter fun w => (s.wave w).threads.any fun t => t.wait == .fault die seq

theorem State.lt_of_waitingWaves {s : State} {die : Nat} {seq : W32} {w : Nat} (h : w ∈ s.waitingWaves die seq) : w < s.waves.length :=
  List.mem_range.mp (List.mem_filter.mp h).1

theorem State.mem_waitingWaves {s : State} {die : Nat} {seq : W32} {w l : Nat} (hwait : (s.thread w l).wait = .fault die seq) :
    w ∈ s.waitingWaves die seq := by
  have hne : (s.thread w l).wait ≠ .none := by rw [hwait]; exact Wait.noConfusion
  have hl : l < (s.wave w).threads.length := Wave.lt_of_wait hne
  refine List.mem_filter.mpr ⟨List.mem_range.mpr (State.lt_of_wait hne), ?_⟩
  refine List.any_eq_true.mpr ⟨(s.wave w).threads[l], List.getElem_mem hl, ?_⟩
  have hthread : s.thread w l = (s.wave w).threads[l] := by simp [State.thread, Wave.thread, hl]
  rw [← hthread, hwait]
  exact beq_self_eq_true _

theorem State.tellWaiters_eq (s : State) (die : Nat) (seq : W32) (status : FaultStatus) :
    s.tellWaiters die seq status = (s.waitingWaves die seq).foldl (State.tellWave die seq status) s := rfl

theorem State.tellWaiters_told (s : State) (die : Nat) (seq : W32) (status : FaultStatus) : toldFrom s (s.tellWaiters die seq status) :=
  (State.tellWave_told die seq status).foldl _ s fun _ => State.lt_of_waitingWaves

theorem State.thread_eq_of_wave {s t : State} {w : Nat} (h : t.wave w = s.wave w) (l : Nat) : t.thread w l = s.thread w l := by
  unfold State.thread
  rw [h]

/-- A lane that waits on a record that is answered RESOLVED goes on, or the proxy holds the answer for it. -/
theorem State.tellWaiters_resolved (s : State) (die : Nat) (seq : W32) {w l : Nat} (hwait : (s.thread w l).wait = .fault die seq) :
    if s.proxied w then (⟨w, .faultAnswer die seq .resolved none⟩ : Proxied) ∈ (s.tellWaiters die seq .resolved).proxy
    else goesOn (s.tellWaiters die seq .resolved) w l := by
  have hne : (s.thread w l).wait ≠ .none := by rw [hwait]; exact Wait.noConfusion
  have hmem := State.mem_waitingWaves hwait
  rw [State.tellWaiters_eq]
  split
  · next hproxied =>
    refine (State.tellWave_told die seq .resolved).foldl_reaches (w := w)
      (fun t => (⟨w, .faultAnswer die seq .resolved none⟩ : Proxied) ∈ t.proxy) (fun t x _ hx h => ?_) (fun t ht _ _ => ?_) _ (fun _ => State.lt_of_waitingWaves) hmem
    · exact (State.tellWave_told die seq .resolved t x hx).1.held _ h
    · unfold State.tellWave
      rw [if_pos (by rw [ht.proxied]; exact hproxied)]
      exact List.mem_append_right _ (List.mem_singleton_self _)
  · next hproxied =>
    refine (State.tellWave_told die seq .resolved).foldl_reaches (w := w) (fun t => goesOn t w l) (fun t x ht hx h => ?_)
      (fun t ht hsame hw => ?_) _ (fun _ => State.lt_of_waitingWaves) hmem
    · by_cases hxw : x = w
      · subst hxw
        unfold State.tellWave
        rw [if_neg (by rw [ht.proxied]; exact hproxied), if_pos rfl]
        unfold goesOn State.thread
        rw [State.wave_modWave _ _ _ hx, Wave.thread_resumeLanes_not _ _ _ ?_]
        · exact h
        · have h' : ((t.wave x).thread l).wait = .none ∨ ((t.wave x).thread l).wait = .trapped := h
          rcases h' with h' | h' <;> rw [h'] <;> rfl
      · unfold goesOn
        rw [State.thread_eq_of_wave ((State.tellWave_told die seq .resolved t x hx).2 w (Ne.symm hxw))]
        exact h
    · unfold State.tellWave
      rw [if_neg (by rw [ht.proxied]; exact hproxied), if_pos rfl]
      unfold goesOn State.thread
      rw [State.wave_modWave _ _ _ hw, hsame]
      refine Wave.wait_resumeLanes _ _ _ (Wave.lt_of_wait hne) ?_
      have hwait' : ((s.wave w).thread l).wait = .fault die seq := hwait
      rw [hwait']
      exact beq_self_eq_true _

/-- A lane that waits on a record that is refused waits for a trap's delivery, where the proxy does not hold the answer for it. -/
theorem State.tellWaiters_refused (s : State) (die : Nat) (seq : W32) {status : FaultStatus} (hst : status ≠ .resolved) {w l : Nat}
    (hwait : (s.thread w l).wait = .fault die seq) (hproxied : s.proxied w = false) :
    ((s.tellWaiters die seq status).thread w l).wait = .trapped := by
  have hne : (s.thread w l).wait ≠ .none := by rw [hwait]; exact Wait.noConfusion
  have hmem := State.mem_waitingWaves hwait
  rw [State.tellWaiters_eq]
  refine (State.tellWave_told die seq status).foldl_reaches (w := w) (fun t => (t.thread w l).wait = .trapped) (fun t x _ hx h => ?_)
    (fun t ht hsame hw => ?_) _ (fun _ => State.lt_of_waitingWaves) hmem
  · unfold State.tellWave
    split
    · exact h
    · exact (t.trapWaiting_trapsIn hx _ _).keeps w l h
  · unfold State.tellWave
    rw [if_neg (by rw [ht.proxied, hproxied]; exact Bool.false_ne_true), if_neg hst]
    have hl : l < (t.wave w).threads.length := by rw [hsame]; exact Wave.lt_of_wait hne
    refine t.trapWaiting_trapped hw _ hl (List.mem_filter.mpr ⟨List.mem_range.mpr hl, ?_⟩)
    have hwait' : ((s.wave w).thread l).wait = .fault die seq := hwait
    dsimp only
    rw [hsame, hwait']
    exact beq_self_eq_true _

end Sys2Proof.Machine

/-! SUPPORT. What else a refused record stops (R204, R258, R259, R290): the commands, shares and pennants that wait on it. No lane that
waits for a trap's delivery is made to go on by it. -/

namespace Sys2Proof.Machine

/-! ## What leaves the waves as they are -/

/-- The waves of a state are another's. -/
def sameWaves (s t : State) : Prop := t.waves = s.waves

theorem sameWaves.refl (s : State) : sameWaves s s := rfl

theorem sameWaves.trans {s t u : State} (h : sameWaves s t) (k : sameWaves t u) : sameWaves s u := Eq.trans k h

theorem sameWaves.keepsTrapped {s t : State} (h : sameWaves s t) : keepsTrapped s t := .of_waves h

theorem State.countPiece_waves (s : State) (p : Piece) : sameWaves s (s.countPiece p) := by
  unfold State.countPiece
  split <;> rfl

theorem State.count_sameWaves (s : State) (ps : List Piece) : sameWaves s (s.count ps) :=
  foldl_rel sameWaves .refl (fun _ _ _ => .trans) _ State.countPiece_waves _ _

theorem State.askCmd_waves (s : State) (tile : Nat) (c : Cmd) (line : Nat) (p : Packet) : sameWaves s (s.askCmd tile c line p) := by
  unfold State.askCmd State.requestFor
  cases s.freeTag tile <;> rfl

theorem State.moveRow_waves (s : State) (tile : Nat) (c : Cmd) (r : Row) : sameWaves s (s.moveRow tile c r) :=
  State.moveRow_rel .refl (fun _ _ _ => .trans) State.count_sameWaves (fun s ps bs => (s.store_sameButStored ps bs).waves)
    State.askCmd_waves s tile c r

theorem State.credit_waves (s : State) (c : Cmd) (n : Nat) : sameWaves s (s.credit c n) := by
  unfold State.credit
  split
  · rfl
  · unfold State.barrierFor
    split <;> rfl

theorem State.reportDone_waves (s : State) (x : Launch) (c : Completion) : sameWaves s (s.reportDone x c) := by
  unfold State.reportDone
  dsimp only
  split
  · rfl
  · cases c <;> rfl

theorem State.launchDone_waves (s : State) (l : Nat) (c : Completion) : sameWaves s (s.launchDone l c) := by
  unfold State.launchDone
  split
  · rfl
  · dsimp only
    split
    · unfold State.shareReport
      split
      · rfl
      · split
        · rfl
        · dsimp only
          split
          · exact State.reportDone_waves _ _ _
          · rfl
    · rfl

theorem State.abandonShare_waves (s : State) (l : Nat) (k : TrapKind) (dep : Nat) : sameWaves s (s.abandonShare l k dep) := by
  unfold State.abandonShare
  split
  · rfl
  · exact State.launchDone_waves _ _ _

theorem State.refuseDeps_waves (s : State) (r : FaultRec) (k : TrapKind) : sameWaves s (s.refuseDeps r k) := by
  refine foldl_rel sameWaves .refl (fun _ _ _ => .trans) _ (fun s l => ?_) _ _
  split
  · rfl
  · split
    · rfl
    · split
      · exact s.abandonShare_waves _ _ _
      · rfl

theorem State.refusePennant_waves (s : State) (r : FaultRec) (k : TrapKind) : sameWaves s (s.refusePennant r k) := by
  refine foldl_rel sameWaves .refl (fun _ _ _ => .trans) _ (fun s l => ?_) _ _
  split
  · rfl
  · dsimp only
    exact iteInduction (motive := sameWaves s) (fun _ => s.launchDone_waves _ _) fun _ => .refl s

/-! ## What lanes learn of a failed command -/

theorem Wave.map_keepsTrapped (wv : Wave) (f : Thread → Thread) (hf : ∀ t : Thread, t.wait = .trapped → (f t).wait = .trapped) :
    wv.keepsTrapped { wv with threads := wv.threads.map f } := by
  intro l h
  have hl := Wave.lt_of_wait (wv := wv) (by rw [h]; decide)
  simp only [Wave.thread, List.getD_eq_getElem?_getD, List.getElem?_map, List.getElem?_eq_getElem hl] at h ⊢
  exact hf _ h

theorem State.unaccept_keepsTrapped (s : State) (w tile id : Nat) : keepsTrapped s (s.unaccept w tile id) := by
  refine s.modWave_keepsTrapped w _ fun wv => wv.map_keepsTrapped _ fun t h => ?_
  rw [h, if_neg Wait.noConfusion]
  exact h

theorem State.failClaim_keepsTrapped (s : State) (tile : Nat) (c : Cmd) (why : FaultStatus) : keepsTrapped s (s.failClaim tile c why) :=
  (keepsTrapped.of_waves (s := s) (t := s.modCmd tile c.id _) rfl).trans (State.unaccept_keepsTrapped _ _ _ _)

theorem State.mapWaves_keepsTrapped (s : State) (f : Nat → Wave → Wave) (hf : ∀ i (wv : Wave), wv.keepsTrapped (f i wv)) :
    keepsTrapped s { s with waves := s.waves.mapIdx f } := by
  intro x l h
  have hx := State.lt_of_wait (by rw [h]; decide)
  simp only [State.thread, State.wave, List.getD_eq_getElem?_getD, List.getElem?_mapIdx, List.getElem?_eq_getElem hx] at h ⊢
  exact hf x _ l h

theorem State.wakeFor_keepsTrapped (s : State) (w tile id : Nat) : keepsTrapped s (s.wakeFor w tile id) := by
  refine s.mapWaves_keepsTrapped _ fun i wv => wv.map_keepsTrapped _ fun t h => ?_
  rw [h]
  exact h

theorem State.failAt_keepsTrapped (s : State) (g : Grp) (c : Cmd) (lanes : List Nat) (p q : Nat → Bool) :
    keepsTrapped s (s.failAt g c lanes p q) := by
  unfold State.failAt
  split
  · exact .refl s
  · refine keepsTrapped.trans ?_ (.of_waves (State.modTile_waves _ _ _))
    refine s.modWave_keepsTrapped g.w _ fun wv => ?_
    exact Wave.modLanes_keepsTrapped { wv with trapq := _, spoiled := _ } lanes _ fun _ _ _ => rfl

theorem State.deliverFailure_keepsTrapped (s : State) (tile : Nat) (c : Cmd) : keepsTrapped s (s.deliverFailure tile c) := by
  unfold State.deliverFailure
  dsimp only
  split
  · exact .refl s
  · refine keepsTrapped.trans ?_ (State.modWave_keepsTrapped _ _ _ fun wv l h => ?_)
    · refine keepsTrapped.trans ?_ (State.failAt_keepsTrapped _ _ _ _ _ _)
      exact s.modWave_keepsTrapped c.wave _ fun wv => wv.modLanes_keepsTrapped _ _ fun _ _ h => h
    · refine Wave.modLanes_keepsTrapped _ _ _ (fun _ _ h => ?_) l (wv.unhold_keepsTrapped _ l h)
      exact h

theorem State.failCmd_keepsTrapped (s : State) (tile cmd landed : Nat) (why : FaultStatus) :
    keepsTrapped s (s.failCmd tile cmd landed why) := by
  unfold State.failCmd
  split
  · exact .refl s
  · next c _ =>
    split
    · exact .refl s
    · dsimp only
      refine keepsTrapped.trans ?_ (State.wakeFor_keepsTrapped _ _ _ _)
      refine keepsTrapped.trans ?_ (State.deliverFailure_keepsTrapped _ _ _)
      refine keepsTrapped.trans ?_ (State.modWave_keepsTrapped _ _ _ fun wv l h => ?_)
      · refine keepsTrapped.trans ?_ (.of_waves (State.modTile_waves _ _ _))
        refine sameWaves.keepsTrapped (sameWaves.trans ?_ (State.credit_waves _ _ _))
        refine foldl_inv (fun a : State × Nat => sameWaves s a.1) _ (fun a r ha => ?_) _ _ (.refl s)
        split
        · exact ha.trans (State.moveRow_waves _ _ _ _)
        · exact ha
      · exact h

theorem State.failMissing_keepsTrapped (s : State) (why : FaultStatus) (p : FaultRec → Bool) : keepsTrapped s (s.failMissing why p) := by
  refine keepsTrapped_foldl _ (fun s tile => keepsTrapped_foldl _ (fun s c => ?_) _ s) _ _
  split
  · exact s.failCmd_keepsTrapped _ _ _ _
  · exact s.failClaim_keepsTrapped _ _ _

theorem State.failOn_keepsTrapped (s : State) (die : Nat) (r : FaultRec) (why : FaultStatus) : keepsTrapped s (s.failOn die r why) := by
  unfold State.failOn
  refine (s.failMissing_keepsTrapped why r.same).trans ?_
  exact keepsTrapped_foldl (fun s w => s.holdReply w (.faultAnswer die r.seq why (some r.place))) (fun _ _ => .of_waves rfl) _ _

end Sys2Proof.Machine

/-! SUPPORT. The answer to a fault record, step by step (R290): the answer register, the queue, and what its waiters learn. -/

namespace Sys2Proof.Machine

/-! ## Prefetches made again -/

/-- The waves, what the proxy holds and the dies' answers are those of another state. -/
structure sameAnswers (s t : State) : Prop where
  waves : t.waves = s.waves
  proxy : t.proxy = s.proxy
  answers : t.dies.map (·.answer) = s.dies.map (·.answer)

theorem sameAnswers.refl (s : State) : sameAnswers s s := ⟨rfl, rfl, rfl⟩

theorem sameAnswers.trans {s t u : State} (h : sameAnswers s t) (k : sameAnswers t u) : sameAnswers s u :=
  ⟨k.waves.trans h.waves, k.proxy.trans h.proxy, k.answers.trans h.answers⟩

theorem sameAnswers.answer {s t : State} (h : sameAnswers s t) (d : Nat) : (t.die d).answer = (s.die d).answer :=
  getD_map_of_eq (p := fun x : Die => x.answer) h.answers d Die.reset

theorem State.countPiece_answers (s : State) (p : Piece) : sameAnswers s (s.countPiece p) := by
  unfold State.countPiece
  split <;> exact ⟨rfl, rfl, rfl⟩

theorem State.count_answers (s : State) (ps : List Piece) : sameAnswers s (s.count ps) :=
  foldl_rel sameAnswers .refl (fun _ _ _ => .trans) _ State.countPiece_answers _ _

theorem State.modDie_answers (s : State) (d : Nat) (f : Die → Die) (hf : ∀ x, (f x).answer = x.answer) : sameAnswers s (s.modDie d f) :=
  ⟨rfl, rfl, map_modifyAt s.dies d f _ hf⟩

theorem State.post_answers (s : State) (r : FaultRec) : sameAnswers s (s.post r).1 := by
  unfold State.post
  dsimp only
  split
  · exact s.modDie_answers _ _ fun _ => rfl
  · split
    · exact .refl s
    · exact s.modDie_answers _ _ fun _ => rfl

theorem State.prefetch_answers (s : State) (w l a size : Nat) (bypass late : Bool) :
    sameAnswers s (s.prefetch w l a size bypass late) := by
  unfold State.prefetch
  split
  · split
    · exact .refl s
    · exact s.count_answers _
  · next r _ =>
    split
    · have hpost := s.post_answers r
      split
      · next he => rw [he] at hpost; exact ⟨hpost.waves, hpost.proxy, hpost.answers⟩
      · next he => rw [he] at hpost; exact hpost
    · exact .refl s
  · exact .refl s

theorem State.repeatPrefetches_answers (s : State) (l : List Prefetch) : sameAnswers s (s.repeatPrefetches l) := by
  refine foldl_rel sameAnswers .refl (fun _ _ _ => .trans) _ (fun s p => ?_) _ _
  split
  · exact s.prefetch_answers _ _ _ _ _ _
  · exact .refl s

/-! ## The answer leaves the register and the record the queue -/

/-- The prefetches that wait on a record. -/
def State.fetchesOn (s : State) (die : Nat) (seq : W32) : List Prefetch := s.prefetches.filter fun p => p.die == die && p.seq == seq

/-- The answer has left the die's register, and the prefetches that wait on the record are taken up. -/
def State.answered (s : State) (die : Nat) (seq : W32) (status : FaultStatus) : State :=
  { s with
    dies := modifyAt s.dies die fun d => { d with answer := BitVec.ofNat 64 (statusCode status * 2 ^ 32 + seq.toNat) }
    prefetches := s.prefetches.filter fun p => !(s.fetchesOn die seq).contains p
    pkg := { s.pkg with asked := s.pkg.asked.filter fun a => !(a.2.1 == die && a.2.2 == seq) } }

/-- The state in which the waiters of an answered record are told. -/
def State.dropped (s : State) (die : Nat) (seq : W32) (status : FaultStatus) : State := (s.answered die seq status).dropRec die seq

/-- What an answer other than RESOLVED leads to. -/
def State.refused (s : State) (die : Nat) (seq : W32) (r : FaultRec) (status : FaultStatus) : State :=
  (((s.tellWaiters die seq status).failOn die r status).refuseDeps r (statusTrap status)).refusePennant r (statusTrap status)

theorem exec_faultAnswer_frame {s : State} {die : Nat} {seq : W32} {r : FaultRec} (fix : Option W64)
    (hr : (s.die die).faultq.find? (fun x => x.seq == seq) = some r) (hkind : r.kind = .frame) :
    exec (.faultAnswer die seq .resolved fix) s =
      .next (((s.dropped die seq .resolved).tellWaiters die seq .resolved).repeatPrefetches (s.fetchesOn die seq)) := by
  have hdue : s.grantDue r = none := if_neg fun h => by simp [hkind] at h
  have hresolve (x : State) : x.resolve r fix = some x := by simp only [State.resolve, hkind]
  show execFaultAnswer die seq .resolved fix s = _
  unfold execFaultAnswer
  rw [hr]
  dsimp only
  rw [if_pos rfl, if_pos rfl, hdue, if_neg (by rw [hkind]; decide), hresolve]
  rfl

theorem exec_faultAnswer_refused {s : State} {die : Nat} {seq : W32} {r : FaultRec} (fix : Option W64) {status : FaultStatus}
    (hr : (s.die die).faultq.find? (fun x => x.seq == seq) = some r) (hkind : r.kind = .map) (hst : status ≠ .resolved) :
    exec (.faultAnswer die seq status fix) s = .next ((s.dropped die seq status).refused die seq r status) := by
  show execFaultAnswer die seq status fix s = _
  unfold execFaultAnswer
  rw [hr]
  dsimp only
  rw [if_neg hst, if_neg hst, if_neg (by rw [hkind]; decide)]
  rfl

theorem State.dropped_thread (s : State) (die : Nat) (seq : W32) (status : FaultStatus) {w l : Nat}
    (hwait : (s.thread w l).wait = .fault die seq) : (s.dropped die seq status).thread w l = s.thread w l :=
  State.thread_resumeAll_not ((s.answered die seq status).modDie die _) _ w l (beq_false_of_ne (by
    show (s.thread w l).wait ≠ _
    rw [hwait]
    exact Wait.noConfusion))

theorem State.dropped_proxied (s : State) (die : Nat) (seq : W32) (status : FaultStatus) (w : Nat) :
    (s.dropped die seq status).proxied w = s.proxied w := by
  have hwave : (s.dropped die seq status).wave w = (s.wave w).resumeLanes fun t => t.wait == .walker die :=
    State.wave_resumeAll ((s.answered die seq status).modDie die _) _ w
  refine State.proxied_congr rfl rfl ?_
  rw [hwave]
  exact Wave.resumeLanes_fields _ _

theorem State.dropped_die (s : State) {die : Nat} (seq : W32) (status : FaultStatus) (h : die < s.dies.length) :
    ((s.dropped die seq status).die die).answer = BitVec.ofNat 64 (statusCode status * 2 ^ 32 + seq.toNat) ∧
      ∀ x ∈ ((s.dropped die seq status).die die).faultq, x.seq ≠ seq := by
  have hdie : (s.dropped die seq status).die die =
      { (s.answered die seq status).die die with
        faultq := ((s.answered die seq status).die die).faultq.filter fun x => x.seq != seq } :=
    State.die_modDie (s.answered die seq status) die _ (by rw [State.answered, length_modifyAt]; exact h)
  rw [hdie]
  refine ⟨?_, fun x hx => by simpa using (List.mem_filter.mp hx).2⟩
  have hans : (s.answered die seq status).die die =
      { s.die die with answer := BitVec.ofNat 64 (statusCode status * 2 ^ 32 + seq.toNat) } := State.die_modDie s die _ h
  exact congrArg Die.answer hans

/-- A record whose frame has come is answered: the register, the queue and the waiters. -/
theorem faultAnswer_frame {s : State} {die : Nat} {seq : W32} {r : FaultRec} (fix : Option W64)
    (hr : (s.die die).faultq.find? (fun x => x.seq == seq) = some r) (hkind : r.kind = .frame) (hdie : die < s.dies.length) :
    ∃ t, exec (.faultAnswer die seq .resolved fix) s = .next t ∧ (t.die die).answer = BitVec.ofNat 64 seq.toNat ∧
      ((∀ p ∈ s.prefetches, p.die = die → p.seq ≠ seq) → ∀ x ∈ (t.die die).faultq, x.seq ≠ seq) ∧
      ∀ w l, (s.thread w l).wait = .fault die seq →
        if s.proxied w then (⟨w, .faultAnswer die seq .resolved none⟩ : Proxied) ∈ t.proxy else goesOn t w l := by
  refine ⟨_, exec_faultAnswer_frame fix hr hkind, ?_, fun hnone => ?_, fun w l hwait => ?_⟩
  · rw [(State.repeatPrefetches_answers _ _).answer, State.die, (State.tellWaiters_told _ _ _ _).rest]
    exact (s.dropped_die seq .resolved hdie).1.trans (by simp [statusCode])
  · have hfetches : s.fetchesOn die seq = [] := by
      refine List.filter_eq_nil_iff.mpr fun p hp => ?_
      simpa using hnone p hp
    rw [hfetches]
    show ∀ x ∈ (((s.dropped die seq .resolved).tellWaiters die seq .resolved).die die).faultq, x.seq ≠ seq
    rw [State.die, (State.tellWaiters_told _ _ _ _).rest]
    exact (s.dropped_die seq .resolved hdie).2
  · have hsame := State.repeatPrefetches_answers ((s.dropped die seq .resolved).tellWaiters die seq .resolved) (s.fetchesOn die seq)
    have htold := (s.dropped die seq .resolved).tellWaiters_resolved die seq (w := w) (l := l)
      (by rw [s.dropped_thread die seq .resolved hwait]; exact hwait)
    rw [s.dropped_proxied] at htold
    rw [hsame.proxy]
    unfold goesOn
    rw [State.thread_eq_of_wave (s := (s.dropped die seq .resolved).tellWaiters die seq .resolved) (by simp only [State.wave, hsame.waves])]
    exact htold

theorem State.refused_keepsTrapped (s : State) (die : Nat) (seq : W32) (r : FaultRec) (status : FaultStatus) :
    keepsTrapped (s.tellWaiters die seq status) (s.refused die seq r status) :=
  (State.failOn_keepsTrapped _ die r status).trans
    (((State.refuseDeps_waves _ r _).trans (State.refusePennant_waves _ r _)).keepsTrapped)

/-- A record that is refused: its waiters are trapped. -/
theorem faultAnswer_refused {s : State} {die : Nat} {seq : W32} {r : FaultRec} (fix : Option W64) {status : FaultStatus}
    (hr : (s.die die).faultq.find? (fun x => x.seq == seq) = some r) (hkind : r.kind = .map) (hst : status ≠ .resolved) :
    ∃ t, exec (.faultAnswer die seq status fix) s = .next t ∧
      ∀ w l, (s.thread w l).wait = .fault die seq → s.proxied w = false → (t.thread w l).wait = .trapped := by
  refine ⟨_, exec_faultAnswer_refused fix hr hkind hst, fun w l hwait hproxied => ?_⟩
  refine State.refused_keepsTrapped _ die seq r status w l ?_
  refine State.tellWaiters_refused _ die seq hst ?_ (by rw [s.dropped_proxied]; exact hproxied)
  rw [s.dropped_thread die seq status hwait]
  exact hwait

end Sys2Proof.Machine

/-! SUPPORT. The growth of a thread's own space (R317), and entries written under an invalidation (R284, R291, R353). -/

namespace Sys2Proof.Machine

/-! ## A thread's own space grows, or its wave stops -/

theorem Wave.psize_resumeLanes (wv : Wave) (p : Thread → Bool) (l : Nat) : ((wv.resumeLanes p).thread l).psize = (wv.thread l).psize := by
  simp only [Wave.resumeLanes, Wave.thread, List.getD_eq_getElem?_getD, List.getElem?_mapIdx]
  cases wv.threads[l]? with
  | none => rfl
  | some t => exact iteInduction (motive := fun x : Thread => x.psize = t.psize) (fun _ => rfl) fun _ => rfl

theorem State.dropRec_thread (s : State) (die : Nat) (seq : W32) {w l : Nat} (hwait : (s.thread w l).wait = .fault die seq) :
    (s.dropRec die seq).thread w l = s.thread w l :=
  State.thread_resumeAll_not (s.modDie die _) _ w l (beq_false_of_ne (by
    show (s.thread w l).wait ≠ _
    rw [hwait]
    exact Wait.noConfusion))

/-- The spaces of a lane and of its wave's lowest thread have grown. -/
def State.grown (s : State) (w l low n : Nat) : State :=
  (s.modThread w l fun t => { t with psize := grownSize t.psize n }).modThread w low fun t =>
    if low = l then t else { t with psize := grownSize t.psize 0 }

theorem State.grown_thread (s : State) {w l : Nat} (low n : Nat) (hw : w < s.waves.length) (hl : l < (s.wave w).threads.length) :
    (s.grown w l low n).thread w l = { s.thread w l with psize := grownSize (s.thread w l).psize n } := by
  have hfirst := s.thread_modThread w l (fun t => { t with psize := grownSize t.psize n }) hw hl
  have hw' : w < (s.modThread w l fun t => { t with psize := grownSize t.psize n }).waves.length := by
    rw [State.modThread, State.modWave_waves, length_modifyAt]
    exact hw
  unfold State.grown
  by_cases hlow : low = l
  · subst hlow
    have hl' : low < ((s.modThread w low fun t => { t with psize := grownSize t.psize n }).wave w).threads.length := by
      rw [State.modThread, State.wave_modWave _ _ _ hw, Wave.length_modThread]
      exact hl
    rw [State.thread_modThread _ _ _ _ hw' hl', if_pos rfl, hfirst]
  · rw [State.thread_modThread_ne _ _ _ _ _ hw' (Ne.symm hlow), hfirst]

/-- The wave of a live lane that waits for its record, or for its backing store, goes on. -/
theorem State.restartWave_goesOn (s : State) {w l die : Nat} {seq : W32} (hwait : (s.thread w l).wait = .fault die seq)
    (hlive : (s.thread w l).status = .live) :
    goesOn (s.restartWave w l) w l ∧ ((s.restartWave w l).thread w l).psize = (s.thread w l).psize := by
  have hne : (s.thread w l).wait ≠ .none := by rw [hwait]; exact Wait.noConfusion
  have hw := State.lt_of_wait hne
  have hl : l < ((s.wave w).unhold [l]).threads.length := by
    simpa [Wave.unhold] using Wave.lt_of_wait (wv := s.wave w) hne
  have hlane : ((s.wave w).unhold [l]).thread l = { s.thread w l with hold := (((s.wave w).unhold [l]).thread l).hold } :=
    (s.wave w).thread_unhold [l] l
  unfold goesOn State.restartWave State.thread
  rw [State.modWave_modWave, State.wave_modWave _ _ _ hw]
  refine ⟨Wave.wait_resumeLanes _ _ _ hl ?_, ?_⟩
  · have hwait' : (((s.wave w).unhold [l]).thread l).wait = .fault die seq := (congrArg Thread.wait hlane).trans hwait
    have hlive' : (((s.wave w).unhold [l]).thread l).status = .live := (congrArg Thread.status hlane).trans hlive
    rw [hwait', hlive']
    simp
  · rw [Wave.psize_resumeLanes, hlane]
    rfl

theorem State.stopWave_waits (s : State) {w l : Nat} (hne : (s.thread w l).wait ≠ .none) :
    ((s.stopWave w l).thread w l).wait = .backing := by
  have hl := Wave.lt_of_wait (wv := s.wave w) hne
  unfold State.stopWave State.thread
  rw [State.wave_modWave _ _ _ (State.lt_of_wait hne)]
  simp [Wave.thread, hl]

/-- PSIZE as a record asks for it: 64 KiB more, or the page of its address (log 79). -/
def askedSize (t : Thread) (r : FaultRec) : Nat := grownSize t.psize ((r.va.toNat % 2 ^ 60 / 65536 + 1) * 65536)

/-- Whether a lane's own space has room to grow, and that of its wave's lowest thread with it (log 9, log 38). -/
def State.roomToGrow (s : State) (w l size : Nat) : Prop :=
  size ≤ privStride ∧ ((s.wave w).lowest = l ∨ grownSize (s.thread w (s.wave w).lowest).psize 0 ≤ privStride)

theorem exec_privateGrowth_grows {s : State} {w l die : Nat} {seq : W32} {r : FaultRec} (hwait : (s.thread w l).wait = .fault die seq)
    (hr : (s.die die).faultq.find? (fun x => x.seq == seq && x.kind == .priv) = some r)
    (hroom : s.roomToGrow w l (askedSize (s.thread w l) r)) :
    exec (.privateGrowth w l true) s =
      .next (((s.dropRec die seq).grown w l (s.wave w).lowest ((r.va.toNat % 2 ^ 60 / 65536 + 1) * 65536)).restartWave w l) := by
  obtain ⟨hsize, hlow⟩ := hroom
  show execPrivateGrowth w l true s = _
  unfold execPrivateGrowth State.growth
  simp only [hwait, hr]
  rw [if_pos]
  · rfl
  · simpa [askedSize] using And.intro hsize hlow

theorem exec_privateGrowth_stops {s : State} {w l die : Nat} {seq : W32} {r : FaultRec} {granted : Bool}
    (hwait : (s.thread w l).wait = .fault die seq)
    (hr : (s.die die).faultq.find? (fun x => x.seq == seq && x.kind == .priv) = some r)
    (hfull : granted = true → privStride < askedSize (s.thread w l) r) :
    exec (.privateGrowth w l granted) s = .next ((s.dropRec die seq).stopWave w l) := by
  show execPrivateGrowth w l granted s = _
  unfold execPrivateGrowth State.growth
  simp only [hwait, hr]
  rw [if_neg]
  intro hroom
  simp only [Bool.and_eq_true, decide_eq_true_eq] at hroom
  obtain ⟨⟨hgranted, hle⟩, -⟩ := hroom
  exact Nat.not_le_of_lt (hfull hgranted) hle

/-- The answer to a PRIVATE record that is granted, and has room. -/
theorem privateGrowth_grows {s : State} {w l die : Nat} {seq : W32} {r : FaultRec} (hwait : (s.thread w l).wait = .fault die seq)
    (hlive : (s.thread w l).status = .live) (hr : (s.die die).faultq.find? (fun x => x.seq == seq && x.kind == .priv) = some r)
    (hroom : s.roomToGrow w l (askedSize (s.thread w l) r)) :
    ∃ t, exec (.privateGrowth w l true) s = .next t ∧ goesOn t w l ∧ (t.thread w l).psize = askedSize (s.thread w l) r := by
  have hthread := s.dropRec_thread die seq hwait
  have hne : ((s.dropRec die seq).thread w l).wait ≠ .none := by rw [hthread, hwait]; exact Wait.noConfusion
  have hgrown := (s.dropRec die seq).grown_thread (s.wave w).lowest ((r.va.toNat % 2 ^ 60 / 65536 + 1) * 65536)
    (State.lt_of_wait hne) (Wave.lt_of_wait hne)
  rw [hthread] at hgrown
  obtain ⟨hgoes, hsize⟩ := State.restartWave_goesOn _ (die := die) (seq := seq) (by rw [hgrown]; exact hwait) (by rw [hgrown]; exact hlive)
  refine ⟨_, exec_privateGrowth_grows hwait hr hroom, hgoes, ?_⟩
  rw [hsize, hgrown]
  rfl

/-- The answer to a PRIVATE record that is not granted, or has no room. -/
theorem privateGrowth_stops {s : State} {w l die : Nat} {seq : W32} {r : FaultRec} {granted : Bool}
    (hwait : (s.thread w l).wait = .fault die seq)
    (hr : (s.die die).faultq.find? (fun x => x.seq == seq && x.kind == .priv) = some r)
    (hfull : granted = true → privStride < askedSize (s.thread w l) r) :
    ∃ t, exec (.privateGrowth w l granted) s = .next t ∧ (t.thread w l).wait = .backing := by
  refine ⟨_, exec_privateGrowth_stops hwait hr hfull, State.stopWave_waits _ ?_⟩
  rw [s.dropRec_thread die seq hwait, hwait]
  exact Wait.noConfusion

/-! ## Entries written under an invalidation -/

theorem exec_invalidate_leaf {s : State} {ctx : Nat} {c : Ctx} {va leaf : W64} {a : Nat} {level : Level} (hidle : s.inFlight ctx = false)
    (hc : s.ctx? ctx = some c)
    (hplace : ((c.tableOf va.toNat).bind fun root => s.entryPlace (va.toNat % 2 ^ 60) walkLevels root) = some (a, level))
    (hmay : s.entryMay c level leaf = true) :
    exec (.translationInvalidate ctx (some va) ⟨some leaf, none⟩) s = .next (s.poke a (toBytes leaf.toNat 8)) := by
  have hmap : s.mapPage ctx va leaf = s.poke a (toBytes leaf.toNat 8) := by
    simp only [State.mapPage, hc, hplace]
    rw [if_pos hmay]
  show execTranslationInvalidate ctx (some va) ⟨some leaf, none⟩ s = _
  unfold execTranslationInvalidate
  rw [if_neg (by rw [hidle]; exact Bool.false_ne_true)]
  exact congrArg Host.Outcome.next hmap

theorem exec_invalidate_frame {s : State} {ctx : Nat} {c : Ctx} {page : Nat} {w : W128} (hidle : s.inFlight ctx = false)
    (hc : s.ctx? ctx = some c) (hhi : w.extractLsb' 124 4 = 0) (hlo : w.extractLsb' 56 3 = 0) (hkind : w.extractLsb' 122 2 ≠ 3) :
    exec (.translationInvalidate ctx none ⟨none, some (page, w)⟩) s = .next (if s.granted c.world (page * 65536) 65536 = true then
        s.setFrame page { frameWord w with
          state := (s.frameOf page).state, frame := (s.frameOf page).frame, smask := (s.frameOf page).smask }
      else s) := by
  show execTranslationInvalidate ctx none ⟨none, some (page, w)⟩ s = _
  unfold execTranslationInvalidate
  rw [if_neg (by rw [hidle]; exact Bool.false_ne_true)]
  simp only [State.writeFrame, hc, hhi, hlo, hkind, Option.any_some, ne_eq, not_true_eq_false, false_or]
  by_cases hgrant : s.granted c.world (page * 65536) 65536 = true
  · rw [if_neg (by simp [hgrant]), if_pos hgrant]
  · rw [if_pos (by simpa using hgrant), if_neg hgrant]

theorem exec_invalidate_waits {s : State} {ctx : Nat} (page : Option W64) (entries : Entries) (hflight : s.inFlight ctx = true) :
    exec (.translationInvalidate ctx page entries) s =
      .next { s with pkg := { s.pkg with waiting := s.pkg.waiting ++ [.translationInvalidate ctx page entries] } } := by
  show execTranslationInvalidate ctx page entries s = _
  unfold execTranslationInvalidate
  rw [if_pos hflight]

end Sys2Proof.Machine

/-! SUPPORT. The end of a binding (R27, R295): what the requester's record, the map and the measurement leave as they are. -/

namespace Sys2Proof.Machine

/-! ## Lanes that wait for a binding, and the contexts -/

/-- The contexts are another state's, and the lanes that waited for the binding of an object still do. -/
structure keepsBinding (ctx : Nat) (obj : W64) (s t : State) : Prop where
  ctxs : t.ctxs = s.ctxs
  lanes : ∀ w l, (s.thread w l).wait = .binding ctx obj → (t.thread w l).wait = .binding ctx obj

theorem keepsBinding.refl (ctx : Nat) (obj : W64) (s : State) : keepsBinding ctx obj s s := ⟨rfl, fun _ _ h => h⟩

theorem keepsBinding.trans {ctx : Nat} {obj : W64} {s t u : State} (h : keepsBinding ctx obj s t) (k : keepsBinding ctx obj t u) :
    keepsBinding ctx obj s u := ⟨k.ctxs.trans h.ctxs, fun w l hl => k.lanes w l (h.lanes w l hl)⟩

theorem keepsBinding.of_waves {ctx : Nat} {obj : W64} {s t : State} (hctxs : t.ctxs = s.ctxs) (hwaves : t.waves = s.waves) :
    keepsBinding ctx obj s t := by
  refine ⟨hctxs, fun w l h => ?_⟩
  rwa [State.thread_eq_of_wave (s := s) (by simp only [State.wave, hwaves])]

theorem sameButStored.keepsBinding {s t : State} (h : sameButStored s t) (ctx : Nat) (obj : W64) : keepsBinding ctx obj s t :=
  .of_waves (by rw [h]) h.waves

theorem State.modWave_keepsBinding (s : State) (w : Nat) (f : Wave → Wave) {ctx : Nat} {obj : W64}
    (hf : ∀ (wv : Wave) l, (wv.thread l).wait = .binding ctx obj → ((f wv).thread l).wait = .binding ctx obj) :
    keepsBinding ctx obj s (s.modWave w f) := by
  refine ⟨rfl, fun x l h => ?_⟩
  by_cases hxw : x = w
  · subst hxw
    unfold State.thread
    rw [State.wave_modWave _ _ _ (State.lt_of_wait (by rw [h]; exact Wait.noConfusion))]
    exact hf _ l h
  · rwa [State.thread_eq_of_wave (State.wave_modWave_ne s _ _ _ hxw)]

theorem Wave.modThread_keepsBinding (wv : Wave) (l : Nat) (f : Thread → Thread) {ctx : Nat} {obj : W64}
    (hf : ∀ t : Thread, t.wait = .binding ctx obj → (f t).wait = .binding ctx obj) (m : Nat)
    (h : (wv.thread m).wait = .binding ctx obj) : ((wv.modThread l f).thread m).wait = .binding ctx obj := by
  by_cases hml : m = l
  · subst hml
    rw [Wave.thread_modThread _ _ _ (Wave.lt_of_wait (by rw [h]; exact Wait.noConfusion))]
    exact hf _ h
  · rwa [Wave.thread_modThread_ne _ _ _ _ hml]

/-- A token that is spent leaves the lane's wait as it is. -/
theorem State.consume_keepsBinding (s : State) (w l : Nat) (p : RecPlace) (ctx : Nat) (obj : W64) :
    keepsBinding ctx obj s (s.consume w l p) := by
  unfold State.consume
  refine ((s.privWrite_sameButStored w l _ _).keepsBinding ctx obj).trans (State.modWave_keepsBinding _ w _ fun wv m h => ?_)
  exact wv.modThread_keepsBinding l (fun t => t.setPlace _) (fun _ ht => ht) m h

/-- The requester's delivery is answered where its record passes its check. -/
theorem State.endBind_keepsBinding (s : State) (w l ctx : Nat) (obj : W64)
    (hrecords : ∀ d ∈ s.deliveries, d.name = nameBind → s.badRecord d = none) : keepsBinding ctx obj s (s.endBind w l ctx obj) := by
  unfold State.endBind
  split
  · exact .refl ctx obj s
  · next d hd =>
    have hname : d.name = nameBind := by
      have htest := List.find?_some hd
      simp only [Bool.and_eq_true, beq_iff_eq] at htest
      exact htest.2
    rw [hrecords d (List.mem_of_find?_eq_some hd) hname]
    refine keepsBinding.trans ?_ (State.modWave_keepsBinding _ w _ fun wv => wv.modThread_keepsBinding l _ fun _ _ => rfl)
    have herase : keepsBinding ctx obj s { s with deliveries := s.deliveries.erase d } := .of_waves rfl rfl
    split
    · exact herase.trans (State.consume_keepsBinding _ w l _ ctx obj)
    · exact herase

/-! ## The record's state, and the entries that map it -/

theorem Ctx.recOf_obj {c : Ctx} {obj : W64} {r : ObjRec} (h : c.recOf obj = some r) : r.obj = obj := by
  simpa using List.find?_some h

theorem State.recOf_setRec (s : State) (ctx : Nat) (obj : W64) (f : ObjRec → ObjRec) (hf : ∀ r, (f r).obj = r.obj) {r : ObjRec}
    (h : s.recOf ctx obj = some r) : (s.setRec ctx obj f).recOf ctx obj = some (f r) := by
  obtain ⟨c, hc, hr⟩ := Option.bind_eq_some_iff.mp h
  have hctx := s.ctx?_modCtx ctx (fun c => { c with recs := c.recs.map fun r => if r.obj = obj then f r else r })
    (fun _ => ⟨rfl, rfl⟩) hc
  have htest : (fun x : ObjRec => x.obj == obj) ∘ (fun x => if x.obj = obj then f x else x) = fun x : ObjRec => x.obj == obj := by
    funext x
    by_cases hx : x.obj = obj
    · simp only [Function.comp_apply, if_pos hx, hf x]
    · simp only [Function.comp_apply, if_neg hx]
  unfold State.recOf State.setRec
  rw [hctx, Option.bind_some]
  unfold Ctx.recOf at hr ⊢
  rw [List.find?_map, htest, hr, Option.map_some, if_pos (Ctx.recOf_obj hr)]

/-- The waves and the contexts of a state are another's. -/
structure sameContexts (s t : State) : Prop where
  ctxs : t.ctxs = s.ctxs
  waves : t.waves = s.waves

theorem sameContexts.refl (s : State) : sameContexts s s := ⟨rfl, rfl⟩

theorem sameContexts.trans {s t u : State} (h : sameContexts s t) (k : sameContexts t u) : sameContexts s u :=
  ⟨k.ctxs.trans h.ctxs, k.waves.trans h.waves⟩

theorem sameButStored.sameContexts {s t : State} (h : sameButStored s t) : sameContexts s t := ⟨by rw [h], h.waves⟩

theorem sameContexts.recOf {s t : State} (h : sameContexts s t) (ctx : Nat) (obj : W64) : t.recOf ctx obj = s.recOf ctx obj := by
  simp only [State.recOf, State.ctx?, h.ctxs]

theorem State.poke_contexts (s : State) (pa : Nat) (bs : List Byte) : sameContexts s (s.poke pa bs) := by
  unfold State.poke
  split
  · exact (s.store_sameButStored _ _).sameContexts
  · exact ⟨rfl, rfl⟩

theorem State.blank_contexts (s : State) (pa n : Nat) : sameContexts s (s.blank pa n) := by
  refine foldl_rel sameContexts .refl (fun _ _ _ => .trans) _ (fun s p => ?_) _ s
  unfold State.blankPart
  split <;> exact ⟨rfl, rfl⟩

theorem State.mapDeep_contexts (s : State) (va leaf : Nat) (ls : List Level) (table next : Nat) :
    sameContexts s (s.mapDeep va leaf ls table next).1 := by
  induction ls generalizing s table next with
  | nil => exact .refl s
  | cons l ls ih =>
    unfold State.mapDeep
    dsimp only
    split
    · exact s.poke_contexts _ _
    · split
      · split
        · exact .refl s
        · exact ih s _ _
      · exact ((s.blank_contexts _ _).trans (State.poke_contexts _ _ _)).trans (ih _ _ _)

theorem State.recOf_nextTable (s : State) (ctx : Nat) (obj : W64) (next : Nat) {c : Ctx} (hc : s.ctx? ctx = some c) :
    (s.modCtx ctx fun c => { c with nextTable := next }).recOf ctx obj = s.recOf ctx obj := by
  unfold State.recOf
  rw [s.ctx?_modCtx ctx (fun c => { c with nextTable := next }) (fun _ => ⟨rfl, rfl⟩) hc, hc]
  rfl

/-- The entries that map a record change no wave and no record. -/
theorem State.mapRec_keeps (s : State) (ctx : Nat) (obj : W64) :
    (s.mapRec ctx obj).waves = s.waves ∧ (s.mapRec ctx obj).recOf ctx obj = s.recOf ctx obj := by
  unfold State.mapRec
  split
  · exact ⟨rfl, rfl⟩
  · next c hc =>
    split
    · exact ⟨rfl, rfl⟩
    · next r hr =>
      dsimp only
      split
      · exact ⟨rfl, rfl⟩
      · have hmapped : sameContexts s ((List.range (spanOf r.extent / 65536)).foldl (fun (x : State × Nat) i =>
            x.1.mapDeep (r.base.toNat % 2 ^ 60 + 65536 * i) (r.leafBits + r.run + 65536 * i) walkLevels
              (c.roots.getD (r.base.toNat / 2 ^ 60) 0) x.2) (s, c.nextTable)).1 :=
          foldl_inv (fun x : State × Nat => sameContexts s x.1) _ (fun x i hx => hx.trans (x.1.mapDeep_contexts _ _ _ _ _)) _ _ (.refl s)
        refine ⟨hmapped.waves, ?_⟩
        rw [State.ctx?, ← hmapped.ctxs] at hc
        exact (State.recOf_nextTable _ ctx obj _ hc).trans (hmapped.recOf ctx obj)

/-! ## What the waiters learn -/

theorem State.measure_contexts (s : State) (ctx : Nat) (r : ObjRec) : sameContexts s (s.measure ctx r) := by
  unfold State.measure
  split <;> exact ⟨rfl, rfl⟩

theorem State.tellBound_contexts (s : State) (ctx : Nat) (obj : W64) : sameContexts s (s.tellBound ctx obj) := by
  unfold State.tellBound State.tellPeers
  refine foldl_rel sameContexts .refl (fun _ _ _ => .trans) _ (fun s n => ?_) _ s
  exact ⟨rfl, rfl⟩

/-- The lanes of a wave that pass a test are trapped. -/
def State.trapWave (k : TrapKind) (p : Thread → Bool) (s : State) (w : Nat) : State := s.trapWaiting w k ((s.wave w).lanesWith p)

theorem State.trapWave_told (k : TrapKind) (p : Thread → Bool) : tellsOne (State.trapWave k p) := by
  intro s w hw
  have h := s.trapWaiting_trapsIn hw k ((s.wave w).lanesWith p)
  exact ⟨h.toldFrom, h.other⟩

theorem State.trapAll_eq (s : State) (k : TrapKind) (p : Thread → Bool) :
    s.trapAll k p = (List.range s.waves.length).foldl (State.trapWave k p) s := rfl

theorem State.trapAll_told (s : State) (k : TrapKind) (p : Thread → Bool) : toldFrom s (s.trapAll k p) :=
  (State.trapWave_told k p).foldl _ s fun _ => List.mem_range.mp

theorem State.trapAll_trapped (s : State) (k : TrapKind) (p : Thread → Bool) {w l : Nat} (hwait : (s.thread w l).wait ≠ .none)
    (hp : p (s.thread w l) = true) : ((s.trapAll k p).thread w l).wait = .trapped := by
  have hw := State.lt_of_wait hwait
  have hl : l < (s.wave w).threads.length := Wave.lt_of_wait hwait
  rw [State.trapAll_eq]
  refine (State.trapWave_told k p).foldl_reaches (w := w) (fun t => (t.thread w l).wait = .trapped) (fun t x _ hx h => ?_)
    (fun t _ hsame hw => ?_) _ (fun _ => List.mem_range.mp) (List.mem_range.mpr hw)
  · exact (t.trapWaiting_trapsIn hx k _).keeps w l h
  · rw [← hsame] at hl
    refine t.trapWaiting_trapped hw k hl (List.mem_filter.mpr ⟨List.mem_range.mpr hl, ?_⟩)
    rw [hsame]
    exact hp

end Sys2Proof.Machine

/-! SUPPORT. CODE_BIND (R27, R295), and the obligation about answers, growth, entries and bindings. -/

namespace Sys2Proof.Machine

/-- Whether a lane waits for the binding of an object. -/
def Thread.awaits (ctx : Nat) (obj : W64) (t : Thread) : Bool := t.wait == .binding ctx obj

/-- The requester's delivery of BIND is answered. -/
def State.bindAnswered (s : State) (ctx : Nat) (obj : W64) (r : ObjRec) : State :=
  match r.requester with
  | some (w, l) => s.endBind w l ctx obj
  | none => s

/-- The record at the end of its binding. -/
def ObjRec.bindDone (ok : Bool) (r : ObjRec) : ObjRec := { r with state := if ok then .bound else .unbound, requester := none }

/-- The state in which the waiters of a binding learn how it ended. -/
def State.bindEnded (s : State) (ctx : Nat) (obj : W64) (r : ObjRec) (ok : Bool) : State :=
  ((s.bindAnswered ctx obj r).setRec ctx obj (ObjRec.bindDone ok)).mapRec ctx obj

theorem exec_codeBind {s : State} {ctx : Nat} {obj : W64} {r : ObjRec} {ok : Bool} (hr : s.recOf ctx obj = some r)
    (hstate : r.state = .binding) (hpages : ok = true → ∀ p ∈ r.pages, (s.frameOf p).state = .present) :
    exec (.codeBind ctx obj ok) s = .next (if ok then
        (((s.bindEnded ctx obj r true).resumeAll (Thread.awaits ctx obj)).measure ctx r).tellBound ctx obj
      else (s.bindEnded ctx obj r false).trapAll .bindfail (Thread.awaits ctx obj)) := by
  have habsent : ¬ (ok && !(r.pages.all fun p => (s.frameOf p).state == .present)) = true := by
    cases ok with
    | false => simp
    | true => simpa using hpages rfl
  have hr' : ((s.ctx? ctx).bind fun c => c.recOf obj) = some r := hr
  show execCodeBind ctx obj ok s = _
  unfold execCodeBind
  rw [hr']
  dsimp only
  rw [if_neg (by simp [hstate]), if_neg habsent]
  cases ok <;> rfl

theorem State.bindAnswered_keeps (s : State) (ctx : Nat) (obj : W64) (r : ObjRec)
    (hrecords : ∀ d ∈ s.deliveries, d.name = nameBind → s.badRecord d = none) : keepsBinding ctx obj s (s.bindAnswered ctx obj r) := by
  unfold State.bindAnswered
  split
  · exact s.endBind_keepsBinding _ _ ctx obj hrecords
  · exact .refl ctx obj s

/-- The record is as its binding leaves it, and its waiters still wait. -/
theorem State.bindEnded_keeps {s : State} {ctx : Nat} {obj : W64} {r : ObjRec} (ok : Bool) (hr : s.recOf ctx obj = some r)
    (hrecords : ∀ d ∈ s.deliveries, d.name = nameBind → s.badRecord d = none) :
    (s.bindEnded ctx obj r ok).recOf ctx obj = some (r.bindDone ok) ∧
      ∀ w l, (s.thread w l).wait = .binding ctx obj → ((s.bindEnded ctx obj r ok).thread w l).wait = .binding ctx obj := by
  have hanswered := s.bindAnswered_keeps ctx obj r hrecords
  obtain ⟨hwaves, hrec⟩ := ((s.bindAnswered ctx obj r).setRec ctx obj (ObjRec.bindDone ok)).mapRec_keeps ctx obj
  have hr1 : (s.bindAnswered ctx obj r).recOf ctx obj = some r := by
    simpa only [State.recOf, State.ctx?, hanswered.ctxs] using hr
  refine ⟨hrec.trans (State.recOf_setRec _ ctx obj (ObjRec.bindDone ok) (fun _ => rfl) hr1), fun w l h => ?_⟩
  have hthread : (s.bindEnded ctx obj r ok).thread w l = (s.bindAnswered ctx obj r).thread w l :=
    State.thread_eq_of_wave (by simp only [State.wave, State.bindEnded, hwaves]; rfl) l
  rw [hthread]
  exact hanswered.lanes w l h

theorem Thread.awaits_of_wait {ctx : Nat} {obj : W64} {t : Thread} (h : t.wait = .binding ctx obj) : t.awaits ctx obj = true := by
  unfold Thread.awaits
  rw [h]
  exact beq_self_eq_true _

/-- A binding that succeeds: the record is BOUND, and the lanes that waited go on. -/
theorem codeBind_bound {s : State} {ctx : Nat} {obj : W64} {r : ObjRec} (hr : s.recOf ctx obj = some r) (hstate : r.state = .binding)
    (hrecords : ∀ d ∈ s.deliveries, d.name = nameBind → s.badRecord d = none) (hpages : ∀ p ∈ r.pages, (s.frameOf p).state = .present) :
    ∃ t, exec (.codeBind ctx obj true) s = .next t ∧ (t.recOf ctx obj).map (·.state) = some .bound ∧
      ∀ w l, (s.thread w l).wait = .binding ctx obj → goesOn t w l := by
  obtain ⟨hrec, hlanes⟩ := State.bindEnded_keeps true hr hrecords
  have hresumed : sameContexts ((s.bindEnded ctx obj r true).resumeAll (Thread.awaits ctx obj))
      ((((s.bindEnded ctx obj r true).resumeAll (Thread.awaits ctx obj)).measure ctx r).tellBound ctx obj) :=
    (State.measure_contexts _ ctx r).trans (State.tellBound_contexts _ ctx obj)
  have hexec := exec_codeBind (ok := true) hr hstate fun _ => hpages
  rw [if_pos rfl] at hexec
  refine ⟨_, hexec, ?_, fun w l hwait => ?_⟩
  · rw [hresumed.recOf]
    exact congrArg (Option.map (·.state)) hrec
  · have hwait' := hlanes w l hwait
    unfold goesOn
    rw [State.thread_eq_of_wave (s := (s.bindEnded ctx obj r true).resumeAll (Thread.awaits ctx obj))
      (by simp only [State.wave, hresumed.waves])]
    exact State.resumeAll_goesOn _ _ w l (by rw [hwait']; exact Wait.noConfusion) (Thread.awaits_of_wait hwait')

/-- A binding that fails: the record is UNBOUND again, and the lanes that waited are trapped. -/
theorem codeBind_unbound {s : State} {ctx : Nat} {obj : W64} {r : ObjRec} (hr : s.recOf ctx obj = some r) (hstate : r.state = .binding)
    (hrecords : ∀ d ∈ s.deliveries, d.name = nameBind → s.badRecord d = none) :
    ∃ t, exec (.codeBind ctx obj false) s = .next t ∧ (t.recOf ctx obj).map (·.state) = some .unbound ∧
      ∀ w l, (s.thread w l).wait = .binding ctx obj → (t.thread w l).wait = .trapped := by
  obtain ⟨hrec, hlanes⟩ := State.bindEnded_keeps false hr hrecords
  have hexec := exec_codeBind (ok := false) hr hstate (fun h => nomatch h)
  rw [if_neg Bool.false_ne_true] at hexec
  refine ⟨_, hexec, ?_, fun w l hwait => ?_⟩
  · have hctxs := ((s.bindEnded ctx obj r false).trapAll_told .bindfail (Thread.awaits ctx obj)).rest
    rw [hctxs]
    exact congrArg (Option.map (·.state)) hrec
  · have hwait' := hlanes w l hwait
    exact State.trapAll_trapped _ _ _ (by rw [hwait']; exact Wait.noConfusion) (Thread.awaits_of_wait hwait')

/-- Settles O40: what lanes that wait on a record learn of its answer is carried through what else the answer does; a space grows, an entry
is written and a record bound as their operations say, step by step. -/
theorem faultsAreAnsweredAndCodeBound : Obligations.FaultsAreAnsweredAndCodeBound := by
  refine ⟨?answered, ?refused, ?growth, ?leaf, ?waits, ?frame, ?bind⟩
  case answered => exact fun s die seq fix r hr hkind hdie => faultAnswer_frame fix hr hkind hdie
  case refused => exact fun s die seq fix r status hr hkind hst => faultAnswer_refused fix hr hkind hst
  case growth =>
    intro s w l die seq r hwait hlive hr
    refine ⟨fun hsize hlow => ?_, fun hfull => ?_, ?_⟩
    · exact privateGrowth_grows hwait hlive hr ⟨hsize, hlow.imp_right fun h => by simpa [grownSize] using h⟩
    · exact privateGrowth_stops hwait hr fun _ => hfull
    · exact privateGrowth_stops hwait hr (nomatch ·)
  case leaf => exact fun s ctx c va leaf a level hidle hc hplace hmay => exec_invalidate_leaf hidle hc hplace hmay
  case waits => exact fun s ctx page entries hflight => ⟨_, exec_invalidate_waits page entries hflight, rfl, rfl⟩
  case frame => exact fun s ctx c page w hidle hc hhi hlo hkind => exec_invalidate_frame hidle hc hhi hlo hkind
  case bind =>
    exact fun s ctx obj r hr hstate hrecords =>
      ⟨fun hpages => codeBind_bound hr hstate hrecords hpages, codeBind_unbound hr hstate hrecords⟩

end Sys2Proof.Machine

/-! SUPPORT. The decoder against the encoder (R50, R55, R61, R68, R73): the row that each OP value selects reads a word back in the format in
which the instruction was written, and the decoder refuses nothing that is legal and written so. -/

namespace Sys2Proof

/-! ## The row of a word -/

/-- The row of the opcode map that an OP value selects (R68). -/
def rowOf (op : BitVec 10) : Option OpRow := opRows.find? fun r => r.op == op.toNat

/-- The row of a word's OP reads the word as the instruction. -/
def ReadsAs (w : IWord) (i : Instr) : Prop := ∃ r, rowOf (w.extractLsb' 86 10) = some r ∧ r.read w = some i

/-- OP 0 with any bit set is unallocated: `nop` is the zero word alone. -/
theorem rowOf_zero : rowOf 0 = none := by rfl

theorem ReadsAs.ne_zero {w : IWord} {i : Instr} (h : ReadsAs w i) : w ≠ 0 := by
  rintro rfl
  obtain ⟨r, hrow, -⟩ := h
  exact nomatch rowOf_zero.symm.trans hrow

/-- A word is read as written where its OP selects the row of its format and the format reads it back. -/
theorem readsAs_of_row {F : Type} {read : IWord → Option F} {make : F → Instr} {op : BitVec 10} {w : IWord} {f : F}
    (hop : w.extractLsb' 86 10 = op) (hread : read w = some f)
    (hrow : rowOf op = some ⟨op.toNat, fun w => (read w).map make⟩) : ReadsAs w (make f) :=
  ⟨_, hop.symm ▸ hrow, congrArg (Option.map make) hread⟩

/-- The opcode map and the encoder give each instruction the same OP value and the same format (R68, R69). -/
theorem readsAs_of_encode {i : Instr} {w : IWord} (h : encode i = some w) : i = .nop ∨ ReadsAs w i := by
  cases i
  case nop => exact .inl rfl
  all_goals refine .inr ?_
  all_goals cases h
  case iadd | isub | imul | imad | imulhi | idiv | irem | imin | imax | iabs | ineg | iadd3 | iaddc | lea | icmp | isel | and | or | xor |
      not | shl | shr | sar | rot | bfe | bfi | popc | clz | brev | fadd | fsub | fmul | ffma | fmin | fmax | fabs | fneg | fcmp | fclass |
      fscale | frnd | fdiv | fsqrt | frcp | frsq | fex2 | flg2 | fsin | fcos | mov | cvt | shuf | bcast | vote | ballot | shp | pand | por |
      pxor | pnot | pmov | brx | callx | ret | join | yield | exit | hpop | resumet | resumec | resumek | dropt | tinfo | nameof | ptreq |
      bar | bara | barw | cbdef | cbacq | cbrel | ifence | halt =>
    exact readsAs_of_row (VForm.word_op ..) (VForm.ofWord_word ..) rfl
  case iaddImm | isubImm | imulImm | iminImm | imaxImm | icmpImm | andImm | orImm | xorImm | shlImm | shrImm | sarImm | rotImm | faddImm |
      fsubImm | fmulImm | fminImm | fmaxImm | fcmpImm | movi | rdsr =>
    exact readsAs_of_row (IForm.word_op ..) (IForm.ofWord_word ..) rfl
  case lop3 => exact readsAs_of_row (LopForm.word_op ..) (LopForm.ofWord_word ..) rfl
  case bra | call => exact readsAs_of_row (JForm.word_op ..) (JForm.ofWord_word ..) rfl
  case hpush => exact readsAs_of_row (HpushForm.word_op ..) (HpushForm.ofWord_word ..) rfl
  case perf => exact readsAs_of_row (PerfForm.word_op ..) (PerfForm.ofWord_word ..) rfl
  case trap => exact readsAs_of_row (TrapForm.word_op ..) (TrapForm.ofWord_word ..) rfl
  case ld | st | ldp | stp | ldt | pref | atomc | rstf | fence | waitp | icinv | exadd | exclr =>
    exact readsAs_of_row (MForm.word_op ..) (MForm.ofWord_word ..) rfl
  case atom | red | exrnd | cctl => exact readsAs_of_row (MopForm.word_op ..) (MopForm.ofWord_word ..) rfl
  case cpy | cpym | cpyw | mma | mmasp | cwait | tset | tget | tseal | publ =>
    exact readsAs_of_row (EForm.word_op ..) (EForm.ofWord_word ..) rfl

/-! ## The decoder's answer -/

/-- What the decoder answers for a word other than `nop`'s. -/
theorem decode_of_readsAs {i : Instr} {w : IWord} (h : ReadsAs w i) (henc : encode i = some w) (hwf : i.wf = true) : decode w = .ok i := by
  have hnz := h.ne_zero
  obtain ⟨r, hrow, hread⟩ := h
  have hlegal : i.illegal = none := Option.isNone_iff_eq_none.mp hwf
  unfold rowOf at hrow
  unfold decode
  rw [if_neg hnz, hrow]
  simp only [hread, henc, hlegal, ne_eq, not_true_eq_false, if_false]

/-- A legal instruction's word decodes to it. -/
theorem decode_encode {i : Instr} {w : IWord} (hwf : i.wf = true) (henc : encode i = some w) : decode w = .ok i := by
  obtain rfl | h := readsAs_of_encode henc
  · obtain rfl : 0 = w := Option.some.inj henc
    rfl
  · exact decode_of_readsAs h henc hwf

/-- What a word decodes to is legal and has that word: the decoder compares with the encoder, and checks R61, before it answers. -/
theorem encode_decode {i : Instr} {w : IWord} (h : decode w = .ok i) : i.wf = true ∧ encode i = some w := by
  unfold decode at h
  split at h
  next hw =>
    obtain rfl := Except.ok.inj h
    subst hw
    exact ⟨rfl, rfl⟩
  next =>
    split at h
    next => cases h
    next r hrow =>
      split at h
      next => cases h
      next j hread =>
        split at h
        next => cases h
        next henc =>
          split at h
          next => cases h
          next hlegal =>
            obtain rfl := Except.ok.inj h
            exact ⟨Option.isNone_iff_eq_none.mpr hlegal, not_not.mp henc⟩

/-- Settles O2: the row of each instruction's OP reads its word back, and the decoder answers only what the encoder writes. -/
theorem decodeAndEncodeAgree : Obligations.DecodeAndEncodeAgree :=
  ⟨fun _ _ => decode_encode, fun _ _ => encode_decode⟩

/-- Settles O1: each of the instructions is legal and encodes to the word that the spec writes, so that the word decodes to it. -/
theorem specWordsDecode : Obligations.SpecWordsDecode := by
  have decodes {w : IWord} {i : Instr} (h : i.wf = true ∧ encode i = some w) : decode w = .ok i := decode_encode h.1 h.2
  refine fun p hp => decodes ?_
  revert p
  decide

end Sys2Proof

/-! SUPPORT. Transfers of control (R48, R144 to R146): what `transfer` does where all of a group's lanes fare alike, and the five instructions
as one: each is a transfer to the targets that `transferTo` names, with a link or without. -/

namespace Sys2Proof.Machine

/-! ## A write of no lane -/

theorem Wave.retag_none (wv : Wave) (r n : Nat) (tag : Nat → Tag) : wv.retag [] r n tag = wv := by
  have hnone : wv.blocks.filter (wv.touches []) = [] := by
    refine List.filter_eq_nil_iff.mpr fun b _ => ?_
    simp [Wave.touches]
  unfold Wave.retag
  rw [hnone]
  rfl

theorem Wave.put_none (wv : Wave) (o : Opnd) (val : Nat → W128) (tag : Nat → Tag) : wv.put o [] val tag = wv := by
  unfold Wave.put
  split
  case h_1 | h_2 | h_3 => simp only [Wave.modLanes_nil, Wave.retag_none]
  case h_6 => exact Wave.modLanes_nil _ _
  all_goals rfl

theorem State.writeD_none (s : State) (g : Grp) (val : Nat → W128) (tag : Nat → Tag) : s.writeD g [] val tag = s := by
  have hheal : s.heal g [] = s := by simp [State.heal]
  unfold State.writeD
  rw [hheal]
  exact s.modWave_self g.w _ (Wave.put_none ..)

/-! ## The lanes of a transfer, one after another -/

section
variable (g : Grp) (target : Nat → W64)

/-- The lanes' parts of a transfer. -/
def moveLanes (m : Moved) (lanes : List Nat) : Moved := lanes.foldl (fun m l => moveLane g m l (target l)) m

theorem moveLanes_ok {s : State} {lanes : List Nat} (h : ∀ l ∈ lanes, s.entryCheck g.src.ctx (target l) = .ok) (went : List (Nat × W64)) :
    moveLanes g target ⟨s, went, []⟩ lanes = ⟨s, went ++ lanes.map fun l => (l, target l), []⟩ := by
  induction lanes generalizing went with
  | nil => simp [moveLanes]
  | cons l ls ih =>
    obtain ⟨hl, hls⟩ := List.forall_mem_cons.mp h
    have hlane : moveLane g ⟨s, went, []⟩ l (target l) = ⟨s, went ++ [(l, target l)], []⟩ := by simp only [moveLane, hl]
    rw [moveLanes, List.foldl_cons, hlane, ← moveLanes, ih hls]
    simp

/-- The trap of a destination that no transfer reaches. -/
def Entry.trap? : Entry → Option TrapKind
  | .clear => some .target
  | .gap => some .stray
  | _ => none

theorem moveLane_trap {m : Moved} {l : Nat} {k : TrapKind} (h : (m.st.entryCheck g.src.ctx (target l)).trap? = some k) :
    moveLane g m l (target l) = { m with traps := m.traps ++ [(l, k)] } := by
  unfold moveLane
  cases hentry : m.st.entryCheck g.src.ctx (target l) <;> rw [hentry] at h <;> cases h <;> rfl

theorem moveLanes_trap {s : State} {k : TrapKind} {lanes : List Nat}
    (h : ∀ l ∈ lanes, (s.entryCheck g.src.ctx (target l)).trap? = some k) (traps : List (Nat × TrapKind)) :
    moveLanes g target ⟨s, [], traps⟩ lanes = ⟨s, [], traps ++ lanes.map fun l => (l, k)⟩ := by
  induction lanes generalizing traps with
  | nil => simp [moveLanes]
  | cons l ls ih =>
    obtain ⟨hl, hls⟩ := List.forall_mem_cons.mp h
    rw [moveLanes, List.foldl_cons, moveLane_trap g target hl, ← moveLanes, ih hls]
    simp

/-- What a lane's wait changes is its wave alone: the other lanes find their destinations as before. -/
theorem State.entryCheck_block (s : State) (l : Nat) (wt : Wait) (ctx : Nat) (pc : W64) :
    (s.block g l wt).entryCheck ctx pc = s.entryCheck ctx pc := rfl

theorem moveLanes_binding {s : State} {obj : W64} {lanes : List Nat}
    (h : ∀ l ∈ lanes, s.entryCheck g.src.ctx (target l) = .binding obj) :
    moveLanes g target ⟨s, [], []⟩ lanes = ⟨lanes.foldl (fun s l => s.block g l (.binding g.src.ctx obj)) s, [], []⟩ := by
  induction lanes generalizing s with
  | nil => rfl
  | cons l ls ih =>
    obtain ⟨hl, hls⟩ := List.forall_mem_cons.mp h
    have hlane : moveLane g ⟨s, [], []⟩ l (target l) = ⟨s.block g l (.binding g.src.ctx obj), [], []⟩ := by
      simp only [moveLane, hl, State.bindFor]
    rw [moveLanes, List.foldl_cons, hlane, ← moveLanes, List.foldl_cons]
    exact ih fun k hk => (s.entryCheck_block g l _ _ _).trans (hls k hk)

/-! ## Transfers whose lanes fare alike -/

/-- The state in which the lanes that go have their link. -/
def State.linked (s : State) (g : Grp) (link : Bool) : State :=
  if link then s.writeD g g.lanes (fun _ => ext64 (nextPc g.pc)) fun _ => .uniform else s

theorem find?_map_pair {lanes : List Nat} {l : Nat} (h : l ∈ lanes) :
    ((lanes.map fun l => (l, target l)).find? fun e => e.1 == l) = some (l, target l) := by
  induction lanes with
  | nil => cases h
  | cons k ks ih =>
    by_cases hk : k = l
    · simp [hk]
    · simp [hk, ih ((List.mem_cons.mp h).resolve_left (Ne.symm hk))]

/-- Where every destination passes, each lane goes to its own. -/
theorem State.transfer_ok {s : State} (h : ∀ l ∈ g.lanes, s.entryCheck g.src.ctx (target l) = .ok) (link : Bool) :
    s.transfer g target link = (s.linked g link).modLanes g.w g.lanes fun l t => { t with pc := target l } := by
  have hmoved := moveLanes_ok g target h []
  have hlanes : (g.lanes.map fun l => (l, target l)).map (·.1) = g.lanes := List.map_map.trans (List.map_id _)
  unfold State.transfer
  rw [← moveLanes, hmoved]
  dsimp only
  rw [List.nil_append, hlanes, State.raise_nil]
  refine State.modLanes_congr _ _ _ _ _ fun l hl => ?_
  rw [find?_map_pair target hl]
  rfl

/-- Where no lane goes, nothing is written but what its destination made of each. -/
theorem State.transfer_none {s t : State} {traps : List (Nat × TrapKind)} (h : moveLanes g target ⟨s, [], []⟩ g.lanes = ⟨t, [], traps⟩)
    (link : Bool) : s.transfer g target link = t.raise g traps := by
  unfold State.transfer
  rw [← moveLanes, h]
  simp [State.writeD_none, State.modLanes_nil]

theorem State.transfer_trap {s : State} {k : TrapKind} (h : ∀ l ∈ g.lanes, (s.entryCheck g.src.ctx (target l)).trap? = some k) (link : Bool) :
    s.transfer g target link = s.raise g (g.lanes.map fun l => (l, k)) :=
  s.transfer_none g target (moveLanes_trap g target h []) link

theorem State.transfer_unbound {s : State} {l : Nat} {obj : W64} (hlanes : g.lanes = [l])
    (h : s.entryCheck g.src.ctx (target l) = .unbound obj) (link : Bool) :
    s.transfer g target link = (s.block g l .none).raiseBind g.w obj g.pc [l] := by
  have hmoved : moveLanes g target ⟨s, [], []⟩ g.lanes = ⟨(s.block g l .none).raiseBind g.w obj g.pc [l], [], []⟩ := by
    rw [hlanes]
    simp only [moveLanes, List.foldl_cons, List.foldl_nil, moveLane, h, State.bindFor]
  rw [s.transfer_none g target hmoved, State.raise_nil]

theorem State.transfer_binding {s : State} {obj : W64} (h : ∀ l ∈ g.lanes, s.entryCheck g.src.ctx (target l) = .binding obj) (link : Bool) :
    s.transfer g target link = g.lanes.foldl (fun s l => s.block g l (.binding g.src.ctx obj)) s := by
  rw [s.transfer_none g target (moveLanes_binding g target h), State.raise_nil]

end

/-! ## The five instructions -/

/-- Whether a transfer writes the next slot's PC to its link register (R144, R145). -/
def linksBack : Instr → Bool
  | .call _ | .callx _ => true
  | _ => false

/-- Where a transfer sends a lane; 0 for what is none. -/
def targetOf (i : Instr) (g : Grp) (l : Nat) : W64 := (transferTo i g l).getD 0

/-- An instruction with a destination is a transfer to it. -/
theorem exec_transfer {i : Instr} (s : State) {g : Grp} {l : Nat} (h : (transferTo i g l).isSome = true) :
    exec i s = issue i s lawful fun g s => s.transfer g (targetOf i g) (linksBack i) := by
  unfold transferTo at h
  split at h
  case h_6 => cases h
  all_goals rfl

/-- What a transfer makes of the state in which it is issued. -/
theorem Issues.transfers {i : Instr} {s : State} {sl : Slot} (h : Issues i s sl) {l : Nat}
    (hto : (transferTo i (s.groupOf i sl) l).isSome = true) {effect : State → State}
    (heffect : (s.issued (s.groupOf i sl)).transfer (s.groupOf i sl) (targetOf i (s.groupOf i sl)) (linksBack i) =
      effect (s.issued (s.groupOf i sl))) :
    exec i s = .next (s.after (s.groupOf i sl) effect) := by
  rw [exec_transfer s hto, h.run lawful _ rfl]
  unfold State.after
  rw [← heffect]
  rfl

/-- A lane's destination, and what it shows. -/
theorem entryCheck_targetOf {i : Instr} {s : State} {g : Grp} {l : Nat} {e : Entry}
    (h : ∃ t, transferTo i g l = some t ∧ s.entryCheck g.src.ctx t = e) : s.entryCheck g.src.ctx (targetOf i g l) = e := by
  obtain ⟨t, ht, hentry⟩ := h
  rw [targetOf, ht]
  exact hentry

/-- Settles O25: each of the five is a transfer to what `transferTo` names, and a transfer whose lanes fare alike does one thing in all of
them. -/
theorem transfersReachTheirTargets : Obligations.TransfersReachTheirTargets := by
  refine ⟨?bra, ?brx, ?ret, ?call, ?callx, ?refused⟩
  case bra | brx | ret | call | callx =>
    exact fun f s sl h hok => h.transfers (l := 0) rfl (State.transfer_ok _ _ hok _)
  case refused =>
    intro i s sl h
    refine ⟨fun hto hclear => ?_, fun hto hgap => ?_, fun l obj hlanes hunbound => ?_, fun obj hto hbinding => ?_⟩
    · exact h.transfers hto (State.transfer_trap _ _ (fun l hl => congrArg Entry.trap? (entryCheck_targetOf (hclear l hl))) _)
    · exact h.transfers hto (State.transfer_trap _ _ (fun l hl => congrArg Entry.trap? (entryCheck_targetOf (hgap l hl))) _)
    · have hto := Option.isSome_iff_exists.mpr (hunbound.imp fun _ ht => ht.1)
      exact h.transfers hto (State.transfer_unbound _ _ hlanes (entryCheck_targetOf hunbound) _)
    · exact h.transfers hto (State.transfer_binding _ _ (fun l hl => entryCheck_targetOf (hbinding l hl)) _)

end Sys2Proof.Machine

/-! SUPPORT. An operation of the package's own does not depend on the agenda. Two states that differ in the agenda alone: an access goes
alike in both. -/

namespace Sys2Proof.Machine

/-- A state with another agenda. -/
def State.withAgenda (s : State) (ag : List Instr) : State := { s with agenda := ag }

section
variable (s : State) (ag : List Instr)

theorem State.walk_withAgenda : (s.withAgenda ag).walk = s.walk := by
  funext who va ls
  induction ls with
  | nil => rfl
  | cons l ls ih =>
    funext table
    simp only [State.walk, ih]
    rfl

theorem State.walkAll_withAgenda : (s.withAgenda ag).walkAll = s.walkAll := by
  funext who c mode ps
  induction ps with
  | nil => rfl
  | cons p ps ih =>
    simp only [State.walkAll, ih, State.walk_withAgenda]

theorem State.locateAll_withAgenda : (s.withAgenda ag).locateAll = s.locateAll := by
  funext who ps
  induction ps with
  | nil => rfl
  | cons p ps ih =>
    simp only [State.locateAll, ih]
    rfl

theorem State.tableAccess_withAgenda : (s.withAgenda ag).tableAccess = s.tableAccess := by
  unfold State.tableAccess
  rw [State.walkAll_withAgenda, State.locateAll_withAgenda]
  rfl

theorem State.objectAccess_withAgenda : (s.withAgenda ag).objectAccess = s.objectAccess := by
  unfold State.objectAccess
  rw [State.tableAccess_withAgenda, State.locateAll_withAgenda]
  rfl

theorem State.windowAccess_withAgenda : (s.withAgenda ag).windowAccess = s.windowAccess := by
  unfold State.windowAccess
  rw [State.locateAll_withAgenda]
  rfl

theorem State.scratchAccess_withAgenda : (s.withAgenda ag).scratchAccess = s.scratchAccess := by
  unfold State.scratchAccess
  rw [State.locateAll_withAgenda]
  rfl

theorem State.privAccess_withAgenda : (s.withAgenda ag).privAccess = s.privAccess := by
  unfold State.privAccess
  rw [State.tableAccess_withAgenda]

theorem State.access_withAgenda : (s.withAgenda ag).access = s.access := by
  unfold State.access
  rw [State.tableAccess_withAgenda, State.windowAccess_withAgenda, State.objectAccess_withAgenda, State.scratchAccess_withAgenda,
    State.privAccess_withAgenda]
  rfl

end
end Sys2Proof.Machine

/-! SUPPORT. What waits, what can issue and what is due, in states that differ in the agenda alone. -/

namespace Sys2Proof.Machine
section
variable (s : State) (ag : List Instr)

theorem State.withAgenda_poison (p : List Nat) :
    ({ s.withAgenda ag with poison := p } : State) = ({ s with poison := p } : State).withAgenda ag := rfl

theorem State.reach_withAgenda : (s.withAgenda ag).reach = s.reach := by
  unfold State.reach
  rw [State.access_withAgenda, State.withAgenda_poison, State.access_withAgenda]
  rfl

theorem State.blockNow_withAgenda : (s.withAgenda ag).blockNow = s.blockNow := by
  unfold State.blockNow
  rw [State.access_withAgenda]
  rfl

theorem State.pennant_withAgenda : (s.withAgenda ag).pennant = s.pennant := by
  unfold State.pennant
  rw [State.access_withAgenda]
  rfl

theorem State.waitpReady_withAgenda : (s.withAgenda ag).waitpReady = s.waitpReady := by
  unfold State.waitpReady State.waitedWord
  rw [State.pennant_withAgenda]
  rfl

theorem State.cbacqReady_withAgenda : (s.withAgenda ag).cbacqReady = s.cbacqReady := by
  unfold State.cbacqReady
  rw [State.blockNow_withAgenda]
  rfl

theorem State.claimable_withAgenda : (s.withAgenda ag).claimable = s.claimable := by
  unfold State.claimable
  rw [State.reach_withAgenda]
  rfl

theorem State.claimFree_withAgenda : (s.withAgenda ag).claimFree = s.claimFree := by
  unfold State.claimFree
  rw [State.access_withAgenda]
  rfl

theorem State.wakes_withAgenda : (s.withAgenda ag).wakes = s.wakes := by
  unfold State.wakes State.laneWakes
  rw [State.waitpReady_withAgenda, State.cbacqReady_withAgenda, State.claimFree_withAgenda]
  rfl

theorem State.slotInstr_withAgenda : (s.withAgenda ag).slotInstr = s.slotInstr := by
  unfold State.slotInstr State.slotWord State.fetch
  rw [State.access_withAgenda]
  rfl

theorem State.readySlots_withAgenda : (s.withAgenda ag).readySlots = s.readySlots := by
  unfold State.readySlots State.slotReady
  rw [State.slotInstr_withAgenda]
  rfl

theorem State.hwSlots_withAgenda : (s.withAgenda ag).hwSlots = s.hwSlots := by
  unfold State.hwSlots
  rw [State.readySlots_withAgenda]
  rfl

theorem State.exchange_withAgenda : (s.withAgenda ag).exchange = s.exchange := by
  unfold State.exchange
  rw [State.hwSlots_withAgenda]
  rfl

theorem State.voters_withAgenda : (s.withAgenda ag).voters = s.voters := by
  unfold State.voters
  rw [State.readySlots_withAgenda]
  rfl

theorem State.choose_withAgenda : (s.withAgenda ag).choose = s.choose := by
  unfold State.choose State.votes State.slot0 State.slot1 State.pairOf
  rw [State.hwSlots_withAgenda, State.voters_withAgenda, State.slotInstr_withAgenda]
  rfl

theorem State.depWord_withAgenda : (s.withAgenda ag).depWord = s.depWord := by
  unfold State.depWord
  rw [State.access_withAgenda]
  rfl

theorem State.eligibilityDue_withAgenda : (s.withAgenda ag).eligibilityDue = s.eligibilityDue := by
  unfold State.eligibilityDue State.badDep State.depsMet State.depDue
  rw [State.depWord_withAgenda]
  rfl

theorem State.daxPlace_withAgenda : (s.withAgenda ag).daxPlace = s.daxPlace := by
  unfold State.daxPlace
  rw [State.locateAll_withAgenda]
  rfl

theorem State.hostDue_withAgenda : (s.withAgenda ag).hostDue = s.hostDue := by
  unfold State.hostDue
  rw [State.daxPlace_withAgenda]
  rfl

theorem State.svcPtr_withAgenda : (s.withAgenda ag).svcPtr = s.svcPtr := by
  unfold State.svcPtr
  rw [State.withAgenda_poison]
  dsimp only
  rw [State.access_withAgenda]
  rfl

theorem State.waveEvent_withAgenda : (s.withAgenda ag).waveEvent = s.waveEvent := by
  unfold State.waveEvent
  rw [State.waitpReady_withAgenda, State.cbacqReady_withAgenda]
  rfl

theorem State.tileEvent_withAgenda : (s.withAgenda ag).tileEvent = s.tileEvent := by
  unfold State.tileEvent State.cmdEvent
  rw [State.claimable_withAgenda]
  rfl

theorem State.exchangeEvent_withAgenda : (s.withAgenda ag).exchangeEvent = s.exchangeEvent := by
  unfold State.exchangeEvent
  rw [State.exchange_withAgenda]
  rfl

theorem State.wakeEvent_withAgenda : (s.withAgenda ag).wakeEvent = s.wakeEvent := by
  unfold State.wakeEvent
  rw [State.wakes_withAgenda]
  rfl

theorem State.hostEvent_withAgenda : (s.withAgenda ag).hostEvent = s.hostEvent := by
  unfold State.hostEvent
  rw [State.hostDue_withAgenda]
  rfl

theorem State.cycleOp_withAgenda : (s.withAgenda ag).cycleOp = s.cycleOp := by
  unfold State.cycleOp State.matched
  rw [State.choose_withAgenda]
  rfl

end
end Sys2Proof.Machine

/-! SUPPORT. The end of a team, its placement and a die's round (R261, R262), in states that differ in the agenda alone. -/

namespace Sys2Proof.Machine

/-! ## States that differ in the agenda alone stay so -/

section
variable (ag : List Instr)

theorem foldl_withAgenda {α : Type} (f : State → α → State) (hf : ∀ s a, f (s.withAgenda ag) a = (f s a).withAgenda ag)
    (l : List α) (s : State) : l.foldl f (s.withAgenda ag) = (l.foldl f s).withAgenda ag := by
  induction l generalizing s with
  | nil => rfl
  | cons a l ih => rw [List.foldl_cons, hf, ih, List.foldl_cons]

variable (s : State)

theorem State.launchOf_withAgenda : (s.withAgenda ag).launchOf = s.launchOf := rfl

theorem State.barrierFor_withAgenda (w level : Nat) :
    (s.withAgenda ag).barrierFor w level = ((s.barrierFor w level).1.withAgenda ag, (s.barrierFor w level).2) := by
  unfold State.barrierFor
  rw [show (s.withAgenda ag).barriers = s.barriers from rfl, show (s.withAgenda ag).barrierIs = s.barrierIs from rfl]
  split <;> rfl

theorem State.exitWords_withAgenda (w : Nat) (lanes : List Nat) :
    (s.withAgenda ag).exitWords w lanes = (s.exitWords w lanes).withAgenda ag := by
  unfold State.exitWords
  rw [show (s.withAgenda ag).launchOf ((s.withAgenda ag).wave w).team = s.launchOf (s.wave w).team from rfl]
  split
  · rfl
  · refine foldl_withAgenda ag _ (fun s level => ?_) _ s
    rw [State.barrierFor_withAgenda, show (s.withAgenda ag).fabric = s.fabric from rfl]
    dsimp only
    split
    · split <;> rfl
    · rfl

theorem State.exited_withAgenda (t : Nat) : (s.withAgenda ag).exited t = (s.exited t).withAgenda ag :=
  foldl_withAgenda ag _ (fun s w => s.exitWords_withAgenda ag w _) _ s

theorem State.teamGone_withAgenda (t : Nat) (r : Option EndReason) : (s.withAgenda ag).teamGone t r = (s.teamGone t r).withAgenda ag := by
  unfold State.teamGone State.cleared
  rw [State.exited_withAgenda]
  rfl

theorem State.unscratched_withAgenda (t no : Nat) : (s.withAgenda ag).unscratched t no = (s.unscratched t no).withAgenda ag := by
  unfold State.unscratched
  rw [State.launchOf_withAgenda]
  split
  · split <;> rfl
  · rfl

theorem State.guestEnd_withAgenda (t n : Nat) (r : Option EndReason) :
    (s.withAgenda ag).guestEnd t n r = (s.guestEnd t n r).withAgenda ag := by
  unfold State.guestEnd
  rw [State.launchOf_withAgenda]
  dsimp only
  split <;> rfl

theorem State.endNoted_withAgenda (t : Nat) (tm : Team) (r : Option EndReason) :
    (s.withAgenda ag).endNoted t tm r = (s.endNoted t tm r).withAgenda ag := by
  unfold State.endNoted
  split
  · exact s.guestEnd_withAgenda ag t _ _
  · rfl
  · rfl

theorem State.endTeam_withAgenda (t : Nat) (r : Option EndReason) (h : (s.team t).state ≠ .ended) :
    (s.withAgenda ag).endTeam t r = (s.endTeam t r).withAgenda ag := by
  rw [s.endTeam_eq t r h, (s.withAgenda ag).endTeam_eq t r h, State.teamGone_withAgenda, State.unscratched_withAgenda,
    State.endNoted_withAgenda]
  rfl

theorem State.reportEnd_withAgenda (t : Nat) (r : EndReason) : (s.withAgenda ag).reportEnd t r = (s.reportEnd t r).withAgenda ag := by
  by_cases h : (s.team t).state = .ended
  · have hended (u : State) (hu : (u.team t).state = .ended) : u.reportEnd t r = u := by
      unfold State.reportEnd
      exact if_pos hu
    rw [hended s h, hended (s.withAgenda ag) h]
  · rw [s.reportEnd_eq t r h, (s.withAgenda ag).reportEnd_eq t r h, s.endTeam_withAgenda ag t _ h, State.launchOf_withAgenda]
    split <;> rfl

/-! ## Placement -/

theorem State.setScratch_withAgenda (t : Nat) (e : W64) : (s.withAgenda ag).setScratch t e = (s.setScratch t e).withAgenda ag := by
  unfold State.setScratch
  rw [State.launchOf_withAgenda]
  split
  · rfl
  · split <;> rfl

theorem State.seat_withAgenda (tile : Nat) (ws : List (Nat × Nat)) : (s.withAgenda ag).seat tile ws = (s.seat tile ws).withAgenda ag :=
  foldl_withAgenda ag _ (fun _ _ => rfl) ws s

end

/-- An answer that holds a state, with another agenda. -/
def carried {α : Type} (ag : List Instr) : Option (State × α) → Option (State × α) := Option.map fun x => (x.1.withAgenda ag, x.2)

section
variable (ag : List Instr)

theorem isSome_carried {α : Type} (a : Option (State × α)) : (carried ag a).isSome = a.isSome := Option.isSome_map ..

theorem foldl_carried {α β : Type} (f : State × α → β → Option (State × α))
    (hf : ∀ x b, f (x.1.withAgenda ag, x.2) b = carried ag (f x b)) (l : List β) (a : Option (State × α)) :
    l.foldl (fun a b => a.bind fun x => f x b) (carried ag a) = carried ag (l.foldl (fun a b => a.bind fun x => f x b) a) := by
  induction l generalizing a with
  | nil => rfl
  | cons b l ih =>
    have hstep : ((carried ag a).bind fun x => f x b) = carried ag (a.bind fun x => f x b) := by
      cases a with
      | none => rfl
      | some x => exact hf x b
    rw [List.foldl_cons, hstep, ih, List.foldl_cons]

variable (s : State)

theorem State.loadContext_withAgenda (t : Nat) : (s.withAgenda ag).loadContext t = (s.loadContext t).map (·.withAgenda ag) := by
  unfold State.loadContext
  rw [show (s.withAgenda ag).team t = s.team t from rfl]
  split
  next => rfl
  next k n _ =>
    rw [show (s.withAgenda ag).poisoned = s.poisoned from rfl]
    split
    · rfl
    · rw [show some (s.withAgenda ag, k) = carried ag (some (s, k)) from rfl, foldl_carried ag]
      · simp only [carried, Option.map_map]
        rfl
      · intro x w
        simp only [carried, Option.map_map]
        rfl

theorem State.restoreTeam_withAgenda (t : Nat) : (s.withAgenda ag).restoreTeam t = (s.restoreTeam t).withAgenda ag := by
  unfold State.restoreTeam
  rw [State.loadContext_withAgenda]
  cases s.loadContext t with
  | some u => rfl
  | none => exact s.reportEnd_withAgenda ag t _

/-- A tile is out of retention before a team is placed there. -/
def State.readied (s : State) (tile : Nat) : State := if (s.tile tile).retention = .retained then s.leaveRetention tile else s

/-- A team's waves are made and its region zeroed, or its region and its commands come to the tile. -/
def State.movedIn (s : State) (l : Launch) (tm : Team) (p : Placement) : State :=
  let key := sliceKey p.tile (p.bank * 16384)
  let n := l.header.banks
  if tm.state == .waiting then
    { s.makeWaves l p.team tm.index with
      mem := Memory.clear s.mem key (n * 16384)
      poison := moveMarks s.poison [] (key / 64) 0 (n * 256) }
  else
    match scratchOf (((s.ctx? l.ctx).map fun c => c.smap (s.scratchNo tm)).getD 0) with
    | some (.copy page _) =>
      ({ s with
        mem := Memory.paste s.mem key (n * 16384) (Memory.cut s.mem page (n * 16384))
        poison := moveMarks s.poison s.poison (key / 64) (page / 64) (n * 256) } : State).moveCmds tm.waves tm.tile p.tile
    | _ => s.moveCmds tm.waves tm.tile p.tile

/-- A team's waves take their slots, and the team is resident. -/
def State.seatedIn (s : State) (l : Launch) (tm : Team) (p : Placement) : State :=
  let ws := s.seated l (s.team p.team)
  let seats := (s.seats p.tile l.world ws.length l.header).getD []
  let s2 := (s.seat p.tile (ws.zip seats)).modTeam p.team fun x =>
    { x with state := .resident, tile := p.tile, bank := p.bank, nbank := l.header.banks, placed := true, die := p.tile / 48, waited := 0
             seen := [] }
  let s3 : State := { s2.wakeLanes ws p.tile with dies := s2.dies.map fun d => { d with woken := d.woken.filter (· != p.team) } }
  s3.modLaunch tm.launch fun x => { x with age := 0, queue := recPrio x.record, resident := true }

theorem State.place_eq (p : Placement) : s.place p =
    match s.launchOf p.team with
    | none => s
    | some l =>
      let u := ((s.readied p.tile).movedIn l (s.team p.team) p).seatedIn l (s.team p.team) p
      (if l.header.banks = 0 then u else u.setScratch p.team (smapSlice p.tile p.bank l.header.banks)).restoreTeam p.team := rfl

theorem State.readied_withAgenda (tile : Nat) : (s.withAgenda ag).readied tile = (s.readied tile).withAgenda ag := by
  unfold State.readied
  rw [show (s.withAgenda ag).tile = s.tile from rfl]
  split <;> rfl

theorem State.movedIn_withAgenda (l : Launch) (tm : Team) (p : Placement) :
    (s.withAgenda ag).movedIn l tm p = (s.movedIn l tm p).withAgenda ag := by
  unfold State.movedIn
  rw [show (s.withAgenda ag).ctx? = s.ctx? from rfl, show (s.withAgenda ag).scratchNo = s.scratchNo from rfl]
  dsimp only
  split
  · rfl
  · split <;> rfl

theorem State.seatedIn_withAgenda (l : Launch) (tm : Team) (p : Placement) :
    (s.withAgenda ag).seatedIn l tm p = (s.seatedIn l tm p).withAgenda ag := by
  unfold State.seatedIn
  dsimp only
  rw [State.seat_withAgenda]
  rfl

theorem State.place_withAgenda (p : Placement) : (s.withAgenda ag).place p = (s.place p).withAgenda ag := by
  rw [State.place_eq, State.place_eq, State.launchOf_withAgenda]
  split
  · rfl
  · rw [State.readied_withAgenda, show (s.withAgenda ag).team = s.team from rfl, State.movedIn_withAgenda, State.seatedIn_withAgenda]
    dsimp only
    split
    · exact State.restoreTeam_withAgenda ag _ _
    · rw [State.setScratch_withAgenda, State.restoreTeam_withAgenda]

/-! ## A round -/

theorem State.placeAll_withAgenda (die : Nat) (ts : List Nat) : (s.withAgenda ag).placeAll die ts = carried ag (s.placeAll die ts) := by
  induction ts generalizing s with
  | nil => rfl
  | cons t ts ih =>
    unfold State.placeAll
    rw [show (s.withAgenda ag).placeIn = s.placeIn from rfl]
    cases s.placeIn die t with
    | none => rfl
    | some p =>
      simp only [Option.bind_some, State.place_withAgenda, ih, carried, Option.map_map]
      rfl

theorem State.reserved_withAgenda : (s.withAgenda ag).reserved = s.reserved := by
  funext die q
  unfold State.reserved
  simp only [State.placeAll_withAgenda, carried, Option.isNone_map]
  rfl

theorem State.nextGrant_withAgenda : (s.withAgenda ag).nextGrant = s.nextGrant := by
  funext die q
  unfold State.nextGrant
  simp only [State.reserved_withAgenda, State.placeAll_withAgenda, isSome_carried]
  rfl

theorem takeOwn_withAgenda (die : Nat) (ts : List Nat) (ps : List Placement) :
    takeOwn die (s.withAgenda ag) ts ps = carried ag (takeOwn die s ts ps) := by
  simp only [takeOwn, State.placeAll_withAgenda, carried, Option.map_map]
  rfl

/-- A woken team is placed where it can be (R262). -/
def wakeStep (die : Nat) (x : State × List Placement) (t : Nat) : Option (State × List Placement) :=
  if (x.1.placeIn die t).isSome && (x.1.isCor t || !x.1.corWoken) then takeOwn die x.1 [t] x.2 else some x

/-- A queue's grant (R261). -/
def grantStep (die : Nat) (x : State × List Placement) (q : Nat) : Option (State × List Placement) :=
  match x.1.nextGrant die q with
  | some ts => takeOwn die x.1 ts x.2
  | none => some x

theorem State.round_eq (die : Nat) : s.round die (takeOwn die) [] =
    (((s.die die).woken.filter s.isCor ++ (s.die die).woken.filter fun t => !s.isCor t).foldl (fun a t => a.bind fun x => wakeStep die x t)
      (some (s, []))).bind fun x =>
        if !(x.1.die die).woken.isEmpty then some x else grantQueues.foldl (fun a q => a.bind fun y => grantStep die y q) (some x) := rfl

theorem wakeStep_withAgenda (die : Nat) (x : State × List Placement) (t : Nat) :
    wakeStep die (x.1.withAgenda ag, x.2) t = carried ag (wakeStep die x t) := by
  unfold wakeStep
  rw [takeOwn_withAgenda, apply_ite (carried ag)]
  rfl

theorem grantStep_withAgenda (die : Nat) (x : State × List Placement) (q : Nat) :
    grantStep die (x.1.withAgenda ag, x.2) q = carried ag (grantStep die x q) := by
  unfold grantStep
  rw [State.nextGrant_withAgenda]
  dsimp only
  split
  · exact takeOwn_withAgenda ag _ _ _ _
  · rfl

theorem State.round_withAgenda (die : Nat) : (s.withAgenda ag).round die (takeOwn die) [] = carried ag (s.round die (takeOwn die) []) := by
  rw [State.round_eq, State.round_eq]
  rw [show some (s.withAgenda ag, ([] : List Placement)) = carried ag (some (s, [])) from rfl,
    foldl_carried ag _ (wakeStep_withAgenda ag die)]
  rw [show (s.withAgenda ag).isCor = s.isCor from rfl, show (s.withAgenda ag).die = s.die from rfl]
  cases (List.foldl (fun a t => a.bind fun x => wakeStep die x t) (some (s, [])) _) with
  | none => rfl
  | some x =>
    simp only [carried, Option.map_some, Option.bind_some]
    rw [show (x.1.withAgenda ag).die = x.1.die from rfl, show some (x.1.withAgenda ag, x.2) = carried ag (some x) from rfl,
      foldl_carried ag _ (grantStep_withAgenda ag die)]
    split <;> rfl

theorem State.roundEvent_withAgenda : (s.withAgenda ag).roundEvent = s.roundEvent := by
  unfold State.roundEvent State.roundFor
  simp only [State.round_withAgenda, carried, Option.map_map]
  rfl

end
end Sys2Proof.Machine

/-! SUPPORT. Memory, fault records, the pages of objects and their records, in states that differ in the agenda alone. -/

namespace Sys2Proof.Machine

section
variable (ag : List Instr) (s : State)

/-! ## Memory -/

theorem State.countPiece_withAgenda (p : Piece) : (s.withAgenda ag).countPiece p = (s.countPiece p).withAgenda ag := by
  unfold State.countPiece
  split <;> rfl

theorem State.count_withAgenda (ps : List Piece) : (s.withAgenda ag).count ps = (s.count ps).withAgenda ag :=
  foldl_withAgenda ag _ (fun s p => s.countPiece_withAgenda ag p) ps s

theorem State.touchCode_withAgenda (k n : Nat) : (s.withAgenda ag).touchCode k n = (s.touchCode k n).withAgenda ag :=
  foldl_withAgenda ag (fun (s : State) line => ({ s with fetchLines := s.touchLine line (k % 64) n } : State)) (fun _ _ => rfl) _ s

theorem State.storeLine_withAgenda (k : Nat) (bs : List Byte) : (s.withAgenda ag).storeLine k bs = (s.storeLine k bs).withAgenda ag := by
  unfold State.storeLine
  rw [State.touchCode_withAgenda]
  rfl

/-- An answer that comes with a state. -/
def pairWithAgenda {α : Type} (x : State × α) : State × α := (x.1.withAgenda ag, x.2)

theorem State.storePart_withAgenda (a : State × List Byte) (q : Piece) :
    State.storePart (pairWithAgenda ag a) q = pairWithAgenda ag (State.storePart a q) := by
  unfold State.storePart pairWithAgenda
  rw [State.storeLine_withAgenda]

theorem State.store_withAgenda (ps : List Piece) (bs : List Byte) : (s.withAgenda ag).store ps bs = (s.store ps bs).withAgenda ag := by
  induction ps generalizing s bs with
  | nil => rfl
  | cons p ps ih =>
    rw [State.store_cons, State.store_cons, show (s.withAgenda ag, bs) = pairWithAgenda ag (s, bs) from rfl,
      List.foldl_hom (pairWithAgenda ag) (State.storePart_withAgenda ag)]
    exact ih _ _

theorem State.poke_withAgenda (pa : Nat) (bs : List Byte) : (s.withAgenda ag).poke pa bs = (s.poke pa bs).withAgenda ag := by
  unfold State.poke
  rw [show (s.withAgenda ag).keyOf = s.keyOf from rfl]
  split
  · exact s.store_withAgenda ag _ _
  · rfl

theorem State.blank_withAgenda (pa n : Nat) : (s.withAgenda ag).blank pa n = (s.blank pa n).withAgenda ag := by
  refine foldl_withAgenda ag (fun s (p : Piece) => s.blankPart p.1 p.2) (fun s p => ?_) _ s
  unfold State.blankPart
  rw [show (s.withAgenda ag).keyOf = s.keyOf from rfl]
  split <;> rfl

/-! ## Records and recalls -/

theorem State.post_withAgenda (r : FaultRec) : (s.withAgenda ag).post r = pairWithAgenda ag (s.post r) := by
  unfold State.post
  rw [show (s.withAgenda ag).die = s.die from rfl, show (s.withAgenda ag).faultDie = s.faultDie from rfl]
  dsimp only
  split
  · rfl
  · split <;> rfl

theorem State.postOnce_withAgenda (op : Instr) (r : FaultRec) : (s.withAgenda ag).postOnce op r = (s.postOnce op r).withAgenda ag := by
  unfold State.postOnce
  rw [show (s.withAgenda ag).joined = s.joined from rfl, State.post_withAgenda]
  split
  · rfl
  · unfold pairWithAgenda
    generalize s.post r = x
    obtain ⟨u, _ | ⟨d, q⟩⟩ := x <;> rfl

theorem State.recallHome_withAgenda (page : Nat) : (s.withAgenda ag).recallHome page = (s.recallHome page).withAgenda ag := by
  refine foldl_withAgenda ag (fun s n => if s.fabric.recalled page n then s else s.request (s.packet 0 .recall n (page * 65536)))
    (fun s n => ?_) _ s
  rw [show (s.withAgenda ag).fabric = s.fabric from rfl]
  split <;> rfl

/-- The sectors of a page that are here are laid at its home (R286). -/
def State.sectorsHome (s : State) (e : FrameEntry) : State :=
  ((List.range 32).filter fun i => e.smask.getLsbD i).foldl (fun s i =>
    { s with
      home := Memory.paste s.home (homeKey e (2048 * i)) 2048 (Memory.cut s.mem (e.frame * 65536 + 2048 * i) 2048)
      homePoison := moveMarks s.homePoison s.poison (homeKey e (2048 * i) / 64) ((e.frame * 65536 + 2048 * i) / 64) 32 }) s

theorem State.sectorsHome_withAgenda (e : FrameEntry) : (s.withAgenda ag).sectorsHome e = (s.sectorsHome e).withAgenda ag :=
  foldl_withAgenda ag _ (fun _ _ => rfl) _ s

/-- A page leaves its frame, and what waited for that goes on. -/
def State.unframed (s : State) (page : Nat) (e : FrameEntry) : State :=
  ({ s with
      dirty := s.dirty.filter (· != e.frame)
      poison := moveMarks s.poison [] (e.frame * 65536 / 64) 0 1024 }.setFrame page
    { e with state := .absent, smask := 0, frame := 0 }).resumeAll fun t =>
      match t.wait with
      | .page p _ => p == page
      | _ => false

theorem State.departed_eq (page : Nat) : s.departed page =
    (if s.dirty.contains (s.frameOf page).frame then s.sectorsHome (s.frameOf page) else s).unframed page (s.frameOf page) := rfl

/-- The bytes of a sector go to the page's home in packets. -/
def State.sendSector (s : State) (e : FrameEntry) (i : Nat) : State :=
  (List.range (2048 / pageChunk)).foldl (fun s j =>
    s.request (s.pagePacket e (2048 * i + pageChunk * j) (lineMask s.poison ((e.frame * 65536 + (2048 * i + pageChunk * j)) / 64))
      (Memory.bytes s.mem (e.frame * 65536 + (2048 * i + pageChunk * j)) pageChunk))) s

theorem State.sendSector_withAgenda (e : FrameEntry) (i : Nat) : (s.withAgenda ag).sendSector e i = (s.sendSector e i).withAgenda ag :=
  foldl_withAgenda ag _ (fun _ _ => rfl) _ s

/-- A page's arrival is over. -/
def State.stopComing (s : State) (page : Nat) : State :=
  { s with fabric := { s.fabric with coming := s.fabric.coming.filter fun c => c.1 != page } }

theorem State.depart_eq (page : Nat) : s.depart page =
    let e := s.frameOf page
    if !e.v || e.hkind == 0 || e.state == .absent || e.state == .departing then s
    else if s.dirty.contains e.frame && (s.stopComing page).homeReached e then
      ((List.range 32).filter fun i => e.smask.getLsbD i).foldl (fun s i => s.sendSector e i)
        ((s.stopComing page).setFrame page { e with state := .departing })
    else (s.stopComing page).departed page := rfl

theorem State.departed_withAgenda (page : Nat) : (s.withAgenda ag).departed page = (s.departed page).withAgenda ag := by
  rw [State.departed_eq, State.departed_eq, show (s.withAgenda ag).frameOf = s.frameOf from rfl,
    show (s.withAgenda ag).dirty = s.dirty from rfl]
  split
  · rw [State.sectorsHome_withAgenda]
    rfl
  · rfl

theorem State.depart_withAgenda (page : Nat) : (s.withAgenda ag).depart page = (s.depart page).withAgenda ag := by
  rw [State.depart_eq, State.depart_eq, show (s.withAgenda ag).frameOf = s.frameOf from rfl,
    show (s.withAgenda ag).stopComing = fun page => (s.stopComing page).withAgenda ag from rfl]
  dsimp only
  split
  · rfl
  · rw [show ∀ u : State, (u.withAgenda ag).homeReached = u.homeReached from fun _ => rfl,
      show (s.withAgenda ag).dirty = s.dirty from rfl]
    split
    · exact foldl_withAgenda ag (fun u i => u.sendSector (s.frameOf page) i) (fun u i => u.sendSector_withAgenda ag _ i) _
        ((s.stopComing page).setFrame page { s.frameOf page with state := .departing })
    · exact State.departed_withAgenda ag _ page

theorem State.evictPages_withAgenda (pages : List Nat) : (s.withAgenda ag).evictPages pages = pairWithAgenda ag (s.evictPages pages) := by
  unfold State.evictPages
  rw [foldl_withAgenda ag State.depart (State.depart_withAgenda ag)]
  rw [show (s.withAgenda ag).exempt = s.exempt from rfl, show (s.withAgenda ag).frameOf = s.frameOf from rfl]
  split
  · rfl
  · split <;> rfl

/-! ## Records of objects -/

theorem State.fillHomes_withAgenda (run span : Nat) (cells : List Host.Cell) :
    (s.withAgenda ag).fillHomes run span cells = (s.fillHomes run span cells).withAgenda ag :=
  foldl_withAgenda ag (fun (s : State) i => ({ s with
    home := Memory.paste s.home (homeKey (s.frameOf (run / 65536 + i)) 0) 65536 (Memory.cut cells (i * 65536) 65536)
    homePoison := healed s.homePoison (homeKey (s.frameOf (run / 65536 + i)) 0) 65536 } : State)) (fun _ _ => rfl) _ s

theorem State.mapDeep_withAgenda (va leaf : Nat) (ls : List Level) (table next : Nat) :
    (s.withAgenda ag).mapDeep va leaf ls table next = pairWithAgenda ag (s.mapDeep va leaf ls table next) := by
  induction ls generalizing s table next with
  | nil => rfl
  | cons l ls ih =>
    unfold State.mapDeep
    rw [show (s.withAgenda ag).peek = s.peek from rfl]
    dsimp only
    split
    · rw [State.poke_withAgenda]
      rfl
    · split
      · split
        · rfl
        · exact ih s _ _
      · rw [State.blank_withAgenda, State.poke_withAgenda]
        exact ih _ _ _

/-- An object's pages are entered in the tables. -/
def State.mapPages (s : State) (c : Ctx) (r : ObjRec) (root : Nat) : State × Nat :=
  (List.range (spanOf r.extent / 65536)).foldl (fun (x : State × Nat) i =>
    x.1.mapDeep (r.base.toNat % 2 ^ 60 + 65536 * i) (r.leafBits + r.run + 65536 * i) walkLevels root x.2) (s, c.nextTable)

theorem State.mapPages_withAgenda (c : Ctx) (r : ObjRec) (root : Nat) :
    (s.withAgenda ag).mapPages c r root = pairWithAgenda ag (s.mapPages c r root) := by
  unfold State.mapPages
  rw [show (s.withAgenda ag, c.nextTable) = pairWithAgenda ag (s, c.nextTable) from rfl]
  exact List.foldl_hom (pairWithAgenda ag) fun x i => x.1.mapDeep_withAgenda ag _ _ _ _ _

theorem State.mapRec_withAgenda (ctx : Nat) (obj : W64) : (s.withAgenda ag).mapRec ctx obj = (s.mapRec ctx obj).withAgenda ag := by
  unfold State.mapRec
  rw [show (s.withAgenda ag).ctx? = s.ctx? from rfl]
  split
  next => rfl
  next c _ =>
    split
    next => rfl
    next r _ =>
      dsimp only
      split
      · rfl
      · exact (congrArg (fun x : State × Nat => x.1.modCtx ctx fun c => { c with nextTable := x.2 })
          (s.mapPages_withAgenda ag c r _)).trans rfl

theorem State.newRec_withAgenda (ctx : Nat) (d : DirEntry) : (s.withAgenda ag).newRec ctx d = (s.newRec ctx d).map (·.withAgenda ag) := by
  unfold State.newRec
  rw [show (s.withAgenda ag).ctx? = s.ctx? from rfl, show (s.withAgenda ag).runFor = s.runFor from rfl]
  cases s.ctx? ctx with
  | none => rfl
  | some c =>
    dsimp only [Option.bind_some]
    rw [apply_ite (Option.map fun u : State => u.withAgenda ag), Option.map_map]
    refine if_congr Iff.rfl rfl (congrArg (Option.map · _) (funext fun run => ?_))
    rw [show (s.withAgenda ag).newPages run _ = (s.newPages run (spanOf d.size)).withAgenda ag from rfl, State.fillHomes_withAgenda,
      show ∀ (u : State) f, (u.withAgenda ag).modCtx ctx f = (u.modCtx ctx f).withAgenda ag from fun _ _ => rfl,
      State.mapRec_withAgenda]
    rfl

end
end Sys2Proof.Machine

/-! SUPPORT. The system services, completions and with them the package's own operations, in states that differ in the agenda alone. -/

namespace Sys2Proof.Machine

section
variable (ag : List Instr) (s : State)

/-! ## Services -/

theorem State.needRec_withAgenda (ctx : Nat) (d : DirEntry) : (s.withAgenda ag).needRec ctx d = carried ag (s.needRec ctx d) := by
  unfold State.needRec
  rw [show (s.withAgenda ag).ctx? = s.ctx? from rfl, State.newRec_withAgenda]
  split
  · rfl
  · cases s.newRec ctx d with
    | none => rfl
    | some u =>
      simp only [Option.map_some, Option.bind_some, carried, Option.map_map]
      rfl

theorem State.isSome_bringIn_withAgenda (op : Instr) (who : Who) (pages : List Nat) :
    ((s.withAgenda ag).bringIn op who pages).isSome = (s.bringIn op who pages).isSome := by
  unfold State.bringIn
  simp only [apply_ite Option.isSome]
  rfl

/-- An action on an object is due, whatever the agenda. -/
theorem State.isSome_objectAction_withAgenda (dl : Delivery) (action : Nat) (ps : List Piece) (d : DirEntry) :
    ((s.withAgenda ag).objectAction dl action ps d).isSome = (s.objectAction dl action ps d).isSome := by
  unfold State.objectAction
  dsimp only
  rw [State.needRec_withAgenda, show (s.withAgenda ag).wave = s.wave from rfl, show (s.withAgenda ag).ctx? = s.ctx? from rfl]
  split
  next => cases s.needRec (s.wave dl.wave).ctx d <;> rfl
  next =>
    split
    next => rfl
    next r _ =>
      rw [State.evictPages_withAgenda]
      dsimp only [pairWithAgenda]
      split
      · rfl
      · rw [show (s.withAgenda ag).evictDue = s.evictDue from rfl]
        split <;> rfl
  next =>
    cases s.needRec (s.wave dl.wave).ctx d with
    | none => rfl
    | some x =>
      simp only [carried, Option.map_some]
      rw [show (x.1.withAgenda ag).allPresent = x.1.allPresent from rfl]
      split
      · rfl
      · rw [Option.isSome_map, Option.isSome_map, State.isSome_bringIn_withAgenda]
        rfl
  next => split <;> rfl
  next => rfl
  next =>
    split
    · rfl
    · cases s.needRec (s.wave dl.wave).ctx d <;> rfl

/-- A service that reads or writes at a pointer is due, whatever the agenda, if its work is. -/
theorem State.isSome_withPtr_withAgenda (w l va size align : Nat) (mode : Mode) (k k' : List Piece → Served)
    (bad bad' : Nat → State × List W32)
    (hk : ∀ ps, (k' ps).isSome = (k ps).isSome) :
    ((s.withAgenda ag).withPtr w l va size align mode k' bad').isSome = (s.withPtr w l va size align mode k bad).isSome := by
  unfold State.withPtr
  rw [State.svcPtr_withAgenda, show (s.withAgenda ag).joined = s.joined from rfl, show (s.withAgenda ag).recallDue = s.recallDue from rfl]
  split
  · exact hk _
  · rfl
  · split <;> rfl
  · split <;> rfl
  · rfl

theorem State.isSome_serveLaunch_withAgenda (d : Delivery) : ((s.withAgenda ag).serveLaunch d).isSome = (s.serveLaunch d).isSome := by
  unfold State.serveLaunch
  rw [show (s.withAgenda ag).submitting = s.submitting from rfl]
  split
  · rfl
  · exact s.isSome_withPtr_withAgenda ag _ _ _ _ _ _ _ _ _ _ fun _ =>
      Eq.trans (b := true) (by dsimp only; split <;> rfl) (by dsimp only; split <;> rfl)

theorem State.isSome_serveAlloc_withAgenda (d : Delivery) : ((s.withAgenda ag).serveAlloc d).isSome = (s.serveAlloc d).isSome := by
  refine s.isSome_withPtr_withAgenda ag _ _ _ _ _ _ _ _ _ _ fun ps => ?_
  rw [show (s.withAgenda ag).world = s.world from rfl, show (s.withAgenda ag).waveWorld = s.waveWorld from rfl,
    show (s.withAgenda ag).thread = s.thread from rfl, show (s.withAgenda ag).nextSerialOf = s.nextSerialOf from rfl]
  split
  · rfl
  · split
    · rfl
    · split <;> rfl

theorem State.isSome_serveConsole_withAgenda (d : Delivery) : ((s.withAgenda ag).serveConsole d).isSome = (s.serveConsole d).isSome := by
  unfold State.serveConsole
  rw [show (s.withAgenda ag).thread = s.thread from rfl]
  dsimp only
  split
  · rfl
  · exact s.isSome_withPtr_withAgenda ag _ _ _ _ _ _ _ _ _ _ fun _ => rfl

theorem State.isSome_serveObject_withAgenda (d : Delivery) : ((s.withAgenda ag).serveObject d).isSome = (s.serveObject d).isSome := by
  refine s.isSome_withPtr_withAgenda ag _ _ _ _ _ _ _ _ _ _ fun ps => ?_
  rw [show (s.withAgenda ag).thread = s.thread from rfl, show (s.withAgenda ag).ctx? = s.ctx? from rfl]
  split
  · rfl
  · dsimp only
    rw [show (s.withAgenda ag).mem = s.mem from rfl, show (s.withAgenda ag).wave = s.wave from rfl]
    split
    · rfl
    · exact s.isSome_objectAction_withAgenda ag _ _ _ _

theorem State.isSome_systemService_withAgenda (d : Delivery) :
    ((s.withAgenda ag).systemService d).isSome = (s.systemService d).isSome := by
  unfold State.systemService
  rw [show (s.withAgenda ag).isBind = s.isBind from rfl]
  simp only [apply_ite Option.isSome, State.isSome_serveLaunch_withAgenda, State.isSome_serveAlloc_withAgenda,
    State.isSome_serveConsole_withAgenda, State.isSome_serveObject_withAgenda]
  rfl

theorem State.isSome_service_withAgenda (d : Delivery) :
    ((s.withAgenda ag).service d State.systemService).isSome = (s.service d State.systemService).isSome := by
  unfold State.service
  dsimp only
  split
  · rw [Option.isSome_map, Option.isSome_map, State.isSome_systemService_withAgenda]
  · split <;> rfl

theorem State.serviceEvent_withAgenda : (s.withAgenda ag).serviceEvent = s.serviceEvent := by
  unfold State.serviceEvent
  simp only [State.isSome_service_withAgenda]
  rfl

/-! ## Launches -/

theorem State.raisePennant_withAgenda (n : Nat) (l : Launch) :
    (s.withAgenda ag).raisePennant n l = pairWithAgenda ag (s.raisePennant n l) := by
  unfold State.raisePennant
  rw [State.access_withAgenda, show (s.withAgenda ag).fabric = s.fabric from rfl]
  dsimp only
  split
  · rfl
  · split
    · rfl
    · split
      · rw [State.count_withAgenda, State.store_withAgenda]
        rfl
      · rfl
      · unfold State.requestFor
        simp only [Option.map_map]
        rw [show (s.withAgenda ag).freeTag = s.freeTag from rfl]
        cases s.freeTag kernelTile <;> rfl
      · rw [State.postOnce_withAgenda]
        rfl
      · rw [State.recallHome_withAgenda]
        rfl
      · rfl
      · rfl

theorem State.raisePennant_agenda (n : Nat) (l : Launch) : (s.raisePennant n l).1.agenda = s.agenda :=
  congrArg (fun x => x.1.agenda) (s.raisePennant_withAgenda s.agenda n l)

/-- Two states of one agenda are alike if they are alike under another one. -/
theorem State.withAgenda_bne {u : State} (h : u.agenda = s.agenda) : (u.withAgenda ag != s.withAgenda ag) = (u != s) := by
  have hiff : u.withAgenda ag = s.withAgenda ag ↔ u = s := by
    refine ⟨fun he => ?_, fun he => he ▸ rfl⟩
    calc u = (u.withAgenda ag).withAgenda u.agenda := rfl
      _ = (s.withAgenda ag).withAgenda s.agenda := by rw [he, h]
      _ = s := rfl
  rw [bne, bne, Bool.not_inj_iff, Bool.eq_iff_iff, beq_iff_eq, beq_iff_eq, hiff]

theorem State.launchEvent_withAgenda : (s.withAgenda ag).launchEvent = s.launchEvent := by
  unfold State.launchEvent
  rw [State.eligibilityDue_withAgenda, show (s.withAgenda ag).shareEnded = s.shareEnded from rfl,
    show (s.withAgenda ag).launches = s.launches from rfl]
  funext i
  split
  next => rfl
  next l _ =>
    rw [State.raisePennant_withAgenda]
    have hagenda := s.raisePennant_agenda i l
    generalize s.raisePennant i l = x at hagenda
    obtain ⟨u, _ | c⟩ := x
    · simp only [pairWithAgenda]
      rw [s.withAgenda_bne ag hagenda]
    · rfl

/-! ## The package's own operations -/

theorem State.event_withAgenda : (s.withAgenda ag).event = s.event := by
  unfold State.event
  rw [State.waveEvent_withAgenda, State.serviceEvent_withAgenda, State.tileEvent_withAgenda, State.exchangeEvent_withAgenda,
    State.launchEvent_withAgenda, State.roundEvent_withAgenda, State.wakeEvent_withAgenda, State.hostEvent_withAgenda]
  rfl

theorem State.ownOp_withAgenda : (s.withAgenda ag).ownOp = s.ownOp := by
  unfold State.ownOp
  rw [State.event_withAgenda, State.cycleOp_withAgenda]

end
end Sys2Proof.Machine

/-! SUPPORT. One step: the instruction of the head slot, a word that is no instruction, or the next operation (R46, R52, R61, R73). -/

namespace Sys2Proof.Machine

/-! ## What is settled after an instruction (R15, R316) -/

theorem State.refile_of_moved_nil {s : State} {w : Nat} (h : (s.wave w).moved = []) : s.refile w = .ok s := by
  simp [State.refile, h]

theorem State.settle_of_fits {s : State} {w : Nat} (hcost : (s.wave w).cost ≤ s.fileRoom w) (hmoved : (s.wave w).moved = [])
    (old : Wave) : s.settle old w = some s := by
  simp [State.settle, hcost, hmoved]

theorem State.keepFrame_of_not_frame (s : State) (w l : Nat) {a : Area} (h : ∀ d, a.use ≠ .frame d) : s.keepFrame w l a = s := by
  unfold State.keepFrame
  split
  next d hd => exact absurd hd (h d)
  next => rfl

/-- No thread's frames are spilled. -/
def State.noneSpilled (s : State) : Prop := ∀ wv ∈ s.waves, ∀ th ∈ wv.threads, ∀ a ∈ th.areas, ∀ d, a.use ≠ .frame d

theorem State.noneSpilled.area {s : State} (h : s.noneSpilled) {w l : Nat} (hw : w < s.waves.length)
    (hl : l < (s.wave w).threads.length) {a : Area} (ha : a ∈ (s.thread w l).areas) (d : Nat) : a.use ≠ .frame d := by
  refine h (s.wave w) ?_ (s.thread w l) ?_ a ha d
  · simp [State.wave, List.getD_eq_getElem?_getD, List.getElem?_eq_getElem hw]
  · simp [State.thread, Wave.thread, List.getD_eq_getElem?_getD, List.getElem?_eq_getElem hl]

theorem State.keepFrames_of_noneSpilled {s : State} (h : s.noneSpilled) : s.keepFrames = s := by
  refine foldl_eq_self _ _ _ fun w hw => foldl_eq_self _ _ _ fun l hl => foldl_eq_self _ _ _ fun a ha => ?_
  exact s.keepFrame_of_not_frame w l (h.area (List.mem_range.mp hw) (List.mem_range.mp hl) ha)

theorem State.settled_eq_self (s : State) (sl : Slot) {t : State} (hcost : (t.wave sl.wave).cost ≤ t.fileRoom sl.wave)
    (hmoved : (t.wave sl.wave).moved = []) (hframes : t.noneSpilled) : s.settled sl t = t := by
  unfold State.settled
  rw [State.settle_of_fits hcost hmoved]
  exact State.keepFrames_of_noneSpilled hframes

/-! ## One step from the head slot -/

section
variable {s : State} {sl : Slot} {w : IWord} (hslot : s.slots.head? = some sl) (hword : s.slotWord sl = .word w)
include hslot hword

theorem step_of_refile_ok {i : Instr} {s1 : State} (hdecode : decode w = .ok i) (hrefile : s.refile sl.wave = .ok s1) :
    step s = s1.afterSlot sl (exec i s1) := by
  obtain ⟨rest, hslots⟩ := List.head?_eq_some_iff.mp hslot
  simp only [step, hslots, hword, hdecode, hrefile]

theorem step_of_refile_bad {i : Instr} (hdecode : decode w = .ok i) (hrefile : s.refile sl.wave = .bad) :
    step s = .next (s.spoilt sl) := by
  obtain ⟨rest, hslots⟩ := List.head?_eq_some_iff.mp hslot
  simp only [step, hslots, hword, hdecode, hrefile]

theorem step_of_refile_wait {i : Instr} {wt : Wait} {post : Option FaultRec} (hdecode : decode w = .ok i)
    (hrefile : s.refile sl.wave = .wait wt post) : step s = .next (s.detain sl wt post) := by
  obtain ⟨rest, hslots⟩ := List.head?_eq_some_iff.mp hslot
  simp only [step, hslots, hword, hdecode, hrefile]

theorem step_of_decode_error {e : DecodeError} (hdecode : decode w = .error e) : step s = .next (s.illegalWord sl w) := by
  obtain ⟨rest, hslots⟩ := List.head?_eq_some_iff.mp hslot
  simp only [step, hslots, hword, hdecode]

end

theorem step_of_slots_nil {s : State} (h : s.slots = []) : step s = settleOut s.waves (exec s.nextOp.1 s.nextOp.2) := by
  simp only [step, h]

/-! ## Trap entries of a word that is no instruction (R61, R176) -/

/-- An entry with one lane more, in its place. -/
def TrapEntry.add (e : TrapEntry) (x : TrapLane) : TrapEntry :=
  { e with lanes := e.lanes.takeWhile (fun y => decide (y.lane < x.lane)) ++ x :: e.lanes.dropWhile fun y => decide (y.lane < x.lane) }

theorem TrapEntry.join_cons (e : TrapEntry) (x : TrapLane) (more : List TrapLane) : e.join (x :: more) = (e.add x).join more := rfl

theorem TrapEntry.mem_join_of_mem {e : TrapEntry} {more : List TrapLane} {x : TrapLane} (h : x ∈ more) : x ∈ (e.join more).lanes := by
  induction more generalizing e with
  | nil => exact absurd h List.not_mem_nil
  | cons y more ih =>
    rw [TrapEntry.join_cons]
    rcases List.mem_cons.mp h with rfl | h
    · exact TrapEntry.mem_join (List.mem_append_right _ List.mem_cons_self)
    · exact ih h

theorem TrapEntry.eq_of_same {a b : TrapEntry} (h : a.same b = true) : a.pc = b.pc ∧ a.kind = b.kind := by
  simp only [TrapEntry.same, Bool.and_eq_true, beq_iff_eq] at h
  exact ⟨h.1.2, h.2⟩

/-- An entry put into the queue is found there, or has joined one of its kind and place. -/
theorem putEntry_has (q : List TrapEntry) (e : TrapEntry) :
    ∃ x ∈ putEntry q e, x.kind = e.kind ∧ x.pc = e.pc ∧ ∀ y ∈ e.lanes, y ∈ x.lanes := by
  unfold putEntry
  split
  next h =>
    obtain ⟨x, hx, hsame⟩ := List.any_eq_true.mp h
    obtain ⟨hpc, hkind⟩ := TrapEntry.eq_of_same hsame
    exact ⟨x.join e.lanes, List.mem_map.mpr ⟨x, hx, if_pos hsame⟩, hkind, hpc, fun y hy => TrapEntry.mem_join_of_mem hy⟩
  next => exact ⟨e, List.mem_append_right _ List.mem_cons_self, rfl, rfl, fun y hy => hy⟩

theorem Wave.raise_has_entry (wv : Wave) (g : Grp) (k : TrapKind) {lanes : List Nat} (h : lanes ≠ []) :
    ∃ x ∈ (wv.raise g k lanes).trapq, x.kind = k ∧ x.pc = g.pc ∧ ∀ l ∈ lanes, l ∈ x.lanes.map (·.lane) := by
  unfold Wave.raise
  rw [if_neg (by simpa using h)]
  obtain ⟨x, hx, hkind, hpc, hlanes⟩ := putEntry_has wv.trapq
    { pc := g.pc, kind := k, issued := g.issued, delivered := false, begun := false, owed := [], lanes := lanes.map fun l =>
      { lane := l, cont := (wv.thread l).pc, redo := g.redo l :: (wv.thread l).redo.map fun r => { r with first := false } } }
  exact ⟨x, hx, hkind, hpc, fun l hl => List.mem_map.mpr ⟨_, hlanes _ (List.mem_map.mpr ⟨l, hl, rfl⟩), rfl⟩⟩

theorem Wave.raise_traps (wv : Wave) (g : Grp) (k : TrapKind) {lanes : List Nat} {l : Nat} (hl : l ∈ lanes) (hin : l < wv.threads.length)
    (hreplay : g.replay = none) : ((wv.raise g k lanes).thread l).wait = .trapped ∧ ((wv.raise g k lanes).thread l).pc = g.pc := by
  unfold Wave.raise
  rw [if_neg (by simpa using List.ne_nil_of_mem hl)]
  dsimp only
  generalize putEntry wv.trapq _ = q
  rw [Wave.thread_modLanes_mem { wv with trapq := q } _ hin hl, hreplay]
  exact ⟨rfl, rfl⟩

theorem State.length_waves_advance (s : State) (g : Grp) : (s.advance g).waves.length = s.waves.length := length_modifyAt ..

theorem State.wave_illegalWord {s : State} {sl : Slot} (w : IWord) (hreplay : sl.replay = none) (hw : sl.wave < s.waves.length) :
    ((s.illegalWord sl w).wave sl.wave) =
      ((s.advance (s.slotGroup sl w)).wave sl.wave).raise (s.slotGroup sl w) .illegal (s.slotGroup sl w).all := by
  unfold State.illegalWord
  rw [State.finish_none _ _ hreplay]
  exact State.wave_modWave _ _ _ ((State.length_waves_advance s _).symm ▸ hw)

theorem State.length_threads_advance {s : State} {g : Grp} (hw : g.w < s.waves.length) :
    ((s.advance g).wave g.w).threads.length = (s.wave g.w).threads.length := by
  unfold State.wave State.advance
  rw [getD_modifyAt _ _ _ _ _ hw, if_pos rfl]
  exact Wave.length_modLanes _ _ _

/-- A word that is no instruction traps ILLEGAL in every lane of its group (R61, R73). -/
theorem illegalWord_traps {s : State} {sl : Slot} {w : IWord} (hw : sl.wave < s.waves.length) (hall : (s.slotGroup sl w).all ≠ [])
    (hreplay : sl.replay = none) (hin : ∀ l ∈ (s.slotGroup sl w).all, l < (s.wave sl.wave).threads.length) :
    (s.illegalWord sl w).mem = s.mem ∧
    (∀ l ∈ (s.slotGroup sl w).all,
      ((s.illegalWord sl w).thread sl.wave l).wait = .trapped ∧ ((s.illegalWord sl w).thread sl.wave l).pc = sl.pc) ∧
    ∃ x ∈ ((s.illegalWord sl w).wave sl.wave).trapq, x.kind = .illegal ∧ x.pc = sl.pc ∧
      ∀ l ∈ (s.slotGroup sl w).all, l ∈ x.lanes.map (·.lane) := by
  refine ⟨?_, fun l hl => ?_, ?_⟩
  · unfold State.illegalWord
    rw [State.finish_none _ _ hreplay]
    rfl
  · unfold State.thread
    rw [State.wave_illegalWord w hreplay hw]
    exact Wave.raise_traps _ _ _ hl ((State.length_threads_advance (g := s.slotGroup sl w) hw).symm ▸ hin l hl) hreplay
  · rw [State.wave_illegalWord w hreplay hw]
    exact Wave.raise_has_entry _ _ _ hall

/-! ## The next operation (R378) -/

theorem State.nextOp_of_cons {s : State} {i : Instr} {rest : List Instr} (hagenda : s.agenda = i :: rest) (h : s.hides i = false) :
    s.nextOp = (i, s.withAgenda rest) := by
  unfold State.nextOp
  rw [hagenda, List.dropWhile_cons_of_neg (by simp [h])]
  rfl

/-- What the boot ROM hides is passed over. -/
theorem State.nextOp_of_hidden {s : State} {i : Instr} {rest : List Instr} (hagenda : s.agenda = i :: rest) (h : s.hides i = true) :
    s.nextOp = (s.withAgenda rest).nextOp := by
  unfold State.nextOp
  rw [hagenda, List.dropWhile_cons_of_pos h, State.ownOp_withAgenda]
  rfl

theorem State.nextOp_of_nil {s : State} (hagenda : s.agenda = []) : s.nextOp = (s.ownOp, s) := by
  unfold State.nextOp
  rw [hagenda, List.dropWhile_nil]
  exact congrArg (fun ag => (s.ownOp, s.withAgenda ag)) hagenda.symm

/-! ## The word of a slot (R43, R46, R146, R334) -/

section
variable {line : Nat} {pc : W64}

theorem fetchedLine_of_fails (h : lineCheck line = false) : fetchedLine line pc = .trap .parity := by
  simp [fetchedLine, h]

theorem fetchedLine_of_reserved (h : lineCheck line = true) (hreserved : lineReserved line = true) :
    fetchedLine line pc = .trap .illegal := by
  simp [fetchedLine, h, hreserved]

theorem fetchedLine_of_good (h : lineCheck line = true) (hreserved : lineReserved line = false) :
    fetchedLine line pc = .word (lineWord line (pcSlot pc)) := by
  simp [fetchedLine, h, hreserved]

end

theorem State.slotWord_of_fetched {s : State} {sl : Slot} {line : W64} {x : BitVec 512} (hreplay : sl.replay = none)
    (hfetched : (s.wave sl.wave).fetched = some (line, x)) (hline : line.toNat = linePc sl.pc) :
    s.slotWord sl = fetchedLine x.toNat sl.pc := by
  simp only [State.slotWord, hreplay, hfetched, if_pos hline]

theorem State.slotWord_of_access {s : State} {sl : Slot} {c : Ctx} {r : ObjRec} {ps : List Piece} {pad} (hreplay : sl.replay = none)
    (hfetched : (s.wave sl.wave).fetched = none)
    (haccess : s.access (s.who sl.wave (sl.lanes.headD 0) 2) (linePc sl.pc) 64 64 .fetch = .ok ps pad)
    (hctx : s.ctx? (s.who sl.wave (sl.lanes.headD 0) 2).ctx = some c) (hrec : c.codeRec sl.pc = some r) :
    s.slotWord sl = fetchedLine (s.lineVersion (s.codePa (s.who sl.wave (sl.lanes.headD 0) 2).ctx r (linePc sl.pc))) sl.pc := by
  simp only [State.slotWord, hreplay, hfetched, State.fetch, haccess, hctx, Option.bind_some, hrec]

/-! ## A step -/

/-- Settles O3. The slot's cases are the branches of `step`; an agenda whose head is hidden is one without it, for what the package does
of its own does not depend on the agenda. -/
theorem stepRunsTheDecodedInstruction : Obligations.StepRunsTheDecodedInstruction := by
  unfold Obligations.StepRunsTheDecodedInstruction
  refine ⟨?_, ?_, ?_, ?_, ?_, ?_, ?_⟩
  · intro s sl w i hslot hword hdecode
    refine ⟨State.refile_of_moved_nil, fun s1 hrefile => ?_, step_of_refile_bad hslot hword hdecode,
      fun wt post => step_of_refile_wait hslot hword hdecode⟩
    have hstep := step_of_refile_ok hslot hword hdecode hrefile
    refine ⟨hstep, fun t ht => ?_⟩
    rw [ht] at hstep
    exact ⟨hstep, fun hcost hmoved hframes => hstep.trans (congrArg Host.Outcome.next (s1.settled_eq_self sl hcost hmoved hframes))⟩
  · intro s sl w e hslot hword hdecode all hw hall hreplay hin
    exact ⟨_, step_of_decode_error hslot hword hdecode, illegalWord_traps hw hall hreplay hin⟩
  · intro s i rest hslots hagenda hshown
    rw [step_of_slots_nil hslots, State.nextOp_of_cons hagenda hshown]
    rfl
  · intro s i rest hslots hagenda hhidden
    rw [step_of_slots_nil hslots, State.nextOp_of_hidden hagenda hhidden]
    exact (step_of_slots_nil (s := s.withAgenda rest) hslots).symm
  · intro s hslots hagenda
    rw [step_of_slots_nil hslots, State.nextOp_of_nil hagenda]
    rfl
  · intro s sl line x hreplay hfetched hline
    exact State.slotWord_of_fetched hreplay hfetched hline
  · intro s sl c r ps pad hreplay hfetched who line haccess hctx hrec
    rw [State.slotWord_of_access hreplay hfetched haccess hctx hrec]
    exact ⟨fetchedLine_of_fails, fetchedLine_of_reserved, fetchedLine_of_good⟩

end Sys2Proof.Machine

/-! SUPPORT. Floating-point instructions (R128 to R134, R138 to R140): each meaning is one of the shared forms, a function of the elements of
a lane's operands, and a form completes with that function's value and flags. -/

namespace Sys2Proof.Machine

/-! ## What the shared forms compute -/

section
variable {i : Instr}

theorem computes_lanesOp (val : W128 → W128 → W128 → W128) (tag : Grp → Nat → Tag)
    (h : ∀ s, exec i s = lanesOp i s (fun g l => val (g.a l) (g.b l) (g.c l)) tag) : Computes i val :=
  gives_lanesOp i _ tag h

theorem computesF_flagsOp (val : W128 → W128 → W128 → W128 × BitVec 5)
    (h : ∀ s, exec i s = flagsOp i s fun g l => val (g.a l) (g.b l) (g.c l)) : ComputesF i val :=
  gives_flagsOp i _ h

theorem computesF_fltOp (f : VForm) (x : Nat → Nat → FRes) (h : ∀ s, exec i s = fltOp i f x s) :
    ComputesF i fun a b _ => perElem f.ty fun e => x (elem f.ty a e) (elem f.ty b e) :=
  computesF_flagsOp _ h

theorem computesF_fltImmOp (f : IForm) (x : Nat → Nat → FRes) (h : ∀ s, exec i s = fltImmOp i f x s) :
    ComputesF i fun a _ _ => perElem f.ty fun e => x (elem f.ty a e) (elem f.ty (fimmOf f.ty f.imm) e) :=
  computesF_flagsOp _ h

theorem computesF_fltOp1 (f : VForm) (x : Nat → FRes) (h : ∀ s, exec i s = fltOp1 i f x s) :
    ComputesF i fun a _ _ => perElem f.ty fun e => x (elem f.ty a e) :=
  computesF_flagsOp _ h

end

/-! ## NaNs that raise nothing (R130) -/

/-- R77, R130: an operation on the sign bit gives the canonical NaN for a NaN, and no flag. -/
def signOp (t : Ty) (x : Nat → Nat) (a : Nat) : FRes := if (fdecode t a).isNan then (nanBits t, 0) else (x a, 0)

theorem nanRes_quiet (t : Ty) : nanRes t false = (nanBits t, 0) := rfl

theorem exec_fabs (f : VForm) (s : State) :
    exec (.fabs f) s = fltOp1 (.fabs f) f (signOp f.ty fun a => a % 2 ^ (elemBits f.ty - 1)) s := by
  show execFabs f s = _
  simp only [execFabs, nanRes_quiet]
  rfl

theorem exec_fneg (f : VForm) (s : State) :
    exec (.fneg f) s = fltOp1 (.fneg f) f (signOp f.ty fun a => a ^^^ 2 ^ (elemBits f.ty - 1)) s := by
  show execFneg f s = _
  simp only [execFneg, nanRes_quiet]
  rfl

/-! ## The instructions -/

/-- Settles O14: each instruction is the shared form named in its case, with the operation on elements that the spec gives it. -/
theorem floatArithmeticResults : Obligations.FloatArithmeticResults := by
  unfold Obligations.FloatArithmeticResults
  refine ⟨?fadd, ?faddImm, ?fsub, ?fsubImm, ?fmul, ?fmulImm, ?ffma, ?fmin, ?fminImm, ?fmax, ?fmaxImm, ?fabs, ?fneg, ?fscale, ?frnd,
    ?fcmp, ?fcmpImm, ?fclass, ?cvt⟩
  case fadd => exact fun f => computesF_fltOp f (bitsAdd f.ty f.rnd) fun _ => rfl
  case faddImm => exact fun f => computesF_fltImmOp f (bitsAdd f.ty f.rnd) fun _ => rfl
  case fsub => exact fun f => computesF_fltOp f (bitsSub f.ty f.rnd) fun _ => rfl
  case fsubImm => exact fun f => computesF_fltImmOp f (bitsSub f.ty f.rnd) fun _ => rfl
  case fmul => exact fun f => computesF_fltOp f (bitsMul f.ty f.rnd) fun _ => rfl
  case fmulImm => exact fun f => computesF_fltImmOp f (bitsMul f.ty f.rnd) fun _ => rfl
  case ffma => exact fun f => computesF_flagsOp _ fun _ => rfl
  case fmin => exact fun f => computesF_fltOp f (bitsMinMax f.ty false) fun _ => rfl
  case fminImm => exact fun f => computesF_fltImmOp f (bitsMinMax f.ty false) fun _ => rfl
  case fmax => exact fun f => computesF_fltOp f (bitsMinMax f.ty true) fun _ => rfl
  case fmaxImm => exact fun f => computesF_fltImmOp f (bitsMinMax f.ty true) fun _ => rfl
  case fabs => exact fun f => computesF_fltOp1 f (signOp f.ty fun a => a % 2 ^ (elemBits f.ty - 1)) (exec_fabs f)
  case fneg => exact fun f => computesF_fltOp1 f (signOp f.ty fun a => a ^^^ 2 ^ (elemBits f.ty - 1)) (exec_fneg f)
  case fscale => exact fun f => computesF_flagsOp _ fun _ => rfl
  case frnd => exact fun f => computesF_fltOp1 f (bitsIntegral f.ty f.rnd) fun _ => rfl
  case fcmp => exact fun f => computesF_flagsOp (fun a b _ => cmpRes f.ty f.sub a b) fun _ => rfl
  case fcmpImm =>
    exact fun f => computesF_flagsOp (fun a _ _ => cmpRes f.ty (f.imod.extractLsb' 0 4) a (fimmOf f.ty f.imm)) fun _ => rfl
  case fclass => exact fun f => computes_lanesOp _ _ fun _ => rfl
  case cvt => exact fun f => computesF_flagsOp (fun a b _ => convert f a b) fun _ => rfl

end Sys2Proof.Machine

/-! SUPPORT. Integer, bit, move and predicate instructions (R104 to R124): each meaning is one of the shared forms, and a form completes with
a function of a lane's operands. -/

namespace Sys2Proof.Machine

/-! ## What the shared forms of integers and bits compute -/

section
variable {i : Instr}

theorem computes_intOp (f : VForm) (x : Int → Int → Int) (h : ∀ s, exec i s = intOp i f x s) :
    Computes i fun a b _ => narrow f.ty f.sat (x (tval f.ty a) (tval f.ty b)) :=
  computes_lanesOp _ _ h

theorem computes_intImmOp (f : IForm) (x : Int → Int → Int) (h : ∀ s, exec i s = intImmOp i f x s) :
    Computes i fun a _ _ => narrow f.ty f.sat (x (tval f.ty a) (tval f.ty (immOf f.ty f.imm))) :=
  computes_lanesOp _ _ h

theorem computes_intOp3 (f : VForm) (x : Int → Int → Int → Int) (h : ∀ s, exec i s = intOp3 i f x s) :
    Computes i fun a b c => narrow f.ty f.sat (x (tval f.ty a) (tval f.ty b) (tval f.ty c)) :=
  computes_lanesOp _ _ h

theorem computes_sumOp (f : VForm) (x : Int → Int → Int) (h : ∀ s, exec i s = sumOp i f.ty f.sat Grp.b x s) :
    Computes i fun a b _ => narrow f.ty f.sat (x (tval f.ty a) (tval f.ty b)) :=
  computes_lanesOp _ _ h

theorem computes_sumImmOp (f : IForm) (x : Int → Int → Int)
    (h : ∀ s, exec i s = sumOp i f.ty f.sat (fun _ _ => immOf f.ty f.imm) x s) :
    Computes i fun a _ _ => narrow f.ty f.sat (x (tval f.ty a) (tval f.ty (immOf f.ty f.imm))) :=
  computes_lanesOp _ _ h

theorem computes_bitOp (x : W128 → W128 → W128) (h : ∀ s, exec i s = bitOp i x s) : Computes i fun a b _ => x a b :=
  computes_lanesOp _ _ h

theorem computes_bitImmOp (f : IForm) (x : W128 → W128 → W128) (h : ∀ s, exec i s = bitImmOp i f x s) :
    Computes i fun a _ _ => x a (immOf f.ty f.imm) :=
  computes_lanesOp (fun a _ _ => x a (immOf f.ty f.imm)) _ h

theorem computes_shiftOp (f : VForm) (x : Nat → W128 → Nat → W128) (h : ∀ s, exec i s = shiftOp i f x s) :
    Computes i fun a b _ => x f.ty.bits a (lowNat b 32) :=
  computes_lanesOp (fun a b _ => x f.ty.bits a (lowNat b 32)) _ h

theorem computes_shiftImmOp (f : IForm) (x : Nat → W128 → Nat → W128) (h : ∀ s, exec i s = shiftImmOp i f x s) :
    Computes i fun a _ _ => x f.ty.bits a f.imm.toNat :=
  computes_lanesOp (fun a _ _ => x f.ty.bits a f.imm.toNat) _ h

end

/-! ## Integer arithmetic (R104 to R106) -/

theorem divide_quotient (t : Ty) (a b : Int) : (divide t a b).1 =
    if b = 0 then (if t.signed then -1 else 2 ^ t.bits - 1) else if t.signed ∧ a = tmin t ∧ b = -1 then a else a.tdiv b := by
  unfold divide
  split
  · rfl
  · split <;> rfl

theorem divide_remainder (t : Ty) (a b : Int) : (divide t a b).2 =
    if b = 0 then a else if t.signed ∧ a = tmin t ∧ b = -1 then 0 else a.tmod b := by
  unfold divide
  split
  · rfl
  · split
    · rfl
    · rw [Int.tmod_def, Int.mul_comm b]

/-- Settles O11: each instruction is a shared form; the absolute value and the remainder are the library's. -/
theorem integerArithmeticResults : Obligations.IntegerArithmeticResults := by
  unfold Obligations.IntegerArithmeticResults
  simp only [Int.abs_eq_natAbs, ← divide_quotient, ← divide_remainder]
  refine ⟨?iadd, ?iaddImm, ?isub, ?isubImm, ?imul, ?imulImm, ?imad, ?imulhi, ?imin, ?iminImm, ?imax, ?imaxImm, ?iabs, ?ineg, ?iadd3,
    ?idiv, ?irem⟩
  case iadd => exact fun f => computes_sumOp f (· + ·) fun _ => rfl
  case iaddImm => exact fun f => computes_sumImmOp f (· + ·) fun _ => rfl
  case isub => exact fun f => computes_sumOp f (· - ·) fun _ => rfl
  case isubImm => exact fun f => computes_sumImmOp f (· - ·) fun _ => rfl
  case imul => exact fun f => computes_intOp f (· * ·) fun _ => rfl
  case imulImm => exact fun f => computes_intImmOp f (· * ·) fun _ => rfl
  case imad => exact fun f => computes_intOp3 f (fun a b c => a * b + c) fun _ => rfl
  case imulhi => exact fun f => computes_intOp f (fun a b => a * b / 2 ^ f.ty.bits) fun _ => rfl
  case imin => exact fun f => computes_intOp f min fun _ => rfl
  case iminImm => exact fun f => computes_intImmOp f min fun _ => rfl
  case imax => exact fun f => computes_intOp f max fun _ => rfl
  case imaxImm => exact fun f => computes_intImmOp f max fun _ => rfl
  case iabs => exact fun f => computes_intOp f (fun a _ => a.natAbs) fun _ => rfl
  case ineg => exact fun f => computes_intOp f (fun a _ => -a) fun _ => rfl
  case iadd3 => exact fun f => computes_intOp3 f (fun a b c => a + b + c) fun _ => rfl
  case idiv => exact fun f => computes_intOp f (fun a b => (divide f.ty a b).1) fun _ => rfl
  case irem => exact fun f => computes_intOp f (fun a b => (divide f.ty a b).2) fun _ => rfl

/-! ## Selection, fields and counts (R108 to R110, R113, R114) -/

/-- The count of R114 takes its low bits once more, which changes nothing. -/
theorem leadingZeros_lowNat (a : W128) (n : Nat) :
    leadingZeros (lowNat a n) n = if lowNat a n = 0 then n else n - 1 - Nat.log2 (lowNat a n) := by
  have hlow : lowNat a n % 2 ^ n = lowNat a n := Nat.mod_mod _ _
  rw [leadingZeros, hlow]

/-- Settles O12: each instruction writes a function of its lane's operands. A bit of an operand is that bit of its number. -/
theorem selectFieldAndCountResults : Obligations.SelectFieldAndCountResults := by
  unfold Obligations.SelectFieldAndCountResults
  refine ⟨?lea, ?icmp, ?icmpImm, ?isel, ?bfe, ?bfi, ?popc, ?clz, ?brev⟩
  case lea => exact fun f => computes_lanesOp _ _ fun _ => rfl
  case icmp => exact fun f => computes_lanesOp _ _ fun _ => rfl
  case icmpImm =>
    exact fun f => computes_lanesOp
      (fun a _ _ => bit (intCond (f.imod.extractLsb' 0 4) (tval f.ty a) (tval f.ty (immOf f.ty f.imm)))) _ fun _ => rfl
  case isel => exact fun f => computes_lanesOp _ _ fun _ => rfl
  case bfe => exact fun f => computes_lanesOp (fun a b _ => fieldGet f.ty a b) _ fun _ => rfl
  case bfi => exact fun f => computes_lanesOp (fieldPut f.ty.bits) _ fun _ => rfl
  case popc => exact fun f => computes_lanesOp (fun a _ _ => ofNat (popcount a.toNat f.ty.bits) 32) _ fun _ => rfl
  case clz =>
    simp only [← leadingZeros_lowNat]
    exact fun f => computes_lanesOp (fun a _ _ => ofNat (leadingZeros (lowNat a f.ty.bits) f.ty.bits) 32) _ fun _ => rfl
  case brev => exact fun f => computes_lanesOp (fun a _ _ => ofNat (reverseBits a.toNat f.ty.bits) f.ty.bits) _ fun _ => rfl

/-! ## Shifts and the truth table (R111, R112) -/

theorem lowNat_lt (a : W128) (n : Nat) : lowNat a n < 2 ^ n := Nat.mod_lt _ (Nat.two_pow_pos n)

/-- The bounds of a two's complement value that shifts need. -/
theorem lowInt_bounds (a : W128) (n : Nat) : -2 ^ n ≤ lowInt a n ∧ lowInt a n < 2 ^ n := by
  have hlt : (lowNat a n : Int) < 2 ^ n := by exact_mod_cast lowNat_lt a n
  simp only [lowInt]
  split <;> omega

theorem ofNat_zero (n : Nat) : ofNat 0 n = 0 := by rw [ofNat, Nat.zero_mod]; rfl

theorem ofInt_zero (n : Nat) : ofInt 0 n = 0 := by rw [ofInt, Int.zero_emod]; rfl

/-- Once the amount reaches the width, no bit of A is left. -/
theorem shiftLeft_eq_mul (n : Nat) (a : W128) (k : Nat) : shiftLeft n a k = ofNat (lowNat a n * 2 ^ k) n := by
  unfold shiftLeft
  split
  · rfl
  · have hgone : lowNat a n * 2 ^ k % 2 ^ n = 0 := Nat.mod_eq_zero_of_dvd ((Nat.pow_dvd_pow 2 (by omega)).mul_left _)
    rw [ofNat, hgone]; rfl

theorem shiftRight_eq_div (n : Nat) (a : W128) (k : Nat) : shiftRight n a k = ofNat (lowNat a n / 2 ^ k) n := by
  unfold shiftRight
  split
  · rfl
  · have hwide : 2 ^ n ≤ 2 ^ k := Nat.pow_le_pow_right (by omega) (by omega)
    rw [Nat.div_eq_of_lt (Nat.lt_of_lt_of_le (lowNat_lt a n) hwide), ofNat_zero]

/-- Once the amount reaches the width, the floor of the quotient is -1 or 0, by the sign. -/
theorem shiftSigned_eq_div (n : Nat) (a : W128) (k : Nat) : shiftSigned n a k = ofInt (lowInt a n / 2 ^ k) n := by
  unfold shiftSigned
  split
  · rfl
  · have hwide : (2 : Int) ^ n ≤ 2 ^ k := pow_le_pow_right₀ (by omega) (by omega)
    obtain ⟨hlow, hhigh⟩ := lowInt_bounds a n
    split
    next hneg => rw [Int.ediv_eq_neg_one_of_neg_of_le hneg (by omega)]
    next hpos => rw [Int.ediv_eq_zero_of_lt (by omega) (by omega), ofInt_zero]

theorem rotate_eq (n : Nat) (a : W128) (k : Nat) :
    rotate n a k = ofNat (lowNat a n * 2 ^ (k % n) + lowNat a n / 2 ^ (n - k % n)) n := rfl

theorem getLsbD_lo32 (x : W128) {k : Nat} (h : k < 32) : (lo32 x).getLsbD k = x.getLsbD k := by simp [lo32, h]

/-- The bits of `lop3` are those of the operands themselves. -/
theorem tableBit_lo32 (table : BitVec 8) (a b c : W128) {k : Nat} (h : k < 32) : tableBit table (lo32 a) (lo32 b) (lo32 c) k =
    table.getLsbD (4 * (a.getLsbD k).toNat + 2 * (b.getLsbD k).toNat + (c.getLsbD k).toNat) := by
  simp only [tableBit, getLsbD_lo32 _ h]

/-- Settles O13: each instruction is a shared form. What a shift does once its amount reaches the width is what the product and the quotient
give there. -/
theorem bitwiseAndShiftResults : Obligations.BitwiseAndShiftResults := by
  unfold Obligations.BitwiseAndShiftResults
  simp only [← shiftLeft_eq_mul, ← shiftRight_eq_div, ← shiftSigned_eq_div, ← rotate_eq]
  refine ⟨?and, ?andImm, ?or, ?orImm, ?xor, ?xorImm, ?not, ?lop3, ?shl, ?shlImm, ?shr, ?shrImm, ?sar, ?sarImm, ?rot, ?rotImm⟩
  case and => exact fun f => computes_bitOp (· &&& ·) fun _ => rfl
  case andImm => exact fun f => computes_bitImmOp f (· &&& ·) fun _ => rfl
  case or => exact fun f => computes_bitOp (· ||| ·) fun _ => rfl
  case orImm => exact fun f => computes_bitImmOp f (· ||| ·) fun _ => rfl
  case xor => exact fun f => computes_bitOp (· ^^^ ·) fun _ => rfl
  case xorImm => exact fun f => computes_bitImmOp f (· ^^^ ·) fun _ => rfl
  case not => exact fun f => computes_lanesOp (fun a _ _ => ~~~a) _ fun _ => rfl
  case lop3 =>
    intro f
    simp only [← tableBit_lo32 f.table _ _ _ (Fin.isLt _)]
    exact computes_lanesOp _ _ fun _ => rfl
  case shl =>
    exact fun f => computes_lanesOp (fun a b _ => shiftLeft f.ty.bits a (lowNat b 32)) (fun g => g.shlTag f.ty) fun _ => rfl
  case shlImm =>
    exact fun f => computes_lanesOp (fun a _ _ => shiftLeft f.ty.bits a f.imm.toNat) (fun g => g.shlTag f.ty) fun _ => rfl
  case shr => exact fun f => computes_shiftOp f shiftRight fun _ => rfl
  case shrImm => exact fun f => computes_shiftImmOp f shiftRight fun _ => rfl
  case sar => exact fun f => computes_shiftOp f shiftSigned fun _ => rfl
  case sarImm => exact fun f => computes_shiftImmOp f shiftSigned fun _ => rfl
  case rot => exact fun f => computes_shiftOp f rotate fun _ => rfl
  case rotImm => exact fun f => computes_shiftImmOp f rotate fun _ => rfl

/-! ## Moves, lane operations and predicate logic (R115 to R121, R124) -/

/-- Settles O16: each instruction writes D in each executing lane. Those that read other lanes read them in the group as it was issued. -/
theorem moveAndLaneResults : Obligations.MoveAndLaneResults := by
  unfold Obligations.MoveAndLaneResults
  refine ⟨?mov, ?movi, ?shuf, ?bcast, ?vote, ?shp, ?pand, ?por, ?pxor, ?pnot, ?pmov⟩
  case mov =>
    exact fun f => computes_lanesOp (fun a _ _ => a) (fun g b => if f.ty = .b32 then g.tagOf g.shape.a b else g.tag b) fun _ => rfl
  case movi => exact fun f => computes_lanesOp (fun _ _ _ => immOf f.ty f.imm) (fun _ _ => .uniform) fun _ => rfl
  case shuf => exact fun f => gives_lanesOp _ _ _ fun _ => rfl
  case bcast => exact fun f => gives_lanesOp _ _ _ fun _ => rfl
  case vote => exact fun f => gives_lanesOp _ _ _ fun _ => rfl
  case shp => exact fun f => gives_lanesOp _ _ _ fun _ => rfl
  case pand => exact fun f => computes_bitOp (· &&& ·) fun _ => rfl
  case por => exact fun f => computes_bitOp (· ||| ·) fun _ => rfl
  case pxor => exact fun f => computes_bitOp (· ^^^ ·) fun _ => rfl
  case pnot => exact fun f => computes_lanesOp (fun a _ _ => ~~~a) _ fun _ => rfl
  case pmov => exact fun f => computes_lanesOp (fun a _ _ => a) _ fun _ => rfl

end Sys2Proof.Machine

/-! SUPPORT. Instructions whose effect is more than a lane result (R107, R120, R122, R123): `iaddc` with its carry, `ballot`, and `rdsr` with
its clear modifier. -/

namespace Sys2Proof.Machine

/-! ## Changes of the group's wave -/

/-- The group's wave after an issue whose effect is one change of it, and what its operands read at the end of the issue. -/
theorem Issues.wave_changed {i : Instr} {s : State} {sl : Slot} (h : Issues i s sl) (F : Wave → Wave) :
    sl.wave < (((s.advance (s.groupOf i sl)).heal (s.groupOf i sl) (s.groupOf i sl).lanes).modWave sl.wave F).waves.length ∧
    (((s.advance (s.groupOf i sl)).heal (s.groupOf i sl) (s.groupOf i sl).lanes).modWave sl.wave F).wave sl.wave =
      F (s.moved (s.groupOf i sl)) := by
  have hlen : sl.wave < ((s.advance (s.groupOf i sl)).heal (s.groupOf i sl) (s.groupOf i sl).lanes).waves.length := h.issued_wave
  rw [State.modWave_waves, length_modifyAt, State.wave_modWave _ _ F hlen, wave_moved s i sl h.wave]
  exact ⟨hlen, rfl⟩

/-- Where an ILLEGAL of the instruction's own is found, all lanes of the group trap (R61). -/
theorem Issues.trapsIllegal {i : Instr} {s : State} {sl : Slot} (h : Issues i s sl) (illegal : Grp → Bool) (k : Grp → State → State)
    (hi : illegal (s.groupOf i sl) = true) :
    issue i s illegal k =
      .next (((s.advance (s.groupOf i sl)).raiseAll (s.groupOf i sl) .illegal (s.groupOf i sl).all).finish (s.groupOf i sl)) := by
  obtain ⟨rest, hslots⟩ := List.head?_eq_some_iff.mp h.slot
  have hg : s.group sl ((encode i).getD 0) i.shape = s.groupOf i sl := rfl
  simp only [issue, hslots, hg, Grp.check, hi, if_true]

/-! ## Predicates as operands (R19) -/

theorem operand_pred (wv : Wave) (n : BitVec 10) (l : Nat) : wv.operand ⟨.p, n⟩ l = bit ((wv.thread l).p n.toNat) := rfl

theorem getLsbD_bit (b : Bool) : (bit b).getLsbD 0 = b := by cases b <;> rfl

theorem shown_pred (n : BitVec 10) (b : Bool) : shown ⟨.p, n⟩ (bit b) = bit (n == 0 || b) := by
  simp only [shown, getLsbD_bit]
  simp only [bit, Bool.or_eq_true, beq_iff_eq]

theorem bit_injective : Function.Injective bit := by decide

/-- Writing a predicate leaves what every other operand reads. -/
theorem Put.operand_of_pred {wv out : Wave} {n : BitVec 10} {lanes : List Nat} (h : Put wv ⟨.p, n⟩ lanes out) {o : Opnd}
    (ho : o.kind ≠ .p) (l : Nat) : out.operand o l = wv.operand o l := by
  have hv : ∀ r, (out.thread l).v r = (wv.thread l).v r := fun r => h.vregs l r (by simp [Opnd.names, Opnd.ranges])
  have hs : ∀ r, out.sreg r = wv.sreg r := fun r => h.sregs r (by simp [Opnd.names, Opnd.ranges])
  obtain ⟨kind, num⟩ := o
  cases kind
  case p => exact absurd rfl ho
  all_goals simp only [Wave.operand, Thread.dv, Wave.sd, hv, hs]

/-! ## Add with carry (R107) -/

theorem iaddc_dest_not_pred (f : VForm) : (Instr.iaddc f).shape.d.kind ≠ .p := by
  show Col.r.resolve f.ty f.hd.s ≠ .p
  simp only [Col.resolve]
  split_ifs <;> decide

/-- The sum that `iaddc` forms in a lane: under S = 1 with the carry of the first executing lane. -/
def Grp.carrySum (g : Grp) (f : VForm) (l : Nat) : Nat :=
  Machine.carrySum f.ty (g.a l) (g.b l) ((g.c (if f.hd.s then g.head else l)).getLsbD 0)

/-- The carry that a lane receives. -/
def Grp.carryOut (g : Grp) (f : VForm) (l : Nat) : Bool := decide (2 ^ f.ty.bits ≤ g.carrySum f (if f.hd.s then g.head else l))

/-- What `iaddc` does to the wave of its group: D, and then the predicate of C. -/
def Wave.addCarry (wv : Wave) (g : Grp) (f : VForm) : Wave :=
  (wv.put g.shape.d g.lanes (fun l => ofNat (g.carrySum f l) f.ty.bits) g.tag).put ⟨.p, f.c⟩ g.lanes
    (fun l => bit (g.carryOut f l)) g.tag

theorem exec_iaddc (f : VForm) (s : State) : exec (.iaddc f) s = issue (.iaddc f) s lawful fun g s =>
    (s.heal g g.lanes).modWave g.w fun wv => wv.addCarry g f := by
  show execIaddc f s = _
  simp only [execIaddc, State.writeD, State.modLanes, State.modWave_modWave, Wave.addCarry, Wave.put, getLsbD_bit]
  rfl

/-- `iaddc` where it is issued. -/
theorem Issues.addsCarry {f : VForm} {s : State} {sl : Slot} (h : Issues (.iaddc f) s sl) :
    let g := s.groupOf (.iaddc f) sl
    ∃ t, exec (.iaddc f) s = .next t ∧ Kept g [(Instr.iaddc f).shape.d, (Instr.iaddc f).shape.c] 0 s t ∧
      ∀ l ∈ g.lanes,
        (t.wave g.w).operand (Instr.iaddc f).shape.d l =
          shown (Instr.iaddc f).shape.d (ofNat (g.carrySum f (if (Instr.iaddc f).shape.d.scalar then g.head else l)) f.ty.bits) ∧
        (t.thread g.w l).p f.c.toNat = (f.c == 0 || g.carryOut f l) := by
  intro g
  have hd := wrote_put (s.moved g) (Instr.iaddc f).shape.d g.lanes (fun l => ofNat (g.carrySum f l) f.ty.bits) g.tag h.legalD
  have hc := put_put ((s.moved g).put (Instr.iaddc f).shape.d g.lanes (fun l => ofNat (g.carrySum f l) f.ty.bits) g.tag)
    (Instr.iaddc f).shape.c g.lanes (fun l => bit (g.carryOut f l)) g.tag h.legalC
  obtain ⟨hkept, hread⟩ := h.kept (fun wv => wv.addCarry g f) _ _ (hd.trans hc.wrote)
  refine ⟨_, (exec_iaddc f s).trans (h.run lawful _ rfl), hkept, fun l hl => ⟨?_, ?_⟩⟩
  · refine (hread l _).trans ((hc.operand_of_pred (iaddc_dest_not_pred f) l).trans ?_)
    exact put_shown _ _ _ _ _ h.legalD l hl (h.lane hl)
  · apply bit_injective
    have hin := hd.count.symm ▸ h.lane hl
    exact (hread l _).trans ((put_shown _ _ _ _ g.tag h.legalC l hl hin).trans (shown_pred f.c _))

/-! ## Ballot (R120) -/

/-- The bits that a list of lanes sets in a mask. -/
theorem getLsbD_foldl_shift (ls : List Nat) (m : W128) {k : Nat} (hk : k < 128) :
    (ls.foldl (fun m l => m ||| (1#128 <<< l)) m).getLsbD k = (m.getLsbD k || ls.contains k) := by
  induction ls generalizing m with
  | nil => simp
  | cons l ls ih =>
    have hone : (1#128 <<< l).getLsbD k = (k == l) := by
      rw [← BitVec.twoPow_eq, BitVec.getLsbD_twoPow, Bool.eq_iff_iff]
      simp only [Bool.and_eq_true, decide_eq_true_eq, beq_iff_eq]
      omega
    rw [List.foldl_cons, ih, BitVec.getLsbD_or, hone, List.contains_cons, Bool.or_assoc]

/-- The mask of R120, bit by bit. -/
theorem ballotMask_eq (lanes : List Nat) (p : Nat → Bool) :
    (lanes.filter p).foldl (fun m l => m ||| (1#128 <<< l)) 0 = BitVec.ofFnLE (n := 128) fun k => lanes.contains k.val && p k.val := by
  refine BitVec.eq_of_getLsbD_eq fun k hk => ?_
  rw [getLsbD_foldl_shift _ _ hk, BitVec.getLsbD_ofFnLE, dif_pos hk]
  simp

/-- The value of `ballot` in every lane. -/
def Grp.ballot (g : Grp) : W128 := BitVec.ofFnLE (n := 128) fun k => g.lanes.contains k.val && (g.a k.val).getLsbD 0

theorem Grp.ballot_eq_foldl (g : Grp) :
    g.ballot = (g.lanes.filter fun l => (g.a l).getLsbD 0).foldl (fun m l => m ||| (1#128 <<< l)) 0 :=
  (ballotMask_eq g.lanes fun l => (g.a l).getLsbD 0).symm

theorem exec_ballot (f : VForm) (s : State) : exec (.ballot f) s = issue (.ballot f) s (fun g => f.ty != widthTy g.src.width) fun g s =>
    (s.heal g g.lanes).modWave g.w fun wv => wv.put g.shape.d g.lanes (fun _ => g.ballot) fun _ => .uniform := by
  simp only [Grp.ballot_eq_foldl]
  rfl

/-- `ballot` where its type is that of the declared width. -/
theorem Issues.ballots {f : VForm} {s : State} {sl : Slot} (h : Issues (.ballot f) s sl) :
    let g := s.groupOf (.ballot f) sl
    f.ty = widthTy g.src.width → ∃ t, exec (.ballot f) s = .next t ∧ Kept g [(Instr.ballot f).shape.d] 0 s t ∧
      ∀ l ∈ g.lanes, (t.wave g.w).operand (Instr.ballot f).shape.d l = shown (Instr.ballot f).shape.d g.ballot := by
  intro g hty
  obtain ⟨hkept, hread⟩ := h.kept (fun wv => wv.put (Instr.ballot f).shape.d g.lanes (fun _ => g.ballot) fun _ => .uniform) _ _
    (wrote_put _ _ _ _ _ h.legalD)
  refine ⟨_, (exec_ballot f s).trans (h.run _ _ (by simp [hty, g])), hkept, fun l hl => (hread l _).trans ?_⟩
  exact put_shown _ _ _ _ _ h.legalD l hl (h.lane hl)

/-! ## Reading special registers (R21, R122, R123) -/

/-- The clear modifier: of the flags, those joined in this cycle stay (R123). -/
def Wave.clearFlags (wv : Wave) (clr : Bool) : Wave := if clr then { wv with fpflags := wv.newFlags } else wv

/-- The wave with another set of flags. -/
def Wave.withFlags (wv : Wave) (f : BitVec 5) : Wave := { wv with fpflags := f }

theorem Wave.withFlags_clearFlags (wv : Wave) (clr : Bool) (f : BitVec 5) : (wv.clearFlags clr).withFlags f = wv.withFlags f := by
  cases clr <;> rfl

theorem Wave.operand_clearFlags (wv : Wave) (clr : Bool) (o : Opnd) (l : Nat) : (wv.clearFlags clr).operand o l = wv.operand o l := by
  cases clr <;> rfl

theorem Wave.fpflags_clearFlags (wv : Wave) (clr : Bool) : (wv.clearFlags clr).fpflags = if clr then wv.newFlags else wv.fpflags := by
  cases clr <;> rfl

/-- The end of an issue does not look at the flags. -/
theorem State.finish_withFlags (m : State) (g : Grp) (f : BitVec 5) :
    (m.finish g).modWave g.w (fun wv => wv.withFlags f) = (m.modWave g.w fun wv => wv.withFlags f).finish g := by
  unfold State.finish
  split
  · rw [State.modWave_modWave, State.modWave_modWave]
    rfl
  · rfl

theorem State.ite_clearFlags (s : State) (w : Nat) (clr : Bool) :
    (if clr then s.modWave w fun wv => { wv with fpflags := wv.newFlags } else s) = s.modWave w fun wv => wv.clearFlags clr := by
  cases clr
  · exact (s.modWave_self w _ rfl).symm
  · rfl

/-- Whether `rdsr` clears the flags. -/
def Grp.clears (g : Grp) (f : IForm) : Bool := f.imod.getLsbD 0 && !g.lanes.isEmpty

/-- What `rdsr` writes into the wave of its group, the special register read in the state `s`. -/
def Wave.putSpecial (wv : Wave) (g : Grp) (s : State) (n : Nat) : Wave :=
  wv.put g.shape.d g.lanes (fun l => s.special g l n) fun _ => specialTag g.src n

theorem exec_rdsr (f : IForm) (s : State) : exec (.rdsr f) s = issue (.rdsr f) s lawful fun g s =>
    (s.heal g g.lanes).modWave g.w fun wv => (wv.putSpecial g s f.imm.toNat).clearFlags (g.clears f) := by
  show execRdsr f s = _
  simp only [execRdsr, State.ite_clearFlags]
  simp only [State.writeD, State.modWave_modWave]
  rfl

/-- `rdsr` where it is issued: but for the flags that it clears it is a lane result. -/
theorem Issues.readsSpecial {f : IForm} {s : State} {sl : Slot} (h : Issues (.rdsr f) s sl) :
    let g := s.groupOf (.rdsr f) sl
    let d := (Instr.rdsr f).shape.d
    ∃ t, exec (.rdsr f) s = .next t ∧ Kept g [d] 0 s (t.modWave g.w fun wv => wv.withFlags (s.wave g.w).fpflags) ∧
      (t.wave g.w).fpflags = (if g.clears f then (s.wave g.w).newFlags else (s.wave g.w).fpflags) ∧
      ∀ l ∈ g.lanes, (t.wave g.w).operand d l = shown d ((s.issued g).special g (if d.scalar then g.head else l) f.imm.toNat) := by
  intro g d
  have hput : Wrote (s.moved g) [d] g.lanes 0 ((s.moved g).putSpecial g (s.issued g) f.imm.toNat) := wrote_put _ _ _ _ _ h.legalD
  have hflags : ((s.moved g).putSpecial g (s.issued g) f.imm.toNat).fpflags = (s.wave g.w).fpflags :=
    (congrArg Wave.fpflags hput.wave).trans (BitVec.or_zero ..)
  have hnew : ((s.moved g).putSpecial g (s.issued g) f.imm.toNat).newFlags = (s.wave g.w).newFlags :=
    (congrArg Wave.newFlags hput.wave).trans (BitVec.or_zero ..)
  have hsame : ((s.moved g).putSpecial g (s.issued g) f.imm.toNat).withFlags (s.wave g.w).fpflags =
      (s.moved g).putSpecial g (s.issued g) f.imm.toNat := by rw [Wave.withFlags, ← hflags]
  obtain ⟨hkept, -⟩ := h.kept (fun wv => (wv.putSpecial g (s.issued g) f.imm.toNat).withFlags (s.wave g.w).fpflags) [d] 0
    (by rw [← hsame] at hput; exact hput)
  obtain ⟨hlen, hwave⟩ := h.wave_changed fun wv => (wv.putSpecial g (s.issued g) f.imm.toNat).clearFlags (g.clears f)
  refine ⟨_, (exec_rdsr f s).trans (h.run lawful _ rfl), ?_, ?_, fun l hl => ?_⟩
  · rw [State.finish_withFlags, State.modWave_modWave]
    simp only [Wave.withFlags_clearFlags]
    exact hkept
  · refine (congrArg Wave.fpflags (State.finish_wave _ g hlen).1).trans ((congrArg Wave.fpflags hwave).trans ?_)
    rw [Wave.fpflags_clearFlags, hflags, hnew]
  · refine (operand_finish _ g hlen d l).trans ((congrArg (fun wv : Wave => wv.operand d l) hwave).trans ?_)
    rw [Wave.operand_clearFlags]
    exact put_shown _ _ _ _ _ h.legalD l hl (h.lane hl)

theorem State.special_idx (s : State) (g : Grp) (l : Nat) {k : Nat} (hk : k < 8) :
    s.special g l (0x10 + k) = ext32 ((g.src.thread l).idx.getD k 0) := by
  rw [State.special, if_neg (by omega), if_pos (by omega), Nat.add_sub_cancel_left]

/-! ## The statement -/

/-- Settles O32: `iaddc` writes D and then a predicate, `ballot` one mask in every lane, and `rdsr` a lane result beside the flags. -/
theorem carryBallotAndSpecialReads : Obligations.CarryBallotAndSpecialReads := by
  unfold Obligations.CarryBallotAndSpecialReads
  refine ⟨?iaddc, ?ballot, ?illegal, ?rdsr, ?special⟩
  case iaddc => exact fun f s sl h => h.addsCarry
  case ballot => exact fun f s sl h => h.ballots
  case illegal =>
    intro f s sl h g hty
    exact (exec_ballot f s).trans (h.trapsIllegal _ _ (bne_iff_ne.mpr hty))
  case rdsr =>
    intro f s sl h
    obtain ⟨t, hexec, hkept, hflags, hread⟩ := h.readsSpecial
    refine ⟨t, hexec, hkept, hflags.trans ?_, hread⟩
    simp [Grp.clears]
  case special => exact fun s g l k hk => ⟨rfl, s.special_idx g l hk, rfl, rfl, rfl, rfl, rfl, rfl⟩

end Sys2Proof.Machine

/-! SUPPORT. Division, square root and the six functions (R135 to R137): each meaning is the shared form of two registers or of one. -/

namespace Sys2Proof.Machine

/-- Settles O15: division is the shared form of two registers, the others the form of one, each with the operation on elements that its
meaning names. -/
theorem floatFunctionResults : Obligations.FloatFunctionResults := by
  unfold Obligations.FloatFunctionResults
  refine ⟨?fdiv, ?fsqrt, ?frcp, ?frsq, ?fex2, ?flg2, ?fsin, ?fcos⟩
  case fdiv => exact fun f => computesF_fltOp f (fun a b => fltDiv f.ty f.rnd (fdecode f.ty a) (fdecode f.ty b)) fun _ => rfl
  case fsqrt => exact fun f => computesF_fltOp1 f (fun a => fltSqrt f.ty f.rnd (fdecode f.ty a)) fun _ => rfl
  case frcp => exact fun f => computesF_fltOp1 f (sfuRcp f.ty) fun _ => rfl
  case frsq => exact fun f => computesF_fltOp1 f (sfuRsq f.ty) fun _ => rfl
  case fex2 => exact fun f => computesF_fltOp1 f (sfuEx2 f.ty) fun _ => rfl
  case flg2 => exact fun f => computesF_fltOp1 f (sfuLg2 f.ty) fun _ => rfl
  case fsin => exact fun f => computesF_fltOp1 f (sfuTrig false f.ty) fun _ => rfl
  case fcos => exact fun f => computesF_fltOp1 f (sfuTrig true f.ty) fun _ => rfl

end Sys2Proof.Machine

/-! SUPPORT. Instructions that only advance (R151, R182, R224, R228): what the end of an issue makes of a state that differs from the issued
one in no wave, and the parts that an invalidation and a prefetch may change. -/

namespace Sys2Proof.Machine

/-! ## Effects outside the waves -/

/-- A group that has moved on, and done nothing else, keeps everything. -/
theorem Issues.kept_advanced {i : Instr} {s : State} {sl : Slot} (h : Issues i s sl) :
    Kept (s.groupOf i sl) [] 0 s ((s.issued (s.groupOf i sl)).finish (s.groupOf i sl)) :=
  kept_of_wrote h.all rfl rfl (fun _ he => he) (fun w hne => State.wave_modWave_ne s (s.groupOf i sl).w w _ hne) h.issued_wave
    (State.wave_modWave s _ _ h.wave) (Wrote.refl _ _ _)

/-- An instruction whose effect is none only advances. -/
theorem Issues.onlyAdvances {i : Instr} {s : State} {sl : Slot} (h : Issues i s sl) (he : exec i s = issue i s lawful fun _ s => s) :
    ∃ t, exec i s = .next t ∧ Kept (s.groupOf i sl) [] 0 s t :=
  ⟨_, h.performs _ he, h.kept_advanced⟩

/-! ## Invalidation of a code line (R228) -/

/-- A lane's part of `icinv`. -/
def icinvLane (f : MForm) (g : Grp) (s : State) (l : Nat) : State :=
  match s.codePhys (s.who g.w l 2) (g.addr f.off.toInt l) with
  | some pa => { s with fetchLines := Sparse.erase s.fetchLines (pa / 64) }
  | none => s

theorem exec_icinv (f : MForm) (s : State) :
    exec (.icinv f) s = issue (.icinv f) s lawful fun g s => g.lanes.foldl (icinvLane f g) s := rfl

/-- Fetch versions may be gone, and nothing else differs. -/
structure FewerLines (s t : State) : Prop where
  rest : t = { s with fetchLines := t.fetchLines }
  lines : ∀ e ∈ t.fetchLines, e ∈ s.fetchLines

/-- The end of an issue does not look at fetch versions. -/
theorem FewerLines.finish {s t : State} (h : FewerLines s t) (g : Grp) :
    { t.finish g with fetchLines := s.fetchLines } = s.finish g := by
  rw [h.rest]
  unfold State.finish
  split <;> rfl

theorem icinvLane_fewerLines (f : MForm) (g : Grp) (s : State) (l : Nat) : FewerLines s (icinvLane f g s l) := by
  unfold icinvLane
  split
  · exact ⟨rfl, fun e he => (List.mem_filter.mp he).1⟩
  · exact ⟨rfl, fun _ he => he⟩

theorem icinvLanes_fewerLines (f : MForm) (g : Grp) (lanes : List Nat) (s : State) : FewerLines s (lanes.foldl (icinvLane f g) s) :=
  foldl_rel FewerLines (fun _ => ⟨rfl, fun _ he => he⟩)
    (fun _ _ _ h k => ⟨by rw [k.rest, h.rest], fun e he => h.lines e (k.lines e he)⟩) _ (icinvLane_fewerLines f g) lanes s

/-! ## Prefetches (R182) -/

/-- Two states that differ in what a prefetch may change: access counters, the fault queues of the dies, and the prefetches under way. -/
def sameButPrefetched (s t : State) : Prop :=
  t = { s with counters := t.counters, stackCount := t.stackCount, dies := t.dies, prefetches := t.prefetches }

/-- The end of an issue does not look at what a prefetch changes. -/
theorem sameButPrefetched.finish {s t : State} (h : sameButPrefetched s t) (g : Grp) :
    { t.finish g with counters := s.counters, stackCount := s.stackCount, dies := s.dies, prefetches := s.prefetches } = s.finish g := by
  rw [h]
  unfold State.finish
  split <;> rfl

theorem State.count_sameButPrefetched (s : State) (ps : List Piece) : sameButPrefetched s (s.count ps) :=
  foldl_rel sameButPrefetched (fun _ => rfl) (fun a b c h k => by unfold sameButPrefetched at *; rw [k, h]) _
    (fun s p => by unfold State.countPiece; split <;> rfl) ps s

theorem State.post_sameButPrefetched (s : State) (r : FaultRec) : sameButPrefetched s (s.post r).1 := by
  unfold State.post
  dsimp only
  split
  · rfl
  · split <;> rfl

theorem State.prefetch_sameButPrefetched (s : State) (w l a size : Nat) (bypass late : Bool) :
    sameButPrefetched s (s.prefetch w l a size bypass late) := by
  unfold State.prefetch
  split
  case h_1 =>
    split
    · rfl
    · exact s.count_sameButPrefetched _
  case h_2 _ r _ =>
    have hpost := s.post_sameButPrefetched r
    split
    · split
      · next t d q hp =>
        have ht : sameButPrefetched s t := by rwa [hp] at hpost
        unfold sameButPrefetched at ht ⊢
        rw [ht]
      · next t hp => rwa [hp] at hpost
    · rfl
  case h_3 => rfl

theorem prefLanes_sameButPrefetched (f : MForm) (g : Grp) (lanes : List Nat) (s : State) :
    sameButPrefetched s (lanes.foldl (fun s l => s.prefLane g f l) s) :=
  foldl_rel sameButPrefetched (fun _ => rfl) (fun a b c h k => by unfold sameButPrefetched at *; rw [k, h]) _
    (fun s l => s.prefetch_sameButPrefetched _ _ _ _ _ _) lanes s

theorem exec_pref (f : MForm) (s : State) :
    exec (.pref f) s = issue (.pref f) s lawful fun g s => g.actors.foldl (fun s l => s.prefLane g f l) s := rfl

/-- Settles O24: the effects of `nop`, `fence` and `ifence` are none; those of `icinv` and `pref` touch no wave. -/
theorem orderingInstructionsOnlyAdvance : Obligations.OrderingInstructionsOnlyAdvance := by
  unfold Obligations.OrderingInstructionsOnlyAdvance
  refine ⟨fun s sl h => h.onlyAdvances rfl, fun f s sl h => h.onlyAdvances rfl, fun f s sl h => h.onlyAdvances rfl,
    fun f s sl h => ?icinv, fun f s sl h => ?pref⟩
  case icinv =>
    have hlines := icinvLanes_fewerLines f (s.groupOf (.icinv f) sl) (s.groupOf (.icinv f) sl).lanes (s.issued (s.groupOf (.icinv f) sl))
    refine ⟨_, h.performs _ (exec_icinv f s), ?_, ?_⟩
    · exact (congrArg (Kept _ [] 0 s) (hlines.finish _)).mpr h.kept_advanced
    · unfold State.after
      rw [State.finish_rest]
      exact hlines.lines
  case pref =>
    have hpref := prefLanes_sameButPrefetched f (s.groupOf (.pref f) sl) (s.groupOf (.pref f) sl).actors (s.issued (s.groupOf (.pref f) sl))
    exact ⟨_, h.performs _ (exec_pref f s), (congrArg (Kept _ [] 0 s) (hpref.finish _)).mpr h.kept_advanced⟩

end Sys2Proof.Machine

/-! SUPPORT. Lanes that exit (R150): the state that a lane without a thread keeps. -/

namespace Sys2Proof.Machine

/-- A wave of one lane, which has no thread. -/
def Wave.laneless : Wave := { Wave.blank with threads := [Thread.blank] }

/-- A lane without a thread has nothing that could exit (R251). -/
theorem Wave.status_exitLanes_laneless : ((Wave.laneless.exitLanes [0]).thread 0).status = .absent := by decide

/-- Refutes O26: its last clause says of every lane that is named that it has exited, and a lane that is not resident (R251) has no thread that
could. -/
theorem not_meetingYieldingAndExit : ¬ Obligations.MeetingYieldingAndExit := by
  unfold Obligations.MeetingYieldingAndExit
  rintro ⟨-, -, -, hexit⟩
  have hexited : ((Wave.laneless.exitLanes [0]).thread 0).status = .exited := (hexit Wave.laneless [0] 0 (by decide)).1 (by decide)
  rw [Wave.status_exitLanes_laneless] at hexited
  cases hexited

end Sys2Proof.Machine

/-! SUPPORT. Performing an effect (R155). -/

namespace Sys2Proof.Machine

/-- The effects that `perf` performs, one in each executing lane, its continuation at the slot after. -/
def perfItems (f : PerfForm) (g : Grp) (s : State) : List (Nat × Effect) :=
  g.lanes.map fun l =>
    (l, { name := perfName f g, kind := kindOf (perfName f g), pb := f.pay.toNat, k := f.k.toNat, cont := (s.thread g.w l).pc
          redo := [], forced := false, src := g.pc })

/-- A lane whose effect finds no place for its record waits for backing store (R317). -/
def perfWaits (g : Grp) (s : State) (l : Nat) : State := (s.postPrivate g.w l).1.block g l (s.postPrivate g.w l).2

/-- The effect of `perf`. -/
def perfEffect (f : PerfForm) (g : Grp) (s : State) : State :=
  let unbound := (perfItems f g s).filter fun x => (s.handlerEntry g.w x.1 x.2).binds
  let r := s.deliverAll g.w f.pay.toNat ((perfItems f g s).filter fun x => !(s.handlerEntry g.w x.1 x.2).binds)
  unbound.foldl (fun s x => s.bindFor g x.1 (s.handlerEntry g.w x.1 x.2)) (r.2.foldl (perfWaits g) r.1)

theorem exec_perf (f : PerfForm) (s : State) :
    exec (.perf f) s = issue (.perf f) s (fun g => f.rn && badName (perfName f g)) (perfEffect f) := rfl

/-- Where every handler's code is bound and every record finds its place, `perf` delivers its effects. -/
theorem perfEffect_delivers {f : PerfForm} {g : Grp} {s : State}
    (hbound : ∀ x ∈ perfItems f g s, (s.handlerEntry g.w x.1 x.2).binds = false)
    (hroom : (s.deliverAll g.w f.pay.toNat (perfItems f g s)).2 = []) :
    perfEffect f g s = (s.deliverAll g.w f.pay.toNat (perfItems f g s)).1 := by
  have hnone : (perfItems f g s).filter (fun x => (s.handlerEntry g.w x.1 x.2).binds) = [] :=
    List.filter_eq_nil_iff.mpr fun x hx => by simp [hbound x hx]
  have hall : (perfItems f g s).filter (fun x => !(s.handlerEntry g.w x.1 x.2).binds) = perfItems f g s :=
    List.filter_eq_self.mpr fun x hx => by simp [hbound x hx]
  simp only [perfEffect, hnone, hall, hroom, List.foldl_nil]

/-- Settles O28: the two branches of `perf`'s check on its name. -/
theorem performDeliversEffect : Obligations.PerformDeliversEffect := by
  unfold Obligations.PerformDeliversEffect
  refine ⟨fun f s sl h => ?delivers, fun f s sl h => ?illegal⟩
  case delivers =>
    intro g hname items hbound hroom
    rw [exec_perf, h.run _ _ hname]
    exact congrArg (fun t : State => Host.Outcome.next (t.finish g)) (perfEffect_delivers hbound hroom)
  case illegal =>
    intro g hrn hbad
    exact (exec_perf f s).trans (h.trapsIllegal _ _ (by rw [hrn, Bool.true_and]; exact hbad))

end Sys2Proof.Machine

/-! SUPPORT. Taking an effect (R156, R157, R169): the record of the lane's continuation, and what the lane does then, in the handler it enters or
at frame 0. -/

namespace Sys2Proof.Machine

/-! ## Changes of one thread -/

theorem Wave.modThread_modThread (wv : Wave) (l : Nat) (f f' : Thread → Thread) :
    (wv.modThread l f).modThread l f' = wv.modThread l fun t => f' (f t) := by
  simp only [Wave.modThread, modifyAt, List.modify_modify_eq]
  rfl

theorem State.modThread_modThread (s : State) (w l : Nat) (f f' : Thread → Thread) :
    (s.modThread w l f).modThread w l f' = s.modThread w l fun t => f' (f t) := by
  unfold State.modThread
  rw [State.modWave_modWave]
  exact congrArg (s.modWave w) (funext fun wv => wv.modThread_modThread l f f')

theorem sameButStored.modThread {s t : State} (h : sameButStored s t) (w l : Nat) (f : Thread → Thread) :
    sameButStored (s.modThread w l f) (t.modThread w l f) := by
  rw [h]
  rfl

theorem sameButStored.deliveries {s t : State} (h : sameButStored s t) : t.deliveries = s.deliveries := by
  rw [h]

/-! ## The record of a continuation (R35) -/

@[simp] theorem length_toBytes (x n : Nat) : (toBytes x n).length = n := by
  induction n generalizing x with
  | zero => rfl
  | succ n ih => simp [toBytes, ih]

/-- A record is as long whatever its generation. -/
theorem Wave.length_continuation (wv : Wave) (l n : Nat) (e : Effect) (gen gen' : BitVec 16) :
    (wv.continuation l n e gen).bytes.length = (wv.continuation l n e gen').bytes.length := by
  simp [Wave.continuation, Record.bytes]

/-- A live place with the commands that the replay entries of a record stand for. -/
def RecPlace.holding (p : RecPlace) (r : Record) : RecPlace :=
  { p with live := true, cmds := r.redo.map fun e => (e.2.cmd, e.2.waitOnly) }

/-- A thread's change after its record has been put down: beside the bytes of the record, it is the change of a thread with a live place. -/
theorem State.putRecord_modThread (s : State) (w l : Nat) (p : RecPlace) (r : Record) (f : Thread → Thread) :
    sameButStored (s.modThread w l fun t => f (t.setPlace (p.holding r))) ((s.putRecord w l p r).modThread w l f) := by
  have hput : (s.putRecord w l p r).modThread w l f =
      (s.privWrite w l (64 * p.slot) r.bytes).modThread w l fun t => f (t.setPlace (p.holding r)) := State.modThread_modThread ..
  rw [hput]
  exact (s.privWrite_sameButStored w l _ _).modThread w l _

/-- What a write to a private space that is there makes of memory. -/
theorem State.privWrite_mem {s : State} {w l o : Nat} {bs : List Byte} {ps : List Piece} (h : s.privPieces w l o bs.length = .ok ps) :
    (s.privWrite w l o bs).mem = Memory.writePieces s.mem ps bs := by
  unfold State.privWrite
  rw [h]
  exact s.store_mem ps bs

/-! ## A lane in its handler (R156, R157) -/

/-- A lane whose effect its `i`-th frame handles, after it has entered the handler: the frame and those above it have left the stack, and the
name and the token stand in the registers after the payload base. -/
def Thread.entered (t : Thread) (e : Effect) (i : Nat) (tok : W64) : Thread :=
  ({ (t.setV (e.pb + 1) e.name).setWords (e.pb + 2) 2 (ext64 tok) with
     frames := t.frames.drop (i + 1), pc := (t.frames.getD i frame0).hpc, wait := .none, redo := [] } : Thread).trim

theorem Thread.entered_fields (t : Thread) (e : Effect) (i : Nat) (tok : W64) : t.entered e i tok =
    { t with frames := t.frames.drop (i + 1), pc := (t.frames.getD i frame0).hpc, wait := .none, redo := []
             areas := (t.entered e i tok).areas, vregs := (t.entered e i tok).vregs } := by
  unfold Thread.entered
  rw [Thread.setWords_fields]
  rfl

theorem Thread.v_entered (t : Thread) (e : Effect) (i : Nat) (tok : W64) (r : Nat) : (t.entered e i tok).v r =
    if e.pb + 2 ≤ r ∧ r < e.pb + 4 then word32 (ext64 tok) (r - (e.pb + 2)) else if r = e.pb + 1 then e.name else t.v r := by
  refine ((t.setV (e.pb + 1) e.name).v_setWords (e.pb + 2) 2 r (ext64 tok)).trans ?_
  rw [Thread.v_setV]

theorem Thread.dv_entered (t : Thread) (e : Effect) (i : Nat) (tok : W64) : (t.entered e i tok).dv (e.pb + 2) = tok := by
  have hlo : lo64 (ext64 tok) = tok := by simp [lo64, ext64]
  rw [Thread.dv, Thread.v_entered, Thread.v_entered, if_pos (by omega), if_pos (by omega), Nat.sub_self, Nat.add_sub_cancel_left,
    word32_pair, hlo]

/-! ## Delivery to one lane (R156) -/

section
variable {s u : State} {wv : Wave} {w l : Nat} {e : Effect}

/-- The place a lane's record goes to, whose bytes are there. -/
def State.recordPlace (s : State) (wv : Wave) (w l n : Nat) (e : Effect) : Option RecPlace :=
  ((wv.thread l).findPlace (wv.continuation l n e 0).bytes.length).filter fun p =>
    (s.privPieces w l (64 * p.slot) (wv.continuation l n e 0).bytes.length).toBool

theorem State.recordPlace_some {n : Nat} {p : RecPlace} (h : s.recordPlace wv w l n e = some p) :
    (wv.thread l).findPlace (wv.continuation l n e 0).bytes.length = some p ∧
    ∃ ps, s.privPieces w l (64 * p.slot) (wv.continuation l n e p.gen).bytes.length = .ok ps := by
  obtain ⟨hplace, hthere⟩ := Option.filter_eq_some_iff.mp h
  refine ⟨hplace, ?_⟩
  rw [wv.length_continuation l n e p.gen 0]
  cases hps : s.privPieces w l (64 * p.slot) (wv.continuation l n e 0).bytes.length with
  | ok ps => exact ⟨ps, rfl⟩
  | error err => rw [hps] at hthere; cases hthere

theorem State.deliver_handled {i : Nat} (h : s.handler w l e = (some i, false)) :
    s.deliver wv w l e = (s.recordPlace wv w l (i + 1) e).map fun p =>
      (s.putRecord w l p (wv.continuation l (i + 1) e p.gen)).modThread w l fun t => t.entered e i (tokenOf p.gen e.kind p.slot) := by
  unfold State.deliver
  rw [h]
  rfl

/-- The delivery of an effect to the service kernel (R169). -/
def Effect.delivery (e : Effect) (w l : Nat) (p : RecPlace) : Delivery :=
  { wave := w, lane := l, name := e.name, kind := e.kind, pb := e.pb, token := tokenOf p.gen e.kind p.slot, pc := e.cont, src := e.src }

/-- A lane that waits for the service kernel. -/
def Thread.atFrame0 (t : Thread) : Thread := { t with wait := .frame0, redo := [] }

/-- A state with one more delivery. -/
def State.deliveredTo0 (s : State) (d : Delivery) : State := { s with deliveries := s.deliveries ++ [d] }

theorem State.deliver_frame0 (h : s.handler w l e = (none, false)) :
    s.deliver wv w l e = (s.recordPlace wv w l 0 e).map fun p =>
      ((s.putRecord w l p (wv.continuation l 0 e p.gen)).deliveredTo0 (e.delivery w l p)).modThread w l Thread.atFrame0 := by
  unfold State.deliver
  rw [h]
  rfl

/-- An effect that a frame handles. -/
theorem State.deliver_enters {i : Nat} (h : s.handler w l e = (some i, false)) (hu : s.deliver wv w l e = some u) :
    ∃ p ps, (wv.thread l).findPlace (wv.continuation l (i + 1) e 0).bytes.length = some p ∧
      s.privPieces w l (64 * p.slot) (wv.continuation l (i + 1) e p.gen).bytes.length = .ok ps ∧
      u.mem = (s.privWrite w l (64 * p.slot) (wv.continuation l (i + 1) e p.gen).bytes).mem ∧
      sameButStored (s.modThread w l fun t =>
        (t.setPlace (p.holding (wv.continuation l (i + 1) e p.gen))).entered e i (tokenOf p.gen e.kind p.slot)) u := by
  rw [State.deliver_handled h] at hu
  obtain ⟨p, hp, rfl⟩ := Option.map_eq_some_iff.mp hu
  obtain ⟨hplace, ps, hps⟩ := State.recordPlace_some hp
  exact ⟨p, ps, hplace, hps, rfl, s.putRecord_modThread w l p _ _⟩

/-- An effect that no frame handles. -/
theorem State.deliver_waits (h : s.handler w l e = (none, false)) (hu : s.deliver wv w l e = some u) :
    ∃ p, (wv.thread l).findPlace (wv.continuation l 0 e 0).bytes.length = some p ∧
      u.deliveries = s.deliveries ++ [e.delivery w l p] ∧
      u.waves = (s.modThread w l fun t => (t.setPlace (p.holding (wv.continuation l 0 e p.gen))).atFrame0).waves := by
  rw [State.deliver_frame0 h] at hu
  obtain ⟨p, hp, rfl⟩ := Option.map_eq_some_iff.mp hu
  have hput := s.putRecord_modThread w l p (wv.continuation l 0 e p.gen) Thread.atFrame0
  have hdeliveries : (s.putRecord w l p (wv.continuation l 0 e p.gen)).deliveries = s.deliveries :=
    (s.privWrite_sameButStored w l (64 * p.slot) (wv.continuation l 0 e p.gen).bytes).deliveries
  exact ⟨p, (State.recordPlace_some hp).1, congrArg (· ++ _) hdeliveries, hput.waves⟩

end

/-- Settles O29: a delivery is the record's bytes and one change of the lane's thread, to which frame 0 adds a delivery. -/
theorem effectEntersItsHandler : Obligations.EffectEntersItsHandler := by
  unfold Obligations.EffectEntersItsHandler
  refine ⟨fun s u w l e i hw hl h hu => ?enters, fun s u w l e hw hl h hu => ?waits⟩
  case enters =>
    obtain ⟨p, ps, hplace, hps, hmem, hrest⟩ := State.deliver_enters h hu
    have hthread := (hrest.thread w l).trans (s.thread_modThread w l _ hw hl)
    refine ⟨p, hplace, ?pc, ?frames, ?name, ?token, ?preds, ?regs, hmem, ⟨ps, hps, hmem.trans (State.privWrite_mem hps)⟩, ?others, ?state⟩
    case pc | frames | preds => rw [hthread, Thread.entered_fields]; rfl
    case name => rw [hthread, Thread.v_entered, if_neg (by omega), if_pos rfl]
    case token => rw [hthread, Thread.dv_entered]
    case regs =>
      intro r hr
      rw [hthread, Thread.v_entered, if_neg (by omega), if_neg (by omega)]
      rfl
    case others => exact fun k hk => (hrest.thread w k).trans (s.thread_modThread_ne w l k _ hw hk)
    case state =>
      rw [hrest]
      rfl
  case waits =>
    obtain ⟨p, hplace, hdelivery, hwaves⟩ := State.deliver_waits h hu
    have hthread := (State.thread_eq_of_wave (congrArg (fun ws => ws.getD w Wave.blank) hwaves) l).trans (s.thread_modThread w l _ hw hl)
    exact ⟨p, hplace, hdelivery, by rw [hthread]; rfl, by rw [hthread]; rfl, by rw [hthread]; rfl⟩

end Sys2Proof.Machine

/-! SUPPORT. Tokens and the lanes that go on at their records (R36, R158, R159): what the consumption of a token and a resumption make of the
lane's thread and of its wave. -/

namespace Sys2Proof.Machine

/-! ## A token is consumed (R36) -/

/-- The place of a consumed record: free, its generation moved on. -/
def RecPlace.spent (p : RecPlace) (gen : BitVec 16) : RecPlace := { p with gen := gen, live := false, cmds := [] }

/-- A wave in which a lane's token has been consumed. -/
def Wave.spent (wv : Wave) (l : Nat) (p : RecPlace) (gen : BitVec 16) : Wave :=
  (wv.modThread l fun t => t.setPlace (p.spent gen)).settle l p.slot

theorem sameButStored.modWave {s t : State} (h : sameButStored s t) (w : Nat) (f : Wave → Wave) :
    sameButStored (s.modWave w f) (t.modWave w f) := by
  rw [h]
  rfl

theorem State.consume_sameButStored (s : State) (w l : Nat) (p : RecPlace) :
    ∃ gen, sameButStored (s.modWave w fun wv => wv.spent l p gen) (s.consume w l p) := by
  refine ⟨BitVec.ofNat 16 (Memory.read (s.recordBytes w l p) 14 2 + 1), ?_⟩
  exact (s.privWrite_sameButStored w l (64 * p.slot + 14) _).modWave w _

theorem Wave.thread_spent (wv : Wave) (l : Nat) (p : RecPlace) (gen : BitVec 16) (hl : l < wv.threads.length) :
    (wv.spent l p gen).thread l = (wv.thread l).setPlace (p.spent gen) := wv.thread_modThread l _ hl

/-- Of the places of a thread, those at a slot that is put back are the one put back. -/
theorem Thread.setPlace_slot {t : Thread} {p q : RecPlace} (hq : q ∈ (t.setPlace p).places) (hslot : q.slot = p.slot) : q = p := by
  simp only [Thread.setPlace] at hq
  split at hq
  · obtain ⟨x, -, rfl⟩ := List.mem_map.mp hq
    split at hslot
    · next hx => rw [if_pos hx]
    · next hx => exact absurd hslot hx
  · next hnone =>
    rcases List.mem_append.mp hq with hold | hnew
    · exact absurd (List.any_eq_true.mpr ⟨q, hold, by simpa using hslot⟩) hnone
    · simpa using hnew

/-! ## A lane goes on at its record (R159) -/

/-- A lane that goes on at a record: the record's frames lie on its stack, and the registers, predicates and PC are the record's. -/
def Thread.resumed (t : Thread) (r : Record) (kind : BitVec 2) (l blk issues : Nat) : Thread :=
  { t.restored r l blk with
    frames := r.frames.reverse ++ t.frames, pc := r.pc, wait := .none
    redo := if kind = 1 then (r.redo.filter (·.1)).map fun e => { e.2 with issued := issues } else [] }

theorem Thread.resumed_fields (t : Thread) (r : Record) (kind : BitVec 2) (l blk issues : Nat) : t.resumed r kind l blk issues =
    { t with frames := r.frames.reverse ++ t.frames, pc := r.pc, wait := .none, preds := r.preds ||| 1
             redo := (t.resumed r kind l blk issues).redo, vregs := (t.resumed r kind l blk issues).vregs } := by
  unfold Thread.resumed
  rw [Thread.restored_fields]

theorem Thread.resumed_resumed (t : Thread) (r : Record) (kind : BitVec 2) (l blk issues : Nat) :
    Resumed (t.resumed r kind l blk issues) t r kind l blk issues where
  pc := rfl
  wait := rfl
  frames := rfl
  preds := by rw [Thread.resumed_fields]
  saved k hk := (t.v_restored r l blk k).trans (if_pos hk)
  others k hk := (t.v_restored r l blk k).trans (if_neg (by omega))
  redo := rfl

/-- A wave of which one lane goes on at a record. -/
def Wave.resumed (wv : Wave) (l : Nat) (r : Record) (kind : BitVec 2) : Wave :=
  (wv.restoreRegs [(l, r)]).modThread l fun t =>
    { t with frames := r.frames.reverse ++ t.frames, pc := r.pc, wait := .none
             redo := if kind = 1 then (r.redo.filter (·.1)).map fun e => { e.2 with issued := wv.issues } else [] }

theorem Wave.issues_restoreRegs (wv : Wave) (l : Nat) (r : Record) : (wv.restoreRegs [(l, r)]).issues = wv.issues := by
  unfold Wave.restoreRegs
  have htags := foldl_inv (fun w : Wave => w.issues = wv.issues)
    (fun wv2 k => wv2.retag (([(l, r)].filter fun x => decide (k < x.2.regs.length)).map (·.1)) k 1 (restoredTag wv [(l, r)] k))
    (fun w k hw => by rw [Wave.retag_fields]; exact hw)
  exact htags _ _ rfl

theorem State.resume_one (s : State) (w l : Nat) (r : Record) (kind : BitVec 2) :
    s.resume w [(l, r, kind)] = s.modWave w fun wv => wv.resumed l r kind := by
  unfold State.resume Wave.resumed
  refine congrArg (s.modWave w) (funext fun wv => ?_)
  simp only [List.map_cons, List.map_nil, List.foldl_cons, List.foldl_nil, Wave.issues_restoreRegs]

theorem State.resume_nil (s : State) (w : Nat) : s.resume w [] = s := s.modWave_self w _ rfl

theorem Wave.thread_resumed (wv : Wave) (l : Nat) (r : Record) (kind : BitVec 2) (hl : l < wv.threads.length) :
    (wv.resumed l r kind).thread l = (wv.thread l).resumed r kind l wv.width.block wv.issues := by
  have hin : l < (wv.restoreRegs [(l, r)]).threads.length := by rwa [Wave.length_restoreRegs]
  rw [Wave.resumed, Wave.thread_modThread _ _ _ hin, wv.thread_restoreRegs l r hl, Thread.resumed, Thread.restored_fields]

theorem Wave.length_resumed (wv : Wave) (l : Nat) (r : Record) (kind : BitVec 2) :
    (wv.resumed l r kind).threads.length = wv.threads.length :=
  (Wave.length_modThread _ l _).trans (wv.length_restoreRegs l r)

theorem State.length_consume (s : State) (w l : Nat) (p : RecPlace) : (s.consume w l p).waves.length = s.waves.length := by
  obtain ⟨gen, hconsume⟩ := s.consume_sameButStored w l p
  rw [hconsume.waves, State.modWave_waves, length_modifyAt]

theorem State.length_resume (s : State) (w : Nat) (items : List (Nat × Record × BitVec 2)) :
    (s.resume w items).waves.length = s.waves.length := length_modifyAt ..

theorem State.wave_consume (s : State) (w l : Nat) (p : RecPlace) (hw : w < s.waves.length) :
    ∃ gen, (s.consume w l p).wave w = (s.wave w).spent l p gen := by
  obtain ⟨gen, hconsume⟩ := s.consume_sameButStored w l p
  exact ⟨gen, (hconsume.wave w).trans (s.wave_modWave w _ hw)⟩

theorem State.wave_resume (s : State) (w l : Nat) (r : Record) (kind : BitVec 2) (hw : w < s.waves.length) :
    (s.resume w [(l, r, kind)]).wave w = (s.wave w).resumed l r kind := by
  rw [State.resume_one, State.wave_modWave _ _ _ hw]

end Sys2Proof.Machine

/-! SUPPORT. Deliveries to frame 0 (R170, R374): what the service kernel does with one, and the lane that is answered. -/

namespace Sys2Proof.Machine

/-! ## What is done with a delivery -/

section
variable {s s' : State} {w l : Nat} {d : Delivery} {p : Delivery → Bool} {svc : State → Delivery → Served} {res : List W32}

/-- A delivery in the ring that passes the operation's test is served. -/
theorem State.serveLane_ring (hd : s.deliveryOf w l = some d) (hring : s.inRing d = true) (hp : p d = true) :
    s.serveLane w l p svc = (s.service d svc).getD s := by
  simp only [State.serveLane, hd, hring, hp, Bool.and_self, if_true]

theorem State.serveLane_outside (hd : s.deliveryOf w l = some d) (hring : s.inRing d = false) : s.serveLane w l p svc = s := by
  simp [State.serveLane, hd, hring]

/-- A service with results ends its call with them. -/
theorem State.service_results (hkind : d.kind = 2) (hsvc : svc s d = some (s', res)) (hres : res ≠ []) :
    s.service d svc = some (s'.serveEnd d res) := by
  simp [State.service, hkind, hsvc, hres]

theorem State.service_trap {k : TrapKind} (hkind : d.kind ≠ 2) (hk : TrapKind.ofCode d.name = some k) :
    s.service d svc = some (s.reportEnd (s.wave d.wave).team (.trap k d.src)) := by
  simp only [State.service, if_neg hkind, hk]

theorem State.service_effect (hkind : d.kind ≠ 2) (hk : TrapKind.ofCode d.name = none) :
    s.service d svc = some (s.reportEnd (s.wave d.wave).team (.unhandled d.name)) := by
  simp only [State.service, if_neg hkind, hk]

theorem State.serveEnd_good (hgood : s.badRecord d = none) : s.serveEnd d res = s.serveDone d res := by
  rw [State.serveEnd, hgood]

/-- An operation that serves a lane's delivery answers it with what its service gives. -/
theorem exec_serves {i : Instr} (he : exec i s = .next (s.serveLane w l p svc)) (hd : s.deliveryOf w l = some d)
    (hring : s.inRing d = true) (hp : p d = true) (hkind : d.kind = 2) (hsvc : svc s d = some (s', res)) (hres : res ≠ []) :
    exec i s = .next (s'.serveEnd d res) := by
  rw [he, State.serveLane_ring hd hring hp, State.service_results hkind hsvc hres]
  rfl

end

/-! ## A lane that is answered -/

/-- Results in the registers from register `pb` on. -/
def Thread.given (t : Thread) (pb : Nat) (res : List W32) (n : Nat) : Thread :=
  (res.zipIdx n).foldl (fun t e => t.setV (pb + e.2) e.1) t

theorem Thread.v_given (res : List W32) (pb n k : Nat) (t : Thread) :
    (t.given pb res n).v k = if pb + n ≤ k ∧ k < pb + n + res.length then res.getD (k - (pb + n)) 0 else t.v k := by
  induction res generalizing n t with
  | nil => simp [Thread.given]
  | cons x xs ih =>
    have hstep : t.given pb (x :: xs) n = (t.setV (pb + n) x).given pb xs (n + 1) := rfl
    rw [hstep, ih, Thread.v_setV, List.length_cons]
    by_cases hk : k = pb + n
    · subst hk; simp
    · by_cases hin : pb + (n + 1) ≤ k ∧ k < pb + (n + 1) + xs.length
      · have hsub : k - (pb + n) = (k - (pb + (n + 1))) + 1 := by omega
        rw [if_pos hin, if_pos (by omega), hsub, List.getD_cons_succ]
      · rw [if_neg hin, if_neg hk, if_neg (by omega)]

theorem Thread.given_fields (res : List W32) (pb n : Nat) (t : Thread) :
    t.given pb res n = { t with vregs := (t.given pb res n).vregs } :=
  foldl_rel (fun a b : Thread => b = { a with vregs := b.vregs }) (fun _ => rfl) (fun a b c h1 h2 => by rw [h2, h1])
    (fun (t : Thread) (e : W32 × Nat) => t.setV (pb + e.2) e.1) (fun _ _ => rfl) _ t

/-- A wave of which one lane has been given results. -/
def Wave.given (wv : Wave) (l pb : Nat) (res : List W32) : Wave :=
  (wv.modThread l fun t => t.given pb res 0).retag [l] pb res.length fun _ => .general

/-- The state without a delivery. -/
def State.undelivered (s : State) (d : Delivery) : State := { s with deliveries := s.deliveries.erase d }

theorem State.undelivered_wave (s : State) (d : Delivery) (w : Nat) : (s.undelivered d).wave w = s.wave w := rfl

section
variable {s : State} {d : Delivery} {p : RecPlace} {r : Record} (h : s.tokenRecord d.wave d.lane d.token = some (p, r)) (res : List W32)
include h

/-- An answer spends the delivery's token, restores its record, and then writes the results. -/
theorem State.serveDone_eq : s.serveDone d res =
    (((s.undelivered d).consume d.wave d.lane p).resume d.wave [(d.lane, r, d.kind)]).modWave d.wave
      fun wv => wv.given d.lane d.pb res := by
  rw [State.serveDone, h]
  rfl

theorem State.serveDone_deliveries : (s.serveDone d res).deliveries = s.deliveries.erase d := by
  obtain ⟨gen, hconsume⟩ := (s.undelivered d).consume_sameButStored d.wave d.lane p
  rw [State.serveDone_eq h]
  exact hconsume.deliveries

theorem State.thread_serveDone (hw : d.wave < s.waves.length) (hl : d.lane < (s.wave d.wave).threads.length) :
    ∃ gen, (s.serveDone d res).thread d.wave d.lane =
      (((s.thread d.wave d.lane).setPlace (p.spent gen)).resumed r d.kind d.lane (s.wave d.wave).width.block
        (s.wave d.wave).issues).given d.pb res 0 := by
  have hw1 : d.wave < ((s.undelivered d).consume d.wave d.lane p).waves.length := by rwa [State.length_consume]
  have hw2 : d.wave < (((s.undelivered d).consume d.wave d.lane p).resume d.wave [(d.lane, r, d.kind)]).waves.length := by
    rwa [State.length_resume]
  obtain ⟨gen, hspent⟩ := (s.undelivered d).wave_consume d.wave d.lane p hw
  rw [s.undelivered_wave d] at hspent
  have hl1 : d.lane < ((s.wave d.wave).spent d.lane p gen).threads.length := (Wave.length_modThread ..).symm ▸ hl
  have hl2 : d.lane < (((s.wave d.wave).spent d.lane p gen).resumed d.lane r d.kind).threads.length := by rwa [Wave.length_resumed]
  refine ⟨gen, ?_⟩
  rw [State.serveDone_eq h, State.thread, State.wave_modWave _ _ _ hw2, State.wave_resume _ _ _ _ _ hw1, hspent, Wave.given,
    Wave.retag_thread, Wave.thread_modThread _ _ _ hl2, Wave.thread_resumed _ _ _ _ hl1, Wave.thread_spent _ _ _ _ hl]
  rfl

end

/-- Settles O46: the service kernel's operations serve the lane's delivery, each with its test and its service; an answer spends the token,
restores the record, and then writes the results. -/
theorem deliveriesAreAnswered : Obligations.DeliveriesAreAnswered := by
  unfold Obligations.DeliveriesAreAnswered
  refine ⟨fun s s' w l d res hd hring hkind hsvc hres => ?answered, fun s w l d hd hring => ?outside, fun s w l d hd hring hkind hk => ?effect,
    fun s w l d k hd hring hkind hk => ?trap, fun s s' w l d res i name svc hi hd hring hkind hname hsvc hres hgood => ?services,
    fun s s' w l d res i action hi hd hring hkind hname haction hsvc hres hgood => ?actions, fun s d res p r h hnodup hw hl => ?lane⟩
  case answered =>
    rw [exec_serves (i := .serviceDelivery w l) rfl hd hring rfl hkind hsvc hres, State.serveEnd]
    cases s'.badRecord d <;> rfl
  case outside => exact congrArg Host.Outcome.next (State.serveLane_outside hd hring)
  case effect =>
    have hserved := State.serveLane_ring (p := fun _ => true) (svc := State.systemService) hd hring rfl
    rw [State.service_effect hkind hk] at hserved
    exact congrArg Host.Outcome.next hserved
  case trap =>
    have hserved := State.serveLane_ring (p := fun _ => true) (svc := State.systemService) hd hring rfl
    rw [State.service_trap hkind hk] at hserved
    exact congrArg Host.Outcome.next hserved
  case services =>
    have hp : (d.name == name) = true := beq_iff_eq.mpr hname
    simp only [List.mem_cons, Prod.mk.injEq, List.not_mem_nil, or_false] at hi
    rw [← State.serveEnd_good hgood]
    rcases hi with ⟨rfl, rfl, rfl⟩ | ⟨rfl, rfl, rfl⟩ | ⟨rfl, rfl, rfl⟩ <;> exact exec_serves rfl hd hring hp hkind hsvc hres
  case actions =>
    have hp : (d.name == nameObject && ((s.thread w l).v d.pb).toNat == action) = true := by simp [hname, haction]
    simp only [List.mem_cons, Prod.mk.injEq, List.not_mem_nil, or_false] at hi
    rw [← State.serveEnd_good hgood]
    rcases hi with ⟨rfl, rfl⟩ | ⟨rfl, rfl⟩ | ⟨rfl, rfl⟩ | ⟨rfl, rfl⟩ | ⟨rfl, rfl⟩ | ⟨rfl, rfl⟩ <;>
      exact exec_serves rfl hd hring hp hkind hsvc hres
  case lane =>
    obtain ⟨gen, hthread⟩ := State.thread_serveDone h res hw hl
    have hresumed := ((s.thread d.wave d.lane).setPlace (p.spent gen)).resumed_resumed r d.kind d.lane (s.wave d.wave).width.block
      (s.wave d.wave).issues
    dsimp only
    rw [hthread]
    refine ⟨?pc, ?wait, ?gone, fun k x hx => ?result, fun k x hk hx => ?saved, ?preds⟩
    case pc => rw [Thread.given_fields]; exact hresumed.pc
    case wait => rw [Thread.given_fields]; exact hresumed.wait
    case preds => rw [Thread.given_fields]; exact hresumed.preds
    case gone =>
      rw [State.serveDone_deliveries h]
      exact hnodup.not_mem_erase
    case result =>
      obtain ⟨hlt, rfl⟩ := List.getElem?_eq_some_iff.mp hx
      rw [Thread.v_given, if_pos (by omega)]
      simp [hlt]
    case saved =>
      obtain ⟨hlt, rfl⟩ := List.getElem?_eq_some_iff.mp hx
      rw [Thread.v_given, if_neg (by omega), hresumed.saved k hlt]
      simp [hlt]

end Sys2Proof.Machine

/-! SUPPORT. Resuming, dropping and inspecting tokens (R158 to R162), for a group of one executing lane. -/

namespace Sys2Proof.Machine

/-! ## Destinations -/

theorem State.bindFor_of_not_binds (s : State) (g : Grp) (l : Nat) {e : Entry} (h : e.binds = false) : s.bindFor g l e = s := by
  cases e with
  | ok | clear | gap => rfl
  | unbound | binding => cases h

/-- Whether a destination's code is unbound or being bound stands in its context's records alone. -/
theorem State.entryCheck_binds_congr {s t : State} (h : t.ctxs = s.ctxs) (ctx : Nat) (pc : W64) :
    (t.entryCheck ctx pc).binds = (s.entryCheck ctx pc).binds := by
  have hline : ∀ line : Nat, (if lineTgt line (pcSlot pc) then Entry.ok else Entry.clear).binds = false := fun line => by
    split <;> rfl
  unfold State.entryCheck State.ctx?
  rw [h]
  split
  · rfl
  · split
    · rfl
    · split
      · rfl
      · rfl
      · rw [hline, hline]

theorem State.resumeEntry_binds_congr {s t : State} (h : t.ctxs = s.ctxs) (ctx : Nat) (kind : BitVec 2) (r : Record) :
    (t.resumeEntry ctx kind r).binds = (s.resumeEntry ctx kind r).binds := by
  unfold State.resumeEntry
  split
  · rfl
  · exact State.entryCheck_binds_congr h ctx r.pc

theorem sameButStored.ctxs {s t : State} (h : sameButStored s t) : t.ctxs = s.ctxs := by
  rw [h]

/-! ## Claims on the private space (R153, R316) -/

theorem Thread.claimUnder_fields {t u : Thread} {n : Nat} (h : t.claimUnder n = some u) : u = { t with areas := u.areas } := by
  obtain ⟨x, -, rfl⟩ := Option.map_eq_some_iff.mp h
  rfl

/-- A return record joins the list and claims an area. -/
theorem Thread.addRet_some {t u : Thread} {r : RetRec} (h : t.addRet r = some u) :
    u.rets = r :: t.rets ∧ u = { t with rets := u.rets, areas := u.areas } ∧
      ∃ o, u.areas = t.areas ++ [⟨.ret t.rets.length, o, r.size⟩] ∧ o + r.size ≤ t.psize := by
  unfold Thread.addRet Thread.claim at h
  dsimp only at h
  split at h
  · next hfits =>
    cases h
    exact ⟨rfl, rfl, _, rfl, hfits⟩
  · cases h

/-- The thread whose claims are what a resumption needs, none where it finds no room: under `how`, with the return record `ret` or without. -/
def Thread.roomFor (t : Thread) (how : Resumption) (ret : RetRec) (n : Nat) : Option Thread :=
  (if how = .tail then some t else t.addRet ret).bind fun t => t.claimUnder n

/-- The return records of a lane after a resumption. -/
theorem Thread.roomFor_rets {t u : Thread} {how : Resumption} {ret : RetRec} {n : Nat} (h : t.roomFor how ret n = some u) :
    u.rets = if how = .tail then t.rets else ret :: t.rets := by
  obtain ⟨x, hx, hclaim⟩ := Option.bind_eq_some_iff.mp h
  have hrets : u.rets = x.rets := by rw [Thread.claimUnder_fields hclaim]
  rw [hrets]
  split at hx
  · next htail => cases hx; rw [if_pos htail]
  · next hret => rw [if_neg hret]; exact (Thread.addRet_some hx).1

/-! ## One lane at its token -/

/-- The consumption of the token, where the resumption makes one. -/
def State.spend (s : State) (how : Resumption) (w l : Nat) (p : RecPlace) : State := if how = .keep then s else s.consume w l p

/-- The state after a lane has resumed at its token: its claims, the token's consumption, the record, and the frames that spill. -/
def State.resumedAt (s : State) (how : Resumption) (w l : Nat) (u : Thread) (p : RecPlace) (r : Record) (kind : BitVec 2) : State :=
  ((((s.modThread w l fun t => { t with rets := u.rets, areas := u.areas }).spend how w l p).resume w [(l, r, kind)]).writeSpills w l
    (s.thread w l).areas)

section
variable {g : Grp} {l : Nat} (hlanes : g.lanes = [l])
include hlanes

theorem Grp.lanes_eq_self : ({ g with lanes := [l] } : Grp) = g := by
  rw [← hlanes]

/-- A lane whose record's place can be read does what its instruction does. -/
theorem State.atTokens_one {s : State} (haway : s.tokenAway g.w l (lo64 (g.a l)) = none) (k : Grp → State → State) :
    s.atTokens g k = k g s := by
  have hstay : ([l].filter fun x => (s.tokenAway g.w x (lo64 (g.a x))).isNone) = [l] := by simp [haway]
  have hout : ([l].filter fun x => (s.tokenAway g.w x (lo64 (g.a x))).isSome) = [] := by simp [haway]
  simp only [State.atTokens, hlanes, hstay, hout, Grp.lanes_eq_self hlanes, List.foldl_nil]
  rfl

/-- A resumption whose token, destination and claims pass. -/
theorem State.resumption_passes {s : State} {how : Resumption} {dreg : Nat} {p : RecPlace} {r : Record} {u : Thread}
    (hkind : ¬ (how = .keep ∧ tokKind (lo64 (g.a l)) = 1)) (hcheck : s.checkToken g.w l (lo64 (g.a l)) = .ok (p, r))
    (hok : s.resumeOk g.src.ctx (tokKind (lo64 (g.a l))) r = true)
    (hroom : (s.thread g.w l).roomFor how ((s.wave g.w).returnRecord l r dreg) r.frames.length = some u) :
    s.resumption g how dreg = s.resumedAt how g.w l u p r (tokKind (lo64 (g.a l))) := by
  have hentry : s.resumeEntry g.src.ctx (tokKind (lo64 (g.a l))) r = .ok := by simpa [State.resumeOk] using hok
  have hroom' : ((if how = .tail then some ((s.wave g.w).thread l) else
      ((s.wave g.w).thread l).addRet ((s.wave g.w).returnRecord l r dreg)).bind fun t => t.claimUnder r.frames.length) = some u := hroom
  have hctxs : (s.resumedAt how g.w l u p r (tokKind (lo64 (g.a l)))).ctxs = s.ctxs := by
    unfold State.resumedAt State.spend
    rw [(State.writeSpills_sameButStored _ _ _ _).ctxs]
    split
    · rfl
    · obtain ⟨gen, hconsume⟩ := State.consume_sameButStored (s.modThread g.w l fun t => { t with rets := u.rets, areas := u.areas }) g.w l p
      exact hconsume.ctxs
  have hbind := State.bindFor_of_not_binds (s.resumedAt how g.w l u p r (tokKind (lo64 (g.a l)))) g l
    ((State.resumeEntry_binds_congr hctxs g.src.ctx (tokKind (lo64 (g.a l))) r).trans (by rw [hentry]; rfl))
  unfold State.resumption
  simp only [hlanes, List.filterMap_cons, List.filterMap_nil, if_neg hkind, hcheck, hok, true_or, if_true, List.filter_cons,
    List.filter_nil, hentry, Entry.binds, Bool.not_false, hroom', Option.isSome_some, Option.isNone_some, List.foldl_cons, List.foldl_nil,
    Option.getD_some, List.map_cons, List.map_nil, State.raise_nil]
  exact hbind

/-- A resumption whose token fails its check, or is one that it may not name. -/
theorem State.resumption_traps {s : State} {how : Resumption} {dreg : Nat} {k : TrapKind}
    (h : how = .keep ∧ tokKind (lo64 (g.a l)) = 1 ∧ k = .token ∨
      ¬ (how = .keep ∧ tokKind (lo64 (g.a l)) = 1) ∧ s.checkToken g.w l (lo64 (g.a l)) = .error k) :
    s.resumption g how dreg = s.raise g [(l, k)] := by
  unfold State.resumption
  rcases h with ⟨hhow, hkind, rfl⟩ | ⟨hkind, hcheck⟩
  · simp only [hlanes, List.filterMap_cons, List.filterMap_nil, hhow, hkind, true_and, if_true, List.filter_nil, List.foldl_nil,
      List.map_nil, State.resume_nil]
  · simp only [hlanes, List.filterMap_cons, List.filterMap_nil, if_neg hkind, hcheck, List.filter_nil, List.foldl_nil, List.map_nil,
      State.resume_nil]

/-- A token that passes, and no trap. -/
theorem State.tokens_one {s : State} {p : RecPlace} {r : Record} (hcheck : s.checkToken g.w l (lo64 (g.a l)) = .ok (p, r)) :
    s.tokens g = ([(l, p, r)], []) := by
  simp only [State.tokens, hlanes, List.filterMap_cons, List.filterMap_nil, hcheck]

end

theorem State.checkToken_none {s : State} {w l : Nat} {tok : W64} (h : s.tokenRecord w l tok = none) : s.checkToken w l tok = .error .token := by
  rw [State.checkToken, h]

/-! ## What a resumption makes of its lane -/

/-- The end of an issue does nothing to a thread but release it from its hold. -/
theorem State.thread_finish (m : State) (g : Grp) (hw : g.w < m.waves.length) (l : Nat) :
    (m.finish g).thread g.w l = { m.thread g.w l with hold := ((m.finish g).thread g.w l).hold } := by
  obtain ⟨-, -, hthread⟩ := m.finish_wave g hw
  exact hthread l

theorem State.length_spend (s : State) (how : Resumption) (w l : Nat) (p : RecPlace) : (s.spend how w l p).waves.length = s.waves.length := by
  unfold State.spend
  split
  · rfl
  · exact s.length_consume w l p

/-- The wave of a lane whose token is consumed or kept: places of the lane's records differ, and what the wave's trap queue awaits. -/
theorem State.wave_spend (s : State) (how : Resumption) (w l : Nat) (p : RecPlace) (hw : w < s.waves.length)
    (hl : l < (s.wave w).threads.length) :
    ∃ q ts places, (s.spend how w l p).wave w = { s.wave w with trapq := q, threads := ts } ∧ ts.length = (s.wave w).threads.length ∧
      ts.getD l Thread.blank = { s.thread w l with places := places } ∧
      if how = .keep then places = (s.thread w l).places else ∀ x ∈ places, x.slot = p.slot → x.live = false := by
  unfold State.spend
  split
  · exact ⟨_, _, _, rfl, rfl, rfl, rfl⟩
  · obtain ⟨gen, hwave⟩ := s.wave_consume w l p hw
    refine ⟨_, _, ((s.thread w l).setPlace (p.spent gen)).places, hwave, Wave.length_modThread .., ?_, fun x hx hslot => ?_⟩
    · exact (s.wave w).thread_spent l p gen hl
    · rw [Thread.setPlace_slot hx hslot]
      rfl

/-- The state's wave after a change of its lane's claims. -/
theorem State.wave_modThread (s : State) (w l : Nat) (f : Thread → Thread) (hw : w < s.waves.length) :
    (s.modThread w l f).wave w = (s.wave w).modThread l f := s.wave_modWave w _ hw

/-- The lane that has resumed at its token. -/
theorem State.thread_resumedAt (s : State) (how : Resumption) (w l : Nat) (u : Thread) (p : RecPlace) (r : Record) (kind : BitVec 2)
    (hw : w < s.waves.length) (hl : l < (s.wave w).threads.length) :
    ∃ places, (s.resumedAt how w l u p r kind).thread w l =
      ({ s.thread w l with rets := u.rets, areas := u.areas, places := places } : Thread).resumed r kind l (s.wave w).width.block
        (s.wave w).issues ∧
      if how = .keep then places = (s.thread w l).places else ∀ x ∈ places, x.slot = p.slot → x.live = false := by
  have hw1 : w < (s.modThread w l fun t => { t with rets := u.rets, areas := u.areas }).waves.length :=
    (length_modifyAt ..).symm ▸ hw
  have hwave := s.wave_modThread w l (fun t => { t with rets := u.rets, areas := u.areas }) hw
  have hl1 : l < ((s.modThread w l fun t => { t with rets := u.rets, areas := u.areas }).wave w).threads.length := by
    rw [hwave, Wave.length_modThread]
    exact hl
  have hthread := s.thread_modThread w l (fun t => { t with rets := u.rets, areas := u.areas }) hw hl
  obtain ⟨q, ts, places, hspent, hlen, hlane, hplaces⟩ := State.wave_spend _ how w l p hw1 hl1
  rw [hthread] at hlane hplaces
  refine ⟨places, ?_, hplaces⟩
  unfold State.resumedAt
  rw [(State.writeSpills_sameButStored _ _ _ _).thread, State.thread, State.wave_resume _ _ _ _ _ (by rwa [State.length_spend]), hspent,
    Wave.thread_resumed _ _ _ _ (by rw [← hlen] at hl1; exact hl1), hwave]
  exact congrArg (fun t : Thread => t.resumed r kind l (s.wave w).width.block (s.wave w).issues) hlane

theorem State.length_resumedAt (s : State) (how : Resumption) (w l : Nat) (u : Thread) (p : RecPlace) (r : Record) (kind : BitVec 2) :
    (s.resumedAt how w l u p r kind).waves.length = s.waves.length := by
  unfold State.resumedAt
  rw [(State.writeSpills_sameButStored _ _ _ _).waves, State.length_resume, State.length_spend]
  exact length_modifyAt ..

/-- What an issued instruction makes of the state it finds is all that its effect does. -/
theorem Issues.performsAs {i : Instr} {s : State} {sl : Slot} (h : Issues i s sl) {k : Grp → State → State} {effect : State → State}
    (he : exec i s = issue i s lawful k) (hk : k (s.groupOf i sl) (s.issued (s.groupOf i sl)) = effect (s.issued (s.groupOf i sl))) :
    exec i s = .next (s.after (s.groupOf i sl) effect) := by
  rw [h.performs _ he]
  unfold State.after
  rw [hk]

/-- Of an instruction that resumes its lane at a token. -/
theorem Issues.resumes {i : Instr} {s : State} {sl : Slot} (h : Issues i s sl) {how : Resumption} {dreg : Nat}
    (he : exec i s = issue i s lawful fun g s => s.atTokens g fun g s => s.resumption g how dreg) :
    let g := s.groupOf i sl
    let s1 := s.issued g
    ∀ {l : Nat} {p : RecPlace} {r : Record} {u : Thread}, g.lanes = [l] → ¬ (how = .keep ∧ tokKind (lo64 (g.a l)) = 1) →
      s1.tokenAway g.w l (lo64 (g.a l)) = none → s1.checkToken g.w l (lo64 (g.a l)) = .ok (p, r) →
      s1.resumeOk g.src.ctx (tokKind (lo64 (g.a l))) r = true →
      (s1.thread g.w l).roomFor how ((s1.wave g.w).returnRecord l r dreg) r.frames.length = some u →
      exec i s = .next (s.after g fun s => s.resumedAt how g.w l u p r (tokKind (lo64 (g.a l)))) ∧
      ∃ x, exec i s = .next x ∧
        Resumed (x.thread g.w l) (s1.thread g.w l) r (tokKind (lo64 (g.a l))) l (s1.wave g.w).width.block (s1.wave g.w).issues ∧
        (x.thread g.w l).rets = u.rets ∧
        if how = .keep then (x.thread g.w l).places = (s1.thread g.w l).places
        else ∀ q ∈ (x.thread g.w l).places, q.slot = p.slot → q.live = false := by
  intro g s1 l p r u hlanes hkind haway hcheck hok hroom
  have hl : l ∈ g.lanes := by simp [hlanes]
  have hexec : exec i s = .next (s.after g fun s => s.resumedAt how g.w l u p r (tokKind (lo64 (g.a l)))) :=
    h.performsAs he ((State.atTokens_one hlanes haway _).trans (State.resumption_passes hlanes hkind hcheck hok hroom))
  refine ⟨hexec, _, hexec, ?_⟩
  obtain ⟨places, hthread, hplaces⟩ := s1.thread_resumedAt how g.w l u p r (tokKind (lo64 (g.a l))) h.issued_wave (h.issued_lane hl)
  have hfinish := (s1.resumedAt how g.w l u p r (tokKind (lo64 (g.a l)))).thread_finish g
    ((s1.length_resumedAt how g.w l u p r _).symm ▸ h.issued_wave) l
  have hresumed := ({ s1.thread g.w l with rets := u.rets, areas := u.areas, places := places } : Thread).resumed_resumed r
    (tokKind (lo64 (g.a l))) l (s1.wave g.w).width.block (s1.wave g.w).issues
  obtain ⟨hpc, hwait, hframes, hpreds, hsaved, hothers, hredo⟩ := hresumed
  rw [State.after, hfinish, hthread]
  refine ⟨⟨hpc, hwait, hframes, hpreds, hsaved, hothers, hredo⟩, ?_, ?_⟩
  · rw [Thread.resumed_fields]
  · rw [Thread.resumed_fields]
    exact hplaces

/-- Of an instruction that traps at its lane's token. -/
theorem Issues.resumptionTraps {i : Instr} {s : State} {sl : Slot} (h : Issues i s sl) {how : Resumption} {dreg : Nat}
    (he : exec i s = issue i s lawful fun g s => s.atTokens g fun g s => s.resumption g how dreg) :
    let g := s.groupOf i sl
    let s1 := s.issued g
    ∀ {l : Nat} {k : TrapKind}, g.lanes = [l] → s1.tokenAway g.w l (lo64 (g.a l)) = none →
      (how = .keep ∧ tokKind (lo64 (g.a l)) = 1 ∧ k = .token ∨
        ¬ (how = .keep ∧ tokKind (lo64 (g.a l)) = 1) ∧ s1.checkToken g.w l (lo64 (g.a l)) = .error k) →
      exec i s = .next (s.after g fun s => s.raise g [(l, k)]) := by
  intro g s1 l k hlanes haway hfails
  exact h.performsAs he ((State.atTokens_one hlanes haway _).trans (State.resumption_traps hlanes hfails))

/-! ## Dropping and inspecting (R161, R162) -/

/-- The effect of `dropt` on lanes whose records can be read. -/
def dropTokens (g : Grp) (s : State) : State :=
  ((s.tokens g).1.foldl (fun s e => s.consume g.w e.1 e.2.1) s).raise g (s.tokens g).2

theorem exec_dropt (f : VForm) (s : State) :
    exec (.dropt f) s = issue (.dropt f) s lawful fun g s => s.atTokens g dropTokens := rfl

/-- What `tinfo` writes in a lane. -/
def tokenInfo (g : Grp) (s : State) (l : Nat) : W128 :=
  (((s.tokens g).1.find? fun e => e.1 == l).map fun e => tinfoWords (tokKind (lo64 (g.a l))) e.2.2).getD 0

/-- The effect of `tinfo` on lanes whose records can be read. -/
def tellTokens (g : Grp) (s : State) : State :=
  (s.writeD g ((s.tokens g).1.map (·.1)) (tokenInfo g s) fun _ => .general).raise g (s.tokens g).2

theorem exec_tinfo (f : VForm) (s : State) :
    exec (.tinfo f) s = issue (.tinfo f) s lawful fun g s => s.atTokens g tellTokens := rfl

/-- A write for one lane depends on that lane's value alone. -/
theorem Wave.put_one (wv : Wave) (o : Opnd) (l : Nat) (val : Nat → W128) (tag : Nat → Tag) :
    wv.put o [l] val tag = wv.put o [l] (fun _ => val l) tag := by
  have hlanes : ∀ f : W128 → Thread → Thread, wv.modLanes [l] (fun k => f (val k)) = wv.modLanes [l] fun _ => f (val l) := by
    intro f
    unfold Wave.modLanes
    refine congrArg (fun ts => ({ wv with threads := ts } : Wave)) ?_
    refine List.ext_getElem? fun k => ?_
    rw [List.getElem?_mapIdx, List.getElem?_mapIdx]
    by_cases hk : k = l
    · rw [hk]
    · simp [hk]
  unfold Wave.put
  split
  case h_1 | h_2 | h_3 => exact congrArg (fun wv : Wave => wv.retag [l] _ _ tag) (hlanes fun x t => t.setWords _ _ x)
  case h_6 => exact hlanes fun x t => t.setP _ (x.getLsbD 0)
  all_goals rfl

theorem State.writeD_one (s : State) (g : Grp) (l : Nat) (val : Nat → W128) (tag : Nat → Tag) :
    s.writeD g [l] val tag = s.writeD g [l] (fun _ => val l) tag := by
  unfold State.writeD
  exact congrArg ((s.heal g [l]).modWave g.w) (funext fun wv => wv.put_one _ _ _ _)

/-- Settles O30: a resumption whose checks pass is the lane's claims, the consumption of its token, the record, and the spilled frames. -/
theorem tokensResumeDropAndTell : Obligations.TokensResumeDropAndTell := by
  unfold Obligations.TokensResumeDropAndTell
  refine ⟨fun f s sl l p r u h => ?tail, fun f s sl l p r u h => ?call, fun f s sl l p r u h => ?keep,
    fun t u r h => Thread.addRet_some h, fun f s sl l h => ?token, fun f s sl l h => ?kind, fun f s sl l p r h => ?drop,
    fun f s sl l p r h => ?tell⟩
  case tail =>
    intro g s1 t hlanes haway hcheck hok hroom
    obtain ⟨hexec, x, hx, hresumed, hrets, hplaces⟩ := h.resumes (how := .tail) (dreg := 0) rfl hlanes (by simp) haway hcheck hok hroom
    exact ⟨hexec, x, hx, hresumed, hrets.trans (Thread.roomFor_rets (how := .tail) (ret := (s1.wave g.w).returnRecord l r 0) hroom), hplaces⟩
  case call =>
    intro g s1 t hlanes haway hcheck hok hroom
    obtain ⟨hexec, x, hx, hresumed, hrets, hplaces⟩ := h.resumes (how := .call) (dreg := f.d.toNat) rfl hlanes (by simp) haway hcheck hok hroom
    exact ⟨hexec, x, hx, hresumed, hrets.trans (Thread.roomFor_rets (how := .call) hroom), hplaces⟩
  case keep =>
    intro g s1 t hlanes hkind haway hcheck hok hroom
    obtain ⟨hexec, x, hx, hresumed, hrets, hplaces⟩ :=
      h.resumes (how := .keep) (dreg := f.d.toNat) rfl hlanes (fun hk => hkind hk.2) haway hcheck hok hroom
    exact ⟨hexec, x, hx, hresumed, hrets.trans (Thread.roomFor_rets (how := .keep) hroom), hplaces⟩
  case token =>
    intro g hlanes haway hnone
    exact h.resumptionTraps (how := .tail) (dreg := 0) rfl hlanes haway (.inr ⟨by simp, State.checkToken_none hnone⟩)
  case kind =>
    intro g hlanes haway hkind
    exact h.resumptionTraps (how := .keep) (dreg := f.d.toNat) rfl hlanes haway (.inl ⟨rfl, hkind, rfl⟩)
  case drop =>
    intro g hlanes haway hcheck
    refine h.performsAs (exec_dropt f s) ((State.atTokens_one hlanes haway _).trans ?_)
    rw [dropTokens, State.tokens_one hlanes hcheck, State.raise_nil]
    rfl
  case tell =>
    intro g tok hlanes haway hcheck
    have hinfo : tokenInfo g (s.issued g) l = tinfoWords (tokKind tok) r := by
      rw [tokenInfo, State.tokens_one hlanes hcheck]
      simp [tok]
    refine h.performsAs (exec_tinfo f s) ((State.atTokens_one hlanes haway _).trans ?_)
    rw [tellTokens, State.tokens_one hlanes hcheck, State.raise_nil, List.map_cons, List.map_nil, State.writeD_one, hinfo]
    rfl

end Sys2Proof.Machine

/-! SUPPORT. Barriers (R221, R222, R348): the barrier that an instruction names, and what a lane's arrival and wait make of it and of the lane. -/

namespace Sys2Proof.Machine

/-! ## The barrier of a wave at a level -/

/-- What tells barriers apart. -/
def Barrier.key (b : Barrier) : Nat × Nat × Nat := (b.launch, b.level, b.unit)

/-- Where the barrier of a wave at a level stands depends on what tells barriers apart. -/
theorem State.findIdx?_barrierIs (s : State) (w level : Nat) {bs bs' : List Barrier} (h : bs'.map Barrier.key = bs.map Barrier.key) :
    (bs'.findIdx? fun b => s.barrierIs b w level) = bs.findIdx? fun b => s.barrierIs b w level := by
  have hkey : ∀ xs : List Barrier, (xs.findIdx? fun b => s.barrierIs b w level) = (xs.map Barrier.key).findIdx? fun k =>
      k.1 == (s.team (s.wave w).team).launch && k.2.1 == level && k.2.2 == s.unitOf w level := fun xs => by
    rw [List.findIdx?_map]
    rfl
  rw [hkey, hkey, h]

/-- Opening a barrier changes barriers alone. -/
theorem State.barrierFor_rest (s : State) (w level : Nat) : (s.barrierFor w level).1 = { s with barriers := (s.barrierFor w level).1.barriers } := by
  unfold State.barrierFor
  split <;> rfl

/-- The barrier is found where it was opened. -/
theorem State.findIdx?_barrierFor (s : State) (w level : Nat) :
    ((s.barrierFor w level).1.barriers.findIdx? fun b => s.barrierIs b w level) = some (s.barrierFor w level).2 := by
  unfold State.barrierFor
  split
  · assumption
  · next hnone =>
    have hopen : s.barrierIs { launch := (s.team (s.wave w).team).launch, level := level, unit := s.unitOf w level, phase := 0
                               arrived := [], balance := 0, word := 0, gone := [] } w level = true := by simp [State.barrierIs]
    rw [List.findIdx?_append, hnone]
    simp [hopen]

theorem State.barrierFor_lt (s : State) (w level : Nat) : (s.barrierFor w level).2 < (s.barrierFor w level).1.barriers.length :=
  (List.findIdx?_eq_some_iff_findIdx_eq.mp (s.findIdx?_barrierFor w level)).1

theorem State.barrierFor_found {s : State} {w level i : Nat} (h : (s.barriers.findIdx? fun b => s.barrierIs b w level) = some i) :
    s.barrierFor w level = (s, i) := by
  rw [State.barrierFor, h]

theorem State.barrier_modBarrier (s : State) {i : Nat} (f : Barrier → Barrier) (h : i < s.barriers.length) :
    (s.modBarrier i f).barrier i = f (s.barrier i) := by
  simp only [State.barrier, State.modBarrier, getD_modifyAt _ _ _ _ _ h, if_true]

/-- A barrier that has been opened, and changed in what does not tell it apart, is found again. -/
theorem State.barrierFor_modBarrier (s : State) (w level : Nat) (f : Barrier → Barrier) (hf : ∀ b, (f b).key = b.key) :
    ((s.barrierFor w level).1.modBarrier (s.barrierFor w level).2 f).barrierFor w level =
      ((s.barrierFor w level).1.modBarrier (s.barrierFor w level).2 f, (s.barrierFor w level).2) := by
  refine State.barrierFor_found ?_
  have hfound := s.findIdx?_barrierFor w level
  rw [← s.findIdx?_barrierIs w level (map_modifyAt _ (s.barrierFor w level).2 f _ hf)] at hfound
  generalize (s.barrierFor w level).2 = i at hfound ⊢
  rw [s.barrierFor_rest w level] at hfound ⊢
  exact hfound

/-! ## Arrival words (R348) -/

/-- Two states that differ in what a write to memory changes and in what has been sent. -/
def sameButWord (s t : State) : Prop :=
  t = { s with mem := t.mem, poison := t.poison, dirty := t.dirty, fetchLines := t.fetchLines, fabric := t.fabric }

theorem sameButStored.sameButWord {s t : State} (h : sameButStored s t) : sameButWord s t := by
  unfold Machine.sameButWord
  rw [h]

theorem sameButWord.waves {s t : State} (h : sameButWord s t) : t.waves = s.waves := by rw [h]

theorem sameButWord.barriers {s t : State} (h : sameButWord s t) : t.barriers = s.barriers := by rw [h]

theorem sameButWord.barrier {s t : State} (h : sameButWord s t) (i : Nat) : t.barrier i = s.barrier i := by
  unfold State.barrier
  rw [h.barriers]

theorem sameButWord.thread {s t : State} (h : sameButWord s t) (w l : Nat) : t.thread w l = s.thread w l :=
  State.thread_eq_of_wave (by simp only [State.wave, h.waves]) l

/-- A request whose reply is awaited is one more of what has been sent. -/
theorem State.requestFor_sameButWord {s u : State} {tile w l tag : Nat} {part : List Byte} {use : ReqUse} {p : Packet}
    (h : s.requestFor tile w l part use p = some (u, tag)) : sameButWord s u := by
  obtain ⟨x, -, e⟩ := Option.map_eq_some_iff.mp h
  cases e
  rfl

theorem State.raiseWord_sameButWord (s : State) (bar n w l : Nat) : sameButWord s (s.raiseWord bar n w l).1 := by
  unfold State.raiseWord
  dsimp only
  split
  · rfl
  · split
    · rfl
    · split
      · exact (s.store_sameButStored _ _).sameButWord
      · split
        · next hsent => exact State.requestFor_sameButWord hsent
        · rfl

/-- Whether a barrier's arrival word lies on another package. -/
def State.wordElsewhere (s : State) (b : Barrier) : Bool :=
  (s.launches[b.launch]?).any fun x => x.fabricLevel b.level && recPkg0 x.record != s.fabric.node

/-- Only an arrival at a word of another package awaits a reply (R335). -/
theorem State.wordElsewhere_of_raiseWord {s : State} {bar n w l tag : Nat} (h : (s.raiseWord bar n w l).2 = some tag) :
    s.wordElsewhere (s.barrier bar) = true := by
  unfold State.raiseWord at h
  dsimp only at h
  split at h
  · cases h
  · next x hx =>
    split at h
    · cases h
    · next hword =>
      split at h
      · cases h
      · next haway =>
        simp only [Bool.or_eq_true, Bool.not_eq_true', not_or, Bool.not_eq_false] at hword
        simp [State.wordElsewhere, hx, hword.1, haway]

/-! ## Arrival and wait (R222) -/

/-- A lane that has arrived in a phase. -/
def Thread.arrivedAt (t : Thread) (b : Barrier) (tag : Option Nat) : Thread :=
  { t with arrivals := Sparse.set 0 t.arrivals b.level (b.phase + 1)
           wait := match tag with
             | some t => .remote t
             | none => t.wait }

section
variable (s : State) {bar w l : Nat}

theorem State.arrive_barrier (h : bar < s.barriers.length) :
    (s.arrive bar w l).barrier bar = { s.barrier bar with arrived := (s.barrier bar).arrived ++ [(w, l)] } := by
  have hword := s.raiseWord_sameButWord bar 1 w l
  have hbar : bar < (s.raiseWord bar 1 w l).1.barriers.length := hword.barriers.symm ▸ h
  refine (State.barrier_modBarrier _ _ hbar).trans ?_
  rw [hword.barrier]

theorem State.arrive_thread (hw : w < s.waves.length) (hl : l < (s.wave w).threads.length) :
    (s.arrive bar w l).thread w l = (s.thread w l).arrivedAt (s.barrier bar) (s.raiseWord bar 1 w l).2 := by
  have hword := s.raiseWord_sameButWord bar 1 w l
  have hwave : (s.raiseWord bar 1 w l).1.wave w = s.wave w := by simp only [State.wave, hword.waves]
  have hw' : w < (s.raiseWord bar 1 w l).1.waves.length := hword.waves.symm ▸ hw
  have hl' : l < ((s.raiseWord bar 1 w l).1.wave w).threads.length := hwave.symm ▸ hl
  refine (State.thread_modThread ((s.raiseWord bar 1 w l).1.modBarrier bar _) w l _ hw' hl').trans ?_
  exact congrArg (fun t : Thread => t.arrivedAt (s.barrier bar) (s.raiseWord bar 1 w l).2) (hword.thread w l)

theorem State.arrive_waves : (s.arrive bar w l).waves.length = s.waves.length :=
  (length_modifyAt ..).trans (congrArg List.length (s.raiseWord_sameButWord bar 1 w l).waves)

theorem State.arrive_lanes (hw : w < s.waves.length) : ((s.arrive bar w l).wave w).threads.length = (s.wave w).threads.length := by
  have hword := s.raiseWord_sameButWord bar 1 w l
  have hw' : w < (s.raiseWord bar 1 w l).1.waves.length := hword.waves.symm ▸ hw
  refine (congrArg (fun wv : Wave => wv.threads.length) (State.wave_modWave ((s.raiseWord bar 1 w l).1.modBarrier bar _) w _ hw')).trans ?_
  refine (Wave.length_modThread ..).trans (congrArg (fun wv : Wave => wv.threads.length) ?_)
  show (s.raiseWord bar 1 w l).1.wave w = s.wave w
  simp only [State.wave, hword.waves]

theorem State.waitPhase_wait (g : Grp) (stay : Bool) (hw : g.w < s.waves.length) (hl : l < (s.wave g.w).threads.length) :
    ((s.waitPhase g l bar stay).thread g.w l).wait = .bar bar (s.barrier bar).phase := by
  rw [State.waitPhase, s.thread_modThread g.w l _ hw hl]

end

/-- A lane that has not arrived, and whose arrival nothing holds up, arrives. -/
theorem State.baraLane_arrives {s : State} {g : Grp} {level l : Nat} {stay : Bool}
    (hnot : ((s.barrierFor g.w level).1.barrier (s.barrierFor g.w level).2).has g.w l = false)
    (hroom : (s.barrierFor g.w level).1.wordFull (s.barrierFor g.w level).2 = false) :
    s.baraLane g level stay l =
      if stay then ((s.barrierFor g.w level).1.arrive (s.barrierFor g.w level).2 g.w l).waitPhase g l (s.barrierFor g.w level).2 true
      else (s.barrierFor g.w level).1.arrive (s.barrierFor g.w level).2 g.w l := by
  unfold State.baraLane
  dsimp only
  rw [hnot, hroom]
  rfl

/-! ## The issued group -/

section
variable {i : Instr} {s : State} {sl : Slot} (h : Issues i s sl)
include h

/-- The group's lanes have moved on, and nothing else of them differs (R48). -/
theorem Issues.issued_thread (l : Nat) : ∃ pc redo,
    (s.issued (s.groupOf i sl)).thread (s.groupOf i sl).w l = { s.thread (s.groupOf i sl).w l with pc := pc, redo := redo } := by
  have hmoved : (s.issued (s.groupOf i sl)).wave (s.groupOf i sl).w = s.moved (s.groupOf i sl) := State.wave_modWave s _ _ h.wave
  exact ⟨_, _, (State.thread_eq_of_wave (t := s.issued (s.groupOf i sl)) rfl l).trans
    ((congrArg (fun wv : Wave => wv.thread l) hmoved).trans (thread_stepped_fields s _ h.all l))⟩

end

end Sys2Proof.Machine

/-! SUPPORT. Barrier instructions of one executing lane (R222), the events that end a wait (R147, R221, R223, R227), and the promotion of a group
(R268). -/

namespace Sys2Proof.Machine

/-! ## Barrier instructions (R222) -/

theorem exec_bar (f : VForm) (s : State) : exec (.bar f) s = issue (.bar f) s (fun g => g.omitted f.d.toNat) (barEffect f) := rfl

theorem State.finish_barrier (m : State) (g : Grp) (bar : Nat) : (m.finish g).barrier bar = m.barrier bar := by
  unfold State.barrier
  rw [State.finish_rest]

theorem State.barrierFor_thread (s : State) (w level x l : Nat) : (s.barrierFor w level).1.thread x l = s.thread x l :=
  State.thread_eq_of_wave (by rw [s.barrierFor_rest w level]; rfl) l

theorem State.barrierFor_waves (s : State) (w level : Nat) : (s.barrierFor w level).1.waves = s.waves := by
  rw [s.barrierFor_rest w level]

theorem State.barrierFor_wave (s : State) (w level x : Nat) : (s.barrierFor w level).1.wave x = s.wave x := by
  simp only [State.wave, s.barrierFor_waves]

/-- The effect of `bar` in one lane that arrives and waits. -/
theorem barEffect_arrives {f : VForm} {g : Grp} {s : State} {l : Nat} (hlanes : g.lanes = [l]) (hreplay : g.replay = none)
    (hfailed : s.failedAt g.w f.d.toNat = none)
    (hnot : ((s.barrierFor g.w f.d.toNat).1.barrier (s.barrierFor g.w f.d.toNat).2).has g.w l = false)
    (hroom : (s.barrierFor g.w f.d.toNat).1.wordFull (s.barrierFor g.w f.d.toNat).2 = false) :
    barEffect f g s =
      ((s.barrierFor g.w f.d.toNat).1.arrive (s.barrierFor g.w f.d.toNat).2 g.w l).waitPhase g l (s.barrierFor g.w f.d.toNat).2 true := by
  simp only [barEffect, hfailed, hreplay, hlanes, Option.map_none, Option.getD_none, Bool.false_eq_true, if_false, List.foldl_cons,
    List.foldl_nil, State.baraLane_arrives hnot hroom, if_true]

/-- The bytes that `bara` expects (R222). -/
def baraBytes (f : VForm) (g : Grp) : Int := if f.skb then (lo32 (g.b g.head)).toNat else 0

/-- The group whose bytes have been added to the balance: an arrival that is made again adds none. -/
def Grp.unburdened (g : Grp) : Grp := { g with caps := g.lanes.map fun l => (l, { g.cap l with b := 0 }) }

/-- The effect of `bara`. -/
def baraEffect (f : VForm) (g : Grp) (s : State) : State :=
  let level := f.d.toNat
  if g.lanes.isEmpty then s
  else
    let r := s.barrierFor g.w level
    if (g.lanes.filter fun l => !(r.1.barrier r.2).has g.w l).isEmpty then g.lanes.foldl (fun s l => s.waitPhase g l r.2 false) r.1
    else
      g.lanes.foldl (fun s l => s.baraLane g.unburdened level false l)
        (r.1.modBarrier r.2 fun b => { b with balance := b.balance + baraBytes f g })

theorem exec_bara (f : VForm) (s : State) : exec (.bara f) s = issue (.bara f) s (fun g => g.omitted f.d.toNat) (baraEffect f) := rfl

/-- The state in which a barrier's balance has the bytes that `bara` expects. -/
def State.expecting (s : State) (f : VForm) (g : Grp) : State :=
  (s.barrierFor g.w f.d.toNat).1.modBarrier (s.barrierFor g.w f.d.toNat).2 fun b => { b with balance := b.balance + baraBytes f g }

section
variable {f : VForm} {g : Grp} (s : State)

theorem State.expecting_barrier : (s.expecting f g).barrier (s.barrierFor g.w f.d.toNat).2 =
    { (s.barrierFor g.w f.d.toNat).1.barrier (s.barrierFor g.w f.d.toNat).2 with
      balance := ((s.barrierFor g.w f.d.toNat).1.barrier (s.barrierFor g.w f.d.toNat).2).balance + baraBytes f g } :=
  State.barrier_modBarrier _ _ (s.barrierFor_lt g.w f.d.toNat)

theorem State.expecting_barrierFor :
    (s.expecting f g).barrierFor g.w f.d.toNat = (s.expecting f g, (s.barrierFor g.w f.d.toNat).2) :=
  s.barrierFor_modBarrier g.w f.d.toNat _ fun _ => rfl

theorem State.expecting_wordFull : (s.expecting f g).wordFull (s.barrierFor g.w f.d.toNat).2 =
    (s.barrierFor g.w f.d.toNat).1.wordFull (s.barrierFor g.w f.d.toNat).2 := by
  unfold State.wordFull
  rw [s.expecting_barrier]
  rfl

theorem State.expecting_thread (l : Nat) : (s.expecting f g).thread g.w l = s.thread g.w l := s.barrierFor_thread g.w f.d.toNat g.w l

theorem State.expecting_waves : (s.expecting f g).waves = s.waves := s.barrierFor_waves g.w f.d.toNat

theorem State.expecting_barriers :
    (s.expecting f g).barriers.length = (s.barrierFor g.w f.d.toNat).1.barriers.length := length_modifyAt ..

end

/-- The effect of `bara` in one lane that arrives. -/
theorem baraEffect_arrives {f : VForm} {g : Grp} {s : State} {l : Nat} (hlanes : g.lanes = [l])
    (hnot : ((s.barrierFor g.w f.d.toNat).1.barrier (s.barrierFor g.w f.d.toNat).2).has g.w l = false)
    (hroom : (s.barrierFor g.w f.d.toNat).1.wordFull (s.barrierFor g.w f.d.toNat).2 = false) :
    baraEffect f g s = (s.expecting f g).arrive (s.barrierFor g.w f.d.toNat).2 g.w l := by
  have hlane : (s.expecting f g).baraLane g.unburdened f.d.toNat false l =
      (s.expecting f g).arrive (s.barrierFor g.w f.d.toNat).2 g.w l := by
    have harrives := State.baraLane_arrives (s := s.expecting f g) (g := g.unburdened) (level := f.d.toNat) (l := l) (stay := false)
    have hfor : (s.expecting f g).barrierFor g.unburdened.w f.d.toNat = (s.expecting f g, (s.barrierFor g.w f.d.toNat).2) :=
      s.expecting_barrierFor
    rw [hfor] at harrives
    exact harrives (by rw [s.expecting_barrier]; exact hnot) (s.expecting_wordFull.trans hroom)
  simp only [baraEffect, hlanes, List.isEmpty_cons, Bool.false_eq_true, if_false, List.filter_cons, List.filter_nil, hnot, Bool.not_false,
    if_true, List.foldl_cons, List.foldl_nil]
  exact hlane

/-- The effect of `barw`. -/
def barwEffect (f : VForm) (g : Grp) (s : State) : State :=
  match s.failedAt g.w f.d.toNat with
  | some c => s.failAt g c g.lanes fun _ => true
  | none => g.lanes.foldl (fun s l => s.barwLane g f.d.toNat l) s

theorem exec_barw (f : VForm) (s : State) : exec (.barw f) s = issue (.barw f) s (fun g => g.omitted f.d.toNat) (barwEffect f) := rfl

/-- `barw` in a lane: it waits where the phase of its last arrival is open, and changes no barrier. -/
theorem State.barwLane_waits (s : State) (g : Grp) (level l : Nat) (hw : g.w < s.waves.length) (hl : l < (s.wave g.w).threads.length) :
    (s.barwLane g level l).waves.length = s.waves.length ∧
    (s.barwLane g level l).barrier (s.barrierFor g.w level).2 = (s.barrierFor g.w level).1.barrier (s.barrierFor g.w level).2 ∧
    ((s.barwLane g level l).thread g.w l).wait =
      if Sparse.get 0 (s.thread g.w l).arrivals level = ((s.barrierFor g.w level).1.barrier (s.barrierFor g.w level).2).phase + 1
      then .bar (s.barrierFor g.w level).2 ((s.barrierFor g.w level).1.barrier (s.barrierFor g.w level).2).phase
      else (s.thread g.w l).wait := by
  have hwaves := congrArg List.length (s.barrierFor_waves g.w level)
  have hw' : g.w < (s.barrierFor g.w level).1.waves.length := by rw [hwaves]; exact hw
  have hl' : l < ((s.barrierFor g.w level).1.wave g.w).threads.length := by rw [s.barrierFor_wave]; exact hl
  unfold State.barwLane
  dsimp only
  split
  · exact ⟨(length_modifyAt ..).trans hwaves, rfl, State.waitPhase_wait _ g true hw' hl'⟩
  · refine ⟨(length_modifyAt ..).trans hwaves, rfl, ?_⟩
    rw [State.thread_modThread _ _ _ _ hw' hl']
    show ((s.barrierFor g.w level).1.thread g.w l).wait = _
    rw [s.barrierFor_thread]

/-! ## A phase completes (R221) -/

theorem Wave.length_complete (wv : Wave) (lanes : List Nat) : (wv.complete lanes).threads.length = wv.threads.length := by
  simp [Wave.complete, Wave.unhold]

/-- A lane that leaves its wait has finished the instruction it waited at. -/
theorem Wave.thread_complete (wv : Wave) {lanes : List Nat} {l : Nat} (hl : l < wv.threads.length) (hmem : l ∈ lanes) :
    ((wv.complete lanes).thread l).wait = .none ∧ ((wv.complete lanes).thread l).redo = (wv.thread l).redo.tail := by
  rw [Wave.complete, Wave.thread_unhold, Wave.thread_modLanes _ _ _ _ hl, if_pos hmem]
  exact ⟨rfl, rfl⟩

theorem Wave.mem_atPhase {wv : Wave} {bar phase l : Nat} (h : (wv.thread l).wait = .bar bar phase) :
    l ∈ wv.atPhase bar phase ((wv.thread l).redo.head?.any fun r => r.waitOnly) := by
  have hl := Wave.lt_of_wait (wv := wv) (l := l) (by rw [h]; exact Wait.noConfusion)
  exact List.mem_filter.mpr ⟨List.mem_range.mpr hl, by simp [h]⟩

/-- A lane that waits at a phase goes on when it completes, whether it has arrived or is still to arrive. -/
theorem Wave.wait_release {wv : Wave} {level bar phase l : Nat} (h : (wv.thread l).wait = .bar bar phase) :
    ((wv.release level bar phase).thread l).wait = .none := by
  have hl := Wave.lt_of_wait (wv := wv) (l := l) (by rw [h]; exact Wait.noConfusion)
  have hl1 : l < (wv.complete (wv.atPhase bar phase true)).threads.length := (wv.length_complete _).symm ▸ hl
  have hl2 : l < ((wv.complete (wv.atPhase bar phase true)).modLanes (wv.atPhase bar phase true)
      fun _ t => { t with arrivals := Sparse.set 0 t.arrivals level 0 }).threads.length := by rwa [Wave.length_modLanes]
  unfold Wave.release
  dsimp only
  rw [Wave.thread_modLanes _ _ _ _ hl2]
  split
  · rfl
  · next hout =>
    have hin : l ∈ wv.atPhase bar phase true := by
      have hmem := Wave.mem_atPhase h
      cases hstay : (wv.thread l).redo.head?.any fun r => r.waitOnly <;> rw [hstay] at hmem
      · exact absurd hmem hout
      · exact hmem
    rw [Wave.thread_modLanes _ _ _ _ hl1, if_pos hin]
    exact (wv.thread_complete hl hin).1

/-- The state in which a barrier's next phase is open, its lanes still to be released. -/
def State.nextPhase (s : State) (bar : Nat) : State :=
  let b := s.barrier bar
  let home := (s.launches[b.launch]?).any fun l => recPkg0 l.record == s.fabric.node
  (if home then (s.raiseWord bar (s.exitedIn b + b.goneBy (b.phase + 1)) 0 0).1 else s).modBarrier bar fun b =>
    { b with phase := b.phase + 1, arrived := [], balance := 0 }

/-- The state after a phase has completed. -/
def State.phaseDone (s : State) (bar : Nat) : State :=
  { s.nextPhase bar with
    waves := (s.nextPhase bar).waves.map fun wv => wv.release (s.barrier bar).level bar (s.barrier bar).phase }

theorem exec_barrierPhaseComplete {s : State} {bar : Nat} (h : s.phaseReady bar = true) :
    exec (.barrierPhaseComplete bar) s = .next (s.phaseDone bar) := by
  show execBarrierPhaseComplete bar s = _
  unfold execBarrierPhaseComplete
  dsimp only
  rw [h]
  rfl

/-- The exits that enter the word at PKG0 change no wave and no barrier. -/
theorem State.nextPhase_parts {s : State} {bar : Nat} (hbar : bar < s.barriers.length) : (s.nextPhase bar).waves = s.waves ∧
    (s.nextPhase bar).barrier bar = { s.barrier bar with phase := (s.barrier bar).phase + 1, arrived := [], balance := 0 } := by
  have hword := s.raiseWord_sameButWord bar (s.exitedIn (s.barrier bar) + (s.barrier bar).goneBy ((s.barrier bar).phase + 1)) 0 0
  unfold State.nextPhase
  dsimp only
  split
  · refine ⟨hword.waves, (State.barrier_modBarrier _ _ (hword.barriers.symm ▸ hbar)).trans ?_⟩
    rw [hword.barrier]
  · exact ⟨rfl, s.barrier_modBarrier _ hbar⟩

theorem State.phaseDone_releases {s : State} {bar w l : Nat} (hbar : bar < s.barriers.length)
    (h : (s.thread w l).wait = .bar bar (s.barrier bar).phase) : ((s.phaseDone bar).thread w l).wait = .none := by
  have hw := State.lt_of_wait (s := s) (w := w) (l := l) (by rw [h]; exact Wait.noConfusion)
  have hwave : (s.phaseDone bar).wave w = (s.wave w).release (s.barrier bar).level bar (s.barrier bar).phase := by
    show ((s.nextPhase bar).waves.map _).getD w Wave.blank = _
    rw [(State.nextPhase_parts hbar).1]
    simp [State.wave, hw]
  rw [State.thread, hwave]
  exact Wave.wait_release h

/-! ## Lanes leave their waits (R147, R223, R227) -/

theorem Wave.mayLeave_waits {wv : Wave} {l : Nat} (h : wv.mayLeave l = true) : (wv.thread l).wait ≠ .none := by
  intro hnone
  rw [Wave.mayLeave, hnone] at h
  cases h

/-- The lanes that leave their `join` together. -/
def Wave.leavers (wv : Wave) : List Nat := (List.range wv.width.lanes).filter wv.mayLeave

theorem exec_joinRelease (s : State) (w : Nat) :
    exec (.joinRelease w) s = .next (s.modLanes w (s.wave w).leavers fun _ t => { t with wait := .none }) := rfl

theorem State.thread_modLanes (s : State) {w l : Nat} {lanes : List Nat} (f : Nat → Thread → Thread) (hw : w < s.waves.length)
    (hl : l < (s.wave w).threads.length) (hmem : l ∈ lanes) : (s.modLanes w lanes f).thread w l = f l (s.thread w l) := by
  rw [State.thread, State.modLanes, State.wave_modWave _ _ _ hw, Wave.thread_modLanes _ _ _ _ hl, if_pos hmem]
  rfl

/-- A lane that may leave its `waitp` does, or asks for its word again. -/
theorem exec_waitpRelease {s : State} {w l : Nat} {a goal : W64} (hwait : (s.thread w l).wait = .waitp a goal)
    (hready : s.waitpReady w l = true) (hres : (s.wave w).resident = true) : exec (.waitpRelease w l) s =
      .next (if (s.waitedWord w l a).isSome then s.modWave w fun wv => wv.complete [l]
        else s.modThread w l fun t => { t with wait := .none }) := by
  show execWaitpRelease w l s = _
  unfold execWaitpRelease
  dsimp only
  rw [hready, hres, hwait]
  rfl

theorem State.waitpReady_of_some {s : State} {w l x : Nat} {a goal : W64} (hwait : (s.thread w l).wait = .waitp a goal)
    (hword : s.waitedWord w l a = some x) (hx : goal.toNat ≤ x) : s.waitpReady w l = true := by
  unfold State.waitpReady
  rw [hwait]
  dsimp only
  rw [hword]
  simpa using hx

theorem State.waitpReady_of_none {s : State} {w l : Nat} {a goal : W64} (hwait : (s.thread w l).wait = .waitp a goal)
    (hword : s.waitedWord w l a = none) : s.waitpReady w l = true := by
  unfold State.waitpReady
  rw [hwait]
  dsimp only
  rw [hword]

/-- Lanes whose wait is a given one go on. -/
def Wave.wakeAt (wv : Wave) (wt : Wait) : Wave :=
  { wv with threads := wv.threads.map fun t => if t.wait = wt then { t with wait := .none } else t }

theorem Wave.thread_wakeAt {wv : Wave} {wt : Wait} {l : Nat} (hl : l < wv.threads.length) (h : (wv.thread l).wait = wt) :
    (wv.wakeAt wt).thread l = { wv.thread l with wait := .none } := by
  have hthread : wv.thread l = wv.threads[l] := by simp [Wave.thread, hl]
  rw [hthread] at h ⊢
  simp [Wave.wakeAt, Wave.thread, hl, h]

theorem State.cbacqReady_waits {s : State} {w l : Nat} (h : s.cbacqReady w l = true) : (s.thread w l).wait ≠ .none := by
  intro hnone
  rw [State.cbacqReady, hnone] at h
  cases h

theorem exec_cbacqRelease {s : State} {w l : Nat} (h : s.cbacqReady w l = true) :
    exec (.cbacqRelease w l) s = .next (s.modWave w fun wv => wv.wakeAt (s.thread w l).wait) := by
  show execCbacqRelease w l s = _
  unfold execCbacqRelease
  rw [h]
  rfl

/-! ## Promotion (R268) -/

theorem Wave.hist_pc (wv : Wave) (pc : W64) : (wv.hist pc).pc = pc := by
  unfold Wave.hist
  cases hfind : wv.groups.find? fun h => h.pc == pc with
  | none => rfl
  | some h => simpa using List.find?_some hfind

theorem Wave.hist_setHist (wv : Wave) (h : GroupHist) : (wv.setHist h).hist h.pc = h := by
  have hothers : ((wv.groups.filter fun x => x.pc != h.pc).find? fun x => x.pc == h.pc) = none :=
    List.find?_eq_none.mpr fun x hx => by simpa using (List.mem_filter.mp hx).2
  simp [Wave.hist, Wave.setHist, List.find?_append, hothers]

/-- The history of a group that is promoted. -/
def GroupHist.promotedAt (h : GroupHist) (cycle : Nat) : GroupHist := { h with promoted := true, since := cycle }

theorem exec_groupPromotion {s : State} {w : Nat} {pc : W64} (h : 64 ≤ ((s.wave w).hist pc).count) : exec (.groupPromotion w pc) s =
    .next (s.modWave w fun wv => wv.setHist (((s.wave w).hist pc).promotedAt (s.tile wv.tile).cycle.toNat)) := by
  show execGroupPromotion w pc s = _
  unfold execGroupPromotion
  dsimp only
  rw [if_pos h]
  rfl

theorem State.hist_promoted (s : State) {w : Nat} (pc : W64) (hw : w < s.waves.length) :
    ((s.modWave w fun wv => wv.setHist (((s.wave w).hist pc).promotedAt (s.tile wv.tile).cycle.toNat)).wave w).hist pc =
      ((s.wave w).hist pc).promotedAt (s.tile (s.wave w).tile).cycle.toNat := by
  rw [State.wave_modWave _ _ _ hw]
  have hset := (s.wave w).hist_setHist (((s.wave w).hist pc).promotedAt (s.tile (s.wave w).tile).cycle.toNat)
  rwa [show (((s.wave w).hist pc).promotedAt (s.tile (s.wave w).tile).cycle.toNat).pc = pc from (s.wave w).hist_pc pc] at hset

/-! ## The statement -/

/-- Settles O33: each instruction is one lane's arrival or wait at the barrier it names; each event changes the lanes that it releases. -/
theorem barriersAndReleases : Obligations.BarriersAndReleases := by
  unfold Obligations.BarriersAndReleases
  refine ⟨fun f s sl l h => ?bar, fun f s sl l h => ?bara, fun f s sl l h => ?barw, fun s bar hbar hready => ?phase,
    fun s w l hin hmay => ?join, fun s w l a goal x hwait hword hx hres => ?waitp, fun s w l a goal hwait hword hres => ?again,
    fun s w l hready => ?cbacq, fun s w pc hw hcount => ?promotion⟩
  case bar =>
    intro g r b hlanes hlevel hreplay hfailed hnot hroom
    have hw : g.w < r.1.waves.length := by rw [State.barrierFor_waves]; exact h.issued_wave
    have hl : l < (r.1.wave g.w).threads.length := by rw [State.barrierFor_wave]; exact h.issued_lane (by simp [g, hlanes])
    refine ⟨_, (exec_bar f s).trans (h.run _ _ hlevel), ?_⟩
    have heffect := barEffect_arrives (s := s.issued g) hlanes hreplay hfailed hnot hroom
    have hbarrier := r.1.arrive_barrier (w := g.w) (l := l) ((s.issued g).barrierFor_lt g.w f.d.toNat)
    rw [State.finish_none _ _ hreplay]
    refine ⟨(congrArg (fun t : State => t.barrier r.2) heffect).trans hbarrier, ?_⟩
    refine (congrArg (fun t : State => (t.thread g.w l).wait) heffect).trans ?_
    rw [State.waitPhase_wait _ g true (r.1.arrive_waves.symm ▸ hw) ((r.1.arrive_lanes hw).symm ▸ hl), hbarrier]
  case bara =>
    intro g r b hlanes hlevel hnot hroom
    have hw : g.w < ((s.issued g).expecting f g).waves.length := by rw [State.expecting_waves]; exact h.issued_wave
    have hl : l < (((s.issued g).expecting f g).wave g.w).threads.length := by
      rw [State.wave, State.expecting_waves]; exact h.issued_lane (by simp [g, hlanes])
    have hbar : r.2 < ((s.issued g).expecting f g).barriers.length :=
      (s.issued g).expecting_barriers.symm ▸ (s.issued g).barrierFor_lt g.w f.d.toNat
    have hw' : g.w < (((s.issued g).expecting f g).arrive r.2 g.w l).waves.length := by rw [State.arrive_waves]; exact hw
    have heffect := baraEffect_arrives (s := s.issued g) hlanes hnot hroom
    have hthread := ((s.issued g).expecting f g).arrive_thread (bar := r.2) hw hl
    obtain ⟨pc, redo, hissued⟩ := h.issued_thread l
    have hexec : exec (.bara f) s = .next ((((s.issued g).expecting f g).arrive r.2 g.w l).finish g) :=
      ((exec_bara f s).trans (h.run _ _ hlevel)).trans (congrArg (fun t : State => Host.Outcome.next (t.finish g)) heffect)
    refine ⟨_, hexec, ?_, ?_⟩
    · have hbytes : baraBytes f g = if f.skb then ((lo32 (g.b l)).toNat : Int) else 0 := by simp [baraBytes, Grp.head, hlanes]
      rw [State.finish_barrier, State.arrive_barrier _ hbar, State.expecting_barrier, hbytes]
    · rw [State.thread_finish _ _ hw', hthread, State.expecting_thread, hissued]
      cases htag : (((s.issued g).expecting f g).raiseWord r.2 1 g.w l).2 with
      | none => exact .inl rfl
      | some tag =>
        refine .inr ⟨?_, tag, rfl⟩
        have haway := State.wordElsewhere_of_raiseWord htag
        rw [State.expecting_barrier] at haway
        have hfabric : ((s.issued g).expecting f g).fabric = s.fabric := by
          show r.1.fabric = s.fabric
          rw [State.barrierFor_rest]
          rfl
        unfold State.wordElsewhere at haway
        rw [hfabric] at haway
        exact haway
  case barw =>
    intro g r b hlanes hlevel hfailed
    have hl := h.issued_lane (l := l) (by simp [g, hlanes])
    obtain ⟨hwaves, hbarrier, hwait⟩ := (s.issued g).barwLane_waits g f.d.toNat l h.issued_wave hl
    obtain ⟨pc, redo, hissued⟩ := h.issued_thread l
    have heffect : barwEffect f g (s.issued g) = (s.issued g).barwLane g f.d.toNat l := by
      simp only [barwEffect, hfailed, hlanes, List.foldl_cons, List.foldl_nil]
    have hexec : exec (.barw f) s = .next (((s.issued g).barwLane g f.d.toNat l).finish g) :=
      ((exec_barw f s).trans (h.run _ _ hlevel)).trans (congrArg (fun t : State => Host.Outcome.next (t.finish g)) heffect)
    refine ⟨_, hexec, (State.finish_barrier _ g _).trans hbarrier, ?_⟩
    rw [State.thread_finish _ _ (hwaves.symm ▸ h.issued_wave)]
    rw [hissued] at hwait
    exact hwait
  case phase =>
    exact ⟨_, exec_barrierPhaseComplete hready, (State.nextPhase_parts hbar).2, fun w l hwait => State.phaseDone_releases hbar hwait⟩
  case join =>
    have hwaits := Wave.mayLeave_waits hmay
    have hmem : l ∈ (s.wave w).leavers := List.mem_filter.mpr ⟨List.mem_range.mpr hin, hmay⟩
    have hthread := s.thread_modLanes (fun _ t => { t with wait := .none }) (State.lt_of_wait hwaits) (Wave.lt_of_wait hwaits) hmem
    exact ⟨_, exec_joinRelease s w, by rw [hthread], by rw [hthread], rfl⟩
  case waitp =>
    have hwaits : (s.thread w l).wait ≠ .none := by rw [hwait]; exact Wait.noConfusion
    refine ⟨_, exec_waitpRelease hwait (State.waitpReady_of_some hwait hword hx) hres, ?_⟩
    rw [hword, Option.isSome_some, if_pos rfl, State.thread, State.wave_modWave _ _ _ (State.lt_of_wait hwaits)]
    obtain ⟨hnone, hredo⟩ := (s.wave w).thread_complete (Wave.lt_of_wait hwaits) (List.mem_singleton.mpr rfl)
    exact ⟨hnone, hredo, rfl⟩
  case again =>
    have hwaits : (s.thread w l).wait ≠ .none := by rw [hwait]; exact Wait.noConfusion
    refine ⟨_, exec_waitpRelease hwait (State.waitpReady_of_none hwait hword) hres, ?_⟩
    rw [hword, Option.isSome_none, if_neg Bool.false_ne_true,
      s.thread_modThread w l _ (State.lt_of_wait hwaits) (Wave.lt_of_wait hwaits)]
    exact ⟨rfl, rfl, rfl⟩
  case cbacq =>
    have hwaits := State.cbacqReady_waits hready
    have hthread : (s.modWave w fun wv => wv.wakeAt (s.thread w l).wait).thread w l = { s.thread w l with wait := .none } := by
      rw [State.thread, State.wave_modWave _ _ _ (State.lt_of_wait hwaits)]
      exact Wave.thread_wakeAt (Wave.lt_of_wait hwaits) rfl
    exact ⟨_, exec_cbacqRelease hready, by rw [hthread], by rw [hthread], rfl⟩
  case promotion =>
    have hhist := s.hist_promoted pc hw
    exact ⟨_, exec_groupPromotion hcount, by rw [hhist]; rfl, by rw [hhist]; rfl, rfl⟩

end Sys2Proof.Machine

/-! SUPPORT. The lanes of a memory instruction (R175, R177): parts that are done one after another, in several lanes and in one. -/

namespace Sys2Proof.Machine

/-! ## Lanes in turn -/

theorem State.holdFor_nil (s : State) (g : Grp) : s.holdFor g [] = s := rfl

/-- A sweep over lanes whose parts are all done traps in none of them and leaves none waiting. -/
theorem Sweep.foldl_of_inTurn {g : Grp} {f : State → Nat → State × LaneEnd} (ls : List Nat) {m : Sweep} {t : State}
    (h : inTurn f ls m.st = some t) : ls.foldl (fun (m : Sweep) l => m.lane g f l) m = { m with st := t } := by
  induction ls generalizing m with
  | nil =>
    obtain rfl : m.st = t := Option.some.inj h
    rfl
  | cons l ls ih =>
    unfold inTurn at h
    split at h
    next u hdone =>
      have hlane : m.lane g f l = { m with st := u } := by rw [Sweep.lane, hdone]
      rw [List.foldl_cons, hlane]
      exact ih h
    next => cases h

theorem State.eachLane_of_inTurn {s t : State} {g : Grp} {f : State → Nat → State × LaneEnd} (h : inTurn f g.actors s = some t) :
    s.eachLane g f = t := by
  have hsweep := Sweep.foldl_of_inTurn (g := g) g.actors (m := ⟨s, [], []⟩) h
  simp only [State.eachLane, hsweep, State.holdFor_nil, State.raise_nil]

theorem inTurn_one {f : State → Nat → State × LaneEnd} {s t : State} {l : Nat} (h : f s l = (t, .done)) : inTurn f [l] s = some t := by
  simp only [inTurn, h]

/-- An instruction whose effect is a part for each lane, where every part is done. -/
theorem Issues.performsInTurn {i : Instr} {s t : State} {sl : Slot} (h : Issues i s sl) {part : Grp → State → Nat → State × LaneEnd}
    (he : exec i s = issue i s lawful fun g s => s.eachLane g (part g))
    (ht : inTurn (part (s.groupOf i sl)) (s.groupOf i sl).actors (s.issued (s.groupOf i sl)) = some t) :
    exec i s = .next (t.finish (s.groupOf i sl)) := by
  rw [h.performs _ he, State.after, State.eachLane_of_inTurn ht]

/-- An instruction whose effect is a part for each lane, in its one acting lane, whose part is done. -/
theorem Issues.performsLane {i : Instr} {s t : State} {sl : Slot} (h : Issues i s sl) {part : Grp → State → Nat → State × LaneEnd}
    {l : Nat} (he : exec i s = issue i s lawful fun g s => s.eachLane g (part g)) (hactors : (s.groupOf i sl).actors = [l])
    (hpart : part (s.groupOf i sl) (s.issued (s.groupOf i sl)) l = (t, .done)) :
    exec i s = .next (t.finish (s.groupOf i sl)) :=
  h.performsInTurn he (hactors.symm ▸ inTurn_one hpart)

/-- Settles O23: the sweep over the lanes folds the same parts that `inTurn` performs, and it adds traps and waits only for parts that are
not done. -/
theorem lanesPerformInTurn : Obligations.LanesPerformInTurn := by
  unfold Obligations.LanesPerformInTurn
  refine ⟨fun s t g f h => State.eachLane_of_inTurn h, fun f s sl t h => ?ld, fun f s sl t h => ?st⟩
  case ld =>
    exact h.performsInTurn (part := fun g s l => s.readFor g l (g.addr f.off.toInt l) f.wt.bytes f.wt f.scope f.ord fun s bs =>
      (s.give g l (ofBytes bs), .done)) rfl
  case st =>
    exact h.performsInTurn (part := fun g s l => s.writeFor g l (g.addr f.off.toInt l) f.wt.bytes f.wt f.scope f.ord
      (toBytes (g.b l).toNat f.wt.bytes)) rfl

end Sys2Proof.Machine

/-! SUPPORT. What memory instructions of one acting lane share (R12, R174, R179): accesses whose checks pass, what a read or a write leaves
beside memory, and the frame of a store and of a load. -/

namespace Sys2Proof.Machine

/-! ## Accesses whose checks pass -/

section
variable {s : State} {g : Grp} {l va : Nat} {scope : Scope} {ps : List Piece} {pad : Option (Nat × BitVec 512 × Nat)}

/-- A read that is served here goes on with the bytes (R174). -/
theorem State.readFor_ok {size : Nat} (hpart : g.part = [])
    (hreach : s.reach (s.whoFor g l 0 scope) va size size .read = .ok ps pad) (wt : Ty) (ord : Ord)
    (k : State → List Byte → State × LaneEnd) : s.readFor g l va size wt scope ord k = k (s.count ps) (s.load ps pad) := by
  simp [State.readFor, hpart, hreach]

theorem State.writeFor_ok {align : Nat} {bs : List Byte}
    (hreach : s.reach (s.whoFor g l 1 scope) va bs.length align .write = .ok ps pad) (wt : Ty) (ord : Ord) :
    s.writeFor g l va align wt scope ord bs = ((s.count ps).store ps bs, .done) := by
  simp only [State.writeFor, hreach]

/-- What a read-modify-write makes of the state: its step's bytes, where it writes any (R188, R189). -/
def State.afterStep (s : State) (ps : List Piece) : Option (List Byte) → State
  | some bs => (s.count ps).store ps bs
  | none => s.count ps

theorem State.stepFor_ok {size : Nat} (hpart : g.part = [])
    (hreach : s.reach (s.whoFor g l 3 scope) va size size .rmw = .ok ps pad) (step : List Byte → Option (List Byte))
    (packet : Nat → Nat → Packet) (k : State → List Byte → State × LaneEnd) :
    s.stepFor g l va size scope step packet k = k (s.afterStep ps (step (s.load ps pad))) (s.load ps pad) := by
  simp only [State.stepFor, hpart, hreach]
  cases hstep : step (s.load ps pad) <;> rfl

theorem State.xaLane_ok {mode : Mode} (hreach : s.xaReach g l va mode = .ok ps pad) (packet : Packet → Packet)
    (k : State → List Piece → List Byte → State) :
    s.xaLane g l va mode packet k = (k (s.count ps) ps (s.load ps pad), .done) := by
  simp only [State.xaLane, hreach]

/-- A slot that has been read, where its name has a short pointer (R183). -/
theorem State.swizzleLane_ok {x : W128} {p : W64} (h : s.swizzle (s.who g.w l 0) x = .ok p) :
    s.swizzleLane g l x = (s.give g l p.toNat, .done) := by
  simp only [State.swizzleLane, h]

end

/-! ## What goes with the bytes of memory -/

@[simp] theorem State.count_withMemoryOf (s r : State) (ps : List Piece) : (s.count ps).withMemoryOf r = s.withMemoryOf r :=
  foldl_inv (fun t : State => t.withMemoryOf r = s.withMemoryOf r) State.countPiece
    (fun t p ht => by unfold State.countPiece; split <;> exact ht) ps s rfl

@[simp] theorem State.store_withMemoryOf (s r : State) (ps : List Piece) (bs : List Byte) :
    (s.store ps bs).withMemoryOf r = s.withMemoryOf r := by
  rw [s.store_sameButStored ps bs]
  rfl

@[simp] theorem State.afterStep_withMemoryOf (s r : State) (ps : List Piece) (x : Option (List Byte)) :
    (s.afterStep ps x).withMemoryOf r = s.withMemoryOf r := by
  cases x <;> simp [State.afterStep]

@[simp] theorem State.give_withMemoryOf (s r : State) (g : Grp) (l x : Nat) :
    (s.give g l x).withMemoryOf r = (s.withMemoryOf r).give g l x := rfl

@[simp] theorem State.finish_withMemoryOf (s r : State) (g : Grp) : (s.finish g).withMemoryOf r = (s.withMemoryOf r).finish g := by
  unfold State.finish
  split <;> rfl

@[simp] theorem State.issued_withMemoryOf (s : State) (g : Grp) : (s.issued g).withMemoryOf s = s.issued g := rfl

@[simp] theorem State.give_mem (s : State) (g : Grp) (l x : Nat) : (s.give g l x).mem = s.mem := rfl

@[simp] theorem State.finish_mem (s : State) (g : Grp) : (s.finish g).mem = s.mem := (s.finish_bytes g).1

@[simp] theorem State.issued_mem (s : State) (g : Grp) : (s.issued g).mem = s.mem := rfl

/-- A state whose memory is that of another with bytes written over pieces. -/
theorem sameOutside_of_mem {s t : State} {ps : List Piece} {bs : List Byte} (h : t.mem = Memory.writePieces s.mem ps bs) :
    sameOutside ps s t := by
  intro k hk
  rw [h, Memory.byte_writePieces ps _ _ k hk]

theorem sameOutside_of_mem_eq {s t : State} (ps : List Piece) (h : t.mem = s.mem) : sameOutside ps s t := by
  intro k _
  rw [h]

/-! ## Stores and loads of one acting lane -/

/-- An instruction that has only written memory. -/
theorem Issues.keptBesideMemory {i : Instr} {s m : State} {sl : Slot} (h : Issues i s sl)
    (hm : m.withMemoryOf s = s.issued (s.groupOf i sl)) :
    Kept (s.groupOf i sl) [] 0 s ((m.finish (s.groupOf i sl)).withMemoryOf s) := by
  rw [State.finish_withMemoryOf, hm]
  exact h.kept_advanced

theorem Wrote.mono {wv out : Wave} {ds : List Opnd} {ls ls' : List Nat} {flags : BitVec 5} (h : Wrote wv ds ls flags out)
    (hsub : ∀ l ∈ ls, l ∈ ls') : Wrote wv ds ls' flags out where
  wave := h.wave
  count := h.count
  thread := h.thread
  vregs l r hn := h.vregs l r fun x => hn ⟨hsub l x.1, x.2⟩
  preds l n hn := h.preds l n fun x => hn ⟨hsub l x.1, x.2⟩
  sregs r hn := h.sregs r fun x => hn ⟨List.ne_nil_of_mem (hsub _ (List.head_mem x.1)), x.2⟩

/-- The acting lane of a group executes; where it is one of several, the word is a scalar one (R18). -/
theorem Grp.lane_of_actors {g : Grp} {l : Nat} (h : g.actors = [l]) : l ∈ g.lanes ∧ (g.shape.hd.s = true ∨ g.lanes = [l]) := by
  unfold Grp.actors at h
  split at h
  next hs => exact ⟨List.mem_of_mem_take (h.symm ▸ List.mem_singleton.mpr rfl), .inl hs⟩
  next => exact ⟨h.symm ▸ List.mem_singleton.mpr rfl, .inr h⟩

/-- A scalar operand reads alike in every lane (R18). -/
theorem Wave.operand_scalar (wv : Wave) {o : Opnd} (h : o.scalar = true) (k l : Nat) : wv.operand o k = wv.operand o l := by
  obtain ⟨kind, n⟩ := o
  cases kind with
  | s | sd => rfl
  | none | v | d | q | p | lvl | imm => cases h

/-- A lane result of the one acting lane: all else is kept, and every executing lane reads it. -/
theorem Issues.kept_give {i : Instr} {s : State} {sl : Slot} (h : Issues i s sl) {l : Nat} (x : Nat)
    (hactors : (s.groupOf i sl).actors = [l]) (hd : i.shape.hd.s = true → i.shape.d.scalar = true) :
    let g := s.groupOf i sl
    let t := ((s.issued g).give g l x).finish g
    Kept g [i.shape.d] 0 s t ∧ ∀ k ∈ g.lanes, (t.wave g.w).operand i.shape.d k = shown i.shape.d (BitVec.ofNat 128 x) := by
  intro g t
  obtain ⟨hl, hone⟩ := Grp.lane_of_actors hactors
  have hwave : g.w < ((s.issued g).give g l x).waves.length := (length_modifyAt ..).symm ▸ h.issued_wave
  refine ⟨?_, fun k hk => ?_⟩
  · have hput : Wrote (s.moved g) [i.shape.d] g.lanes 0
        ((s.moved g).put i.shape.d [l] (fun _ => BitVec.ofNat 128 x) fun _ => .general) :=
      (wrote_put _ _ [l] _ _ h.legalD).mono fun k hk => List.mem_singleton.mp hk ▸ hl
    have hout : ((s.issued g).give g l x).wave g.w = (s.moved g).put i.shape.d [l] (fun _ => BitVec.ofNat 128 x) fun _ => .general := by
      rw [State.wave_give _ _ _ _ h.issued_wave]
      exact congrArg (fun wv : Wave => wv.put i.shape.d [l] _ _) (State.wave_modWave s _ _ h.wave)
    refine kept_of_wrote h.all rfl rfl (fun e he => (List.mem_filter.mp he).1) (fun w hne => ?_) hwave hout hput
    exact (State.wave_modWave_ne ((s.issued g).heal g [l]) g.w w _ hne).trans (State.wave_modWave_ne s g.w w _ hne)
  · have hread : (((s.issued g).give g l x).wave g.w).operand i.shape.d l = shown i.shape.d (BitVec.ofNat 128 x) :=
      State.give_operand _ _ _ _ h.issued_wave (h.issued_lane hl) h.legalD
    refine (operand_finish _ g hwave i.shape.d k).trans (Eq.trans ?_ hread)
    rcases hone with hs | hlanes
    · exact Wave.operand_scalar _ (hd hs) k l
    · obtain rfl : k = l := List.mem_singleton.mp (hlanes ▸ hk)
      rfl

/-- A load: its lane result is all that it changes beside memory. -/
theorem Issues.loads {i : Instr} {s m : State} {sl : Slot} (h : Issues i s sl) {l x : Nat} (hactors : (s.groupOf i sl).actors = [l])
    (hd : i.shape.hd.s = true → i.shape.d.scalar = true) (hm : m.withMemoryOf s = s.issued (s.groupOf i sl)) :
    let g := s.groupOf i sl
    let t := (m.give g l x).finish g
    t.mem = m.mem ∧ Kept g [i.shape.d] 0 s (t.withMemoryOf s) ∧
      ∀ k ∈ g.lanes, (t.wave g.w).operand i.shape.d k = shown i.shape.d (BitVec.ofNat 128 x) := by
  intro g t
  have ht : t.withMemoryOf s = ((s.issued g).give g l x).finish g := by simp [t, g, hm]
  obtain ⟨hkept, hread⟩ := h.kept_give x hactors hd
  rw [← ht] at hkept hread
  exact ⟨by simp [t], hkept, hread⟩

end Sys2Proof.Machine

/-! SUPPORT. Loads and stores (R178 to R184, R229), for a group of one acting lane. -/

namespace Sys2Proof.Machine

/-! ## Legal words -/

/-- A legal word is a scalar one only where its row of the tables admits S = 1 (R61). -/
theorem Issues.scalarOk {i : Instr} {s : State} {sl : Slot} (h : Issues i s sl) (hs : i.shape.hd.s = true) : i.rule.scalarOk = true := by
  have hw := h.legal
  simp only [Instr.wf, Instr.illegal, Rule.check, Option.isNone_iff_eq_none] at hw
  rw [Instr.shape] at hs
  by_contra hno
  simp only [hs, eq_false_of_ne_true hno, Bool.not_false, Bool.and_true, if_true] at hw
  split_ifs at hw

/-- A type that its row of the tables does not list makes a word illegal (R61). -/
theorem Instr.wf_of_tyOk {i : Instr} (h : i.rule.tyOk = false) : i.wf = false := by
  simp only [Instr.wf, Instr.illegal, Rule.check, h]
  split <;> rfl

theorem Issues.tyOk {i : Instr} {s : State} {sl : Slot} (h : Issues i s sl) : i.rule.tyOk = true := by
  by_contra hno
  exact absurd h.legal (by simp [Instr.wf_of_tyOk (eq_false_of_ne_true hno)])

theorem Ty.bits_eq_128_iff {t : Ty} : t.bits = 128 ↔ t = .b128 := by
  cases t <;> decide

/-- Under S = 1 the column `r` names scalar registers, but of the type of four words (R102). -/
theorem scalar_resolve_r {t : Ty} {sc : Bool} (ht : t ≠ .b128) (hs : sc = true) (n : BitVec 10) :
    Opnd.scalar ⟨Col.r.resolve t sc, n⟩ = true := by
  have hbits : t.bits ≠ 128 := mt Ty.bits_eq_128_iff.mp ht
  simp only [Col.resolve, if_neg hbits, hs, if_true]
  split <;> rfl

theorem ld_dest_scalar {f : MForm} {s : State} {sl : Slot} (h : Issues (.ld f) s sl) (hs : (Instr.ld f).shape.hd.s = true) :
    (Instr.ld f).shape.d.scalar = true :=
  scalar_resolve_r (bne_iff_ne.mp (h.scalarOk hs)) hs f.d

/-! ## `ld` and `st` (R179) -/

/-- Settles O17: in its one acting lane `ld` is a read that goes on with a lane result. -/
theorem loadReadsItsAddress : Obligations.LoadReadsItsAddress := by
  unfold Obligations.LoadReadsItsAddress
  intro f s sl l ps pad h g s1 hactors hreach
  have hexec := h.performsLane (part := fun g s l => s.readFor g l (g.addr f.off.toInt l) f.wt.bytes f.wt f.scope f.ord fun s bs =>
    (s.give g l (ofBytes bs), .done)) rfl hactors (State.readFor_ok rfl hreach _ _ _)
  obtain ⟨hmem, hkept, hread⟩ := h.loads (x := ofBytes (s1.load ps pad)) (m := s1.count ps) hactors (ld_dest_scalar h) (by simp [s1, g])
  exact ⟨_, hexec, hmem.trans (State.count_mem s1 ps), hkept, hread⟩

/-- What a store of one acting lane leaves: its bytes over its pieces, and nothing else beside memory. -/
theorem Issues.stores {i : Instr} {s : State} {sl : Slot} (h : Issues i s sl) (ps : List Piece) (bs : List Byte) :
    let g := s.groupOf i sl
    let t := (((s.issued g).count ps).store ps bs).finish g
    t.mem = Memory.writePieces s.mem ps bs ∧ sameOutside ps s t ∧ Kept g [] 0 s (t.withMemoryOf s) := by
  intro g t
  have hmem : t.mem = Memory.writePieces s.mem ps bs := by simp [t, State.store_mem, State.count_mem]
  exact ⟨hmem, sameOutside_of_mem hmem, h.keptBesideMemory (by simp [g])⟩

/-- Settles O20: in its one acting lane `st` is a write of its bytes over the pieces that its address reaches. -/
theorem storeWritesItsBytes : Obligations.StoreWritesItsBytes := by
  unfold Obligations.StoreWritesItsBytes
  intro f s sl l ps pad h g s1 hactors hreach
  have hexec := h.performsLane (part := fun g s l => s.writeFor g l (g.addr f.off.toInt l) f.wt.bytes f.wt f.scope f.ord
    (toBytes (g.b l).toNat f.wt.bytes)) rfl hactors (State.writeFor_ok hreach _ _)
  exact ⟨_, hexec, h.stores ps _⟩

/-! ## Names (R183, R184) -/

/-- `ldp` in one lane (R183). -/
def State.ldpLane (s : State) (g : Grp) (f : MForm) (l : Nat) : State × LaneEnd :=
  match g.replay.bind (·.slot) with
  | some x => s.swizzleLane g l x
  | none =>
    s.readFor g l (g.addr f.off.toInt l) 16 f.wt f.scope f.ord fun s bs => s.swizzleLane g l (BitVec.ofNat 128 (ofBytes bs))

theorem State.ldpLane_first {s : State} {g : Grp} {f : MForm} {l : Nat} {ps : List Piece} {pad : Option (Nat × BitVec 512 × Nat)}
    {p : W64} (hpart : g.part = []) (hslot : g.replay.bind (·.slot) = none)
    (hreach : s.reach (s.whoFor g l 0 f.scope) (g.addr f.off.toInt l) 16 16 .read = .ok ps pad)
    (hname : (s.count ps).swizzle ((s.count ps).who g.w l 0) (BitVec.ofNat 128 (ofBytes (s.load ps pad))) = .ok p) :
    s.ldpLane g f l = ((s.count ps).give g l p.toNat, .done) := by
  simp only [State.ldpLane, hslot, State.readFor_ok hpart hreach, State.swizzleLane_ok hname]

/-- A lane that has waited for the record of a name goes on with the slot that it has read (R290). -/
theorem State.ldpLane_again {s : State} {g : Grp} {f : MForm} {l : Nat} {x : W128} {p : W64} (hslot : g.replay.bind (·.slot) = some x)
    (hname : s.swizzle (s.who g.w l 0) x = .ok p) : s.ldpLane g f l = (s.give g l p.toNat, .done) := by
  simp only [State.ldpLane, hslot, State.swizzleLane_ok hname]

theorem exec_ldp (f : MForm) (s : State) :
    exec (.ldp f) s = issue (.ldp f) s lawful fun g s => s.eachLane g fun s l => s.ldpLane g f l := rfl

/-- `nameof` in one lane (R185). -/
def State.nameofLane (s : State) (g : Grp) (l : Nat) : State × LaneEnd :=
  match s.unswizzle g.src.ctx (lo64 (g.a l)) with
  | none => (s, .trap .unnameable)
  | some n => (s.give g l n.toNat, .done)

theorem State.nameofLane_ok {s : State} {g : Grp} {l : Nat} {n : W128} (hname : s.unswizzle g.src.ctx (lo64 (g.a l)) = some n) :
    s.nameofLane g l = (s.give g l n.toNat, .done) := by
  simp only [State.nameofLane, hname]

theorem exec_nameof (f : VForm) (s : State) :
    exec (.nameof f) s = issue (.nameof f) s lawful fun g s => s.eachLane g fun s l => s.nameofLane g l := rfl

/-- A pointer that has a name is stored where the checks on its slot pass (R184). -/
theorem State.stpLane_ok {s : State} {g : Grp} {f : MForm} {l : Nat} {ps : List Piece} {pad : Option (Nat × BitVec 512 × Nat)} {n : W128}
    (hreach : s.reach (s.whoFor g l 1 f.scope) (g.addr f.off.toInt l) 16 16 .write = .ok ps pad)
    (hname : s.unswizzle g.src.ctx (lo64 (g.b l)) = some n) :
    s.stpLane g f l = ((s.count ps).store ps (toBytes n.toNat 16), .done) := by
  simp only [State.stpLane, hreach, hname, Option.getD_some]
  exact State.writeFor_ok (by rw [length_toBytes]; exact hreach) _ _

/-! ## Tensor elements (R181) -/

/-- The entry under which a lane of `ldt` reads: sampled with the checks, or kept from before a wait, of the side that then holds. -/
theorem State.ldtLane_under {s : State} {g : Grp} {f : MForm} {l : Nat} {e : BitVec 512} (hpart : g.part = [])
    (he : g.replay.bind (·.entry) = none ∧ s.ldtEntry (s.who g.w l 0) (lo64 (g.a l)) f.wt.bytes (g.indices l) = .ok e ∨
      ∃ e0, g.replay.bind (·.entry) = some e0 ∧ e = s.atRead (s.who g.w l 0) (lo64 (g.a l)).toNat e0) :
    s.ldtLane g f l = s.ldtUnder g f l e := by
  rcases he with ⟨hnone, hentry⟩ | ⟨e0, hkept, rfl⟩
  · simp only [State.ldtLane, hnone, hentry]
  · simp [State.ldtLane, hkept, hpart]

/-- Bytes of a tensor that are read here (R181). -/
theorem State.tensorRead_ok {s : State} {g : Grp} {f : MForm} {l o : Nat} {e : BitVec 512} {wt : Ty} {ps : List Piece}
    {pad : Option (Nat × BitVec 512 × Nat)} (hpart : g.part = [])
    (haccess : s.tensorAccess (s.whoFor g l 0 f.scope) (lo64 (g.a l)).toNat e o wt.bytes .read = .ok ps pad) (got : List Byte)
    (k : State → List Byte → State × LaneEnd) : s.tensorRead g f l e o wt got k = k (s.count ps) (Memory.readPieces s.mem ps) := by
  simp [State.tensorRead, hpart, haccess]

/-- The bytes of a tensor at an offset, without the pads of its current version where it is sealed (R357). -/
def State.tensorPlain (s : State) (tid : Nat) (e : BitVec 512) (o : Nat) (bs : List Byte) : List Byte :=
  s.unpad (if tSealed e then some (tid, e, o) else none) bs

section
variable {s : State} {g : Grp} {f : MForm} {l : Nat} {e : BitVec 512} {ps : List Piece} {pad : Option (Nat × BitVec 512 × Nat)}
  (hpart : g.part = [])
  (haccess : s.tensorAccess (s.whoFor g l 0 f.scope) (lo64 (g.a l)).toNat e (f.wt.bytes * tElement e (g.indices l)) f.wt.bytes .read =
    .ok ps pad)
include hpart haccess

theorem State.ldtUnder_element (hblk : tBlk e ≠ 1) : s.ldtUnder g f l e =
    ((s.count ps).give g l (ofBytes (s.tensorPlain (lo64 (g.a l)).toNat e (f.wt.bytes * tElement e (g.indices l))
      (Memory.readPieces s.mem ps))), .done) := by
  simp only [State.ldtUnder, State.tensorRead_ok hpart haccess, if_pos hblk]
  rfl

theorem State.ldtUnder_scaled {ps' : List Piece} {pad' : Option (Nat × BitVec 512 × Nat)} (hblk : tBlk e = 1)
    (hscale : (s.count ps).tensorAccess ((s.count ps).whoFor g l 0 f.scope) (lo64 (g.a l)).toNat e (tScale e (g.indices l)) 1 .read =
      .ok ps' pad') : s.ldtUnder g f l e =
    (((s.count ps).count ps').give g l (ofBytes (
      (s.tensorPlain (lo64 (g.a l)).toNat e (f.wt.bytes * tElement e (g.indices l)) (Memory.readPieces s.mem ps)).take 1 ++
      s.tensorPlain (lo64 (g.a l)).toNat e (tScale e (g.indices l)) (Memory.readPieces (s.count ps).mem ps'))), .done) := by
  simp only [State.ldtUnder, State.tensorRead_ok hpart haccess, if_neg (not_not.mpr hblk),
    State.tensorRead_ok (wt := .b8) hpart hscale]
  rfl

end

theorem exec_ldt (f : MForm) (s : State) :
    exec (.ldt f) s = issue (.ldt f) s lawful fun g s => s.eachLane g fun s l => s.ldtLane g f l := rfl

/-! ## Cache lines (R229) -/

theorem exec_cctl_other {f : MopForm} (hf : f.opc ≠ 3) (s : State) : exec (.cctl f) s = issue (.cctl f) s lawful fun _ s => s := by
  show execCctl f s = _
  simp only [execCctl, if_neg hf]

theorem exec_cctl_zero {f : MopForm} (hf : f.opc = 3) (s : State) : exec (.cctl f) s = issue (.cctl f) s lawful fun g s =>
    s.eachLane g fun s l => s.writeFor g l (g.addr f.off.toInt l) 64 f.wt f.scope f.ord (List.replicate 64 0) := by
  show execCctl f s = _
  simp only [execCctl, if_pos hf]

/-! ## The statement -/

/-- Settles O18: each of these is one part in the one acting lane, and its hypotheses select the branch of that part that is done. -/
theorem namesTensorElementsAndLines : Obligations.NamesTensorElementsAndLines := by
  unfold Obligations.NamesTensorElementsAndLines
  refine ⟨fun f s sl l ps pad p h => ?ldp, fun f s sl l x p h => ?again, fun f s sl l n h => ?nameof, fun f => ?ptreq,
    fun f s sl l e ps pad h => ?ldt, fun f s sl l ps pad n h => ?stp, fun f s sl h hf => ?other, fun f s sl l ps pad h hf => ?zero⟩
  case ldp =>
    intro g s1 hactors hslot hreach hname
    exact h.performsLane (exec_ldp f s) hactors (State.ldpLane_first rfl hslot hreach hname)
  case again =>
    intro g s1 hactors hslot hname
    exact h.performsLane (exec_ldp f s) hactors (State.ldpLane_again hslot hname)
  case nameof =>
    intro g hactors hname
    exact h.performsLane (exec_nameof f s) hactors (State.nameofLane_ok hname)
  case ptreq => exact computes_lanesOp (fun a b _ => if a = b then 1 else 0) _ fun _ => rfl
  case ldt =>
    intro g s1 off tid plain hactors hentry haccess
    refine ⟨fun hblk => ?_, fun ps' pad' hblk hscale => ?_⟩
    · exact h.performsLane (exec_ldt f s) hactors ((State.ldtLane_under rfl hentry).trans (State.ldtUnder_element rfl haccess hblk))
    · exact h.performsLane (exec_ldt f s) hactors
        ((State.ldtLane_under rfl hentry).trans (State.ldtUnder_scaled rfl haccess hblk hscale))
  case stp =>
    intro g s1 hactors hreach hname
    have hexec := h.performsLane (part := fun g s l => s.stpLane g f l) rfl hactors (State.stpLane_ok hreach hname)
    exact ⟨_, hexec, h.stores ps _⟩
  case other => exact h.onlyAdvances (exec_cctl_other hf s)
  case zero =>
    intro g s1 hactors hreach
    have hexec := h.performsLane (exec_cctl_zero hf s) hactors (State.writeFor_ok (by rw [List.length_replicate]; exact hreach) _ _)
    exact ⟨_, hexec, h.stores ps _⟩

end Sys2Proof.Machine

/-! SUPPORT. Atomic steps (R187 to R189), for a group of one acting lane. -/

namespace Sys2Proof.Machine

/-! ## What an atomic operation writes back (R187) -/

/-- The types that some operation of `atom` takes. -/
def tysAtom : List Ty := [.u32, .s32, .u64, .s64, .f32, .f64, .f16x2, .b32, .b64]

theorem atomTypes_subset (opc : Nat) : atomTypes opc ⊆ tysAtom := by
  unfold atomTypes
  split <;> decide

theorem tysAtom_narrow : ∀ t ∈ tysAtom, t ≠ .b128 := by decide

theorem tysAtom_float : ∀ t ∈ tysAtom, t.isFloat = true → t = .f32 ∨ t = .f64 := by decide

theorem tysAtom_kind : ∀ t ∈ tysAtom, t.isInt = true ∨ t.isFloat = true ∨ t = .f16x2 ∨ t = .b32 ∨ t = .b64 := by decide

theorem atomTypes_float {opc : Nat} {t : Ty} (h : t ∈ atomTypes opc) (hf : t.isFloat = true) : t = .f32 ∨ t = .f64 :=
  tysAtom_float t (atomTypes_subset opc h) hf

section
variable {t : Ty} {int : Int → Int → Int} {flt : Ty → Nat → Nat → FRes} {a b : W128}

theorem atomArith_int (h : t.isInt = true) : atomArith t int flt a b = ofInt (int (tval t a) (tval t b)) t.bits := by
  have hflt : ¬ (t = .f32 ∨ t = .f64) := by rintro (rfl | rfl) <;> cases h
  have hpair : t ≠ .f16x2 := by rintro rfl; cases h
  rw [atomArith, if_neg hflt, if_neg hpair]

theorem atomArith_float (h : t = .f32 ∨ t = .f64) :
    atomArith t int flt a b = BitVec.ofNat 128 (flt t (lowNat a t.bits) (lowNat b t.bits)).1 := if_pos h

theorem atomArith_pair :
    atomArith .f16x2 int flt a b = (perElem .f16x2 fun h => flt .f16 (elem .f16x2 a h) (elem .f16x2 b h)).1 := rfl

end

theorem atomResult_add (t : Ty) (a b : W128) :
    atomResult 1 t a b = atomArith t (· + ·) (fun t x y => bitsAdd t .rne x y) a b := rfl

theorem atomResult_min (t : Ty) (a b : W128) :
    atomResult 2 t a b = atomArith t min (fun t x y => bitsMinMax t false x y) a b := rfl

theorem atomResult_max (t : Ty) (a b : W128) :
    atomResult 3 t a b = atomArith t max (fun t x y => bitsMinMax t true x y) a b := rfl

/-! ## The steps in one lane (R188, R189) -/

theorem atom_dest_scalar {f : MopForm} {s : State} {sl : Slot} (h : Issues (.atom f) s sl) (hs : (Instr.atom f).shape.hd.s = true) :
    (Instr.atom f).shape.d.scalar = true := by
  have hlisted : f.wt ∈ tysAtom := atomTypes_subset _ (List.contains_iff_mem.mp h.tyOk)
  exact scalar_resolve_r (tysAtom_narrow f.wt hlisted) hs f.d

/-- No legal `atomc` is a scalar one. -/
theorem atomc_not_scalar {f : MForm} {s : State} {sl : Slot} (h : Issues (.atomc f) s sl) : (Instr.atomc f).shape.hd.s ≠ true :=
  fun hs => Bool.noConfusion (h.scalarOk hs)

/-- What a step writes, of memory as the pieces read in it. -/
def Memory.afterStep (m : List Host.Cell) (ps : List Piece) : Option (List Byte) → List Host.Cell
  | some bs => Memory.writePieces m ps bs
  | none => m

theorem State.afterStep_mem (s : State) (ps : List Piece) (x : Option (List Byte)) :
    (s.afterStep ps x).mem = Memory.afterStep s.mem ps x := by
  cases x <;> simp [State.afterStep, Memory.afterStep, State.store_mem, State.count_mem]

theorem sameOutside_afterStep {s t : State} {ps : List Piece} {x : Option (List Byte)} (h : t.mem = Memory.afterStep s.mem ps x) :
    sameOutside ps s t := by
  cases x with
  | none => exact sameOutside_of_mem_eq ps h
  | some bs => exact sameOutside_of_mem h

/-- A read-modify-write of one acting lane that gives the old value. -/
theorem Issues.stepsAndLoads {i : Instr} {s : State} {sl : Slot} (h : Issues i s sl) {l : Nat} (x : Nat) (ps : List Piece)
    (new : Option (List Byte)) (hactors : (s.groupOf i sl).actors = [l]) (hd : i.shape.hd.s = true → i.shape.d.scalar = true) :
    let g := s.groupOf i sl
    let t := (((s.issued g).afterStep ps new).give g l x).finish g
    t.mem = Memory.afterStep s.mem ps new ∧ sameOutside ps s t ∧ Kept g [i.shape.d] 0 s (t.withMemoryOf s) ∧
      ∀ k ∈ g.lanes, (t.wave g.w).operand i.shape.d k = shown i.shape.d (BitVec.ofNat 128 x) := by
  intro g t
  obtain ⟨hmem, hkept, hread⟩ := h.loads (x := x) (m := (s.issued g).afterStep ps new) hactors hd (by simp [g])
  have hmem' := hmem.trans (State.afterStep_mem _ ps new)
  exact ⟨hmem', sameOutside_afterStep hmem', hkept, hread⟩

theorem State.atomLane_ok {s : State} {g : Grp} {f : MopForm} {l : Nat} {ps : List Piece} {pad : Option (Nat × BitVec 512 × Nat)}
    (hpart : g.part = [])
    (hreach : s.reach (s.whoFor g l 3 f.scope) (g.addr f.off.toInt l) f.wt.bytes f.wt.bytes .rmw = .ok ps pad)
    (k : State → Nat → List Byte → State × LaneEnd) : s.atomLane g f k l =
      k (s.afterStep ps (some (atomBytes f.opc.toNat f.wt (g.b l) (s.load ps pad)))) l (s.load ps pad) :=
  State.stepFor_ok hpart hreach _ _ _

/-- `atomc` in one lane (R189). -/
def State.atomcLane (s : State) (g : Grp) (f : MForm) (l : Nat) : State × LaneEnd :=
  s.stepFor g l (g.addr f.off.toInt l) f.wt.bytes f.scope (casBytes f.wt.bytes (g.b l) (g.c l))
    (s.atomPacket g l 0 f.wt f.scope f.ord (lo64 (g.b l)) (toBytes (g.c l).toNat f.wt.bytes ++ toBytes (g.b l).toNat f.wt.bytes))
    fun s old => (s.give g l (ofBytes old), .done)

theorem exec_atomc (f : MForm) (s : State) :
    exec (.atomc f) s = issue (.atomc f) s lawful fun g s => s.eachLane g fun s l => s.atomcLane g f l := rfl

theorem Memory.afterStep_casBytes (m : List Host.Cell) (ps : List Piece) (size : Nat) (b c : W128) (old : List Byte) :
    Memory.afterStep m ps (casBytes size b c old) =
      if old = toBytes b.toNat size then Memory.writePieces m ps (toBytes c.toNat size) else m := by
  unfold casBytes
  split <;> rfl

/-- Settles O21: the table is that of `atomResult`; each instruction is one step over its pieces in the one acting lane. -/
theorem atomicStepResults : Obligations.AtomicStepResults := by
  unfold Obligations.AtomicStepResults
  refine ⟨fun a b => ⟨fun _ _ => rfl, fun _ _ => ⟨rfl, rfl, rfl⟩, fun t _ hi => ?addInt, fun t _ hi => ?minMaxInt,
      fun t ht hf => ?addFloat, fun t ht hf => ?minMaxFloat, ?addPair, fun hle => if_pos hle, fun hlt => if_neg (by omega),
      fun hstay => if_pos hstay, fun hne hle => if_neg (by omega)⟩,
    fun opc t ht => tysAtom_kind t (atomTypes_subset opc ht), fun f hty => ?illegal, fun f s sl l ps pad h => ?atom,
    fun f s sl l ps pad h => ?red, fun f s sl l ps pad h => ?atomc⟩
  case addInt => rw [atomResult_add, atomArith_int hi]
  case minMaxInt =>
    rw [atomResult_min, atomResult_max, atomArith_int hi, atomArith_int hi]
    exact ⟨rfl, rfl⟩
  case addFloat => rw [atomResult_add, atomArith_float (atomTypes_float ht hf), bitsAdd]
  case minMaxFloat =>
    rw [atomResult_min, atomResult_max, atomArith_float (atomTypes_float ht hf), atomArith_float (atomTypes_float ht hf)]
    exact ⟨rfl, rfl⟩
  case addPair =>
    rw [atomResult_add, atomArith_pair]
    rfl
  case illegal =>
    have hcontains : (atomTypes f.opc.toNat).contains f.wt = false := by simpa using hty
    exact ⟨Instr.wf_of_tyOk hcontains, Instr.wf_of_tyOk hcontains⟩
  case atom =>
    intro g s1 hactors hreach
    have hexec := h.performsLane
      (part := fun g s l => s.atomLane g f (fun s l old => (s.give g l (ofBytes old), .done)) l) rfl hactors
      (State.atomLane_ok rfl hreach _)
    exact ⟨_, hexec, h.stepsAndLoads _ ps _ hactors (atom_dest_scalar h)⟩
  case red =>
    intro g s1 hactors hreach
    have hexec := h.performsLane (part := fun g s l => s.atomLane g f (fun s _ _ => (s, .done)) l) rfl hactors
      (State.atomLane_ok rfl hreach _)
    exact ⟨_, hexec, h.stores ps _⟩
  case atomc =>
    intro g s1 hactors hreach
    have hexec := h.performsLane (exec_atomc f s) hactors (State.stepFor_ok rfl hreach _ _ _)
    obtain ⟨hmem, hsame, hkept, hread⟩ := h.stepsAndLoads (ofBytes (s1.load ps pad)) ps
      (casBytes f.wt.bytes (g.b l) (g.c l) (s1.load ps pad)) hactors fun hs => absurd hs (atomc_not_scalar h)
    exact ⟨_, hexec, hmem.trans (Memory.afterStep_casBytes ..), hsame, hkept, hread⟩

end Sys2Proof.Machine

/-! SUPPORT. Flagged stores and exact accumulators (R192, R195 to R197), for a group of one acting lane. -/

namespace Sys2Proof.Machine

theorem exec_rstf (f : MForm) (s : State) :
    exec (.rstf f) s = issue (.rstf f) s lawful fun g s => s.eachLane g fun s l => s.rstfLane g f l := rfl

/-- Both accesses of `rstf` served here: the element, and then the increment of the pennant word (R192). -/
theorem State.rstfLane_ok {s : State} {g : Grp} {f : MForm} {l : Nat} {pa pg : List Piece} {pad pad' : Option (Nat × BitVec 512 × Nat)}
    (hdata : s.reach (s.whoFor g l 1 .dev) (g.addr f.off.toInt l) f.wt.bytes f.wt.bytes .write = .ok pa pad)
    (hflag : s.reach { s.whoFor g l 1 .dev with acc := 3, late := (s.whoFor g l 1 .dev).late && (g.replay.bind (·.slot)).isSome }
      (lo64 (g.c l)).toNat 8 8 .rmw = .ok pg pad')
    (ha : g.addr f.off.toInt l < 4 * 2 ^ 60) (hp : (lo64 (g.c l)).toNat < 4 * 2 ^ 60)
    (hkind : (s.homeOf ((s.physOf (s.whoFor g l 1 .dev) (g.addr f.off.toInt l)).getD 0)).1 =
      (s.homeOf ((s.physOf (s.whoFor g l 1 .dev) (lo64 (g.c l)).toNat).getD 0)).1)
    (hnode : (s.homeOf ((s.physOf (s.whoFor g l 1 .dev) (g.addr f.off.toInt l)).getD 0)).2.1 =
      (s.homeOf ((s.physOf (s.whoFor g l 1 .dev) (lo64 (g.c l)).toNat).getD 0)).2.1) :
    s.rstfLane g f l =
      (((s.count (pa ++ pg)).store pa (toBytes (g.b l).toNat f.wt.bytes)).store pg
        (bumpBytes (((s.count (pa ++ pg)).store pa (toBytes (g.b l).toNat f.wt.bytes)).load pg pad')), .done) := by
  have hregion : ¬ (4 * 2 ^ 60 ≤ g.addr f.off.toInt l ∨ 4 * 2 ^ 60 ≤ (lo64 (g.c l)).toNat) := by omega
  simp only [State.rstfLane, hdata, hflag, Acc.passed, Bool.not_true, Bool.false_eq_true, if_false, if_neg hregion, hkind, hnode, ne_eq,
    not_true_eq_false, or_self]

theorem exec_exadd (f : MForm) (s : State) :
    exec (.exadd f) s = issue (.exadd f) s lawful fun g s => s.eachLane g fun s l =>
      s.xaLane g l (g.addr f.off.toInt l) .rmw
        (fun p => { p with wt := .f64, scope := f.scope, ord := f.ord, data := toBytes (lo64 (g.b l)).toNat 8 })
        fun s ps bs => s.store ps (xaAdd (lo64 (g.b l)).toNat bs) := rfl

theorem exec_exclr (f : MForm) (s : State) :
    exec (.exclr f) s = issue (.exclr f) s lawful fun g s => s.eachLane g fun s l =>
      s.xaLane g l (g.addr f.off.toInt l) .write (fun p => { p with wt := .b32, scope := f.scope, ord := f.ord })
        fun s ps _ => s.store ps (List.replicate 288 0) := rfl

/-- `exrnd` in one lane (R197). -/
def State.exrndLane (s : State) (g : Grp) (f : MopForm) (l : Nat) : State × LaneEnd :=
  if g.part.isEmpty then
    s.xaLane g l (g.addr f.off.toInt l) .read (fun p => { p with wt := .f64, opc := f.opc, scope := f.scope, ord := f.ord })
      fun s _ bs => s.giveRounded g l (xaRound (xaRnd f.opc) bs)
  else (s.giveRounded g l (ofBytes (g.part.take 8), BitVec.ofNat 5 (ofBytes (g.part.drop 8))), .done)

theorem exec_exrnd (f : MopForm) (s : State) :
    exec (.exrnd f) s = issue (.exrnd f) s lawful fun g s => s.eachLane g fun s l => s.exrndLane g f l := rfl

theorem State.exrndLane_ok {s : State} {g : Grp} {f : MopForm} {l : Nat} {ps : List Piece} {pad : Option (Nat × BitVec 512 × Nat)}
    (hpart : g.part = []) (hreach : s.xaReach g l (g.addr f.off.toInt l) .read = .ok ps pad) :
    s.exrndLane g f l = ((s.count ps).giveRounded g l (xaRound (xaRnd f.opc) (s.load ps pad)), .done) := by
  simp only [State.exrndLane, hpart, List.isEmpty_nil, if_true, State.xaLane_ok hreach]

/-- Settles O22: each instruction is one part in the one acting lane, whose accesses are served here. -/
theorem flaggedStoreAndAccumulatorSteps : Obligations.FlaggedStoreAndAccumulatorSteps := by
  unfold Obligations.FlaggedStoreAndAccumulatorSteps
  refine ⟨fun f s sl l pa pad pg pad' h => ?rstf, fun f s sl l ps pad h => ?exadd, fun f s sl l ps pad h => ?exclr,
    fun f s sl l ps pad h => ?exrnd⟩
  case rstf =>
    intro g s1 who a p home hactors hdata hflag ha hp hkind hnode
    exact h.performsLane (exec_rstf f s) hactors (State.rstfLane_ok hdata hflag ha hp hkind hnode)
  case exadd =>
    intro g s1 hactors hreach
    exact h.performsLane (exec_exadd f s) hactors (State.xaLane_ok hreach _ _)
  case exclr =>
    intro g s1 hactors hreach
    exact h.performsLane (exec_exclr f s) hactors (State.xaLane_ok hreach _ _)
  case exrnd =>
    intro g s1 hactors hreach
    exact h.performsLane (exec_exrnd f s) hactors (State.exrndLane_ok rfl hreach)

end Sys2Proof.Machine

/-! SUPPORT. Circular buffers, waits for pennants and `halt` (R223, R225 to R227, R230): an instruction performed once for its group, and a
lane that waits. -/

namespace Sys2Proof.Machine

/-! ## An instruction performed once for its group (R200) -/

theorem State.onceFor_head {s : State} {g : Grp} (f : State → Nat → State × LaneEnd) (hlanes : g.lanes ≠ []) :
    s.onceFor g f = match f s g.head with
      | (s', .done) => s'
      | (s', .trap k) => s'.raiseAll g k g.lanes
      | (s', .wait wt post) => g.lanes.foldl (fun s x => s.block g x (s'.waitFor wt post).2) (s'.waitFor wt post).1
      | (s', .kept slot entry wt post) =>
        g.lanes.foldl (fun s x => (s.block g x (s'.waitFor wt post).2).keep g x slot entry) (s'.waitFor wt post).1 := by
  unfold State.onceFor Grp.head
  cases hg : g.lanes with
  | nil => exact absurd hg hlanes
  | cons l ls => rfl

/-- The group's part is done: that is all that happens. -/
theorem State.onceFor_done {s t : State} {g : Grp} {f : State → Nat → State × LaneEnd} (hlanes : g.lanes ≠ [])
    (hpart : f s g.head = (t, .done)) : s.onceFor g f = t := by
  rw [State.onceFor_head f hlanes, hpart]

/-- An instruction whose effect is a part for its group, where that part is done. -/
theorem Issues.performsOnce {i : Instr} {s t : State} {sl : Slot} (h : Issues i s sl) {part : Grp → State → Nat → State × LaneEnd}
    (he : exec i s = issue i s lawful fun g s => s.onceFor g (part g)) (hlanes : (s.groupOf i sl).lanes ≠ [])
    (hpart : part (s.groupOf i sl) (s.issued (s.groupOf i sl)) (s.groupOf i sl).head = (t, .done)) :
    exec i s = .next (t.finish (s.groupOf i sl)) := by
  rw [h.performs _ he, State.after, State.onceFor_done hlanes hpart]

/-- The group's part waits for something that is neither posted nor recalled: every executing lane waits for it. -/
theorem State.onceFor_waits {s t : State} {g : Grp} {f : State → Nat → State × LaneEnd} {wt : Wait} (hlanes : g.lanes ≠ [])
    (hpart : f s g.head = (t, .wait wt none)) (hwait : t.waitFor wt none = (t, wt)) :
    s.onceFor g f = g.lanes.foldl (fun s x => s.block g x wt) t := by
  rw [State.onceFor_head f hlanes, hpart]
  simp only [hwait]

/-! ## A lane that waits (R175) -/

/-- A group of one lane, whose part waits for something that is neither posted nor recalled. -/
theorem State.eachLane_waits {s t : State} {g : Grp} {f : State → Nat → State × LaneEnd} {l : Nat} {wt : Wait} (hlanes : g.lanes = [l])
    (hpart : f s l = (t, .wait wt none)) (hwait : t.waitFor wt none = (t, wt)) : s.eachLane g f = t.block g l wt := by
  have hactors : g.actors = [l] := by simp [Grp.actors, hlanes]
  have hparty : g.party l = [l] := by simp [Grp.party, hlanes]
  have hnone : g.lanes.filter (fun k => !([l] : List Nat).contains k) = [] := by simp [hlanes]
  simp only [State.eachLane, hactors, List.foldl_cons, List.foldl_nil, Sweep.lane, hpart, hwait, hparty, List.nil_append, State.raise_nil]
  rw [State.holdFor, hnone, State.modLanes_nil]
  rfl

theorem Issues.block_wait {i : Instr} {s : State} {sl : Slot} (h : Issues i s sl) {l : Nat} (hl : l ∈ (s.groupOf i sl).lanes)
    (wt : Wait) :
    ((((s.issued (s.groupOf i sl)).block (s.groupOf i sl) l wt).finish (s.groupOf i sl)).thread (s.groupOf i sl).w l).wait = wt := by
  have hwaves : (s.groupOf i sl).w < ((s.issued (s.groupOf i sl)).block (s.groupOf i sl) l wt).waves.length :=
    (length_modifyAt ..).symm ▸ h.issued_wave
  rw [State.thread_finish _ _ hwaves, State.block, State.thread_modThread _ _ _ _ h.issued_wave (h.issued_lane hl)]

/-! ## Circular buffers (R225 to R227) -/

theorem Block.length_bytes (b : Block) : b.bytes.length = 32 := by simp [Block.bytes]

/-- `cbdef` for its group (R226). -/
def State.cbdefFor (s : State) (f : VForm) (g : Grp) (l : Nat) : State × LaneEnd :=
  let base := (lo64 (g.a l)).toNat
  let size := (word32 (g.b l) 0).toNat
  let count := (word32 (g.b l) 1).toNat
  let block := (lo64 (g.c l)).toNat
  match if g.replay.any (·.late) then none else s.cbdefCheck g.src.ctx base size count block with
  | some k => (s, .trap k)
  | none =>
    let r := s.writeFor g l block 32 .b128 .dev .rel (Block.bytes ⟨count, 0, 0, 0, base, size, count⟩)
    match r with
    | (s', .done) => (s'.keepBlock g f block, .done)
    | r => r

theorem exec_cbdef (f : VForm) (s : State) :
    exec (.cbdef f) s = issue (.cbdef f) s lawful fun g s => s.onceFor g fun s l => s.cbdefFor f g l := rfl

theorem exec_cbacq (f : VForm) (s : State) :
    exec (.cbacq f) s = issue (.cbacq f) s lawful fun g s => s.onceFor g fun s l => s.cbacqFor g l := rfl

theorem exec_cbrel (f : VForm) (s : State) :
    exec (.cbrel f) s = issue (.cbrel f) s lawful fun g s => s.onceFor g fun s l => s.cbrelFor g l := rfl

section
variable {s : State} {g : Grp} {l : Nat} {ps : List Piece} {pad : Option (Nat × BitVec 512 × Nat)}

theorem State.writeBlock_ok {va : Nat} (hreach : s.reach (s.whoFor g l 1 .dev) va 32 32 .write = .ok ps pad) (b : Block) :
    s.writeFor g l va 32 .b128 .dev .rel b.bytes = ((s.count ps).store ps b.bytes, .done) :=
  State.writeFor_ok (b.length_bytes.symm ▸ hreach) _ _

/-- A `cbdef` whose checks pass, of a block that is reached here (R226). -/
theorem State.cbdefFor_ok (f : VForm) (hcheck : s.cbdefCheck g.src.ctx (lo64 (g.a l)).toNat (word32 (g.b l) 0).toNat
      (word32 (g.b l) 1).toNat (lo64 (g.c l)).toNat = none)
    (hreach : s.reach (s.whoFor g l 1 .dev) (lo64 (g.c l)).toNat 32 32 .write = .ok ps pad) :
    s.cbdefFor f g l = (((s.count ps).store ps (Block.bytes ⟨(word32 (g.b l) 1).toNat, 0, 0, 0, (lo64 (g.a l)).toNat,
      (word32 (g.b l) 0).toNat, (word32 (g.b l) 1).toNat⟩)).keepBlock g f (lo64 (g.c l)).toNat, .done) := by
  simp only [State.cbdefFor, hcheck, ite_self, State.writeBlock_ok hreach]

/-- A `cbacq` of a block that is reached here (R227). -/
theorem State.cbacqFor_ok (hregion : blockRegion (lo64 (g.a l)).toNat = true)
    (hreach : s.reach (s.whoFor g l 3 .dev) (lo64 (g.a l)).toNat 32 32 .rmw = .ok ps pad) :
    s.cbacqFor g l =
      if (Block.of (s.load ps pad)).filled = 0 then (s, .wait (.cbacq (lo64 (g.a l)) g.shape.d.num.toNat) none)
      else (((s.count ps).store ps (Block.of (s.load ps pad)).take.bytes).giveSlot g
        ((Block.of (s.load ps pad)).slotAt (Block.of (s.load ps pad)).get), .done) := by
  simp [State.cbacqFor, hregion, hreach]

theorem State.cbrelFor_ok (hregion : blockRegion (lo64 (g.a l)).toNat = true)
    (hreach : s.reach (s.whoFor g l 3 .dev) (lo64 (g.a l)).toNat 32 32 .rmw = .ok ps pad) :
    s.cbrelFor g l = ((s.count ps).store ps (Block.bytes { Block.of (s.load ps pad) with
      free := ((Block.of (s.load ps pad)).free + 1) % 2 ^ 32 }), .done) := by
  simp [State.cbrelFor, hregion, hreach]

end

/-! ## Pennant words (R223) -/

section
variable {s : State} {g : Grp} {f : MForm} {l : Nat} {ps : List Piece} {pad : Option (Nat × BitVec 512 × Nat)}
  (hreach : s.reach (s.whoFor g l 0 f.scope) (g.addr f.off.toInt l) 8 8 .read = .ok ps pad)
include hreach

theorem State.waitpLane_reached (hgoal : (lo64 (g.b l)).toNat ≤ ofBytes (s.load ps pad)) : s.waitpLane g f l = (s.count ps, .done) := by
  simp only [State.waitpLane, hreach, if_pos hgoal]

theorem State.waitpLane_short (hgoal : ofBytes (s.load ps pad) < (lo64 (g.b l)).toNat) :
    s.waitpLane g f l = (s, .wait (.waitp (BitVec.ofNat 64 (g.addr f.off.toInt l)) (lo64 (g.b l))) none) := by
  simp only [State.waitpLane, hreach, if_neg (Nat.not_le.mpr hgoal)]

end

/-! ## `halt` (R230) -/

/-- The state that `halt` leaves, `l` being the first of its lanes. -/
def State.haltedAt (s : State) (g : Grp) (l : Nat) : State :=
  let s1 := s.modLanes g.w g.lanes fun _ t => { t with wait := .halted }
  { s1 with pkg := { s1.pkg with log := s1.pkg.log ++ [.halted g.w l g.pc] }
            agenda := if (s.launchOf g.src.team).any (·.debugged) then s1.agenda else s1.agenda ++ [.teamEnd g.src.team (.halt g.pc)] }

theorem exec_halt (f : VForm) (s : State) : exec (.halt f) s = issue (.halt f) s lawful fun g s =>
    match g.lanes with
    | [] => s
    | l :: _ => s.haltedAt g l := rfl

theorem State.haltedAt_wait {s : State} {g : Grp} (l : Nat) {k : Nat} (hk : k ∈ g.lanes) (hw : g.w < s.waves.length)
    (hl : k < (s.wave g.w).threads.length) : (((s.haltedAt g l).finish g).thread g.w k).wait = .halted := by
  have hwaves : g.w < (s.haltedAt g l).waves.length := (length_modifyAt ..).symm ▸ hw
  have hthread : (s.haltedAt g l).thread g.w k = { s.thread g.w k with wait := .halted } := State.thread_modLanes s _ hw hl hk
  rw [State.thread_finish _ _ hwaves, hthread]

/-! ## The statement -/

/-- Settles O34: the buffers are one part for the group, `waitp` one for its lane, and `halt` one change of its lanes beside the log. -/
theorem buffersPennantsAndHalt : Obligations.BuffersPennantsAndHalt := by
  unfold Obligations.BuffersPennantsAndHalt
  refine ⟨fun f s sl ps pad h => ?cbdef, fun f s sl ps pad h => ?cbacq, fun f s sl ps pad h => ?cbrel,
    fun f s sl l ps pad h => ?reached, fun f s sl l ps pad h => ?waits, fun f s sl l ls h => ?halt⟩
  case cbdef =>
    intro g s1 base size count block hlanes hcheck hreach
    exact h.performsOnce (exec_cbdef f s) hlanes (State.cbdefFor_ok f hcheck hreach)
  case cbacq =>
    intro g s1 va b hlanes hregion hreach
    have hpart := State.cbacqFor_ok hregion hreach
    refine ⟨fun hfilled => ?_, fun hempty => ?_⟩
    · exact h.performsOnce (exec_cbacq f s) hlanes (hpart.trans (if_neg hfilled))
    · have hva : BitVec.ofNat 64 va = lo64 (g.a g.head) := BitVec.ofNat_toNat ..
      rw [hva]
      exact h.performsAs (exec_cbacq f s) (State.onceFor_waits hlanes (hpart.trans (if_pos hempty)) rfl)
  case cbrel =>
    intro g s1 va b hlanes hregion hreach
    exact h.performsOnce (exec_cbrel f s) hlanes (State.cbrelFor_ok hregion hreach)
  case reached =>
    intro g s1 hactors hreach hgoal
    have hexec := h.performsLane (part := fun g s l => s.waitpLane g f l) rfl hactors (State.waitpLane_reached hreach hgoal)
    exact ⟨_, hexec, by simp [State.count_mem], h.keptBesideMemory (by simp)⟩
  case waits =>
    intro g s1 hlanes hreach hgoal
    have hpart : waitpEffect f g s1 = _ := State.eachLane_waits hlanes (State.waitpLane_short hreach hgoal) rfl
    refine ⟨_, h.performs (waitpEffect f) rfl, ?_, ?_⟩
    · rw [State.after, hpart]
      exact (State.finish_mem _ _).trans (State.block_bytes _ _ _ _).1
    · rw [State.after, hpart]
      exact h.block_wait (hlanes ▸ List.mem_singleton.mpr rfl) _
  case halt =>
    intro g hlanes
    have hexec : exec (.halt f) s = .next (((s.issued g).haltedAt g l).finish g) :=
      h.performsAs (exec_halt f s) (effect := fun s => s.haltedAt g l) (by rw [hlanes])
    refine ⟨_, hexec, fun k hk => State.haltedAt_wait l hk h.issued_wave (h.issued_lane hk), ?_, ?_⟩
    · rw [State.finish_rest]
      rfl
    · rw [State.finish_rest]
      rfl

end Sys2Proof.Machine

/-! SUPPORT. `cwait` and the tensor table (R215, R217 to R220): which commands a `cwait` names, an entry that is read, and an entry after
it is written. -/

namespace Sys2Proof.Machine

/-! ## `cwait` (R215) -/

/-- Whether a `cwait` names a command: every one, or the copies of one tensor. -/
def EForm.namesCmd (f : EForm) (c : Cmd) : Bool := !f.one || (c.isCopy && c.form.tid == f.tid)

section
variable {f : EForm} {g : Grp} {s : State} (hfailed : s.failedCmd g.w (EForm.namesCmd f) = none)
include hfailed

theorem cwaitEffect_goesOn (hnone : ∀ c ∈ s.waveCmds g.w, EForm.namesCmd f c = true → c.state ≠ .accepted) :
    cwaitEffect f g s = s := by
  have hany : ((s.waveCmds g.w).any fun c => c.state == .accepted && EForm.namesCmd f c) = false := by
    simpa [imp_not_comm] using hnone
  unfold EForm.namesCmd at hfailed hany
  simp [cwaitEffect, hfailed, hany]

theorem cwaitEffect_waits (hsome : ∃ c ∈ s.waveCmds g.w, EForm.namesCmd f c = true ∧ c.state = .accepted) : cwaitEffect f g s =
    g.lanes.foldl (fun s l => s.block g l (.cwait (if f.one then some f.tid.toNat else none))) s := by
  have hany : ((s.waveCmds g.w).any fun c => c.state == .accepted && EForm.namesCmd f c) = true := by
    obtain ⟨c, hc, hnamed, hstate⟩ := hsome
    exact List.any_eq_true.mpr ⟨c, hc, by simp [hstate, hnamed]⟩
  unfold EForm.namesCmd at hfailed hany
  simp [cwaitEffect, hfailed, hany]

end

/-! ## What counted accesses leave -/

theorem State.waveWorld_count (s : State) (ps : List Piece) (w : Nat) : (s.count ps).waveWorld w = s.waveWorld w := by
  have h := congrArg (fun t : State => t.waveWorld w) (s.count_withMemoryOf s ps)
  exact h

theorem State.entryOf_count (s : State) (ps : List Piece) (w tid : Nat) : (s.count ps).entryOf w tid = s.entryOf w tid := by
  have h := congrArg (fun t : State => t.entryOf w tid) (s.count_withMemoryOf s ps)
  exact h

/-! ## The instructions of the tensor table (R217 to R220) -/

/-- `tget` for its group (R218). -/
def State.tgetFor (s : State) (f : EForm) (g : Grp) (l : Nat) : State × LaneEnd :=
  let va := (lo64 (g.a l)).toNat
  let e := s.entryOf g.w f.tid.toNat
  let other := tFmt e != 0 && tWorld e != s.waveWorld g.w
  match s.reach (s.whoFor g l 1 .dev) va 64 64 .write with
  | .ok ps _ => if other then (s, .trap .world) else ((s.count ps).store ps (toBytes e.toNat 64), .done)
  | .remote .. =>
    if other then (s, .trap .world) else s.writeFor g l va 64 .b128 .dev .rlx (toBytes e.toNat 64)
  | a => (s, a.ended)

theorem exec_tget (f : EForm) (s : State) :
    exec (.tget f) s = issue (.tget f) s lawful fun g s => s.onceFor g fun s l => s.tgetFor f g l := rfl

/-- `tseal` for its group (R219). -/
def State.tsealFor (s : State) (f : EForm) (g : Grp) : State × LaneEnd :=
  let e := s.entryOf g.w f.tid.toNat
  if tFmt e = 0 then (s, .trap .xlate)
  else if tWorld e ≠ s.waveWorld g.w then (s, .trap .world)
  else if !((s.world (tWorld e)).sealKeys.any fun k => k.1 == tKey e) then (s, .trap .protect)
  else (s.setTensor g.src.ctx f.tid.toNat (e ||| tSealBit), .done)

theorem exec_tseal (f : EForm) (s : State) :
    exec (.tseal f) s = issue (.tseal f) s lawful fun g s => s.onceFor g fun s _ => s.tsealFor f g := rfl

section
variable {s : State} {g : Grp} {f : EForm} {ps : List Piece} {pad : Option (Nat × BitVec 512 × Nat)}

theorem State.readLineFor_ok {l va : Nat} (hpart : g.part = []) (hreach : s.reach (s.whoFor g l 0 .dev) va 64 64 .read = .ok ps pad)
    (k : State → List Byte → State × LaneEnd) : s.readLineFor g l va k = k (s.count ps) (s.load ps pad) := by
  simp [State.readLineFor, hpart, hreach]

/-- An image that passes its checks, of a line that is read here (R217). -/
theorem tsetEffect_writes (hlanes : g.lanes ≠ []) (hpart : g.part = [])
    (hreach : s.reach (s.whoFor g g.head 0 .dev) (lo64 (g.a g.head)).toNat 64 64 .read = .ok ps pad)
    (hcheck : (s.count ps).tsetCheck ((s.count ps).waveWorld g.w) ((s.count ps).entryOf g.w f.tid.toNat)
      (BitVec.ofNat 512 (ofBytes (s.load ps pad))) = none) :
    tsetEffect f g s = (s.count ps).setTensor g.src.ctx f.tid.toNat
      (tsetEntry (s.waveWorld g.w) (s.entryOf g.w f.tid.toNat) (BitVec.ofNat 512 (ofBytes (s.load ps pad)))) := by
  refine State.onceFor_done hlanes ?_
  rw [State.readLineFor_ok hpart hreach]
  simp only [State.waveWorld_count, State.entryOf_count] at hcheck ⊢
  rw [hcheck]

/-- The image of an entry that is empty or of the wave's world, to a line that is reached here (R218). -/
theorem State.tgetFor_ok {l : Nat} (hreach : s.reach (s.whoFor g l 1 .dev) (lo64 (g.a l)).toNat 64 64 .write = .ok ps pad)
    (hworld : tFmt (s.entryOf g.w f.tid.toNat) = 0 ∨ tWorld (s.entryOf g.w f.tid.toNat) = s.waveWorld g.w) :
    s.tgetFor f g l = ((s.count ps).store ps (toBytes (s.entryOf g.w f.tid.toNat).toNat 64), .done) := by
  have hown : (tFmt (s.entryOf g.w f.tid.toNat) != 0 && tWorld (s.entryOf g.w f.tid.toNat) != s.waveWorld g.w) = false := by
    rcases hworld with hempty | hsame
    · simp [hempty]
    · simp [hsame]
  simp only [State.tgetFor, hreach, hown, Bool.false_eq_true, if_false]

/-- An entry of the wave's world whose key exists (R219). -/
theorem State.tsealFor_ok (hfmt : tFmt (s.entryOf g.w f.tid.toNat) ≠ 0)
    (hworld : tWorld (s.entryOf g.w f.tid.toNat) = s.waveWorld g.w)
    (hkey : ((s.world (tWorld (s.entryOf g.w f.tid.toNat))).sealKeys.any fun k => k.1 == tKey (s.entryOf g.w f.tid.toNat)) = true) :
    s.tsealFor f g = (s.setTensor g.src.ctx f.tid.toNat (s.entryOf g.w f.tid.toNat ||| tSealBit), .done) := by
  simp only [State.tsealFor, if_neg hfmt, if_neg (not_not.mpr hworld), hkey, Bool.not_true, Bool.false_eq_true, if_false]

/-- An entry of the wave's world into whose shadow no copy of the wave is under way (R220). -/
theorem publEffect_publishes (hlanes : g.lanes ≠ []) (hfmt : tFmt (s.entryOf g.w f.tid.toNat) ≠ 0)
    (hworld : tWorld (s.entryOf g.w f.tid.toNat) = s.waveWorld g.w)
    (hcopies : ∀ c ∈ s.waveCmds g.w, c.kind = .cpyw → c.form.tid ≠ f.tid) :
    publEffect f g s = s.setTensor g.src.ctx f.tid.toNat (tPublished (s.entryOf g.w f.tid.toNat)) := by
  have hany : ((s.waveCmds g.w).any fun c => c.kind == .cpyw && c.form.tid == f.tid) = false := by
    simpa using hcopies
  refine State.onceFor_done hlanes ?_
  simp only [if_neg hfmt, ne_eq, hworld, not_true_eq_false, if_false, hany, Bool.false_eq_true]

end

/-! ## An entry after it is written -/

theorem State.setTensor_reads {s : State} {c tid : Nat} {x : Ctx} (h : s.ctx? c = some x) (e : BitVec 512) :
    ((s.setTensor c tid e).ctx? c).map (fun y => y.tensor tid) = some e := by
  rw [State.setTensor, State.ctx?_modCtx s c (fun c => { c with tensors := Sparse.set 0 c.tensors tid e }) (fun _ => ⟨rfl, rfl⟩) h]
  simp [Ctx.tensor, Sparse.get_set]

theorem tVersion_eq (e : BitVec 512) : tVersion e = (e.setWidth 48).toNat := by
  simp [tVersion, tfield, bitsOf]

theorem tVersion_tPublished (e : BitVec 512) : tVersion (tPublished e) = (tVersion e + 1) % 2 ^ 48 := by
  have hmask : (~~~BitVec.ofNat 512 (2 ^ 48 - 1)).setWidth 48 = 0#48 := by
    rw [BitVec.setWidth_not (by decide), BitVec.setWidth_ofNat_of_le (by decide)]
    decide
  rw [tVersion_eq (tPublished e), tPublished, BitVec.setWidth_or, BitVec.setWidth_and, hmask, BitVec.setWidth_ofNat_of_le (by decide)]
  simp

theorem tSide_tPublished (e : BitVec 512) : tSide (tPublished e) = !tSide e := by
  have hversion : ((tVersion e + 1) % 2 ^ 48).testBit 51 = false :=
    Nat.testBit_lt_two_pow (lt_of_lt_of_le (Nat.mod_lt _ (Nat.two_pow_pos 48)) (Nat.pow_le_pow_right (by decide) (by decide)))
  have hside : (BitVec.ofNat 512 (2 ^ 51)).getLsbD 51 = true := by
    rw [BitVec.getLsbD_ofNat, Nat.testBit_two_pow_self]
    rfl
  have hmask : (~~~BitVec.ofNat 512 (2 ^ 48 - 1)).getLsbD 51 = true := by
    rw [BitVec.getLsbD_not, BitVec.getLsbD_ofNat, Nat.testBit_two_pow_sub_one]
    rfl
  rw [tSide, tPublished, BitVec.getLsbD_or, BitVec.getLsbD_and, BitVec.getLsbD_xor, hside, hmask, BitVec.getLsbD_ofNat, hversion]
  simp [tSide]

/-! ## The statement -/

/-- Settles O38: `cwait` looks for an accepted command among those it names; each instruction of the table is one part for the group. -/
theorem commandWaitAndTensorTable : Obligations.CommandWaitAndTensorTable := by
  unfold Obligations.CommandWaitAndTensorTable
  refine ⟨fun f s sl h => ?cwait, fun f s sl ps pad h => ?tset, fun f s sl ps pad h => ?tget, fun f s sl h => ?tseal,
    fun f s sl h => ?publ, fun s c tid e x h => State.setTensor_reads h e, fun e => ⟨tVersion_tPublished e, tSide_tPublished e⟩⟩
  case cwait =>
    intro g named hfailed
    refine ⟨fun hnone => ?_, fun hsome => h.performsAs rfl (cwaitEffect_waits hfailed hsome)⟩
    exact ⟨_, h.performsAs (effect := fun s => s) rfl (cwaitEffect_goesOn hfailed hnone), h.kept_advanced⟩
  case tset =>
    intro g s1 img hlanes hreach hcheck
    exact h.performsAs rfl (tsetEffect_writes hlanes rfl hreach hcheck)
  case tget =>
    intro g s1 e hlanes hreach hworld
    exact ⟨_, h.performsOnce (exec_tget f s) hlanes (State.tgetFor_ok hreach hworld), h.stores ps _⟩
  case tseal =>
    intro g s1 e hlanes hfmt hworld hkey
    exact h.performsOnce (exec_tseal f s) hlanes (State.tsealFor_ok hfmt hworld hkey)
  case publ =>
    intro g s1 e hlanes hfmt hworld hcopies
    exact h.performsAs rfl (publEffect_publishes hlanes hfmt hworld hcopies)

end Sys2Proof.Machine

/-! SUPPORT. Commands of a tile (R201, R203 to R205, R210): a command after a change, what leaves the tiles and the waves as they are, and
what acceptance and failure make of a command. -/

namespace Sys2Proof.Machine

/-! ## A command after a change -/

theorem State.id_of_cmd? {s : State} {tile id : Nat} {c : Cmd} (h : s.cmd? tile id = some c) : c.id = id := by
  simpa using List.find?_some h

theorem State.lt_of_cmd? {s : State} {tile id : Nat} {c : Cmd} (h : s.cmd? tile id = some c) : tile < s.tiles.length := by
  by_contra hout
  have htile : s.tile tile = Tile.reset := by simp [State.tile, hout]
  rw [State.cmd?, htile] at h
  cases h

theorem State.cmd?_of_tiles {s t : State} (h : t.tiles = s.tiles) (tile id : Nat) : t.cmd? tile id = s.cmd? tile id := by
  rw [State.cmd?, State.tile, h]
  rfl

/-- A change of a command that keeps its number. -/
theorem State.cmd?_modCmd {s : State} {tile id : Nat} {c : Cmd} {f : Cmd → Cmd} (h : s.cmd? tile id = some c)
    (hf : ∀ x : Cmd, x.id = id → (f x).id = id) : (s.modCmd tile id f).cmd? tile id = some (f c) := by
  have htest : (fun x : Cmd => x.id == id) ∘ (fun x => if x.id = id then f x else x) = fun x : Cmd => x.id == id := by
    funext x
    by_cases hx : x.id = id
    · simp [hx, hf x hx]
    · simp [hx]
  have hcmd : (s.tile tile).cmds.find? (fun x => x.id == id) = some c := h
  rw [State.cmd?, State.modCmd, State.tile_modTile _ _ _ (State.lt_of_cmd? h)]
  dsimp only
  rw [List.find?_map, htest, hcmd, Option.map_some, if_pos (State.id_of_cmd? h)]

theorem State.cmd?_modCmd_ne (s : State) {tile other : Nat} (hne : tile ≠ other) (id x : Nat) (f : Cmd → Cmd) :
    (s.modCmd other x f).cmd? tile id = s.cmd? tile id := by
  have htile : (s.modCmd other x f).tile tile = s.tile tile := by
    simp only [State.modCmd, State.tile, State.modTile_tiles, List.getD_eq_getElem?_getD, getElem?_modifyAt_ne _ _ _ _ hne]
  rw [State.cmd?, htile]
  rfl

/-! ## What leaves the tiles and the waves as they are -/

/-- The tiles and the waves of a state are another's. -/
structure sameTilesAndWaves (s t : State) : Prop where
  tiles : t.tiles = s.tiles
  waves : t.waves = s.waves

theorem sameTilesAndWaves.refl (s : State) : sameTilesAndWaves s s := ⟨rfl, rfl⟩

theorem sameTilesAndWaves.trans {s t u : State} (h : sameTilesAndWaves s t) (k : sameTilesAndWaves t u) : sameTilesAndWaves s u :=
  ⟨k.tiles.trans h.tiles, k.waves.trans h.waves⟩

theorem sameTilesAndWaves_foldl {α : Type} (f : State → α → State) (hf : ∀ s a, sameTilesAndWaves s (f s a)) (l : List α)
    (s : State) : sameTilesAndWaves s (l.foldl f s) := foldl_rel sameTilesAndWaves .refl (fun _ _ _ => .trans) f hf l s

theorem sameButStored.sameTilesAndWaves {s t : State} (h : sameButStored s t) : sameTilesAndWaves s t := by
  rw [h]
  exact ⟨rfl, rfl⟩

theorem State.count_tilesAndWaves (s : State) (ps : List Piece) : sameTilesAndWaves s (s.count ps) :=
  sameTilesAndWaves_foldl _ (fun s p => by unfold State.countPiece; split <;> exact ⟨rfl, rfl⟩) _ _

theorem State.countStore_tilesAndWaves (s : State) (ps qs : List Piece) (bs : List Byte) :
    sameTilesAndWaves s ((s.count ps).store qs bs) :=
  (s.count_tilesAndWaves ps).trans ((s.count ps).store_sameButStored qs bs).sameTilesAndWaves

theorem State.post_tilesAndWaves (s : State) (r : FaultRec) : sameTilesAndWaves s (s.post r).1 := by
  unfold State.post
  dsimp only
  split
  · exact ⟨rfl, rfl⟩
  · split
    · exact .refl s
    · exact ⟨rfl, rfl⟩

theorem State.recallFrom_tilesAndWaves (s : State) (page : Nat) (nodes : List Nat) : sameTilesAndWaves s (s.recallFrom page nodes) :=
  sameTilesAndWaves_foldl _ (fun s n => by
    split
    · exact .refl s
    · exact ⟨rfl, rfl⟩) _ _

/-- A request, or nothing where no tag is free. -/
theorem State.requestFor_getD_tilesAndWaves (s : State) (tile w l : Nat) (part : List Byte) (use : ReqUse) (p : Packet) :
    sameTilesAndWaves s (((s.requestFor tile w l part use p).map (·.1)).getD s) := by
  unfold State.requestFor
  cases s.freeTag tile <;> exact ⟨rfl, rfl⟩

theorem State.askBlock_tilesAndWaves (s : State) (tile id w step : Nat) (p : Packet) :
    sameTilesAndWaves s (s.askBlock tile id w step p) := by
  unfold State.askBlock
  split
  · exact .refl s
  · exact s.requestFor_getD_tilesAndWaves _ _ _ _ _ _

theorem State.moveRow_tilesAndWaves (s : State) (tile : Nat) (c : Cmd) (r : Row) : sameTilesAndWaves s (s.moveRow tile c r) :=
  State.moveRow_rel .refl (fun _ _ _ => .trans) State.count_tilesAndWaves (fun s ps bs => (s.store_sameButStored ps bs).sameTilesAndWaves)
    (fun s _ _ _ _ => s.requestFor_getD_tilesAndWaves _ _ _ _ _ _) s tile c r

theorem State.credit_tilesAndWaves (s : State) (c : Cmd) (n : Nat) : sameTilesAndWaves s (s.credit c n) := by
  unfold State.credit
  split
  · exact .refl s
  · unfold State.barrierFor
    split <;> exact ⟨rfl, rfl⟩

/-! ## Claims (R210) -/

/-- A claim on a block that is reached here and has a free slot. -/
theorem State.claim_here {s : State} {tile id : Nat} {c : Cmd} {blk : W64} {ps : List Piece} {pad : Option (Nat × BitVec 512 × Nat)}
    (hcmd : s.cmd? tile id = some c) (hclaims : s.claims c = true) (hblk : s.cbOf c.wave c.form.cbn = some blk)
    (hreach : s.reach (s.engineWho c.wave 7 3) blk.toNat 32 32 .rmw = .ok ps pad) (hfree : (Block.of (s.load ps pad)).free ≠ 0) :
    s.claim tile id = ((s.count ps).store ps (Block.of (s.load ps pad)).claimed.bytes).modCmd tile id fun c =>
      { c with slot := some (BitVec.ofNat 64 ((Block.of (s.load ps pad)).slotAt (Block.of (s.load ps pad)).put)), block := some blk } := by
  simp only [State.claim, hcmd, hclaims, Bool.not_true, Bool.false_eq_true, if_false, hblk, hreach, if_neg hfree]

/-! ## Acceptance (R201, R203, R205) -/

/-- What the checks that are made again at acceptance find. -/
def State.badCmd (s : State) (c : Cmd) : Option TrapKind :=
  if c.isCopy then
    match s.copyCheck c.wave c.form c.kind c.ops c.slot none with
    | .trap k => some k
    | _ => none
  else s.matrixCheck (s.engineWho c.wave 6 5) (matrixRows c.form (c.kind == .mmasp) (s.wave c.wave).width.lanes c.descA c.descB c.descC)

/-- An accepted command: its entry sampled, its ranges in the scoreboard. -/
def State.sampled (s : State) (c : Cmd) : Cmd :=
  let c1 := { c with entry := s.entryOf c.wave c.form.tid.toNat }
  { c1 with state := .accepted, reads := (s.cmdRanges c1).1, writes := (s.cmdRanges c1).2 }

/-- The ranges that a command claims do not depend on what acceptance itself writes. -/
theorem State.sampled_ranges (s : State) (c : Cmd) :
    (s.sampled c).reads = (s.cmdRanges (s.sampled c)).1 ∧ (s.sampled c).writes = (s.cmdRanges (s.sampled c)).2 := ⟨rfl, rfl⟩

/-- Only a copy writes slice bytes (R203). -/
theorem State.writes_of_matrix (s : State) {c : Cmd} (h : c.isCopy = false) : (s.cmdRanges c).2 = [] := by
  unfold State.cmdRanges
  simp [h]

/-- The state with a command accepted. -/
def State.passed (s : State) (tile id : Nat) (c : Cmd) : State := s.modCmd tile id fun x => { s.sampled c with slot := x.slot }

/-- The state with a command that fails its checks at acceptance. -/
def State.refusedCmd (s : State) (tile id w : Nat) (k : TrapKind) : State :=
  (s.modCmd tile id fun c => { c with state := .failed, why := trapWhy k }).modWave w (·.spoil id)

theorem State.accept_eq {s : State} {tile id : Nat} {c : Cmd} (hcmd : s.cmd? tile id = some c) : s.accept tile id =
    if s.acceptable tile c = true then
      (match s.badCmd c with
       | some k => s.refusedCmd tile id c.wave k
       | none => s.passed tile id c).unaccept c.wave tile id
    else s := by
  have htest : (c.state ≠ .issued ∨ 64 ≤ ((s.tile tile).cmds.filter fun c => c.state == .accepted).length ∨
      (c.wantsSlot && c.slot.isNone) = true ∨ (!(s.wave c.wave).resident) = true) ↔ ¬ s.acceptable tile c = true := by
    unfold State.acceptable
    generalize (c.wantsSlot && c.slot.isNone) = unclaimed
    simp only [Bool.and_eq_true, Bool.not_eq_true', Bool.eq_false_iff, beq_iff_eq, decide_eq_true_eq, ← Nat.not_lt]
    tauto
  unfold State.accept
  rw [hcmd]
  dsimp only
  by_cases h : s.acceptable tile c = true
  · rw [if_pos h, if_neg (mt htest.mp (not_not.mpr h))]
    rfl
  · rw [if_neg h, if_pos (htest.mpr h)]

section
variable {s : State} {tile id : Nat} {c : Cmd} (hcmd : s.cmd? tile id = some c)
include hcmd

theorem State.cmd?_passed : (s.passed tile id c).cmd? tile id = some (s.sampled c) := by
  have hid := State.id_of_cmd? hcmd
  exact State.cmd?_modCmd (c := c) (f := fun x => { s.sampled c with slot := x.slot }) hcmd fun _ _ => hid

theorem State.cmd?_refusedCmd (w : Nat) (k : TrapKind) :
    (s.refusedCmd tile id w k).cmd? tile id = some { c with state := .failed, why := trapWhy k } :=
  State.cmd?_modCmd hcmd fun _ h => h

theorem State.accept_passed (hacc : s.acceptable tile c = true) (hgood : s.badCmd c = none) :
    s.accept tile id = (s.passed tile id c).unaccept c.wave tile id := by
  rw [State.accept_eq hcmd, if_pos hacc, hgood]

theorem State.accept_refused (hacc : s.acceptable tile c = true) {k : TrapKind} (hbad : s.badCmd c = some k) :
    s.accept tile id = (s.refusedCmd tile id c.wave k).unaccept c.wave tile id := by
  rw [State.accept_eq hcmd, if_pos hacc, hbad]

end

/-- The lanes that waited for a command to be accepted go on. -/
theorem State.unaccept_goesOn {s : State} {w l tile id : Nat} (h : (s.thread w l).wait = .accept tile id) :
    ((s.unaccept w tile id).thread w l).wait = .none := by
  have hne : (s.thread w l).wait ≠ .none := by rw [h]; exact Wait.noConfusion
  have hwave : (s.unaccept w tile id).wave w = (s.wave w).wakeAt (.accept tile id) := State.wave_modWave s w _ (State.lt_of_wait hne)
  rw [State.thread, hwave, Wave.thread_wakeAt (Wave.lt_of_wait hne) h]

theorem State.pending_unaccept {s : State} {w : Nat} (hw : w < s.waves.length) (tile id : Nat) :
    ((s.unaccept w tile id).wave w).pending = (s.wave w).pending ∧ ((s.unaccept w tile id).wave w).spoiled = (s.wave w).spoiled := by
  rw [State.unaccept, State.wave_modWave _ _ _ hw]
  exact ⟨rfl, rfl⟩

theorem State.wave_refusedCmd {s : State} {w : Nat} (hw : w < s.waves.length) (tile id : Nat) (k : TrapKind) :
    (s.refusedCmd tile id w k).wave w = (s.wave w).spoil id := State.wave_modWave (s.modCmd tile id _) w _ hw

theorem State.refusedCmd_thread {s : State} {w : Nat} (tile id l : Nat) (k : TrapKind) (hw : w < s.waves.length) :
    (s.refusedCmd tile id w k).thread w l = s.thread w l := by
  rw [State.thread, State.wave_refusedCmd hw]
  rfl

/-! ## Failure (R204) -/

/-- A command that has failed after `n` of its bytes. -/
def Cmd.failedAfter (c : Cmd) (why : FaultStatus) (n : Nat) : Cmd :=
  { c with state := .failed, why := why, credited := max c.credited n, reads := [], writes := [] }

/-- What a failure that is delivered leaves of the tiles: the command is marked. -/
theorem State.failAt_tiles (s : State) (g : Grp) (c : Cmd) (lanes : List Nat) (p q : Nat → Bool) :
    (s.failAt g c lanes p q).tiles = s.tiles ∨
    ∃ tile, (s.failAt g c lanes p q).tiles = (s.modCmd tile c.id fun y => { y with state := .delivered }).tiles := by
  unfold State.failAt
  split
  · exact .inl rfl
  · exact .inr ⟨_, rfl⟩

theorem State.deliverFailure_tiles (s : State) (tile : Nat) (c : Cmd) : (s.deliverFailure tile c).tiles = s.tiles ∨
    ∃ x, (s.deliverFailure tile c).tiles = (s.modCmd x c.id fun y => { y with state := .delivered }).tiles := by
  unfold State.deliverFailure
  dsimp only
  split
  · exact .inl rfl
  · exact State.failAt_tiles (s.modLanes c.wave _ _) _ c _ _ _

/-- A failed command, delivered or not, is on its tile. -/
theorem State.cmd?_deliverFailure {s : State} {tile id : Nat} {c : Cmd} (h : s.cmd? tile id = some c) :
    (s.deliverFailure tile c).cmd? tile id = some c ∨ (s.deliverFailure tile c).cmd? tile id = some { c with state := .delivered } := by
  rcases s.deliverFailure_tiles tile c with hsame | ⟨x, hmark⟩
  · exact .inl ((State.cmd?_of_tiles hsame _ _).trans h)
  · rw [State.cmd?_of_tiles hmark]
    by_cases hx : tile = x
    · subst hx
      have hid := State.id_of_cmd? h
      exact .inr (hid ▸ State.cmd?_modCmd (f := fun y => { y with state := .delivered }) (hid.symm ▸ h) fun _ hy => hy)
    · exact .inl ((State.cmd?_modCmd_ne s hx _ _ _).trans h)

/-- The parts of a failure: some rows land, the command is marked, and the lanes that wait for it learn of it. -/
theorem State.failCmd_eq {s : State} {tile id : Nat} {c : Cmd} (hcmd : s.cmd? tile id = some c) (hstate : c.state = .accepted)
    (landed : Nat) {why : FaultStatus} (hwhy : why ≠ .resolved) : ∃ u n, sameTilesAndWaves s u ∧ s.failCmd tile id landed why =
      (((u.modCmd tile id fun _ => c.failedAfter why n).modWave c.wave (·.spoil c.id)).deliverFailure tile (c.failedAfter why n)).wakeFor
        c.wave tile id := by
  have hgo : ¬ (c.state ≠ .accepted ∨ why = .resolved) := by simp [hstate, hwhy]
  unfold State.failCmd
  rw [hcmd]
  dsimp only
  rw [if_neg hgo]
  refine ⟨_, _, .trans ?_ (State.credit_tilesAndWaves _ c _), rfl⟩
  refine foldl_inv (fun a : State × Nat => sameTilesAndWaves s a.1) _ (fun a r ha => ?_) _ _ (.refl s)
  split
  · exact ha.trans (State.moveRow_tilesAndWaves _ _ _ _)
  · exact ha

theorem State.cmd?_failCmd {s : State} {tile id : Nat} {c : Cmd} (hcmd : s.cmd? tile id = some c) (hstate : c.state = .accepted)
    (landed : Nat) {why : FaultStatus} (hwhy : why ≠ .resolved) : ∃ n,
      (s.failCmd tile id landed why).cmd? tile id = some (c.failedAfter why n) ∨
      (s.failCmd tile id landed why).cmd? tile id = some { c.failedAfter why n with state := .delivered } := by
  have hid := State.id_of_cmd? hcmd
  obtain ⟨u, n, hu, heq⟩ := State.failCmd_eq hcmd hstate landed hwhy
  have hmarked : ((u.modCmd tile id fun _ => c.failedAfter why n).modWave c.wave (·.spoil c.id)).cmd? tile id =
      some (c.failedAfter why n) :=
    State.cmd?_modCmd (f := fun _ => c.failedAfter why n) ((State.cmd?_of_tiles hu.tiles _ _).trans hcmd) fun _ _ => hid
  rw [heq]
  exact ⟨n, State.cmd?_deliverFailure hmarked⟩

/-! ## The statement -/

/-- Settles O36: a claim is one branch of its checks, acceptance one of two answers of the checks that it repeats, and a failure marks its
command on the way to the lanes. -/
theorem commandsAreClaimedAcceptedAndFail : Obligations.CommandsAreClaimedAcceptedAndFail := by
  unfold Obligations.CommandsAreClaimedAcceptedAndFail
  refine ⟨fun s tile id c blk ps pad hcmd hwants hslot hstate hres hblk hreach => ?claim, fun s tile id c hcmd hacc hcopy hcheck => ?copy,
    fun s tile id c hcmd hacc hcopy hw => ?matrix, fun s tile id c landed why hcmd hstate hwhy => ?fails⟩
  case claim =>
    intro k hfree
    have hclaims : s.claims c = true := by simp [State.claims, hwants, hslot, hstate, hres]
    exact congrArg Host.Outcome.next (State.claim_here hcmd hclaims hblk hreach hfree)
  case copy =>
    have hgood : s.badCmd c = none := by simp only [State.badCmd, hcopy, if_true, hcheck]
    refine ⟨_, _, congrArg Host.Outcome.next (State.accept_passed hcmd hacc hgood), State.cmd?_passed hcmd, rfl, rfl, (s.sampled_ranges c).1,
      (s.sampled_ranges c).2, fun l hwait => State.unaccept_goesOn hwait⟩
  case matrix =>
    have hbad : s.badCmd c = s.matrixCheck (s.engineWho c.wave 6 5)
        (matrixRows c.form (c.kind == .mmasp) (s.wave c.wave).width.lanes c.descA c.descB c.descC) := by
      rw [State.badCmd, hcopy]
      rfl
    rw [← hbad]
    refine ⟨fun hgood => ?_, fun k hk => ?_⟩
    · exact ⟨_, _, congrArg Host.Outcome.next (State.accept_passed hcmd hacc hgood), State.cmd?_passed hcmd, rfl,
        (s.sampled_ranges c).1, s.writes_of_matrix hcopy, (State.pending_unaccept hw tile id).1, fun l hwait => State.unaccept_goesOn hwait⟩
    · have hwr : c.wave < (s.refusedCmd tile id c.wave k).waves.length := (length_modifyAt ..).symm ▸ hw
      refine ⟨_, _, congrArg Host.Outcome.next (State.accept_refused hcmd hacc hk), State.cmd?_refusedCmd hcmd c.wave k, rfl, rfl, ?_,
        fun l hwait => State.unaccept_goesOn ?_⟩
      · rw [(State.pending_unaccept hwr tile id).1, State.wave_refusedCmd hw]
        rfl
      · rw [State.refusedCmd_thread tile id l k hw]
        exact hwait
  case fails =>
    obtain ⟨n, hfailed | hdelivered⟩ := State.cmd?_failCmd hcmd hstate landed hwhy
    · exact ⟨_, _, rfl, hfailed, .inl rfl, rfl, rfl, rfl⟩
    · exact ⟨_, _, rfl, hdelivered, .inr rfl, rfl, rfl, rfl⟩

end Sys2Proof.Machine

/-! SUPPORT. The end of a command (R203, R206 to R210, R212): the branches of COMMAND_FINISH, and the accumulators that a matrix command
writes. -/

namespace Sys2Proof.Machine

/-! ## COMMAND_FINISH -/

section
variable {s : State} {tile id : Nat} {c : Cmd} (hcmd : s.cmd? tile id = some c) (hstate : c.state = .accepted)
  (hready : s.verdict tile c = .ready)
include hcmd hstate hready

theorem exec_commandFinish_matrix (hcopy : c.isCopy = false) :
    exec (.commandFinish tile id) s = .next (((s.matrixWrite c).dropCmd tile id).wakeFor c.wave tile id) := by
  show execCommandFinish tile id s = _
  simp [execCommandFinish, hcmd, hstate, hready, hcopy]

/-- A copy that has rows to move moves them, and is done where no reply is outstanding then. -/
theorem exec_commandFinish_copy (hcopy : c.isCopy = true) (hsent : c.sentAll = false)
    (hreqs : ((c.rowsLeft.foldl (fun s r => s.moveRow tile c r) s).modCmd tile id fun c =>
      { c with sentAll := true }).cmdReqs tile id = []) :
    exec (.commandFinish tile id) s = .next ((((c.rowsLeft.foldl (fun s r => s.moveRow tile c r) s).modCmd tile id fun c =>
      { c with sentAll := true }).copyDone tile c).wakeFor c.wave tile id) := by
  show execCommandFinish tile id s = _
  simp [execCommandFinish, hcmd, hstate, hready, hcopy, hsent, hreqs]

end

/-! ## Accumulators (R212) -/

/-- The key of a byte of a matrix operand: in the region that its descriptor names. -/
def State.operandKey (s : State) (c : Cmd) (d : W64) (b : Nat) : Nat :=
  match s.scratchPlace (s.wave c.wave).ctx (Desc.of d).ltile with
  | some p => p.key b
  | none => sliceKey (s.wave c.wave).tile b

/-- A thread after consecutive registers are written. -/
def Thread.setRun (t : Thread) (r n : Nat) (x : Nat → W32) : Thread := (List.range n).foldl (fun t i => t.setV (r + i) (x i)) t

theorem Thread.v_setRun (t : Thread) (r n : Nat) (x : Nat → W32) {i : Nat} (hi : i < n) : (t.setRun r n x).v (r + i) = x i := by
  unfold Thread.setRun
  induction n with
  | zero => omega
  | succ n ih =>
    rw [List.range_succ, List.foldl_append, List.foldl_cons, List.foldl_nil, Thread.v_setV]
    by_cases hlast : i = n
    · rw [hlast, if_pos rfl]
    · rw [if_neg (by omega), ih (by omega)]

theorem State.matrixWrite_narrow (s : State) {c : Cmd} (h : c.form.atype ≠ .f64) : s.matrixWrite c = s.modWave c.wave fun w0 =>
    let lanes := List.range (s.wave c.wave).width.lanes
    let w1 := (w0.modLanes lanes fun j t => t.setRun c.form.d.toNat 32 fun i =>
      BitVec.ofNat 32 (s.matResult c (s.operandKey c) i j)).retag lanes c.form.d.toNat 32 fun _ => .general
    { w1 with pending := w1.pending.filter fun p => p.2 != c.id } := by
  have hwide : (c.form.atype == .f64) = false := by simpa using h
  unfold State.matrixWrite
  simp only [hwide, Bool.false_eq_true, if_false]
  rfl

theorem State.matrixWrite_v {s : State} {c : Cmd} (h : c.form.atype ≠ .f64) {i j : Nat} (hi : i < 32)
    (hj : j < (s.wave c.wave).width.lanes) (hw : c.wave < s.waves.length)
    (hlanes : (s.wave c.wave).threads.length = (s.wave c.wave).width.lanes) :
    (((s.matrixWrite c).wave c.wave).thread j).v (c.form.d.toNat + i) = BitVec.ofNat 32 (s.matResult c (s.operandKey c) i j) := by
  have hthread : ((s.matrixWrite c).wave c.wave).thread j = ((s.wave c.wave).thread j).setRun c.form.d.toNat 32 fun i =>
      BitVec.ofNat 32 (s.matResult c (s.operandKey c) i j) := by
    rw [s.matrixWrite_narrow h, State.wave_modWave _ _ _ hw]
    refine (Wave.retag_thread _ _ _ _ _ j).trans ?_
    rw [Wave.thread_modLanes _ _ _ _ (hlanes ▸ hj), if_pos (List.mem_range.mpr hj)]
  rw [hthread, Thread.v_setRun _ _ _ _ hi]

/-! ## The statement -/

/-- Settles O37: the two ways in which a command that nothing holds back ends, and what a matrix command leaves in the accumulators of
each lane. -/
theorem commandsFinish : Obligations.CommandsFinish := by
  unfold Obligations.CommandsFinish
  refine ⟨fun s tile id c hcmd hstate hready hcopy => exec_commandFinish_matrix hcmd hstate hready hcopy,
    fun s tile id c hcmd hstate hready hcopy hsent hreqs => exec_commandFinish_copy hcmd hstate hready hcopy hsent hreqs,
    fun s c i j htype hi hj hw hlanes => State.matrixWrite_v htype hi hj hw hlanes⟩

end Sys2Proof.Machine

/-! SUPPORT. The issue of a command (R200, R201, R204, R206, R211, R213, R214): what a command keeps until its instruction has ended, a new
command on its tile, and the parts of the copy and matrix instructions. -/

namespace Sys2Proof.Machine

/-! ## What a command was issued with -/

/-- What a command was issued with: its wave, its instruction and its operands. -/
def Cmd.order (c : Cmd) : Nat × CmdKind × EForm × CopyOps × W64 × W64 := (c.wave, c.kind, c.form, c.ops, c.descB, c.descC)

theorem Cmd.of_order {c d : Cmd} (h : d.order = c.order) :
    d.wave = c.wave ∧ d.kind = c.kind ∧ d.form = c.form ∧ d.ops = c.ops ∧ d.descB = c.descB ∧ d.descC = c.descC := by
  simpa only [Cmd.order, Prod.mk.injEq] using h

/-- Between two states a command of a tile keeps what it was issued with, and every wave keeps its lanes. -/
structure keepsOrder (tile id : Nat) (s t : State) : Prop where
  cmd : ∀ c, s.cmd? tile id = some c → ∃ d, t.cmd? tile id = some d ∧ d.order = c.order
  lanes : t.waves.map (·.threads.length) = s.waves.map (·.threads.length)

section
variable {tile id : Nat} {s t u : State}

theorem keepsOrder.refl (tile id : Nat) (s : State) : keepsOrder tile id s s := ⟨fun c h => ⟨c, h, rfl⟩, rfl⟩

theorem keepsOrder.trans (h : keepsOrder tile id s t) (k : keepsOrder tile id t u) : keepsOrder tile id s u where
  cmd c hc := by
    obtain ⟨d, hd, hdc⟩ := h.cmd c hc
    obtain ⟨e, he, hed⟩ := k.cmd d hd
    exact ⟨e, he, hed.trans hdc⟩
  lanes := k.lanes.trans h.lanes

theorem sameTilesAndWaves.keepsOrder (h : sameTilesAndWaves s t) (tile id : Nat) : keepsOrder tile id s t where
  cmd c hc := ⟨c, (State.cmd?_of_tiles h.tiles tile id).trans hc, rfl⟩
  lanes := congrArg _ h.waves

theorem keepsOrder.length_waves (h : keepsOrder tile id s t) : t.waves.length = s.waves.length := by
  simpa using congrArg List.length h.lanes

theorem keepsOrder.length_threads (h : keepsOrder tile id s t) (w : Nat) : (t.wave w).threads.length = (s.wave w).threads.length :=
  getD_map_of_eq (p := fun wv : Wave => wv.threads.length) h.lanes w Wave.blank

theorem State.modCmd_keepsOrder (s : State) {f : Cmd → Cmd} (hid : ∀ x : Cmd, x.id = id → (f x).id = id)
    (hf : ∀ c, s.cmd? tile id = some c → (f c).order = c.order) : keepsOrder tile id s (s.modCmd tile id f) where
  cmd c hc := ⟨f c, State.cmd?_modCmd hc hid, hf c hc⟩
  lanes := rfl

theorem State.modWave_keepsOrder (s : State) (w : Nat) {f : Wave → Wave} (hf : ∀ wv : Wave, (f wv).threads.length = wv.threads.length) :
    keepsOrder tile id s (s.modWave w f) where
  cmd c hc := ⟨c, hc, rfl⟩
  lanes := map_modifyAt s.waves w f _ hf

theorem State.unaccept_keepsOrder (s : State) (w : Nat) : keepsOrder tile id s (s.unaccept w tile id) :=
  s.modWave_keepsOrder w fun _ => List.length_map _

theorem State.cmdMiss_keepsOrder (s : State) {c : Cmd} (hid : c.id = id) (page : Nat) (r : FaultRec) :
    keepsOrder tile id s (s.cmdMiss tile c page r) := by
  unfold State.cmdMiss
  split
  · exact .refl tile id s
  · rw [hid]
    exact ((s.post_tilesAndWaves r).keepsOrder tile id).trans (State.modCmd_keepsOrder _ (fun _ h => h) fun _ _ => rfl)

theorem State.claimFar_keepsOrder (s : State) {c : Cmd} (hid : c.id = id) (blk : W64) (n h : Nat) :
    keepsOrder tile id s (s.claimFar tile c blk n h) := by
  subst hid
  have hagain : keepsOrder tile c.id s (s.modCmd tile c.id fun c => { c with seen := [] }) :=
    s.modCmd_keepsOrder (fun _ h => h) fun _ _ => rfl
  unfold State.claimFar
  dsimp only
  split
  · exact (s.askBlock_tilesAndWaves _ _ _ _ _).keepsOrder _ _
  · split
    · exact hagain
    · split
      · exact (s.askBlock_tilesAndWaves _ _ _ _ _).keepsOrder _ _
      · split
        · exact hagain.trans (State.modCmd_keepsOrder _ (fun _ h => h) fun _ _ => rfl)
        · exact hagain

theorem State.failClaim_keepsOrder (s : State) {c : Cmd} (hid : c.id = id) (why : FaultStatus) :
    keepsOrder tile id s (s.failClaim tile c why) := by
  subst hid
  exact (s.modCmd_keepsOrder (f := fun c => { c with state := .failed, why := why }) (fun _ h => h) fun _ _ => rfl).trans
    (State.unaccept_keepsOrder _ _)

theorem State.claim_keepsOrder (s : State) (tile id : Nat) : keepsOrder tile id s (s.claim tile id) := by
  unfold State.claim
  split
  · exact .refl tile id s
  · next c hc =>
    have hid := State.id_of_cmd? hc
    split
    · exact .refl tile id s
    · split
      · exact .refl tile id s
      · split
        · dsimp only
          split
          · exact .refl tile id s
          · exact ((s.countStore_tilesAndWaves _ _ _).keepsOrder tile id).trans
              (State.modCmd_keepsOrder _ (fun _ h => h) fun _ _ => rfl)
        · exact s.cmdMiss_keepsOrder hid _ _
        · exact (s.recallFrom_tilesAndWaves _ _).keepsOrder tile id
        · exact s.claimFar_keepsOrder hid _ _ _
        · exact s.failClaim_keepsOrder hid _
        · exact .refl tile id s

theorem State.passed_keepsOrder {c : Cmd} (hcmd : s.cmd? tile id = some c) : keepsOrder tile id s (s.passed tile id c) := by
  have hid := State.id_of_cmd? hcmd
  refine s.modCmd_keepsOrder (f := fun x => { s.sampled c with slot := x.slot }) (fun _ _ => hid) fun x hx => ?_
  obtain rfl : c = x := Option.some.inj (hcmd.symm.trans hx)
  rfl

theorem State.refusedCmd_keepsOrder (s : State) (w : Nat) (k : TrapKind) : keepsOrder tile id s (s.refusedCmd tile id w k) :=
  (s.modCmd_keepsOrder (f := fun c => { c with state := .failed, why := trapWhy k }) (fun _ h => h) fun _ _ => rfl).trans
    (State.modWave_keepsOrder _ w fun _ => rfl)

theorem State.accept_keepsOrder {c : Cmd} (hcmd : s.cmd? tile id = some c) : keepsOrder tile id s (s.accept tile id) := by
  rw [State.accept_eq hcmd]
  split
  · refine keepsOrder.trans ?_ (State.unaccept_keepsOrder _ _)
    cases s.badCmd c with
    | none => exact State.passed_keepsOrder hcmd
    | some k => exact s.refusedCmd_keepsOrder _ k
  · exact .refl tile id s

end

/-! ## Accepted at once, or waited for -/

section
variable {s : State} {g : Grp} {id : Nat} {c : Cmd}

theorem State.start_eq {d : Cmd} (hd : ((s.claim g.src.tile id).accept g.src.tile id).cmd? g.src.tile id = some d) : s.start g id =
    if d.state = .issued then ((s.claim g.src.tile id).accept g.src.tile id).modLanes g.w g.lanes fun _ t =>
      { t with wait := .accept g.src.tile id }
    else (s.claim g.src.tile id).accept g.src.tile id := by
  unfold State.start
  simp only [hd]

/-- A command that has been started is still on its tile, and while it is not accepted the group's lanes wait for that (R200, R201). -/
theorem State.start_keepsOrder (hcmd : s.cmd? g.src.tile id = some c) (hw : g.w < s.waves.length)
    (hl : ∀ l ∈ g.lanes, l < (s.wave g.w).threads.length) : ∃ d, (s.start g id).cmd? g.src.tile id = some d ∧ d.order = c.order ∧
      (d.state = .issued → ∀ l ∈ g.lanes, ((s.start g id).thread g.w l).wait = .accept g.src.tile id) := by
  have hclaim := s.claim_keepsOrder g.src.tile id
  obtain ⟨c1, hc1, -⟩ := hclaim.cmd c hcmd
  have hkeeps := hclaim.trans (State.accept_keepsOrder hc1)
  obtain ⟨d, hd, horder⟩ := hkeeps.cmd c hcmd
  refine ⟨d, ?_, horder, fun hissued l hmem => ?_⟩
  · rw [State.start_eq hd]
    split <;> exact hd
  · rw [State.start_eq hd, if_pos hissued,
      State.thread_modLanes _ _ (hkeeps.length_waves ▸ hw) ((hkeeps.length_threads g.w).symm ▸ hl l hmem) hmem]

/-- Only a copy claims a slot (R210). -/
theorem Cmd.wantsSlot_of_matrix {c : Cmd} (h : c.isCopy = false) : c.wantsSlot = false := by
  obtain ⟨hto, -⟩ := Bool.or_eq_false_iff.mp h
  rw [Cmd.wantsSlot, hto, Bool.false_and]

/-- The accumulators of a matrix command that has been started are pending, or spoiled where it has failed at once (R201, R204). -/
theorem State.start_marks (hcmd : s.cmd? g.src.tile id = some c) (hcopy : c.isCopy = false) (hwave : c.wave = g.w)
    (hw : g.w < s.waves.length) {r : RegRange} (hpending : (r, id) ∈ (s.wave g.w).pending) :
    (r, id) ∈ ((s.start g id).wave g.w).pending ∨ (r, id) ∈ ((s.start g id).wave g.w).spoiled ∧
      ∀ d, (s.start g id).cmd? g.src.tile id = some d → d.state = .failed := by
  have hclaim : s.claim g.src.tile id = s := by simp [State.claim, hcmd, State.claims, Cmd.wantsSlot_of_matrix hcopy]
  have hstart {d : Cmd} (hd : (s.accept g.src.tile id).cmd? g.src.tile id = some d) := State.start_eq (g := g) (hclaim.symm ▸ hd)
  rw [hclaim] at hstart
  by_cases hacc : s.acceptable g.src.tile c = true
  · cases hbad : s.badCmd c with
    | none =>
      have haccept := State.accept_passed hcmd hacc hbad
      have hd : (s.accept g.src.tile id).cmd? g.src.tile id = some (s.sampled c) := haccept ▸ State.cmd?_passed hcmd
      rw [hstart hd, if_neg CmdState.noConfusion, haccept, hwave, (State.pending_unaccept (s := s.passed g.src.tile id c) hw _ _).1]
      exact .inl hpending
    | some k =>
      have haccept := State.accept_refused hcmd hacc hbad
      have hd : (s.accept g.src.tile id).cmd? g.src.tile id = some { c with state := .failed, why := trapWhy k } :=
        haccept ▸ State.cmd?_refusedCmd hcmd c.wave k
      have hfailed : ∀ d, (s.start g id).cmd? g.src.tile id = some d → d.state = .failed := fun d hfound => by
        rw [hstart hd, if_neg CmdState.noConfusion, hd] at hfound
        rw [← Option.some.inj hfound]
      refine .inr ⟨?_, hfailed⟩
      have hwr : g.w < (s.refusedCmd g.src.tile id g.w k).waves.length := (length_modifyAt ..).symm ▸ hw
      rw [hstart hd, if_neg CmdState.noConfusion, haccept, hwave, (State.pending_unaccept hwr _ _).2, State.wave_refusedCmd hw]
      exact List.mem_append_right _ (List.mem_filter.mpr ⟨hpending, beq_self_eq_true id⟩)
  · have haccept : s.accept g.src.tile id = s := by rw [State.accept_eq hcmd, if_neg hacc]
    rw [haccept] at hstart
    rw [hstart hcmd]
    left
    split
    · rw [State.modLanes, State.wave_modWave _ _ _ hw]
      exact hpending
    · exact hpending

end

/-! ## A new command -/

/-- The number of a tile's next command. -/
def State.nextId (s : State) (tile : Nat) : Nat := (s.tile tile).nextCmd * 192 + tile

/-- A command that has not been issued before, under its number. -/
def Cmd.numbered (c : Cmd) (id : Nat) : Cmd := { c with id := id, slot := none, block := none, credited := 0 }

/-- A tile's commands with one more behind them. -/
def State.withCmd (s : State) (tile : Nat) (c : Cmd) : State :=
  s.modTile tile fun x => { x with cmds := x.cmds ++ [c], nextCmd := x.nextCmd + 1 }

theorem State.addCmd_new {s : State} {g : Grp} (hagain : g.again = none) (c : Cmd) :
    s.addCmd g c = (s.withCmd g.src.tile (c.numbered (s.nextId g.src.tile)), s.nextId g.src.tile) := by
  have hself (u : State) : (u.modWave g.w fun wv => { wv with reissued := wv.reissued ++ [] }) = u :=
    u.modWave_self g.w _ (by simp)
  have hall (l : List Cmd) : (l.filter fun y => (none : Option Nat) != some y.id) = l := List.filter_eq_self.mpr fun _ _ => rfl
  simp only [State.addCmd, hagain, Option.bind_none, Option.map_none, Option.getD_none, Option.toList_none, hself, hall]
  rfl

theorem State.cmd?_withCmd {s : State} {tile : Nat} {c : Cmd} (htile : tile < s.tiles.length) (hnew : s.cmd? tile c.id = none) :
    (s.withCmd tile c).cmd? tile c.id = some c := by
  have hnone : (s.tile tile).cmds.find? (fun x => x.id == c.id) = none := hnew
  rw [State.cmd?, State.withCmd, State.tile_modTile _ _ _ htile]
  simp [hnone]

/-! ## Copies (R200, R204, R206) -/

/-- The group of a copy, whose lanes keep the operands as a replay entry does. -/
def Grp.copying (g : Grp) (x : CopyOps) : Grp := { g with caps := g.lanes.map fun l => (l, x.cap) }

/-- The command of a copy. -/
def Grp.copyCmd (g : Grp) (f : EForm) (kind : CmdKind) (x : CopyOps) : Cmd := g.newCmd kind f x.desc 0 0 x.origin x.extent

/-- A copy for its group. -/
def State.copyFor (s : State) (f : EForm) (kind : CmdKind) (x : CopyOps) (g : Grp) (l : Nat) : State × LaneEnd :=
  if g.again.any (s.wave g.w).reissued.contains then (s, .done)
  else if g.again.isNone && g.part.isEmpty && s.partialFor g false then (s, .trap .partialMask)
  else
    let prev := g.again.bind fun i => (s.cmd? g.src.tile i).bind (·.slot)
    match s.blockAway g f kind prev with
    | some (n, h) => s.ask g l (s.blockPacket g.w .read n (h + g.part.length) 0 .b128 .rlx 0 []) g.part
    | none =>
      match s.copyCheck g.w f kind x prev (if g.part.isEmpty then none else some (Block.of g.part)) with
      | .done =>
        let r := s.addCmd g (g.copyCmd f kind x)
        (r.1.start g r.2, .done)
      | e => (s, e)

theorem copyEffect_eq (f : EForm) (kind : CmdKind) (g : Grp) (s : State) : copyEffect f kind g s =
    s.onceFor (g.copying (g.copyOps f)) fun s l => s.copyFor f kind (g.copyOps f) (g.copying (g.copyOps f)) l := rfl

section
variable {s : State} {g : Grp} {f : EForm} {kind : CmdKind} (hagain : g.again = none)
include hagain

/-- A copy that passes its checks is started under its tile's next number. -/
theorem State.copyFor_ok {x : CopyOps} (hpart : g.part = []) (hall : s.partialFor g false = false)
    (haway : s.blockAway g f kind none = none) (hcheck : s.copyCheck g.w f kind x none none = .done) (l : Nat) :
    s.copyFor f kind x g l = ((s.withCmd g.src.tile ((g.copyCmd f kind x).numbered (s.nextId g.src.tile))).start g (s.nextId g.src.tile),
      .done) := by
  simp [State.copyFor, hagain, hpart, hall, haway, hcheck, State.addCmd_new hagain]

end

/-- A lane that waits at the end of its instruction still does when the issue has ended. -/
theorem State.finish_waits {m : State} {g : Grp} {l : Nat} {wt : Wait} (hne : wt ≠ .none) (h : (m.thread g.w l).wait = wt) :
    ((m.finish g).thread g.w l).wait = wt := by
  rw [State.thread_finish m g (State.lt_of_wait (h.symm ▸ hne)), h]

theorem State.cmd?_finish (m : State) (g : Grp) (tile id : Nat) : (m.finish g).cmd? tile id = m.cmd? tile id :=
  State.cmd?_of_tiles (by rw [State.finish_rest]) tile id

theorem exec_cpy (f : EForm) (s : State) :
    exec (.cpy f) s = issue (.cpy f) s (fun g => f.barLevel != 0 && g.omitted f.barLevel) (copyEffect f .cpy) := rfl

theorem exec_cpym (f : EForm) (s : State) :
    exec (.cpym f) s = issue (.cpym f) s (fun g => f.barLevel != 0 && g.omitted f.barLevel) (copyEffect f .cpym) := rfl

/-- A copy that is issued and passes its checks. -/
theorem Issues.issuesCopy {i : Instr} {s : State} {sl : Slot} (h : Issues i s sl) {f : EForm} {kind : CmdKind} {illegal : Grp → Bool}
    (he : exec i s = issue i s illegal (copyEffect f kind)) (hlegal : illegal (s.groupOf i sl) = false) :
    let g := s.groupOf i sl
    let s1 := s.issued g
    let x := g.copyOps f
    let id := s1.nextId g.src.tile
    g.lanes ≠ [] → g.again = none → s1.partialFor g false = false → s1.blockAway g f kind none = none →
    s1.copyCheck g.w f kind x none none = .done → g.src.tile < s1.tiles.length → s1.cmd? g.src.tile id = none →
    ∃ t d, exec i s = .next t ∧ t.cmd? g.src.tile id = some d ∧ d.kind = kind ∧ d.form = f ∧ d.wave = g.w ∧ d.ops = x ∧
      (d.state = .issued → ∀ l ∈ g.lanes, (t.thread g.w l).wait = .accept g.src.tile id) := by
  intro g s1 x id hlanes hagain hall haway hcheck htile hnew
  let c := ((g.copying x).copyCmd f kind x).numbered id
  have hpart : copyEffect f kind g s1 = (s1.withCmd g.src.tile c).start (g.copying x) id :=
    (copyEffect_eq f kind g s1).trans (State.onceFor_done hlanes (State.copyFor_ok hagain rfl hall haway hcheck _))
  have hcmd : (s1.withCmd g.src.tile c).cmd? g.src.tile id = some c := State.cmd?_withCmd htile hnew
  obtain ⟨d, hd, horder, hwait⟩ := State.start_keepsOrder (g := g.copying x) hcmd h.issued_wave fun l hl => h.issued_lane hl
  obtain ⟨hwave, hkind, hform, hops, -, -⟩ := Cmd.of_order horder
  have hexec : exec i s = .next (((s1.withCmd g.src.tile c).start (g.copying x) id).finish g) :=
    (he.trans (h.run illegal _ hlegal)).trans (congrArg (fun u : State => Host.Outcome.next (u.finish g)) hpart)
  exact ⟨_, d, hexec, (State.cmd?_finish _ _ _ _).trans hd, hkind, hform, hwave, hops,
    fun hissued l hl => State.finish_waits Wait.noConfusion (hwait hissued l hl)⟩

/-! ## Matrix instructions (R211, R213, R214) -/

/-- A wave whose accumulators a command is to write (R201). -/
def Wave.awaitsCmd (wv : Wave) (f : EForm) (id : Nat) : Wave := { wv with pending := wv.pending ++ [(mmaAcc f, id)] }

/-- The state with a new matrix command of the group on its tile. -/
def State.withMatrix (s : State) (g : Grp) (f : EForm) (c : Cmd) : State :=
  (s.withCmd g.src.tile c).modWave g.w (·.awaitsCmd f c.id)

/-- The state with a new matrix command held by the group's wave, in the place of an earlier one (R213). -/
def State.withHeld (s : State) (g : Grp) (f : EForm) (c : Cmd) : State :=
  let s1 := (s.modWave g.w Wave.unholdCmd).withMatrix g f c
  (s1.modWave g.w fun wv => { wv with held := s1.cmd? g.src.tile c.id }).dropCmd g.src.tile c.id

/-- A matrix instruction for its group. -/
def State.matrixFor (s : State) (f : EForm) (kind : CmdKind) (g : Grp) (l : Nat) : State × LaneEnd :=
  let a := lo64 (g.a l)
  let b := lo64 (g.b l)
  let c := lo64 (g.c l)
  if g.again.any (s.wave g.w).reissued.contains then (s, .done)
  else if g.again.isNone && s.partialFor g true then (s, .trap .partialMask)
  else
    match s.matrixCheck (s.engineWho g.w 6 5) (matrixRows f (kind == .mmasp) g.src.width.lanes a b c) with
    | some k => (s, .trap k)
    | none =>
      let hold := f.hold && g.again.isNone
      let s0 := if hold then s.modWave g.w Wave.unholdCmd else s
      let r := s0.addCmd g (g.newCmd kind f a b c [] [])
      let s1 := r.1.modWave g.w fun wv => { wv with pending := wv.pending ++ [(mmaAcc f, r.2)] }
      if hold then
        let s2 := s1.modWave g.w fun wv => { wv with held := s1.cmd? g.src.tile r.2 }
        (s2.dropCmd g.src.tile r.2, .done)
      else (s1.start g r.2, .done)

/-- The command of a matrix instruction, under its number. -/
def Grp.matrixCmd (g : Grp) (f : EForm) (kind : CmdKind) (l id : Nat) : Cmd :=
  (g.newCmd kind f (lo64 (g.a l)) (lo64 (g.b l)) (lo64 (g.c l)) [] []).numbered id

section
variable {s : State} {g : Grp} {f : EForm} {kind : CmdKind} {l : Nat} (hagain : g.again = none) (hall : s.partialFor g true = false)
  (hcheck : s.matrixCheck (s.engineWho g.w 6 5)
    (matrixRows f (kind == .mmasp) g.src.width.lanes (lo64 (g.a l)) (lo64 (g.b l)) (lo64 (g.c l))) = none)
include hagain hall hcheck

/-- Without HOLD the command is started on the tile. -/
theorem State.matrixFor_starts (hhold : f.hold = false) : s.matrixFor f kind g l =
    ((s.withMatrix g f (g.matrixCmd f kind l (s.nextId g.src.tile))).start g (s.nextId g.src.tile), .done) := by
  simp only [State.matrixFor, hagain, hall, hcheck, hhold, State.addCmd_new hagain, Option.any_none, Option.isNone_none, Bool.true_and,
    Bool.false_and, Bool.false_eq_true, if_false]
  rfl

/-- With HOLD the wave keeps it. -/
theorem State.matrixFor_holds (hhold : f.hold = true) : s.matrixFor f kind g l =
    (s.withHeld g f (g.matrixCmd f kind l (s.nextId g.src.tile)), .done) := by
  simp only [State.matrixFor, hagain, hall, hcheck, hhold, State.addCmd_new hagain, Option.any_none, Option.isNone_none, Bool.and_true,
    Bool.true_and, Bool.false_eq_true, if_false, if_true]
  rfl

end

section
variable {s : State} {g : Grp} {c : Cmd} (f : EForm)

theorem State.withMatrix_marks (hw : g.w < s.waves.length) (c : Cmd) :
    (mmaAcc f, c.id) ∈ ((s.withMatrix g f c).wave g.w).pending := by
  rw [State.withMatrix, State.wave_modWave (s.withCmd g.src.tile c) _ _ hw]
  exact List.mem_append_right _ (List.mem_singleton.mpr rfl)

theorem State.withHeld_wave (htile : g.src.tile < s.tiles.length) (hnew : s.cmd? g.src.tile c.id = none) (hw : g.w < s.waves.length) :
    ((s.withHeld g f c).wave g.w).held = some c ∧ (mmaAcc f, c.id) ∈ ((s.withHeld g f c).wave g.w).pending := by
  have hw0 : g.w < (s.modWave g.w Wave.unholdCmd).waves.length := (length_modifyAt ..).symm ▸ hw
  have hw1 : g.w < ((s.modWave g.w Wave.unholdCmd).withMatrix g f c).waves.length := (length_modifyAt ..).symm ▸ hw0
  have hcmd : ((s.modWave g.w Wave.unholdCmd).withMatrix g f c).cmd? g.src.tile c.id = some c :=
    State.cmd?_withCmd (s := s.modWave g.w Wave.unholdCmd) htile hnew
  have hwave : (s.withHeld g f c).wave g.w = { ((s.modWave g.w Wave.unholdCmd).withMatrix g f c).wave g.w with held := some c } := by
    rw [← hcmd]
    exact State.wave_modWave ((s.modWave g.w Wave.unholdCmd).withMatrix g f c) _ _ hw1
  rw [hwave]
  exact ⟨rfl, State.withMatrix_marks f hw0 c⟩

end

/-- What a wave keeps of its matrix commands: the one it holds, and the accumulators that are pending or spoiled. -/
def Wave.marks (wv : Wave) : Option Cmd × List (RegRange × Nat) × List (RegRange × Nat) := (wv.held, wv.pending, wv.spoiled)

theorem Wave.marks_eq_iff {a b : Wave} : a.marks = b.marks ↔ a.held = b.held ∧ a.pending = b.pending ∧ a.spoiled = b.spoiled := by
  simp only [Wave.marks, Prod.mk.injEq]

theorem State.finish_marks (m : State) (g : Grp) (w : Nat) : ((m.finish g).wave w).marks = (m.wave w).marks := by
  rcases m.finish_cases g with hsame | ⟨done, hunhold⟩
  · rw [hsame]
  · rw [hunhold]
    exact getD_map_of_eq (map_modifyAt m.waves g.w (fun wv => wv.unhold (done wv)) Wave.marks fun _ => rfl) w Wave.blank

/-- A matrix instruction that is issued and passes its checks. -/
theorem Issues.issuesMatrix {i : Instr} {s : State} {sl : Slot} (h : Issues i s sl) {f : EForm} {kind : CmdKind}
    (hkind : kind = .mma ∨ kind = .mmasp) (he : exec i s = issue i s lawful (matrixEffect f kind)) :
    let g := s.groupOf i sl
    let s1 := s.issued g
    let a := lo64 (g.a g.head)
    let b := lo64 (g.b g.head)
    let m := lo64 (g.c g.head)
    let id := s1.nextId g.src.tile
    g.lanes ≠ [] → g.again = none → s1.partialFor g true = false →
    s1.matrixCheck (s1.engineWho g.w 6 5) (matrixRows f (kind == .mmasp) g.src.width.lanes a b m) = none →
    g.src.tile < s1.tiles.length → s1.cmd? g.src.tile id = none →
    ∃ t d, exec i s = .next t ∧ (if f.hold then (t.wave g.w).held = some d else t.cmd? g.src.tile id = some d) ∧
      d.kind = kind ∧ d.form = f ∧ d.wave = g.w ∧ d.descA = a ∧ d.descB = b ∧ d.descC = m ∧
      ((mmaAcc f, id) ∈ (t.wave g.w).pending ∨ d.state = .failed ∧ (mmaAcc f, id) ∈ (t.wave g.w).spoiled) := by
  intro g s1 a b m id hlanes hagain hall hcheck htile hnew
  have hw : g.w < s1.waves.length := h.issued_wave
  let c := g.matrixCmd f kind g.head id
  cases hhold : f.hold with
  | true =>
    have hexec := h.performsOnce (part := fun g s l => s.matrixFor f kind g l) he hlanes (State.matrixFor_holds hagain hall hcheck hhold)
    obtain ⟨hheld, hpending⟩ := State.withHeld_wave (c := c) f htile hnew hw
    obtain ⟨hheld', hpending', -⟩ := Wave.marks_eq_iff.mp ((s1.withHeld g f c).finish_marks g g.w)
    exact ⟨_, c, hexec, hheld'.trans hheld, rfl, rfl, rfl, rfl, rfl, rfl, .inl (hpending'.symm ▸ hpending)⟩
  | false =>
    have hexec := h.performsOnce (part := fun g s l => s.matrixFor f kind g l) he hlanes (State.matrixFor_starts hagain hall hcheck hhold)
    have hcmd : (s1.withMatrix g f c).cmd? g.src.tile id = some c := State.cmd?_withCmd (c := c) htile hnew
    have hwm : g.w < (s1.withMatrix g f c).waves.length := (length_modifyAt ..).symm ▸ hw
    have hlm (l : Nat) (hl : l ∈ g.lanes) : l < ((s1.withMatrix g f c).wave g.w).threads.length := by
      rw [State.withMatrix, State.wave_modWave (s1.withCmd g.src.tile c) _ _ hw]
      exact h.issued_lane hl
    have hcopy : c.isCopy = false := by rcases hkind with rfl | rfl <;> rfl
    obtain ⟨d, hd, horder, -⟩ := State.start_keepsOrder hcmd hwm hlm
    obtain ⟨hdw, hdk, hdf, hdo, hdb, hdc⟩ := Cmd.of_order horder
    obtain ⟨-, hpending', hspoiled'⟩ := Wave.marks_eq_iff.mp (((s1.withMatrix g f c).start g id).finish_marks g g.w)
    refine ⟨_, d, hexec, (State.cmd?_finish _ _ _ _).trans hd, hdk, hdf, hdw, congrArg CopyOps.desc hdo, hdb, hdc, ?_⟩
    rcases State.start_marks hcmd hcopy rfl hwm (State.withMatrix_marks f hw c) with hpending | ⟨hspoiled, hfailed⟩
    · exact .inl (hpending'.symm ▸ hpending)
    · exact .inr ⟨hfailed d hd, hspoiled'.symm ▸ hspoiled⟩

/-! ## The statement -/

/-- Settles O35: the instructions that pass their checks add one command, which is started, or held by the wave. -/
theorem engineInstructionsBecomeCommands : Obligations.EngineInstructionsBecomeCommands := by
  unfold Obligations.EngineInstructionsBecomeCommands
  refine ⟨fun f c i hmem s sl h => ?copies, fun f c i hmem s sl h => ?matrix⟩
  case copies =>
    intro g s1 x id hlanes hagain hlevel
    simp only [List.mem_cons, Prod.mk.injEq, List.not_mem_nil, or_false] at hmem
    rcases hmem with ⟨rfl, rfl⟩ | ⟨rfl, rfl⟩ | ⟨rfl, rfl⟩
    · exact h.issuesCopy (exec_cpy f s) (by simpa using hlevel CmdKind.noConfusion) hlanes hagain
    · exact h.issuesCopy (exec_cpym f s) (by simpa using hlevel CmdKind.noConfusion) hlanes hagain
    · exact h.issuesCopy rfl (illegal := lawful) rfl hlanes hagain
  case matrix =>
    simp only [List.mem_cons, Prod.mk.injEq, List.not_mem_nil, or_false] at hmem
    rcases hmem with ⟨rfl, rfl⟩ | ⟨rfl, rfl⟩
    · exact h.issuesMatrix (.inl rfl) rfl
    · exact h.issuesMatrix (.inr rfl) rfl

end Sys2Proof.Machine

/-! SUPPORT. The package right after reset (R274, R294, R299, R336, R350). -/

namespace Sys2Proof.Machine

theorem getD_replicate_self {α : Type} (d : α) (n i : Nat) : (List.replicate n d).getD i d = d :=
  List.getD_eq_getElem?_getD.trans (List.getElem?_getD_replicate_default_eq ..)

/-- A world after reset: world 0, or one that does not exist. -/
theorem State.reset_world (w : Nat) : State.reset.world w = if w = 0 then World.zero 3 else World.reset := by
  cases w with
  | zero => rfl
  | succ w => exact getD_replicate_self ..

theorem State.reset_tile (t : Nat) : State.reset.tile t = Tile.reset := getD_replicate_self ..

theorem Fabric.reset_link (p : Nat) : Fabric.reset.link p = Link.reset := getD_replicate_self ..

/-- No partition owns a bank after reset (R350). -/
theorem Tile.reset_bankWorld (b : Nat) (h : b < 32) : Tile.reset.bankWorld b = none := by
  have hall : ∀ b < 32, Tile.reset.bankOwner b = none := by decide
  rw [Tile.bankWorld, hall b h, Option.map_none]

/-- Settles O7: every world but world 0 is one that does not exist, and every tile and link is as the reset of one leaves it. -/
theorem resetLeaves : Obligations.ResetLeaves := by
  unfold Obligations.ResetLeaves
  refine ⟨rfl, fun w hw => ?lives, rfl, rfl, rfl, rfl, rfl, fun w => ?thresholds, fun t => ?tiles, fun p => ?links⟩
  case lives => rw [State.reset_world, if_neg hw]; rfl
  case thresholds =>
    rw [State.reset_world]
    split <;> exact ⟨rfl, rfl, rfl, rfl⟩
  case tiles =>
    rw [State.reset_tile]
    exact ⟨rfl, rfl, rfl, rfl, Tile.reset_bankWorld⟩
  case links =>
    rw [show State.reset.fabric = Fabric.reset from rfl, Fabric.reset_link]
    exact ⟨rfl, rfl⟩

end Sys2Proof.Machine

/-! SUPPORT. Placement (R261 to R265, R273): what a team's place makes of the team, and a team whose context does not restore. -/

namespace Sys2Proof.Machine

/-! ## A team's place, part by part -/

theorem State.readied_rest (s : State) (tile : Nat) :
    s.readied tile = { s with tiles := (s.readied tile).tiles, waves := (s.readied tile).waves } := by
  unfold State.readied
  split <;> rfl

theorem State.seat_sameButWaves (s : State) (tile : Nat) (ws : List (Nat × Nat)) : sameButWaves s (s.seat tile ws) :=
  foldl_rel sameButWaves .refl (fun _ _ _ => .trans) _ (fun _ _ => ⟨rfl, length_modifyAt ..⟩) ws s

/-- What comes with a team to its tile leaves the team as it is, but for the waves that its first placement makes. -/
theorem State.movedIn_team (s : State) (l : Launch) (tm : Team) (p : Placement) (ht : p.team < s.teams.length) :
    (s.movedIn l tm p).teams.length = s.teams.length ∧
    ∃ ws, (s.movedIn l tm p).team p.team = { s.team p.team with waves := ws } := by
  unfold State.movedIn
  dsimp only
  split
  · refine ⟨length_modifyAt .., (List.range (recWaves l.record)).map (s.waves.length + ·), ?_⟩
    exact State.team_modTeam (({ s with waves := _ } : State).modCtx l.ctx _) p.team _ ht
  · split <;> exact ⟨rfl, _, rfl⟩

/-- A seated team is resident at its place. -/
theorem State.seatedIn_team (s : State) (l : Launch) (tm : Team) (p : Placement) (ht : p.team < s.teams.length) :
    (s.seatedIn l tm p).team p.team = { s.team p.team with
      state := .resident, tile := p.tile, bank := p.bank, nbank := l.header.banks, placed := true, die := p.tile / 48, waited := 0
      seen := [] } := by
  unfold State.seatedIn
  dsimp only
  generalize hseat : s.seat p.tile _ = u
  have hu : sameButWaves s u := hseat ▸ s.seat_sameButWaves _ _
  obtain ⟨hrest, _⟩ := hu
  have hteams : u.teams = s.teams := by rw [hrest]
  refine (State.team_modTeam u p.team _ (by rw [hteams]; exact ht)).trans ?_
  simp only [State.team, hteams]

theorem State.seatedIn_poison (s : State) (l : Launch) (tm : Team) (p : Placement) : (s.seatedIn l tm p).poison = s.poison := by
  unfold State.seatedIn
  dsimp only
  generalize hseat : s.seat p.tile _ = u
  obtain ⟨hrest, _⟩ := hseat ▸ s.seat_sameButWaves p.tile _
  show u.poison = s.poison
  rw [hrest]

/-- A team at its place, its registers still to come back from its context. -/
def State.settledIn (s : State) (l : Launch) (p : Placement) : State :=
  let u := ((s.readied p.tile).movedIn l (s.team p.team) p).seatedIn l (s.team p.team) p
  if l.header.banks = 0 then u else u.setScratch p.team (smapSlice p.tile p.bank l.header.banks)

theorem State.place_settledIn (s : State) (p : Placement) {l : Launch} (h : s.launchOf p.team = some l) :
    s.place p = (s.settledIn l p).restoreTeam p.team := by
  rw [State.place_eq, h]
  rfl

theorem State.settledIn_rest (s : State) (l : Launch) (p : Placement) :
    (s.settledIn l p).teams = (((s.readied p.tile).movedIn l (s.team p.team) p).seatedIn l (s.team p.team) p).teams ∧
    (s.settledIn l p).poison = ((s.readied p.tile).movedIn l (s.team p.team) p).poison := by
  unfold State.settledIn
  dsimp only
  split
  · exact ⟨rfl, State.seatedIn_poison _ l (s.team p.team) p⟩
  · rw [State.setScratch_rest]
    exact ⟨rfl, State.seatedIn_poison _ l (s.team p.team) p⟩

/-- The team at its place: resident there, with its waves and what else it had. -/
theorem State.settledIn_team (s : State) (l : Launch) (p : Placement) (ht : p.team < s.teams.length) :
    ∃ ws, (s.settledIn l p).team p.team = { s.team p.team with
      waves := ws, state := .resident, tile := p.tile, bank := p.bank, nbank := l.header.banks, placed := true, die := p.tile / 48
      waited := 0, seen := [] } := by
  have hteams : (s.readied p.tile).teams = s.teams := by rw [State.readied_rest]
  have hteam : (s.readied p.tile).team p.team = s.team p.team := by simp only [State.team, hteams]
  have ht' : p.team < (s.readied p.tile).teams.length := by rwa [hteams]
  obtain ⟨hlen, ws, hmoved⟩ := (s.readied p.tile).movedIn_team l (s.team p.team) p ht'
  refine ⟨ws, ?_⟩
  rw [State.team, (s.settledIn_rest l p).1, ← State.team, State.seatedIn_team _ _ _ _ (hlen ▸ ht'), hmoved, hteam]

/-! ## Contexts that do not restore (R16, R169, R273, R298) -/

/-- Marks below the lines that others replace stay. -/
theorem mem_moveMarks_below {marks : List Nat} (from_ : List Nat) {k : Nat} (src n : Nat) {x : Nat} (hx : x ∈ marks) (hlt : x < k) :
    x ∈ moveMarks marks from_ k src n :=
  List.mem_append_left _ (List.mem_filter.mpr ⟨hx, by simp only [Bool.not_eq_true', Bool.and_eq_false_iff, decide_eq_false_iff_not]; omega⟩)

/-- A poisoned line of memory below the slices is one still after a placement. -/
theorem State.settledIn_poison (s : State) (l : Launch) (p : Placement) {x : Nat} (hx : x ∈ s.poison) (hlt : x < 2 ^ 46) :
    x ∈ (s.settledIn l p).poison := by
  have hkey : x < sliceKey p.tile (p.bank * 16384) / 64 := by
    unfold sliceKey
    omega
  have hx' : x ∈ (s.readied p.tile).poison := by rw [State.readied_rest]; exact hx
  rw [(s.settledIn_rest l p).2]
  unfold State.movedIn
  dsimp only
  split
  · exact mem_moveMarks_below _ _ _ hx' hkey
  · split
    · exact mem_moveMarks_below _ _ _ hx' hkey
    · exact hx'

/-- What is poisoned in memory below the slices is so still after a placement. -/
theorem State.settledIn_poisoned (s : State) (l : Launch) (p : Placement) {k n : Nat} (hk : k + n ≤ 2 ^ 52)
    (h : s.poisoned [(k, n)] = true) : (s.settledIn l p).poisoned [(k, n)] = true := by
  simp only [State.poisoned, List.any_cons, List.any_nil, Bool.or_false, List.any_eq_true, Bool.and_eq_true, decide_eq_true_eq] at h ⊢
  obtain ⟨x, hx, hlo, hhi⟩ := h
  refine ⟨x, s.settledIn_poison l p hx ?_, hlo, hhi⟩
  unfold lineOf at hhi
  omega

theorem State.reportEnd_ended (s : State) (t : Nat) (r : EndReason) (h : (s.team t).state ≠ .ended) :
    ((s.reportEnd t r).team t).state = .ended := by
  obtain ⟨u, hexec, hended, -⟩ := exec_teamEnd_reported s t r h
  obtain rfl : s.reportEnd t r = u := by cases hexec; rfl
  exact hended

/-- A team whose context is poisoned ends where it is placed. -/
theorem State.place_ends (s : State) (p : Placement) {l : Launch} {k n : Nat} (ht : p.team < s.teams.length)
    (hl : s.launchOf p.team = some l) (hc : (s.team p.team).context = some (k, n)) (hn : n ≠ 0) (hk : k + n ≤ 2 ^ 52)
    (hpoison : s.poisoned [(k, n)] = true) : ((s.place p).team p.team).state = .ended := by
  obtain ⟨ws, hteam⟩ := s.settledIn_team l p ht
  have hload : (s.settledIn l p).loadContext p.team = none := by
    rw [State.loadContext, show ((s.settledIn l p).team p.team).context = some (k, n) by rw [hteam]; exact hc]
    dsimp only
    rw [if_pos (by rw [s.settledIn_poisoned l p hk hpoison]; simpa using hn)]
  rw [s.place_settledIn p hl, State.restoreTeam, hload]
  exact State.reportEnd_ended _ _ _ (by rw [hteam]; exact TeamState.noConfusion)

/-- A team without a context is resident at its place. -/
theorem State.place_resident (s : State) (p : Placement) {l : Launch} (ht : p.team < s.teams.length)
    (hl : s.launchOf p.team = some l) (hc : (s.team p.team).context = none) :
    ∃ ws, (s.place p).team p.team = { s.team p.team with
      waves := ws, state := .resident, tile := p.tile, bank := p.bank, nbank := l.header.banks, placed := true, die := p.tile / 48
      waited := 0, seen := [] } := by
  obtain ⟨ws, hteam⟩ := s.settledIn_team l p ht
  have hload : (s.settledIn l p).loadContext p.team = some (s.settledIn l p) := by
    rw [State.loadContext, show ((s.settledIn l p).team p.team).context = none by rw [hteam]; exact hc]
  rw [s.place_settledIn p hl, State.restoreTeam, hload]
  exact ⟨ws, hteam⟩

end Sys2Proof.Machine

/-! SUPPORT. Queues, rounds and dies (R258, R261 to R265): a launch that becomes eligible or ages, adverts, and a team that moves. -/

namespace Sys2Proof.Machine

/-- A launch after a change of it. -/
theorem State.launches_modLaunch (s : State) (i : Nat) (f : Launch → Launch) {l : Launch} (h : s.launches[i]? = some l) :
    (s.modLaunch i f).launches[i]? = some (f l) := by
  rw [State.modLaunch_launches, getElem?_modifyAt, if_pos rfl, h, Option.map_some]

theorem Launch.live_of_completion {l : Launch} (h : l.completion = none) : l.live = true := by
  rw [Launch.live, h]
  rfl

/-- A launch whose dependences are met is eligible, and the last of its die's order (R258). -/
theorem exec_launchEligibility_eligible (s : State) (i : Nat) (l : Launch) (hl : s.launches[i]? = some l) (hcommitted : l.committed = true)
    (heligible : l.eligible = false) (hlive : l.completion = none) (hnamed : s.named l.record = true) (hbad : s.badDep l = none)
    (hmet : s.depsMet l = true) (hdie : l.die < s.dies.length) :
    ∃ t, exec (.launchEligibility i) s = .next t ∧
      t.launches[i]? = some { l with eligible := true, age := 0, queue := recPrio l.record } ∧
      (t.die l.die).order = (s.die l.die).order ++ [i] := by
  have hexec : exec (.launchEligibility i) s =
      .next ((s.modLaunch i fun l => { l with eligible := true, age := 0, queue := recPrio l.record }).modDie l.die fun d =>
        { d with order := d.order ++ [i] }) := by
    show execLaunchEligibility i s = _
    simp only [execLaunchEligibility, hl, hcommitted, heligible, Launch.live_of_completion hlive, hnamed, hbad, hmet, Bool.not_true,
      Bool.or_false, Bool.false_eq_true, if_false, if_true]
  exact ⟨_, hexec, s.launches_modLaunch i _ hl, congrArg Die.order (State.die_modDie (s.modLaunch i _) l.die _ hdie)⟩

/-- A launch without a grant for 2^18 cycles is in the next higher queue (R261). -/
theorem exec_launchAging_ages (s : State) (i : Nat) (l : Launch) (hl : s.launches[i]? = some l) (hage : 2 ^ 18 ≤ l.age)
    (hqueue : l.queue < 7) :
    ∃ t, exec (.launchAging i) s = .next t ∧ t.launches[i]? = some { l with queue := l.queue + 1, age := 0 } ∧
      t = { s with launches := t.launches } := by
  have hexec : exec (.launchAging i) s = .next (s.modLaunch i fun l => { l with queue := l.queue + 1, age := 0 }) := by
    show execLaunchAging i s = _
    simp only [execLaunchAging, hl, hage, hqueue, true_and, if_true]
  exact ⟨_, hexec, s.launches_modLaunch i _ hl, rfl⟩

/-- The placements of a round are made (R261, R262). -/
theorem exec_dispatchRound_made (s s' : State) (die : Nat) (ps : List Placement) (h : s.round die (takeGiven die) ps = some (s', [])) :
    exec (.dispatchRound die ps) s = .next s' := by
  show execDispatchRound die ps s = _
  rw [execDispatchRound, h]

/-- Placements that are not those of a round are not made. -/
theorem exec_dispatchRound_refused (s : State) (die : Nat) (ps : List Placement)
    (h : ∀ s', s.round die (takeGiven die) ps ≠ some (s', [])) : exec (.dispatchRound die ps) s = .next s := by
  show execDispatchRound die ps s = _
  unfold execDispatchRound
  split
  · next s' hround => exact absurd hround (h s')
  · rfl

theorem takeGiven_fits (s : State) (die : Nat) (p : Placement) (hreach : (s.dieReach die p.team).contains (p.tile / 48) = true)
    (hfits : s.fits p.team p.tile p.bank = true) : takeGiven die s [p.team] [p] = some (s.place p, []) := by
  simp only [takeGiven, hreach, hfits, beq_self_eq_true, Bool.and_true, if_true]

/-- Requests that are sent leave the dies as they are. -/
theorem foldl_request_dies (ps : List Packet) (s : State) : (ps.foldl State.request s).dies = s.dies :=
  foldl_inv (fun u : State => u.dies = s.dies) State.request (fun _ _ h => h) ps s rfl

/-- The other dies of the package hear of a die's free slots (R265). -/
theorem exec_freeSlotAdvert_heard (s : State) (die d : Nat) (a : Advert) (hd : d < s.dies.length) (hne : d ≠ die) (ha : a ∈ s.advertsOf die) :
    ∃ t, exec (.freeSlotAdvert die) s = .next t ∧ a ∈ (t.die d).adverts := by
  refine ⟨_, rfl, ?_⟩
  rw [State.die, foldl_request_dies]
  simp only [List.getD_eq_getElem?_getD, List.getElem?_mapIdx, List.getElem?_eq_getElem hd, Option.map_some, Option.getD_some, if_neg hne]
  exact List.mem_append_right _ ha

theorem State.moveTeam_team (s : State) (t die : Nat) (h : t < s.teams.length) :
    (s.moveTeam t die).team t = { s.team t with die := die } := s.team_modTeam t _ h

/-- A team is of the die that accepts it, and as it was (R265). -/
theorem exec_teamTransfer_moves (s : State) (team die : Nat) (ht : team < s.teams.length) (hdie : die < 4)
    (hmay : s.mayMove team die = true) :
    ∃ t, exec (.teamTransfer team die true) s = .next t ∧ (t.team team).die = die ∧ (t.team team).state = (s.team team).state := by
  have hown : s.farDie die = (s.fabric.node, die) := if_pos hdie
  obtain ⟨l, hl⟩ : ∃ l, s.launchOf team = some l := by
    unfold State.mayMove at hmay
    dsimp only at hmay
    split at hmay
    · cases hmay
    · next l hl => exact ⟨l, hl⟩
  have hexec : exec (.teamTransfer team die true) s =
      .next ((s.modDie (s.team team).die fun d =>
        d.spend (s.fabric.node, die) l.world (recWaves l.record * l.header.width.hwWaves) false).moveTeam team die) := by
    show execTeamTransfer team die true s = _
    simp only [execTeamTransfer, hl, hown, hmay, beq_self_eq_true, Bool.not_true, Bool.and_false, Bool.false_eq_true, if_false, if_true]
  refine ⟨_, hexec, ?_⟩
  have hteam := (s.modDie (s.team team).die fun d =>
    d.spend (s.fabric.node, die) l.world (recWaves l.record * l.header.width.hwWaves) false).moveTeam_team team die ht
  exact ⟨congrArg Team.die hteam, (congrArg Team.state hteam).trans rfl⟩

/-- Settles O43: each operation has one branch for what it is to do, and a placement is its parts one after another, of which the last
brings the team's registers back from its context. -/
theorem launchesAreQueuedAndTeamsPlaced : Obligations.LaunchesAreQueuedAndTeamsPlaced := by
  unfold Obligations.LaunchesAreQueuedAndTeamsPlaced
  refine ⟨exec_launchEligibility_eligible, fun s i l hl _ => exec_launchAging_ages s i l hl, exec_dispatchRound_made,
    exec_dispatchRound_refused, fun s die p => takeGiven_fits s die p, fun s p l k n ht hl _ hc hn hk => s.place_ends p ht hl hc hn hk,
    fun s p l ht hl hc => ?resident, exec_freeSlotAdvert_heard, exec_teamTransfer_moves⟩
  obtain ⟨ws, hteam⟩ := s.place_resident p ht hl hc
  simp only [hteam, and_self]

end Sys2Proof.Machine

/-! SUPPORT. What the loader changes (R292, R323): memory and its marks, the frame map and the contexts. -/

namespace Sys2Proof.Machine

/-- Two states that agree but for memory, what goes with its bytes, the frame map and the contexts. -/
def sameButLoaded (s t : State) : Prop :=
  t = { s with
    mem := t.mem, home := t.home, ctxs := t.ctxs, frameMap := t.frameMap, poison := t.poison, homePoison := t.homePoison
    dirty := t.dirty, fetchLines := t.fetchLines }

theorem sameButLoaded.refl (s : State) : sameButLoaded s s := rfl

theorem sameButLoaded.trans {s t u : State} (h : sameButLoaded s t) (k : sameButLoaded t u) : sameButLoaded s u := by
  unfold sameButLoaded at *
  rw [k, h]

theorem sameButStored.sameButLoaded {s t : State} (h : sameButStored s t) : sameButLoaded s t := by
  unfold Machine.sameButLoaded
  rw [h]

theorem State.poke_loaded (s : State) (pa : Nat) (bs : List Byte) : sameButLoaded s (s.poke pa bs) := by
  unfold State.poke
  split
  · exact (s.store_sameButStored _ _).sameButLoaded
  · rfl

theorem State.blankPart_loaded (s : State) (pa n : Nat) : sameButLoaded s (s.blankPart pa n) := by
  unfold State.blankPart
  split <;> rfl

theorem State.blank_loaded (s : State) (pa n : Nat) : sameButLoaded s (s.blank pa n) :=
  foldl_rel sameButLoaded .refl (fun _ _ _ => .trans) (fun s (p : Piece) => s.blankPart p.1 p.2)
    (fun s p => s.blankPart_loaded p.1 p.2) _ s

theorem State.fillHomes_loaded (s : State) (run span : Nat) (cells : List Host.Cell) : sameButLoaded s (s.fillHomes run span cells) := by
  refine foldl_rel sameButLoaded .refl (fun _ _ _ => .trans) _ (fun s i => ?_) _ s
  rfl

theorem State.mapDeep_loaded (s : State) (va leaf : Nat) (ls : List Level) (table next : Nat) :
    sameButLoaded s (s.mapDeep va leaf ls table next).1 := by
  induction ls generalizing s table next with
  | nil => exact .refl s
  | cons l ls ih =>
    unfold State.mapDeep
    dsimp only
    split
    · exact s.poke_loaded _ _
    · split
      · split
        · exact .refl s
        · exact ih s _ _
      · exact ((s.blank_loaded _ _).trans (State.poke_loaded _ _ _)).trans (ih _ _ _)

theorem State.mapPages_loaded (s : State) (c : Ctx) (r : ObjRec) (root : Nat) : sameButLoaded s (s.mapPages c r root).1 :=
  foldl_inv (fun x : State × Nat => sameButLoaded s x.1) _ (fun x _ h => h.trans (x.1.mapDeep_loaded _ _ _ _ _)) _ _ (.refl s)

theorem State.mapRec_loaded (s : State) (ctx : Nat) (obj : W64) : sameButLoaded s (s.mapRec ctx obj) := by
  unfold State.mapRec
  split
  · exact .refl s
  · next c _ =>
    split
    · exact .refl s
    · next r _ =>
      dsimp only
      split
      · exact .refl s
      · exact (s.mapPages_loaded c r _).trans rfl

theorem State.newRec_loaded {s u : State} {ctx : Nat} {d : DirEntry} (h : s.newRec ctx d = some u) : sameButLoaded s u := by
  unfold State.newRec at h
  obtain ⟨c, _, h⟩ := Option.bind_eq_some_iff.mp h
  obtain ⟨_, h⟩ := Option.ite_none_left_eq_some.mp h
  obtain ⟨run, _, rfl⟩ := Option.map_eq_some_iff.mp h
  · refine sameButLoaded.trans ?_ (State.mapRec_loaded _ _ _)
    exact (sameButLoaded.trans (t := s.newPages run _) rfl (State.fillHomes_loaded _ _ _ _)).trans rfl

theorem State.codeRecord_loaded (s : State) (ctx : Nat) (d : DirEntry) : sameButLoaded s (s.codeRecord ctx d) := by
  unfold State.codeRecord
  split
  · exact .refl s
  · cases h : s.newRec ctx d with
    | none => exact .refl s
    | some u => exact State.newRec_loaded h

theorem State.setTensor_loaded (s : State) (ctx tid : Nat) (e : BitVec 512) : sameButLoaded s (s.setTensor ctx tid e) := rfl

theorem State.loadTensor_loaded {s u : State} {ctx world : Nat} {tids : List Nat} {t : TensorDecl}
    (h : s.loadTensor ctx world tids t = some u) : sameButLoaded s u := by
  unfold State.loadTensor at h
  obtain ⟨_, h⟩ := Option.ite_none_left_eq_some.mp h
  obtain ⟨a, _, h⟩ := Option.bind_eq_some_iff.mp h
  obtain ⟨b, _, rfl⟩ := Option.map_eq_some_iff.mp h
  generalize tExtent (tensorImage t 0 0) = n
  have hblank := (s.blank_loaded a n).trans (State.blank_loaded _ b n)
  exact (hblank.trans (State.store_sameButStored _ _ _).sameButLoaded).trans (State.setTensor_loaded _ _ _ _)

theorem State.loadTensors_loaded {ctx world : Nat} {used : List Nat} (ts : List TensorDecl) {s u : State} {done : List TensorDecl}
    (h : State.loadTensors.go ctx world used s done ts = some u) : sameButLoaded s u := by
  induction ts generalizing s done with
  | nil => cases h; exact .refl _
  | cons t ts ih =>
    unfold State.loadTensors.go at h
    split at h
    · cases h
    · obtain ⟨v, hv, h⟩ := Option.bind_eq_some_iff.mp h
      exact (State.loadTensor_loaded hv).trans (ih h)

theorem State.loaded_loaded (s : State) (ctx world : Nat) (d : DirEntry) :
    sameButLoaded s ((s.loaded ctx world d).getD (s, [])).1 := by
  cases h : s.loaded ctx world d with
  | none => exact .refl s
  | some x =>
    obtain ⟨u, hu, rfl⟩ := Option.map_eq_some_iff.mp h
    exact (State.codeRecord_loaded _ _ _).trans (State.loadTensors_loaded _ hu)

end Sys2Proof.Machine

/-! SUPPORT. The checks of a record do not look at what waits (R256, R373): the loader goes alike in states that differ in package-wide state
alone. -/

namespace Sys2Proof.Machine

/-- A state with other package-wide state. -/
def State.withPkg (s : State) (p : Package) : State := { s with pkg := p }

/-- An answer that comes with a state, with other package-wide state. -/
def pairWithPkg {α : Type} (p : Package) (x : State × α) : State × α := (x.1.withPkg p, x.2)

section
variable (p : Package) (s : State)

theorem State.touchCode_withPkg (k n : Nat) : (s.withPkg p).touchCode k n = (s.touchCode k n).withPkg p :=
  List.foldl_hom (State.withPkg · p) fun _ _ => rfl

theorem State.storePart_withPkg (a : State × List Byte) (q : Piece) :
    State.storePart (pairWithPkg p a) q = pairWithPkg p (State.storePart a q) := by
  unfold State.storePart pairWithPkg State.storeLine
  rw [State.touchCode_withPkg]
  rfl

theorem State.store_withPkg (ps : List Piece) (bs : List Byte) : (s.withPkg p).store ps bs = (s.store ps bs).withPkg p := by
  induction ps generalizing s bs with
  | nil => rfl
  | cons q ps ih =>
    rw [State.store_cons, State.store_cons, show (s.withPkg p, bs) = pairWithPkg p (s, bs) from rfl,
      List.foldl_hom (pairWithPkg p) (State.storePart_withPkg p)]
    exact ih _ _

theorem State.poke_withPkg (pa : Nat) (bs : List Byte) : (s.withPkg p).poke pa bs = (s.poke pa bs).withPkg p := by
  unfold State.poke
  rw [show (s.withPkg p).keyOf = s.keyOf from rfl]
  split
  · exact s.store_withPkg p _ _
  · rfl

theorem State.blank_withPkg (pa n : Nat) : (s.withPkg p).blank pa n = (s.blank pa n).withPkg p := by
  refine List.foldl_hom (State.withPkg · p) fun s q => ?_
  unfold State.blankPart
  rw [show (s.withPkg p).keyOf = s.keyOf from rfl]
  split <;> rfl

theorem State.fillHomes_withPkg (run span : Nat) (cells : List Host.Cell) :
    (s.withPkg p).fillHomes run span cells = (s.fillHomes run span cells).withPkg p :=
  List.foldl_hom (State.withPkg · p) fun _ _ => rfl

theorem State.mapDeep_withPkg (va leaf : Nat) (ls : List Level) (table next : Nat) :
    (s.withPkg p).mapDeep va leaf ls table next = pairWithPkg p (s.mapDeep va leaf ls table next) := by
  induction ls generalizing s table next with
  | nil => rfl
  | cons l ls ih =>
    unfold State.mapDeep
    rw [show (s.withPkg p).peek = s.peek from rfl]
    dsimp only
    split
    · rw [State.poke_withPkg]
      rfl
    · split
      · split
        · rfl
        · exact ih s _ _
      · rw [State.blank_withPkg, State.poke_withPkg]
        exact ih _ _ _

theorem State.mapPages_withPkg (c : Ctx) (r : ObjRec) (root : Nat) :
    (s.withPkg p).mapPages c r root = pairWithPkg p (s.mapPages c r root) :=
  List.foldl_hom (pairWithPkg p) (init := (s, c.nextTable)) fun x _ => x.1.mapDeep_withPkg p _ _ _ _ _

theorem State.mapRec_withPkg (ctx : Nat) (obj : W64) : (s.withPkg p).mapRec ctx obj = (s.mapRec ctx obj).withPkg p := by
  unfold State.mapRec
  rw [show (s.withPkg p).ctx? = s.ctx? from rfl]
  split
  next => rfl
  next c _ =>
    split
    next => rfl
    next r _ =>
      dsimp only
      split
      · rfl
      · exact (congrArg (fun x : State × Nat => x.1.modCtx ctx fun c => { c with nextTable := x.2 })
          (s.mapPages_withPkg p c r _)).trans rfl

theorem State.newRec_withPkg (ctx : Nat) (d : DirEntry) : (s.withPkg p).newRec ctx d = (s.newRec ctx d).map (·.withPkg p) := by
  unfold State.newRec
  rw [show (s.withPkg p).ctx? = s.ctx? from rfl, show (s.withPkg p).runFor = s.runFor from rfl]
  cases s.ctx? ctx with
  | none => rfl
  | some c =>
    dsimp only [Option.bind_some]
    rw [apply_ite (Option.map fun u : State => u.withPkg p), Option.map_map]
    refine if_congr Iff.rfl rfl (congrArg (Option.map · _) (funext fun run => ?_))
    rw [show (s.withPkg p).newPages run _ = (s.newPages run (spanOf d.size)).withPkg p from rfl, State.fillHomes_withPkg,
      show ∀ (u : State) f, (u.withPkg p).modCtx ctx f = (u.modCtx ctx f).withPkg p from fun _ _ => rfl, State.mapRec_withPkg]
    rfl

theorem State.codeRecord_withPkg (ctx : Nat) (d : DirEntry) : (s.withPkg p).codeRecord ctx d = (s.codeRecord ctx d).withPkg p := by
  unfold State.codeRecord
  rw [show (s.withPkg p).ctx? = s.ctx? from rfl, State.newRec_withPkg]
  split
  · rfl
  · cases s.newRec ctx d <;> rfl

theorem State.setTensor_withPkg (ctx tid : Nat) (e : BitVec 512) :
    (s.withPkg p).setTensor ctx tid e = (s.setTensor ctx tid e).withPkg p := rfl

theorem State.loadTensor_withPkg (ctx world : Nat) (tids : List Nat) (t : TensorDecl) :
    (s.withPkg p).loadTensor ctx world tids t = (s.loadTensor ctx world tids t).map (·.withPkg p) := by
  unfold State.loadTensor
  rw [show (s.withPkg p).ctx? = s.ctx? from rfl, show (s.withPkg p).takenFor = s.takenFor from rfl,
    show (s.withPkg p).bufferFor = s.bufferFor from rfl]
  generalize tExtent (tensorImage t 0 0) = n
  dsimp only
  rw [apply_ite (Option.map fun u : State => u.withPkg p), Option.map_bind]
  refine if_congr Iff.rfl rfl (congrArg (Option.bind _) (funext fun a => ?_))
  rw [Function.comp_apply, Option.map_map]
  refine congrArg (Option.map · _) (funext fun b => ?_)
  rw [Function.comp_apply, State.blank_withPkg, State.blank_withPkg, State.store_withPkg, State.setTensor_withPkg]

theorem State.loadTensors_withPkg (ctx world : Nat) (used : List Nat) (done ts : List TensorDecl) :
    State.loadTensors.go ctx world used (s.withPkg p) done ts =
      (State.loadTensors.go ctx world used s done ts).map (·.withPkg p) := by
  induction ts generalizing s done with
  | nil => rfl
  | cons t ts ih =>
    unfold State.loadTensors.go
    split
    · rfl
    · rw [State.loadTensor_withPkg, Option.map_bind, Option.bind_map]
      exact congrArg (Option.bind _) (funext fun u => ih u _)

theorem State.loaded_withPkg (ctx world : Nat) (d : DirEntry) :
    (s.withPkg p).loaded ctx world d = (s.loaded ctx world d).map (pairWithPkg p) := by
  unfold State.loaded State.loadTensors
  rw [State.codeRecord_withPkg, show (s.withPkg p).ctx? = s.ctx? from rfl, show (s.withPkg p).tensorsOf = s.tensorsOf from rfl]
  dsimp only
  rw [show ∀ u : State, (u.withPkg p).tidsUsed = u.tidsUsed from fun _ => rfl, State.loadTensors_withPkg, Option.map_map, Option.map_map]
  rfl

theorem State.loadable_withPkg : (s.withPkg p).loadable = s.loadable := by
  funext c d
  unfold State.loadable
  rw [State.loaded_withPkg, Option.isSome_map, State.codeRecord_withPkg]
  rfl

end

/-- The checks of a record do not look at the requests that wait. -/
theorem State.checkRecord_unawait (s : State) (i : Instr) : (s.unawait i).checkRecord = s.checkRecord := by
  funext submitter r
  unfold State.checkRecord
  rw [show s.unawait i = s.withPkg (s.unawait i).pkg from rfl, State.loadable_withPkg]
  rfl

end Sys2Proof.Machine

/-! SUPPORT. Submission (R256, R368, R369): the launch that an accepted record becomes, and its reply. -/

namespace Sys2Proof.Machine

theorem modifyAt_append_last {α : Type} (l : List α) (x : α) (f : α → α) : modifyAt (l ++ [x]) l.length f = l ++ [f x] := by
  induction l with
  | nil => rfl
  | cons a l ih => exact congrArg (a :: ·) ih

theorem State.takeWords_rest (s : State) (r : BitVec 2048) :
    (s.takeWords r).2 = s.withPkg { s.pkg with nextWord := (s.takeWords r).2.pkg.nextWord } := by
  unfold State.takeWords
  dsimp only
  split <;> rfl

/-- A launch that has just been accepted: what its record and its submitter say, and that it has no share yet. -/
structure Launch.Accepted (x : Launch) (r : BitVec 2048) (h : Header) (host : Option HostReq) (op handle : Nat) : Prop where
  record : x.record = r
  header : x.header = h
  host : x.host = host
  hostOp : x.hostOp = op
  handle : x.handle = handle
  committed : x.committed = false
  eligible : x.eligible = false

/-- An accepted launch is the last of the launches, under the next handle. -/
theorem State.addLaunch_adds (s : State) (r : BitVec 2048) (d : DirEntry) (h : Header) (host : Option HostReq) (op : Nat)
    (lane : Option (Nat × Nat)) (die : Nat) :
    (∃ x : Launch, (s.addLaunch r d h host op lane die).launches = s.launches ++ [x] ∧ x.Accepted r h host op s.pkg.nextHandle) ∧
    (s.addLaunch r d h host op lane die).pkg.replies = s.pkg.replies ∧ (s.addLaunch r d h host op lane die).fabric = s.fabric := by
  have hloaded := s.loaded_loaded (recCtx r) (recWorld r) d
  unfold State.addLaunch
  dsimp only
  generalize (s.loaded (recCtx r) (recWorld r) d).getD (s, []) = y at hloaded
  have hwords := y.1.takeWords_rest r
  generalize (y.1.takeWords r).2 = v at hwords
  have hlaunches : v.launches = s.launches := by rw [hwords, hloaded]; rfl
  have hhandle : v.pkg.nextHandle = s.pkg.nextHandle := by rw [hwords, hloaded]; rfl
  have hreplies : v.pkg.replies = s.pkg.replies := by rw [hwords, hloaded]; rfl
  have hfabric : v.fabric = s.fabric := by rw [hwords, hloaded]; rfl
  exact ⟨⟨_, congrArg (· ++ _) hlaunches, rfl, rfl, rfl, rfl, hhandle, rfl, rfl⟩, hreplies, hfabric⟩

/-- The last of the launches is committed: its share has as many teams as its record gives this package (R258). -/
theorem State.commit_last (s : State) (ls : List Launch) (x : Launch) (hls : s.launches = ls ++ [x]) (hx : x.committed = false) :
    (∃ ts : List Nat, (s.commit ls.length).launches = ls ++ [{ x with committed := true, teams := ts }] ∧
      ts.length = (s.shareTeams x.record).length) ∧ (s.commit ls.length).pkg = s.pkg := by
  have hget : s.launches[ls.length]? = some x := by rw [hls, List.getElem?_concat_length]
  unfold State.commit
  rw [hget]
  dsimp only
  rw [hx, if_neg Bool.false_ne_true]
  refine ⟨⟨(List.range (s.shareTeams x.record).length).map (s.teams.length + ·), ?_, by rw [List.length_map, List.length_range]⟩, rfl⟩
  rw [State.modLaunch_launches]
  dsimp only
  rw [hls, modifyAt_append_last]

/-- A record for this package alone that passes its checks is a committed launch, and is answered with its handle. -/
theorem State.submitFor_accepts (s : State) (submitter : Nat) (r : BitVec 2048) (host : Option HostReq) (op : Nat) {d : DirEntry}
    {h : Header} (hcheck : s.checkRecord submitter r = .ok (d, h)) (hone : recPkgn r = 1) (hhere : recPkg0 r = s.fabric.node) :
    ∃ x : Launch, ∃ ts : List Nat, (s.submitFor submitter r host op).launches = s.launches ++ [{ x with committed := true, teams := ts }] ∧
      x.Accepted r h host op s.pkg.nextHandle ∧ ts.length = (s.shareTeams r).length ∧
      (s.submitFor submitter r host op).pkg.replies = s.pkg.replies ++
        [{ port := host.map (·.port), fn := host.map (·.fn), id := host.map (·.id), op := op, status := 0, aux := 0
           value := BitVec.ofNat 64 s.pkg.nextHandle, body := [] }] := by
  have hsubmit : s.submitFor submitter r host op =
      ((s.addLaunch r d h host op none s.rootDie).commit s.launches.length).reply host op stOk 0
        (BitVec.ofNat 64 s.pkg.nextHandle) [] := by
    simp only [State.submitFor, State.submit, hcheck, hone, hhere, and_self, if_true]
  obtain ⟨⟨x, hlaunches, hx⟩, hreplies, hfabric⟩ := s.addLaunch_adds r d h host op none s.rootDie
  obtain ⟨⟨ts, hcommit, hlength⟩, hpkg⟩ := State.commit_last _ s.launches x hlaunches hx.committed
  have hshare : (s.addLaunch r d h host op none s.rootDie).shareTeams x.record = s.shareTeams r := by
    unfold State.shareTeams
    rw [hx.record, hfabric]
  rw [hsubmit]
  generalize (s.addLaunch r d h host op none s.rootDie).commit s.launches.length = u at hcommit hpkg
  refine ⟨x, ts, hcommit, hx, hlength.trans (congrArg List.length hshare), ?_⟩
  exact congrArg (· ++ _) ((congrArg Package.replies hpkg).trans hreplies)

theorem exec_launchSubmit_accepted (s : State) (world : Nat) (r : BitVec 2048) (d : DirEntry) (h : Header)
    (hcheck : s.checkRecord world r = .ok (d, h)) (hone : recPkgn r = 1) (hhere : recPkg0 r = s.fabric.node) :
    ∃ t x, exec (.launchSubmit world r) s = .next t ∧ t.launches = s.launches ++ [x] ∧ x.record = r ∧ x.header = h ∧
      x.handle = s.pkg.nextHandle ∧ x.committed = true ∧ x.eligible = false ∧ x.teams.length = (s.shareTeams r).length ∧
      t.pkg.replies = s.pkg.replies ++
        [{ port := none, fn := none, id := none, op := 2, status := 0, aux := 0, value := BitVec.ofNat 64 s.pkg.nextHandle, body := [] }] := by
  obtain ⟨x, ts, hlaunches, hx, hlength, hreplies⟩ := s.submitFor_accepts world r none 2 hcheck hone hhere
  exact ⟨_, _, rfl, hlaunches, hx.record, hx.header, hx.handle, rfl, hx.eligible, hlength, hreplies⟩

theorem exec_launchRecord_accepted (s : State) (q : HostReq) (r : BitVec 2048) (d : DirEntry) (h : Header)
    (hfirst : s.behindWindow q.port (.launchRecord q.port ⟨q.fn, q.id⟩ r) = false)
    (hcheck : s.checkRecord (fnWorld q.fn) r = .ok (d, h)) (hone : recPkgn r = 1) (hhere : recPkg0 r = s.fabric.node) :
    ∃ t x, exec (.launchRecord q.port ⟨q.fn, q.id⟩ r) s = .next t ∧ t.launches = s.launches ++ [x] ∧ x.record = r ∧ x.host = some q ∧
      x.hostOp = 2 ∧ t.pkg.replies = s.pkg.replies ++
        [{ port := some q.port, fn := some q.fn, id := some q.id, op := 2, status := 0, aux := 0
           value := BitVec.ofNat 64 s.pkg.nextHandle, body := [] }] := by
  have hexec : exec (.launchRecord q.port ⟨q.fn, q.id⟩ r) s =
      .next ((s.unawait (.launchRecord q.port ⟨q.fn, q.id⟩ r)).submitFor (fnWorld q.fn) r (some q) opRecord) := by
    show execLaunchRecord q.port ⟨q.fn, q.id⟩ r s = _
    simp only [execLaunchRecord, hfirst, Bool.false_eq_true, if_false]
  have hcheck' : (s.unawait (.launchRecord q.port ⟨q.fn, q.id⟩ r)).checkRecord (fnWorld q.fn) r = .ok (d, h) := by
    rw [State.checkRecord_unawait, hcheck]
  obtain ⟨x, ts, hlaunches, hx, _, hreplies⟩ := State.submitFor_accepts _ (fnWorld q.fn) r (some q) opRecord hcheck' hone hhere
  exact ⟨_, _, hexec, hlaunches, hx.record, hx.host, hx.hostOp, hreplies⟩

/-- A host's record waits behind earlier accesses through its port's windows (R373). -/
theorem exec_launchRecord_waits (s : State) (q : HostReq) (r : BitVec 2048)
    (hbehind : s.behindWindow q.port (.launchRecord q.port ⟨q.fn, q.id⟩ r) = true) :
    ∃ t, exec (.launchRecord q.port ⟨q.fn, q.id⟩ r) s = .next t ∧ .launchRecord q.port ⟨q.fn, q.id⟩ r ∈ t.pkg.waiting ∧
      t = { s with pkg := { s.pkg with waiting := t.pkg.waiting } } := by
  have hexec : exec (.launchRecord q.port ⟨q.fn, q.id⟩ r) s = .next (s.await (.launchRecord q.port ⟨q.fn, q.id⟩ r)) := by
    show execLaunchRecord q.port ⟨q.fn, q.id⟩ r s = _
    simp only [execLaunchRecord, hbehind, if_true]
  refine ⟨_, hexec, ?_, rfl⟩
  unfold State.await
  dsimp only
  split
  · next hin => simpa using hin
  · exact List.mem_append_right _ (List.mem_singleton.mpr rfl)

theorem exec_launchSubmit_refused (s : State) (world : Nat) (r : BitVec 2048) (k : Nat) (hcheck : s.checkRecord world r = .error k) :
    exec (.launchSubmit world r) s = .next (s.reply none 2 1 (BitVec.ofNat 32 k) 0 []) := by
  show execLaunchSubmit world r s = _
  simp only [execLaunchSubmit, State.submitFor, State.submit, hcheck]
  rfl

end Sys2Proof.Machine

/-! SUPPORT. Completion (R259, R260): what the end of a share makes of its launch, and of memory. -/

namespace Sys2Proof.Machine

/-- Two states that agree but for launches, package-wide state, what has been sent and the count of free values. -/
def sameButReported (s t : State) : Prop :=
  t = { s with launches := t.launches, pkg := t.pkg, fabric := t.fabric, freeCtr := t.freeCtr }

theorem State.reportDone_rest (s : State) (x : Launch) (c : Completion) :
    s.reportDone x c = { s with pkg := (s.reportDone x c).pkg, freeCtr := (s.reportDone x c).freeCtr } := by
  unfold State.reportDone
  dsimp only
  split
  · rfl
  · cases c <;> rfl

/-- What a report of a share changes of the launch is its list of shares (R259). -/
theorem State.shareReport_launch (s : State) (i package : Nat) (c : Completion) {x : Launch} (h : s.launches[i]? = some x) :
    (∃ sh, (s.shareReport i package c).launches[i]? = some { x with shares := sh }) ∧ sameButReported s (s.shareReport i package c) := by
  unfold State.shareReport
  rw [h]
  dsimp only
  split
  · exact ⟨⟨x.shares, h⟩, rfl⟩
  · have hmod := s.launches_modLaunch i (fun x' => { x' with shares := x.shares ++ [(package, c)] }) h
    split
    · rw [State.reportDone_rest]
      exact ⟨⟨_, hmod⟩, rfl⟩
    · exact ⟨⟨_, hmod⟩, rfl⟩

/-- A share that is done: its launch is complete here (R259). -/
theorem State.launchDone_launch (s : State) (i : Nat) (c : Completion) {l : Launch} (h : s.launches[i]? = some l) :
    (∃ sh, (s.launchDone i c).launches[i]? = some { l with completion := some c, resident := false, shares := sh }) ∧
    sameButReported s (s.launchDone i c) := by
  have hdone := s.launches_modLaunch i (fun x => { x with completion := some c, resident := false }) h
  unfold State.launchDone
  rw [h]
  dsimp only
  split
  · obtain ⟨hshares, hrest⟩ := State.shareReport_launch _ i s.fabric.node c hdone
    refine ⟨hshares, ?_⟩
    unfold sameButReported at *
    rw [hrest]
    rfl
  · exact ⟨⟨l.shares, hdone⟩, rfl⟩

/-- A share all of whose teams have ended, one of them with an error. -/
theorem exec_shareComplete_error (s : State) (i : Nat) (l : Launch) (e : EndReason) (hl : s.launches[i]? = some l)
    (heligible : l.eligible = true) (hlive : l.completion = none) (hended : s.shareEnded l = true) (herror : l.firstError = some e) :
    ∃ t sh, exec (.shareComplete i) s = .next t ∧
      t.launches[i]? = some { l with completion := some (.error e), resident := false, shares := sh } ∧ t.mem = s.mem := by
  have hexec : exec (.shareComplete i) s = .next (s.launchDone i (.error e)) := by
    show execShareComplete i s = _
    simp only [execShareComplete, hl, heligible, Launch.live_of_completion hlive, hended, herror, Bool.not_true, Bool.or_false,
      Bool.false_eq_true, if_false]
  obtain ⟨⟨sh, hlaunch⟩, hrest⟩ := s.launchDone_launch i (.error e) hl
  exact ⟨_, sh, hexec, hlaunch, by rw [hrest]⟩

/-- A share all of whose teams have ended without an error, its pennant raised in the state `u`. -/
theorem exec_shareComplete_raised (s u : State) (i : Nat) (l : Launch) (hl : s.launches[i]? = some l)
    (heligible : l.eligible = true) (hlive : l.completion = none) (hended : s.shareEnded l = true) (herror : l.firstError = none)
    (hraise : s.raisePennant i l = (u, some .ok)) (hlaunches : u.launches = s.launches) :
    ∃ t sh, exec (.shareComplete i) s = .next t ∧
      t.launches[i]? = some { l with completion := some .ok, resident := false, shares := sh } ∧ t.mem = u.mem := by
  have hexec : exec (.shareComplete i) s = .next (u.launchDone i .ok) := by
    show execShareComplete i s = _
    simp only [execShareComplete, hl, heligible, Launch.live_of_completion hlive, hended, herror, hraise, Bool.not_true, Bool.or_false,
      Bool.false_eq_true, if_false]
  obtain ⟨⟨sh, hlaunch⟩, hrest⟩ := u.launchDone_launch i .ok (hlaunches ▸ hl)
  exact ⟨_, sh, hexec, hlaunch, by rw [hrest]⟩

theorem State.raisePennant_none (s : State) (i : Nat) (l : Launch) (h : recCaddr l.record = 0) : s.raisePennant i l = (s, some .ok) := by
  unfold State.raisePennant
  exact if_pos h

/-- A pennant that can be raised here is raised by one (R260). -/
theorem State.raisePennant_here (s : State) (i : Nat) (l : Launch) {ps : List Piece} {pad : Option (Nat × BitVec 512 × Nat)}
    (h : recCaddr l.record ≠ 0) (hfree : ∀ r ∈ s.fabric.reqs, r.use ≠ .word i caddrField)
    (haccess : s.access { launchWho l 3 with fabric := l.scopeOf == .fabric } (recCaddr l.record) 8 8 .rmw = .ok ps pad) :
    s.raisePennant i l = ((s.count ps).store ps (bumpBytes (s.load ps pad)), some .ok) := by
  have hany : (s.fabric.reqs.any fun r => r.use == .word i caddrField) = false := by
    simpa only [List.any_eq_false, beq_iff_eq] using hfree
  unfold State.raisePennant
  simp only [if_neg h, hany, haccess, Bool.false_eq_true, if_false]

/-- Settles O42: a record is one branch of its checks, and a share's end one branch of how its teams ended. -/
theorem launchesAreSubmittedAndComplete : Obligations.LaunchesAreSubmittedAndComplete := by
  unfold Obligations.LaunchesAreSubmittedAndComplete
  refine ⟨exec_launchSubmit_accepted, exec_launchRecord_accepted, exec_launchRecord_waits, exec_launchSubmit_refused,
    exec_shareComplete_error, fun s i l hl heligible hlive hended herror hnone => ?none,
    fun s i l ps pad hl heligible hlive hended herror hsome hfree haccess => ?raised⟩
  case none => exact exec_shareComplete_raised s s i l hl heligible hlive hended herror (s.raisePennant_none i l hnone) rfl
  case raised =>
    have hstored := (s.count ps).store_sameButStored ps (bumpBytes (s.load ps pad))
    obtain ⟨t, sh, hexec, hlaunch, ht⟩ := exec_shareComplete_raised s _ i l hl heligible hlive hended herror
      (s.raisePennant_here i l hsome hfree haccess) (by rw [hstored]; rw [s.count_sameButPrefetched ps])
    exact ⟨t, sh, hexec, hlaunch, by rw [ht, State.store_mem, State.count_mem]; rfl⟩

end Sys2Proof.Machine

/-! SUPPORT. What leaves the worlds as they are (O51): the shared operations, ends of teams and launches, pages that leave, and freeze units. -/

namespace Sys2Proof.Machine

/-- The worlds of a state are another's. -/
def sameWorlds (s t : State) : Prop := t.worlds = s.worlds

theorem sameWorlds.refl (s : State) : sameWorlds s s := rfl

theorem sameWorlds.trans {s t u : State} (h : sameWorlds s t) (k : sameWorlds t u) : sameWorlds s u := Eq.trans k h

theorem sameWorlds_foldl {α : Type} (f : State → α → State) (hf : ∀ s a, sameWorlds s (f s a)) (l : List α) (s : State) :
    sameWorlds s (l.foldl f s) := foldl_rel sameWorlds .refl (fun _ _ _ => .trans) f hf l s

/-- What is done with one that may be found leaves the worlds. -/
theorem sameWorlds_getD_map {α : Type} (s : State) (o : Option α) (f : α → State) (hf : ∀ a, sameWorlds s (f a)) :
    sameWorlds s ((o.map f).getD s) := by
  cases o with
  | none => rfl
  | some a => exact hf a

/-! ## Frames that the worlds are in -/

theorem sameButStored.sameWorlds {s t : State} (h : sameButStored s t) : sameWorlds s t := by rw [h]; rfl

theorem sameButLoaded.sameWorlds {s t : State} (h : sameButLoaded s t) : sameWorlds s t := by rw [h]; rfl

theorem sameButReported.sameWorlds {s t : State} (h : sameButReported s t) : sameWorlds s t := by rw [h]; rfl

theorem State.store_worlds (s : State) (ps : List Piece) (bs : List Byte) : sameWorlds s (s.store ps bs) :=
  (s.store_sameButStored ps bs).sameWorlds

theorem State.count_worlds (s : State) (ps : List Piece) : sameWorlds s (s.count ps) := by
  rw [s.count_sameButPrefetched ps]
  rfl

theorem State.setScratch_worlds (s : State) (t : Nat) (e : W64) : sameWorlds s (s.setScratch t e) := by
  rw [State.setScratch_rest]
  rfl

theorem State.requestFor_worlds (s : State) (tile w l : Nat) (part : List Byte) (use : ReqUse) (p : Packet) {x : State × Nat}
    (h : s.requestFor tile w l part use p = some x) : sameWorlds s x.1 := by
  obtain ⟨t, _, rfl⟩ := Option.map_eq_some_iff.mp h
  rfl

theorem State.recallFrom_worlds (s : State) (page : Nat) (nodes : List Nat) : sameWorlds s (s.recallFrom page nodes) :=
  sameWorlds_foldl _ (fun s n => by split <;> rfl) nodes s

/-! ## The ends of teams and launches (R150, R259) -/

theorem State.endTeam_worlds (s : State) (t : Nat) (r : Option EndReason) : sameWorlds s (s.endTeam t r) := by
  by_cases h : (s.team t).state = .ended
  · unfold State.endTeam
    rw [if_pos h]
    rfl
  · have hrest := s.endTeam_launches t r h
    unfold sameWorlds
    rw [hrest]
    exact (s.teamGone_rest t r).2

theorem State.launchDone_worlds (s : State) (l : Nat) (c : Completion) : sameWorlds s (s.launchDone l c) := by
  cases h : s.launches[l]? with
  | none =>
    unfold State.launchDone
    rw [h]
    rfl
  | some x => exact (s.launchDone_launch l c h).2.sameWorlds

theorem State.shareReport_worlds (s : State) (l package : Nat) (c : Completion) : sameWorlds s (s.shareReport l package c) := by
  cases h : s.launches[l]? with
  | none =>
    unfold State.shareReport
    rw [h]
    rfl
  | some x => exact (s.shareReport_launch l package c h).2.sameWorlds

theorem State.endLaunches_worlds (s : State) (p : Launch → Bool) (r : EndReason) : sameWorlds s (s.endLaunches p r) := by
  refine (sameWorlds_foldl (fun s t => s.endTeam t (some r)) (fun s t => s.endTeam_worlds t _) (s.teamsOf p) s).trans ?_
  refine sameWorlds_foldl _ (fun s l => ?_) _ _
  split
  · split
    · exact s.launchDone_worlds _ _
    · rfl
  · rfl

theorem State.quiesceParts_worlds (s : State) (tile : Nat) (pmask : BitVec 6) (r : EndReason) :
    sameWorlds s (s.quiesceParts tile pmask r) :=
  sameWorlds_foldl _ (fun s t => s.endTeam_worlds t _) _ s

/-! ## Pages that leave (R286) -/

theorem State.departed_worlds (s : State) (page : Nat) : sameWorlds s (s.departed page) := by
  have hhome : sameWorlds s (s.sectorsHome (s.frameOf page)) := sameWorlds_foldl _ (fun _ _ => by rfl) _ s
  rw [State.departed_eq]
  split
  · exact hhome.trans rfl
  · rfl

theorem State.sendSector_worlds (s : State) (e : FrameEntry) (i : Nat) : sameWorlds s (s.sendSector e i) :=
  sameWorlds_foldl _ (fun _ _ => by rfl) _ s

theorem State.depart_worlds (s : State) (page : Nat) : sameWorlds s (s.depart page) := by
  rw [State.depart_eq]
  dsimp only
  split
  · rfl
  · split
    · exact sameWorlds_foldl (fun u i => u.sendSector (s.frameOf page) i) (fun u i => u.sendSector_worlds _ i) _
        ((s.stopComing page).setFrame page { s.frameOf page with state := .departing })
    · exact (s.stopComing page).departed_worlds page

/-! ## Images (R302, R308, R309, R319) -/

theorem State.assignWorlds_worlds (s : State) (tile : Nat) (new : Tile) : sameWorlds s (s.assignWorlds tile new) :=
  (sameWorlds_foldl (fun s b => s.wipe (sliceKey tile (b * 16384)) 16384) (fun _ _ => by rfl) _ s).trans rfl

theorem State.thaw_worlds (s : State) (tile : Nat) : sameWorlds s (s.thaw tile) := by
  unfold State.thaw
  split <;> rfl

theorem State.putImage_worlds (s : State) (tile : Nat) (x : Image) : sameWorlds s (s.putImage tile x) := by
  unfold State.putImage
  dsimp only
  refine sameWorlds.trans ?_ (rfl : sameWorlds _ _)
  refine sameWorlds.trans ?_ (State.thaw_worlds _ _)
  refine sameWorlds.trans ?_ (rfl : sameWorlds (List.foldl _ _ (s.imageTeams x)) _)
  refine sameWorlds.trans ?_ (sameWorlds_foldl _ (fun s t => ?_) _ _)
  · exact (s.assignWorlds_worlds tile _).trans rfl
  · split
    · rfl
    · exact s.setScratch_worlds _ _

theorem State.takeImage_worlds (s : State) (tile : Nat) : sameWorlds s (s.takeImage tile) := by
  unfold State.takeImage
  extract_lets x reqs ort f bs a fits s1
  show s1.worlds = s.worlds
  unfold s1
  split
  · exact (State.store_worlds f.2 _ _).trans (State.store_worlds _ _ _)
  · rfl

theorem outState_restoreDone_worlds (tile : Nat) (s : State) : sameWorlds s (outState s (execRestoreDone tile s)) := by
  unfold execRestoreDone
  dsimp only
  split
  · rfl
  · split
    · split
      · rfl
      · exact s.putImage_worlds tile _
    · rfl

theorem outState_freezeDone_worlds (tile : Nat) (s : State) : sameWorlds s (outState s (execFreezeDone tile s)) := by
  unfold execFreezeDone
  split
  · exact s.takeImage_worlds tile
  · rfl

theorem State.finishStreams_worlds (s : State) : sameWorlds s s.finishStreams :=
  sameWorlds_foldl _ (fun s t => by
    split
    · exact outState_restoreDone_worlds t s
    · exact outState_freezeDone_worlds t s) _ s

theorem State.putPres_worlds (s : State) (x : Image) : sameWorlds s (s.putPres x) := by
  unfold State.putPres
  dsimp only
  split
  · exact (s.store_worlds _ _).trans (State.store_worlds _ _ _)
  · rfl

theorem State.discardImage_worlds (s : State) (x : Image) : sameWorlds s (s.discardImage x) := by
  unfold State.discardImage
  split
  · rfl
  · exact State.thaw_worlds _ _

theorem State.dropSegments_worlds (s : State) (w : Nat) : sameWorlds s (s.dropSegments w) := by
  unfold State.dropSegments
  refine sameWorlds.trans ?_ (sameWorlds_foldl State.putPres State.putPres_worlds _ _)
  exact sameWorlds.trans rfl (sameWorlds_foldl (fun s (e : Image × Image) => s.discardImage e.1) (fun s e => s.discardImage_worlds e.1) _ _)

end Sys2Proof.Machine

/-! SUPPORT. Requests of other nodes leave the worlds as they are (R285, R332 to R335, R341, R347, R348). -/

namespace Sys2Proof.Machine

/-! ## Accesses at their home (R285) -/

theorem State.frameGone_worlds (s : State) (node : Nat) (q : Piece) : sameWorlds s (s.frameGone node q) := by
  unfold State.frameGone
  split
  · split <;> rfl
  · rfl

theorem State.passOn_worlds (s : State) (p fw : Packet) (step h a : Nat) : sameWorlds s (s.passOn p fw step h a) := by
  unfold State.passOn
  dsimp only
  split
  · next s' t hreq => exact (s.requestFor_worlds _ _ _ _ _ _ hreq).trans rfl
  · rfl

section
variable {f : Point} (hf : ∀ s ks, sameWorlds s (f s ks).1) (s : State)
include hf

theorem State.atPoint_worlds (ks : List Piece) (mode : Mode) : sameWorlds s (s.atPoint ks mode f).1 := by
  unfold State.atPoint
  split
  · rfl
  · exact (s.count_worlds ks).trans (hf _ _)

theorem State.atFrame_worlds (node : Nat) (qs : List Piece) (mode : Mode) : sameWorlds s (s.atFrame node qs mode f).1 := by
  unfold State.atFrame
  dsimp only
  split
  · exact sameWorlds_foldl _ (fun s q => s.frameGone_worlds node q) qs s
  · split
    · rfl
    · exact s.atPoint_worlds hf _ _

theorem State.atHome_worlds (p fw : Packet) (step : Nat) (qs : List Piece) (mode : Mode) :
    sameWorlds s (s.atHome p fw step qs mode f).1 := by
  have hcall (l : List (Nat × Nat)) : sameWorlds s (l.foldl (fun s x => s.recallFrom x.1 [x.2]) s) :=
    sameWorlds_foldl (fun s (x : Nat × Nat) => s.recallFrom x.1 [x.2]) (fun s x => s.recallFrom_worlds x.1 [x.2]) l s
  unfold State.atHome
  generalize (if p.typ = .rstf then s.fabric.node else p.src.toNat) = sender
  dsimp only
  split
  · exact s.atFrame_worlds hf _ _ _
  · split
    · rfl
    · split
      · rfl
      · split
        · split
          · exact s.atPoint_worlds hf _ _
          · exact hcall _
        · split
          · exact s.passOn_worlds _ _ _ _ _
          · exact hcall _
        · rfl
        · rfl

end

theorem storePoint_worlds (bs out : List Byte) (s : State) (ks : List Piece) : sameWorlds s ((s.store ks bs, out) : State × List Byte).1 :=
  s.store_worlds ks bs

theorem atomicPoint_worlds (p : Packet) (s : State) (ks : List Piece) : sameWorlds s (atomicPoint p s ks).1 := by
  exact sameWorlds_getD_map s _ _ fun bs => s.store_worlds ks bs

theorem State.raiseWord_worlds (s : State) (bar n w lane : Nat) : sameWorlds s (s.raiseWord bar n w lane).1 := by
  unfold State.raiseWord
  dsimp only
  split
  · rfl
  · split
    · rfl
    · split
      · exact s.store_worlds _ _
      · split
        · next s' t hreq => exact s.requestFor_worlds _ _ _ _ _ _ hreq
        · rfl

theorem State.wordExits_worlds (s : State) (p : Packet) : sameWorlds s (s.wordExits p) := by
  unfold State.wordExits
  split
  · rfl
  · split
    · rfl
    · dsimp only
      refine sameWorlds.trans ?_ (rfl : sameWorlds (State.raiseWord _ _ _ _ _).1 _)
      refine sameWorlds.trans ?_ (State.raiseWord_worlds _ _ _ _ _)
      split <;> rfl

theorem State.homeAtomic_worlds (s : State) (p : Packet) : sameWorlds s (s.homeAtomic p).1 := by
  have h := s.atHome_worlds (atomicPoint_worlds p) p p 0 [(p.addr.toNat, p.wt.bytes)] .rmw
  unfold State.homeAtomic
  split
  · next s' bs heq =>
    rw [heq] at h
    exact h.trans (s'.wordExits_worlds p)
  · exact h

theorem State.homeWrite_worlds (s : State) (p : Packet) : sameWorlds s (s.homeWrite p).1 := by
  unfold State.homeWrite
  split
  · exact s.atHome_worlds (fun _ _ => by rfl) _ _ _ _ _
  · exact s.atHome_worlds (storePoint_worlds p.data []) _ _ _ _ _

theorem State.homeXa_worlds (s : State) (p : Packet) : sameWorlds s (s.homeXa p).1 := by
  unfold State.homeXa
  dsimp only
  split
  · exact s.atHome_worlds (storePoint_worlds _ []) _ _ _ _ _
  · split
    · exact s.atHome_worlds (fun _ _ => by rfl) _ _ _ _ _
    · exact s.atHome_worlds (fun s ks => s.store_worlds ks _) _ _ _ _ _

theorem State.rstfRaise_worlds (s : State) (p : Packet) : sameWorlds s (s.rstfRaise p).1 := by
  have h := s.atHome_worlds (atomicPoint_worlds (rstfStep p)) p (rstfStep p) 1 [(p.aux.toNat, 8)] .rmw
  unfold State.rstfRaise
  split <;>
  · next heq =>
    rw [heq] at h
    exact h.trans rfl

theorem State.homeRstf_worlds (s : State) (p : Packet) : sameWorlds s (s.homeRstf p).1 := by
  have h := s.atHome_worlds (storePoint_worlds p.data []) p (rstfData p) 0 [(p.addr.toNat, p.data.length)] .write
  unfold State.homeRstf
  dsimp only
  split
  · exact s.rstfRaise_worlds p
  · split
    · rfl
    · split
      · rfl
      · split
        · rfl
        · split
          · next s' bs heq =>
            rw [heq] at h
            exact h.trans (s'.rstfRaise_worlds p)
          · exact h

/-! ## Pages (R285, R286) -/

theorem State.homeGrant_worlds (s : State) (p : Packet) : sameWorlds s (s.homeGrant p).1 := by
  unfold State.homeGrant
  dsimp only
  split
  · rfl
  · split
    · exact s.recallFrom_worlds _ _
    · rfl

theorem State.homeRecall_worlds (s : State) (p : Packet) : sameWorlds s (s.homeRecall p).1 := by
  unfold State.homeRecall
  split
  · rfl
  · next page _ _ =>
    dsimp only
    split
    · exact (s.depart_worlds page).trans rfl
    · exact s.depart_worlds page

theorem State.homePage_worlds (s : State) (p : Packet) : sameWorlds s (s.homePage p).1 := by
  unfold State.homePage
  generalize (if p.data.isEmpty then pageChunk else p.data.length) = n
  dsimp only
  split
  · rfl
  · split
    · exact (s.store_worlds _ _).trans rfl
    · split
      · exact s.recallFrom_worlds _ _
      · split <;> rfl

/-! ## Launches and teams (R265, R347) -/

theorem State.commit_worlds (s : State) (l : Nat) : sameWorlds s (s.commit l) := by
  unfold State.commit
  split
  · rfl
  · split <;> rfl

theorem State.takeWords_worlds (s : State) (r : BitVec 2048) : sameWorlds s (s.takeWords r).2 := by
  rw [State.takeWords_rest]
  rfl

theorem State.addLaunch_worlds (s : State) (r : BitVec 2048) (d : DirEntry) (h : Header) (host : Option HostReq) (op : Nat)
    (lane : Option (Nat × Nat)) (die : Nat) : sameWorlds s (s.addLaunch r d h host op lane die) := by
  unfold State.addLaunch
  extract_lets y ts base s1
  exact (s.loaded_loaded _ _ d).sameWorlds.trans (State.takeWords_worlds _ r)

theorem State.homeLaunch_worlds (s : State) (p : Packet) : sameWorlds s (s.homeLaunch p).1 := by
  unfold State.homeLaunch
  dsimp only
  split
  · rfl
  · next d h _ =>
    have hadd := s.addLaunch_worlds (BitVec.ofNat 2048 (ofBytes p.data)) d h none 0 none s.rootDie
    generalize s.addLaunch _ d h none 0 none s.rootDie = u at hadd
    exact hadd

theorem State.homeCommit_worlds (s : State) (p : Packet) : sameWorlds s (s.homeCommit p).1 := by
  unfold State.homeCommit
  split
  · exact sameWorlds.trans rfl (State.commit_worlds _ _)
  · rfl

theorem State.homeAbort_worlds (s : State) (p : Packet) : sameWorlds s (s.homeAbort p).1 := by
  unfold State.homeAbort
  split <;> rfl

theorem State.homeTeam_worlds (s : State) (p : Packet) : sameWorlds s (s.homeTeam p).1 := by
  unfold State.homeTeam
  dsimp only
  split
  · rfl
  · split <;> rfl

/-! ## The fabric manager's messages (R328, R329, R348) -/

theorem State.reportLink_worlds (s : State) (port : Nat) : sameWorlds s (s.reportLink port) := by
  unfold State.reportLink
  dsimp only
  split <;> rfl

theorem State.reportLinks_worlds (s : State) : sameWorlds s s.reportLinks :=
  sameWorlds_foldl _ (fun s p => by
    split
    · exact s.reportLink_worlds p
    · rfl) _ s

theorem State.takeManager_worlds (s : State) (n : Nat) : sameWorlds s (s.takeManager n) := by
  unfold State.takeManager
  dsimp only
  split
  · rfl
  · exact sameWorlds.trans rfl (State.reportLinks_worlds _)

theorem State.heartbeat_worlds (s : State) (src : Nat) : sameWorlds s (s.heartbeat src) := by
  unfold State.heartbeat
  dsimp only
  split
  · rfl
  · split
    · exact s.takeManager_worlds src
    · rfl

theorem State.tellLost_worlds (s : State) (l package : Nat) : sameWorlds s (s.tellLost l package) := by
  unfold State.tellLost
  split
  · rfl
  · split
    · rfl
    · dsimp only
      split <;> rfl

theorem State.reportLost_worlds (s : State) : sameWorlds s s.reportLost := by
  refine sameWorlds_foldl _ (fun s l => ?_) _ s
  split
  · rfl
  · dsimp only
    split
    · rfl
    · split
      · exact sameWorlds_foldl _ (fun s n => s.tellLost_worlds l n) _ s
      · exact sameWorlds_foldl _ (fun _ _ => by rfl) _ s

theorem State.awayEnds_worlds (s : State) (t : Nat) (c : Completion) : sameWorlds s (s.awayEnds t c) := by
  unfold State.awayEnds
  dsimp only
  split <;> rfl

theorem State.homeManager_worlds (s : State) (p : Packet) : sameWorlds s (s.homeManager p).1 := by
  unfold State.homeManager
  dsimp only
  split
  · exact s.heartbeat_worlds _
  · split
    · exact s.takeManager_worlds _
    · rfl
  · rfl
  · split
    · show (State.reportLost _).worlds = s.worlds
      exact State.reportLost_worlds _
    · rfl
  · exact sameWorlds_getD_map s _ _ fun l => s.shareReport_worlds _ _ _
  · exact sameWorlds_getD_map s _ _ fun t => s.awayEnds_worlds _ _
  · exact sameWorlds_getD_map s _ _ fun l => s.tellLost_worlds _ _
  · rfl
  · rfl

/-! ## The intake (R333, R335) -/

theorem State.perform_worlds (s : State) (p : Packet) : sameWorlds s (s.perform p).1 := by
  unfold State.perform
  split
  · rfl
  · match p.typ with
    | .read => exact s.atHome_worlds (fun _ _ => by rfl) _ _ _ _ _
    | .write => exact s.homeWrite_worlds p
    | .atomic => exact s.homeAtomic_worlds p
    | .xa => exact s.homeXa_worlds p
    | .rstf => exact s.homeRstf_worlds p
    | .grant => exact s.homeGrant_worlds p
    | .recall => exact s.homeRecall_worlds p
    | .page => exact s.homePage_worlds p
    | .launch => exact s.homeLaunch_worlds p
    | .commit => exact s.homeCommit_worlds p
    | .abort => exact s.homeAbort_worlds p
    | .manager => exact s.homeManager_worlds p
    | .team => exact s.homeTeam_worlds p
    | .advert => rfl
    | .unlisted => rfl

theorem State.drain_worlds (s : State) (src tier n : Nat) : sameWorlds s (s.drain src tier n) := by
  induction n generalizing s with
  | zero => rfl
  | succ n ih =>
    unfold State.drain
    dsimp only
    split
    · rfl
    · next p _ =>
      have h := s.perform_worlds p
      split
      · next heq => rw [heq] at h; exact h
      · next heq =>
        rw [heq] at h
        exact (h.trans rfl).trans (ih _)

theorem State.drainAll_worlds (s : State) : sameWorlds s s.drainAll :=
  sameWorlds_foldl (fun s (k : Nat × Nat) => s.drain k.1 k.2 ((s.fabric.inStream k.1 k.2).early.length))
    (fun s k => s.drain_worlds k.1 k.2 _) _ s

end Sys2Proof.Machine

/-! SUPPORT. The requests of the configuration's owner (O51): what one that is served leaves, and what becomes of ranges and worlds. -/

namespace Sys2Proof.Machine

/-! ## A request that is served -/

/-- The owner's request is served, and answered OK with a value. -/
theorem State.owned_serves {s u : State} {q : HostReq} {k : State → State × Nat × Nat} {v : Nat} (ho : s.pkg.cfgOwner = some q.port)
    (hk : k s = (u, stOk, v)) : s.owned q k = .next (u.reply (some q) opWorld stOk 0 (BitVec.ofNat 64 v) []) := by
  unfold State.owned
  rw [if_pos ho, hk]

/-- The owner's request about a world that exists is served. -/
theorem State.ownedWorld_serves {s u : State} {q : HostReq} {world : W32} {k : State → Nat → State × Nat × Nat} {v : Nat}
    (ho : s.pkg.cfgOwner = some q.port) (hlive : world.toNat < 64 ∧ (s.world world.toNat).live = true)
    (hk : k s world.toNat = (u, stOk, v)) : s.ownedWorld q world k = .next (u.reply (some q) opWorld stOk 0 (BitVec.ofNat 64 v) []) :=
  State.owned_serves ho ((if_pos hlive).trans hk)

/-- Once sequenced and answered, a change to a world is what that world is. -/
theorem State.world_answered (s : State) (w : Nat) (f : World → World) (q : HostReq) (v : W64) (h : w < s.worlds.length) :
    ((s.modWorld w f).sequence.reply (some q) opWorld stOk 0 v []).world w = f (s.world w) :=
  s.world_modWorld w f h

/-! ## Ranges -/

/-- What is left of a grant lies outside the range that it is cut by. -/
theorem cutRange_apart {b n : Nat} {g x : Nat × Nat} (h : x ∈ cutRange b n g) : meets b n x.1 x.2 = false := by
  unfold cutRange at h
  split at h
  · next hapart =>
    obtain rfl := List.mem_singleton.mp h
    simpa using hapart
  · rcases List.mem_append.mp h with h | h
    all_goals
      split at h
      · obtain rfl := List.mem_singleton.mp h
        simp only [meets, Bool.and_eq_false_iff, decide_eq_false_iff_not]
        omega
      · cases h

theorem State.redecipher_worlds (s : State) (w b n : Nat) : sameWorlds s (s.redecipher w b n) :=
  sameWorlds_foldl _ (fun _ _ => by extract_lets; split <;> rfl) _ s

theorem State.redecipher_nil (s : State) (w b n : Nat) (h : s.pkg.formerly = []) : s.redecipher w b n = s := by
  unfold State.redecipher
  rw [h, List.foldl_nil]

theorem State.rekeyRange_worlds (s : State) (w b n : Nat) (enters : Bool) : sameWorlds s (s.rekeyRange w b n enters) := by
  cases enters with
  | false => rfl
  | true => exact s.redecipher_worlds w b n

/-- Where no range was ever held before, one that enters a grant reads as it did. -/
theorem State.rekeyRange_mem (s : State) (w b n : Nat) (h : s.pkg.formerly = []) : (s.rekeyRange w b n true).mem = s.mem := by
  show (s.redecipher w b n).mem = s.mem
  rw [s.redecipher_nil w b n h]

/-! ## The reset of a world -/

theorem State.forgetMemory_worlds (s : State) (w : Nat) : sameWorlds s (s.forgetMemory w) := rfl

theorem State.endContexts_worlds (s : State) (p : Ctx → Bool) : sameWorlds s (s.endContexts p) := rfl

theorem State.poisonIntake_worlds (s : State) (w : Nat) : sameWorlds s (s.poisonIntake w) := by
  unfold State.poisonIntake
  extract_lets f mark
  exact sameWorlds.trans (t := { s with fabric := _ }) rfl (State.drainAll_worlds _)

/-- The reset of a world keeps the number of worlds (R319). -/
theorem State.resetWorld_worlds_length (s : State) (w : Nat) : (s.resetWorld w).worlds.length = s.worlds.length := by
  unfold State.resetWorld
  extract_lets s1 s2 s3 s4 s5 s6
  have hstreams : sameWorlds s s1 := s.finishStreams_worlds
  clear_value s1
  have hparts : sameWorlds s1 s2 := sameWorlds_foldl _ (fun s t => s.quiesceParts_worlds t _ .reset) _ s1
  clear_value s2
  have hended : sameWorlds s2 s3 := (s2.endLaunches_worlds _ .reset).trans (State.dropSegments_worlds _ w)
  clear_value s3
  have hproxy : sameWorlds s3 s4 := rfl
  clear_value s4
  have hpoison : sameWorlds s4 s5 := (s4.poisonIntake_worlds w).trans (State.forgetMemory_worlds _ w)
  clear_value s5
  have hsame : sameWorlds s s5 := hstreams.trans (hparts.trans (hended.trans (hproxy.trans hpoison)))
  calc s6.worlds.length
    _ = (s5.modWorld w fun x => { x with lineKey := none, sealKeys := [] }).worlds.length :=
      congrArg List.length (State.endContexts_worlds _ _)
    _ = s5.worlds.length := length_modifyAt ..
    _ = s.worlds.length := congrArg List.length hsame

/-! ## Worlds -/

/-- A world is created under the next epoch, with a line key and no grant (R370, R355). -/
theorem State.createWorld_world (s : State) (w : Nat) (h : w < s.worlds.length) :
    (s.createWorld w).world w =
      { World.reset with live := true, lineKey := some (worldKeyOf (text "line") w [] (s.pkg.epoch + 1)) } :=
  State.world_modWorld { s with pkg := { s.pkg with epoch := s.pkg.epoch + 1 } } w _ h

theorem sameWorlds.world {s t : State} (h : sameWorlds s t) (w : Nat) : t.world w = s.world w := congrArg (·.getD w World.reset) h

/-! ## What each request leaves (R370) -/

section Owner

variable {s : State} {q : HostReq} {world : W32}

theorem execCreate_serves (ho : s.pkg.cfgOwner = some q.port) (hlen : s.worlds.length = 64) (hpos : 0 < world.toNat)
    (hw : world.toNat < 64) (hfree : (s.world world.toNat).live = false) :
    ∃ t, execCreate q world s = .next t ∧ (t.world world.toNat).live = true ∧ (t.world world.toNat).lineKey ≠ none ∧
      (t.world world.toNat).grants = [] ∧ t.pkg.epoch = s.pkg.epoch + 1 := by
  have hworld := s.createWorld_world world.toNat (hlen.symm ▸ hw)
  refine ⟨(s.createWorld world.toNat).reply (some q) opWorld stOk 0 (BitVec.ofNat 64 world.toNat) [], ?_, ?_, ?_, ?_, rfl⟩
  · refine State.owned_serves ho ?_
    simp only [hfree, Nat.not_lt.mpr (Nat.le_of_lt_succ hw), hpos.ne', if_false, Bool.false_eq_true]
  · exact congrArg World.live hworld
  · exact fun h => Option.some_ne_none _ ((congrArg World.lineKey hworld).symm.trans h)
  · exact congrArg World.grants hworld

variable (ho : s.pkg.cfgOwner = some q.port) (hlen : s.worlds.length = 64)
  (hlive : world.toNat < 64 ∧ (s.world world.toNat).live = true)
include ho hlen hlive

/-- A range that no other world holds joins the grant. -/
theorem execGrant_serves {base length : W64} (hgood : s.rangeGood base length = true) (hlength : length ≠ 0)
    (hother : ∀ k, k < 64 → k ≠ world.toNat → ∀ g ∈ (s.world k).grants, meets base.toNat length.toNat g.1 g.2 = false) :
    ∃ t, execGrant q world base length s = .next t ∧
      (t.world world.toNat).grants = (s.world world.toNat).grants ++ [(base.toNat, length.toNat)] ∧
      (s.pkg.formerly = [] → t.mem = s.mem) := by
  have hsame := s.rekeyRange_worlds world.toNat base.toNat length.toNat true
  have hnone : ¬((List.range 64).any fun k => k != world.toNat &&
      (s.world k).grants.any fun g => meets base.toNat length.toNat g.1 g.2) = true := by
    simpa using hother
  have hn : length.toNat ≠ 0 := fun h => hlength (BitVec.eq_of_toNat_eq h)
  refine ⟨_, State.ownedWorld_serves ho hlive ((if_neg (by simp [hgood])).trans (if_neg hnone)), ?_, s.rekeyRange_mem _ _ _⟩
  rw [State.world_answered _ _ _ _ _ (by rw [hsame, hlen]; exact hlive.1), hsame.world]
  exact if_neg hn

/-- A range that nothing uses leaves the grant. -/
theorem execRevoke_serves {base length : W64} (hgood : s.rangeGood base length = true)
    (hctx : ∀ c ∈ s.ctxs, c.live = true → c.world = world.toNat → ∀ r ∈ s.ctxRanges c, meets base.toNat length.toNat r.1 r.2 = false)
    (hreserved : world.toNat = 0 → ∀ g ∈ reservedRanges s.lastDie, meets base.toNat length.toNat g.1 g.2 = false) :
    ∃ t, execRevoke q world base length s = .next t ∧
      (t.world world.toNat).grants = (s.world world.toNat).grants.flatMap (cutRange base.toNat length.toNat) := by
  have hunused : ¬(s.ctxs.any fun c => c.live && c.world == world.toNat &&
      (s.ctxRanges c).any fun r => meets base.toNat length.toNat r.1 r.2) = true := by
    simpa using hctx
  have hapart : ¬(world.toNat = 0 ∧ (reservedRanges s.lastDie).any (fun g => meets base.toNat length.toNat g.1 g.2) = true) := by
    simpa using hreserved
  refine ⟨_, State.ownedWorld_serves ho hlive ((if_neg (by simp [hgood])).trans ((if_neg hunused).trans (if_neg hapart))), ?_⟩
  have hsame : ∀ held : Bool, sameWorlds s (if held then s.rekeyRange world.toNat base.toNat length.toNat false else s) := by
    intro held
    cases held <;> rfl
  rw [State.world_answered _ _ _ _ _ (by rw [hsame, hlen]; exact hlive.1), (hsame _).world]

/-- The world answers to its function of a port. -/
theorem execBind_serves {target : W32} (htarget : target.toNat ≤ 1) (hw : world.toNat ≠ 0) :
    ∃ t, execBind q world target s = .next t ∧ (t.world world.toNat).port = some target.toNat := by
  refine ⟨_, State.ownedWorld_serves ho hlive ((if_neg htarget.not_gt).trans (if_neg hw)), ?_⟩
  rw [State.world_answered _ _ _ _ _ (hlen.symm ▸ hlive.1)]

/-- All four thresholds are given where they are allowed. -/
theorem execThresholds_serves {doldrums : W32} {cold : BitVec 16} {high low : Byte} (hd : doldrums = 0 ∨ 4096 ≤ doldrums.toNat)
    (hhigh : high.toNat ≤ 100) (hlow : low.toNat < high.toNat) :
    ∃ t, execThresholds q world 15 doldrums cold high low s = .next t ∧ (t.world world.toNat).doldrums = doldrums.toNat ∧
      (t.world world.toNat).cold = cold ∧ (t.world world.toNat).high = high.toNat ∧ (t.world world.toNat).low = low.toNat := by
  have hzero : doldrums = 0 ∨ ¬doldrums.toNat < 4096 := hd.imp_right Nat.not_lt.mpr
  refine ⟨_, State.ownedWorld_serves ho hlive (if_neg ?_), ?_⟩
  · simpa [Nat.not_lt.mpr hhigh, Nat.not_le.mpr hlow, or_iff_not_imp_left] using hzero
  rw [State.world_answered _ _ _ _ _ (hlen.symm ▸ hlive.1)]
  exact ⟨rfl, rfl, rfl, rfl⟩

/-- A minting authority that no other world holds is the world's. -/
theorem execAuth_serves {a : BitVec 16} (hother : ∀ k, k < 64 → k ≠ world.toNat → a ∉ (s.world k).auths) :
    ∃ t, execAuth q world a s = .next t ∧ a ∈ (t.world world.toNat).auths := by
  have hnone : ¬((List.range 64).any fun k => k != world.toNat && (s.world k).auths.contains a) = true := by
    simpa using hother
  refine ⟨_, State.ownedWorld_serves ho hlive (if_neg hnone), ?_⟩
  rw [State.world_answered _ _ _ _ _ (hlen.symm ▸ hlive.1)]
  by_cases h : a ∈ (s.world world.toNat).auths <;> simp [h]

/-- A sealed key is derived under the world epoch. -/
theorem execKey_serves {index : Byte} {ct : List Byte} {wrapped : BitVec 256} (hw : world.toNat ≠ 0) :
    ∃ t, execKey q world index 0 ct wrapped s = .next t ∧
      Sparse.get 0 (t.world world.toNat).sealKeys index.toNat = s.worldKey (text "seal") world.toNat [index] := by
  refine ⟨_, State.ownedWorld_serves ho hlive ((if_neg (by decide)).trans ((if_neg hw).trans (if_pos rfl))), ?_⟩
  rw [State.world_answered _ _ _ _ _ (hlen.symm ▸ hlive.1), Sparse.get_set, if_pos rfl]

/-- A world that is destroyed is as one that never was. -/
theorem execDestroy_serves (hw : world.toNat ≠ 0) :
    ∃ t, execDestroy q world s = .next t ∧ t.world world.toNat = World.reset :=
  ⟨_, State.ownedWorld_serves ho hlive (if_neg hw),
    State.world_answered _ _ _ _ _ (by rw [s.resetWorld_worlds_length, hlen]; exact hlive.1)⟩

end Owner

/-- Settles O51: the owner's requests are served, one lemma each; what is left of a grant lies outside the range that was revoked, and the
reset of a world keeps the number of worlds. -/
theorem worldsAreManaged : Obligations.WorldsAreManaged := by
  intro s q world ho hlen w
  refine ⟨execCreate_serves ho hlen, fun hw hl => ?_⟩
  have hlive : w < 64 ∧ (s.world w).live = true := ⟨hw, hl⟩
  refine ⟨fun _ _ => execGrant_serves ho hlen hlive, fun _ _ hgood hctx hreserved => ?_, fun _ => execBind_serves ho hlen hlive,
    fun _ _ _ _ => execThresholds_serves ho hlen hlive, fun _ => execAuth_serves ho hlen hlive,
    fun _ _ _ => execKey_serves ho hlen hlive, execDestroy_serves ho hlen hlive⟩
  obtain ⟨t, hx, hgrants⟩ := execRevoke_serves ho hlen hlive hgood hctx hreserved
  refine ⟨t, hx, hgrants, fun g hg => ?_⟩
  obtain ⟨_, _, hcut⟩ := List.mem_flatMap.mp (hgrants ▸ hg)
  exact cutRange_apart hcut

end Sys2Proof.Machine

/-! SUPPORT. Memory and the bytes at the homes of pages stay in canonical form (R280, R284). An operation either leaves these bytes
alone (the lemmas named `…_bytes`) or writes them by operations that keep the form (`Memory.wf_write`, `wf_paste`, `wf_clear`). Each
function of the model gets one lemma here, named after it and derived from those of the functions that it calls: `State.Inv.f` where it
answers a state, `InvOpt.f` where it may answer none, `OutInv.f` where it answers an outcome. `OutInv.exec` joins them over the
operations, and `OutInv.step` is the step. -/

namespace Sys2Proof.Machine

/-- The state in what an option holds, which `g` finds there, meets the invariant. -/
def InvOpt {α : Type} (g : α → State) (o : Option α) : Prop := ∀ a, o = some a → (g a).Inv

/-- The next state, where an operation answers one, meets the invariant. -/
def OutInv (o : Out) : Prop := ∀ t, o = .next t → t.Inv

theorem State.Inv.ite {c : Prop} [Decidable c] {a b : State} (ha : a.Inv) (hb : b.Inv) : (if c then a else b).Inv := by
  split
  · exact ha
  · exact hb

theorem State.Inv.iteFst {α : Type} {c : Prop} [Decidable c] {a b : State × α} (ha : a.1.Inv) (hb : b.1.Inv) :
    (if c then a else b).1.Inv := by
  split
  · exact ha
  · exact hb

theorem State.Inv.of_fst {α : Type} {p : State × α} {u : State} {x : α} (e : p = (u, x)) (h : p.1.Inv) : u.Inv := by
  subst e
  exact h

theorem State.Inv.of_some {o : Option State} {u : State} (e : o = some u) (h : InvOpt (fun u => u) o) : u.Inv := h u e

theorem State.Inv.of_someFst {α : Type} {o : Option (State × α)} {u : State} {x : α} (e : o = some (u, x))
    (h : InvOpt Prod.fst o) : u.Inv :=
  h _ e

theorem State.Inv.getD {o : Option State} {s : State} (ho : InvOpt (fun u => u) o) (h : s.Inv) : (o.getD s).Inv := by
  cases o with
  | none => exact h
  | some u => exact ho u rfl

theorem State.Inv.elim {α : Type} {o : Option α} {s : State} {f : α → State} (h : s.Inv) (hf : ∀ a, (f a).Inv) :
    (o.elim s f).Inv := by
  cases o with
  | none => exact h
  | some a => exact hf a

section
variable {α β : Type} {g : β → State} {f : α → State}

theorem InvOpt.none : InvOpt g none := fun _ e => by cases e

theorem InvOpt.some {b : β} (h : (g b).Inv) : InvOpt g (some b) := fun _ e => by cases e; exact h

theorem InvOpt.ite {c : Prop} [Decidable c] {a b : Option β} (ha : InvOpt g a) (hb : InvOpt g b) :
    InvOpt g (if c then a else b) := by
  split
  · exact ha
  · exact hb

theorem InvOpt.map {o : Option α} {k : α → β} (h : ∀ a, (g (k a)).Inv) : InvOpt g (o.map k) := by
  cases o with
  | none => exact .none
  | some a => exact .some (h a)

theorem InvOpt.mapOf {o : Option α} {k : α → β} (ho : InvOpt f o) (h : ∀ a, (f a).Inv → (g (k a)).Inv) : InvOpt g (o.map k) := by
  cases o with
  | none => exact .none
  | some a => exact .some (h a (ho a rfl))

theorem InvOpt.bind {o : Option α} {k : α → Option β} (h : ∀ a, InvOpt g (k a)) : InvOpt g (o.bind k) := by
  cases o with
  | none => exact .none
  | some a => exact h a

theorem InvOpt.bindOf {o : Option α} {k : α → Option β} (ho : InvOpt f o) (h : ∀ a, (f a).Inv → InvOpt g (k a)) :
    InvOpt g (o.bind k) := by
  cases o with
  | none => exact .none
  | some a => exact h a (ho a rfl)
end

theorem OutInv.next {s : State} (h : s.Inv) : OutInv (.next s) := fun _ e => by cases e; exact h

theorem OutInv.ite {c : Prop} [Decidable c] {a b : Out} (ha : OutInv a) (hb : OutInv b) : OutInv (if c then a else b) := by
  split
  · exact ha
  · exact hb

theorem State.Inv.fold {α : Type} {f : State → α → State} {l : List α} {s : State} (h : s.Inv)
    (hf : ∀ s a, s.Inv → (f s a).Inv) : (l.foldl f s).Inv := h.foldl f hf l

section
variable {s : State}

/-! ## Fields that hold no bytes -/

theorem State.Inv.withDies {x} (h : s.Inv) : ({ s with dies := x } : State).Inv := h

theorem State.Inv.withFabric {x} (h : s.Inv) : ({ s with fabric := x } : State).Inv := h

theorem State.Inv.withLaunches {x y} (h : s.Inv) : ({ s with launches := x, pkg := y } : State).Inv := h

theorem State.Inv.withPkg {x} (h : s.Inv) : ({ s with pkg := x } : State).Inv := h

theorem State.Inv.withProxy {x} (h : s.Inv) : ({ s with proxy := x } : State).Inv := h

theorem State.Inv.withSlots {x} (h : s.Inv) : ({ s with slots := x } : State).Inv := h

/-! ## Reset -/

theorem State.Inv.reset : State.reset.Inv := ⟨rfl, rfl⟩

/-! ## Pieces of memory and packets -/

theorem State.Inv.count {ps} (h : s.Inv) : (s.count ps).Inv := (State.count_bytes _ _).inv h

theorem State.Inv.store {x2 x3} (h : s.Inv) : (s.store x2 x3).Inv := State.store_inv _ _ _ h

theorem State.Inv.poke {pa bs} (h : s.Inv) : (s.poke pa bs).Inv := by
  unfold State.poke
  split
  · exact .store h
  · exact ⟨h.1, Memory.wf_write _ _ _ h.2⟩

theorem State.Inv.wipe {k n} (h : s.Inv) : (s.wipe k n).Inv := ⟨Memory.wf_clear _ _ _ h.1, h.2⟩

theorem State.Inv.blankPart {pa n} (h : s.Inv) : (s.blankPart pa n).Inv := by
  unfold State.blankPart
  split
  · exact .wipe h
  · exact ⟨h.1, Memory.wf_clear _ _ _ h.2⟩

theorem State.Inv.blank {pa n} (h : s.Inv) : (s.blank pa n).Inv := .fold h fun _ _ h1 => .blankPart h1

theorem State.Inv.request {p} (h : s.Inv) : (s.request p).Inv := (State.request_bytes _ _).inv h

theorem InvOpt.requestFor {tile wave lane part use p} (h : s.Inv) : InvOpt Prod.fst (s.requestFor tile wave lane part use p) :=
  fun a e => (State.requestFor_bytes (u := a.1) (t := a.2) e).inv h

theorem State.Inv.recallFrom {page nodes} (h : s.Inv) : (s.recallFrom page nodes).Inv := (State.recallFrom_bytes _ _ _).inv h

theorem State.Inv.recallHome {page} (h : s.Inv) : (s.recallHome page).Inv := .recallFrom h

theorem State.Inv.tellPeers {p} (h : s.Inv) : (s.tellPeers p).Inv := .fold h fun _ _ h1 => .request h1

theorem State.Inv.tellBound {ctx obj} (h : s.Inv) : (s.tellBound ctx obj).Inv := .tellPeers h

theorem State.Inv.sequence (h : s.Inv) : (s.sequence).Inv := h

/-! ## Groups, lanes, records and frames -/

theorem State.Inv.modWave {w f} (h : s.Inv) : (s.modWave w f).Inv := (State.modWave_bytes _ _ _).inv h

theorem State.Inv.modThread {w l f} (h : s.Inv) : (s.modThread w l f).Inv := (State.modThread_bytes _ _ _ _).inv h

theorem State.Inv.modLanes {w lanes f} (h : s.Inv) : (s.modLanes w lanes f).Inv := (State.modLanes_bytes _ _ _ _).inv h

theorem State.Inv.modCtx {c f} (h : s.Inv) : (s.modCtx c f).Inv := (State.modCtx_bytes _ _ _).inv h

theorem State.Inv.modTile {t f} (h : s.Inv) : (s.modTile t f).Inv := (State.modTile_bytes _ _ _).inv h

theorem State.Inv.modDie {d f} (h : s.Inv) : (s.modDie d f).Inv := (State.modDie_bytes _ _ _).inv h

theorem State.Inv.modWorld {w f} (h : s.Inv) : (s.modWorld w f).Inv := (State.modWorld_bytes _ _ _).inv h

theorem State.Inv.modTeam {t f} (h : s.Inv) : (s.modTeam t f).Inv := (State.modTeam_bytes _ _ _).inv h

theorem State.Inv.modLaunch {l f} (h : s.Inv) : (s.modLaunch l f).Inv := (State.modLaunch_bytes _ _ _).inv h

theorem State.Inv.free (h : s.Inv) : (s.free).2.Inv := h

theorem State.Inv.writeD {g lanes val tag} (h : s.Inv) : (s.writeD g lanes val tag).Inv := (State.writeD_bytes _ _ _ _ _).inv h

theorem State.Inv.raise {g traps} (h : s.Inv) : (s.raise g traps).Inv := (State.raise_bytes _ _ _).inv h

theorem State.Inv.raiseAll {g k lanes} (h : s.Inv) : (s.raiseAll g k lanes).Inv := (State.raiseAll_bytes _ _ _ _).inv h

theorem State.Inv.block {g l wt} (h : s.Inv) : (s.block g l wt).Inv := (State.block_bytes _ _ _ _).inv h

theorem State.Inv.holdFor {g blocked} (h : s.Inv) : (s.holdFor g blocked).Inv := (State.holdFor_bytes _ _ _).inv h

theorem State.Inv.failAt {g c lanes waitOnly finished} (h : s.Inv) : (s.failAt g c lanes waitOnly finished).Inv := by
  unfold State.failAt
  exact .ite h (.modTile (.modWave h))

theorem State.Inv.advance {g} (h : s.Inv) : (s.advance g).Inv := (State.advance_bytes _ _).inv h

theorem State.Inv.finish {g} (h : s.Inv) : (s.finish g).Inv := (State.finish_bytes _ _).inv h

theorem OutInv.issue {i : Instr} {illegal : Grp → Bool} {k : Grp → State → State} (h : s.Inv)
    (hk : ∀ g s, s.Inv → (k g s).Inv) : OutInv (issue i s illegal k) := by
  obtain ⟨t, e, ht⟩ := issue_next i s illegal k
  rw [e]
  exact .next (ht hk h)

theorem OutInv.lanesOp {i val tag} (h : s.Inv) : OutInv (lanesOp i s val tag) := .issue h fun _ _ h1 => .writeD h1

theorem OutInv.flagsOp {i val} (h : s.Inv) : OutInv (flagsOp i s val) := .issue h fun _ _ h1 => .modWave (.writeD h1)

theorem State.Inv.post {r} (h : s.Inv) : (s.post r).1.Inv := (State.post_bytes _ _).inv h

theorem State.Inv.waitFor {wt post} (h : s.Inv) : (s.waitFor wt post).1.Inv := (State.waitFor_bytes _ _ _).inv h

theorem State.Inv.blockOn {g l wt post} (h : s.Inv) : (s.blockOn g l wt post).Inv := .block (.waitFor h)

theorem State.Inv.writeSpills {w l old} (h : s.Inv) : (s.writeSpills w l old).Inv := State.writeSpills_inv _ _ _ _ h

theorem InvOpt.push {w l hpc mask mtch} (h : s.Inv) : InvOpt (fun u => u) (s.push w l hpc mask mtch) :=
  fun u hu => s.push_inv u w l hpc mask mtch h hu

theorem State.Inv.postPrivate {w l} (h : s.Inv) : (s.postPrivate w l).1.Inv := (State.postPrivate_bytes _ _ _).inv h

theorem State.Inv.deliverAll {w pb items} (h : s.Inv) : (s.deliverAll w pb items).1.Inv := State.deliverAll_inv _ _ _ _ h

theorem State.Inv.consume {w l p} (h : s.Inv) : (s.consume w l p).Inv := State.consume_inv _ _ _ _ h

theorem State.Inv.resume {w items} (h : s.Inv) : (s.resume w items).Inv := (State.resume_bytes _ _ _).inv h

/-! ## Integer instructions -/

theorem OutInv.intOp {i f x} (h : s.Inv) : OutInv (intOp i f x s) := .lanesOp h

theorem OutInv.intImmOp {i f x} (h : s.Inv) : OutInv (intImmOp i f x s) := .lanesOp h

theorem OutInv.intOp3 {i f x} (h : s.Inv) : OutInv (intOp3 i f x s) := .lanesOp h

theorem OutInv.sumOp {i t sat b x} (h : s.Inv) : OutInv (sumOp i t sat b x s) := .lanesOp h

/-! ## Bitwise instructions -/

theorem OutInv.bitOp {i x} (h : s.Inv) : OutInv (bitOp i x s) := .lanesOp h

theorem OutInv.bitImmOp {i f x} (h : s.Inv) : OutInv (bitImmOp i f x s) := .lanesOp h

theorem OutInv.shiftOp {i f x} (h : s.Inv) : OutInv (shiftOp i f x s) := .lanesOp h

theorem OutInv.shiftImmOp {i f x} (h : s.Inv) : OutInv (shiftImmOp i f x s) := .lanesOp h

/-! ## Floating-point instructions -/

theorem OutInv.fltOp {i f x} (h : s.Inv) : OutInv (fltOp i f x s) := .flagsOp h

theorem OutInv.fltImmOp {i f x} (h : s.Inv) : OutInv (fltImmOp i f x s) := .flagsOp h

theorem OutInv.fltOp1 {i f x} (h : s.Inv) : OutInv (fltOp1 i f x s) := .flagsOp h

/-! ## Fetch -/

theorem State.Inv.illegalWord {sl word} (h : s.Inv) : (s.illegalWord sl word).Inv := .finish (.raiseAll (.advance h))

theorem State.Inv.raiseFetch {w pc k lanes} (h : s.Inv) : (s.raiseFetch w pc k lanes).Inv :=
  (State.raiseFetch_bytes _ _ _ _ _).inv h

theorem State.Inv.setRec {ctx obj f} (h : s.Inv) : (s.setRec ctx obj f).Inv := (State.setRec_bytes _ _ _ _).inv h

theorem State.Inv.raiseBind {w obj cont lanes} (h : s.Inv) : (s.raiseBind w obj cont lanes).Inv := State.raiseBind_inv _ _ _ _ _ h

theorem State.Inv.askLine {sl n h} (hs : s.Inv) : (s.askLine sl n h).Inv := by
  unfold State.askLine
  dsimp only
  split <;> rename_i e
  · exact hs
  · have h1 := State.Inv.of_someFst e (.requestFor hs)
    exact .modLanes h1

theorem State.Inv.fetchFails {slot f} (h : s.Inv) : (s.fetchFails slot f).Inv := by
  unfold State.fetchFails
  refine .ite h ?_
  split
  · exact h
  · exact .raiseFetch h
  · exact .modLanes (.waitFor h)
  · exact .raiseBind h
  · exact .askLine h

/-! ## Accesses lane by lane -/

theorem State.Inv.ask {g l p part} (h : s.Inv) : (s.ask g l p part).1.Inv := (State.ask_bytes _ _ _ _ _).inv h

theorem State.Inv.eachLane {g : Grp} {f : State → Nat → State × LaneEnd} (h : s.Inv) (hf : ∀ s l, s.Inv → (f s l).1.Inv) :
    (s.eachLane g f).Inv :=
  s.eachLane_inv g f hf h

theorem State.Inv.onceFor {g : Grp} {f : State → Nat → State × LaneEnd} (h : s.Inv) (hf : ∀ s l, s.Inv → (f s l).1.Inv) :
    (s.onceFor g f).Inv :=
  s.onceFor_inv g f hf h

theorem State.Inv.askAt {g l who va p part} (h : s.Inv) : (s.askAt g l who va p part).1.Inv := .ask h

theorem State.Inv.give {g l x} (h : s.Inv) : (s.give g l x).Inv := (State.give_bytes _ _ _ _).inv h

/-! ## Loads, stores and prefetches -/

theorem State.Inv.readFor {g : Grp} {l va size : Nat} {wt : Ty} {scope : Scope} {ord : Ord}
    {k : State → List Byte → State × LaneEnd} (h : s.Inv) (hk : ∀ s bs, s.Inv → (k s bs).1.Inv) :
    (s.readFor g l va size wt scope ord k).1.Inv :=
  s.readFor_inv g l va size wt scope ord k hk h

theorem State.Inv.writeFor {g l va align wt scope ord bs} (h : s.Inv) : (s.writeFor g l va align wt scope ord bs).1.Inv :=
  State.writeFor_inv _ _ _ _ _ _ _ _ _ h

theorem State.Inv.ldEffect {f g} (h : s.Inv) : (ldEffect f g s).Inv :=
  .eachLane h fun _ _ h1 => .readFor h1 fun _ _ h2 => .give h2

theorem State.Inv.tensorRead {g : Grp} {f : MForm} {l : Nat} {e : BitVec 512} {o : Nat} {wt : Ty} {got : List Byte}
    {k : State → List Byte → State × LaneEnd} (h : s.Inv) (hk : ∀ t a, t.Inv → (k t a).1.Inv) :
    (s.tensorRead g f l e o wt got k).1.Inv := by
  unfold State.tensorRead
  refine .iteFst (hk _ _ h) ?_
  split
  · exact hk _ _ (.count h)
  · exact .ask h
  · exact h

theorem State.Inv.ldtUnder {g f l e} (h : s.Inv) : (s.ldtUnder g f l e).1.Inv :=
  .tensorRead h fun _ _ h1 => .iteFst (.give h1) (.tensorRead h1 fun _ _ h2 => .give h2)

theorem State.Inv.ldtLane {g f l} (h : s.Inv) : (s.ldtLane g f l).1.Inv := by
  unfold State.ldtLane
  split
  · exact .ldtUnder h
  · split
    · exact h
    · exact .ldtUnder h

theorem State.Inv.ldtEffect {f g} (h : s.Inv) : (ldtEffect f g s).Inv := .eachLane h fun _ _ h1 => .ldtLane h1

theorem State.Inv.prefetch {w l a size bypass late} (h : s.Inv) : (s.prefetch w l a size bypass late).Inv := by
  unfold State.prefetch
  split
  · exact .ite h (.count h)
  · refine .ite ?_ h
    split <;> rename_i e <;> have h1 := State.Inv.of_fst e (.post h) <;> exact h1
  · exact h

theorem State.Inv.prefLane {g f l} (h : s.Inv) : (s.prefLane g f l).Inv := .prefetch h

/-! ## Atomic accesses -/

theorem State.Inv.stepFor {g : Grp} {l va size : Nat} {scope : Scope} {step : List Byte → Option (List Byte)}
    {packet : Nat → Nat → Packet} {k : State → List Byte → State × LaneEnd} (h : s.Inv) (hk : ∀ t a, t.Inv → (k t a).1.Inv) :
    (s.stepFor g l va size scope step packet k).1.Inv := by
  unfold State.stepFor
  refine .iteFst (hk _ _ h) ?_
  split
  · refine hk _ _ ?_
    split
    · exact .store (.count h)
    · exact .count h
  · exact .ask h
  · exact h

theorem State.Inv.atomLane {g : Grp} {f : MopForm} {k : State → Nat → List Byte → State × LaneEnd} {l : Nat} (h : s.Inv)
    (hk : ∀ t a b, t.Inv → (k t a b).1.Inv) : (s.atomLane g f k l).1.Inv :=
  .stepFor h fun _ _ h1 => hk _ _ _ h1

theorem State.Inv.atomEffect {f g} (h : s.Inv) : (atomEffect f g s).Inv :=
  .eachLane h fun _ _ h1 => .atomLane h1 fun _ _ _ h2 => .give h2

theorem State.Inv.atomcEffect {f g} (h : s.Inv) : (atomcEffect f g s).Inv :=
  .eachLane h fun _ _ h1 => .stepFor h1 fun _ _ h2 => .give h2

theorem State.Inv.rstfLane {g f l} (h : s.Inv) : (s.rstfLane g f l).1.Inv := by
  unfold State.rstfLane
  refine .iteFst h ?_
  refine .iteFst h ?_
  refine .iteFst h ?_
  refine .iteFst h ?_
  split
  · exact .store (.store (.count h))
  · exact .ask h

theorem State.Inv.xaLane {g : Grp} {l va : Nat} {mode : Mode} {packet : Packet → Packet}
    {k : State → List Piece → List Byte → State} (h : s.Inv) (hk : ∀ t a b, t.Inv → (k t a b).Inv) :
    (s.xaLane g l va mode packet k).1.Inv := by
  unfold State.xaLane
  split
  · exact hk _ _ _ (.count h)
  · split
    · exact .ask h
    · exact h
  · exact h

theorem State.Inv.giveRounded {g l r} (h : s.Inv) : (s.giveRounded g l r).Inv := .modWave (.give h)

theorem State.Inv.exrndEffect {f g} (h : s.Inv) : (exrndEffect f g s).Inv :=
  .eachLane h fun _ _ h1 => .iteFst (.xaLane h1 fun _ _ _ h2 => .giveRounded h2) (.giveRounded h1)

/-! ## Command blocks and waits -/

theorem State.Inv.barrierFor {w level} (h : s.Inv) : (s.barrierFor w level).1.Inv := (State.barrierFor_bytes _ _ _).inv h

theorem State.Inv.modBarrier {i f} (h : s.Inv) : (s.modBarrier i f).Inv := (State.modBarrier_bytes _ _ _).inv h

theorem State.Inv.raiseWord {bar n w lane} (h : s.Inv) : (s.raiseWord bar n w lane).1.Inv := State.raiseWord_inv _ _ _ _ _ h

theorem State.Inv.arrive {bar w l} (h : s.Inv) : (s.arrive bar w l).Inv := State.arrive_inv _ _ _ _ h

theorem State.Inv.pollWord {bar} (h : s.Inv) : (s.pollWord bar).Inv := by
  unfold State.pollWord
  split
  · exact h
  · exact .getD (.mapOf (.requestFor h) fun _ h1 => h1) h

theorem State.Inv.sendExits {l b now count} (h : s.Inv) : (s.sendExits l b now count).Inv := .request h

theorem State.Inv.exitWords {w lanes} (h : s.Inv) : (s.exitWords w lanes).Inv := by
  unfold State.exitWords
  split
  · exact h
  · exact .fold h fun _ _ h1 => .ite (.ite (.barrierFor h1) (.sendExits (.barrierFor h1))) h1

theorem State.Inv.wordExits {p} (h : s.Inv) : (s.wordExits p).Inv := by
  unfold State.wordExits
  refine .ite h ?_
  split
  · exact h
  · exact .modBarrier (.raiseWord (.ite h h))

/-! ## Ends of threads and teams -/

theorem State.Inv.guestEnd {t n r} (h : s.Inv) : (s.guestEnd t n r).Inv := by
  unfold State.guestEnd
  dsimp only
  split
  · exact h
  · exact .modLaunch (.request h)

theorem State.Inv.endTeam {t reason} (h : s.Inv) : (s.endTeam t reason).Inv := by
  unfold State.endTeam
  refine .ite h ?_
  dsimp only
  split
  · refine .guestEnd ?_
    split
    · exact .ite (.modTeam (.fold h fun _ _ h1 => .exitWords h1)) (.modCtx (.modTeam (.fold h fun _ _ h2 => .exitWords h2)))
    · exact .modTeam (.fold h fun _ _ h3 => .exitWords h3)
  · split
    · exact .ite (.modTeam (.fold h fun _ _ h4 => .exitWords h4)) (.modCtx (.modTeam (.fold h fun _ _ h5 => .exitWords h5)))
    · exact .modTeam (.fold h fun _ _ h6 => .exitWords h6)
  · refine .modLaunch ?_
    split
    · exact .ite (.modTeam (.fold h fun _ _ h7 => .exitWords h7)) (.modCtx (.modTeam (.fold h fun _ _ h8 => .exitWords h8)))
    · exact .modTeam (.fold h fun _ _ h9 => .exitWords h9)

theorem State.Inv.reportEnd {team reason} (h : s.Inv) : (s.reportEnd team reason).Inv := by
  unfold State.reportEnd
  refine .ite h ?_
  dsimp only
  split
  · exact .modWorld (.endTeam h)
  · exact .endTeam h

theorem State.Inv.reap {w} (h : s.Inv) : (s.reap w).Inv := .ite h (.ite (.endTeam (.modWave h)) (.modWave h))

/-! ## Control transfers, handlers and tokens -/

theorem State.Inv.bindFor {g l e} (h : s.Inv) : (s.bindFor g l e).Inv := by
  unfold State.bindFor
  split
  · exact .raiseBind (.block h)
  · exact .block h
  · exact h

theorem State.Inv.transfer {g target link} (h : s.Inv) : (s.transfer g target link).Inv := by
  have hm := foldl_inv (fun m : Moved => m.st.Inv) (fun m l => moveLane g m l (target l)) (fun m l h1 => by
    unfold Machine.moveLane
    split
    · exact h1
    · exact h1
    · exact h1
    · exact .bindFor h1) g.lanes ⟨s, [], []⟩ h
  exact .raise (.ite hm hm)

theorem State.Inv.exitLanes {w lanes} (h : s.Inv) : (s.exitLanes w lanes).Inv := .modWave (.exitWords h)

theorem OutInv.execExit {f} (h : s.Inv) : OutInv (execExit f s) := by
  unfold Machine.execExit
  refine .issue h ?_
  intro _ _ h1
  dsimp only
  split
  · exact .ite (.failAt h1) (.reap (.exitLanes h1))
  · exact .ite (.fold h1 fun _ _ h2 => .block h2) (.reap (.exitLanes h1))

theorem OutInv.execHpush {f} (h : s.Inv) : OutInv (execHpush f s) := by
  unfold Machine.execHpush
  refine .issue h ?_
  intro _ _ h1
  refine .ite (.raiseAll h1) ?_
  refine .fold h1 fun _ _ h2 => ?_
  split
  · exact .of_some ‹_› (.push h2)
  · exact .block (.postPrivate h2)

theorem State.Inv.atTokens {g : Grp} {k : Grp → State → State} (h : s.Inv) (hk : ∀ a t, t.Inv → (k a t).Inv) :
    (s.atTokens g k).Inv := by
  unfold State.atTokens
  refine .holdFor ?_
  refine .fold (hk _ _ h) fun _ _ h1 => ?_
  dsimp only
  split
  · exact .blockOn h1
  · exact h1

theorem State.Inv.resumption {g how dreg} (h : s.Inv) : (s.resumption g how dreg).Inv :=
  .raise (.fold (.fold (.fold (.resume (.fold h fun _ _ h4 => .ite (.modThread h4) (.consume (.modThread h4)))) fun _ _ h3 => .writeSpills
    h3) fun _ _ h2 => .block (.postPrivate h2)) fun _ _ h1 => .bindFor h1)

theorem OutInv.execTrap {f} (h : s.Inv) : OutInv (execTrap f s) := by
  unfold Machine.execTrap
  refine .issue h ?_
  intro _ _ h1
  split
  · exact h1
  · exact .ite h1 (.modWave h1)

theorem State.Inv.deliveryWaits {w pc x} (h : s.Inv) : (s.deliveryWaits w pc x).Inv := by
  unfold State.deliveryWaits
  split
  · exact .raiseBind h
  · exact .modThread h
  · exact .modThread (.postPrivate h)

theorem OutInv.execTrapDelivery {wave} (h : s.Inv) : OutInv (execTrapDelivery wave s) := by
  unfold Machine.execTrapDelivery
  dsimp only
  split
  · exact .next h
  · exact .next (.fold (.modWave (.deliverAll h)) fun _ _ h1 => .deliveryWaits h1)

/-! ## Synchronization -/

theorem State.Inv.waitPhase {g l bar stay} (h : s.Inv) : (s.waitPhase g l bar stay).Inv := .modThread h

theorem State.Inv.barwLane {g level l} (h : s.Inv) : (s.barwLane g level l).Inv :=
  .ite (.waitPhase (.barrierFor h)) (.modThread (.barrierFor h))

theorem State.Inv.baraLane {g level stay l} (h : s.Inv) : (s.baraLane g level stay l).Inv :=
  .ite (.waitPhase (.barrierFor h)) (.ite (.block (.barrierFor h)) (.ite (.waitPhase (.arrive (.barrierFor h))) (.arrive (.barrierFor
    h))))

theorem State.Inv.barEffect {f g} (h : s.Inv) : (barEffect f g s).Inv := by
  unfold Machine.barEffect
  dsimp only
  split
  · exact .ite (.fold h fun _ _ h1 => .barwLane h1) (.fold h fun _ _ h2 => .baraLane h2)
  · exact .ite (.fold h fun _ _ h3 => .block h3) (.failAt (.ite h (.fold h fun _ _ h4 => .arrive (.barrierFor h4))))

theorem OutInv.execBarw {f} (h : s.Inv) : OutInv (execBarw f s) := by
  unfold Machine.execBarw
  refine .issue h ?_
  intro _ _ h1
  split
  · exact .failAt h1
  · exact .fold h1 fun _ _ h2 => .barwLane h2

theorem State.Inv.keepBlock {g f block} (h : s.Inv) : (s.keepBlock g f block).Inv := .modTeam h

theorem State.Inv.cbdefEffect {f g} (h : s.Inv) : (cbdefEffect f g s).Inv := .keepBlock h

theorem OutInv.execCbdef {f} (h : s.Inv) : OutInv (execCbdef f s) := by
  refine .issue h fun _ _ h1 => .onceFor h1 fun _ _ h2 => ?_
  dsimp only
  split
  · exact h2
  · split
    · rename_i e
      have h3 := State.Inv.of_fst e (.writeFor h2)
      exact h3
    · exact .writeFor h2

theorem State.Inv.cbacqFor {g l} (h : s.Inv) : (s.cbacqFor g l).1.Inv := by
  unfold State.cbacqFor
  dsimp only
  split
  · exact h
  · split
    · split
      · exact h
      · exact .store (.count h)
    · split
      · exact .ask h
      · split
        · exact .ask h
        · split
          · exact .ask h
          · split
            · exact h
            · exact .ask h
    · exact h

theorem State.Inv.cbacqEffect {x1 g} (h : s.Inv) : (cbacqEffect x1 g s).Inv := .onceFor h fun _ _ h1 => .cbacqFor h1

theorem State.Inv.cbrelFor {g l} (h : s.Inv) : (s.cbrelFor g l).1.Inv := by
  unfold State.cbrelFor
  refine .iteFst h ?_
  split
  · exact .store (.count h)
  · exact .ask h
  · exact h

theorem State.Inv.waitpLane {g f l} (h : s.Inv) : (s.waitpLane g f l).1.Inv := by
  unfold State.waitpLane
  dsimp only
  split
  · exact .iteFst (.count h) h
  · exact .iteFst h (.askAt h)
  · exact h

theorem State.Inv.waitpEffect {f g} (h : s.Inv) : (waitpEffect f g s).Inv := .eachLane h fun _ _ h1 => .waitpLane h1

theorem OutInv.execWaitpRelease {wave lane} (h : s.Inv) : OutInv (execWaitpRelease wave lane s) := by
  unfold Machine.execWaitpRelease
  refine .ite ?_ (.next h)
  split
  · exact .next (.ite (.modWave h) (.modThread h))
  · exact .next h

theorem OutInv.execIcinv {f} (h : s.Inv) : OutInv (execIcinv f s) := by
  unfold Machine.execIcinv
  refine .issue h ?_
  intro _ _ h1
  refine .fold h1 fun _ _ h2 => ?_
  split <;> exact h2

theorem OutInv.execHalt {f} (h : s.Inv) : OutInv (execHalt f s) := by
  unfold Machine.execHalt
  refine .issue h ?_
  intro _ _ h1
  split <;> exact h1

/-! ## Engines and their commands -/

theorem State.Inv.modCmd {tile id f} (h : s.Inv) : (s.modCmd tile id f).Inv := (State.modCmd_bytes _ _ _ _).inv h

theorem State.Inv.dropCmd {tile id} (h : s.Inv) : (s.dropCmd tile id).Inv := (State.dropCmd_bytes _ _ _).inv h

theorem State.Inv.postOnce {op r} (h : s.Inv) : (s.postOnce op r).Inv := (State.postOnce_bytes _ _ _).inv h

theorem State.Inv.cmdMiss {tile c page r} (h : s.Inv) : (s.cmdMiss tile c page r).Inv := .ite h (.modCmd (.post h))

theorem State.Inv.unaccept {w tile id} (h : s.Inv) : (s.unaccept w tile id).Inv := (State.unaccept_bytes _ _ _ _).inv h

theorem State.Inv.askBlock {tile id wave step p} (h : s.Inv) : (s.askBlock tile id wave step p).Inv :=
  .ite h (.getD (.mapOf (.requestFor h) fun _ h1 => h1) h)

theorem State.Inv.claimFar {tile c blk n h} (hs : s.Inv) : (s.claimFar tile c blk n h).Inv :=
  .ite (.askBlock hs) (.ite (.modCmd hs) (.ite (.askBlock hs) (.ite (.modCmd (.modCmd hs)) (.modCmd hs))))

theorem State.Inv.failClaim {tile c why} (h : s.Inv) : (s.failClaim tile c why).Inv := .unaccept (.modCmd h)

theorem State.Inv.claim {tile id} (h : s.Inv) : (s.claim tile id).Inv := by
  unfold State.claim
  split
  · exact h
  · refine .ite h ?_
    split
    · exact h
    · split
      · exact .ite h (.modCmd (.store (.count h)))
      · exact .cmdMiss h
      · exact .recallFrom h
      · exact .claimFar h
      · exact .failClaim h
      · exact h

theorem State.Inv.accept {tile id} (h : s.Inv) : (s.accept tile id).Inv := by
  unfold State.accept
  split
  · exact h
  · refine .ite h ?_
    refine .unaccept ?_
    dsimp only
    split
    · exact .modWave (.modCmd h)
    · exact .modCmd h

theorem State.Inv.addCmd {g c} (h : s.Inv) : (s.addCmd g c).1.Inv := .modWave (.modTile h)

theorem State.Inv.start {g id} (h : s.Inv) : (s.start g id).Inv := by
  unfold State.start
  dsimp only
  split
  · exact .ite (.modLanes (.accept (.claim h))) (.accept (.claim h))
  · exact .accept (.claim h)

theorem State.Inv.copyEffect {f kind g0} (h : s.Inv) : (copyEffect f kind g0 s).Inv := by
  refine .onceFor h fun _ _ h1 => ?_
  dsimp only
  split
  · exact h1
  · split
    · exact h1
    · split
      · exact .ask h1
      · split
        · exact .start (.addCmd h1)
        · exact h1

theorem State.Inv.matrixEffect {f kind g} (h : s.Inv) : (matrixEffect f kind g s).Inv := by
  refine .onceFor h fun s1 _ h1 => .iteFst h1 (.iteFst h1 ?_)
  split
  · exact h1
  · exact .iteFst (.dropCmd (.modWave (.modWave (.addCmd (.ite h1 h1))))) (.start (.modWave (.addCmd (.ite h1 h1))))

theorem State.Inv.askCmd {tile c line p} (h : s.Inv) : (s.askCmd tile c line p).Inv :=
  .getD (.mapOf (.requestFor h) fun _ h1 => h1) h

theorem State.Inv.engineAsk {tile id} (h : s.Inv) : (s.engineAsk tile id).Inv := by
  unfold State.engineAsk
  split
  · exact h
  · refine .ite h ?_
    refine .fold h fun _ _ h1 => ?_
    split
    · exact .cmdMiss h1
    · exact .recallFrom h1
    · exact .ite h1 (.fold h1 fun _ _ h2 => .ite h2 (.askCmd h2))
    · exact h1

theorem State.Inv.putRow {tile c r bs} (h : s.Inv) : (s.putRow tile c r bs).Inv := by
  refine foldl_inv (fun a : State × List Byte => a.1.Inv) _ (fun a q h1 => ?_) _ _ h
  dsimp only
  split
  · exact .store (.count h1)
  · exact foldl_inv (fun a : State × List Byte => a.1.Inv) _ (fun _ _ h2 => .askCmd h2) _ _ h1
  · exact h1

theorem State.Inv.moveRow {tile c r} (h : s.Inv) : (s.moveRow tile c r).Inv := by
  unfold State.moveRow
  split
  · exact h
  · refine .ite (.putRow h) ?_
    refine .store ?_
    refine .fold h fun _ _ h1 => ?_
    split
    · exact .count h1
    · exact h1

theorem State.Inv.credit {c n} (h : s.Inv) : (s.credit c n).Inv := by
  unfold State.credit
  split
  · exact h
  · exact .modBarrier (.barrierFor h)

theorem State.Inv.tryFill {tile f} (h : s.Inv) : (s.tryFill tile f).Inv := by
  unfold State.tryFill
  refine .ite h ?_
  split
  · exact .modTile (.store (.count h))
  · exact .modTile (.askBlock h)
  · exact .postOnce h
  · exact .recallHome h
  · exact h
  · exact .modTile h

theorem State.Inv.fillSlot {tile c} (h : s.Inv) : (s.fillSlot tile c).Inv := by
  unfold State.fillSlot
  split
  · exact h
  · exact .tryFill (.modTile h)

theorem State.Inv.stepBlocks {tile} (h : s.Inv) : (s.stepBlocks tile).Inv :=
  .fold (.fold h fun _ _ h2 => .ite (.claim h2) h2) fun _ _ h1 => .tryFill h1

theorem State.Inv.cleanse {ps} (h : s.Inv) : (s.cleanse ps).Inv := h

theorem State.Inv.matrixWrite {c} (h : s.Inv) : (s.matrixWrite c).Inv := .modWave h

theorem State.Inv.wakeFor {w tile id} (h : s.Inv) : (s.wakeFor w tile id).Inv := (State.wakeFor_bytes _ _ _ _).inv h

theorem State.Inv.copyDone {tile c} (h : s.Inv) : (s.copyDone tile c).Inv := by
  unfold State.copyDone
  dsimp only
  split
  · exact .ite (.accept (.modTile (.modWave (.dropCmd (.fillSlot (.credit (.cleanse h))))))) (.dropCmd (.fillSlot (.credit (.cleanse h))))
  · exact .dropCmd (.fillSlot (.credit (.cleanse h)))

theorem State.Inv.clockCmd {tile c} (h : s.Inv) : (s.clockCmd tile c).Inv :=
  .ite h (.modCmd (.ite (.fold h fun _ _ h1 => .moveRow h1) h))

theorem State.Inv.clockCmds {tile} (h : s.Inv) : (s.clockCmds tile).Inv := .fold h fun _ _ h1 => .clockCmd h1

theorem OutInv.execCommandFinish {tile cmd} (h : s.Inv) : OutInv (execCommandFinish tile cmd s) := by
  unfold Machine.execCommandFinish
  split
  · exact .next h
  · exact .ite (.next h) (.ite (.next (.wakeFor (.dropCmd (.matrixWrite h)))) (.ite (.ite (.next (.wakeFor (.copyDone (.modCmd (.fold h fun
      _ _ h1 => .moveRow h1))))) (.next (.modCmd (.fold h fun _ _ h2 => .moveRow h2)))) (.ite (.next (.wakeFor (.copyDone h))) (.next h))))

theorem State.Inv.deliverFailure {tile c} (h : s.Inv) : (s.deliverFailure tile c).Inv := by
  unfold State.deliverFailure
  dsimp only
  split
  · exact h
  · exact .modWave (.failAt (.modLanes h))

theorem State.Inv.failCmd {tile cmd landed why} (h : s.Inv) : (s.failCmd tile cmd landed why).Inv := by
  unfold State.failCmd
  split
  · exact h
  · refine .ite h (.wakeFor (.deliverFailure (.modWave (.modCmd (.credit ?_)))))
    refine foldl_inv (fun a : State × Nat => a.1.Inv) _ (fun a r h1 => ?_) _ _ h
    split
    · exact .moveRow h1
    · exact h1

theorem State.Inv.abandon {tile} (h : s.Inv) : (s.abandon tile).Inv :=
  .fold h fun _ _ h1 => .ite (.wakeFor (.dropCmd (.fillSlot h1))) h1

theorem State.Inv.cwaitEffect {f g} (h : s.Inv) : (cwaitEffect f g s).Inv := by
  unfold Machine.cwaitEffect
  dsimp only
  split
  · exact .failAt h
  · exact .ite (.fold h fun _ _ h1 => .block h1) h

/-! ## The issue cycle -/

theorem State.Inv.modHw {w f} (h : s.Inv) : (s.modHw w f).Inv := .fold h fun _ _ h1 => .modWave h1

theorem State.Inv.cycleOf {w stamp issued} (h : s.Inv) : (s.cycleOf w stamp issued).Inv := .fold h fun _ _ h1 => .modWave h1

theorem State.Inv.countWaits {tile} (h : s.Inv) : (s.countWaits tile).Inv := h

theorem State.Inv.tileCycle {tile} (h : s.Inv) : (s.tileCycle tile).Inv :=
  .clockCmds (.stepBlocks (.fold (.abandon (.countWaits (.modTile h))) fun _ _ h1 => .engineAsk h1))

theorem State.Inv.readiness {tile part} (h : s.Inv) : (s.readiness tile part).Inv := .fold h fun _ _ h1 => .modHw h1

theorem OutInv.execIssueCycle {tile part} (h : s.Inv) : OutInv (execIssueCycle tile part s) := by
  unfold Machine.execIssueCycle
  have h0 : (if part = 0 ∧ tile % 48 = 0 then ({ s with turn := nextTurn (tile * 6 + part) } : State).dispatcherCycle (tile / 48)
      else { s with turn := nextTurn (tile * 6 + part) }).Inv := .ite h h
  refine .ite (.next h0) (.next (.withSlots (.modTile (.fold (.readiness (.ite (.tileCycle h0) h0)) fun _ _ h1 => .cycleOf h1))))

theorem OutInv.execActiveSetExchange {tile part} (h : s.Inv) : OutInv (execActiveSetExchange tile part s) := by
  unfold Machine.execActiveSetExchange
  split
  · exact .next h
  · refine .next ?_
    refine .ite ?_ ?_
    · refine .modHw ?_
      split
      · exact .modHw h
      · exact h
    · split
      · exact .modHw h
      · exact h

/-! ## Names and their records -/

theorem State.Inv.newPages {run span} (h : s.Inv) : (s.newPages run span).Inv := h

theorem State.Inv.fillHomes {run span cells} (h : s.Inv) : (s.fillHomes run span cells).Inv :=
  .fold h fun _ _ h1 => ⟨h1.1, Memory.wf_paste _ _ _ _ h1.2⟩

theorem State.Inv.mapDeep {va leaf table next ls} (h : s.Inv) : (s.mapDeep va leaf ls table next).1.Inv := by
  induction ls generalizing s table next with
  | nil => exact h
  | cons l ls ih =>
    unfold State.mapDeep
    dsimp only
    split
    · exact .poke h
    · split
      · split
        · exact h
        · exact ih h
      · exact ih (.poke (.blank h))

theorem State.Inv.mapRec {ctx obj} (h : s.Inv) : (s.mapRec ctx obj).Inv := by
  unfold State.mapRec
  split
  · exact h
  · split
    · exact h
    · dsimp only
      exact .ite h (.modCtx (foldl_inv (fun x : State × Nat => x.1.Inv) _ (fun _ _ h1 => .mapDeep h1) _ (s, _) h))

theorem InvOpt.newRec {ctx d} (h : s.Inv) : InvOpt (fun u => u) (s.newRec ctx d) := by
  unfold State.newRec
  refine .bind fun _ => .ite .none (.map fun _ => ?_)
  exact State.Inv.mapRec (.modCtx (.fillHomes (.newPages h)))

theorem State.Inv.swizzleLane {g l slot} (h : s.Inv) : (s.swizzleLane g l slot).1.Inv := by
  unfold State.swizzleLane
  split
  · exact .give h
  · exact h
  · exact h

theorem State.Inv.ldpEffect {f g} (h : s.Inv) : (ldpEffect f g s).Inv := by
  unfold Machine.ldpEffect
  refine .eachLane h ?_
  intro _ _ h1
  split
  · exact .swizzleLane h1
  · exact .readFor h1 fun _ _ h2 => .swizzleLane h2

theorem State.Inv.stpLane {g f l} (h : s.Inv) : (s.stpLane g f l).1.Inv := by
  unfold State.stpLane
  dsimp only
  split
  · exact h
  · exact h
  · exact .writeFor h

theorem OutInv.execNameof {f} (h : s.Inv) : OutInv (execNameof f s) := by
  unfold Machine.execNameof
  refine .issue h ?_
  intro _ _ h1
  refine .eachLane h1 ?_
  intro _ _ h2
  split
  · exact h2
  · exact .give h2

/-! ## Pages, their arrival and departure -/

theorem State.Inv.resumeAll {p} (h : s.Inv) : (s.resumeAll p).Inv := (State.resumeAll_bytes _ _).inv h

theorem State.Inv.trapWaiting {w k all} (h : s.Inv) : (s.trapWaiting w k all).Inv := (State.trapWaiting_bytes _ _ _ _).inv h

theorem State.Inv.trapAll {k p} (h : s.Inv) : (s.trapAll k p).Inv := (State.trapAll_bytes _ _ _).inv h

theorem State.Inv.holdReply {w i} (h : s.Inv) : (s.holdReply w i).Inv := h

theorem State.Inv.mapPage {ctx va leaf} (h : s.Inv) : (s.mapPage ctx va leaf).Inv := by
  unfold State.mapPage
  split
  · exact h
  · split
    · exact .ite (.poke h) h
    · exact h

theorem State.Inv.setFrame {page e} (h : s.Inv) : (s.setFrame page e).Inv := (State.setFrame_bytes _ _ _).inv h

theorem State.Inv.writeFrame {ctx page w} (h : s.Inv) : (s.writeFrame ctx page w).Inv := .ite h (.setFrame h)

theorem OutInv.execTranslationInvalidate {ctx page entries} (h : s.Inv) :
    OutInv (execTranslationInvalidate ctx page entries s) := by
  have h1 : (match page, entries.leaf with
      | some va, some e => s.mapPage ctx va e
      | _, _ => s).Inv := by
    split
    · exact .mapPage h
    · exact h
  refine .ite (.next h) (.next ?_)
  split
  · exact .writeFrame h1
  · exact h1

theorem State.Inv.landSector {page sector e} (h : s.Inv) : (s.landSector page sector e).Inv :=
  ⟨Memory.wf_paste _ _ _ _ h.1, h.2⟩

theorem State.Inv.land {page sector frame} (h : s.Inv) : (s.land page sector frame).Inv :=
  .ite h (.ite (.landSector h) (.landSector h))

theorem OutInv.execPageSectorArrival {page sector frame} (h : s.Inv) : OutInv (execPageSectorArrival page sector frame s) := by
  unfold Machine.execPageSectorArrival
  exact .ite (.next h) (.ite (.next (.land h)) (.ite (.next h) (.next (.withFabric (.fold h fun _ _ h1 => .request h1)))))

theorem State.Inv.departed {page} (h : s.Inv) : (s.departed page).Inv :=
  .ite (.fold h fun _ _ h1 => ⟨h1.1, Memory.wf_paste _ _ _ _ h1.2⟩) h

theorem State.Inv.depart {s0 : State} {page} (hs0 : s0.Inv) : (s0.depart page).Inv :=
  .ite hs0 (.ite (.fold (.setFrame hs0) fun _ _ h1 => .fold h1 fun _ _ h2 => .request h2) (.departed hs0))

theorem State.Inv.dropRec {die seq} (h : s.Inv) : (s.dropRec die seq).Inv := .resumeAll (.modDie h)

theorem State.Inv.askGrant {r e} (h : s.Inv) : (s.askGrant r e).Inv := .ite h (.getD (.mapOf (.requestFor h) fun _ h1 => h1) h)

theorem InvOpt.resolve {r fix} (h : s.Inv) : InvOpt (fun u => u) (s.resolve r fix) := by
  unfold State.resolve
  split
  · refine .some ?_
    split
    · exact .mapPage h
    · exact h
  · exact .some h
  · exact .some (.ite h (.setFrame h))
  · exact .bind fun _ => .ite (.some h) (.bind fun _ => .newRec h)
  · exact .some h

theorem State.Inv.failMissing {why p} (h : s.Inv) : (s.failMissing why p).Inv :=
  .fold h fun _ _ h1 => .fold h1 fun _ _ h2 => .ite (.failCmd h2) (.failClaim h2)

theorem State.Inv.failOn {die r why} (h : s.Inv) : (s.failOn die r why).Inv := .fold (.failMissing h) fun _ _ h1 => .holdReply h1

theorem State.Inv.endBind {w l ctx obj} (h : s.Inv) : (s.endBind w l ctx obj).Inv := by
  unfold State.endBind
  split
  · exact h
  · split
    · exact .reportEnd h
    · refine .modThread ?_
      split
      · exact .consume h
      · exact h

theorem State.Inv.measure {ctx r} (h : s.Inv) : (s.measure ctx r).Inv := by
  unfold State.measure
  split
  · exact h
  · exact .modWorld h

theorem OutInv.execCodeBind {ctx obj ok} (h : s.Inv) : OutInv (execCodeBind ctx obj ok s) := by
  unfold Machine.execCodeBind
  split
  · exact .next h
  · refine .ite (.next h) ?_
    refine .ite (.next h) ?_
    refine .next ?_
    refine .ite ?_ ?_
    · refine .tellBound ?_
      refine .measure ?_
      refine .resumeAll ?_
      refine .mapRec ?_
      refine .setRec ?_
      split
      · exact .endBind h
      · exact h
    · refine .trapAll ?_
      refine .mapRec ?_
      refine .setRec ?_
      split
      · exact .endBind h
      · exact h

theorem State.Inv.wakeArray {tile} (h : s.Inv) : (s.wakeArray tile).Inv := .resumeAll h

theorem State.Inv.leaveRetention {tile} (h : s.Inv) : (s.leaveRetention tile).Inv := .wakeArray (.modTile h)

theorem OutInv.execSoftError {array place bits} (h : s.Inv) : OutInv (execSoftError array place bits s) := by
  unfold Machine.execSoftError
  refine .ite (.next h) ?_
  refine .ite (.next h) ?_
  dsimp only
  split <;> exact .next h

/-! ## Tensors -/

theorem State.Inv.setTensor {ctx tid e} (h : s.Inv) : (s.setTensor ctx tid e).Inv := (State.setTensor_bytes _ _ _ _).inv h

theorem State.Inv.readLineFor {g : Grp} {l va : Nat} {k : State → List Byte → State × LaneEnd} (h : s.Inv)
    (hk : ∀ t a, t.Inv → (k t a).1.Inv) : (s.readLineFor g l va k).1.Inv := by
  unfold State.readLineFor
  refine .iteFst (hk _ _ h) ?_
  split
  · exact hk _ _ (.count h)
  · exact .askAt h
  · exact h

theorem State.Inv.tsetEffect {f g} (h : s.Inv) : (tsetEffect f g s).Inv := by
  unfold Machine.tsetEffect
  refine .onceFor h ?_
  intro _ _ h1
  refine .readLineFor h1 ?_
  intro _ _ h2
  dsimp only
  split
  · exact h2
  · exact .setTensor h2

theorem OutInv.execTget {f} (h : s.Inv) : OutInv (execTget f s) := by
  unfold Machine.execTget
  refine .issue h ?_
  intro _ _ h1
  refine .onceFor h1 ?_
  intro _ _ h2
  dsimp only
  split
  · exact .iteFst h2 (.store (.count h2))
  · exact .iteFst h2 (.writeFor h2)
  · exact h2

theorem State.Inv.publEffect {f g} (h : s.Inv) : (publEffect f g s).Inv :=
  .onceFor h fun _ _ h1 => .iteFst h1 (.iteFst h1 (.iteFst h1 (.setTensor h1)))

/-! ## Loading -/

theorem InvOpt.loadTensor {ctx world tids t} (h : s.Inv) : InvOpt (fun u => u) (s.loadTensor ctx world tids t) := by
  unfold State.loadTensor
  exact .ite .none (.bind fun _ => .map fun _ => State.Inv.setTensor (.store (.blank (.blank h))))

theorem InvOpt.loadTensors {ctx world used ts} (h : s.Inv) : InvOpt (fun u => u) (s.loadTensors ctx world used ts) := by
  unfold State.loadTensors
  generalize [] = done
  induction ts generalizing s done with
  | nil => exact .some h
  | cons t rest ih =>
    unfold State.loadTensors.go
    exact .ite .none (.bindOf (.loadTensor h) fun _ h1 => ih h1 _)

/-! ## Launches -/

theorem State.Inv.codeRecord {ctx d} (h : s.Inv) : (s.codeRecord ctx d).Inv := by
  unfold State.codeRecord
  split
  · exact h
  · exact .getD (.newRec h) h

theorem InvOpt.loaded {ctx world d} (h : s.Inv) : InvOpt Prod.fst (s.loaded ctx world d) :=
  .mapOf (.loadTensors (.codeRecord h)) fun _ h1 => h1

theorem State.Inv.toPackages {r t handle data} (h : s.Inv) : (s.toPackages r t handle data).Inv :=
  .fold h fun _ _ h1 => .ite h1 (.request h1)

theorem State.Inv.commit {l} (h : s.Inv) : (s.commit l).Inv := by
  unfold State.commit
  split
  · exact h
  · refine .ite h ⟨?_, h.2⟩
    dsimp only [State.modLaunch]
    split
    · exact Memory.wf_clear _ _ _ h.1
    · exact h.1

theorem State.Inv.reserve (h : s.Inv) : (s.reserve).Inv := .modWorld h

theorem State.Inv.takeWords {r} (h : s.Inv) : (s.takeWords r).2.Inv := by
  unfold State.takeWords
  dsimp only
  split <;> exact h

theorem State.Inv.addLaunch {r d h host op lane die} (hs : s.Inv) : (s.addLaunch r d h host op lane die).Inv := by
  unfold State.addLaunch
  refine .withLaunches (.takeWords ?_)
  cases e : s.loaded (recCtx r) (recWorld r) d with
  | none => exact hs
  | some y => exact .of_someFst e (.loaded hs)

theorem State.Inv.submit {submitter r host op lane die} (h : s.Inv) : (s.submit submitter r host op lane die).1.Inv := by
  unfold State.submit
  split
  · exact h
  · exact .iteFst (.commit (.addLaunch h)) (.toPackages (.addLaunch h))

theorem State.Inv.tell {x id op st a v b} (h : s.Inv) : (s.tell x id op st a v b).Inv := h

theorem State.Inv.reply {x op st a v b} (h : s.Inv) : (s.reply x op st a v b).Inv := h

theorem State.Inv.submitFor {submitter r host op} (h : s.Inv) : (s.submitFor submitter r host op).Inv := by
  unfold State.submitFor
  split <;> rename_i e
  · exact .reply (.of_fst e (.submit h))
  · exact .reply (.of_fst e (.submit h))
  · exact .of_fst e (.submit h)

theorem State.Inv.askDep {l x i} (h : s.Inv) : (s.askDep l x i).Inv := by
  unfold State.askDep
  split
  · exact .postOnce h
  · exact .recallHome h
  · exact .ite h (.getD (.mapOf (.requestFor h) fun _ h1 => h1) h)
  · exact h

theorem State.Inv.reportDone {x c} (h : s.Inv) : (s.reportDone x c).Inv := by
  unfold State.reportDone
  dsimp only
  split
  · exact h
  · split
    · exact .tell h
    · exact .tell h
    · exact .tell h
    · exact .tell h
    · exact .tell h
    · exact .tell (.free h)

theorem State.Inv.shareReport {l package c} (h : s.Inv) : (s.shareReport l package c).Inv := by
  unfold State.shareReport
  split
  · exact h
  · exact .ite h (.ite (.reportDone (.modLaunch h)) (.modLaunch h))

theorem State.Inv.launchDone {l c} (h : s.Inv) : (s.launchDone l c).Inv := by
  unfold State.launchDone
  split
  · exact h
  · dsimp only
    split
    · exact .shareReport (.modLaunch h)
    · exact .request (.modLaunch h)

theorem State.Inv.abandonShare {l k dep} (h : s.Inv) : (s.abandonShare l k dep).Inv := by
  unfold State.abandonShare
  split
  · exact h
  · exact .launchDone h

theorem OutInv.execLaunchEligibility {launch} (h : s.Inv) : OutInv (execLaunchEligibility launch s) := by
  unfold Machine.execLaunchEligibility
  split
  · exact .next h
  · refine .ite (.next h) ?_
    split
    · exact .next (.abandonShare h)
    · exact .ite (.next (.modDie (.modLaunch h))) (.next (.fold h fun _ _ h1 => .askDep h1))

theorem State.Inv.refuseDeps {r k} (h : s.Inv) : (s.refuseDeps r k).Inv := by
  unfold State.refuseDeps
  refine .fold h fun _ _ h1 => ?_
  split
  · exact h1
  · refine .ite h1 ?_
    split
    · exact .abandonShare h1
    · exact h1

theorem State.Inv.raisePennant {n l} (h : s.Inv) : (s.raisePennant n l).1.Inv := by
  unfold State.raisePennant
  refine .iteFst h ?_
  refine .iteFst h ?_
  split
  · exact .store (.count h)
  · exact h
  · exact .getD (.mapOf (.requestFor h) fun _ h1 => h1) h
  · exact .postOnce h
  · exact .recallHome h
  · exact h
  · exact h

theorem OutInv.execShareComplete {launch} (h : s.Inv) : OutInv (execShareComplete launch s) := by
  unfold Machine.execShareComplete
  split
  · exact .next h
  · refine .ite (.next h) ?_
    split
    · exact .next (.launchDone h)
    · split
      · exact .next (.launchDone (.of_fst ‹_› (.raisePennant h)))
      · exact .next (.of_fst ‹_› (.raisePennant h))

theorem State.Inv.refusePennant {r k} (h : s.Inv) : (s.refusePennant r k).Inv := by
  unfold State.refusePennant
  refine .fold h fun _ _ h1 => ?_
  split
  · exact h1
  · exact .ite (.launchDone h1) h1

/-! ## The backing store -/

theorem State.Inv.detain {sl wt post} (h : s.Inv) : (s.detain sl wt post).Inv := State.detain_inv _ _ _ _ h

theorem State.Inv.spoilt {sl} (h : s.Inv) : (s.spoilt sl).Inv := .reportEnd h

theorem State.Inv.settled {sl} {s' : State} (h : s.Inv) (hs' : s'.Inv) : (s.settled sl s').Inv :=
  s.settled_inv sl s' h hs'

theorem OutInv.afterSlot {sl o} (h : s.Inv) (ho : OutInv o) : OutInv (s.afterSlot sl o) := by
  cases o with
  | next t => exact .next (.settled h (ho t rfl))
  | fault | refused => exact fun _ e => by cases e

theorem State.Inv.settleAll {old} (h : s.Inv) : (s.settleAll old).Inv := State.settleAll_inv _ _ h

theorem OutInv.settleOut {old o} (ho : OutInv o) : OutInv (settleOut old o) := by
  cases o with
  | next t => exact .next (.settleAll (ho t rfl))
  | fault | refused => exact fun _ e => by cases e

theorem InvOpt.refileTeam {t} (h : s.Inv) : InvOpt (fun u => u) (s.refileTeam t) := by
  refine foldl_inv (InvOpt fun u => u) _ (fun a w ha => .bindOf ha fun s h1 => ?_) _ _ (.some h)
  split <;> rename_i e
  · exact .some ((State.refile_bytes e).inv h1)
  · exact .none
  · exact .some h1

theorem State.Inv.saveContext {t k} (h : s.Inv) : (s.saveContext t k).Inv := .modTeam (.fold (.store h) fun _ _ h1 => .modWave h1)

theorem InvOpt.loadContext {t} (h : s.Inv) : InvOpt (fun u => u) (s.loadContext t) := by
  unfold State.loadContext
  split
  · exact .some h
  · refine .ite .none (.mapOf (f := Prod.fst) ?_ fun _ h1 => h1)
    refine foldl_inv (InvOpt Prod.fst) _ (fun a w ha => .bindOf ha fun x h1 => ?_) _ _ (InvOpt.some (b := (s, _)) h)
    exact .map fun _ => h1

/-! ## The dispatcher -/

theorem State.Inv.seat {tile ws} (h : s.Inv) : (s.seat tile ws).Inv := .fold h fun _ _ h1 => .modWave h1

theorem State.Inv.setScratch {t e} (h : s.Inv) : (s.setScratch t e).Inv := by
  unfold State.setScratch
  split
  · exact h
  · exact .ite h (.modCtx h)

theorem State.Inv.wakeLanes {waves tile} (h : s.Inv) : (s.wakeLanes waves tile).Inv := h

theorem State.Inv.restoreTeam {t} (h : s.Inv) : (s.restoreTeam t).Inv := by
  unfold State.restoreTeam
  split
  · exact .of_some ‹_› (.loadContext h)
  · exact .reportEnd h

theorem State.Inv.movedIn {l tm p} (h : s.Inv) : (s.movedIn l tm p).Inv := by
  unfold State.movedIn
  refine .ite ⟨Memory.wf_clear _ _ _ h.1, h.2⟩ ?_
  split
  · exact ⟨Memory.wf_paste _ _ _ _ h.1, h.2⟩
  · exact h

theorem State.Inv.seatedIn {l tm p} (h : s.Inv) : (s.seatedIn l tm p).Inv := by
  unfold State.seatedIn
  exact .modLaunch (.withDies (.wakeLanes (.modTeam (.seat h))))

theorem State.Inv.place {p} (h : s.Inv) : (s.place p).Inv := by
  rw [State.place_eq]
  split
  · exact h
  · have h1 : (s.readied p.tile).Inv := .ite h h
    exact .restoreTeam (.ite (.seatedIn (.movedIn h1)) (.setScratch (.seatedIn (.movedIn h1))))

theorem InvOpt.round {die : Nat} {take : Taker} {ps : List Placement} (h : s.Inv)
    (htake : ∀ s ts ps, s.Inv → InvOpt Prod.fst (take s ts ps)) : InvOpt Prod.fst (s.round die take ps) := by
  refine .bindOf (f := Prod.fst) (foldl_inv (InvOpt Prod.fst) _ (fun a t ha => ?_) _ _ (.some h)) fun x hx => ?_
  · exact .bindOf ha fun _ h1 => .ite (htake _ _ _ h1) (.some h1)
  · refine .ite (.some hx) (foldl_inv (InvOpt Prod.fst) _ (fun a q ha => .bindOf ha fun y hy => ?_) _ _ (.some hx))
    split
    · exact htake _ _ _ hy
    · exact .some hy

theorem InvOpt.takeGiven {die ts ps} (h : s.Inv) : InvOpt Prod.fst (takeGiven die s ts ps) := by
  induction ts generalizing s ps with
  | nil => exact .some h
  | cons t ts ih =>
    cases ps with
    | nil => exact .none
    | cons p ps => exact .ite (ih (.place h)) .none

theorem OutInv.execDispatchRound {die grants} (h : s.Inv) : OutInv (execDispatchRound die grants s) := by
  unfold Machine.execDispatchRound
  split
  · exact .next (.of_someFst ‹_› (.round h fun _ _ _ h1 => .takeGiven h1))
  · exact .next h

theorem OutInv.execLaunchAging {launch} (h : s.Inv) : OutInv (execLaunchAging launch s) := by
  unfold Machine.execLaunchAging
  split
  · exact .next h
  · exact .ite (.next (.modLaunch h)) (.next h)

theorem State.Inv.moveTeam {t die} (h : s.Inv) : (s.moveTeam t die).Inv := h

theorem State.Inv.sendTeam {t l far} (h : s.Inv) : (s.sendTeam t l far).Inv := .modTeam (.request h)

theorem OutInv.execTeamTransfer {team die accepted} (h : s.Inv) : OutInv (execTeamTransfer team die accepted s) := by
  unfold Machine.execTeamTransfer
  split
  · exact .next h
  · exact .ite (.next h) (.ite (.next (.sendTeam (.modDie h))) (.next (.ite (.moveTeam (.modDie h)) (.modDie h))))

theorem State.Inv.teamReturns {t} (h : s.Inv) : (s.teamReturns t).Inv := .modTeam h

theorem State.Inv.awayEnds {t c} (h : s.Inv) : (s.awayEnds t c).Inv := by
  unfold State.awayEnds
  dsimp only
  split
  · exact .modLaunch (.modTeam (.modTeam h))
  · exact .modTeam h

theorem OutInv.execBecalm {team places} (h : s.Inv) : OutInv (execBecalm team places s) := by
  unfold Machine.execBecalm
  dsimp only
  split
  · exact .next h
  · refine .ite (.next h) ?_
    split <;> rename_i e
    · exact .next (.reportEnd h)
    · have h1 := State.Inv.of_some e (.refileTeam h)
      exact .next (.modTeam (.fold (.saveContext (.ite (.ite h1 ⟨Memory.wf_paste _ _ _ _ h1.1, h1.2⟩)
        (.setScratch (.ite h1 ⟨Memory.wf_paste _ _ _ _ h1.1, h1.2⟩)))) fun _ _ h2 => .modWave h2))

theorem State.Inv.unhalt {t} (h : s.Inv) : (s.unhalt t).Inv := .fold h fun _ _ h1 => .modWave h1

theorem State.Inv.wake {t} (h : s.Inv) : (s.wake t).Inv := .ite (.modDie (.modTeam h)) h

/-! ## Worlds of a tile -/

theorem State.Inv.assignWorlds {tile new} (h : s.Inv) : (s.assignWorlds tile new).Inv := .modTile (.fold h fun _ _ h1 => .wipe h1)

theorem State.Inv.writeWorlds {tile off value} (h : s.Inv) : (s.writeWorlds tile off value).Inv :=
  .ite h (.ite (.modTile h) (.assignWorlds h))

theorem State.Inv.readWorlds {tile off} (h : s.Inv) : (s.readWorlds tile off).1.Inv := by
  unfold State.readWorlds
  dsimp only
  split
  · exact h
  · exact h
  · exact h
  · exact .modTile h
  · exact h

theorem State.Inv.readGives {r} (hr : r.1.Inv) : (readGives r).Inv := hr

theorem State.Inv.zeroed {tile} (h : s.Inv) : (s.zeroed tile).Inv := .wakeArray (.modTile h)

/-! ## Freezing -/

theorem State.Inv.release {p} (h : s.Inv) : (s.release p).Inv := h

theorem State.Inv.fzStatus {tile st} (h : s.Inv) : (s.fzStatus tile st).Inv := .modTile h

theorem State.Inv.fzCommand {tile : Nat} {op : BitVec 4} {image : Nat} {pmask : BitVec 6} {k : State → State} (h : s.Inv)
    (hk : ∀ t, t.Inv → (k t).Inv) : (s.fzCommand tile op image pmask k).Inv :=
  .ite h (hk _ (.modTile h))

theorem State.Inv.putTag {addr} (h : s.Inv) : (s.putTag addr).Inv := .store h

theorem State.Inv.takeImage {tile} (h : s.Inv) : (s.takeImage tile).Inv := .modTile (.ite (.putTag (.store (.free h))) (.free h))

theorem OutInv.execFreeze {tile image} (h : s.Inv) : OutInv (execFreeze tile image s) :=
  .next (.fzCommand h fun _ h1 => .modTile h1)

theorem OutInv.execFreezeDone {tile} (h : s.Inv) : OutInv (execFreezeDone tile s) := .next (.ite (.takeImage h) h)

theorem State.Inv.quiesceParts {tile pmask reason} (h : s.Inv) : (s.quiesceParts tile pmask reason).Inv :=
  .fold h fun _ _ h1 => .endTeam h1

theorem OutInv.execQuiesce {tile pmask} (h : s.Inv) : OutInv (execQuiesce tile pmask s) :=
  .next (.fzCommand h fun _ h1 => .fzStatus (.quiesceParts h1))

theorem OutInv.execStop {tile} (h : s.Inv) : OutInv (execStop tile s) := .next (.fzCommand h fun _ h1 => .modTile h1)

theorem OutInv.execStart {tile} (h : s.Inv) : OutInv (execStart tile s) :=
  .next (.fzCommand h fun _ h1 => .ite (.wakeArray (.release (.modTile (.fzStatus h1)))) (.fzStatus h1))

theorem OutInv.execRestore {tile image} (h : s.Inv) : OutInv (execRestore tile image s) := by
  unfold Machine.execRestore
  refine .next ?_
  refine .fzCommand h ?_
  intro _ h1
  split
  · exact .fzStatus h1
  · exact .modTile (.ite (.leaveRetention h1) h1)

theorem State.Inv.rerange (h : s.Inv) : (s.rerange).Inv := h

theorem State.Inv.thaw {tile} (h : s.Inv) : (s.thaw tile).Inv := .ite (.wakeArray (.modTile h)) h

theorem State.Inv.consumeImage {id} (h : s.Inv) : (s.consumeImage id).Inv := h

theorem State.Inv.putImage {tile x} (h : s.Inv) : (s.putImage tile x).Inv := by
  have h1 : ((s.assignWorlds tile (s.blockFor tile x)).zeroed tile).Inv := .zeroed (.assignWorlds h)
  unfold State.putImage
  refine .wakeArray (.wakeArray (.thaw (.modTile (.consumeImage (.release (.rerange (.modTile ?_)))))))
  refine .fold ?_ fun _ _ h2 => .ite h2 (.setScratch h2)
  exact ⟨foldl_inv Memory.wf _ (fun m b hm => Memory.wf_paste m _ _ _ hm) _ _ h1.1, h1.2⟩

theorem OutInv.execRestoreDone {tile} (h : s.Inv) : OutInv (execRestoreDone tile s) := by
  unfold Machine.execRestoreDone
  refine .ite (.next h) ?_
  split
  · exact .ite (.next (.wakeArray (.modTile h))) (.next (.putImage h))
  · exact .next h

theorem State.Inv.discardImage {x} (h : s.Inv) : (s.discardImage x).Inv := .ite h (.thaw (.consumeImage h))

theorem OutInv.execDiscard {tile image} (h : s.Inv) : OutInv (execDiscard tile image s) := by
  unfold Machine.execDiscard
  refine .next ?_
  refine .fzCommand h ?_
  intro _ h1
  dsimp only
  split
  · exact .fzStatus (.discardImage h1)
  · exact .fzStatus h1

theorem State.Inv.retryLane {w l} (h : s.Inv) : (s.retryLane w l).Inv := .ite (.modWave h) h

theorem State.Inv.outState {o} (h : s.Inv) (ho : OutInv o) : (outState s o).Inv := by
  cases o with
  | next t => exact ho t rfl
  | fault | refused => exact h

theorem State.Inv.writeFzcmd {tile value} (h : s.Inv) : (s.writeFzcmd tile value).Inv := by
  unfold State.writeFzcmd
  refine .ite h ?_
  refine .ite (.fzStatus h) ?_
  split
  · exact .outState h (.execFreeze h)
  · exact .outState h (.execQuiesce h)
  · exact .outState h (.execRestore h)
  · exact .outState h (.execStop h)
  · exact .outState h (.execStart h)
  · exact .outState h (.execDiscard h)
  · exact .fzStatus h

theorem State.Inv.writeFreezeReg {tile off value} (h : s.Inv) : (s.writeFreezeReg tile off value).Inv := by
  unfold State.writeFreezeReg
  split
  · exact .writeFzcmd h
  · exact .modTile h
  · exact .modTile h
  · exact .modTile h
  · exact .modTile h
  · exact h

theorem State.Inv.attachTo {l on} (h : s.Inv) : (s.attachTo l on).Inv := h

theorem State.Inv.writeControl {addr value} (h : s.Inv) : (s.writeControl addr value).Inv := by
  unfold State.writeControl
  split
  · exact .writeFreezeReg h
  · exact .writeWorlds h
  · exact .store h
  · exact .attachTo h
  · exact h

/-! ## Services -/

theorem State.Inv.serveDone {d results} (h : s.Inv) : (s.serveDone d results).Inv := by
  unfold State.serveDone
  split
  · exact h
  · exact .modWave (.resume (.consume h))

theorem InvOpt.withPtr {w l va size align : Nat} {mode : Mode} {k : List Piece → Served} {bad : Nat → State × List W32}
    (h : s.Inv) (hk : ∀ a, InvOpt Prod.fst (k a)) (hbad : ∀ a, (bad a).1.Inv) :
    InvOpt Prod.fst (s.withPtr w l va size align mode k bad) := by
  unfold State.withPtr
  split
  · exact hk _
  · exact .some (hbad _)
  · exact .ite .none (.some (.postOnce h))
  · exact .ite (.some (.recallHome h)) .none
  · exact .none

theorem State.Inv.answer {st} (h : s.Inv) : (s.answer st).1.Inv := h

theorem State.Inv.launchResult {st check handle} (h : s.Inv) : (s.launchResult st check handle).1.Inv := .free h

theorem InvOpt.serveLaunch {d} (h : s.Inv) : InvOpt Prod.fst (s.serveLaunch d) := by
  unfold State.serveLaunch
  refine .ite .none ?_
  refine .withPtr h ?_ fun _ => .launchResult h
  intro _
  dsimp only
  split
  · exact .some (.launchResult (.of_fst ‹_› (.submit h)))
  · exact .some (.launchResult (.of_fst ‹_› (.submit h)))
  · exact .some (.of_fst ‹_› (.submit h))

theorem State.Inv.addObject {ctx d} (h : s.Inv) : (s.addObject ctx d).Inv := .modCtx h

theorem InvOpt.serveAlloc {d} (h : s.Inv) : InvOpt Prod.fst (s.serveAlloc d) := by
  unfold State.serveAlloc
  refine .withPtr h ?_ fun _ => .answer h
  intro _
  refine .ite (.some (.answer h)) ?_
  refine .ite (.some (.answer h)) ?_
  split
  · exact .some (.answer h)
  · exact .some (.answer (.store (.sequence (.addObject h))))

theorem InvOpt.serveConsole {d} (h : s.Inv) : InvOpt Prod.fst (s.serveConsole d) :=
  .ite (.some (.answer h)) (.withPtr h (fun _ => .some (.answer (.modWorld h))) fun _ => .answer h)

theorem InvOpt.needRec {ctx d} (h : s.Inv) : InvOpt Prod.fst (s.needRec ctx d) := by
  unfold State.needRec
  split
  · exact .some h
  · exact .bindOf (.newRec h) fun _ h1 => .map fun _ => h1

theorem State.Inv.evictPages {pages} (h : s.Inv) : (s.evictPages pages).1.Inv :=
  .iteFst h (.iteFst h (.fold h fun _ _ h1 => .depart h1))

theorem InvOpt.bringIn {op who pages} (h : s.Inv) : InvOpt (fun u => u) (s.bringIn op who pages) :=
  .ite .none (.some (.fold h fun _ _ h1 => .postOnce h1))

theorem State.Inv.pinPages {owner pages} (h : s.Inv) : (s.pinPages owner pages).Inv := h

theorem State.Inv.unpinPages {owner pages} (h : s.Inv) : (s.unpinPages owner pages).Inv := h

theorem State.Inv.retire {ctx obj} (h : s.Inv) : (s.retire ctx obj).Inv := .modCtx h

theorem InvOpt.objectAction {dl action ps d} (h : s.Inv) : InvOpt Prod.fst (s.objectAction dl action ps d) := by
  unfold State.objectAction
  extract_lets ctx rec?
  have he {pages} := State.Inv.evictPages (pages := pages) h
  split
  · cases e : s.needRec ctx d with
    | none => exact .some (.answer h)
    | some x => exact .some (.answer (.store (.of_someFst e (.needRec h))))
  · cases rec? with
    | none => exact .some (.answer h)
    | some r =>
      dsimp only
      split
      · exact .some (.answer he)
      · exact .ite (.some he) .none
  · cases e : s.needRec ctx d with
    | none => exact .some (.answer h)
    | some x =>
      have h1 := State.Inv.of_someFst e (.needRec h)
      exact .ite (.some (.answer (.pinPages h1))) (.mapOf (.bringIn h1) fun _ h2 => h2)
  · cases rec? with
    | none => exact .some (.answer h)
    | some r => exact .some (.answer (.unpinPages h))
  · exact .some (.answer (.sequence (.retire h)))
  · refine .ite (.some (.answer h)) ?_
    cases e : s.needRec ctx d with
    | none => exact .some (.answer h)
    | some x => exact .some (.answer (.mapRec (.setRec (.of_someFst e (.needRec h)))))

theorem InvOpt.serveObject {d} (h : s.Inv) : InvOpt Prod.fst (s.serveObject d) := by
  unfold State.serveObject
  refine .withPtr h ?_ fun _ => .answer h
  intro _
  refine .ite (.some (.answer h)) ?_
  dsimp only
  split
  · exact .some (.answer h)
  · exact .objectAction h

theorem InvOpt.systemService {d} (h : s.Inv) : InvOpt Prod.fst (s.systemService d) :=
  .ite .none (.ite (.serveLaunch h) (.ite (.serveAlloc h) (.ite (.serveConsole h) (.ite (.serveObject h) (.some (.answer h))))))

theorem State.Inv.serveEnd {d results} (h : s.Inv) : (s.serveEnd d results).Inv := by
  unfold State.serveEnd
  split
  · exact .reportEnd h
  · exact .serveDone h

theorem InvOpt.service {d : Delivery} {svc : State → Delivery → Served} (h : s.Inv)
    (hsvc : ∀ t a, t.Inv → InvOpt Prod.fst (svc t a)) : InvOpt (fun u => u) (s.service d svc) := by
  unfold State.service
  refine .ite (.mapOf (hsvc _ _ h) fun _ h1 => .ite h1 (.serveEnd h1)) ?_
  split <;> exact .some (.reportEnd h)

theorem State.Inv.serveLane {w l : Nat} {p : Delivery → Bool} {svc : State → Delivery → Served} (h : s.Inv)
    (hsvc : ∀ t a, t.Inv → InvOpt Prod.fst (svc t a)) : (s.serveLane w l p svc).Inv := by
  unfold State.serveLane
  split
  · exact h
  · exact .ite (.getD (.service h hsvc) h) h

theorem OutInv.serveAction {w l action} (h : s.Inv) : OutInv (s.serveAction w l action) :=
  .next (.serveLane h fun _ _ h1 => .serveObject h1)

theorem State.Inv.stopWave {w l} (h : s.Inv) : (s.stopWave w l).Inv := .modWave h

theorem State.Inv.restartWave {w l} (h : s.Inv) : (s.restartWave w l).Inv := .modWave (.modWave h)

theorem State.Inv.growth {w l granted} (h : s.Inv) : (s.growth w l granted).Inv := by
  unfold State.growth
  dsimp only
  split
  · split
    · exact h
    · exact .ite (.restartWave (.modThread (.modThread (.dropRec h)))) (.stopWave (.dropRec h))
  · exact .ite (.restartWave (.modThread (.modThread h))) (.reportEnd h)
  · exact h

theorem State.Inv.repeatPrefetches {l} (h : s.Inv) : (s.repeatPrefetches l).Inv := .fold h fun _ _ h1 => .ite (.prefetch h1) h1

theorem State.Inv.tellWaiters {die seq status} (h : s.Inv) : (s.tellWaiters die seq status).Inv :=
  .fold h fun _ _ h1 => .ite (.holdReply h1) (.ite (.modWave h1) (.trapWaiting h1))

theorem OutInv.execFaultAnswer {die seq status fix} (h : s.Inv) : OutInv (execFaultAnswer die seq status fix s) := by
  unfold Machine.execFaultAnswer
  split
  · have h1 : (s.tellWaiters die seq status).Inv := .tellWaiters h
    refine .next ?_
    split
    · exact .ite h1 (.failMissing h1)
    · exact h1
  · dsimp only
    split
    · exact .next (.askGrant h)
    · refine .ite ?_ (.ite ?_ (.next (.refusePennant (.refuseDeps (.failOn (.tellWaiters h))))))
      · split
        · exact .next (.ite h (.growth h))
        · exact .next h
      · split <;> rename_i e
        · exact .next (.refusePennant (.refuseDeps (.failOn (.tellWaiters h))))
        · exact .next (.repeatPrefetches (.tellWaiters (.of_some e (.resolve (.dropRec h)))))

/-! ## Packets at their home -/

theorem State.Inv.logLine {e} (h : s.Inv) : (s.logLine e).Inv := h

theorem State.Inv.setForward {p step x} (h : s.Inv) : (s.setForward p step x).Inv := h

theorem State.Inv.passOn {p fw step h a} (hs : s.Inv) : (s.passOn p fw step h a).Inv := by
  unfold State.passOn
  dsimp only
  split
  · rename_i e
    exact .setForward (.of_someFst e (.requestFor hs))
  · exact hs

theorem State.Inv.atPoint {ks : List Piece} {mode : Mode} {f : Point} (h : s.Inv) (hf : ∀ t a, t.Inv → (f t a).1.Inv) :
    (s.atPoint ks mode f).1.Inv :=
  .iteFst h (hf _ _ (.count h))

theorem State.Inv.frameGone {node q} (h : s.Inv) : (s.frameGone node q).Inv := by
  unfold State.frameGone
  split
  · exact .ite (.setFrame h) h
  · exact h

theorem State.Inv.atFrame {node : Nat} {qs : List Piece} {mode : Mode} {f : Point} (h : s.Inv)
    (hf : ∀ t a, t.Inv → (f t a).1.Inv) : (s.atFrame node qs mode f).1.Inv :=
  .iteFst (.fold h fun _ _ h1 => .frameGone h1) (.iteFst h (.atPoint h hf))

theorem State.Inv.atHome {p fw : Packet} {step : Nat} {qs : List Piece} {mode : Mode} {f : Point} (h : s.Inv)
    (hf : ∀ t a, t.Inv → (f t a).1.Inv) : (s.atHome p fw step qs mode f).1.Inv := by
  unfold State.atHome
  refine .iteFst (.atFrame h hf) ?_
  refine .iteFst h ?_
  refine .iteFst h ?_
  dsimp only
  split
  · exact .iteFst (.atPoint h hf) (.fold h fun _ _ h1 => .recallFrom h1)
  · exact .iteFst (.passOn h) (.fold h fun _ _ h2 => .recallFrom h2)
  · exact h
  · exact .setForward h

theorem State.Inv.readPoint {x1 : State} {x2} (hx1 : x1.Inv) : (readPoint x1 x2).1.Inv := hx1

theorem State.Inv.homeRead {p} (h : s.Inv) : (s.homeRead p).1.Inv := .atHome h fun _ _ h1 => .readPoint h1

theorem State.Inv.homeWrite {p} (h : s.Inv) : (s.homeWrite p).1.Inv :=
  .iteFst (.atHome h fun _ _ h1 => .readPoint h1) (.atHome h fun _ _ h2 => .store h2)

theorem State.Inv.atomicPoint {p} {x2 : State} {x3} (hx2 : x2.Inv) : (atomicPoint p x2 x3).1.Inv :=
  .getD (.map fun _ => .store hx2) hx2

theorem State.Inv.homeAtomic {p} (h : s.Inv) : (s.homeAtomic p).1.Inv := by
  have h1 := State.Inv.atHome (p := p) (fw := p) (step := 0) (qs := [(p.addr.toNat, p.wt.bytes)]) (mode := .rmw) (f := Machine.atomicPoint
    p)
    h fun _ _ h1 => .atomicPoint h1
  unfold State.homeAtomic
  split
  · exact .wordExits (.of_fst ‹_› h1)
  · exact h1

theorem State.Inv.homeXa {p} (h : s.Inv) : (s.homeXa p).1.Inv :=
  .iteFst (.atHome h fun _ _ h1 => .store h1) (.iteFst (.atHome h fun _ _ h2 => h2) (.atHome h fun _ _ h3 => .store h3))

theorem State.Inv.rstfRaise {p} (h : s.Inv) : (s.rstfRaise p).1.Inv := by
  unfold State.rstfRaise
  split <;> rename_i e <;> exact .setForward (.of_fst e (.atHome h fun _ _ h1 => .atomicPoint h1))

theorem State.Inv.homeRstf {p} (h : s.Inv) : (s.homeRstf p).1.Inv := by
  have h1 := State.Inv.atHome (p := p) (fw := rstfData p) (step := 0) (qs := [(p.addr.toNat, p.data.length)]) (mode := .write)
    (f := fun s ks => (s.store ks p.data, [])) h fun _ _ h1 => .store h1
  unfold State.homeRstf
  dsimp only
  split
  · exact .rstfRaise h
  · refine .iteFst h (.iteFst h (.iteFst h ?_))
    split
    · exact .rstfRaise (.of_fst ‹_› h1)
    · exact h1

theorem State.Inv.homeGrant {p} (h : s.Inv) : (s.homeGrant p).1.Inv := .iteFst h (.iteFst (.recallFrom h) h)

theorem State.Inv.homeRecall {p} (h : s.Inv) : (s.homeRecall p).1.Inv := by
  unfold State.homeRecall
  split
  · exact h
  · exact .iteFst (.setFrame (.depart h)) (.depart h)

theorem State.Inv.homePage {p} (h : s.Inv) : (s.homePage p).1.Inv :=
  .iteFst h (.iteFst (.store h) (.iteFst (.recallFrom h) (.ite h h)))

theorem State.Inv.homeTeam {p} (h : s.Inv) : (s.homeTeam p).1.Inv := by
  unfold State.homeTeam
  dsimp only
  split
  · exact h
  · exact .iteFst (.modDie (.modLaunch h)) h

theorem State.Inv.homeAdvert {p} (h : s.Inv) : (s.homeAdvert p).1.Inv := h

theorem State.Inv.homeLaunch {p} (h : s.Inv) : (s.homeLaunch p).1.Inv := by
  unfold State.homeLaunch
  dsimp only
  split
  · exact h
  · exact .withPkg (.modLaunch (.addLaunch h))

theorem State.Inv.homeCommit {p} (h : s.Inv) : (s.homeCommit p).1.Inv := by
  unfold State.homeCommit
  split
  · exact .commit (.modLaunch h)
  · exact h

theorem State.Inv.homeAbort {p} (h : s.Inv) : (s.homeAbort p).1.Inv := by
  unfold State.homeAbort
  split
  · exact .modLaunch h
  · exact h

theorem State.Inv.reportLink {port} (h : s.Inv) : (s.reportLink port).Inv := .ite h (.request h)

theorem State.Inv.reportLinks (h : s.Inv) : (s.reportLinks).Inv := .fold h fun _ _ h1 => .ite (.reportLink h1) h1

theorem State.Inv.takeManager {n} (h : s.Inv) : (s.takeManager n).Inv := .ite h (.reportLinks h)

theorem State.Inv.heartbeat {src} (h : s.Inv) : (s.heartbeat src).Inv := .ite h (.ite (.takeManager h) h)

theorem State.Inv.tellLost {l package} (h : s.Inv) : (s.tellLost l package).Inv := by
  unfold State.tellLost
  split
  · exact h
  · exact .ite h (.ite (.tell (.logLine (.modLaunch h))) (.logLine (.modLaunch h)))

theorem State.Inv.reportLost (h : s.Inv) : (s.reportLost).Inv := by
  unfold State.reportLost
  refine .fold h fun _ _ h1 => ?_
  split
  · exact h1
  · refine .ite h1 ?_
    split
    · exact .fold h1 fun _ _ h2 => .tellLost h2
    · exact .fold h1 fun _ _ h3 => .modLaunch (.request h3)

theorem State.Inv.homeManager {p} (h : s.Inv) : (s.homeManager p).1.Inv := by
  unfold State.homeManager
  dsimp only
  split
  · exact .heartbeat h
  · exact .ite (.takeManager h) h
  · exact h
  · exact .ite (.sequence (.reportLost h)) h
  · exact .getD (.map fun _ => .shareReport h) h
  · exact .getD (.map fun _ => .awayEnds h) h
  · exact .getD (.map fun _ => .tellLost h) h
  · exact h
  · exact h

theorem State.Inv.perform {p} (h : s.Inv) : (s.perform p).1.Inv := by
  unfold State.perform
  refine .iteFst h ?_
  split
  · exact .homeRead h
  · exact .homeWrite h
  · exact .homeAtomic h
  · exact .homeXa h
  · exact .homeRstf h
  · exact .homeGrant h
  · exact .homeRecall h
  · exact .homePage h
  · exact .homeLaunch h
  · exact .homeCommit h
  · exact .homeAbort h
  · exact .homeManager h
  · exact .homeTeam h
  · exact .homeAdvert h
  · exact h

theorem State.Inv.sendReply {p} (h : s.Inv) : (s.sendReply p).Inv := h

theorem State.Inv.drain {src tier n} (h : s.Inv) : (s.drain src tier n).Inv := by
  induction n generalizing s with
  | zero => exact h
  | succ n ih =>
    unfold State.drain
    dsimp only
    split
    · exact h
    · split <;> rename_i e <;> have h1 := State.Inv.of_fst e (.perform h)
      · exact h1
      · exact ih h1

theorem State.Inv.drainAll (h : s.Inv) : (s.drainAll).Inv := .fold h fun _ _ h1 => .drain h1

theorem State.Inv.intake {p} (h : s.Inv) : (s.intake p).Inv := by
  unfold State.intake
  refine .ite ?_ (.drain h)
  split
  · exact .sendReply h
  · exact h

theorem OutInv.arrivePacket {t p} (h : s.Inv) : OutInv (s.arrivePacket t p) := .next (.ite (.logLine h) (.ite (.intake h) h))

/-! ## Replies -/

theorem State.Inv.answerSubmit {x st check package handle} (h : s.Inv) : (s.answerSubmit x st check package handle).Inv := by
  unfold State.answerSubmit
  dsimp only
  split
  · exact .ite (.reply h) h
  · split
    · exact .ite (.reply h) h
    · exact .serveDone (.launchResult (.ite (.reply h) h))

theorem State.Inv.commitAll {l} (h : s.Inv) : (s.commitAll l).Inv := by
  unfold State.commitAll
  split
  · exact h
  · exact .answerSubmit (.commit (.toPackages h))

theorem State.Inv.abortAll {l st check package} (h : s.Inv) : (s.abortAll l st check package).Inv := by
  unfold State.abortAll
  split
  · exact h
  · exact .answerSubmit (.modLaunch (.toPackages h))

theorem State.Inv.launchAnswer {p} (h : s.Inv) : (s.launchAnswer p).Inv := by
  unfold State.launchAnswer
  split
  · exact h
  · refine .ite (.abortAll h) ?_
    refine .ite (.abortAll h) ?_
    dsimp only
    split
    · exact .modLaunch h
    · exact .ite (.commitAll (.modLaunch h)) (.modLaunch h)

theorem OutInv.execLaunchAnswerTimeout {launch package} (h : s.Inv) : OutInv (execLaunchAnswerTimeout launch package s) := by
  unfold Machine.execLaunchAnswerTimeout
  split
  · exact .next h
  · exact .ite (.next h) (.next (.abortAll h))

theorem State.Inv.replyEffect {i g} (h : s.Inv) : (replyEffect i g s).Inv := by
  unfold Machine.replyEffect
  split
  · exact .ldEffect h
  · exact .ldpEffect h
  · exact .ldtEffect h
  · exact .atomEffect h
  · exact .atomcEffect h
  · exact .exrndEffect h
  · exact .cbacqEffect h
  · exact .waitpEffect h
  · exact .tsetEffect h
  · exact .cbdefEffect h
  · exact h

theorem State.Inv.unask {r} (h : s.Inv) : (s.unask r).Inv := .modLanes h

theorem State.Inv.laneReply {r p} (h : s.Inv) : (s.laneReply r p).Inv := by
  unfold State.laneReply
  dsimp only
  split
  · exact .unask h
  · refine .ite (.unask h) ?_
    refine .finish ?_
    refine .ite (.raiseAll (.modLanes h)) ?_
    split
    · exact .replyEffect (.modLanes h)
    · exact .modLanes h

theorem State.Inv.lineReply {r line p} (h : s.Inv) : (s.lineReply r line p).Inv :=
  .ite (.unask h) (.ite (.fold h fun _ _ h1 => .raiseFetch h1) (.modWave (.unask h)))

theorem State.Inv.cmdReply {tile id line p} (h : s.Inv) : (s.cmdReply tile id line p).Inv :=
  .ite (.failCmd h) (.ite h (.modCmd h))

theorem State.Inv.blockReply {tile id step p} (h : s.Inv) : (s.blockReply tile id step p).Inv :=
  .ite (.modTile h) (.ite h (.modCmd h))

theorem State.Inv.grantHome {p} (h : s.Inv) : (s.grantHome p).Inv := h

theorem State.Inv.forwardReply {src tier seq step p} (h : s.Inv) : (s.forwardReply src tier seq step p).Inv :=
  .drainAll (.setForward (.ite (.grantHome h) h))

theorem State.Inv.grantReply {die seq p} (h : s.Inv) : (s.grantReply die seq p).Inv := by
  unfold State.grantReply
  dsimp only
  split
  · exact .ite (.setFrame h) h
  · exact h

theorem State.Inv.wordReply {launch field p} (h : s.Inv) : (s.wordReply launch field p).Inv := by
  unfold State.wordReply
  split
  · exact h
  · exact .ite (.ite (.launchDone h) h) (.ite (.modLaunch h) (.ite (.abandonShare h) h))

theorem State.Inv.pageReply {p} (h : s.Inv) : (s.pageReply p).Inv := by
  unfold State.pageReply
  split
  · exact h
  · refine .ite (.ite (.drainAll (.departed h)) h) (.fold ?_ fun _ _ h1 => .land h1)
    exact ⟨h.1, Memory.wf_write _ _ _ h.2⟩

theorem State.Inv.recallReply {p} (h : s.Inv) : (s.recallReply p).Inv := .drainAll (.resumeAll h)

theorem State.Inv.teamReply {q p} (h : s.Inv) : (s.teamReply q p).Inv := by
  unfold State.teamReply
  refine .ite h ?_
  split
  · exact h
  · exact .modDie (.teamReturns h)

theorem State.Inv.retryHome {r p} (h : s.Inv) : (s.retryHome r p).Inv := by
  unfold State.retryHome
  dsimp only
  split
  · exact .unask (.grantHome h)
  · exact .unask (.grantHome h)
  · exact .modCmd (.grantHome h)
  · exact .modTile (.grantHome h)
  · exact .grantHome h

theorem State.Inv.serveReply {s1 : State} {r p} (hs1 : s1.Inv) : (s1.serveReply r p).Inv := by
  unfold State.serveReply
  split
  · exact .laneReply hs1
  · exact .lineReply hs1
  · exact .cmdReply hs1
  · exact .blockReply hs1
  · exact .forwardReply hs1
  · exact .grantReply hs1
  · exact .ite (.ite (.modBarrier hs1) hs1) (.unask hs1)
  · exact .wordReply hs1

theorem State.Inv.useReply {r p} (h : s.Inv) : (s.useReply r p).Inv := .resumeAll (.ite (.retryHome h) (.serveReply h))

theorem State.Inv.deliverReply {seq q p} (h : s.Inv) : (s.deliverReply seq q p).Inv := by
  unfold State.deliverReply
  split
  · exact .useReply h
  · split
    · exact .launchAnswer h
    · exact .recallReply h
    · exact .pageReply h
    · exact .teamReply h
    · exact h

theorem State.Inv.takeReply {seq q p} (h : s.Inv) : (s.takeReply seq q p).Inv := by
  unfold State.takeReply
  split
  · exact .holdReply h
  · exact .deliverReply h

theorem OutInv.execReplyReceive {p} (h : s.Inv) : OutInv (execReplyReceive p s) := by
  unfold Machine.execReplyReceive
  refine .ite (.next (.logLine h)) ?_
  split
  · exact .next (.ite h (.ite (.takeReply h) h))
  · exact .next (.takeReply h)

theorem OutInv.execRequestResend {dst tier seq} (h : s.Inv) : OutInv (execRequestResend dst tier seq s) := by
  unfold Machine.execRequestResend
  split
  · exact .next h
  · exact .next (.sendReply h)

/-! ## Links -/

theorem State.Inv.modLink {port g} (h : s.Inv) : (s.modLink port g).Inv := h

theorem State.Inv.freeBuffer {port channel p} (h : s.Inv) : (s.freeBuffer port channel p).Inv := .modLink h

theorem OutInv.execPacketForward {port p} (h : s.Inv) : OutInv (execPacketForward port p s) := by
  unfold Machine.execPacketForward
  dsimp only
  split
  · exact .next (.logLine (.freeBuffer h))
  · exact .ite (.next (.logLine (.freeBuffer h))) (.next (.modLink h))

theorem OutInv.execOutputGrant {port} (h : s.Inv) : OutInv (execOutputGrant port s) := by
  unfold Machine.execOutputGrant
  refine .ite (.next h) ?_
  split
  · exact .next h
  · exact .next (.ite (.modLink h) (.freeBuffer (.modLink h)))

theorem State.Inv.linkFails {port} (h : s.Inv) : (s.linkFails port).Inv :=
  .reportLink (.logLine (.modLink (.fold h fun _ _ h1 => .freeBuffer h1)))

theorem State.Inv.handshake {port peer} (h : s.Inv) : (s.handshake port peer).Inv := by
  unfold State.handshake
  dsimp only
  split
  · exact .reportLink (.modLink h)
  · exact .linkFails h

/-! ## Management -/

theorem State.Inv.endLaunches {p reason} (h : s.Inv) : (s.endLaunches p reason).Inv := by
  unfold State.endLaunches
  refine .fold (.fold h fun _ _ h2 => .endTeam h2) fun _ _ h1 => ?_
  split
  · exact .ite (.launchDone h1) h1
  · exact h1

theorem State.Inv.repin (h : s.Inv) : (s.repin).Inv := h

theorem State.Inv.endContexts {p} (h : s.Inv) : (s.endContexts p).Inv := .resumeAll (.repin h)

theorem State.Inv.finishStreams (h : s.Inv) : (s.finishStreams).Inv :=
  .fold h fun _ _ h1 => .outState h1 (.ite (.execRestoreDone h1) (.execFreezeDone h1))

theorem State.Inv.putPres {x} (h : s.Inv) : (s.putPres x).Inv := .ite (.putTag (.store h)) h

theorem State.Inv.dropSegments {w} (h : s.Inv) : (s.dropSegments w).Inv :=
  .fold (.fold h fun _ _ h2 => .discardImage h2) fun _ _ h1 => .putPres h1

theorem State.Inv.poisonIntake {w} (h : s.Inv) : (s.poisonIntake w).Inv := .drainAll h

theorem State.Inv.forgetMemory {w} (h : s.Inv) : (s.forgetMemory w).Inv := by
  refine ⟨foldl_inv Memory.wf _ (fun m f hm => Memory.wf_clear m _ _ hm) _ _ ?_, h.2⟩
  refine foldl_inv Memory.wf _ (fun m g hm => ?_) _ _ h.1
  split
  · exact Memory.wf_clear m _ _ hm
  · exact hm

theorem State.Inv.resetWorld {w} (h : s.Inv) : (s.resetWorld w).Inv := by
  have h1 : s.finishStreams.Inv := .finishStreams h
  unfold State.resetWorld
  exact .withPkg (.endContexts (.modWorld (.forgetMemory (.poisonIntake (.withProxy (.dropSegments (.endLaunches
    (.fold h1 fun _ _ h2 => .quiesceParts h2))))))))

theorem OutInv.execTakeConfig {r} (h : s.Inv) : OutInv (execTakeConfig r s) := by
  unfold Machine.execTakeConfig
  split <;> exact .next (.reply h)

theorem State.Inv.loseConfig {port} (h : s.Inv) : (s.loseConfig port).Inv := .ite h h

theorem OutInv.owned {r : HostReq} {k : State → State × Nat × Nat} (h : s.Inv) (hk : ∀ t, t.Inv → (k t).1.Inv) :
    OutInv (s.owned r k) :=
  .ite (.next (.reply (hk _ h))) (.next (.reply h))

theorem OutInv.ownedWorld {r : HostReq} {world : W32} {k : State → Nat → State × Nat × Nat} (h : s.Inv)
    (hk : ∀ t a, t.Inv → (k t a).1.Inv) : OutInv (s.ownedWorld r world k) :=
  .owned h fun _ h1 => .iteFst (hk _ _ h1) h1

theorem State.Inv.createWorld {w} (h : s.Inv) : (s.createWorld w).Inv := .sequence (.modWorld h)

theorem OutInv.execCreate {r world} (h : s.Inv) : OutInv (execCreate r world s) := by
  unfold Machine.execCreate
  refine .owned h ?_
  intro _ h1
  refine .iteFst h1 ?_
  refine .iteFst ?_ (.iteFst h1 (.createWorld h1))
  split
  · exact .createWorld h1
  · exact h1

theorem OutInv.execDestroy {r world} (h : s.Inv) : OutInv (execDestroy r world s) := by
  refine .ownedWorld h fun _ _ h1 => ?_
  split
  · exact h1
  · exact .sequence (.modWorld (.resetWorld h1))

theorem State.Inv.redecipher {w b n} (h : s.Inv) : (s.redecipher w b n).Inv :=
  .fold h fun _ _ h1 => .ite h1 ⟨foldl_inv Memory.wf _ (fun m _ hm => Memory.wf_write m _ _ hm) _ _ h1.1, h1.2⟩

theorem State.Inv.rekeyRange {w b n enters} (h : s.Inv) : (s.rekeyRange w b n enters).Inv := .ite (.redecipher h) h

theorem OutInv.execThresholds {r world mask doldrums cold high low} (h : s.Inv) :
    OutInv (execThresholds r world mask doldrums cold high low s) :=
  .ownedWorld h fun _ _ h1 => .iteFst h1 h1

theorem OutInv.execKey {r world index mode ciphertext wrapped} (h : s.Inv) :
    OutInv (execKey r world index mode ciphertext wrapped s) := by
  unfold Machine.execKey
  refine .ownedWorld h ?_
  intro _ _ h1
  refine .iteFst h1 ?_
  refine .iteFst h1 ?_
  refine .iteFst (.sequence (.modWorld h1)) ?_
  split
  · exact .sequence (.modWorld h1)
  · exact h1

/-! ## The host -/

theorem State.Inv.setFn {x} (h : s.Inv) : (s.setFn x).Inv := h

theorem State.Inv.await {i} (h : s.Inv) : (s.await i).Inv := h

theorem State.Inv.unawait {i} (h : s.Inv) : (s.unawait i).Inv := h

theorem State.Inv.takes {port fn o} (h : s.Inv) : (s.takes port fn o).Inv := .setFn h

theorem State.Inv.message {port fn service bs} (h : s.Inv) : (s.message port fn service bs).Inv := by
  unfold State.message
  dsimp only
  split
  · exact h
  · exact .reply (.takes h)

theorem OutInv.execQueueNotify {port fn m} (h : s.Inv) : OutInv (execQueueNotify port fn m s) := by
  unfold Machine.execQueueNotify
  refine .ite (.next (.unawait h)) ?_
  refine .ite (.next (.await h)) ?_
  refine .next ?_
  split
  · exact .ite (.message (.unawait h)) (.unawait h)
  · exact .unawait h
  · exact .takes (.unawait h)

theorem State.Inv.unmapWorld {port world} (h : s.Inv) : (s.unmapWorld port world).Inv := .repin h

theorem State.Inv.resetFn {port fn} (h : s.Inv) : (s.resetFn port fn).Inv :=
  .ite (.unmapWorld (.fold h fun _ _ h1 => .reply h1)) (.fold h fun _ _ h2 => .reply h2)

theorem State.Inv.resetBound {port world} (h : s.Inv) : (s.resetBound port world).Inv := by
  unfold State.resetBound
  exact .tell (.sequence (.resetWorld h))

theorem OutInv.execLaunchFile {port q path threads waves teams prio} (h : s.Inv) :
    OutInv (execLaunchFile port q path threads waves teams prio s) := by
  unfold Machine.execLaunchFile
  refine .ite (.next (.await h)) ?_
  refine .ite (.next (.reply (.unawait h))) ?_
  split
  · exact .next (.submitFor (.unawait h))
  · exact .next (.reply (.unawait h))

theorem OutInv.execResidencyQuery {r ctx} (h : s.Inv) : OutInv (execResidencyQuery r ctx s) := by
  unfold Machine.execResidencyQuery
  split <;> exact .next (.reply h)

theorem OutInv.execResidencyReset {r ctx} (h : s.Inv) : OutInv (execResidencyReset r ctx s) := by
  unfold Machine.execResidencyReset
  split <;> exact .next (.reply h)

theorem State.Inv.whenPresent {i : Instr} {ctx : Nat} {pages : List Nat} {k : State → State} (h : s.Inv)
    (hk : ∀ t, t.Inv → (k t).Inv) : (s.whenPresent i ctx pages k).Inv :=
  .ite (hk _ (.unawait h)) (.await (.getD (.bringIn h) h))

theorem OutInv.execPin {r ctx name offset length} (h : s.Inv) : OutInv (execPin r ctx name offset length s) := by
  unfold Machine.execPin
  dsimp only
  split
  · exact .next (.reply (.unawait h))
  · refine .ite (.next (.reply (.unawait h))) ?_
    split
    · exact .next (.reply (.unawait h))
    · exact .next (.whenPresent (.of_someFst ‹_› (.needRec h)) fun _ h1 => .reply (.pinPages h1))

theorem OutInv.execEvict {r ctx name offset length} (h : s.Inv) : OutInv (execEvict r ctx name offset length s) := by
  unfold Machine.execEvict
  extract_lets answer i
  split
  · exact .next (.reply (.unawait h))
  · refine .ite (.next (.reply (.unawait h))) ?_
    cases s.recOf ctx _ with
    | none => exact .next (.reply (.unawait h))
    | some x =>
      dsimp only
      split <;> rename_i e
      · exact .next (.reply (.unawait (.of_fst e (.evictPages h))))
      · exact .next (.await (.of_fst e (.evictPages h)))

theorem OutInv.execFileCreate {port fn id path tensors} (h : s.Inv) : OutInv (execFileCreate port fn id path tensors s) := by
  unfold Machine.execFileCreate
  dsimp only
  split
  · exact .next (.reply h)
  · split
    · exact .next (.reply h)
    · exact .ite (.next (.reply h)) (.ite (.next (.reply h)) (.next (.reply (.sequence (.addObject h)))))

theorem State.Inv.modEntry {ctx obj f} (h : s.Inv) : (s.modEntry ctx obj f).Inv := .modCtx h

theorem State.Inv.rewrite {ctx obj offset bytes} (h : s.Inv) : (s.rewrite ctx obj offset bytes).Inv := by
  unfold State.rewrite
  split
  · exact .fold h fun _ _ h1 => .poke h1
  · exact .modEntry h

theorem State.Inv.settleRec {ctx obj} (h : s.Inv) : (s.settleRec ctx obj).Inv := by
  unfold State.settleRec
  split
  · exact .getD (.newRec (.modCtx h)) (.modCtx h)
  · exact h

theorem State.Inv.writeOpen {ctx obj offset bytes close} (h : s.Inv) : (s.writeOpen ctx obj offset bytes close).Inv :=
  .ite (.sequence (.settleRec (.modEntry h))) (.modEntry h)

theorem OutInv.execFileWrite {r ctx obj offset bytes close} (h : s.Inv) :
    OutInv (execFileWrite r ctx obj offset bytes close s) := by
  unfold Machine.execFileWrite
  dsimp only
  split
  · exact .next (.reply h)
  · exact .ite (.next (.reply h)) (.ite (.next (.reply h)) (.next (.reply (.ite (.rewrite h) (.writeOpen h)))))

theorem OutInv.execFileUnlink {r ctx obj} (h : s.Inv) : OutInv (execFileUnlink r ctx obj s) := by
  unfold Machine.execFileUnlink
  split
  · exact .next (.reply h)
  · exact .next (.reply (.sequence (.retire h)))

theorem State.Inv.clearWindow {r place length} (h : s.Inv) : (s.clearWindow r place length).Inv := h

theorem OutInv.execFuseSetupmapping {r file offset length place} (h : s.Inv) :
    OutInv (execFuseSetupmapping r file offset length place s) :=
    by
  unfold Machine.execFuseSetupmapping
  dsimp only
  split
  · exact .next (.reply (.unawait h))
  · split
    · exact .next (.reply (.unawait h))
    · exact .ite (.next (.reply (.unawait h))) (.next (.whenPresent (.of_someFst ‹_› (.needRec h)) fun _ h1 => .reply (.repin h1)))

theorem OutInv.execDaxAccess {port fn id place size bytes} (h : s.Inv) :
    OutInv (execDaxAccess port fn id place size bytes s) := by
  unfold Machine.execDaxAccess
  dsimp only
  split
  · exact .next (.unawait h)
  · refine .ite (.next (.unawait h)) ?_
    refine .ite (.next (.await h)) ?_
    split
    · refine .next ?_
      split
      · exact .store (.count (.unawait h))
      · exact .reply (.count (.unawait h))
    · exact .next (.await (.postOnce h))
    · exact .next (.await (.recallHome h))
    · exact .next (.await h)
    · exact .next (.ite (.reply (.unawait h)) (.unawait h))
    · exact .next (.unawait h)

/-! ## Bring-up -/

theorem State.Inv.started {image goodTiles} : (s.started image goodTiles).Inv := by
  unfold State.started
  exact .fold (.reserve (State.Inv.reset.of_eq rfl rfl)) fun _ _ h1 => .logLine h1

theorem OutInv.execRecoveryUpload {port u goodTiles} (h : s.Inv) : OutInv (execRecoveryUpload port u goodTiles s) := by
  unfold Machine.execRecoveryUpload
  refine .ite (.next (.logLine h)) ?_
  refine .ite (.next h) ?_
  split
  · exact .next h
  · exact .next (.fold (.ite .started (.logLine h)) fun _ _ h1 => .logLine h1)

theorem State.Inv.resetAll {w} (h : s.Inv) : (s.resetAll w).Inv := by
  unfold State.resetAll
  exact .fold (.sequence (.resetWorld (.fold h fun _ _ h1 => .resetFn h1))) fun _ _ h1 => .tell h1

theorem OutInv.execOvertemperature (h : s.Inv) : OutInv (execOvertemperature s) := by
  unfold Machine.execOvertemperature
  exact .next (.logLine (.fold h fun _ _ h1 => .ite (.resetAll h1) h1))

/-! ## Every operation -/

/-- An instruction with a word keeps the invariant: it is issued, and its effect on a group keeps it. -/
theorem OutInv.execWord {i : Instr} (hw : (encode i).isSome = true) (h : s.Inv) : OutInv (exec i s) := by
  unfold Machine.exec
  cases i
  all_goals dsimp only
  case nop | fence | ifence => exact .issue h fun _ _ h1 => h1
  case iadd | iaddImm | isub | isubImm => exact .sumOp h
  case imul | imulhi | idiv | irem | imin | imax | iabs | ineg => exact .intOp h
  case imulImm | iminImm | imaxImm => exact .intImmOp h
  case imad | iadd3 => exact .intOp3 h
  case iaddc => exact .issue h fun _ _ h1 => .modLanes (.writeD h1)
  case lea | icmp | icmpImm | isel | not | lop3 | shl | shlImm | bfe | bfi | popc | clz | brev | fclass | mov | movi | shuf | bcast |
      vote | shp | pnot | pmov | ptreq =>
    exact .lanesOp h
  case and | or | xor | pand | por | pxor => exact .bitOp h
  case andImm | orImm | xorImm => exact .bitImmOp h
  case shr | sar | rot => exact .shiftOp h
  case shrImm | sarImm | rotImm => exact .shiftImmOp h
  case fadd | fsub | fmul | fmin | fmax | fdiv => exact .fltOp h
  case faddImm | fsubImm | fmulImm | fminImm | fmaxImm => exact .fltImmOp h
  case ffma | fcmp | fcmpImm | fscale | cvt => exact .flagsOp h
  case fabs | fneg | frnd | fsqrt | frcp | frsq | fex2 | flg2 | fsin | fcos => exact .fltOp1 h
  case ballot => exact .issue h fun _ _ h1 => .writeD h1
  case rdsr => exact .issue h fun _ _ h1 => .ite (.modWave (.writeD h1)) (.writeD h1)
  case bra | brx | call | callx | ret => exact .issue h fun _ _ h1 => .transfer h1
  case join => exact .issue h fun _ _ h1 => .modLanes h1
  case yield => exact .issue h fun _ _ h1 => .ite h1 (.modLanes h1)
  case exit => exact .execExit h
  case hpush => exact .execHpush h
  case hpop => exact .issue h fun _ _ h1 => .raise (.fold (.modWave (.modLanes h1)) fun _ _ h2 => .ite (.bindFor h2) h2)
  case perf => exact .issue h fun _ _ h1 => .fold (.fold (.deliverAll h1) fun _ _ h3 => .block (.postPrivate h3)) fun _ _ h2 => .bindFor h2
  case resumet | resumec | resumek => exact .issue h fun _ _ h1 => .atTokens h1 fun _ _ h2 => .resumption h2
  case dropt => exact .issue h fun _ _ h1 => .atTokens h1 fun _ _ h2 => .raise (.fold h2 fun _ _ h3 => .consume h3)
  case tinfo => exact .issue h fun _ _ h1 => .atTokens h1 fun _ _ h2 => .raise (.writeD h2)
  case trap => exact .execTrap h
  case ld => exact .issue h fun _ _ h1 => .ldEffect h1
  case st => exact .issue h fun _ _ h1 => .eachLane h1 fun _ _ h2 => .writeFor h2
  case ldp => exact .issue h fun _ _ h1 => .ldpEffect h1
  case stp => exact .issue h fun _ _ h1 => .eachLane h1 fun _ _ h2 => .stpLane h2
  case ldt => exact .issue h fun _ _ h1 => .ldtEffect h1
  case pref => exact .issue h fun _ _ h1 => .fold h1 fun _ _ h2 => .prefLane h2
  case nameof => exact .execNameof h
  case atom => exact .issue h fun _ _ h1 => .atomEffect h1
  case atomc => exact .issue h fun _ _ h1 => .atomcEffect h1
  case red => exact .issue h fun _ _ h1 => .eachLane h1 fun _ _ h2 => .atomLane h2 fun _ _ _ h3 => h3
  case rstf => exact .issue h fun _ _ h1 => .eachLane h1 fun _ _ h2 => .rstfLane h2
  case exadd | exclr => exact .issue h fun _ _ h1 => .eachLane h1 fun _ _ h2 => .xaLane h2 fun _ _ _ h3 => .store h3
  case exrnd => exact .issue h fun _ _ h1 => .exrndEffect h1
  case bar => exact .issue h fun _ _ h1 => .barEffect h1
  case bara =>
    exact .issue h fun _ _ h1 => .ite h1 (.ite (.fold (.barrierFor h1) fun _ _ h2 => .waitPhase h2) (.fold (.modBarrier (.barrierFor
      h1)) fun _ _ h3 => .baraLane h3))
  case barw => exact .execBarw h
  case cbdef => exact .execCbdef h
  case cbacq => exact .issue h fun _ _ h1 => .cbacqEffect h1
  case cbrel => exact .issue h fun _ _ h1 => .onceFor h1 fun _ _ h2 => .cbrelFor h2
  case waitp => exact .issue h fun _ _ h1 => .waitpEffect h1
  case icinv => exact .execIcinv h
  case cpy | cpym | cpyw => exact .issue h fun _ _ h1 => .copyEffect h1
  case mma | mmasp => exact .issue h fun _ _ h1 => .matrixEffect h1
  case cwait => exact .issue h fun _ _ h1 => .cwaitEffect h1
  case tset => exact .issue h fun _ _ h1 => .tsetEffect h1
  case tget => exact .execTget h
  case tseal => exact .issue h fun _ _ h1 => .onceFor h1 fun _ _ h2 => .iteFst h2 (.iteFst h2 (.iteFst h2 (.setTensor h2)))
  case publ => exact .issue h fun _ _ h1 => .publEffect h1
  case cctl => exact .issue h fun _ _ h1 => .ite (.eachLane h1 fun _ _ h2 => .writeFor h2) h1
  case halt => exact .execHalt h
  all_goals cases hw

/-- Every operation keeps the invariant. -/
theorem OutInv.exec {i : Instr} (h : s.Inv) : OutInv (exec i s) := by
  by_cases hw : (encode i).isSome = true
  · exact .execWord hw h
  unfold Machine.exec
  cases i
  all_goals dsimp only
  case issueCycle => exact .execIssueCycle h
  case activeSetExchange => exact .execActiveSetExchange h
  case groupPromotion => exact .next (.ite (.modWave h) h)
  case trapDelivery => exact .execTrapDelivery h
  case joinRelease => exact .next (.modLanes h)
  case barrierPhaseComplete => exact .ite (.next (.ite (.pollWord h) h)) (.next (.ite (.raiseWord h) h))
  case waitpRelease => exact .execWaitpRelease h
  case cbacqRelease => exact .ite (.next (.modWave h)) (.next h)
  case cbSlotClaim => exact .next (.claim h)
  case commandAccept => exact .next (.accept h)
  case commandFinish => exact .execCommandFinish h
  case commandFailure => exact .next (.failCmd h)
  case faultAnswer => exact .execFaultAnswer h
  case translationInvalidate => exact .execTranslationInvalidate h
  case pageSectorArrival => exact .execPageSectorArrival h
  case pageDepart => exact .next (.ite h (.depart h))
  case watermarkDeparture => exact .ite (.next h) (.next (.fold h fun _ _ h1 => .ite (.depart h1) h1))
  case counterHalving => exact .ite (.next h) (.next h)
  case codeBind => exact .execCodeBind h
  case retentionExit => exact .next (.leaveRetention h)
  case launchSubmit => exact .next (.submitFor h)
  case launchEligibility => exact .execLaunchEligibility h
  case dispatchRound => exact .execDispatchRound h
  case launchAging => exact .execLaunchAging h
  case freeSlotAdvert => exact .next (.fold h fun _ _ h1 => .request h1)
  case teamTransfer => exact .execTeamTransfer h
  case shareComplete => exact .execShareComplete h
  case becalm => exact .execBecalm h
  case teamWake => exact .next (.wake (.ite (.unhalt h) h))
  case teamEnd => exact .next (.reportEnd h)
  case serviceDelivery => exact .next (.serveLane h fun _ _ h1 => .systemService h1)
  case svcLaunch => exact .next (.serveLane h fun _ _ h1 => .serveLaunch h1)
  case svcAlloc => exact .next (.serveLane h fun _ _ h1 => .serveAlloc h1)
  case svcConsole => exact .next (.serveLane h fun _ _ h1 => .serveConsole h1)
  case objectQuery | objectEvict | objectPin | objectUnpin | objectRetire | objectMakeWritable => exact .serveAction h
  case privateGrowth => exact .next (.growth h)
  case freeze => exact .execFreeze h
  case quiesce => exact .execQuiesce h
  case restore => exact .execRestore h
  case stop => exact .execStop h
  case start => exact .execStart h
  case discard => exact .execDiscard h
  case freezeDone => exact .execFreezeDone h
  case fzpcStop => exact .ite (.next (.modTile (.free h))) (.next h)
  case sliceRetry | memoryReply => exact .next (.retryLane h)
  case worldConfigWrite => exact .next (.writeWorlds h)
  case arrayZeroingDone => exact .next (.zeroed h)
  case registerWrite => exact .next (.writeControl h)
  case functionLevelReset => exact .ite (.next (.loseConfig (.resetFn h))) (.ite (.next (.resetBound (.resetFn h))) (.next (.resetFn h)))
  case launchFile => exact .execLaunchFile h
  case launchRecord => exact .next (.ite (.await h) (.submitFor (.unawait h)))
  case takeConfig => exact .execTakeConfig h
  case giveConfig | attest => exact .ite (.next (.reply h)) (.next (.reply h))
  case create => exact .execCreate h
  case destroy => exact .execDestroy h
  case grant => exact .ownedWorld h fun _ _ h1 => .iteFst h1 (.iteFst h1 (.sequence (.modWorld (.rekeyRange h1))))
  case revoke => exact .ownedWorld h fun _ _ h1 => .iteFst h1 (.iteFst h1 (.iteFst h1 (.sequence (.modWorld (.ite (.rekeyRange h1) h1)))))
  case bind => exact .ownedWorld h fun _ _ h1 => .iteFst h1 (.iteFst h1 (.sequence (.modWorld h1)))
  case thresholds => exact .execThresholds h
  case auth => exact .ownedWorld h fun _ _ h1 => .iteFst h1 (.sequence (.modWorld h1))
  case key => exact .execKey h
  case residencyQuery => exact .execResidencyQuery h
  case residencyReset => exact .execResidencyReset h
  case pin => exact .execPin h
  case evict => exact .execEvict h
  case queueNotify => exact .execQueueNotify h
  case fileCreate => exact .execFileCreate h
  case fileWrite => exact .execFileWrite h
  case fileUnlink => exact .execFileUnlink h
  case fuseSetupmapping => exact .execFuseSetupmapping h
  case fuseRemovemapping => exact .next (.reply (.repin (.clearWindow h)))
  case daxAccess => exact .execDaxAccess h
  case replyReceive => exact .execReplyReceive h
  case readPacket | writePacket | atomicPacket | xaPacket | rstfPacket | grantPacket | recallPacket | pagePacket | teamPacket |
      advertPacket | launchPacket | commitPacket | abortPacket | managerPacket =>
    exact .arrivePacket h
  case launchAnswerTimeout => exact .execLaunchAnswerTimeout h
  case managerElection => exact .next (.takeManager (.tellPeers h))
  case routeCompute =>
    exact .ite (.next h) (.next (.sequence (.reportLost (.fold (.fold h fun _ _ h3 => .fold h3 fun _ _ h4 => .request h4) fun _ _ h1
      => .fold h1 fun _ _ h2 => .ite (.logLine h2) h2))))
  case packetForward => exact .execPacketForward h
  case outputGrant => exact .execOutputGrant h
  case requestResend => exact .execRequestResend h
  case frameReceive =>
    exact .ite (.next h) (.ite (.next (.modLink h)) (.ite (.ite (.next (.ite (.linkFails (.modLink h)) (.reportLink (.modLink h))))
      (.next (.modLink h))) (.next h)))
  case frameClose => exact .ite (.next h) (.next (.modLink h))
  case nakResend => exact .next (.modLink h)
  case softError => exact .execSoftError h
  case restoreDone => exact .execRestoreDone h
  case contextCreate => exact .ite (.next h) (.next (.sequence (.blank h)))
  case contextDestroy => exact .next (.sequence (.endContexts (.endLaunches h)))
  case heartbeat => exact .next (.ite (.tellPeers h) h)
  case overtemperature => exact .execOvertemperature h
  case replicaChange => exact .next (.sequence h)
  case powerOn => exact .ite (.next .started) (.next .started)
  case recoveryUpload => exact .execRecoveryUpload h
  case thermalThrottle => exact .next (.modDie h)
  case d2dLinkTraining => exact .ite (.next h) (.ite (.next h) (.next (.logLine (.reserve (.modDie h)))))
  case isrStatusRead => exact .next (.readGives (.setFn h))
  case refusedRead => exact .next (.readGives (.readWorlds h))
  case portLinkDown => exact .next (.loseConfig h)
  case deviceFunctionReset => exact .next (.ite (.loseConfig (.resetFn h)) (.resetFn h))
  case featuresOk => exact .next (.setFn h)
  case linkTraining => exact .ite (.next (.modLink h)) (.next (.linkFails h))
  case linkDown => exact .next (.linkFails h)
  case linkHandshake | linkRekey => exact .next (.ite (.handshake h) h)
  case retentionEntry => exact .next (.ite h (.modTile h))
  all_goals exact absurd rfl hw

/-! ## Events -/

theorem State.Inv.nextOp (h : s.Inv) : (s.nextOp).2.Inv := by
  unfold State.nextOp
  split <;> exact h

/-! ## A step -/

theorem OutInv.step (h : s.Inv) : OutInv (step s) := by
  unfold Machine.step
  split
  · split
    · split
      · split <;> rename_i e
        · have h1 := (State.refile_bytes e).inv h
          exact .afterSlot h1 (.exec h1)
        · exact .next (.spoilt h)
        · exact .next (.detain h)
      · exact .next (.illegalWord h)
    · exact .next (.fetchFails h)
  · exact .settleOut (.exec (.nextOp h))

end

/-- Settles O9: `OutInv.step`, by what every function that a step calls does to memory and to the bytes at the homes. -/
theorem stepsKeepTheInvariant : Obligations.StepsKeepTheInvariant := by
  unfold Obligations.StepsKeepTheInvariant
  exact fun s t h e => OutInv.step h t e

/-- Settles O10: memory and the bytes at the homes are empty after reset. -/
theorem resetMeetsTheInvariant : Obligations.ResetMeetsTheInvariant := by
  unfold Obligations.ResetMeetsTheInvariant
  exact State.Inv.reset

end Sys2Proof.Machine

/-! SUPPORT. Retention, soft errors and repeated accesses (R297, R298, R303). -/

namespace Sys2Proof.Machine

/-! ## Accesses that are performed again (R303) -/

/-- A lane that waited for arrays of the package leaves its wait. -/
theorem State.retryLane_goesOn {s : State} {w l tile : Nat} (h : (s.thread w l).wait = .array tile) : goesOn (s.retryLane w l) w l := by
  have hne : (s.thread w l).wait ≠ .none := by rw [h]; exact Wait.noConfusion
  have hretry : s.retryLane w l = s.modWave w fun wv => wv.resumeLanes fun t => t == s.thread w l := by
    simp only [State.retryLane, h, if_true]
  rw [hretry]
  unfold goesOn State.thread
  rw [State.wave_modWave _ _ _ (State.lt_of_wait hne)]
  exact Wave.wait_resumeLanes _ _ l (Wave.lt_of_wait hne) (decide_eq_true rfl)

/-! ## Retention (R297) -/

/-- The arrays of a tile are in normal operation once it leaves retention. -/
theorem State.retention_leaveRetention {s : State} {tile : Nat} (h : tile < s.tiles.length) :
    ((s.leaveRetention tile).tile tile).retention = .normal := by
  have htile : (s.leaveRetention tile).tile tile = { s.tile tile with retention := .normal } := State.tile_modTile s tile _ h
  rw [htile]

/-! ## Soft errors (R298) -/

section
variable {s : State} {array : SoftArray} {place bits : Nat}

/-- The state with an entry more in the package's log. -/
def State.noted (s : State) (e : LogEntry) : State := { s with pkg := { s.pkg with log := s.pkg.log ++ [e] } }

/-- One bit in error is corrected in every array, retained or not. -/
theorem execSoftError_one (h : array ≠ .cleanLine) : execSoftError array place 1 s = .next (s.noted (.correctedError array place)) := by
  unfold execSoftError
  rw [if_neg (by simp [h]), if_pos (by split <;> decide)]
  rfl

/-- Three bits in error are corrected nowhere. -/
theorem execSoftError_many (h : array ≠ .cleanLine) (hbits : 3 ≤ bits) : execSoftError array place bits s =
    .next (if array = .regfile then
        { s.noted (.uncorrectable array place) with
          regPoison := s.regPoison ++ [(place / 2 ^ 17, place / 2 ^ 10 % 2 ^ 7, place % 2 ^ 10)] }
      else { s.noted (.uncorrectable array place) with
          poison := if s.poison.contains place then s.poison else s.poison ++ [place] }) := by
  have hnot : ∀ kept : Bool, ¬ bits ≤ (if kept = true then 2 else 1) := by
    intro kept
    split <;> omega
  unfold execSoftError
  rw [if_neg (by simp [h]; omega), if_neg (hnot _)]
  cases array <;> rfl

end

/-- The number of a register's place names its wave, its lane and the register. -/
theorem place_of_register {w l r : Nat} (hl : l < 128) (hr : r < 1024) :
    ((w * 2 ^ 17 + l * 2 ^ 10 + r) / 2 ^ 17, (w * 2 ^ 17 + l * 2 ^ 10 + r) / 2 ^ 10 % 2 ^ 7, (w * 2 ^ 17 + l * 2 ^ 10 + r) % 2 ^ 10) =
      (w, l, r) := by
  have hwave : (w * 2 ^ 17 + l * 2 ^ 10 + r) / 2 ^ 17 = w := by omega
  have hlane : (w * 2 ^ 17 + l * 2 ^ 10 + r) / 2 ^ 10 % 2 ^ 7 = l := by omega
  have hreg : (w * 2 ^ 17 + l * 2 ^ 10 + r) % 2 ^ 10 = r := by omega
  rw [hwave, hlane, hreg]

/-- The poisoned lines after an error in one: that line and those before. -/
theorem mem_addPlace {ps : List Nat} {place : Nat} : place ∈ (if ps.contains place then ps else ps ++ [place]) ∧
    ∀ p ∈ ps, p ∈ (if ps.contains place then ps else ps ++ [place]) := by
  split
  · next h => exact ⟨by simpa using h, fun p hp => hp⟩
  · exact ⟨by simp, fun p hp => by simp [hp]⟩

/-- Settles O41: what leaves retention wakes the lanes that waited, an error is corrected by its count of bits, and a repeated access leaves
its lane's wait. -/
theorem retentionSoftErrorsAndRetries : Obligations.RetentionSoftErrorsAndRetries := by
  unfold Obligations.RetentionSoftErrorsAndRetries
  refine ⟨?_, ?_, ?_, ?_, ?_, ?_⟩
  · intro s tile _ hfree
    exact congrArg Host.Outcome.next (if_neg (by simp [hfree]))
  · intro s tile htile
    exact ⟨_, rfl, State.retention_leaveRetention htile, fun w l hwait => State.wakeArray_goesOn _ tile w l hwait⟩
  · intro s array place harray
    exact execSoftError_one harray
  · intro s array place bits harray hreg hbits
    refine ⟨_, (execSoftError_many harray hbits).trans (by rw [if_neg hreg]), ?_, ?_, rfl⟩
    · exact mem_addPlace.1
    · exact mem_addPlace.2
  · intro s w l r bits hl hr hbits
    refine ⟨_, (execSoftError_many (by simp) hbits).trans (by rw [if_pos rfl]), ?_⟩
    rw [place_of_register hl hr]
  · intro s w l tile hwait
    exact ⟨⟨_, rfl, State.retryLane_goesOn hwait⟩, _, rfl, State.retryLane_goesOn hwait⟩

end Sys2Proof.Machine

/-! SUPPORT. Pages that arrive and depart (R285, R286, R294): the bytes that a copy leaves alone, a fold of requests, and the counters. -/

namespace Sys2Proof.Machine

/-! ## Bytes outside a range that is copied -/

theorem Memory.byte_clear_other (m : List Host.Cell) {k n j : Nat} (h : j < k ∨ k + n ≤ j) :
    Memory.byte (Memory.clear m k n) j = Memory.byte m j := by
  unfold Memory.byte Memory.clear
  induction m with
  | nil => rfl
  | cons e m ih =>
    obtain ⟨key, v⟩ := e
    by_cases hkey : key < k ∨ k + n ≤ key
    · rw [List.filter_cons_of_pos (by simpa using hkey), Sparse.get, Sparse.get, ih]
    · rw [List.filter_cons_of_neg (by simpa using hkey), Sparse.get, ih, if_neg (by omega)]

theorem Memory.byte_paste_other (m : List Host.Cell) {k n j : Nat} (cells : List Host.Cell) (h : j < k ∨ k + n ≤ j) :
    Memory.byte (Memory.paste m k n cells) j = Memory.byte m j := by
  unfold Memory.paste
  refine foldl_inv (fun x => Memory.byte x j = Memory.byte m j) _ (fun x c hx => ?_) cells _ (Memory.byte_clear_other m h)
  split
  · rw [Memory.byte_setByte, if_neg (by omega), hx]
  · exact hx

/-! ## Requests (R333) -/

/-- The parts of the state but the fabric are the same, and so are the sectors under way. -/
def onlySent (s t : State) : Prop := t = { s with fabric := t.fabric } ∧ t.fabric.coming = s.fabric.coming

theorem onlySent.refl (s : State) : onlySent s s := ⟨rfl, rfl⟩

theorem onlySent.request {s t : State} (h : onlySent s t) (p : Packet) : onlySent s (t.request p) := by
  obtain ⟨hrest, hcoming⟩ := h
  exact ⟨congrArg (fun u : State => { u with fabric := (t.request p).fabric }) hrest, hcoming⟩

/-- A fold whose steps send requests changes the fabric alone. -/
theorem onlySent.foldl {α : Type} {s t : State} (h : onlySent s t) (f : State → α → State)
    (hf : ∀ u a, onlySent s u → onlySent s (f u a)) (l : List α) : onlySent s (l.foldl f t) :=
  foldl_inv (onlySent s) f hf l t h

theorem onlySent.sendSector {s t : State} (h : onlySent s t) (e : FrameEntry) (i : Nat) : onlySent s (t.sendSector e i) :=
  h.foldl _ (fun _ _ hu => hu.request _) _

theorem onlySent.frameOf {s t : State} (h : onlySent s t) : t.frameOf = s.frameOf := by
  rw [h.1]
  rfl

theorem onlySent.mem {s t : State} (h : onlySent s t) : t.mem = s.mem := by rw [h.1]

theorem onlySent.home {s t : State} (h : onlySent s t) : t.home = s.home := by rw [h.1]

/-! ## Lanes that wait for a page -/

/-- What resumes the lanes that pass a test, with the waves of a state, lets the lanes of that state that pass it go on. -/
theorem State.goesOn_of_waves {s u : State} (p : Thread → Bool) {w l : Nat} (hu : u.waves = s.waves) (hwait : (s.thread w l).wait ≠ .none)
    (hp : p (s.thread w l) = true) : goesOn (u.resumeAll p) w l := by
  have hthread : u.thread w l = s.thread w l := by simp only [State.thread, State.wave, hu]
  exact u.resumeAll_goesOn p w l (hthread ▸ hwait) (hthread ▸ hp)

/-- Whether a thread waits for a sector of a page. -/
def Thread.awaitsSector (page sector : Nat) (t : Thread) : Bool :=
  match t.wait with
  | .page p x => p == page && x == sector
  | _ => false

/-- Whether a thread waits for a page. -/
def Thread.awaitsPage (page : Nat) (t : Thread) : Bool :=
  match t.wait with
  | .page p _ => p == page
  | _ => false

theorem Thread.awaitsSector_of_wait {t : Thread} {page sector : Nat} (h : t.wait = .page page sector) :
    t.awaitsSector page sector = true := by
  unfold Thread.awaitsSector
  simp [h]

theorem Thread.awaitsPage_of_wait {t : Thread} {page k : Nat} (h : t.wait = .page page k) : t.awaitsPage page = true := by
  unfold Thread.awaitsPage
  simp [h]

/-! ## Arrival (R285, R286) -/

section
variable {s : State} {page sector frame : Nat}

theorem State.frameOf_setFrame (s : State) (page : Nat) (e : FrameEntry) : (s.setFrame page e).frameOf page = e :=
  (Sparse.get_set _ _ _ _ _).trans (if_pos rfl)

/-- The entry under which a page takes its next sector: the one it has, or a free frame with no sector yet. -/
def FrameEntry.forSector (e : FrameEntry) (frame : Nat) : FrameEntry :=
  if e.state = .absent then { e with frame := frame, smask := 0 } else e

/-- An entry with one sector more. -/
def FrameEntry.withSector (e : FrameEntry) (sector : Nat) : FrameEntry :=
  let mask := e.smask ||| BitVec.ofNat 32 (2 ^ sector)
  { e with smask := mask, state := if mask = BitVec.allOnes 32 then .present else .arriving }

theorem State.frameOf_landSector (s : State) (page sector : Nat) (e : FrameEntry) :
    (s.landSector page sector e).frameOf page = e.withSector sector :=
  State.frameOf_setFrame _ page _

/-- The sector's bytes are those of the page's home, or none where the page has no home. -/
theorem State.byte_landSector (hwf : Memory.wf s.home) (e : FrameEntry) {i : Nat} (hi : i < 2048) :
    Memory.byte (s.landSector page sector e).mem (e.frame * 65536 + sector * 2048 + i) =
      if e.hkind = 0 then emptyByte else Memory.byte s.home (homeKey e (sector * 2048) + i) := by
  have hmem : (s.landSector page sector e).mem =
      Memory.paste s.mem (e.frame * 65536 + sector * 2048) 2048 (s.homeSector e sector) := rfl
  rw [hmem]
  unfold State.homeSector
  split
  · exact Memory.byte_clear _ _ _ _ hi
  · rw [Memory.paste, Memory.byte_paste_cells hwf _ _ _ _ _ hi, Memory.byte_clear _ _ _ _ hi]
    rfl

/-- The lanes that waited for the sector go on. -/
theorem State.landSector_goesOn {e : FrameEntry} {w l : Nat} (h : (s.thread w l).wait = .page page sector) :
    goesOn (s.landSector page sector e) w l :=
  State.goesOn_of_waves (s := s) (Thread.awaitsSector page sector) rfl (by rw [h]; exact Wait.noConfusion)
    (Thread.awaitsSector_of_wait h)

theorem State.mayLand_of_due (hv : (s.frameOf page).v = true) (hdirect : (s.frameOf page).direct = false) (hsector : sector < 32)
    (hnext : s.nextSector page (s.frameOf page) = none ∨ s.nextSector page (s.frameOf page) = some sector)
    (hframe : (s.frameOf page).state = .absent ∧ s.frameFree page frame = true ∨
      (s.frameOf page).state = .arriving ∧ (s.frameOf page).frame = frame) : s.mayLand page sector frame = true := by
  unfold State.mayLand
  rcases hnext with hnext | hnext <;> rcases hframe with ⟨hstate, hframe⟩ | ⟨hstate, hframe⟩ <;>
    simp [hv, hdirect, hsector, hnext, hstate, hframe]

/-- A sector that may land is laid into the frame that the entry names then. -/
theorem State.land_eq (hmay : s.mayLand page sector frame = true) : ∃ u : State, u.home = s.home ∧ u.thread = s.thread ∧
    s.land page sector frame = u.landSector page sector ((s.frameOf page).forSector frame) := by
  unfold State.land FrameEntry.forSector
  rw [if_neg (by simp [hmay])]
  by_cases hstate : (s.frameOf page).state = .absent
  · rw [if_pos hstate, if_pos hstate]
    exact ⟨{ s with counters := Sparse.set 0 s.counters frame 0, dirty := s.dirty.filter (· != frame) }, rfl, rfl, rfl⟩
  · rw [if_neg hstate, if_neg hstate]
    exact ⟨s, rfl, rfl, rfl⟩

theorem exec_arrival_unreached (hmay : s.mayLand page sector frame = true) (hreached : s.homeReached (s.frameOf page) = false) :
    exec (.pageSectorArrival page sector frame) s = .next (s.land page sector frame) := by
  change execPageSectorArrival page sector frame s = _
  unfold execPageSectorArrival
  rw [if_neg (by simp [hmay]), if_pos (by simp [hreached])]

/-- PAGE packets ask a page's home for a sector (R286). -/
def State.askSector (s : State) (e : FrameEntry) (sector : Nat) : State :=
  (List.range (2048 / pageChunk)).foldl (fun u i => u.request (u.pagePacket e (2048 * sector + pageChunk * i) 0 [])) s

theorem onlySent.askSector (s : State) (e : FrameEntry) (sector : Nat) : onlySent s (s.askSector e sector) :=
  (onlySent.refl s).foldl _ (fun _ _ hu => hu.request _) _

/-- A sector is under way. -/
def State.addComing (s : State) (c : Nat × Nat × Nat) : State :=
  { s with fabric := { s.fabric with coming := s.fabric.coming ++ [c] } }

theorem exec_arrival_reached (hmay : s.mayLand page sector frame = true) (hreached : s.homeReached (s.frameOf page) = true)
    (hcoming : (page, sector, frame) ∉ s.fabric.coming) : exec (.pageSectorArrival page sector frame) s =
      .next ((s.askSector (s.frameOf page) sector).addComing (page, sector, frame)) := by
  change execPageSectorArrival page sector frame s = _
  unfold execPageSectorArrival
  rw [if_neg (by simp [hmay]), if_neg (by simp [hreached]), if_neg (by simpa using hcoming)]
  rfl

theorem onlySent.addComing {t : State} (h : onlySent s t) (c : Nat × Nat × Nat) : (t.addComing c).fabric.coming = s.fabric.coming ++ [c] ∧
    t.addComing c = { s with fabric := (t.addComing c).fabric } := by
  obtain ⟨hrest, hcoming⟩ := h
  exact ⟨congrArg (· ++ [c]) hcoming, congrArg (fun u : State => { u with fabric := (t.addComing c).fabric }) hrest⟩

end

/-! ## Departure (R286, R294) -/

section
variable {s : State} {page : Nat}

/-- The bytes of one sector are laid at the page's home. -/
def State.sectorHome (s : State) (e : FrameEntry) (i : Nat) : State :=
  { s with
    home := Memory.paste s.home (homeKey e (2048 * i)) 2048 (Memory.cut s.mem (e.frame * 65536 + 2048 * i) 2048)
    homePoison := moveMarks s.homePoison s.poison (homeKey e (2048 * i) / 64) ((e.frame * 65536 + 2048 * i) / 64) 32 }

theorem State.sectorsHome_eq (s : State) (e : FrameEntry) :
    s.sectorsHome e = ((List.range 32).filter fun i => e.smask.getLsbD i).foldl (fun u i => u.sectorHome e i) s := rfl

theorem State.mem_sectorsHome (s : State) (e : FrameEntry) : (s.sectorsHome e).mem = s.mem :=
  foldl_inv (fun t : State => t.mem = s.mem) (fun u i => u.sectorHome e i) (fun _ _ h => h) _ s rfl

theorem State.sectorsHome_waves (s : State) (e : FrameEntry) : (s.sectorsHome e).waves = s.waves :=
  foldl_inv (fun t : State => t.waves = s.waves) (fun u i => u.sectorHome e i) (fun _ _ h => h) _ s rfl

theorem homeKey_add (e : FrameEntry) (o : Nat) : homeKey e o = homeKey e 0 + o := by simp [homeKey]

/-- The bytes of a sector at the page's home, once it was laid there. -/
theorem State.byte_sectorHome_own (hwf : Memory.wf s.mem) (e : FrameEntry) (i : Nat) :
    Memory.byte (s.sectorHome e (i / 2048)).home (homeKey e 0 + i) = Memory.byte s.mem (e.frame * 65536 + i) := by
  have hsplit : 2048 * (i / 2048) + i % 2048 = i := Nat.div_add_mod i 2048
  have hplace : homeKey e 0 + i = homeKey e (2048 * (i / 2048)) + i % 2048 := by rw [homeKey_add e (2048 * (i / 2048))]; omega
  rw [hplace]
  refine (Memory.byte_paste_cells hwf _ _ _ _ _ (Nat.mod_lt _ (by decide))).trans ?_
  rw [Memory.byte_clear _ _ _ _ (Nat.mod_lt _ (by decide))]
  exact congrArg (Memory.byte s.mem) (by omega)

theorem State.byte_sectorHome_other (s : State) (e : FrameEntry) {i j : Nat} (h : j ≠ i / 2048) :
    Memory.byte (s.sectorHome e j).home (homeKey e 0 + i) = Memory.byte s.home (homeKey e 0 + i) :=
  Memory.byte_paste_other _ _ (by rw [homeKey_add e (2048 * j)]; omega)

/-- A byte of a sector that is here is at the page's home afterwards: its own sector brings it, and the others leave it alone. -/
theorem State.byte_sectorsHome (hwf : Memory.wf s.mem) (e : FrameEntry) {i : Nat} (hi : i < 65536)
    (hbit : e.smask.getLsbD (i / 2048) = true) :
    Memory.byte (s.sectorsHome e).home (homeKey e 0 + i) = Memory.byte s.mem (e.frame * 65536 + i) := by
  have hmem : i / 2048 ∈ (List.range 32).filter fun j => e.smask.getLsbD j :=
    List.mem_filter.mpr ⟨List.mem_range.mpr (by omega), hbit⟩
  have hown : ∀ t : State, t.mem = s.mem →
      Memory.byte (t.sectorHome e (i / 2048)).home (homeKey e 0 + i) = Memory.byte s.mem (e.frame * 65536 + i) := by
    intro t ht
    rw [State.byte_sectorHome_own (ht ▸ hwf), ht]
  rw [State.sectorsHome_eq]
  refine (foldl_reaches (fun u j => u.sectorHome e j) (fun t : State => t.mem = s.mem)
    (fun t : State => t.mem = s.mem ∧ Memory.byte t.home (homeKey e 0 + i) = Memory.byte s.mem (e.frame * 65536 + i))
    (fun _ _ ht => ht) (fun t j ht => ⟨ht.1, ?_⟩) (i / 2048) (fun t ht => ⟨ht, hown t ht⟩) _ hmem s rfl).2
  by_cases hj : j = i / 2048
  · rw [hj]
    exact hown t ht.1
  · exact (State.byte_sectorHome_other t e hj).trans ht.2

theorem State.frameOf_unframed (s : State) (page : Nat) (e : FrameEntry) :
    (s.unframed page e).frameOf page = { e with state := .absent, smask := 0, frame := 0 } :=
  State.frameOf_setFrame _ page _

/-- The lanes that waited for a page look again once it has left its frame. -/
theorem State.unframed_goesOn {u : State} {e : FrameEntry} {w l k : Nat} (hu : u.waves = s.waves)
    (h : (s.thread w l).wait = .page page k) : goesOn (u.unframed page e) w l :=
  State.goesOn_of_waves (s := s) (Thread.awaitsPage page) hu (by rw [h]; exact Wait.noConfusion) (Thread.awaitsPage_of_wait h)

/-- A page of backed space that is present departs: at once, or by packets that reach its home. -/
theorem State.depart_present (hv : (s.frameOf page).v = true) (hkind : (s.frameOf page).hkind ≠ 0)
    (hstate : (s.frameOf page).state = .present) : s.depart page =
      if s.dirty.contains (s.frameOf page).frame && s.homeReached (s.frameOf page) then
        ((List.range 32).filter fun i => (s.frameOf page).smask.getLsbD i).foldl (fun u i => u.sendSector (s.frameOf page) i)
          ((s.stopComing page).setFrame page { s.frameOf page with state := .departing })
      else (s.stopComing page).departed page := by
  rw [State.depart_eq]
  exact if_neg (by simpa [hv, hstate] using hkind)

/-- What the end of a departure does (R286). -/
structure Departed (s t : State) (page : Nat) : Prop where
  entry : t.frameOf page = { s.frameOf page with state := .absent, smask := 0, frame := 0 }
  mem : t.mem = s.mem
  clean : s.dirty.contains (s.frameOf page).frame = false → t.home = s.home
  written : s.dirty.contains (s.frameOf page).frame = true → ∀ i, i < 65536 → (s.frameOf page).smask.getLsbD (i / 2048) = true →
    Memory.byte t.home (homeKey (s.frameOf page) 0 + i) = Memory.byte s.mem ((s.frameOf page).frame * 65536 + i)
  waiters : ∀ w l k, (s.thread w l).wait = .page page k → goesOn t w l

theorem State.departed_does (hwf : Memory.wf s.mem) (page : Nat) : Departed s (s.departed page) page := by
  rw [State.departed_eq]
  by_cases hdirty : s.dirty.contains (s.frameOf page).frame = true
  · rw [if_pos hdirty]
    exact
      { entry := State.frameOf_unframed ..
        mem := State.mem_sectorsHome s _
        clean := fun h => absurd (hdirty.symm.trans h) (by decide)
        written := fun _ i hi hbit => State.byte_sectorsHome hwf _ hi hbit
        waiters := fun w l k h => State.unframed_goesOn (State.sectorsHome_waves s _) h }
  · rw [if_neg hdirty]
    exact
      { entry := State.frameOf_unframed ..
        mem := rfl
        clean := fun _ => rfl
        written := fun h => absurd h hdirty
        waiters := fun w l k h => State.unframed_goesOn rfl h }

/-- PAGE packets that take the bytes home leave memory, the homes and the entry alone. -/
theorem State.sendSectors_leave (s : State) (e : FrameEntry) (l : List Nat) : onlySent s (l.foldl (fun u i => u.sendSector e i) s) :=
  (onlySent.refl s).foldl _ (fun _ _ hu => hu.sendSector e _) l

end

/-! ## Counters (R293, R294) -/

/-- A map whose values are changed one by one, and from which the default is left out. -/
theorem Sparse.get_map_filter {α : Type} [DecidableEq α] (d : α) (g : Nat → α → α) (hd : ∀ j, g j d = d) (m : Sparse α)
    (h : Sparse.wf d m = true) (j : Nat) :
    Sparse.get d ((m.map fun e => (e.1, g e.1 e.2)).filter fun e => e.2 != d) j = g j (Sparse.get d m j) := by
  induction m with
  | nil => exact (hd j).symm
  | cons e m ih =>
    obtain ⟨k, v⟩ := e
    obtain ⟨_, hkeys, hrest⟩ := (Sparse.wf_cons d k v m).mp h
    rw [List.map_cons]
    by_cases hv : g k v = d
    · rw [List.filter_cons_of_neg (by simp [hv]), ih hrest, Sparse.get]
      split
      · next hk =>
        subst hk
        rw [Sparse.get_of_not_mem d m k fun e he => (Nat.ne_of_lt (hkeys e he)).symm, hd, hv]
      · rfl
    · rw [List.filter_cons_of_pos (by simp [hv]), Sparse.get, Sparse.get, ih hrest]
      split
      · next hk => rw [hk]
      · rfl

/-- A counter after its stack's halving. -/
def halvedCounter (stack frame : Nat) (c : BitVec 16) : BitVec 16 :=
  if frame * 65536 / 2 ^ 36 = stack then BitVec.ofNat 16 (c.toNat / 2) else c

theorem halvedCounter_zero (stack frame : Nat) : halvedCounter stack frame 0 = 0 := by
  unfold halvedCounter
  split <;> rfl

/-! ## The obligation -/

theorem pageSectorArrival_lands {s : State} {page sector frame : Nat} (hwf : Memory.wf s.home)
    (hmay : s.mayLand page sector frame = true) (hreached : s.homeReached (s.frameOf page) = false)
    (hframe : (s.frameOf page).state = .absent ∨ (s.frameOf page).frame = frame) :
    let e := s.frameOf page
    let m : W32 := (if e.state = .absent then 0 else e.smask) ||| BitVec.ofNat 32 (2 ^ sector)
    ∃ t, exec (.pageSectorArrival page sector frame) s = .next t ∧
      t.frameOf page = { e with frame := frame, smask := m, state := if m = BitVec.allOnes 32 then .present else .arriving } ∧
      (∀ i, i < 2048 → Memory.byte t.mem (frame * 65536 + sector * 2048 + i) =
        if e.hkind = 0 then emptyByte else Memory.byte s.home (homeKey e (sector * 2048) + i)) ∧
      ∀ w l, (s.thread w l).wait = .page page sector → goesOn t w l := by
  intro e m
  obtain ⟨u, hhome, hthread, hland⟩ := State.land_eq hmay
  have hentry : e.forSector frame = { e with frame := frame, smask := if e.state = .absent then 0 else e.smask } := by
    unfold FrameEntry.forSector
    split
    · rfl
    · next hstate => rw [← hframe.resolve_left hstate]
  refine ⟨_, exec_arrival_unreached hmay hreached, ?_, fun i hi => ?_, fun w l hwait => ?_⟩
  · rw [hland, State.frameOf_landSector, hentry]
    rfl
  · have hbyte := State.byte_landSector (page := page) (sector := sector) (hhome ▸ hwf) (e.forSector frame) hi
    rw [hland, ← hhome]
    rw [hentry] at hbyte ⊢
    exact hbyte
  · rw [hland]
    exact State.landSector_goesOn (by rw [hthread, hwait])

/-- Settles O39: a sector is laid into its frame, a departure copies the sectors home or sends them, and the counters of a stack are
halved. -/
theorem pagesArriveAndDepart : Obligations.PagesArriveAndDepart := by
  unfold Obligations.PagesArriveAndDepart
  refine ⟨?_, ?_, ?_, ?_⟩
  · intro s page sector frame e m hwf hv hdirect hsector hnext hframe
    have hmay := State.mayLand_of_due hv hdirect hsector hnext hframe
    refine ⟨fun hreached => ?_, fun hreached hcoming =>
      ⟨_, exec_arrival_reached hmay hreached hcoming, (onlySent.askSector s e sector).addComing _⟩⟩
    exact pageSectorArrival_lands hwf hmay hreached (hframe.imp And.left And.right)
  · intro s page e hmem hhome hexempt hv hkind hstate
    have hstep : exec (.pageDepart page) s = .next (s.depart page) := congrArg Host.Outcome.next (if_neg (by simp [hexempt]))
    rw [State.depart_present hv hkind hstate] at hstep
    refine ⟨fun hnow => ?_, fun hsent => ?_⟩
    · rw [if_neg (by simp [e] at hnow ⊢; exact hnow)] at hstep
      obtain ⟨hentry, hsame, hclean, hwritten, hwaiters⟩ := State.departed_does (s := s.stopComing page) hmem page
      exact ⟨_, hstep, hentry, hsame, hclean, hwritten, hwaiters⟩
    · rw [if_pos hsent] at hstep
      have hsends := State.sendSectors_leave ((s.stopComing page).setFrame page { e with state := .departing }) e
        ((List.range 32).filter fun i => e.smask.getLsbD i)
      refine ⟨_, hstep, ?_, hsends.mem, hsends.home⟩
      rw [hsends.frameOf, State.frameOf_setFrame]
  · intro s world page hhigh hcold hlow
    change execWatermarkDeparture world s = _
    unfold execWatermarkDeparture
    rw [if_neg (by simp [hhigh]), hcold, List.foldl_cons, if_pos hlow, List.foldl_nil]
  · intro s stack hstack hcount hwf
    refine ⟨_, if_neg (by omega), ?_, fun frame => ?_⟩
    · exact (getD_modifyAt _ _ _ _ _ hstack).trans (if_pos rfl)
    · exact Sparse.get_map_filter 0 (halvedCounter stack) (halvedCounter_zero stack) _ hwf frame

end Sys2Proof.Machine

/-! SUPPORT. The CONSOLE and OBJECT services (R376, R377): a pointer that passes or fails its checks, and each action on a known object. -/

namespace Sys2Proof.Machine

/-! ## Pointers (R377) -/

section
variable {s : State} {w l va size align : Nat} {mode : Mode} {k : List Piece → Served} {bad : Nat → State × List W32}

theorem State.withPtr_ok {ps : List Piece} (h : s.svcPtr w l va size align mode = .ok ps) :
    s.withPtr w l va size align mode k bad = k ps := by
  unfold State.withPtr
  rw [h]

theorem State.withPtr_bad {st : Nat} (h : s.svcPtr w l va size align mode = .bad st) :
    s.withPtr w l va size align mode k bad = some (bad st) := by
  unfold State.withPtr
  rw [h]

end

/-! ## CONSOLE (R376) -/

section
variable {s : State} {d : Delivery}

/-- A CONSOLE call of a size that is not too large does what its pointer allows. -/
theorem State.serveConsole_short (hn : ((s.thread d.wave d.lane).v (d.pb + 1)).toNat ≤ 4096) : s.serveConsole d =
    s.withPtr d.wave d.lane ((s.thread d.wave d.lane).dv (d.pb + 2)).toNat ((s.thread d.wave d.lane).v (d.pb + 1)).toNat 1 .read
      (fun ps => some ((s.modWorld (s.waveWorld d.wave) fun w => { w with console := w.console ++ Memory.readPieces s.mem ps }).answer stOk))
      s.answer := if_neg (by omega)

/-! ## OBJECT (R376) -/

theorem State.serveObject_bad {st : Nat} (h : s.svcPtr d.wave d.lane ((s.thread d.wave d.lane).dv (d.pb + 2)).toNat 64 16
    (if ((s.thread d.wave d.lane).v d.pb).toNat = 0 then .rmw else .read) = .bad st) : s.serveObject d = some (s.answer st) :=
  State.withPtr_bad h

/-- The object that a call names with its block in the pieces given. -/
def State.namedObject (s : State) (d : Delivery) (ps : List Piece) : Option DirEntry :=
  (s.ctx? (s.wave d.wave).ctx).bind fun c => c.known (BitVec.ofNat 128 (ofBytes ((Memory.readPieces s.mem ps).take 16)))

/-- An OBJECT call whose block passes its checks. -/
theorem State.serveObject_passed {ps : List Piece} (h : s.svcPtr d.wave d.lane ((s.thread d.wave d.lane).dv (d.pb + 2)).toNat 64 16
    (if ((s.thread d.wave d.lane).v d.pb).toNat = 0 then .rmw else .read) = .ok ps) : s.serveObject d =
      if 5 < ((s.thread d.wave d.lane).v d.pb).toNat then some (s.answer stMalformed)
      else match s.namedObject d ps with
        | none => some (s.answer stNoName)
        | some e => s.objectAction d ((s.thread d.wave d.lane).v d.pb).toNat ps e :=
  State.withPtr_ok h

end

/-! ## The actions on a known object -/

section
variable {s : State} {dl : Delivery} {ps : List Piece} {e : DirEntry}

/-- A query with its record writes what it tells of it behind the name. -/
theorem State.objectAction_query {s1 : State} {r : ObjRec} (h : s.needRec (s.wave dl.wave).ctx e = some (s1, r)) :
    s.objectAction dl 0 ps e = some ((s1.store ps ((Memory.readPieces s1.mem ps).take 16 ++ toBytes r.base.toNat 8 ++ toBytes r.extent 8 ++
      s1.recStateBytes r (nameOff (BitVec.ofNat 128 (ofBytes ((Memory.readPieces s1.mem ps).take 16)))) ++ toBytes r.run 8 ++
      (Memory.readPieces s1.mem ps).drop 48)).answer stOk) := by
  unfold State.objectAction
  dsimp only
  rw [h]
  rfl

/-- An exemption with its record holds at once where its pages are present, and asks for those that are absent. -/
theorem State.objectAction_pin {s1 : State} {r : ObjRec} (h : s.needRec (s.wave dl.wave).ctx e = some (s1, r)) :
    s.objectAction dl 2 ps e =
      if s1.allPresent r.pages then some ((s1.pinPages (s.wave dl.wave).ctx r.pages).answer stOk)
      else (s1.bringIn (.serviceDelivery dl.wave dl.lane) (s.who dl.wave dl.lane 0) r.pages).map fun s2 => (s2, []) := by
  unfold State.objectAction
  dsimp only
  rw [h]
  rfl

/-- Code with its record is made writable. -/
theorem State.objectAction_writable {s1 : State} {r : ObjRec} (hkind : e.kind = 2)
    (h : s.needRec (s.wave dl.wave).ctx e = some (s1, r)) : s.objectAction dl 5 ps e =
      some (((s1.setRec (s.wave dl.wave).ctx e.obj fun r => { r with writable := true }).mapRec (s.wave dl.wave).ctx e.obj).answer stOk) := by
  unfold State.objectAction
  dsimp only
  rw [if_neg (by simp [hkind]), h]
  rfl

theorem State.objectAction_notCode (hkind : e.kind ≠ 2) : s.objectAction dl 5 ps e = some (s.answer stDenied) := if_pos hkind

/-- The actions that need a record, where no range is left for one. -/
theorem State.objectAction_noSpace {action : Nat} (h : s.needRec (s.wave dl.wave).ctx e = none)
    (haction : action ∈ [0, 2] ∨ action = 5 ∧ e.kind = 2) : s.objectAction dl action ps e = some (s.answer stNoSpace) := by
  simp only [List.mem_cons, List.not_mem_nil, or_false] at haction
  unfold State.objectAction
  dsimp only
  rcases haction with (rfl | rfl) | ⟨rfl, hkind⟩
  · rw [h]
    rfl
  · rw [h]
    rfl
  · rw [if_neg (by simp [hkind]), h]
    rfl

/-- What has no record has nothing to depart and nothing to free. -/
theorem State.objectAction_noRecord {action : Nat} (h : s.recOf (s.wave dl.wave).ctx e.obj = none) (haction : action ∈ [1, 3]) :
    s.objectAction dl action ps e = some (s.answer stOk) := by
  unfold State.recOf at h
  simp only [List.mem_cons, List.not_mem_nil, or_false] at haction
  unfold State.objectAction
  dsimp only
  rcases haction with rfl | rfl <;> rw [h] <;> rfl

theorem State.objectAction_retire :
    s.objectAction dl 4 ps e = some ((s.retire (s.wave dl.wave).ctx e.obj).sequence.answer stOk) := rfl

section
variable {r : ObjRec} (hrec : s.recOf (s.wave dl.wave).ctx e.obj = some r)
include hrec

theorem State.objectAction_unpin : s.objectAction dl 3 ps e = some ((s.unpinPages (s.wave dl.wave).ctx r.pages).answer stOk) := by
  unfold State.recOf at hrec
  unfold State.objectAction
  dsimp only
  rw [hrec]
  rfl

/-- An eviction answers its status where it has one, and is under way where its pages have still to reach their homes. -/
theorem State.objectAction_evict : s.objectAction dl 1 ps e =
    match (s.evictPages r.pages).2 with
    | some st => some ((s.evictPages r.pages).1.answer st)
    | none => if s.evictDue r.pages then some ((s.evictPages r.pages).1, []) else none := by
  unfold State.recOf at hrec
  unfold State.objectAction
  dsimp only
  rw [hrec]
  rfl

end

/-! ## Eviction (R250) -/

variable {pages : List Nat}

theorem State.evictPages_exempt (h : ∃ p ∈ pages, s.exempt p = true) : s.evictPages pages = (s, some stBusy) :=
  if_pos (List.any_eq_true.mpr h)

theorem State.evictPages_homeless (hexempt : ∀ p ∈ pages, s.exempt p = false) (h : ∃ p ∈ pages, (s.frameOf p).hkind = 0) :
    s.evictPages pages = (s, some stDenied) := by
  have hhome : (pages.any fun p => (s.frameOf p).hkind == 0) = true := by simpa using h
  unfold State.evictPages
  rw [if_neg (by simpa using hexempt), if_pos hhome]

theorem State.evictPages_departs (h : ∀ p ∈ pages, s.exempt p = false ∧ (s.frameOf p).hkind ≠ 0) : s.evictPages pages =
    (pages.foldl State.depart s, if (pages.foldl State.depart s).allAbsent pages then some stOk else none) := by
  have hhome : ¬ (pages.any fun p => (s.frameOf p).hkind == 0) = true := by simpa using fun p hp => (h p hp).2
  unfold State.evictPages
  rw [if_neg (by simpa using fun p hp => (h p hp).1), if_neg hhome]

end

/-- Settles O47: what each service does with a pointer that passes, and each action on a known object. -/
theorem systemServicesDoTheirWork : Obligations.SystemServicesDoTheirWork := by
  unfold Obligations.SystemServicesDoTheirWork
  refine ⟨?_, ?_, ?_, ?_, ?_⟩
  · intro s d ps n w hn hptr
    exact (State.serveConsole_short hn).trans (State.withPtr_ok hptr)
  · intro s d st n hn hptr
    exact (State.serveConsole_short hn).trans (State.withPtr_bad hptr)
  · intro s d hn
    exact if_pos hn
  · intro s d st t hptr
    exact State.serveObject_bad hptr
  · intro s d ps t ctx action found hptr
    have hserve := State.serveObject_passed hptr
    refine ⟨fun hbig => hserve.trans (if_pos hbig), fun hsmall hnone => ?_, fun e hfound => ?_⟩
    · rw [hserve, if_neg (Nat.not_lt.mpr hsmall), show s.namedObject d ps = none from hnone]
      rfl
    · have hact : action ≤ 5 → ∀ x, s.objectAction d action ps e = x → s.serveObject d = x := by
        intro hsmall x hx
        rw [hserve, if_neg (Nat.not_lt.mpr hsmall), show s.namedObject d ps = some e from hfound]
        exact hx
      refine ⟨fun s1 r hneed => ⟨fun h0 => ?_, fun h2 hall => ?_, fun h2 hall => ?_, fun h5 hkind => ?_⟩, fun h hneed => ?_, fun h hrec => ?_,
        fun h4 => ?_, fun h5 hkind => ?_, fun r hrec => ⟨fun h1 hexempt => ?_, fun h1 hexempt hhome => ?_, fun h1 hmay => ?_, fun h3 => ?_⟩⟩
      · refine hact (by omega) _ ?_
        rw [h0, State.objectAction_query hneed, State.recStateBytes]
        simp only [List.append_assoc]
        rfl
      · refine hact (by omega) _ ?_
        rw [h2, State.objectAction_pin hneed, if_pos hall]
        rfl
      · refine hact (by omega) _ ?_
        rw [h2, State.objectAction_pin hneed, if_neg (by simp [hall])]
      · refine hact (by omega) _ ?_
        rw [h5, State.objectAction_writable hkind hneed]
        rfl
      · exact hact (by simp at h; omega) _ (State.objectAction_noSpace hneed h)
      · exact hact (by simp at h; omega) _ (State.objectAction_noRecord hrec h)
      · refine hact (by omega) _ ?_
        rw [h4, State.objectAction_retire]
        rfl
      · refine hact (by omega) _ ?_
        rw [h5, State.objectAction_notCode hkind]
        rfl
      · refine hact (by omega) _ ?_
        rw [h1, State.objectAction_evict hrec, State.evictPages_exempt hexempt]
        rfl
      · refine hact (by omega) _ ?_
        rw [h1, State.objectAction_evict hrec, State.evictPages_homeless hexempt hhome]
        rfl
      · intro s1
        refine ⟨fun hall => hact (by omega) _ ?_, fun hall hdue => hact (by omega) _ ?_⟩
        · rw [h1, State.objectAction_evict hrec, State.evictPages_departs hmay, if_pos hall]
          rfl
        · rw [h1, State.objectAction_evict hrec, State.evictPages_departs hmay, if_neg (by simpa using hall)]
          exact if_pos hdue
      · refine hact (by omega) _ ?_
        rw [h3, State.objectAction_unpin hrec]
        rfl

end Sys2Proof.Machine

/-! SUPPORT. What a home does with each request (R333 to R335, R341, R285): an access at its own bytes or at the frame of the holder, the data
and the pennant of an RSTF, and the messages of the service kernel. -/

namespace Sys2Proof.Machine

/-! ## What a count and a store leave (R191, R293) -/

theorem State.count_dies (s : State) (ps : List Piece) : (s.count ps).dies = s.dies :=
  foldl_inv (fun t : State => t.dies = s.dies) State.countPiece
    (fun t p h => by unfold State.countPiece; split <;> exact h) ps s rfl

theorem State.count_fabric (s : State) (ps : List Piece) : (s.count ps).fabric = s.fabric := by rw [s.count_sameButPrefetched ps]

theorem State.count_poison (s : State) (ps : List Piece) : (s.count ps).poison = s.poison := by rw [s.count_sameButPrefetched ps]

/-- A store poisons no line. -/
theorem State.store_poison (s : State) (ps : List Piece) (bs : List Byte) : (s.store ps bs).poison ⊆ s.poison := by
  have hline : ∀ (t : State) k bs, (t.storeLine k bs).poison ⊆ t.poison := by
    intro t k bs
    have htouch : (t.touchCode k bs.length).poison = t.poison :=
      foldl_inv (fun u : State => u.poison = t.poison) (fun u line => { u with fetchLines := u.touchLine line (k % 64) bs.length })
        (fun _ _ h => h) _ t rfl
    change (if bs.length = 64 then (t.touchCode k bs.length).poison.filter (· != lineOf k) else (t.touchCode k bs.length).poison) ⊆ _
    rw [htouch]
    split
    · exact List.filter_sublist.subset
    · exact List.Subset.refl _
  induction ps generalizing s bs with
  | nil => exact List.Subset.refl _
  | cons p ps ih =>
    have hparts : ((Piece.lines p).foldl State.storePart (s, bs)).1.poison ⊆ s.poison :=
      foldl_inv (fun a : State × List Byte => a.1.poison ⊆ s.poison) State.storePart
        (fun a q h => List.Subset.trans (hline a.1 q.1 _) h) _ (s, bs) (List.Subset.refl _)
    rw [State.store_cons]
    exact List.Subset.trans (ih _ _) hparts

theorem State.poisoned_of_subset {s t : State} {ps : List Piece} (hsub : t.poison ⊆ s.poison) (h : s.poisoned ps = false) :
    t.poisoned ps = false := by
  rw [Bool.eq_false_iff] at h ⊢
  intro ht
  obtain ⟨p, hp, hline⟩ := List.any_eq_true.mp ht
  obtain ⟨l, hl, hin⟩ := List.any_eq_true.mp hline
  exact h (List.any_eq_true.mpr ⟨p, hp, List.any_eq_true.mpr ⟨l, hsub hl, hin⟩⟩)

/-! ## Pages and holders (R285) -/

theorem mem_of_distinct {l : List Nat} {x : Nat} (h : x ∈ distinct l) : x ∈ l := by
  have key : ∀ (l acc : List Nat), x ∈ l.foldl (fun acc x => if acc.contains x then acc else acc ++ [x]) acc → x ∈ acc ∨ x ∈ l := by
    intro l
    induction l with
    | nil => exact fun acc h => .inl h
    | cons y l ih =>
      intro acc h
      rcases ih _ h with hacc | hl
      · dsimp only at hacc
        split at hacc
        · exact .inl hacc
        · rcases List.mem_append.mp hacc with hacc | hy
          · exact .inl hacc
          · exact .inr (List.mem_cons.mpr (.inl (List.mem_singleton.mp hy)))
      · exact .inr (List.mem_cons_of_mem _ hl)
  exact (key l [] h).resolve_left List.not_mem_nil

/-- A page of which no node holds a copy is one that no node may write. -/
theorem Fabric.holders_writer {f : Fabric} {page src : Nat} {writes : Bool} (h : f.holders page src writes = []) :
    f.holders page src false = [] := by
  unfold Fabric.holders at h ⊢
  rw [List.append_eq_nil_iff] at h
  rw [h.1]
  rfl

/-- The holders of the pages of a range list. -/
theorem no_holders {f : Fabric} {sender : Nat} {writes : Bool} {pages : List Nat} (h : ∀ pg ∈ pages, f.holders pg sender writes = []) :
    ((distinct pages).flatMap fun pg => (f.holders pg sender writes).map fun x => (pg, x)) = [] :=
  List.flatMap_eq_nil_iff.mpr fun pg hpg => by rw [h pg (mem_of_distinct hpg)]; rfl

theorem State.lt_atFrameBit_of_local {s : State} {a : Nat} (h : s.isLocal a = true) : a < atFrameBit := by
  have hlt : a < hbmLimit := by
    unfold State.isLocal at h
    rw [Bool.and_eq_true, decide_eq_true_eq] at h
    exact h.1
  exact hlt.trans (by decide)

/-! ## An access at its point (R335) -/

/-- A range of local memory that is the packet's world's. -/
def State.homeRange (s : State) (p : Packet) (a n : Nat) : Prop :=
  s.isLocal a = true ∧ s.isLocal (a + n - 1) = true ∧ s.granted p.world.toNat a n = true

/-- The node whose own copy does not stand in a request's way. -/
def State.senderOf (s : State) (p : Packet) : Nat := if p.typ = .rstf then s.fabric.node else p.src.toNat

theorem State.senderOf_rstf (s : State) {p : Packet} (htyp : p.typ = .rstf) : s.senderOf p = s.fabric.node := if_pos htyp

theorem State.senderOf_other {s : State} {p : Packet} {t : PacketType} (htyp : p.typ = t) (ht : t ≠ .rstf) : s.senderOf p = p.src.toNat :=
  if_neg (htyp ▸ ht)

section
variable {s : State} {p fw : Packet} {step : Nat} {qs : List Piece} {mode : Mode} {f : Point}

theorem State.atPoint_clean (h : mode.reads = true → s.poisoned qs = false) :
    s.atPoint qs mode f = ((f (s.count qs) qs).1, some (0, (f (s.count qs) qs).2)) := by
  have hclean : ¬ (mode.reads && s.poisoned qs) = true := by
    rw [Bool.and_eq_true]
    exact fun hboth => absurd (hboth.2.symm.trans (h hboth.1)) (by decide)
  unfold State.atPoint
  rw [if_neg hclean]
  rfl

/-- A request on ranges of this home that no third node holds is performed at its bytes. -/
theorem State.atHome_here (hne : qs ≠ []) (hmine : ∀ q ∈ qs, s.homeRange p q.1 q.2)
    (hfree : ∀ q ∈ qs, ∀ pg ∈ rangePages q.1 q.2, s.fabric.holders pg (s.senderOf p) mode.writes = []) :
    s.atHome p fw step qs mode f = s.atPoint qs mode f := by
  have hlow : ¬ (qs.all fun q => decide (atFrameBit ≤ q.1)) = true := by
    obtain ⟨q, hq⟩ := List.exists_mem_of_ne_nil qs hne
    intro hall
    exact absurd (State.lt_atFrameBit_of_local (hmine q hq).1) (Nat.not_lt.mpr (of_decide_eq_true (List.all_eq_true.mp hall q hq)))
  have hlocal : (qs.all fun q => s.isLocal q.1 && s.isLocal (q.1 + q.2 - 1)) = true :=
    List.all_eq_true.mpr fun q hq => by rw [(hmine q hq).1, (hmine q hq).2.1]; rfl
  have hgrant : (qs.all fun q => s.granted p.world.toNat q.1 q.2) = true := List.all_eq_true.mpr fun q hq => (hmine q hq).2.2
  have hpages : ∀ pg ∈ qs.flatMap fun q => rangePages q.1 q.2, s.fabric.holders pg (s.senderOf p) mode.writes = [] := by
    intro pg hpg
    obtain ⟨q, hq, hin⟩ := List.mem_flatMap.mp hpg
    exact hfree q hq pg hin
  have hwriters := no_holders fun pg hpg => Fabric.holders_writer (hpages pg hpg)
  have hothers := no_holders hpages
  unfold State.senderOf at hwriters hothers
  unfold State.atHome
  rw [if_neg hlow, if_neg (by rw [hlocal]; decide), if_neg (by rw [hgrant]; decide)]
  dsimp only
  rw [hwriters]
  exact if_pos (by rw [hothers]; rfl)

/-- Another home's memory is not performed on. -/
theorem State.atHome_foreign {q : Piece} (hlow : q.1 < atFrameBit) (hforeign : s.isLocal q.1 = false) :
    s.atHome p fw step [q] mode f = (s, some (3, [])) := by
  unfold State.atHome
  rw [if_neg (by simpa using hlow), if_pos (by simp [hforeign])]
  rfl

/-- Nor is another world's. -/
theorem State.atHome_protected {q : Piece} (hlocal : s.isLocal q.1 = true) (hend : s.isLocal (q.1 + q.2 - 1) = true)
    (hgrant : s.granted p.world.toNat q.1 q.2 = false) : s.atHome p fw step [q] mode f = (s, some (2, [])) := by
  unfold State.atHome
  rw [if_neg (by simpa using State.lt_atFrameBit_of_local hlocal), if_neg (by simp [hlocal, hend]), if_pos (by simp [hgrant])]
  rfl

/-- A read for the home of a page whose frame is here is performed at the frame. -/
theorem State.atHome_atFrame {q : Piece} {page : Nat} {e : FrameEntry} (hhigh : atFrameBit ≤ q.1)
    (hframe : s.frameFor p.src.toNat ((q.1 - atFrameBit) / 65536) = some (page, e)) (hstate : e.state = .present) :
    s.atHome p fw step [q] .read f = s.atPoint [(e.frame * 65536 + (q.1 - atFrameBit) % 65536, q.2)] .read f := by
  have hspot : s.frameSpot p.src.toNat .read (q.1 - atFrameBit, q.2) =
      some (some (e.frame * 65536 + (q.1 - atFrameBit) % 65536, q.2)) := by
    unfold State.frameSpot
    rw [hframe]
    simp [hstate, Mode.writes]
  unfold State.atHome
  rw [if_pos (by simpa using hhigh)]
  unfold State.atFrame
  simp [hspot]

end

/-! ## Reads, writes and atomic steps -/

theorem Memory.readPieces_singleton (m : List Host.Cell) (a n : Nat) : Memory.readPieces m [(a, n)] = Memory.bytes m a n :=
  List.append_nil _

theorem State.load_count (s : State) (qs ps : List Piece) : (s.count qs).load ps none = Memory.readPieces s.mem ps := by
  unfold State.load State.unpad
  rw [State.count_mem]

theorem Ty.bytes_pos (t : Ty) : 0 < t.bytes := by cases t <;> decide

section
variable {s : State} {p : Packet}

/-- What an ATOMIC that is no compare-and-exchange does at its point. -/
theorem atomicPoint_step (h : p.data.length = p.wt.bytes) (ks : List Piece) : atomicPoint p s ks =
    (s.store ks (atomBytes p.opc.toNat p.wt (BitVec.ofNat 128 (ofBytes p.data)) (Memory.readPieces s.mem ks)), Memory.readPieces s.mem ks) := by
  have hstep : p.data.length ≠ 2 * p.wt.bytes := by have := Ty.bytes_pos p.wt; omega
  unfold atomicPoint
  dsimp only
  rw [if_neg hstep]
  rfl

/-- An access to one range of this home that no third node holds. -/
theorem State.atHome_range {fw : Packet} {step a n : Nat} {mode : Mode} {f : Point} (hmine : s.homeRange p a n)
    (hfree : ∀ pg ∈ rangePages a n, s.fabric.holders pg (s.senderOf p) mode.writes = [])
    (hclean : mode.reads = true → s.poisoned [(a, n)] = false) : s.atHome p fw step [(a, n)] mode f =
      ((f (s.count [(a, n)]) [(a, n)]).1, some (0, (f (s.count [(a, n)]) [(a, n)]).2)) :=
  (State.atHome_here (by simp) (by simpa using hmine) (by simpa using hfree)).trans (State.atPoint_clean hclean)

theorem State.wordExits_none (h : p.aux = 0) : s.wordExits p = s := if_pos (.inr (.inl h))

/-! ## RSTF (R341) -/

/-- The addition of one to a 64-bit word (R190). -/
theorem atomResult_increment (x : Nat) :
    atomResult 1 .u64 (BitVec.ofNat 128 x) (BitVec.ofNat 128 (ofBytes (toBytes 1 8))) = BitVec.ofNat 128 ((x + 1) % 2 ^ 64) := by
  have hone : tval .u64 (BitVec.ofNat 128 (ofBytes (toBytes 1 8))) = 1 := by decide
  have hold : tval .u64 (BitVec.ofNat 128 x) = ((x % 2 ^ 128 % 2 ^ 64 : Nat) : Int) := rfl
  have hsum : ∀ a b, atomResult 1 .u64 a b = atomArith .u64 (· + ·) (fun t x y => bitsAdd t .rne x y) a b := fun _ _ => rfl
  rw [hsum, atomArith_int rfl, hone, hold]
  have hbits : Ty.u64.bits = 64 := rfl
  rw [hbits]
  exact congrArg (BitVec.ofNat 128) (by omega)

/-- The increment of a pennant, as an atomic step. -/
theorem atomBytes_increment (m : List Host.Cell) (g : Nat) :
    atomBytes 1 .u64 (BitVec.ofNat 128 (ofBytes (toBytes 1 8))) (Memory.bytes m g 8) = toBytes ((Memory.read m g 8 + 1) % 2 ^ 64) 8 := by
  have hresult := congrArg BitVec.toNat (atomResult_increment (Memory.read m g 8))
  rw [BitVec.toNat_ofNat, Nat.mod_eq_of_lt (by omega)] at hresult
  exact congrArg (fun x => toBytes x 8) hresult

theorem rstfStep_length (p : Packet) : (rstfStep p).data.length = (rstfStep p).wt.bytes := by
  have hwt : (rstfStep p).wt = .u64 := rfl
  rw [hwt]
  exact length_toBytes 1 8

/-- Where no answer of a step is kept, there is none to take out. -/
theorem State.setForward_none (s : State) {step : Nat} (h : s.fabric.forwardOf p step = none) : s.setForward p step none = s := by
  have hall : (s.fabric.forwards.filter fun f => !f.isOf p step) = s.fabric.forwards :=
    List.filter_eq_self.mpr fun f hf => by simpa using List.find?_eq_none.mp h f hf
  unfold State.setForward
  dsimp only
  rw [hall]
  simp

/-- The pennant of an RSTF rises by one. -/
theorem State.rstfRaise_here (hmine : s.homeRange p p.aux.toNat 8)
    (hfree : ∀ pg ∈ rangePages p.aux.toNat 8, s.fabric.holders pg (s.senderOf p) true = [])
    (hclean : s.poisoned [(p.aux.toNat, 8)] = false) (hkept : s.fabric.forwardOf p 0 = none) : s.rstfRaise p =
      ((s.count [(p.aux.toNat, 8)]).store [(p.aux.toNat, 8)]
        (toBytes ((Memory.read (s.count [(p.aux.toNat, 8)]).mem p.aux.toNat 8 + 1) % 2 ^ 64) 8), some (0, [])) := by
  have hpoint : ∀ ks, atomicPoint (rstfStep p) (s.count [(p.aux.toNat, 8)]) ks = _ :=
    atomicPoint_step (p := rstfStep p) (s := s.count [(p.aux.toNat, 8)]) (rstfStep_length p)
  have hkept' : ∀ bs, ((s.count [(p.aux.toNat, 8)]).store [(p.aux.toNat, 8)] bs).fabric.forwardOf p 0 = none := by
    intro bs
    rw [State.store_sameButStored]
    exact (congrArg (fun f : Fabric => f.forwardOf p 0) (s.count_fabric _)).trans hkept
  unfold State.rstfRaise
  rw [State.atHome_range (mode := .rmw) hmine hfree fun _ => hclean, hpoint]
  dsimp only
  rw [State.setForward_none _ (hkept' _), Memory.readPieces_singleton]
  exact congrArg (fun bs => ((s.count [(p.aux.toNat, 8)]).store [(p.aux.toNat, 8)] bs, some (0, [])))
    (atomBytes_increment (s.count [(p.aux.toNat, 8)]).mem p.aux.toNat)

/-- What a count and a store leave of that on which an access at its home depends. -/
theorem State.countStore_fabric (s : State) (ks : List Piece) (bs : List Byte) : ((s.count ks).store ks bs).fabric = s.fabric := by
  rw [State.store_sameButStored]
  exact s.count_fabric ks

theorem State.countStore_homeRange (ks : List Piece) (bs : List Byte) {a n : Nat} (h : s.homeRange p a n) :
    ((s.count ks).store ks bs).homeRange p a n := by
  have hdies : ((s.count ks).store ks bs).dies = s.dies := by
    rw [State.store_sameButStored]
    exact s.count_dies ks
  have hworlds : ((s.count ks).store ks bs).worlds = s.worlds := (s.count_worlds ks).trans (State.store_worlds _ _ _)
  unfold State.homeRange State.isLocal State.granted State.die State.world at *
  rw [hdies, hworlds]
  exact h

theorem State.countStore_clean (ks : List Piece) (bs : List Byte) {ps : List Piece} (h : s.poisoned ps = false) :
    ((s.count ks).store ks bs).poisoned ps = false :=
  State.poisoned_of_subset (List.Subset.trans (State.store_poison _ _ _) (by rw [State.count_poison]; exact List.Subset.refl _)) h

/-- The data of an RSTF, then its pennant, both at this home. -/
theorem State.homeRstf_here (htyp : p.typ = .rstf) (hdata : s.homeRange p p.addr.toNat p.data.length)
    (hpennant : s.homeRange p p.aux.toNat 8) (hfree : ∀ pg ∈ rangePages p.addr.toNat p.data.length ++ rangePages p.aux.toNat 8,
      s.fabric.holders pg s.fabric.node true = [])
    (hclean : s.poisoned [(p.aux.toNat, 8)] = false) (hkept : s.fabric.forwardOf p 0 = none) : s.homeRstf p =
      ((s.count [(p.addr.toNat, p.data.length)]).store [(p.addr.toNat, p.data.length)] p.data).rstfRaise p := by
  have hsender := s.senderOf_rstf htyp
  unfold State.homeRstf
  dsimp only
  rw [hkept]
  dsimp only
  rw [if_neg (by simp [hpennant.1]), if_neg (by simp [hpennant.2.2]), if_neg (by simp [hclean]),
    State.atHome_range (mode := .write) hdata (fun pg hpg => hsender ▸ hfree pg (List.mem_append_left _ hpg)) fun h => by cases h]
  rfl

end

/-! ## Performing by type (R332) -/

/-- What a home does with a request of each type that no reset has marked. -/
def State.performAs (s : State) (p : Packet) : PacketType → Performed
  | .read => s.homeRead p
  | .write => s.homeWrite p
  | .atomic => s.homeAtomic p
  | .xa => s.homeXa p
  | .rstf => s.homeRstf p
  | .grant => s.homeGrant p
  | .recall => s.homeRecall p
  | .page => s.homePage p
  | .launch => s.homeLaunch p
  | .commit => s.homeCommit p
  | .abort => s.homeAbort p
  | .manager => s.homeManager p
  | .team => s.homeTeam p
  | .advert => s.homeAdvert p
  | .unlisted => (s, none)

theorem State.perform_eq {s : State} {p : Packet} (hstatus : p.status = 0) {t : PacketType} (htyp : p.typ = t) :
    s.perform p = s.performAs p t := by
  unfold State.perform
  rw [if_neg (by simp [hstatus]), htyp]
  cases t <;> rfl

section
variable {s : State} {p : Packet}

/-- Whether no third node holds a page of a range, or may write one. -/
def State.unheld (s : State) (p : Packet) (a n : Nat) (writes : Bool) : Prop :=
  ∀ pg ∈ rangePages a n, s.fabric.holders pg p.src.toNat writes = []

theorem State.homeRead_here (htyp : p.typ = .read) {n : Nat} (hn : (if p.opc = 1 then 64 else p.wt.bytes) = n)
    (hmine : s.homeRange p p.addr.toNat n) (hfree : s.unheld p p.addr.toNat n false) (hclean : s.poisoned [(p.addr.toNat, n)] = false) :
    s.homeRead p = (s.count [(p.addr.toNat, n)], some (0, Memory.bytes s.mem p.addr.toNat n)) := by
  unfold State.homeRead
  rw [hn, State.atHome_range (mode := .read) hmine (State.senderOf_other (s := s) htyp (by decide) ▸ hfree) fun _ => hclean, readPoint]
  dsimp only
  rw [State.load_count, Memory.readPieces_singleton]

theorem State.homeRead_atFrame {n page : Nat} {e : FrameEntry} (hn : (if p.opc = 1 then 64 else p.wt.bytes) = n)
    (hhigh : atFrameBit ≤ p.addr.toNat) (hframe : s.frameFor p.src.toNat ((p.addr.toNat - atFrameBit) / 65536) = some (page, e))
    (hstate : e.state = .present) (hclean : s.poisoned [(e.frame * 65536 + (p.addr.toNat - atFrameBit) % 65536, n)] = false) :
    s.homeRead p = (s.count [(e.frame * 65536 + (p.addr.toNat - atFrameBit) % 65536, n)],
      some (0, Memory.bytes s.mem (e.frame * 65536 + (p.addr.toNat - atFrameBit) % 65536) n)) := by
  unfold State.homeRead
  rw [hn, State.atHome_atFrame (q := (p.addr.toNat, n)) hhigh hframe hstate, State.atPoint_clean fun _ => hclean, readPoint]
  dsimp only
  rw [State.load_count, Memory.readPieces_singleton]

theorem State.homeWrite_here (htyp : p.typ = .write) (hdata : p.data ≠ []) (hmine : s.homeRange p p.addr.toNat p.data.length)
    (hfree : s.unheld p p.addr.toNat p.data.length true) :
    s.homeWrite p = ((s.count [(p.addr.toNat, p.data.length)]).store [(p.addr.toNat, p.data.length)] p.data, some (0, [])) := by
  unfold State.homeWrite
  rw [if_neg (by simpa using hdata)]
  exact State.atHome_range (mode := .write) hmine (State.senderOf_other (s := s) htyp (by decide) ▸ hfree) fun h => by cases h

theorem State.homeAtomic_here (htyp : p.typ = .atomic) (haux : p.aux = 0) (hdata : p.data.length = p.wt.bytes)
    (hmine : s.homeRange p p.addr.toNat p.wt.bytes) (hfree : s.unheld p p.addr.toNat p.wt.bytes true)
    (hclean : s.poisoned [(p.addr.toNat, p.wt.bytes)] = false) :
    s.homeAtomic p = ((s.count [(p.addr.toNat, p.wt.bytes)]).store [(p.addr.toNat, p.wt.bytes)]
      (atomBytes p.opc.toNat p.wt (BitVec.ofNat 128 (ofBytes p.data)) (Memory.bytes s.mem p.addr.toNat p.wt.bytes)),
      some (0, Memory.bytes s.mem p.addr.toNat p.wt.bytes)) := by
  unfold State.homeAtomic
  rw [State.atHome_range (mode := .rmw) hmine (State.senderOf_other (s := s) htyp (by decide) ▸ hfree) fun _ => hclean,
    atomicPoint_step hdata, State.count_mem, Memory.readPieces_singleton]
  exact congrArg (fun t : State => (t, some (0, Memory.bytes s.mem p.addr.toNat p.wt.bytes))) (State.wordExits_none haux)

theorem State.homeXa_add (htyp : p.typ = .xa) (hwt : p.wt = .f64) (hdata : p.data ≠ [])
    (hmine : ∀ q ∈ xaRanges p, s.homeRange p q.1 q.2 ∧ s.unheld p q.1 q.2 true) (hclean : s.poisoned (xaRanges p) = false) :
    s.homeXa p = ((s.count (xaRanges p)).store (xaRanges p) (xaAdd (ofBytes p.data) (Memory.readPieces s.mem (xaRanges p))),
      some (0, [])) := by
  have hne : xaRanges p ≠ [] := by
    unfold xaRanges
    dsimp only
    split <;> simp
  have hsender := State.senderOf_other (s := s) htyp (by decide)
  unfold State.homeXa
  dsimp only
  rw [if_neg (by simp [hwt]), if_neg (by simpa using hdata),
    State.atHome_here hne (fun q hq => (hmine q hq).1) (fun q hq => hsender ▸ (hmine q hq).2), State.atPoint_clean fun _ => hclean]
  dsimp only
  rw [State.load_count]

theorem State.homeRstf_raises (htyp : p.typ = .rstf) (hdata : s.homeRange p p.addr.toNat p.data.length)
    (hpennant : s.homeRange p p.aux.toNat 8) (hfree : ∀ pg ∈ rangePages p.addr.toNat p.data.length ++ rangePages p.aux.toNat 8,
      s.fabric.holders pg s.fabric.node true = [])
    (hclean : s.poisoned [(p.aux.toNat, 8)] = false) (hkept : s.fabric.forwardOf p 0 = none) :
    let s1 := ((s.count [(p.addr.toNat, p.data.length)]).store [(p.addr.toNat, p.data.length)] p.data).count [(p.aux.toNat, 8)]
    s.homeRstf p = (s1.store [(p.aux.toNat, 8)] (toBytes ((Memory.read s1.mem p.aux.toNat 8 + 1) % 2 ^ 64) 8), some (0, [])) := by
  have hfabric := s.countStore_fabric [(p.addr.toNat, p.data.length)] p.data
  refine (State.homeRstf_here htyp hdata hpennant hfree hclean hkept).trans (State.rstfRaise_here ?_ ?_ ?_ ?_)
  · exact State.countStore_homeRange _ _ hpennant
  · intro pg hpg
    rw [State.senderOf_rstf _ htyp, hfabric]
    exact hfree pg (List.mem_append_right _ hpg)
  · exact State.countStore_clean _ _ hclean
  · rw [hfabric]
    exact hkept

/-! ## Messages of the service kernel (R256, R285, R328, R347) -/

theorem State.homeGrant_write (hopc : p.opc = 1) (hlocal : s.isLocal p.addr.toNat = true)
    (hfree : s.fabric.holders (p.addr.toNat / 65536) p.src.toNat true = []) :
    ∃ t, s.homeGrant p = (t, some (0, [])) ∧ Sparse.get 0 t.fabric.grantHolders (p.addr.toNat / 65536) = p.src.toNat + 1 := by
  have hwrite : (p.opc == 1) = true := beq_iff_eq.mpr hopc
  unfold State.homeGrant
  dsimp only
  rw [hwrite, hfree, if_neg (by simp [hlocal])]
  exact ⟨_, rfl, (Sparse.get_set 0 s.fabric.grantHolders (p.addr.toNat / 65536) _ (p.src.toNat + 1)).trans (if_pos rfl)⟩

theorem State.homeRecall_none (h : s.frameFor p.src.toNat (p.addr.toNat / 65536) = none) : s.homeRecall p = (s, some (0, [])) := by
  unfold State.homeRecall
  rw [h]
  rfl

theorem State.homePage_data (hdata : p.data ≠ []) (hlocal : s.isLocal p.addr.toNat = true)
    (hend : s.isLocal (p.addr.toNat + p.data.length - 1) = true) :
    let s1 := s.store [(p.addr.toNat, p.data.length)] p.data
    s.homePage p = ({ s1 with poison := maskLines s1.poison (p.addr.toNat / 64) p.opc.toNat }, some (0, [])) := by
  have hempty : p.data.isEmpty = false := List.isEmpty_eq_false_iff.mpr hdata
  unfold State.homePage
  simp only [hempty, Bool.false_eq_true, if_false, hlocal, hend]
  rfl

theorem State.homeManager_heartbeat (hopc : p.opc = 0) : s.homeManager p = (s.heartbeat p.src.toNat, some (0, [])) := by
  have hnum : p.opc.toNat = 0 := by rw [hopc]; rfl
  unfold State.homeManager
  rw [hnum]
  rfl

theorem State.homeManager_election (hopc : p.opc = 1) (h : p.src.toNat < s.fabric.manager ∨ s.fabric.missed ≠ 0) :
    s.homeManager p = (s.takeManager (s.candidate p.src.toNat), some (0, [])) := by
  have hnum : p.opc.toNat = 1 := by rw [hopc]; rfl
  unfold State.homeManager
  rw [hnum]
  exact congrArg (fun t : State => (t, some (0, []))) (if_pos h)

theorem State.homeTeam_unknown (h : s.launchUnder p.addr.toNat (ofBytes ((p.data.drop 261).take 2)) = none) :
    s.homeTeam p = (s, some (3, [])) := by
  unfold State.homeTeam
  dsimp only
  rw [h]
  rfl

theorem State.homeLaunch_refused {k : Nat}
    (h : s.checkRecord (recWorld (BitVec.ofNat 2048 (ofBytes p.data))) (BitVec.ofNat 2048 (ofBytes p.data)) = .error k) :
    s.homeLaunch p = (s, some (0, toBytes k 4)) := by
  unfold State.homeLaunch
  dsimp only
  rw [h]
  rfl

theorem State.homeCommit_offered {l : Nat} (h : s.offered p = some l) : s.homeCommit p =
    ((s.modLaunch l fun x => { x with arrivalBase := ofBytes ((p.data.drop 256).take 8) }).commit l, some (0, [])) := by
  unfold State.homeCommit
  rw [h]
  rfl

theorem State.homeAbort_offered {l : Nat} (h : s.offered p = some l) :
    s.homeAbort p = (s.modLaunch l fun x => { x with completion := some .cancelled }, some (0, [])) := by
  unfold State.homeAbort
  rw [h]
  rfl

end

/-- Settles O57: each type of request at its home, by what `atHome` does where its ranges are here, at a frame, or neither. -/
theorem homesPerformRequests : Obligations.HomesPerformRequests := by
  unfold Obligations.HomesPerformRequests
  refine ⟨fun s p hstatus => ?_, fun s p hstatus => ?_⟩
  · have hdo : ∀ {t : PacketType}, p.typ = t → s.perform p = s.performAs p t := State.perform_eq hstatus
    intro a g n line mine free
    refine ⟨?_, ?_, ?_, ?_, ?_, ?_, ?_, ?_⟩
    case refine_1 => exact fun htyp hmine hfree hclean => (hdo htyp).trans (State.homeRead_here htyp rfl hmine hfree hclean)
    case refine_2 =>
      exact fun page e htyp hhigh hframe hstate hclean => (hdo htyp).trans (State.homeRead_atFrame rfl hhigh hframe hstate hclean)
    case refine_3 => exact fun htyp hdata hmine hfree => (hdo htyp).trans (State.homeWrite_here htyp hdata hmine hfree)
    case refine_4 =>
      exact fun htyp haux hdata hmine hfree hclean => (hdo htyp).trans (State.homeAtomic_here htyp haux hdata hmine hfree hclean)
    case refine_5 =>
      exact fun htyp hwt hdata hmine hclean => (hdo htyp).trans (State.homeXa_add htyp hwt hdata hmine hclean)
    case refine_6 =>
      exact fun htyp hdata hpennant hfree hclean hkept =>
        (hdo htyp).trans (State.homeRstf_raises htyp hdata hpennant hfree hclean hkept)
    case refine_7 => exact fun htyp hlow hforeign => (hdo htyp).trans (State.atHome_foreign (q := (a, line)) hlow hforeign)
    case refine_8 =>
      exact fun htyp hlocal hend hgrant => (hdo htyp).trans (State.atHome_protected (q := (a, line)) hlocal hend hgrant)
  · have hdo : ∀ {t : PacketType}, p.typ = t → s.perform p = s.performAs p t := State.perform_eq hstatus
    refine ⟨?grant, ?recalled, ?page, ?heartbeat, ?election, ?team, ?launch, ?commit, ?abort⟩
    case grant => exact fun htyp hopc hlocal hfree => hdo htyp ▸ State.homeGrant_write hopc hlocal hfree
    case recalled => exact fun htyp hframe => (hdo htyp).trans (State.homeRecall_none hframe)
    case page => exact fun htyp hdata hlocal hend => (hdo htyp).trans (State.homePage_data hdata hlocal hend)
    case heartbeat =>
      intro htyp hopc f src
      have hbeat := (hdo htyp).trans (State.homeManager_heartbeat hopc)
      refine ⟨fun hmanager => hbeat.trans ?_, fun hother hnode hlower => hbeat.trans ?_, fun hother hnot => hbeat.trans ?_⟩
      · rw [State.heartbeat, if_pos hmanager]
      · rw [State.heartbeat, if_neg hother, if_pos ⟨hnode, hlower⟩]
      · rw [State.heartbeat, if_neg hother, if_neg hnot]
    case election => exact fun htyp hopc h => (hdo htyp).trans (State.homeManager_election hopc h)
    case team => exact fun htyp hlaunch => (hdo htyp).trans (State.homeTeam_unknown hlaunch)
    case launch => exact fun k htyp hcheck => (hdo htyp).trans (State.homeLaunch_refused hcheck)
    case commit => exact fun l htyp hoffered => (hdo htyp).trans (State.homeCommit_offered hoffered)
    case abort => exact fun l htyp hoffered => (hdo htyp).trans (State.homeAbort_offered hoffered)

end Sys2Proof.Machine

/-! SUPPORT. A list in which one entry stands for each key, after an entry was put in the place of any of its key: the streams of the
fabric, and the functions of the ports. -/

namespace Sys2Proof.Machine

theorem find?_replaced {α : Type} (l : List α) (mine : α → Bool) {x : α} (hx : mine x = true) :
    ((l.filter fun y => !mine y) ++ [x]).find? mine = some x := by
  have hold : (l.filter fun y => !mine y).find? mine = none :=
    List.find?_eq_none.mpr fun y hy => by simpa using (List.mem_filter.mp hy).2
  rw [List.find?_append, hold, Option.none_or, List.find?_singleton, if_pos hx]

/-- The entries of another key are as they were. -/
theorem find?_replaced_other {α : Type} (l : List α) (mine other : α → Bool) {x : α} (hx : other x = false)
    (h : ∀ y, other y = true → mine y = false) : ((l.filter fun y => !mine y) ++ [x]).find? other = l.find? other := by
  have hnew : [x].find? other = none := by simp [hx]
  rw [List.find?_append, hnew, Option.or_none, List.find?_filter]
  refine congrArg (l.find? ·) (funext fun y => ?_)
  cases hy : other y with
  | false => simp
  | true => simp [h y hy]

end Sys2Proof.Machine

/-! SUPPORT. Requests of other packages at their destination (R332, R333, R335): the end of a stream after it is put back, and what the
intake makes of the packet whose turn it is and of one that was performed before. -/

namespace Sys2Proof.Machine

/-! ## The destination's end of a stream -/

/-- The end that a fabric gives for a source and a tier is theirs. -/
theorem Fabric.inStream_key (f : Fabric) (src tier : Nat) : (f.inStream src tier).src = src ∧ (f.inStream src tier).tier = tier := by
  unfold Fabric.inStream
  cases h : f.ins.find? fun x => x.src == src && x.tier == tier with
  | none => exact ⟨rfl, rfl⟩
  | some x => simpa using List.find?_some h

/-- The end that was put back last is the one that its source and tier have. -/
theorem Fabric.inStream_setIn (f : Fabric) (x : InStream) {src tier : Nat} (h : x.src = src ∧ x.tier = tier) :
    (f.setIn x).inStream src tier = x := by
  obtain ⟨rfl, rfl⟩ := h
  rw [Fabric.inStream, Fabric.setIn, find?_replaced f.ins (fun y => y.src == x.src && y.tier == x.tier) (x := x) (by simp),
    Option.getD_some]

/-! ## The turn of a packet (R333) -/

/-- A stream after the packet whose turn it was: its reply is kept, and the next SEQ is expected. -/
def InStream.next (y : InStream) (p : Packet) (r : Nat × List Byte) : InStream :=
  { y with expect := y.expect + 1, early := y.early.filter fun q => q.seq != p.seq
           replies := keepReply 256 (y.replies ++ [{ p.answer r.1 r.2 with seq := p.seq, hop := p.flits }]) }

/-- A packet has been performed, with `s1` as the state after it: its stream goes on, and its reply is sent. -/
def State.performed (s1 : State) (src tier : Nat) (p : Packet) (r : Nat × List Byte) : State :=
  ({ s1 with fabric := s1.fabric.setIn ((s1.fabric.inStream src tier).next p r) } : State).sendReply (p.answer r.1 r.2)

theorem State.drain_performed {s s1 : State} {src tier n : Nat} {p : Packet} {r : Nat × List Byte}
    (hfind : (s.fabric.inStream src tier).early.find? (fun q => q.seq == (s.fabric.inStream src tier).expect) = some p)
    (hperform : s.perform p = (s1, some r)) : s.drain src tier (n + 1) = (s1.performed src tier p r).drain src tier n := by
  rw [State.drain]
  simp only [hfind, hperform]
  rfl

theorem State.performed_expect (s1 : State) (src tier : Nat) (p : Packet) (r : Nat × List Byte) :
    ((s1.performed src tier p r).fabric.inStream src tier).expect = (s1.fabric.inStream src tier).expect + 1 :=
  congrArg InStream.expect (s1.fabric.inStream_setIn ((s1.fabric.inStream src tier).next p r) (s1.fabric.inStream_key src tier))

/-! ## The intake (R333, R335) -/

/-- No SEQ lies before itself. -/
theorem seqBefore_self (seq : BitVec 16) : seqBefore seq seq = false := by simp [seqBefore]

/-- A request whose turn it is, while none waits for its turn, is performed. -/
theorem State.intake_performs {s s1 : State} {p : Packet} {r : Nat × List Byte}
    (hearly : (s.fabric.inStream p.src.toNat p.tier).early = []) (hseq : p.seq = (s.fabric.inStream p.src.toNat p.tier).expect)
    (hperform : ({ s with fabric := s.fabric.setIn { s.fabric.inStream p.src.toNat p.tier with early := [p] } } : State).perform p =
      (s1, some r)) : s.intake p = s1.performed p.src.toNat p.tier p r := by
  have hback := s.fabric.inStream_setIn { s.fabric.inStream p.src.toNat p.tier with early := [p] } (s.fabric.inStream_key _ _)
  have hturn := congrArg (fun x : InStream => x.early.find? fun q => q.seq == x.expect) hback
  unfold State.intake
  simp only [hseq, seqBefore_self, hearly, List.any_nil, List.nil_append, Bool.false_eq_true, if_false, List.length_singleton]
  refine (State.drain_performed (r := r) (hturn.trans ?_) hperform).trans rfl
  simp [hseq]

/-- A request that was performed before is answered with the reply that was kept. -/
theorem State.intake_duplicate {s : State} {p a : Packet} (hseq : seqBefore p.seq (s.fabric.inStream p.src.toNat p.tier).expect = true)
    (hkept : (s.fabric.inStream p.src.toNat p.tier).replies.find? (fun a => a.seq == p.seq) = some a) :
    s.intake p = s.sendReply { a with seq := 0, hop := 0 } := by
  simp only [State.intake, hseq, hkept, if_true]

/-! ## The rows of R334 -/

/-- The row of each type of request, with its type. -/
def packetRows (p : Packet) : List (Instr × PacketType) :=
  [(.readPacket p, .read), (.writePacket p, .write), (.atomicPacket p, .atomic), (.xaPacket p, .xa), (.rstfPacket p, .rstf),
    (.grantPacket p, .grant), (.recallPacket p, .recall), (.pagePacket p, .page), (.teamPacket p, .team), (.advertPacket p, .advert),
    (.launchPacket p, .launch), (.commitPacket p, .commit), (.abortPacket p, .abort), (.managerPacket p, .manager)]

/-- Each row is the arrival of a packet of its type. -/
theorem exec_packetRow (s : State) {p : Packet} {i : Instr} {ty : PacketType} (h : (i, ty) ∈ packetRows p) :
    exec i s = s.arrivePacket ty p := by
  simp only [packetRows, List.mem_cons, List.not_mem_nil, or_false, Prod.mk.injEq] at h
  rcases h with ⟨rfl, rfl⟩ | ⟨rfl, rfl⟩ | ⟨rfl, rfl⟩ | ⟨rfl, rfl⟩ | ⟨rfl, rfl⟩ | ⟨rfl, rfl⟩ | ⟨rfl, rfl⟩ | ⟨rfl, rfl⟩ | ⟨rfl, rfl⟩ |
    ⟨rfl, rfl⟩ | ⟨rfl, rfl⟩ | ⟨rfl, rfl⟩ | ⟨rfl, rfl⟩ | ⟨rfl, rfl⟩ <;> rfl

theorem State.arrivePacket_malformed (s : State) (ty : PacketType) {p : Packet} (h : p.malformed = true) :
    s.arrivePacket ty p = .next (s.logLine (.discarded p)) := by rw [State.arrivePacket, if_pos h]

theorem State.arrivePacket_request (s : State) {ty : PacketType} {p : Packet} (htyp : p.typ = ty) (hreply : p.reply = false)
    (hgood : p.malformed = false) : s.arrivePacket ty p = .next (s.intake { p with status := 0 }) := by
  rw [State.arrivePacket, if_neg (by simp [hgood]), if_pos (by simp [htyp, hreply])]

/-- Settles O56: each row is the arrival of a packet of its type, and the intake performs the one whose turn it is. -/
theorem packetsArePerformedInOrder : Obligations.PacketsArePerformedInOrder := by
  intro s p i ty hrow
  have hexec := exec_packetRow s (p := p) hrow
  refine ⟨fun hbad => hexec.trans (s.arrivePacket_malformed ty hbad), fun htyp hreply hgood => ?_⟩
  have hintake := hexec.trans (s.arrivePacket_request htyp hreply hgood)
  refine ⟨fun s1 st bs hearly hseq hperform => ?_, fun a hseq hkept => ?_⟩
  · rw [State.intake_performs (p := { p with status := 0 }) hearly hseq hperform] at hintake
    exact ⟨_, hintake, rfl, rfl, rfl, s1.performed_expect _ _ _ _⟩
  · exact hintake.trans (congrArg _ (State.intake_duplicate (p := { p with status := 0 }) hseq hkept))

end Sys2Proof.Machine

/-! SUPPORT. Links (R330, R331, R336 to R338, R342 to R345, R360): a port's link after a change, what a link that fails leaves, and what
each operation on a link makes of it. -/

namespace Sys2Proof.Machine

/-! ## A port's link after a change -/

theorem State.link_modLink (s : State) {port : Nat} (g : Link → Link) (h : port < s.fabric.links.length) :
    (s.modLink port g).fabric.link port = g (s.fabric.link port) := by
  simp only [Fabric.link, State.modLink, getD_modifyAt _ _ _ _ _ h, if_true]

/-- A buffer that is freed changes nothing of a link but the credits that are due. -/
theorem State.link_freeBuffer (s : State) (port channel : Nat) (p : Packet) (o : Nat) :
    ∃ due, (s.freeBuffer port channel p).fabric.link o = { s.fabric.link o with due := due } := by
  by_cases ho : o < s.fabric.links.length
  · by_cases hport : port = o
    · subst hport
      exact ⟨_, s.link_modLink _ ho⟩
    · refine ⟨(s.fabric.link o).due, ?_⟩
      simp only [Fabric.link, State.freeBuffer, State.modLink, getD_modifyAt _ _ _ _ _ ho, if_neg hport]
  · refine ⟨(s.fabric.link o).due, ?_⟩
    have hout : (s.freeBuffer port channel p).fabric.links.length ≤ o := by
      simpa [State.freeBuffer, State.modLink] using Nat.not_lt.mp ho
    simp only [Fabric.link, List.getD_eq_getElem?_getD, List.getElem?_eq_none hout, List.getElem?_eq_none (Nat.not_lt.mp ho)]

theorem State.reportLink_links (s : State) (port : Nat) : (s.reportLink port).fabric.links = s.fabric.links := by
  unfold State.reportLink Fabric.learn
  dsimp only
  split
  · split <;> rfl
  · rfl

theorem State.reportLink_rest (s : State) (port : Nat) : s.reportLink port = { s with fabric := (s.reportLink port).fabric } := by
  unfold State.reportLink
  dsimp only
  split <;> rfl

theorem State.link_reportLink (s : State) (port o : Nat) : (s.reportLink port).fabric.link o = s.fabric.link o :=
  congrArg (·.getD o Link.reset) (s.reportLink_links port)

/-! ## A link that fails (R344) -/

/-- The buffers of packets that waited for a link are freed. -/
def State.freed (s : State) (l : List Buffered) : State := l.foldl (fun s b => s.freeBuffer b.port b.channel b.packet) s

theorem State.freeBuffer_links_length (s : State) (port channel : Nat) (p : Packet) :
    (s.freeBuffer port channel p).fabric.links.length = s.fabric.links.length := by
  unfold State.freeBuffer State.modLink
  exact length_modifyAt ..

theorem State.freed_rest (s : State) (l : List Buffered) :
    (s.freed l).pkg = s.pkg ∧ (s.freed l).fabric.links.length = s.fabric.links.length := by
  unfold State.freed
  refine foldl_inv (fun t : State => t.pkg = s.pkg ∧ t.fabric.links.length = s.fabric.links.length) _ (fun t b ht => ?_) l s ⟨rfl, rfl⟩
  exact ⟨ht.1, (t.freeBuffer_links_length ..).trans ht.2⟩

theorem State.linkFails_log (s : State) (port : Nat) : (s.linkFails port).pkg.log = s.pkg.log ++ [.linkReport port] := by
  rw [State.linkFails, State.reportLink_rest]
  exact congrArg (fun p : Package => p.log ++ [.linkReport port]) (s.freed_rest (s.fabric.link port).waiting).1

theorem State.linkFails_link (s : State) {port : Nat} (h : port < s.fabric.links.length) :
    ((s.linkFails port).fabric.link port).state = .down ∧ ((s.linkFails port).fabric.link port).keys = [] := by
  have hdown : (s.linkFails port).fabric.link port = ((s.freed (s.fabric.link port).waiting).fabric.link port).down :=
    (State.link_reportLink _ port port).trans (State.link_modLink _ _ ((s.freed_rest _).2.symm ▸ h))
  rw [hdown]
  exact ⟨rfl, rfl⟩

/-! ## Training and keys (R344, R345, R360) -/

theorem exec_linkTraining (s : State) {port lo hi : Nat} (e : LinkEnd) (h : port < s.fabric.links.length) (hlo : lo ≤ min hi 2)
    (hhi : 1 ≤ hi) :
    ∃ t, exec (.linkTraining port ⟨lo, hi⟩ e) s = .next t ∧
      t.fabric.link port = { s.fabric.link port with
        version := min hi 2, state := .trained, peer := e.node, peerPort := e.port, keys := [], starved := 0, failed := false
        nakDue := false
        credits := (List.range 18).map fun c => min 32 (e.free.getD c 0) - { s.fabric.link port with version := min hi 2 }.owing c
        due := List.replicate 18 0 } := by
  have hcommon : max lo 1 ≤ min hi 2 := by omega
  exact ⟨_, if_pos hcommon, s.link_modLink _ h⟩

/-- A handshake that passes gives the link its keys, and takes two key operations. -/
theorem State.handshake_agrees (s : State) {port : Nat} {peer : Handshake} {secret : List Byte} (h : port < s.fabric.links.length)
    (hagree : s.agree (s.fabric.isLow port) peer = some secret) :
    (s.handshake port peer).fabric.link port = (s.fabric.link port).rekey (s.fabric.isLow port) secret ∧
      (s.handshake port peer).pkg.keyCount = s.pkg.keyCount + 2 := by
  unfold State.handshake
  simp only [hagree]
  constructor
  · exact (State.link_reportLink _ port port).trans
      (State.link_modLink { s with pkg := { s.pkg with keyCount := s.pkg.keyCount + 2 } } _ h)
  · rw [State.reportLink_rest]
    rfl

/-- A handshake that fails leaves the link down, which is reported. -/
theorem State.handshake_fails (s : State) {port : Nat} {peer : Handshake} (h : port < s.fabric.links.length)
    (hagree : s.agree (s.fabric.isLow port) peer = none) :
    ((s.handshake port peer).fabric.link port).state = .down ∧ .linkReport port ∈ (s.handshake port peer).pkg.log := by
  unfold State.handshake
  simp only [hagree]
  have hcounted := State.linkFails_link { s with pkg := { s.pkg with keyCount := s.pkg.keyCount + 2 } } h
  refine ⟨hcounted.1, ?_⟩
  rw [State.linkFails_log]
  simp

theorem exec_linkHandshake {s : State} {port : Nat} (peer : Handshake) (h : (s.fabric.link port).state = .trained) :
    exec (.linkHandshake port peer.certificate peer.kem peer.signature) s = .next (s.handshake port peer) :=
  congrArg Host.Outcome.next (if_pos h)

theorem exec_linkRekey {s : State} {port : Nat} (peer : Handshake) (h : (s.fabric.link port).state = .keyed)
    (hacked : (s.fabric.link port).unacked = []) : exec (.linkRekey port peer) s = .next (s.handshake port peer) :=
  congrArg Host.Outcome.next (if_pos ⟨h, by rw [hacked]; rfl⟩)

theorem exec_linkRekey_waits {s : State} {port : Nat} (peer : Handshake) (h : (s.fabric.link port).unacked ≠ []) :
    exec (.linkRekey port peer) s = .next s :=
  congrArg Host.Outcome.next (if_neg fun hkeyed => h (List.isEmpty_iff.mp hkeyed.2))

/-- A certificate that the root has not signed ends the handshake. -/
theorem State.agree_uncertified (s : State) (low : Bool) {peer : Handshake} (h : certified peer.certificate = none) :
    s.agree low peer = none := by
  cases low <;> simp [State.agree, h]

/-- So does a signature of the other end over the transcript that does not hold. -/
theorem State.agree_unsigned (s : State) {peer : Handshake} {pub : List Byte} (h : certified peer.certificate = some pub)
    (hsign : Config.falconVerify pub (shake (Config.certificate ++ (Config.mlkemKeys (s.randomness 0)).1 ++ peer.certificate ++
      peer.kem) 64)
      peer.signature = false) : s.agree true peer = none := by
  unfold State.agree
  simp only [h, hsign, if_true, if_false, Bool.false_eq_true]

/-! ## Packets that go on (R331, R337, R338) -/

theorem exec_packetForward {s : State} (port : Nat) {p : Packet} {o : Nat} (hroute : s.fabric.portFor { p with hop := p.hop + 1 } = some o)
    (hgood : p.malformed = false) (hhops : p.hop + 1 + s.fabric.hops p.dst.toNat ≤ 6) :
    exec (.packetForward port p) s = .next (s.modLink o fun l =>
      { l with waiting := l.waiting ++ [⟨port, (s.fabric.link port).channel p, { p with hop := p.hop + 1 }⟩] }) := by
  have hgoes : ¬ (p.malformed = true ∨ 6 < p.hop + 1 + s.fabric.hops p.dst.toNat) := by
    rw [hgood]
    exact not_or.mpr ⟨Bool.false_ne_true, Nat.not_lt.mpr hhops⟩
  show execPacketForward port p s = _
  unfold execPacketForward
  simp only [hroute]
  exact if_neg hgoes

theorem exec_packetForward_unrouted {s : State} (port : Nat) {p : Packet} (hroute : s.fabric.portFor { p with hop := p.hop + 1 } = none) :
    exec (.packetForward port p) s =
      .next ((s.freeBuffer port ((s.fabric.link port).channel p) p).logLine (.discarded p)) := by
  show execPacketForward port p s = _
  unfold execPacketForward
  simp only [hroute]

/-- A link that has granted a packet, with the starvation count after it. -/
def Link.granted (l : Link) (b : Buffered) (starved : Nat) : Link :=
  let p := b.packet
  let c := l.channel p
  let q := { p with sq := p.sq || (!p.reply && decide (l.credits.getD c 0 < 16)) }
  { l with
    credits := modifyAt l.credits c (· - p.flits), open_ := l.open_ ++ (List.range p.flits).map fun k => (q, k)
    starved := starved, rr := l.rr.set p.tier ((p.hop + 1) % 6), rrIn := l.rrIn.set (p.tier * 6 + p.hop) ((b.port + 1) % 37)
    waiting := l.waiting.erase b }

/-- A packet that a port has granted has left the injection queue, if it was the node's own. -/
def State.grants (s : State) (port : Nat) (b : Buffered) (starved : Nat) : State :=
  ({ s with fabric := { s.fabric with out := if b.port = localInput then s.fabric.out.erase b.packet else s.fabric.out } } :
    State).modLink port
    fun _ => (s.fabric.link port).granted b starved

theorem State.link_grants (s : State) {port : Nat} (b : Buffered) (n : Nat) (h : port < s.fabric.links.length) :
    (s.grants port b n).fabric.link port = (s.fabric.link port).granted b n := State.link_modLink { s with fabric := _ } _ h

section Grant

variable {s : State} {port : Nat} {b : Buffered} {n : Nat} (hkeyed : (s.fabric.link port).state = .keyed)
  (hpick : (s.fabric.link port).pick (s.fabric.candidates port) = some (b, n))
include hkeyed hpick

theorem exec_outputGrant : exec (.outputGrant port) s =
    .next (if b.port = localInput then s.grants port b n else (s.grants port b n).freeBuffer b.port b.channel b.packet) := by
  show execOutputGrant port s = _
  unfold execOutputGrant
  refine (if_neg (not_not.mpr hkeyed)).trans ?_
  rw [hpick]
  rfl

/-- A grant changes the port's link and frees the packet's buffer, of which only credits due are seen on a link. -/
theorem exec_outputGrant_link (h : port < s.fabric.links.length) :
    ∃ t due, exec (.outputGrant port) s = .next t ∧ t.fabric.link port = { (s.fabric.link port).granted b n with due := due } := by
  have hlink := s.link_grants b n h
  by_cases hlocal : b.port = localInput
  · exact ⟨_, _, (exec_outputGrant hkeyed hpick).trans (congrArg _ (if_pos hlocal)), hlink⟩
  · obtain ⟨due, hfreed⟩ := (s.grants port b n).link_freeBuffer b.port b.channel b.packet port
    exact ⟨_, due, (exec_outputGrant hkeyed hpick).trans (congrArg _ (if_neg hlocal)), hlink ▸ hfreed⟩

end Grant

/-! ## Frames (R342 to R344) -/

theorem exec_frameClose {s : State} {port : Nat} (h : ((s.fabric.link port).frameDue || s.fabric.creditWait port) = true) :
    exec (.frameClose port) s = .next (s.modLink port fun l =>
      { l with open_ := l.open_.drop 8, unacked := l.unacked ++ [(s.fabric.link port).frame], txSeq := l.txSeq + 1
               due := l.due.map fun n => n - min n 63, nakDue := false }) :=
  if_neg (by simp [h])

theorem exec_frameReceive_outOfOrder {s : State} {port : Nat} {fr : Frame} (hkeyed : (s.fabric.link port).state = .keyed)
    (hlater : (s.fabric.link port).rxSeq.toNat < fr.fseq.toNat) :
    exec (.frameReceive port fr) s = .next (s.modLink port Link.nak) := by
  have hnew : ¬ ((s.fabric.link port).state ≠ .keyed ∨ fr.fseq.toNat < (s.fabric.link port).rxSeq.toNat) := by
    exact not_or.mpr ⟨not_not.mpr hkeyed, by omega⟩
  have hother : fr.fseq ≠ (s.fabric.link port).rxSeq := fun he => by rw [he] at hlater; omega
  exact (if_neg hnew).trans (if_pos hother)

section InOrder

variable {s : State} {port : Nat} {fr : Frame} (hkeyed : (s.fabric.link port).state = .keyed)
  (hseq : fr.fseq = (s.fabric.link port).rxSeq)
include hkeyed hseq

theorem exec_frameReceive_broken (hfails : (s.fabric.link port).passes fr = false) (hfirst : (s.fabric.link port).failed = false) :
    exec (.frameReceive port fr) s = .next (s.modLink port Link.nak) := by
  have hnew : ¬ ((s.fabric.link port).state ≠ .keyed ∨ fr.fseq.toNat < (s.fabric.link port).rxSeq.toNat) := by
    exact not_or.mpr ⟨not_not.mpr hkeyed, hseq ▸ Nat.lt_irrefl _⟩
  refine (if_neg hnew).trans ((if_neg (not_not.mpr hseq)).trans ((if_pos (by simp [hfails])).trans (if_neg (by simp [hfirst]))))

/-- A frame in order that passes its check: its packets that are complete go to their rows, and what it acknowledges is kept no longer. -/
theorem exec_frameReceive_taken (h : port < s.fabric.links.length) (hpass : (s.fabric.link port).passes fr = true) :
    ∃ t, exec (.frameReceive port fr) s = .next t ∧ (t.fabric.link port).rxSeq = (s.fabric.link port).rxSeq + 1 ∧
      t.agenda = s.agenda ++ s.frameRows port (completed fr.plain) ++ (if fr.nak = true then [.nakResend port fr.aseq] else []) ∧
      (t.fabric.link port).unacked = (s.fabric.link port).unacked.filter fun u => decide (fr.aseq.toNat ≤ u.fseq.toNat) := by
  have hnew : ¬ ((s.fabric.link port).state ≠ .keyed ∨ fr.fseq.toNat < (s.fabric.link port).rxSeq.toNat) := by
    exact not_or.mpr ⟨not_not.mpr hkeyed, hseq ▸ Nat.lt_irrefl _⟩
  refine ⟨_, (if_neg hnew).trans ((if_neg (not_not.mpr hseq)).trans (if_neg (by simp [hpass]))), ?_, rfl, ?_⟩
  · exact congrArg Link.rxSeq (s.link_modLink _ h)
  · exact congrArg Link.unacked (s.link_modLink _ h)

end InOrder

/-- Settles O59: one lemma for each operation on a link and each outcome that the statement names. -/
theorem linksAreTrainedAndCarryPackets : Obligations.LinksAreTrainedAndCarryPackets := by
  refine ⟨fun s port peer peerPort lo hi free hport hlo hhi => ?training, fun s port peer hport htrained => ⟨fun secret hagree => ?keyed,
    fun hagree => ?unkeyed⟩, fun s low peer => s.agree_uncertified low, fun s peer pub => s.agree_unsigned,
    fun s port peer hport hkeyed => ⟨fun secret hacked hagree => ?rekeyed, fun hacked hagree => ?dropped, exec_linkRekey_waits peer⟩,
    fun s port hport => ?down, fun s port p o hroute hgood hhops ho => ?forwarded, fun s port p => exec_packetForward_unrouted port,
    fun s port b n hport hkeyed hpick => ?grant, fun s port hport hdue => ?close, fun s port fr hport hkeyed hseq hpass => ?taken,
    fun s port fr hport hkeyed hfirst hwrong => ?nak, fun s port aseq hport => ?resend⟩
  case training =>
    obtain ⟨t, hexec, hlink⟩ := exec_linkTraining s ⟨peer, peerPort, free⟩ hport hlo hhi
    refine ⟨t, hexec, ?_⟩
    rw [hlink]
    refine ⟨rfl, rfl, rfl, rfl, fun c hc => ?_⟩
    simp [List.getD_eq_getElem?_getD, List.getElem?_range hc]
  case keyed =>
    obtain ⟨hlink, hcount⟩ := s.handshake_agrees hport hagree
    refine ⟨_, exec_linkHandshake peer htrained, ?_⟩
    rw [hlink]
    exact ⟨rfl, rfl, rfl, rfl, rfl, hcount⟩
  case unkeyed => exact ⟨_, exec_linkHandshake peer htrained, s.handshake_fails hport hagree⟩
  case rekeyed =>
    refine ⟨_, exec_linkRekey peer hkeyed hacked, ?_⟩
    rw [(s.handshake_agrees hport hagree).1]
    refine ⟨rfl, rfl, ?_⟩
    simp [Link.rekey, hacked]
  case dropped => exact ⟨_, exec_linkRekey peer hkeyed hacked, s.handshake_fails hport hagree⟩
  case down =>
    obtain ⟨hstate, hkeys⟩ := s.linkFails_link hport
    exact ⟨_, rfl, hstate, hkeys, s.linkFails_log port⟩
  case forwarded =>
    exact ⟨_, exec_packetForward port hroute hgood hhops, congrArg Link.waiting (s.link_modLink _ ho)⟩
  case grant =>
    obtain ⟨t, due, hexec, hlink⟩ := exec_outputGrant_link hkeyed hpick hport
    refine ⟨t, hexec, ?_⟩
    rw [hlink]
    exact ⟨rfl, fun hc => (getD_modifyAt _ _ _ _ _ hc).trans (if_pos rfl), rfl, rfl⟩
  case close =>
    refine ⟨_, (s.fabric.link port).frame, exec_frameClose hdue, rfl, rfl, ?_⟩
    rw [s.link_modLink _ hport]
    exact ⟨rfl, rfl, List.length_take_le .., List.take_append_drop ..⟩
  case taken =>
    obtain ⟨t, hexec, hrx, hagenda, hunacked⟩ := exec_frameReceive_taken hkeyed hseq hport hpass
    refine ⟨t, hexec, hrx, hagenda, fun u hu => ?_⟩
    rw [hunacked] at hu
    exact of_decide_eq_true (List.mem_filter.mp hu).2
  case nak =>
    have hexec : exec (.frameReceive port fr) s = .next (s.modLink port Link.nak) := by
      rcases hwrong with hlater | ⟨hseq, hfails⟩
      · exact exec_frameReceive_outOfOrder hkeyed hlater
      · exact exec_frameReceive_broken hkeyed hseq hfails hfirst
    refine ⟨_, hexec, ?_⟩
    rw [s.link_modLink _ hport, Link.nak, if_neg (by simp [hfirst])]
    exact ⟨rfl, rfl, rfl, rfl⟩
  case resend =>
    refine ⟨_, rfl, ?_⟩
    rw [s.link_modLink _ hport]
    exact ⟨rfl, rfl⟩

end Sys2Proof.Machine

/-! SUPPORT. Requests on their streams and the manager (R328, R329, R333, R340, R347): a request stays on its stream until its reply comes,
what sending leaves of the fabric, the routes that a table sets, and what an answer to a launch's submitter changes. -/

namespace Sys2Proof.Machine

/-! ## The source's end of a stream (R333, R340) -/

theorem Fabric.stream_key (f : Fabric) (dst tier : Nat) : (f.stream dst tier).dst = dst ∧ (f.stream dst tier).tier = tier := by
  unfold Fabric.stream
  cases h : f.streams.find? fun x => x.dst == dst && x.tier == tier with
  | none => exact ⟨rfl, rfl⟩
  | some x => simpa using List.find?_some h

/-- The streams after one was put back: it stands for its node and tier, and the others are as they were. -/
theorem Fabric.stream_setStream (f : Fabric) (x : Stream) (dst tier : Nat) :
    (f.setStream x).stream dst tier = if x.dst = dst ∧ x.tier = tier then x else f.stream dst tier := by
  unfold Fabric.stream Fabric.setStream
  by_cases h : x.dst = dst ∧ x.tier = tier
  · rw [if_pos h]
    obtain ⟨rfl, rfl⟩ := h
    rw [find?_replaced f.streams (fun y => y.dst == x.dst && y.tier == x.tier) (x := x) (by simp), Option.getD_some]
  · rw [if_neg h, find?_replaced_other f.streams (fun y => y.dst == x.dst && y.tier == x.tier)
      (fun y => y.dst == dst && y.tier == tier) (x := x) (by simpa using h)]
    intro y hy
    obtain ⟨rfl, rfl⟩ : y.dst = dst ∧ y.tier = tier := by simpa using hy
    refine Bool.eq_false_iff.mpr fun hsame => h ?_
    obtain ⟨hdst, htier⟩ : y.dst = x.dst ∧ y.tier = x.tier := by simpa using hsame
    exact ⟨hdst.symm, htier.symm⟩

/-- Whether a stream still holds a request: queued, or sent and not answered. -/
def Stream.carries (x : Stream) (p : Packet) : Prop := p ∈ x.queued ∨ p ∈ x.sent.map (·.packet)

theorem Stream.pump_key (l : List Packet) (x : Stream) : (x.pump l).1.dst = x.dst ∧ (x.pump l).1.tier = x.tier := by
  induction l generalizing x with
  | nil => exact ⟨rfl, rfl⟩
  | cons q l ih =>
    unfold Stream.pump
    split
    · exact ih _
    · exact ⟨rfl, rfl⟩

/-- Sending what the window admits loses no request. -/
theorem Stream.pump_carries (l : List Packet) (x : Stream) {p : Packet} (h : p ∈ l ∨ p ∈ x.sent.map (·.packet)) :
    (x.pump l).1.carries p := by
  induction l generalizing x with
  | nil => exact .inr (h.resolve_left List.not_mem_nil)
  | cons q l ih =>
    unfold Stream.pump
    split
    · refine ih _ ?_
      rcases h with h | h
      · rcases List.mem_cons.mp h with rfl | h
        · exact .inr (by simp)
        · exact .inl h
      · exact .inr (by rw [List.map_append]; exact List.mem_append_left _ h)
    · exact h

/-- A request is on its stream once it has been made, under the stream's next SEQ, and the stream loses none that it held. -/
theorem Fabric.request_stream (f : Fabric) (p : Packet) (dst tier : Nat) :
    (f.request p).stream dst tier =
      if p.dst.toNat = dst ∧ p.tier = tier then
        (Stream.pump { f.stream dst tier with nextSeq := (f.stream dst tier).nextSeq + 1 }
          ((f.stream dst tier).queued ++ [{ p with seq := (f.stream dst tier).nextSeq }])).1
      else f.stream dst tier := by
  obtain ⟨hdst, htier⟩ := f.stream_key p.dst.toNat p.tier
  have hback := f.stream_setStream (Stream.pump { f.stream p.dst.toNat p.tier with nextSeq := (f.stream p.dst.toNat p.tier).nextSeq + 1 }
    ((f.stream p.dst.toNat p.tier).queued ++ [{ p with seq := (f.stream p.dst.toNat p.tier).nextSeq }])).1 dst tier
  rw [(Stream.pump_key _ _).1, (Stream.pump_key _ _).2, hdst, htier] at hback
  refine hback.trans ?_
  split
  · next h =>
    obtain ⟨rfl, rfl⟩ := h
    rfl
  · rfl

theorem Fabric.request_carries (f : Fabric) (p : Packet) :
    ((f.request p).stream p.dst.toNat p.tier).carries { p with seq := (f.stream p.dst.toNat p.tier).nextSeq } := by
  rw [f.request_stream, if_pos ⟨rfl, rfl⟩]
  exact Stream.pump_carries _ _ (.inl (by simp))

theorem Fabric.request_keeps (f : Fabric) (p : Packet) {q : Packet} {dst tier : Nat} (h : (f.stream dst tier).carries q) :
    ((f.request p).stream dst tier).carries q := by
  rw [f.request_stream]
  split
  · exact Stream.pump_carries _ _ (h.imp_left (List.mem_append_left _))
  · exact h

theorem State.request_carries (s : State) (p : Packet) : ∃ q, ((s.request p).fabric.stream p.dst.toNat p.tier).carries q ∧
    q.typ = p.typ ∧ q.addr = p.addr ∧ q.data = p.data :=
  ⟨_, s.fabric.request_carries { p with rtag := (s.fabric.tagFree s.fabric.reqs).getD s.fabric.nextTag }, rfl, rfl, rfl⟩

theorem State.request_keeps (s : State) (p : Packet) {q : Packet} {dst tier : Nat} (h : (s.fabric.stream dst tier).carries q) :
    ((s.request p).fabric.stream dst tier).carries q :=
  s.fabric.request_keeps { p with rtag := (s.fabric.tagFree s.fabric.reqs).getD s.fabric.nextTag } h

/-! ## What sending leaves -/

/-- Streams, what is to leave by the ports, and the next tag aside, two fabrics are the same. -/
def Fabric.sendsOnly (f g : Fabric) : Prop := g = { f with streams := g.streams, out := g.out, nextTag := g.nextTag }

theorem Fabric.sendsOnly.trans {f g h : Fabric} (hf : f.sendsOnly g) (hg : g.sendsOnly h) : f.sendsOnly h := by
  unfold Fabric.sendsOnly at *
  rw [hg, hf]

theorem State.request_sendsOnly (s : State) (p : Packet) : s.fabric.sendsOnly (s.request p).fabric := rfl

/-- A fold each of whose steps sendsOnly does nothing else to the fabric. -/
theorem sendsOnly_foldl {α : Type} (f : State → α → State) (hf : ∀ (s : State) a, s.fabric.sendsOnly (f s a).fabric) (l : List α)
    (s : State) :
    s.fabric.sendsOnly (l.foldl f s).fabric :=
  foldl_rel (fun s t : State => s.fabric.sendsOnly t.fabric) (fun _ => rfl) (fun _ _ _ => .trans) f hf l s

theorem State.tellPeers_sendsOnly (s : State) (p : State → Nat → Packet) : s.fabric.sendsOnly (s.tellPeers p).fabric :=
  sendsOnly_foldl _ (fun s n => s.request_sendsOnly (p s n)) _ s

theorem State.tellPeers_mem (s : State) (p : State → Nat → Packet) : (s.tellPeers p).mem = s.mem :=
  foldl_inv (fun t : State => t.mem = s.mem) (fun t n => t.request (p t n)) (fun _ _ h => h) _ s rfl

theorem State.tellLost_sendsOnly (s : State) (l package : Nat) : s.fabric.sendsOnly (s.tellLost l package).fabric := by
  unfold State.tellLost
  split
  · rfl
  · split
    · rfl
    · dsimp only
      split <;> rfl

theorem State.reportLost_sendsOnly (s : State) : s.fabric.sendsOnly s.reportLost.fabric := by
  unfold State.reportLost
  refine sendsOnly_foldl _ (fun s l => ?_) _ s
  split
  · rfl
  · dsimp only
    split
    · rfl
    · split
      · exact sendsOnly_foldl _ (fun s n => s.tellLost_sendsOnly l n) _ s
      · refine sendsOnly_foldl _ (fun s n => ?_) _ s
        rfl

/-! ## A launch that is given up (R347) -/

/-- An answer to a launch's submitter changes no launch, and sendsOnly nothing to other packages. -/
theorem State.serveDone_rest (s : State) (d : Delivery) (res : List W32) :
    (s.serveDone d res).launches = s.launches ∧ (s.serveDone d res).fabric = s.fabric := by
  cases h : s.tokenRecord d.wave d.lane d.token with
  | none =>
    rw [State.serveDone, h]
    exact ⟨rfl, rfl⟩
  | some x =>
    obtain ⟨p, r⟩ := x
    obtain ⟨gen, hspent⟩ := (s.undelivered d).consume_sameButStored d.wave d.lane p
    rw [State.serveDone_eq h, hspent]
    exact ⟨rfl, rfl⟩

theorem State.answerSubmit_rest (s : State) (x : Launch) (st : Nat) (check : Option Nat) (package : Nat) (handle : Option Nat) :
    (s.answerSubmit x st check package handle).launches = s.launches ∧
      (s.answerSubmit x st check package handle).fabric = s.fabric := by
  unfold State.answerSubmit
  extract_lets s1
  have hs1 : s1.launches = s.launches ∧ s1.fabric = s.fabric := by
    unfold s1
    split <;> exact ⟨rfl, rfl⟩
  split
  · exact hs1
  · split
    · exact hs1
    · exact hs1.imp (State.serveDone_rest _ _ _).1.trans (State.serveDone_rest _ _ _).2.trans

/-- A message about a launch to each other package that its record names is on the stream to that package. -/
theorem State.toPackages_carries (s : State) (r : BitVec 2048) (typ : PacketType) (handle : Nat) (data : List Byte) {n : Nat}
    (h : n ∈ s.otherPackages r) (hn : n < 4096) : ∃ p, ((s.toPackages r typ handle data).fabric.stream n typ.tier).carries p ∧
      p.typ = typ ∧ p.addr = BitVec.ofNat 64 handle ∧ p.data = data := by
  obtain ⟨hnamed, hother⟩ := List.mem_filter.mp h
  obtain ⟨k, hk, rfl⟩ := List.mem_map.mp hnamed
  have hne : recPkg0 r + k ≠ s.fabric.node := by simpa using hother
  have hdst : (BitVec.ofNat 12 (recPkg0 r + k)).toNat = recPkg0 r + k := by
    rw [BitVec.toNat_ofNat, Nat.mod_eq_of_lt hn]
  unfold State.toPackages
  refine foldl_reaches _ (fun t : State => t.fabric.node = s.fabric.node) (fun t : State => ∃ p,
      (t.fabric.stream (recPkg0 r + k) typ.tier).carries p ∧ p.typ = typ ∧ p.addr = BitVec.ofNat 64 handle ∧ p.data = data)
    (fun t j ht => ?node) (fun t j ht => ?keeps) k (fun t ht => ?sent) _ hk s rfl
  case node =>
    dsimp only
    split
    · exact ht
    · exact ht
  case keeps =>
    obtain ⟨p, hp, hrest⟩ := ht
    dsimp only
    split
    · exact ⟨p, hp, hrest⟩
    · exact ⟨p, t.request_keeps _ hp, hrest⟩
  case sent =>
    dsimp only
    rw [ht, if_neg hne]
    obtain ⟨q, hq, hrest⟩ := t.request_carries { t.packet 0 typ (recPkg0 r + k) handle with data := data }
    refine ⟨q, ?_, hrest⟩
    simpa only [State.packet, hdst] using hq

theorem State.toPackages_launches (s : State) (r : BitVec 2048) (typ : PacketType) (handle : Nat) (data : List Byte) :
    (s.toPackages r typ handle data).launches = s.launches := by
  unfold State.toPackages
  refine foldl_inv (fun t : State => t.launches = s.launches) _ (fun t k ht => ?_) _ s rfl
  dsimp only
  split
  · exact ht
  · exact ht

section GivenUp

variable {s : State} {i : Nat} {x : Launch} (h : s.launches[i]? = some x)
include h

theorem State.abortAll_eq (st : Nat) (check : Option Nat) (package : Nat) : s.abortAll i st check package =
    ((s.toPackages x.record .abort x.handle (toBytes x.record.toNat 256)).modLaunch i
      fun x => { x with completion := some .cancelled }).answerSubmit x st check package none := by
  simp only [State.abortAll, h]

/-- A launch that is given up is cancelled here. -/
theorem State.abortAll_cancels (st : Nat) (check : Option Nat) (package : Nat) :
    ((s.abortAll i st check package).launches[i]?).map (·.completion) = some (some .cancelled) := by
  rw [State.abortAll_eq h, (State.answerSubmit_rest ..).1, State.modLaunch_launches, State.toPackages_launches, getElem?_modifyAt,
    if_pos rfl, h]
  rfl

/-- An ABORT for it is on the stream to every other package that it names. -/
theorem State.abortAll_tells (st : Nat) (check : Option Nat) (package : Nat) {n : Nat} (hn : n ∈ s.otherPackages x.record)
    (hlt : n < 4096) :
    ∃ p, ((s.abortAll i st check package).fabric.stream n PacketType.abort.tier).carries p ∧ p.typ = .abort ∧
      p.addr = BitVec.ofNat 64 x.handle ∧ p.data = toBytes x.record.toNat 256 := by
  rw [State.abortAll_eq h, (State.answerSubmit_rest ..).2]
  exact s.toPackages_carries x.record .abort x.handle _ hn hlt

theorem exec_launchAnswerTimeout {package : Nat} (hoffering : x.offering = true) (hpackage : package ∈ s.otherPackages x.record)
    (hsilent : ∀ a ∈ x.answers, a.1 ≠ package) :
    exec (.launchAnswerTimeout i package) s = .next (s.abortAll i stUnreachable none package) := by
  have hnone : x.answers.any (fun a => a.1 == package) = false := List.any_eq_false.mpr fun a ha => by simpa using hsilent a ha
  have hwaits : ¬ (!x.offering || !(s.otherPackages x.record).contains package || x.answers.any fun a => a.1 == package) = true := by
    simp [hoffering, hpackage, hnone]
  show execLaunchAnswerTimeout i package s = _
  unfold execLaunchAnswerTimeout
  rw [h]
  exact if_neg hwaits

end GivenUp

/-! ## Replies (R333, R340) -/

theorem exec_replyReceive {s : State} {p : Packet} {e : Sent} (hasked : (s.fabric.stream p.src.toNat p.tier).asked p = some e)
    (hgood : p.malformed = false) :
    let x1 := (s.fabric.stream p.src.toNat p.tier).heard e p.echo
    let r := Stream.pump x1 x1.queued
    let f := s.fabric.setStream r.1
    exec (.replyReceive p) s = .next (({ s with fabric := { f with out := f.out ++ r.2 } } : State).takeReply e.seq e.packet p) := by
  intro x1 r f
  show execReplyReceive p s = _
  unfold execReplyReceive
  refine (if_neg (by simp [hgood])).trans ?_
  rw [hasked]

/-- A request that was heard of is on its stream no longer. -/
theorem Stream.heard_sent (x : Stream) (e : Sent) (echo : Bool) : e ∉ (x.heard e echo).sent := by
  have hrest : e ∉ x.sent.filter fun y => y != e := fun he => by simpa using (List.mem_filter.mp he).2
  unfold Stream.heard
  extract_lets rest
  split
  · split
    · exact hrest
    · next hnew =>
      intro he
      obtain ⟨y, -, hy⟩ := List.mem_map.mp he
      exact hnew (congrArg Sent.beforeHalving hy).symm
  · split
    · exact hrest
    · exact hrest

theorem Stream.heard_halves (x : Stream) {e : Sent} (h : e.beforeHalving = false) : (x.heard e true).window = max 4 (x.window / 2) := by
  simp [Stream.heard, h]

theorem Stream.heard_widens (x : Stream) (e : Sent) :
    (x.heard e false).window = if x.window ≤ x.good + e.flits then min 256 (x.window + 1) else x.window := by
  unfold Stream.heard
  rw [if_neg Bool.false_ne_true]
  split <;> rfl

theorem exec_requestResend {s : State} {dst tier : Nat} {seq : BitVec 16} {e : Sent}
    (h : (s.fabric.stream dst tier).sent.find? (fun e => e.seq == seq) = some e) :
    exec (.requestResend dst tier seq) s = .next (s.sendReply e.packet) := by
  show execRequestResend dst tier seq s = _
  unfold execRequestResend
  rw [h]

/-! ## The manager (R328, R329) -/

theorem exec_heartbeat_manager {s : State} (h : s.fabric.manager = s.fabric.node) : exec .heartbeat s =
    .next (({ s with fabric := { s.fabric with beats := s.fabric.beats + 1, missed := 0 } } : State).tellPeers
      fun s n => s.packet 0 .manager n 0) := by
  show execHeartbeat s = _
  unfold execHeartbeat
  simp only [if_pos h]

theorem exec_heartbeat_other {s : State} (h : s.fabric.manager ≠ s.fabric.node) : exec .heartbeat s =
    .next { s with fabric := { s.fabric with beats := s.fabric.beats + 1, missed := s.fabric.missed + 1 } } := by
  show execHeartbeat s = _
  unfold execHeartbeat
  simp only [if_neg h]

/-- A link's report to the manager changes neither who it is nor how many heartbeats are missed. -/
theorem State.reportLink_manager (s : State) (port : Nat) :
    (s.reportLink port).fabric.manager = s.fabric.manager ∧ (s.reportLink port).fabric.missed = s.fabric.missed := by
  unfold State.reportLink Fabric.learn
  dsimp only
  split
  · split <;> exact ⟨rfl, rfl⟩
  · exact ⟨rfl, rfl⟩

theorem State.reportLinks_manager (s : State) :
    s.reportLinks.fabric.manager = s.fabric.manager ∧ s.reportLinks.fabric.missed = s.fabric.missed := by
  unfold State.reportLinks
  refine foldl_inv (fun t : State => t.fabric.manager = s.fabric.manager ∧ t.fabric.missed = s.fabric.missed) _ (fun t port ht => ?_) _ s
    ⟨rfl, rfl⟩
  split
  · exact (t.reportLink_manager port).imp (·.trans ht.1) (·.trans ht.2)
  · exact ht

/-- Whoever is taken as manager is it, and no heartbeat of it is missed. -/
theorem State.takeManager_manager (s : State) (n : Nat) : (s.takeManager n).fabric.manager = n ∧ (s.takeManager n).fabric.missed = 0 := by
  unfold State.takeManager
  extract_lets s1 own
  split
  · exact ⟨rfl, rfl⟩
  · exact State.reportLinks_manager _

/-- The lowest of some numbers is one of them, and none is lower. -/
theorem foldl_min_spec (l : List Nat) (a : Nat) :
    (l.foldl min a = a ∨ l.foldl min a ∈ l) ∧ l.foldl min a ≤ a ∧ ∀ n ∈ l, l.foldl min a ≤ n := by
  induction l generalizing a with
  | nil => exact ⟨.inl rfl, le_rfl, fun n hn => (nomatch hn)⟩
  | cons b l ih =>
    obtain ⟨hone, hle, hall⟩ := ih (min a b)
    rw [List.foldl_cons]
    refine ⟨?_, hle.trans (min_le_left a b), fun n hn => ?_⟩
    · rcases hone with hone | hone
      · rcases min_choice a b with hmin | hmin
        · exact .inl (hone.trans hmin)
        · exact .inr (by rw [hone, hmin]; exact List.mem_cons_self)
      · exact .inr (List.mem_cons_of_mem b hone)
    · rcases List.mem_cons.mp hn with rfl | hn
      · exact hle.trans (min_le_right a n)
      · exact hall n hn

/-- The routes after entries for some nodes were written: each of the nodes has its own. -/
theorem Sparse.get_setNodes (g : Nat → BitVec 128) {n : Nat} (nodes : List Nat) (hlt : ∀ d ∈ nodes, d < 4096) (m : Sparse (BitVec 128))
    (h : n ∈ nodes ∨ Sparse.get 0 m n = g n) :
    Sparse.get 0 (nodes.foldl (fun m d => Sparse.set 0 m (d % 4096) (g d)) m) n = g n := by
  induction nodes generalizing m with
  | nil => exact h.resolve_left List.not_mem_nil
  | cons d ds ih =>
    refine ih (fun e he => hlt e (List.mem_cons_of_mem d he)) _ ?_
    dsimp only
    rw [Nat.mod_eq_of_lt (hlt d List.mem_cons_self), Sparse.get_set]
    by_cases hd : n = d
    · exact .inr (by rw [if_pos hd, hd])
    · rw [if_neg hd]
      exact h.imp_left fun hn => (List.mem_cons.mp hn).resolve_left hd

theorem Fabric.routes_setRoutes (f : Fabric) (g : Nat → BitVec 128) {nodes : List Nat} (hlt : ∀ d ∈ nodes, d < 4096) {n : Nat}
    (h : n ∈ nodes) : Sparse.get 0 (f.setRoutes (nodes.map fun d => (d, g d))).routes n = g n := by
  unfold Fabric.setRoutes
  rw [List.foldl_map]
  exact Sparse.get_setNodes g nodes hlt f.routes (.inl h)

/-- Tables that are minimal are written; what else is sent and reported leaves the routes. -/
theorem exec_routeCompute_good {s : State} {tables : List (Nat × List (Nat × BitVec 128))} (hmanager : s.fabric.manager = s.fabric.node)
    (hgood : s.fabric.tablesGood tables = true) : ∃ t, exec (.routeCompute tables) s = .next t ∧
      ({ s.fabric.setRoutes (s.fabric.nodes.map fun d => (d, entryOf tables s.fabric.node d)) with
        stale := false, tablesSent := s.fabric.tablesSent + 1 } : Fabric).sendsOnly t.fabric := by
  have hgoes : ¬ (s.fabric.manager ≠ s.fabric.node ∨ (!s.fabric.tablesGood tables) = true) := by simp [hmanager, hgood]
  refine ⟨_, if_neg hgoes, ?_⟩
  refine Fabric.sendsOnly.trans ?_ (State.reportLost_sendsOnly _)
  refine Fabric.sendsOnly.trans ?_ (sendsOnly_foldl _ (fun s n => sendsOnly_foldl _ (fun s e => ?_) _ s) _ _)
  · exact sendsOnly_foldl _ (fun s n => sendsOnly_foldl _ (fun s e => s.request_sendsOnly _) _ s) _ { s with fabric := _ }
  · split <;> rfl

theorem exec_routeCompute_bad {s : State} {tables : List (Nat × List (Nat × BitVec 128))} (h : s.fabric.tablesGood tables = false) :
    exec (.routeCompute tables) s = .next s := if_pos (.inr (by simp [h]))

/-- Settles O58: a reply, a repeat, a timeout, a heartbeat, an election and the tables, one lemma each. -/
theorem repliesTimeoutsAndTheManager : Obligations.RepliesTimeoutsAndTheManager := by
  refine ⟨fun s p e hasked hgood => ?reply, fun x e echo => ⟨x.heard_sent e echo, ?halves, ?widens⟩, fun s dst tier seq e =>
    exec_requestResend,
    fun s i x package hx hcommitted hlive horigin hpackage hsilent => ?timeout, fun s hmanager => ?beats, fun s hmanager => ?missed,
    fun s l => ?election, fun s tables hmanager => ⟨fun hgood hlt => ?tables, exec_routeCompute_bad⟩⟩
  case reply => exact exec_replyReceive hasked hgood
  case halves =>
    rintro rfl
    exact x.heard_halves
  case widens =>
    rintro rfl
    exact x.heard_widens e
  case timeout =>
    have hoffering : x.offering = true := by simp [Launch.offering, Launch.live, hcommitted, hlive, horigin]
    refine ⟨_, exec_launchAnswerTimeout hx hoffering hpackage hsilent, State.abortAll_cancels hx _ _ _, fun n hn hlt => ?_⟩
    exact State.abortAll_tells hx _ _ _ hn hlt
  case beats =>
    have hsent := State.tellPeers_sendsOnly { s with fabric := { s.fabric with beats := s.fabric.beats + 1, missed := 0 } }
      fun s n => s.packet 0 .manager n 0
    exact ⟨_, exec_heartbeat_manager hmanager, congrArg Fabric.beats hsent, congrArg Fabric.missed hsent, State.tellPeers_mem _ _⟩
  case missed => exact ⟨exec_heartbeat_other hmanager, fun hthree => if_pos ⟨hmanager, hthree⟩⟩
  case election =>
    obtain ⟨hmanager, hmissed⟩ := State.takeManager_manager (s.tellPeers fun s n => { s.packet 0 .manager n 0 with opc := 1 })
      (l.foldl min s.fabric.node)
    obtain ⟨hone, hnode, hall⟩ := foldl_min_spec l s.fabric.node
    refine ⟨_, rfl, ?_⟩
    rw [hmanager]
    exact ⟨hone, hnode, hall, hmissed⟩
  case tables =>
    obtain ⟨t, hexec, hsent⟩ := exec_routeCompute_good hmanager hgood
    refine ⟨t, hexec, congrArg Fabric.tablesSent hsent, congrArg Fabric.stale hsent, fun n hn => ?_⟩
    exact (congrArg (fun f : Fabric => Sparse.get 0 f.routes n) hsent).trans (Fabric.routes_setRoutes s.fabric _ hlt hn)

end Sys2Proof.Machine

/-! SUPPORT. Requests of hosts (R362, R369, R370): residency and its reset, pins and evictions of a range, attestation, and a launch by the
path of its file. -/

namespace Sys2Proof.Machine

/-! ## Residency (R370) -/

section Residency

variable {s : State} {ctx : Nat} {c : Ctx} (hc : s.ctx? ctx = some c) (q : HostReq)
include hc

theorem exec_residencyQuery : exec (.residencyQuery q ctx) s =
    .next (s.reply (some q) opResidency stOk (BitVec.ofNat 32 ((s.world c.world).high * 256 + (s.world c.world).low))
      (BitVec.ofNat 64 (s.framedPages c.world).length) []) := by
  show execResidencyQuery q ctx s = _
  unfold execResidencyQuery
  rw [hc]

theorem exec_residencyReset : ∃ n, exec (.residencyReset q ctx) s =
    .next (({ s with pinned := s.pinned.filter fun e => e.1 != ctx } : State).reply (some q) opResidency stOk 0 n []) := by
  have hexec : exec (.residencyReset q ctx) s = execResidencyReset q ctx s := rfl
  unfold execResidencyReset at hexec
  rw [hc] at hexec
  exact ⟨_, hexec⟩

/-! ## Pins and evictions (R370) -/

variable {name : W128} {offset length : W64} {d : DirEntry} {r : ObjRec} (hd : c.known name = some d) (hr : s.recOf ctx d.obj = some r)
  (hsize : offset.toNat ≤ d.size)
include hd hr hsize

/-- A range whose pages are present is pinned. -/
theorem exec_pin_present (hpresent : s.allPresent (r.rangePages offset.toNat length.toNat) = true) :
    exec (.pin q ctx name offset length) s =
      .next (((s.unawait (.pin q ctx name offset length)).pinPages ctx (r.rangePages offset.toNat length.toNat)).reply (some q)
        opPin stOk 0 0 []) := by
  have hknown : ((s.ctx? ctx).bind fun c => c.known name) = some d := by rw [hc]; exact hd
  have hrec : s.needRec ctx d = some (s, r) := by
    unfold State.recOf at hr
    unfold State.needRec
    rw [hr]
  show execPin q ctx name offset length s = _
  unfold execPin
  simp only [hknown, if_neg (Nat.not_lt.mpr hsize), hrec, State.whenPresent, if_pos hpresent]

/-- What an eviction answers with, or that it goes on waiting for pages that have still to depart. -/
def State.evictAnswer (q : HostReq) (i : Instr) : State × Option Nat → State
  | (s, some st) => (s.unawait i).reply (some q) opEvict st 0 0 []
  | (s, none) => s.await i

/-- The departures stand as a variable, so that no check of this proof evaluates them. -/
theorem exec_evict {departs : List Nat → State × Option Nat} (hdeparts : s.evictPages = departs) :
    exec (.evict q ctx name offset length) s =
      .next (State.evictAnswer q (.evict q ctx name offset length) (departs (r.rangePages offset.toNat length.toNat))) := by
  have hknown : ((s.ctx? ctx).bind fun c => c.known name) = some d := by rw [hc]; exact hd
  show execEvict q ctx name offset length s = _
  unfold execEvict
  rw [hdeparts, hknown]
  refine (if_neg (Nat.not_lt.mpr hsize)).trans ?_
  rw [hr]
  obtain ⟨u, st, he⟩ : ∃ u st, departs (r.rangePages offset.toNat length.toNat) = (u, st) := ⟨_, _, rfl⟩
  dsimp only
  rw [he]
  cases st <;> rfl

end Residency

theorem State.exempt_pinPages (s : State) (owner : Nat) {pages : List Nat} {p : Nat} (h : p ∈ pages) :
    (s.pinPages owner pages).exempt p = true := by
  refine List.any_eq_true.mpr ⟨(owner, p), ?_, beq_self_eq_true p⟩
  by_cases hold : (owner, p) ∈ s.pinned
  · exact List.mem_append_left _ hold
  · exact List.mem_append_right _ (List.mem_filter.mpr ⟨List.mem_map_of_mem h, by simpa using hold⟩)

/-- Pages that depart change nothing of what stands for the package as a whole (R286). -/
theorem State.departed_pkg (s : State) (page : Nat) : (s.departed page).pkg = s.pkg := by
  have hhome : (s.sectorsHome (s.frameOf page)).pkg = s.pkg := by
    unfold State.sectorsHome
    refine foldl_inv (fun t : State => t.pkg = s.pkg) _ (fun t i ht => ?_) _ s rfl
    exact ht
  rw [State.departed_eq]
  split
  · exact hhome
  · rfl

theorem State.depart_pkg (s : State) (page : Nat) : (s.depart page).pkg = s.pkg := by
  rw [State.depart_eq]
  dsimp only
  split
  · rfl
  · split
    · exact foldl_inv (fun t : State => t.pkg = s.pkg) (fun u i => u.sendSector (s.frameOf page) i)
        (fun u i hu => ((onlySent.refl u).sendSector _ _).1 ▸ hu) _ _ rfl
    · exact (s.stopComing page).departed_pkg page

theorem State.foldl_depart_pkg (s : State) (pages : List Nat) : (pages.foldl State.depart s).pkg = s.pkg :=
  foldl_inv (fun t : State => t.pkg = s.pkg) State.depart (fun t p ht => (t.depart_pkg p).trans ht) pages s rfl

theorem State.getLast?_replies_reply (s : State) (q : HostReq) (op status : Nat) :
    ((s.reply (some q) op status 0 0 []).pkg.replies.getLast?).map (·.status) = some status := by
  simp [State.reply, State.tell]

/-- A range that nothing exempts has departed, and the answer is that it is absent or waits while a page is on its way home. -/
theorem evictAnswer_departs (s : State) (q : HostReq) (i : Instr) (pages : List Nat) :
    let s1 := pages.foldl State.depart s
    let t := State.evictAnswer q i (s1, if s1.allAbsent pages then some stOk else none)
    t.frameMap = s1.frameMap ∧ if s1.allAbsent pages = true then (t.pkg.replies.getLast?).map (·.status) = some 0
    else t.pkg.replies = s.pkg.replies ∧ i ∈ t.pkg.waiting := by
  intro s1 t
  by_cases h : s1.allAbsent pages = true
  · have ht : t = (s1.unawait i).reply (some q) opEvict stOk 0 0 [] := congrArg (fun o => State.evictAnswer q i (s1, o)) (if_pos h)
    rw [if_pos h, ht]
    exact ⟨rfl, State.getLast?_replies_reply ..⟩
  · have ht : t = s1.await i := congrArg (fun o => State.evictAnswer q i (s1, o)) (if_neg h)
    rw [if_neg h, ht]
    exact ⟨rfl, (congrArg Package.replies (s.foldl_depart_pkg _) :), State.mem_await ..⟩

/-! ## Attestation (R362) -/

theorem exec_attest {s : State} {q : HostReq} (nonce : BitVec 256) (h : (s.world (q.fn / 3)).live = true) :
    let report := s.report (q.fn / 3) nonce (s.pkg.attestCount.toNat + 1)
    let sig := (Config.falconSign identity.2 (shake report 64) (s.randomness 0)).take 1280
    exec (.attest q.port ⟨q.fn, q.id⟩ nonce) s =
      .next (({ s with pkg := { s.pkg with
        attestCount := BitVec.ofNat 64 (s.pkg.attestCount.toNat + 1), keyCount := s.pkg.keyCount + 1 } } : State).reply (some q)
          opAttest stOk 0
        0 (report ++ toBytes sig.length 2 ++ toBytes 0 6 ++ (sig ++ List.replicate (1280 - sig.length) 0))) := by
  show execAttest q.port ⟨q.fn, q.id⟩ nonce s = _
  unfold execAttest
  exact if_neg (by simp [h])

/-! ## A launch by the path of its file (R369) -/

theorem exec_launchFile {s : State} {q : HostReq} {path : List Byte} {threads waves teams : W32} {prio : Byte} {c : Nat} {obj : W64}
    (hlen : path.length ≤ 1024) (hzero : path.contains 0 = true) (hprio : prio.toNat ≤ 7)
    (hfirst : s.behindWindow q.port (.launchFile q.port ⟨q.fn, q.id⟩ path threads waves teams prio) = false)
    (hfile : filePath path = some (c, obj, 2)) :
    let record (base : Nat) : BitVec 2048 := fileRecord c (fnWorld q.fn) obj threads waves teams prio base s.fabric.node
    let s0 := s.unawait (.launchFile q.port ⟨q.fn, q.id⟩ path threads waves teams prio)
    exec (.launchFile q.port ⟨q.fn, q.id⟩ path threads waves teams prio) s =
      .next (s0.submitFor (fnWorld q.fn) (record (s0.fileBase c (record 0))) (some q) opFile) := by
  intro record s0
  have hshaped : ¬ (1024 < path.length ∨ (!path.contains 0) = true ∨ 7 < prio.toNat) := by
    rw [hzero]
    exact not_or.mpr ⟨Nat.not_lt.mpr hlen, not_or.mpr ⟨Bool.false_ne_true, Nat.not_lt.mpr hprio⟩⟩
  show execLaunchFile q.port ⟨q.fn, q.id⟩ path threads waves teams prio s = _
  unfold execLaunchFile
  refine (if_neg (by simp [hfirst])).trans ((if_neg hshaped).trans ?_)
  rw [hfile]
  rfl

/-- Settles O53: one lemma for each request, and what departures and exemptions leave. -/
theorem hostRequestsAreAnswered : Obligations.HostRequestsAreAnswered := by
  refine ⟨fun s q ctx c hc => ⟨⟨_, exec_residencyQuery hc q, rfl⟩, ?reset, fun name offset length d r hd hr hsize => ⟨fun hpresent => ?pin,
    fun hfree => ?evict⟩⟩, fun s q nonce hlive => ⟨_, exec_attest nonce hlive, rfl, rfl, ?attest⟩,
    fun s q path threads waves teams prio c obj hlen hzero hprio hfirst => exec_launchFile hlen hzero hprio hfirst⟩
  case reset =>
    obtain ⟨n, hexec⟩ := exec_residencyReset hc q
    exact ⟨_, hexec, rfl⟩
  case pin =>
    exact ⟨_, exec_pin_present hc q hd hr hsize hpresent, fun p hp => State.exempt_pinPages _ ctx hp,
    State.getLast?_replies_reply ..⟩
  case evict => exact ⟨_, (exec_evict hc q hd hr hsize rfl).trans (by rw [State.evictPages_departs hfree]),
    evictAnswer_departs _ q _ _⟩
  case attest => simp [State.reply, State.tell]

end Sys2Proof.Machine

/-! SUPPORT. What the reset of a world leaves of it (R319), and what the reset of a device keeps (R364). -/

namespace Sys2Proof.Machine

/-- A world without keys, and without a context that lives: what its reset leaves (R319). -/
def State.worldGone (s : State) (w : Nat) : Prop :=
  (s.world w).lineKey = none ∧ (s.world w).sealKeys = [] ∧ ∀ c ∈ s.ctxs, c.live = true → c.world ≠ w

theorem State.worldGone.of_eq {s t : State} {w : Nat} (h : s.worldGone w) (hw : t.worlds = s.worlds) (hc : t.ctxs = s.ctxs) :
    t.worldGone w := by
  obtain ⟨hline, hseal, hctx⟩ := h
  have hworld : t.world w = s.world w := sameWorlds.world hw w
  exact ⟨hworld ▸ hline, hworld ▸ hseal, hc ▸ hctx⟩

theorem State.endContexts_ctxs (s : State) (p : Ctx → Bool) :
    (s.endContexts p).ctxs = s.ctxs.map fun c => if p c then { c with live := false } else c := rfl

theorem State.endContexts_dead (s : State) (p : Ctx → Bool) {c : Ctx} (h : c ∈ (s.endContexts p).ctxs) (hlive : c.live = true) :
    p c = false := by
  rw [s.endContexts_ctxs p] at h
  obtain ⟨c0, -, rfl⟩ := List.mem_map.mp h
  by_cases hc : p c0 = true
  · rw [if_pos hc] at hlive
    exact absurd hlive Bool.false_ne_true
  · rw [if_neg hc]
    simpa using hc

/-- No world stands at a number beyond those that there are. -/
theorem State.world_none (s : State) {w : Nat} (h : ¬ w < s.worlds.length) : s.world w = World.reset := by
  simp [State.world, List.getD_eq_getElem?_getD, List.getElem?_eq_none (Nat.le_of_not_lt h)]

/-- Without its keys a world has none, and where it does not exist it had none. -/
theorem State.world_unkeyed (s : State) (w : Nat) :
    let t := s.modWorld w fun x => { x with lineKey := none, sealKeys := [] }
    (t.world w).lineKey = none ∧ (t.world w).sealKeys = [] := by
  intro t
  by_cases hw : w < s.worlds.length
  · rw [s.world_modWorld w _ hw]
    exact ⟨rfl, rfl⟩
  · rw [State.world_none t (by rwa [State.modWorld_worlds, length_modifyAt])]
    exact ⟨rfl, rfl⟩

/-- The last steps of the reset: the keys go, then the contexts. -/
theorem State.resetWorld_ends (s : State) (w : Nat) : ∃ u : State,
    (s.resetWorld w).worlds = (u.modWorld w fun x => { x with lineKey := none, sealKeys := [] }).worlds ∧
      (s.resetWorld w).ctxs = (u.endContexts fun c => c.world == w).ctxs := by
  have hs : s.resetWorld w = s.resetWorld w := rfl
  conv at hs => rhs; unfold State.resetWorld
  extract_lets s1 s2 s3 s4 s5 s6 at hs
  clear_value s5
  exact ⟨s5, (congrArg State.worlds hs :), (congrArg State.ctxs hs :)⟩

theorem State.resetWorld_gone (s : State) (w : Nat) : (s.resetWorld w).worldGone w := by
  obtain ⟨u, hworlds, hctxs⟩ := s.resetWorld_ends w
  generalize s.resetWorld w = t at hworlds hctxs ⊢
  obtain ⟨hline, hseal⟩ := u.world_unkeyed w
  have hworld : t.world w = _ := sameWorlds.world (s := u.modWorld w _) hworlds w
  refine ⟨hworld ▸ hline, hworld ▸ hseal, fun c hc hlive => ?_⟩
  simpa using u.endContexts_dead (fun c => c.world == w) (hctxs ▸ hc) hlive

/-! ## The reset of a device (R364) -/

/-- The device with its queues and what it has taken forgotten. -/
def HostFn.forgotten (x : HostFn) : HostFn :=
  { x with features := 0, featuresOk := false, isr := 0, pending := 0, outstanding := [] }

/-- The answers of a device to the requests that it leaves. -/
def State.answerReset (s : State) (port fn : Nat) : State :=
  (s.unanswered port fn).foldl (fun s e => s.reply (some ⟨port, fn, e.1⟩) e.2 stReset 0 0 []) s

theorem State.answerReset_keeps {β : Type} (g : State → β) (hg : ∀ (s : State) r op, g (s.reply (some r) op stReset 0 0 []) = g s)
    (s : State) (port fn : Nat) : g (s.answerReset port fn) = g s :=
  foldl_inv (fun t => g t = g s) _ (fun t _ ht => (hg t _ _).trans ht) _ s rfl

theorem State.answerReset_replies (s : State) (port fn : Nat) : (s.answerReset port fn).pkg.replies =
    s.pkg.replies ++ (s.unanswered port fn).map fun e =>
      { port := some port, fn := some fn, id := some e.1, op := e.2, status := stReset, aux := 0, value := 0, body := [] } := by
  unfold State.answerReset
  generalize s.unanswered port fn = l
  induction l generalizing s with
  | nil => exact (List.append_nil _).symm
  | cons e l ih =>
    rw [List.foldl_cons, ih, List.map_cons, ← List.singleton_append, ← List.append_assoc]
    rfl

/-- Of a reset device the answers come first; nothing but the agenda, the launches, the pins and the package's own state changes beyond. -/
theorem State.resetFn_rest (s : State) (port fn : Nat) :
    let u := s.answerReset port fn
    let t := s.resetFn port fn
    t.pkg.replies = u.pkg.replies ∧ t.pkg.fns = (u.setFn (u.fn port fn).forgotten).pkg.fns ∧ t.worlds = u.worlds ∧ t.mem = u.mem ∧
      t.waves = u.waves := by
  intro u t
  have ht : t = s.resetFn port fn := rfl
  unfold State.resetFn at ht
  extract_lets open_ taken notifies s1 s2 s3 at ht
  have hanswered : u = s1 := rfl
  clear_value u s1
  subst hanswered
  rw [ht]
  split <;> exact ⟨rfl, rfl, rfl, rfl, rfl⟩

theorem State.resetFn_kept (s : State) (port fn : Nat) : let t := s.resetFn port fn
    t.mem = s.mem ∧ t.waves = s.waves ∧ sameWorlds s t := by
  obtain ⟨-, -, hworlds, hmem, hwaves⟩ := s.resetFn_rest port fn
  exact ⟨hmem.trans (State.answerReset_keeps State.mem (fun _ _ _ => rfl) s port fn),
    hwaves.trans (State.answerReset_keeps State.waves (fun _ _ _ => rfl) s port fn),
    hworlds.trans (State.answerReset_keeps State.worlds (fun _ _ _ => rfl) s port fn)⟩

end Sys2Proof.Machine

/-! SUPPORT. Device functions (R364 to R370): what a function of a port is after it was set, the features that hold, the requests taken from
queues, the resets of a device, and the configuration semaphore. -/

namespace Sys2Proof.Machine

/-! ## The function of a port -/

theorem State.fn_names (s : State) (port fn : Nat) : (s.fn port fn).port = port ∧ (s.fn port fn).fn = fn := by
  unfold State.fn
  cases h : s.pkg.fns.find? fun f => f.port == port && f.fn == fn with
  | none => exact ⟨rfl, rfl⟩
  | some x => simpa using List.find?_some h

theorem State.fn_setFn (s : State) {x : HostFn} {port fn : Nat} (hx : x.port = port ∧ x.fn = fn) : (s.setFn x).fn port fn = x := by
  obtain ⟨rfl, rfl⟩ := hx
  unfold State.fn State.setFn
  rw [find?_replaced s.pkg.fns (fun y => y.port == x.port && y.fn == x.fn) (by simp)]
  rfl

theorem State.fn_of_fns {s t : State} (h : t.pkg.fns = s.pkg.fns) (port fn : Nat) : t.fn port fn = s.fn port fn := by
  unfold State.fn
  rw [h]

theorem HostFn.forgotten_eq {x : HostFn} {port fn : Nat} (hx : x.port = port ∧ x.fn = fn) :
    x.forgotten = { port := port, fn := fn, features := 0, featuresOk := false, isr := 0, pending := 0, outstanding := [] } := by
  obtain ⟨rfl, rfl⟩ := hx
  rfl

/-! ## Features (R364, R366) -/

theorem exec_featuresOk (s : State) (port fn : Nat) (x : W64) : ∃ t, exec (.featuresOk port fn x) s = .next t ∧
    (t.fn port fn).features = x ∧ ((t.fn port fn).featuresOk = true ↔ x.getLsbD 32 = true ∧ s.serves port fn = true ∧
      ∀ b, b < 64 → x.getLsbD b = true → b ∈ offered fn) := by
  refine ⟨_, rfl, ?_⟩
  rw [State.fn_setFn s (by exact s.fn_names port fn)]
  refine ⟨rfl, ?_⟩
  simp only [Bool.and_eq_true, List.all_eq_true, List.mem_range, Bool.or_eq_true, Bool.not_eq_true', List.contains_iff_mem, and_assoc]
  refine and_congr_right fun _ => and_congr_right fun _ => forall_congr' fun b => imp_congr_right fun _ => ?_
  cases x.getLsbD b <;> simp

/-! ## Queues (R364, R368) -/

section Queues

variable {s : State} {port fn : Nat}

/-- A function that has its features, and a queue that it has, takes what comes on it. -/
theorem exec_queueNotify {m : QueueMessage} (hfeatures : (s.fn port fn).featuresOk = true) (hserves : s.serves port fn = true)
    (hfirst : s.behindWindow port (.queueNotify port fn m) = false) (hqueue : m.queue < queuesOf fn) :
    exec (.queueNotify port fn m) s =
      let s0 := s.unawait (.queueNotify port fn m)
      .next (match fn % 3 with
        | 0 => if m.queue = 1 ∧ (m.service = launchPort ∨ m.service = managementPort) then s0.message port fn m.service m.bytes else s0
        | 1 => s0
        | _ => s0.takes port fn ⟨m.queue, BitVec.ofNat 64 (field m.bytes 8 8), field m.bytes 4 4⟩) := by
  show execQueueNotify port fn m s = _
  unfold execQueueNotify
  exact (if_neg (by simp [hfeatures, hserves, hqueue])).trans (if_neg (by simp [hfirst]))

/-- A message to one of the services on the transmit queue of a vsock function (R366, R369). -/
theorem exec_queueNotify_message {m : QueueMessage} (hfeatures : (s.fn port fn).featuresOk = true) (hserves : s.serves port fn = true)
    (hfirst : s.behindWindow port (.queueNotify port fn m) = false) (hvsock : fn % 3 = 0) (hqueue : m.queue = 1)
    (hservice : m.service ∈ [launchPort, managementPort]) : exec (.queueNotify port fn m) s =
      .next ((s.unawait (.queueNotify port fn m)).message port fn m.service m.bytes) := by
  rw [exec_queueNotify hfeatures hserves hfirst (by simp [queuesOf, hvsock, hqueue])]
  simp only [hvsock]
  exact congrArg Host.Outcome.next (if_pos ⟨hqueue, by simpa using hservice⟩)

theorem State.fn_takes (s : State) (port fn : Nat) (o : HostItem) :
    (s.takes port fn o).fn port fn = { s.fn port fn with outstanding := (s.fn port fn).outstanding ++ [o] } :=
  State.fn_setFn s (s.fn_names port fn)

theorem State.message_request {bs : List Byte} {service : Nat} {i : Instr}
    (h : messageRequest service ⟨port, fn, BitVec.ofNat 64 (field bs 8 8)⟩ bs = some i) : s.message port fn service bs =
      let s1 := s.takes port fn ⟨0, BitVec.ofNat 64 (field bs 8 8), field bs 4 2⟩
      { s1 with agenda := s1.agenda ++ [i] } := by
  unfold State.message
  extract_lets r op s1
  rw [h]

theorem State.message_malformed {bs : List Byte} {service : Nat}
    (h : messageRequest service ⟨port, fn, BitVec.ofNat 64 (field bs 8 8)⟩ bs = none) : s.message port fn service bs =
      (s.takes port fn ⟨0, BitVec.ofNat 64 (field bs 8 8), field bs 4 2⟩).reply
        (some ⟨port, fn, BitVec.ofNat 64 (field bs 8 8)⟩) (field bs 4 2) stMalformed 0 0 [] := by
  unfold State.message
  extract_lets r op s1
  rw [h]

end Queues

/-! ## Resets (R318, R319, R364) -/

theorem State.fn_resetFn (s : State) (port fn : Nat) : (s.resetFn port fn).fn port fn =
    { port := port, fn := fn, features := 0, featuresOk := false, isr := 0, pending := 0, outstanding := [] } := by
  obtain ⟨-, hfns, -⟩ := s.resetFn_rest port fn
  have hnames := (s.answerReset port fn).fn_names port fn
  rw [State.fn_of_fns hfns, State.fn_setFn _ (x := HostFn.forgotten _) hnames, HostFn.forgotten_eq hnames]

theorem State.loseConfig_rest (s : State) (port : Nat) : let t := s.loseConfig port
    t.pkg.fns = s.pkg.fns ∧ t.pkg.replies = s.pkg.replies ∧ t.pkg.cfgOwner ≠ some port ∧ t.mem = s.mem ∧ t.waves = s.waves := by
  unfold State.loseConfig
  split
  · exact ⟨rfl, rfl, nofun, rfl, rfl⟩
  · next h => exact ⟨rfl, rfl, h, rfl, rfl⟩

theorem exec_deviceFunctionReset (s : State) (port fn : Nat) : ∃ t, exec (.deviceFunctionReset port fn) s = .next t ∧
    t.pkg.fns = (s.resetFn port fn).pkg.fns ∧ t.pkg.replies = (s.resetFn port fn).pkg.replies ∧
      (fn = 0 → t.pkg.cfgOwner ≠ some port) ∧ t.mem = (s.resetFn port fn).mem ∧ t.waves = (s.resetFn port fn).waves := by
  refine ⟨_, rfl, ?_⟩
  by_cases h : fn = 0
  · rw [if_pos h]
    obtain ⟨hfns, hreplies, howner, hmem, hwaves⟩ := (s.resetFn port fn).loseConfig_rest port
    exact ⟨hfns, hreplies, fun _ => howner, hmem, hwaves⟩
  · rw [if_neg h]
    exact ⟨rfl, rfl, fun h0 => absurd h0 h, rfl, rfl⟩

/-- The reset of a world reports its completion, which touches neither worlds nor contexts. -/
theorem State.resetBound_gone (s : State) (port world : Nat) : (s.resetBound port world).worldGone world := by
  have hgone := s.resetWorld_gone world
  unfold State.resetBound
  generalize s.resetWorld world = t at hgone ⊢
  exact hgone.of_eq rfl rfl

/-- A function-level reset resets the world that is bound to it. -/
theorem exec_functionLevelReset {s : State} {port world : Nat} (h0 : world ≠ 0) (hlive : (s.world world).live = true)
    (hport : (s.world world).port = some port) :
    exec (.functionLevelReset port world) s = .next ((s.resetFn port (vfStride * world)).resetBound port world) := by
  have hworld : (s.resetFn port (vfStride * world)).world world = s.world world := (s.resetFn_kept port _).2.2.world world
  show execFunctionLevelReset port world s = _
  unfold execFunctionLevelReset
  exact (if_neg h0).trans (if_pos (by rw [hworld]; exact ⟨hlive, hport⟩))

/-! ## The configuration semaphore (R367) -/

theorem exec_takeConfig_free {s : State} {r : HostReq} (h : s.pkg.cfgOwner = none) : exec (.takeConfig r) s =
    .next (({ s with pkg := { s.pkg with cfgOwner := some r.port } } : State).reply (some r) opTake stOk 0 0 []) := by
  show execTakeConfig r s = _
  rw [execTakeConfig, h]

theorem exec_takeConfig_held {s : State} {r : HostReq} {p : Nat} (h : s.pkg.cfgOwner = some p) :
    exec (.takeConfig r) s = .next (s.reply (some r) opTake stBusy 0 0 []) := by
  show execTakeConfig r s = _
  rw [execTakeConfig, h]

theorem exec_giveConfig_owner {s : State} {r : HostReq} (h : s.pkg.cfgOwner = some r.port) : exec (.giveConfig r) s =
    .next (({ s with pkg := { s.pkg with cfgOwner := none } } : State).reply (some r) opGive stOk 0 0 []) := if_pos h

/-- The owner's link goes down, and the semaphore with it. -/
theorem exec_portLinkDown_owner {s : State} {port : Nat} (h : s.pkg.cfgOwner = some port) : exec (.portLinkDown port) s =
    .next { s with pkg := { s.pkg with linkUp := s.pkg.linkUp.set port false, cfgOwner := none } } :=
  congrArg Host.Outcome.next (if_pos h)

/-- Settles O50: what a function is after each change, one lemma for each request, and what the reset of a world leaves of it. -/
theorem deviceFunctions : Obligations.DeviceFunctions := by
  refine ⟨fun s port fn x => ⟨exec_featuresOk s port fn x, ?isr, fun q service m hfeatures hserves hfirst =>
    ⟨fun hfs hq => ?files, fun hvsock hq hservice => ⟨fun i hi => ?request, fun hnone => ?malformed⟩⟩, ?reset⟩,
    fun s r => ⟨fun hfree => ?take, fun p hheld => ?held, fun howner => ?give, fun howner => ?down⟩,
    fun s port world h0 hlive hport => ⟨_, exec_functionLevelReset h0 hlive hport, State.resetBound_gone _ port world⟩⟩
  case isr => exact ⟨_, rfl, State.fn_setFn s (s.fn_names port fn), rfl⟩
  case files =>
    refine ⟨_, exec_queueNotify hfeatures hserves hfirst (by simpa [queuesOf, hfs] using hq), ?_⟩
    simp only [hfs]
    exact State.fn_takes (s.unawait _) port fn _
  case request =>
    refine ⟨_, exec_queueNotify_message hfeatures hserves hfirst hvsock hq hservice, ?_⟩
    rw [State.message_request hi]
    exact ⟨rfl, State.fn_takes (s.unawait _) port fn _⟩
  case malformed =>
    refine ⟨_, exec_queueNotify_message hfeatures hserves hfirst hvsock hq hservice, ?_⟩
    rw [State.message_malformed hnone]
    exact ⟨rfl, rfl⟩
  case reset =>
    obtain ⟨hreplies, -⟩ := s.resetFn_rest port fn
    obtain ⟨hmem, hwaves, -⟩ := s.resetFn_kept port fn
    obtain ⟨t, hexec, hfnsT, hrepliesT, howner, hmemT, hwavesT⟩ := exec_deviceFunctionReset s port fn
    refine ⟨t, hexec, (State.fn_of_fns hfnsT port fn).trans (s.fn_resetFn port fn), ?_, howner, hmemT.trans hmem, hwavesT.trans hwaves⟩
    exact hrepliesT.trans (hreplies.trans (s.answerReset_replies port fn))
  case take => exact ⟨_, exec_takeConfig_free hfree, rfl⟩
  case held => exact ⟨_, exec_takeConfig_held hheld, hheld, by simp [State.reply, State.tell, stBusy]⟩
  case give => exact ⟨_, exec_giveConfig_owner howner, rfl⟩
  case down => exact ⟨_, exec_portLinkDown_owner howner, rfl, rfl⟩

end Sys2Proof.Machine

/-! SUPPORT. Start-up, recovery, and the limits of temperature (R358, R361, R378 to R381): the state from which a package starts, the grid of
its good tiles, uploads under recovery, and the links between dies. -/

namespace Sys2Proof.Machine

/-! ## Start-up (R361, R379) -/

/-- A package that has started on its good tiles: nothing but what survives power loss is kept of the state before, and world 0 stands
under the next epoch. -/
def State.startsAs (s : State) (good : List Nat) (t : State) : Prop :=
  t.mem = [] ∧ t.waves = [] ∧ t.ctxs = [] ∧ t.pkg.recovery = false ∧ t.pkg.bootCount = s.pkg.bootCount + 1 ∧
    t.pkg.attestCount = s.pkg.attestCount ∧ t.pkg.epoch = s.pkg.epoch + 1 ∧ t.pkg.tileMap = gridOf good ∧
    (t.world 0).lineKey = some (worldKeyOf (text "line") 0 [] (s.pkg.epoch + 1))

theorem State.startsAs.logLine {s t : State} {good : List Nat} (h : s.startsAs good t) (e : LogEntry) : s.startsAs good (t.logLine e) := h

theorem State.started_startsAs (s : State) (image : List Byte) (good : List Nat) : s.startsAs good (s.started image good) := by
  unfold State.started
  extract_lets
  exact foldl_inv (s.startsAs good) _ (fun t _ ht => ht.logLine _) _ _ ⟨rfl, rfl, rfl, rfl, rfl, rfl, rfl, rfl, rfl⟩

theorem exec_powerOn_good {s : State} {image sig : List Byte} {good : List Nat} (h : imageGood image sig = true) :
    exec (.powerOn image sig good) s = .next (s.started image good) := if_pos h

/-- A package whose image fails stays under recovery. -/
theorem exec_powerOn_bad {s : State} {image sig : List Byte} {good : List Nat} (h : ¬ imageGood image sig = true) :
    ∃ t, exec (.powerOn image sig good) s = .next t ∧ t.pkg.recovery = true := ⟨_, if_neg h, rfl⟩

/-! ## The grid (R379) -/

theorem mem_dieGood {good : List Nat} {die tile : Nat} (h : tile ∈ dieGood good die) : tile ∈ good ∧ tile / 48 = die := by
  obtain ⟨t, ht, hsome⟩ := List.mem_filterMap.mp h
  have hlt : t < 48 := List.mem_range.mp ht
  split at hsome
  · next hgood =>
    obtain rfl := Option.some.inj hsome
    exact ⟨by simpa using hgood, by omega⟩
  · cases hsome

/-- The 40 places of a die in the grid. -/
def gridDie (good : List Nat) (die : Nat) : List Nat :=
  let g := (dieGood good die).take 40
  if g.length = 40 then g else (List.range 40).map (die * 48 + ·)

theorem gridDie_length (good : List Nat) (die : Nat) : (gridDie good die).length = 40 := by
  unfold gridDie
  extract_lets g
  split
  · assumption
  · simp

theorem gridOf_eq (good : List Nat) : gridOf good = gridDie good 0 ++ (gridDie good 1 ++ (gridDie good 2 ++ gridDie good 3)) := by
  show (gridDie good 0 ++ (gridDie good 1 ++ (gridDie good 2 ++ (gridDie good 3 ++ [])))) = _
  rw [List.append_nil]

theorem gridOf_place (good : List Nat) {die k : Nat} (hdie : die < 4) (hk : k < 40) : (gridOf good)[die * 40 + k]? =
    (gridDie good die)[k]? := by
  have hlen := gridDie_length good
  rw [gridOf_eq]
  obtain rfl | rfl | rfl | rfl : die = 0 ∨ die = 1 ∨ die = 2 ∨ die = 3 := by omega
  · rw [List.getElem?_append_left (by rw [hlen]; omega), Nat.zero_mul, Nat.zero_add]
  · rw [List.getElem?_append_right (by rw [hlen]; omega), List.getElem?_append_left (by simp only [hlen]; omega)]
    simp only [hlen, Nat.add_sub_cancel_left, Nat.one_mul]
  · rw [List.getElem?_append_right (by rw [hlen]; omega), List.getElem?_append_right (by simp only [hlen]; omega),
      List.getElem?_append_left (by simp only [hlen]; omega)]
    exact congrArg _ (by simp only [hlen]; omega)
  · rw [List.getElem?_append_right (by rw [hlen]; omega), List.getElem?_append_right (by simp only [hlen]; omega),
      List.getElem?_append_right (by simp only [hlen]; omega)]
    exact congrArg _ (by simp only [hlen]; omega)

/-- Where a die has enough good tiles, its places hold good tiles of it. -/
theorem gridOf_good {good : List Nat} {die k tile : Nat} (hdie : die < 4) (hk : k < 40) (henough : 40 ≤ (dieGood good die).length)
    (h : (gridOf good)[die * 40 + k]? = some tile) : tile ∈ good ∧ tile / 48 = die := by
  have hfull : ((dieGood good die).take 40).length = 40 := by rw [List.length_take]; omega
  have hplaces : gridDie good die = (dieGood good die).take 40 := if_pos hfull
  rw [gridOf_place good hdie hk, hplaces] at h
  exact mem_dieGood (List.mem_of_mem_take (List.mem_of_getElem? h))

/-! ## Recovery (R378) -/

section Recovery

variable {s : State} {port : Nat} {bytes sig : List Byte} {good : List Nat}

/-- What a port has sent of an upload, with the bytes that come now. -/
def State.sofar (s : State) (port : Nat) (bytes : List Byte) : List Byte :=
  ((s.pkg.uploads.find? fun u => u.1 == port).map (·.2)).getD [] ++ bytes

def State.otherUploads (s : State) (port : Nat) : List (Nat × List Byte) := s.pkg.uploads.filter fun x => x.1 != port

/-- The state after an upload that is complete, which starts the package or is rejected. -/
def State.afterUpload (s : State) (image sig : List Byte) (good : List Nat) : State :=
  if imageGood image sig then s.started image good
  else ({ s with pkg := { s.pkg with uploads := [] } } : State).logLine (.recovery "REJECTED")

theorem begins_garc {bs : List Byte} (h : bs.take 4 = text "GARC") : ¬ bs.take 4 ≠ (text "GARC").take bs.length := by
  have hlen : 4 ≤ bs.length := by
    have h4 := congrArg List.length h
    rw [List.length_take, show (text "GARC").length = 4 from by decide] at h4
    omega
  rw [not_not, h, List.take_of_length_le hlen]

variable (hrec : s.pkg.recovery = true) (hgarc : (s.sofar port bytes).take 4 = text "GARC")
include hrec hgarc

/-- An upload that is not complete is kept. -/
theorem exec_recoveryUpload_more (h : uploaded (s.sofar port bytes) = none) : exec (.recoveryUpload port ⟨bytes, sig⟩ good) s =
    .next { s with pkg := { s.pkg with uploads := s.otherUploads port ++ [(port, s.sofar port bytes)] } } := by
  show execRecoveryUpload port ⟨bytes, sig⟩ good s = _
  unfold execRecoveryUpload
  refine (if_neg (by simp [hrec])).trans ((if_neg (begins_garc hgarc)).trans ?_)
  split
  · rfl
  · next hsome => exact nomatch h.symm.trans hsome

/-- The first upload that is complete is checked, and the others that are under way are answered BUSY. -/
theorem exec_recoveryUpload_complete {image : List Byte} (h : uploaded (s.sofar port bytes) = some image) :
    exec (.recoveryUpload port ⟨bytes, sig⟩ good) s =
      .next ((s.otherUploads port).foldl (fun s _ => s.logLine (.recovery "BUSY")) (s.afterUpload image sig good)) := by
  show execRecoveryUpload port ⟨bytes, sig⟩ good s = _
  unfold execRecoveryUpload
  refine (if_neg (by simp [hrec])).trans ((if_neg (begins_garc hgarc)).trans ?_)
  split
  · next hnone => exact nomatch h.symm.trans hnone
  · next image' hsome =>
    obtain rfl : image = image' := Option.some.inj (h.symm.trans hsome)
    rfl

theorem recoveryUpload_settles {image : List Byte} (h : uploaded (s.sofar port bytes) = some image) :
    ∃ t, exec (.recoveryUpload port ⟨bytes, sig⟩ good) s = .next t ∧
      if imageGood image sig = true then t.pkg.recovery = false ∧ t.pkg.bootCount = s.pkg.bootCount + 1 ∧ t.pkg.tileMap = gridOf good
      else t.pkg.recovery = true ∧ t.pkg.uploads = [] ∧ .recovery "REJECTED" ∈ t.pkg.log := by
  refine ⟨_, exec_recoveryUpload_complete hrec hgarc h, ?_⟩
  by_cases hgood : imageGood image sig = true
  · rw [if_pos hgood, State.afterUpload, if_pos hgood]
    obtain ⟨-, -, -, hrecovery, hboot, -, -, hmap, -⟩ := foldl_inv (s.startsAs good) (fun t (_ : Nat × List Byte) =>
      t.logLine (.recovery "BUSY")) (fun t _ ht => ht.logLine _) (s.otherUploads port) _ (s.started_startsAs image good)
    exact ⟨hrecovery, hboot, hmap⟩
  · rw [if_neg hgood, State.afterUpload, if_neg hgood]
    refine foldl_inv (fun t : State => t.pkg.recovery = true ∧ t.pkg.uploads = [] ∧ LogEntry.recovery "REJECTED" ∈ t.pkg.log) _
      (fun t _ ht => ?_) _ _ ⟨hrec, rfl, List.mem_append_right _ List.mem_cons_self⟩
    obtain ⟨hrecovery, huploads, hlog⟩ := ht
    exact ⟨hrecovery, huploads, List.mem_append_left _ hlog⟩

end Recovery

/-! ## Limits of temperature (R381) -/

/-- Every world that is reset for its temperature is left as a reset of its functions leaves it; the reports on its ports change nothing
of it. -/
theorem State.resetAll_gone (s : State) (w : Nat) : (s.resetAll w).worldGone w := by
  unfold State.resetAll
  extract_lets ports s1
  have hgone := s1.resetWorld_gone w
  generalize s1.resetWorld w = t at hgone ⊢
  refine foldl_inv (fun t : State => t.worldGone w) _ (fun t p ht => ?_) ports t.sequence (hgone.of_eq rfl rfl)
  exact ht.of_eq rfl rfl

/-! ## Links between dies (R358) -/

section Links

variable {s : State} {die : Nat} {answer : BitVec 512}

theorem exec_d2dLinkTraining_down (h : s.pkg.d2dUp.getD die false = false) : exec (.d2dLinkTraining die answer) s = .next s :=
  if_pos (by rw [h]; rfl)

variable (hup : s.pkg.d2dUp.getD die false = true)
include hup

theorem exec_d2dLinkTraining_right (h : answer = s.d2dAnswer die) :
    exec (.d2dLinkTraining die answer) s = .next { s with pkg := { s.pkg with trainings := s.pkg.trainings + 2 } } :=
  (if_neg (by rw [hup]; exact Bool.false_ne_true)).trans (if_pos h)

/-- A die whose link answers wrong is left out, and its link stays down. -/
theorem exec_d2dLinkTraining_wrong (h : answer ≠ s.d2dAnswer die) : exec (.d2dLinkTraining die answer) s =
    .next ((({ s with pkg := { s.pkg with trainings := s.pkg.trainings + 2, d2dUp := s.pkg.d2dUp.set die false } } : State).modDie die
      fun d => { d with present := false }).reserve.logLine (.dieLeftOut die)) :=
  (if_neg (by rw [hup]; exact Bool.false_ne_true)).trans (if_neg h)

end Links

theorem getD_set_default {α : Type} (l : List α) (i : Nat) (d : α) : (l.set i d).getD i d = d := by
  by_cases h : i < l.length <;> simp [List.getD_eq_getElem?_getD, h]

/-- Settles O55: what each start, upload and limit leaves, by its own lemma. -/
theorem startUpAndLimits : Obligations.StartUpAndLimits := by
  refine ⟨fun s image sig good => ?start, fun good die k tile hdie hk henough => gridOf_good hdie hk henough,
    fun s port bytes sig good hrec => ?recovery,
    fun s port bytes sig good hrec => if_pos (by simp [hrec]), fun s die hdie => ⟨_, rfl, ?throttle⟩, fun s => rfl,
    fun s w => s.resetAll_gone w, fun s die answer hdie => ⟨fun hup => ?trained, exec_d2dLinkTraining_down⟩⟩
  case start =>
    by_cases h : imageGood image sig = true
    · refine ⟨_, exec_powerOn_good h, ?_⟩
      rw [if_pos h]
      exact s.started_startsAs image good
    · simpa only [if_neg h] using exec_powerOn_bad h
  case recovery =>
    intro sofar hgarc
    refine ⟨fun hmore => ?_, fun image h => recoveryUpload_settles hrec hgarc h⟩
    exact ⟨_, exec_recoveryUpload_more hrec hgarc hmore, List.mem_append_right _ List.mem_cons_self, hrec⟩
  case throttle => exact congrArg Die.mhz (s.die_modDie die _ hdie)
  case trained =>
    by_cases h : answer = s.d2dAnswer die
    · refine ⟨_, exec_d2dLinkTraining_right hup h, rfl, ?_, ?_⟩
      · rw [beq_iff_eq.mpr h, Bool.and_true]
        rfl
      · rw [beq_iff_eq.mpr h]
        exact hup
    · refine ⟨_, exec_d2dLinkTraining_wrong hup h, rfl, ?_, ?_⟩
      · rw [beq_eq_false_iff_ne.mpr h, Bool.and_false]
        exact congrArg Die.present (State.die_modDie _ die _ hdie)
      · rw [beq_eq_false_iff_ne.mpr h]
        exact getD_set_default _ die false

end Sys2Proof.Machine

/-! SUPPORT. The commands of a freeze unit (R299 to R302, R308, R311, R312): the tile that a command to an idle unit latches, and what each
command makes of it. -/

namespace Sys2Proof.Machine

/-! ## Tiles -/

theorem State.tile_modTile_ne (s : State) (tile : Nat) (f : Tile → Tile) {k : Nat} (h : k ≠ tile) :
    (s.modTile tile f).tile k = s.tile k := by
  simp only [State.tile, State.modTile_tiles, List.getD_eq_getElem?_getD, getElem?_modifyAt_ne _ _ _ _ h]

@[simp] theorem State.length_tiles_modTile (s : State) (tile : Nat) (f : Tile → Tile) : (s.modTile tile f).tiles.length = s.tiles.length :=
  length_modifyAt ..

theorem State.tile_of_tiles {s t : State} (h : t.tiles = s.tiles) (k : Nat) : t.tile k = s.tile k := by rw [State.tile, h, State.tile]

theorem State.length_tiles_thaw (s : State) (k : Nat) : (s.thaw k).tiles.length = s.tiles.length := by
  unfold State.thaw
  split
  · exact s.length_tiles_modTile k _
  · rfl

theorem State.thaw_pkg (s : State) (k : Nat) : (s.thaw k).pkg = s.pkg := by
  unfold State.thaw
  split <;> rfl

/-- A tile whose clock was frozen may run again; nothing else of it changes. -/
theorem State.tile_thaw (s : State) (k : Nat) {tile : Nat} (h : tile < s.tiles.length) :
    (s.thaw k).tile tile = s.tile tile ∨ (s.thaw k).tile tile = { s.tile tile with clock := .running } := by
  unfold State.thaw
  split
  · by_cases hk : tile = k
    · subst hk
      exact .inr (s.tile_modTile tile _ h)
    · exact .inl (s.tile_modTile_ne k _ hk)
  · exact .inl rfl

/-! ## Commands (R299) -/

/-- The fields of a command as the tile latches them. -/
def Tile.latch (op : BitVec 4) (image : Nat) (pmask : BitVec 6) (t : Tile) : Tile :=
  { t with fzImage := BitVec.ofNat 52 (image / 4096 * 4096), fzOp := op, fzPmask := pmask }

def State.latched (s : State) (tile : Nat) (op : BitVec 4) (image : Nat) (pmask : BitVec 6) : State :=
  s.modTile tile (Tile.latch op image pmask)

section Commands

variable {s : State} {tile : Nat} (op : BitVec 4) (image : Nat) (pmask : BitVec 6)

theorem State.fzCommand_idle (hidle : (s.tile tile).busy = false) (k : State → State) :
    s.fzCommand tile op image pmask k = k (s.latched tile op image pmask) := if_neg (by simp [hidle])

variable (hlt : tile < s.tiles.length)
include hlt

theorem State.tile_latched : (s.latched tile op image pmask).tile tile = (s.tile tile).latch op image pmask := s.tile_modTile tile _ hlt

/-- A change of a latched tile is a change of the tile with the fields of the command in it. -/
theorem State.tile_modTile_latched (f : Tile → Tile) : ((s.latched tile op image pmask).modTile tile f).tile tile =
    f ((s.tile tile).latch op image pmask) := by
  rw [State.tile_modTile _ _ _ (by rwa [State.latched, State.length_tiles_modTile]), State.tile_latched op image pmask hlt]

end Commands

theorem image_latched {image : BitVec 52} (h : image.toNat % 4096 = 0) : BitVec.ofNat 52 (image.toNat / 4096 * 4096) = image := by
  rw [Nat.div_mul_cancel (Nat.dvd_of_mod_eq_zero h), BitVec.ofNat_toNat, BitVec.setWidth_eq]

/-! ## An image that is discarded (R311) -/

theorem State.discardImage_consumed (s : State) (x : Image) : (s.discardImage x).pkg.consumed =
    if s.pkg.consumed.contains x.freezeId then s.pkg.consumed else s.pkg.consumed ++ [x.freezeId] := by
  unfold State.discardImage
  split
  · rfl
  · rw [State.thaw_pkg]
    rfl

theorem State.length_tiles_discardImage (s : State) (x : Image) : (s.discardImage x).tiles.length = s.tiles.length := by
  unfold State.discardImage
  split
  · rfl
  · exact State.length_tiles_thaw _ x.tile

/-! ## The checks of a RESTORE (R308) -/

/-- The checks of a RESTORE do not look at the fields of its command. -/
theorem State.restoreCheck_latched {s : State} {tile : Nat} (hlt : tile < s.tiles.length) {op : BitVec 4} {image : Nat} {pmask : BitVec 6}
    (addr : Nat) : (s.latched tile op image pmask).restoreCheck tile addr = s.restoreCheck tile addr := by
  have hcmds : ((s.latched tile op image pmask).tile tile).cmds = (s.tile tile).cmds :=
    (congrArg Tile.cmds (State.tile_latched op image pmask hlt) :)
  unfold State.restoreCheck
  rw [hcmds]
  rfl

/-- What the checks of a RESTORE have come to: STATUS, or the stream under way. -/
def State.restoreAnswered (s : State) (tile : Nat) : Option (BitVec 7) → State
  | some st => s.fzStatus tile st
  | none => s.modTile tile fun t => { t with busy := true, clock := .restoring }

section Idle

variable {s : State} {tile : Nat} (hlt : tile < s.tiles.length) (hidle : (s.tile tile).busy = false)
include hlt hidle

/-! ## FREEZE, STOP and START (R300, R302, R312) -/

theorem exec_freeze_idle (image : BitVec 52) : ∃ t, exec (.freeze tile image) s = .next t ∧ (t.tile tile).busy = true ∧
    (t.tile tile).clock = .frozen ∧ (t.tile tile).fzOp = 1 ∧ t = { s with tiles := t.tiles } ∧ ∀ k, k ≠ tile → t.tile k = s.tile k := by
  refine ⟨_, congrArg Host.Outcome.next (State.fzCommand_idle 1 image.toNat 0 hidle _), ?_⟩
  have htile := State.tile_modTile_latched 1 image.toNat 0 hlt fun t => { t with busy := true, clock := .frozen }
  refine ⟨congrArg Tile.busy htile, congrArg Tile.clock htile, congrArg Tile.fzOp htile, rfl, fun k hk => ?_⟩
  exact (State.tile_modTile_ne _ tile _ hk).trans (s.tile_modTile_ne tile _ hk)

theorem exec_stop_idle : ∃ t, exec (.stop tile) s = .next t ∧ (t.tile tile).status = 0 ∧ t = { s with tiles := t.tiles } ∧
    (t.tile tile).clock = if (s.tile tile).clock = .running then .stopped else (s.tile tile).clock := by
  refine ⟨_, congrArg Host.Outcome.next (State.fzCommand_idle 4 0 0 hidle _), ?_⟩
  have htile := State.tile_modTile_latched 4 0 0 hlt fun t => { t.halt with status := fzDone }
  exact ⟨congrArg Tile.status htile, rfl, congrArg Tile.clock htile⟩

/-- A stopped tile runs again; what the proxy releases and the lanes that go on are no part of it. -/
theorem exec_start_idle : ∃ t, exec (.start tile) s = .next t ∧ (t.tile tile).status = 0 ∧
    (t.tile tile).clock = if (s.tile tile).clock = .stopped then .running else (s.tile tile).clock := by
  refine ⟨_, congrArg Host.Outcome.next (State.fzCommand_idle 5 0 0 hidle _), ?_⟩
  have hclock : ((s.latched tile 5 0 0).tile tile).clock = (s.tile tile).clock := (congrArg Tile.clock (State.tile_latched 5 0 0 hlt) :)
  have htile := State.tile_modTile_latched 5 0 0 hlt fun t => { t with status := fzDone }
  dsimp only
  rw [hclock]
  by_cases h : (s.tile tile).clock = .stopped
  · rw [if_pos h, if_pos h]
    have hruns := State.tile_modTile ((s.latched tile 5 0 0).fzStatus tile fzDone) tile (fun t => { t with clock := .running })
      (by simpa [State.fzStatus, State.latched] using hlt)
    exact ⟨(congrArg Tile.status hruns).trans (congrArg Tile.status htile :), congrArg Tile.clock hruns⟩
  · rw [if_neg h, if_neg h]
    exact ⟨congrArg Tile.status htile, (congrArg Tile.clock htile :)⟩

/-! ## DISCARD (R311) -/

/-- An image at the address of a DISCARD is marked, once. -/
theorem exec_discard_idle {image : BitVec 52} {x : Image} (hpage : image.toNat % 4096 = 0)
    (himage : s.image? image.toNat (s.headerId image.toNat) = some x) :
    ∃ t, exec (.discard tile image) s = .next t ∧ (t.tile tile).status = 0 ∧
      t.pkg.consumed = if s.pkg.consumed.contains x.freezeId then s.pkg.consumed else s.pkg.consumed ++ [x.freezeId] := by
  refine ⟨_, congrArg Host.Outcome.next (State.fzCommand_idle 6 image.toNat 0 hidle _), ?_⟩
  have hplace : ((s.latched tile 6 image.toNat 0).tile tile).fzImage = image :=
    (congrArg Tile.fzImage (State.tile_latched 6 image.toNat 0 hlt) :).trans (image_latched hpage)
  have hfound : (s.latched tile 6 image.toNat 0).image? image.toNat ((s.latched tile 6 image.toNat 0).headerId image.toNat) = some x :=
    himage
  dsimp only
  rw [hplace, hfound]
  have hlen : tile < ((s.latched tile 6 image.toNat 0).discardImage x).tiles.length := by
    rwa [State.length_tiles_discardImage, State.latched, State.length_tiles_modTile]
  exact ⟨congrArg Tile.status (State.tile_modTile _ tile _ hlen), State.discardImage_consumed _ x⟩

/-! ## RESTORE (R308, R309) -/

/-- A RESTORE of a tile that is not in retention: its checks, then the stream is under way. -/
theorem exec_restore_idle {image : BitVec 52} (hpage : image.toNat % 4096 = 0) (hawake : (s.tile tile).retention = .normal) :
    exec (.restore tile image) s =
      .next ((s.latched tile 3 image.toNat 0).restoreAnswered tile (s.restoreCheck tile image.toNat)) := by
  have htile := State.tile_latched 3 image.toNat 0 hlt
  have hplace : ((s.latched tile 3 image.toNat 0).tile tile).fzImage = image := (congrArg Tile.fzImage htile).trans (image_latched hpage)
  have hretention : ((s.latched tile 3 image.toNat 0).tile tile).retention ≠ .retained := by
    rw [htile]
    exact fun h => nomatch hawake.symm.trans h
  refine congrArg Host.Outcome.next ((State.fzCommand_idle 3 image.toNat 0 hidle _).trans ?_)
  simp only [hplace, State.restoreCheck_latched hlt, if_neg hretention]
  cases s.restoreCheck tile image.toNat <;> rfl

theorem exec_restore_begins {image : BitVec 52} (hpage : image.toNat % 4096 = 0) (hawake : (s.tile tile).retention = .normal)
    (h : s.restoreCheck tile image.toNat = none) : ∃ t, exec (.restore tile image) s = .next t ∧
      (t.tile tile).busy = true ∧ (t.tile tile).clock = .restoring ∧ (t.tile tile).fzOp = 3 := by
  have hexec := exec_restore_idle hlt hidle hpage hawake
  rw [h] at hexec
  have hunder := State.tile_modTile_latched 3 image.toNat 0 hlt fun t => { t with busy := true, clock := .restoring }
  exact ⟨_, hexec, congrArg Tile.busy hunder, congrArg Tile.clock hunder, congrArg Tile.fzOp hunder⟩

/-- One whose check fails ends with that STATUS. -/
theorem exec_restore_fails {image : BitVec 52} (hpage : image.toNat % 4096 = 0) (hawake : (s.tile tile).retention = .normal)
    {st : BitVec 7} (h : s.restoreCheck tile image.toNat = some st) : ∃ t, exec (.restore tile image) s = .next t ∧
      (t.tile tile).status = st ∧ (t.tile tile).clock = (s.tile tile).clock ∧ t.waves = s.waves := by
  have hexec := exec_restore_idle hlt hidle hpage hawake
  rw [h] at hexec
  have hfails := State.tile_modTile_latched 3 image.toNat 0 hlt fun t => { t with status := st }
  exact ⟨_, hexec, congrArg Tile.status hfails, (congrArg Tile.clock hfails :), rfl⟩

end Idle

/-! ## Comparators (R301) -/

/-- Of a number that ends in two bits, these. -/
theorem extractLsb'_append_low (x : BitVec 30) (y : BitVec 2) : (x ++ y).extractLsb' 0 2 = y := by
  refine BitVec.eq_of_getLsbD_eq fun i hi => ?_
  rw [BitVec.getLsbD_extractLsb', BitVec.getLsbD_append, Nat.zero_add, decide_eq_true hi, Bool.true_and, if_pos hi]

/-- A comparator stops the tile, and FREEZEID shows which. -/
theorem exec_fzpcStop_matched {s : State} {tile part n : Nat} (hlt : tile < s.tiles.length) (hruns : (s.tile tile).clock = .running)
    (hn : n < 4) (hpart : part < 6) (hmatched : s.matched tile part n = true) :
    ∃ t, exec (.fzpcStop tile n) s = .next t ∧ (t.tile tile).clock = .stopped ∧
      (t.tile tile).freezeId.extractLsb' 0 2 = BitVec.ofNat 2 n ∧ t.waves = s.waves ∧ t.mem = s.mem := by
  have hany : (List.range 6).any (fun p => s.matched tile p n) = true := List.any_eq_true.mpr ⟨part, List.mem_range.mpr hpart, hmatched⟩
  refine ⟨_, if_pos ⟨hruns, hn, hany⟩, ?_⟩
  have hstops := State.tile_modTile s.free.2 tile (fun t =>
    { t.halt with status := fzDone, freezeId := s.free.1.extractLsb' 2 30 ++ BitVec.ofNat 2 n }) hlt
  refine ⟨(congrArg Tile.clock hstops).trans (if_pos hruns), ?_, rfl, rfl⟩
  exact (congrArg (fun t : Tile => t.freezeId.extractLsb' 0 2) hstops).trans (extractLsb'_append_low _ _)

end Sys2Proof.Machine

/-! SUPPORT. QUIESCE (R300): what the ends of the partitions' teams leave of the tiles, and that every wave of them has left its tile. -/

namespace Sys2Proof.Machine

/-! ## What the end of a team keeps -/

theorem State.endTeam_ended {s : State} {t : Nat} (r : Option EndReason) (h : (s.team t).state = .ended) : s.endTeam t r = s := if_pos h

/-- The end of a team is seen in the waves, the teams and the tiles as `teamGone` has them. -/
theorem State.endTeam_parts {s : State} {t : Nat} (r : Option EndReason) (h : (s.team t).state ≠ .ended) :
    (s.endTeam t r).waves = (s.teamGone t r).waves ∧ (s.endTeam t r).teams = (s.teamGone t r).teams ∧
      (s.endTeam t r).tiles = (s.teamGone t r).tiles := by
  have hsame := s.endTeam_launches t r h
  unfold sameButLaunches at hsame
  rw [hsame]
  exact ⟨rfl, rfl, rfl⟩

/-- The waves, the teams and the tiles once a team's waves are gone. -/
theorem State.teamGone_parts (s : State) (t : Nat) (r : Option EndReason) :
    (s.teamGone t r).waves = s.waves.mapIdx (fun w wv => if (s.team t).waves.contains w then wv.gone else wv) ∧
      (s.teamGone t r).teams = modifyAt s.teams t (fun x => { x with state := .ended, placed := false, outcome := r }) ∧
      (s.teamGone t r).tiles = s.tiles.map fun x => { x with cmds := x.cmds.filter fun c => !(s.team t).waves.contains c.wave } := by
  have hsent := s.exited_sent t
  unfold State.teamGone State.cleared
  rw [hsent]
  exact ⟨rfl, rfl, rfl⟩

/-- Two states in which the clock of every tile stands the same. -/
def sameClocks (s t : State) : Prop :=
  t.tiles.length = s.tiles.length ∧ ∀ k, (t.tile k).clock = (s.tile k).clock

theorem State.endTeam_clocks (s : State) (t : Nat) (r : Option EndReason) : sameClocks s (s.endTeam t r) := by
  by_cases h : (s.team t).state = .ended
  · rw [State.endTeam_ended r h]
    exact ⟨rfl, fun _ => rfl⟩
  · obtain ⟨-, -, htiles⟩ := State.endTeam_parts r h
    obtain ⟨-, -, hgone⟩ := s.teamGone_parts t r
    rw [hgone] at htiles
    refine ⟨by rw [htiles, List.length_map], fun k => ?_⟩
    unfold State.tile
    rw [htiles, List.getD_eq_getElem?_getD, List.getD_eq_getElem?_getD, List.getElem?_map]
    cases s.tiles[k]? <;> rfl

theorem State.quiesceParts_clocks (s : State) (tile : Nat) (pmask : BitVec 6) (r : EndReason) : sameClocks s (s.quiesceParts tile pmask r)
    :=
  foldl_rel sameClocks (fun _ => ⟨rfl, fun _ => rfl⟩) (fun _ _ _ h k => ⟨k.1.trans h.1, fun i => (k.2 i).trans (h.2 i)⟩)
    (fun s t => s.endTeam t (some r)) (fun s t => s.endTeam_clocks t _) _ s

/-! ## The waves of the teams that end -/

/-- A wave that has left its tile does not come back with another team's end. -/
theorem State.endTeam_stays_gone (s : State) (t : Nat) (r : Option EndReason) {w : Nat} (h : (s.wave w).resident = false) :
    ((s.endTeam t r).wave w).resident = false := by
  by_cases hended : (s.team t).state = .ended
  · rw [State.endTeam_ended r hended]
    exact h
  · obtain ⟨hwaves, -, -⟩ := State.endTeam_parts r hended
    obtain ⟨hgone, -, -⟩ := s.teamGone_parts t r
    unfold State.wave at h ⊢
    rw [hwaves, hgone, List.getD_eq_getElem?_getD, List.getElem?_mapIdx]
    rw [List.getD_eq_getElem?_getD] at h
    cases hw : s.waves[w]? with
    | none => rfl
    | some wv =>
      rw [hw] at h
      simp only [Option.map_some, Option.getD_some] at h ⊢
      split
      · rfl
      · exact h

theorem State.endTeam_length_waves (s : State) (t : Nat) (r : Option EndReason) : (s.endTeam t r).waves.length = s.waves.length := by
  by_cases hended : (s.team t).state = .ended
  · rw [State.endTeam_ended r hended]
  · obtain ⟨hwaves, -, -⟩ := State.endTeam_parts r hended
    obtain ⟨hgone, -, -⟩ := s.teamGone_parts t r
    rw [hwaves, hgone, List.length_mapIdx]

theorem State.endTeam_team_ne (s : State) {t u : Nat} (r : Option EndReason) (hne : u ≠ t) : (s.endTeam t r).team u = s.team u := by
  by_cases hended : (s.team t).state = .ended
  · rw [State.endTeam_ended r hended]
  · obtain ⟨-, hteams, -⟩ := State.endTeam_parts r hended
    obtain ⟨-, hgone, -⟩ := s.teamGone_parts t r
    simp only [State.team, hteams, hgone, List.getD_eq_getElem?_getD, getElem?_modifyAt_ne _ _ _ _ hne]

/-- A wave that has left its tile, or that its team, which has not ended, still holds. -/
def State.leavesWith (s : State) (team w : Nat) : Prop :=
  w < s.waves.length ∧ ((s.wave w).resident = false ∨ w ∈ (s.team team).waves ∧ (s.team team).state ≠ .ended)

/-- The end of its team takes the wave from its tile. -/
theorem State.leavesWith.endTeam_self {s : State} {team w : Nat} (h : s.leavesWith team w) (r : Option EndReason) :
    ((s.endTeam team r).wave w).resident = false := by
  obtain ⟨hlt, hgone | ⟨hmem, hstate⟩⟩ := h
  · exact s.endTeam_stays_gone team r hgone
  · obtain ⟨hwaves, -, -⟩ := State.endTeam_parts r hstate
    unfold State.wave
    rw [hwaves]
    exact s.teamGone_wave team r hmem hlt

theorem State.leavesWith.endTeam {s : State} {team w : Nat} (h : s.leavesWith team w) (t : Nat) (r : Option EndReason) :
    (s.endTeam t r).leavesWith team w := by
  obtain ⟨hlt, hwave⟩ := h
  refine ⟨by rwa [State.endTeam_length_waves], ?_⟩
  by_cases ht : team = t
  · subst ht
    exact .inl (State.leavesWith.endTeam_self ⟨hlt, hwave⟩ r)
  · rw [s.endTeam_team_ne r ht]
    exact hwave.imp_left (s.endTeam_stays_gone t r)

/-- Every wave of a team that is ended for a partition has left its tile. -/
theorem State.quiesceParts_gone (s : State) {tile w : Nat} {pmask : BitVec 6} (r : EndReason) (hlt : w < s.waves.length)
    (hresident : (s.wave w).resident = true) (htile : (s.wave w).tile = tile) (hpart : pmask.getLsbD (s.wave w).part = true)
    (hmem : w ∈ (s.team (s.wave w).team).waves) (hstate : (s.team (s.wave w).team).state ≠ .ended) :
    ((s.quiesceParts tile pmask r).wave w).resident = false := by
  have hin : s.wave w ∈ s.waves := by
    rw [State.wave, List.getD_eq_getElem _ _ hlt]
    exact List.getElem_mem hlt
  have hteam : (s.wave w).team ∈
      distinct ((s.waves.filter fun wv => wv.resident && wv.tile == tile && pmask.getLsbD wv.part).map (·.team)) :=
    mem_distinct (List.mem_map_of_mem (List.mem_filter.mpr ⟨hin, by simp [hresident, htile, hpart]⟩))
  exact foldl_reaches (fun s t => s.endTeam t (some r)) (fun u => u.leavesWith (s.wave w).team w) (fun u => (u.wave w).resident = false)
    (fun u t hu => hu.endTeam t _) (fun u t hu => u.endTeam_stays_gone t _ hu) _ (fun u hu => hu.endTeam_self _) _ hteam s
    ⟨hlt, .inr ⟨hmem, hstate⟩⟩

theorem exec_quiesce_idle {s : State} {tile : Nat} (hlt : tile < s.tiles.length) (hidle : (s.tile tile).busy = false) (pmask : BitVec 6) :
    ∃ t, exec (.quiesce tile pmask) s = .next t ∧ (t.tile tile).status = 0 ∧ (t.tile tile).clock = (s.tile tile).clock ∧
      ∀ w, w < s.waves.length → (s.wave w).resident = true → (s.wave w).tile = tile → pmask.getLsbD (s.wave w).part = true →
        w ∈ (s.team (s.wave w).team).waves → (s.team (s.wave w).team).state ≠ .ended → (t.wave w).resident = false := by
  refine ⟨_, congrArg Host.Outcome.next (State.fzCommand_idle 2 0 pmask hidle _), ?_⟩
  obtain ⟨hlen, hclock⟩ := (s.latched tile 2 0 pmask).quiesceParts_clocks tile pmask .quiesced
  have hlen' : tile < ((s.latched tile 2 0 pmask).quiesceParts tile pmask .quiesced).tiles.length := by
    rwa [hlen, State.latched, State.length_tiles_modTile]
  have htile := State.tile_modTile _ tile (fun t => { t with status := fzDone }) hlen'
  refine ⟨congrArg Tile.status htile, ?_, fun w hw hresident htile hpart hmem hstate => ?_⟩
  · exact (congrArg Tile.clock htile).trans ((hclock tile).trans (congrArg Tile.clock (State.tile_latched 2 0 pmask hlt) :))
  · exact State.quiesceParts_gone (s.latched tile 2 0 pmask) .quiesced hw hresident htile hpart hmem hstate

end Sys2Proof.Machine

/-! SUPPORT. The end of a FREEZE (R302, R304, R305): the bytes of an image as memory holds them, and what leaves the tile with it. -/

namespace Sys2Proof.Machine

/-! ## Bytes -/

theorem ofBytes_toBytes (x n : Nat) : ofBytes (toBytes x n) = x % 256 ^ n := by
  induction n generalizing x with
  | zero => simp [toBytes, ofBytes, Nat.mod_one]
  | succ n ih =>
    have hsplit : x % 256 ^ (n + 1) = x % 256 + 256 * (x / 256 % 256 ^ n) := by rw [Nat.pow_succ', Nat.mod_mul]
    rw [toBytes, ofBytes, ih, BitVec.toNat_ofNat, hsplit]

/-- Bytes that lie below a write are as they were. -/
theorem Memory.bytes_write_above (m : List Host.Cell) {k j n : Nat} (bs : List Byte) (h : j + n ≤ k) :
    Memory.bytes (Memory.write m k bs) j n = Memory.bytes m j n :=
  Memory.bytes_congr _ _ _ _ fun i _ hi => Memory.byte_write_other _ _ _ _ (.inl (by omega))

/-- Of bytes that were written, some in the midst of them. -/
theorem Memory.bytes_write_midst (m : List Host.Cell) (k : Nat) (p x r : List Byte) :
    Memory.bytes (Memory.write m k (p ++ (x ++ r))) (k + p.length) x.length = x := by
  rw [Memory.write_append, Memory.write_append, Memory.bytes_write_above _ _ (Nat.le_refl _), Memory.bytes_write]

/-! ## The header of an image (R305) -/

/-- The word of a header that holds the package, the tile and the FREEZEID. -/
def Image.idWord (x : Image) : Nat := x.pkg * 2 ^ 52 + x.tile / 48 * 2 ^ 50 + x.tile % 48 * 2 ^ 44 + x.freezeId.toNat

theorem Image.freezeId_idWord (x : Image) : BitVec.ofNat 32 (x.idWord % 256 ^ 8) = x.freezeId := by
  refine BitVec.eq_of_toNat_eq ?_
  have hid : x.freezeId.toNat < 2 ^ 32 := x.freezeId.isLt
  rw [BitVec.toNat_ofNat, Image.idWord]
  omega

theorem sized_append {n : Nat} (p x q : List Byte) (h : p.length + x.length ≤ n) : ∃ r, sized n (p ++ (x ++ q)) = p ++ (x ++ r) := by
  have htake : (p ++ x ++ q).take n = p ++ x ++ q.take (n - (p ++ x).length) := by
    rw [List.take_append, List.take_of_length_le (by rwa [List.length_append])]
  refine ⟨q.take (n - (p ++ x).length) ++ List.replicate (n - (p ++ (x ++ q)).length) 0, ?_⟩
  rw [sized, ← List.append_assoc p x q, htake]
  simp only [List.append_assoc]

/-- That word is the fourth of the header. -/
theorem imageHeader_idWord (x : Image) (ort : List Byte) (nort length : Nat) (open_ : BitVec 512) :
    ∃ p q, imageHeader x ort nort length open_ = sized (headerSize nort) (p ++ (toBytes x.idWord 8 ++ q)) ∧ p.length = 24 := by
  refine ⟨toBytes (0x4741494D * 2 ^ 32 + 2 ^ 16) 8 ++ (toBytes x.rev.toNat 8 ++ toBytes length 8), ?_⟩
  unfold imageHeader
  simp only [List.append_assoc]
  exact ⟨_, rfl, by simp⟩

theorem imageBytes_idWord (x : Image) (ort : List Byte) (nort : Nat) (open_ : BitVec 512) :
    ∃ p r, imageBytes x ort nort open_ = p ++ (toBytes x.idWord 8 ++ r) ∧ p.length = 24 := by
  obtain ⟨p, q, hheader, hp⟩ := imageHeader_idWord x ort nort (headerSize nort + (imageSegments x open_).length) open_
  obtain ⟨r, hsized⟩ := sized_append (n := headerSize nort) p (toBytes x.idWord 8) q (by
    rw [hp, length_toBytes, headerSize]
    omega)
  refine ⟨p, r ++ imageSegments x open_, ?_, hp⟩
  show imageHeader _ _ _ _ _ ++ _ = _
  rw [hheader, hsized, List.append_assoc, List.append_assoc]

/-- An image that stands in memory under its TAG shows its FREEZEID. -/
theorem State.headerId_stored (s : State) (x : Image) (ort : List Byte) (nort a : Nat) (open_ : BitVec 512) :
    let bs := imageBytes x ort nort open_
    ((s.store [(a, bs.length)] bs).putTag a).headerId a = x.freezeId := by
  intro bs
  obtain ⟨p, r, hbytes, hp⟩ := imageBytes_idWord x ort nort open_
  have hword : Memory.bytes (Memory.write s.mem a bs) (a + 24) 8 = toBytes x.idWord 8 := by
    have hmidst := Memory.bytes_write_midst s.mem a p (toBytes x.idWord 8) r
    rwa [hp, length_toBytes, ← hbytes] at hmidst
  have hmem : ((s.store [(a, bs.length)] bs).putTag a).mem =
      Memory.write (Memory.write s.mem a bs) (a + 240) (toBytes ((s.store [(a, bs.length)] bs).tagOf a).toNat 16) := by
    rw [State.putTag, State.store_mem, State.store_mem, Memory.writePieces, Memory.writePieces, Memory.writePieces, Memory.writePieces,
      List.take_length, List.take_of_length_le (Nat.le_of_eq (length_toBytes ..))]
  unfold State.headerId State.hword Memory.read
  rw [hmem, Memory.bytes_write_above _ _ (by omega), hword, ofBytes_toBytes, Image.freezeId_idWord]

/-! ## What leaves the tile (R302) -/

section Take

variable (s : State) (tile : Nat)

/-- The bytes of the image of a tile. -/
def State.imageBytesOf : List Byte :=
  imageBytes (s.imageOf tile) ((s.tileReqs tile).flatMap fun r => toBytes (s.ortEntry tile r) 32) (s.tileReqs tile).length s.free.1

/-- Whether the image lies in local HBM that world 0 holds (R353). -/
def State.imageFits : Bool :=
  let a := (s.imageOf tile).addr.toNat
  let n := (s.imageBytesOf tile).length
  s.isLocal a && s.isLocal (a + n - 1) && s.granted 0 a n

/-- The state with the image's bytes in memory, where they fit. -/
def State.imageStored : State :=
  let a := (s.imageOf tile).addr.toNat
  if s.imageFits tile then (s.free.2.store [(a, (s.imageBytesOf tile).length)] (s.imageBytesOf tile)).putTag a else s.free.2

theorem State.imageStored_sameButStored : sameButStored s.free.2 (s.imageStored tile) := by
  unfold State.imageStored
  extract_lets a
  split
  · exact (s.free.2.store_sameButStored _ _).trans (State.store_sameButStored _ _ _)
  · exact .refl _

/-- The image joins the others, its waves leave the tile, and the unit is idle. -/
theorem State.takeImage_parts (hlt : tile < s.tiles.length) :
    let t := s.takeImage tile
    let x := s.imageOf tile
    t.images = s.images ++ [x] ∧ (∀ w ∈ x.waves, (t.wave w).resident = false) ∧ (t.tile tile).busy = false ∧ (t.tile tile).status = 0 ∧
      (t.tile tile).freezeId = s.pkg.nextFreeze ∧ t.pkg.nextFreeze = s.pkg.nextFreeze + 1 ∧ t.mem = (s.imageStored tile).mem := by
  intro t x
  have ht : t = s.takeImage tile := rfl
  have hsame : sameButStored s.free.2 (s.imageStored tile) := s.imageStored_sameButStored tile
  unfold State.takeImage at ht
  extract_lets reqs ort f bs a fits s1 pkg s2 at ht
  have hs1 : s.imageStored tile = s1 := rfl
  rw [hs1] at hsame ⊢
  clear_value s1
  obtain ⟨himages, htiles, hpkg⟩ : s1.images = s.images ∧ s1.tiles = s.tiles ∧ s1.pkg = s.pkg := by
    unfold sameButStored at hsame
    rw [hsame]
    exact ⟨rfl, rfl, rfl⟩
  have htile := State.tile_modTile s2 tile (fun t =>
    { t with cmds := t.cmds.filter fun c => !x.waves.contains c.wave, fills := t.fills.filter fun f => !x.waves.contains f.wave
             busy := false, status := fzDone, freezeId := x.freezeId }) (by show tile < s1.tiles.length; rwa [htiles])
  rw [ht]
  refine ⟨congrArg (· ++ [x]) himages, fun w hw => ?_, congrArg Tile.busy htile, congrArg Tile.status htile, congrArg Tile.freezeId htile,
    congrArg (fun p : Package => p.nextFreeze + 1) hpkg, rfl⟩
  have hcontains : x.waves.contains w = true := by simpa using hw
  show ((s1.waves.mapIdx fun i wv => if x.waves.contains i then { wv with resident := false } else wv).getD w Wave.blank).resident = false
  rw [List.getD_eq_getElem?_getD, List.getElem?_mapIdx]
  cases s1.waves[w]? with
  | none => rfl
  | some wv => exact congrArg Wave.resident (if_pos hcontains)

/-- FREEZE_DONE of a stream that is under way. -/
theorem exec_freezeDone_under (hbusy : (s.tile tile).busy = true) (hop : (s.tile tile).fzOp = 1) :
    exec (.freezeDone tile) s = .next (s.takeImage tile) := congrArg Host.Outcome.next (if_pos ⟨hbusy, hop⟩)

theorem State.headerId_imageStored (h : s.imageFits tile = true) :
    (s.imageStored tile).headerId (s.imageOf tile).addr.toNat = s.pkg.nextFreeze := by
  unfold State.imageStored
  rw [if_pos h]
  exact s.free.2.headerId_stored (s.imageOf tile) _ _ _ s.free.1

/-- An image that does not fit leaves memory as it is (log 83). -/
theorem State.mem_imageStored_outside (h : ¬ s.imageFits tile = true) : (s.imageStored tile).mem = s.mem := by
  unfold State.imageStored
  rw [if_neg h]
  rfl

theorem State.imageFits_iff : s.imageFits tile = true ↔
    let a := (s.imageOf tile).addr.toNat
    let n := (s.imageBytesOf tile).length
    s.isLocal a = true ∧ s.isLocal (a + n - 1) = true ∧ s.granted 0 a n = true := by
  simp only [State.imageFits, Bool.and_eq_true, and_assoc]

theorem State.headerId_of_mem {s t : State} (h : t.mem = s.mem) (a : Nat) : t.headerId a = s.headerId a := by
  unfold State.headerId State.hword
  rw [h]

end Take

end Sys2Proof.Machine

/-! SUPPORT. The end of a RESTORE (R308, R309, R311): the tile that an image was put into runs, and its image is consumed. -/

namespace Sys2Proof.Machine

/-- Two states with the same tiles and the same package. -/
def sameTilesAndPkg (s t : State) : Prop := t.tiles = s.tiles ∧ t.pkg = s.pkg

theorem sameTilesAndPkg.refl (s : State) : sameTilesAndPkg s s := ⟨rfl, rfl⟩

theorem sameTilesAndPkg.trans (s t u : State) (h : sameTilesAndPkg s t) (k : sameTilesAndPkg t u) : sameTilesAndPkg s u :=
  ⟨k.1.trans h.1, k.2.trans h.2⟩

theorem State.setScratch_tilesAndPkg (s : State) (t : Nat) (e : W64) : sameTilesAndPkg s (s.setScratch t e) := by
  unfold State.setScratch
  split
  · exact .refl s
  · split <;> exact ⟨rfl, rfl⟩

/-- A new world block and the zeroing of a tile keep the number of tiles and the package. -/
theorem State.assignWorlds_parts (s : State) (tile : Nat) (new : Tile) :
    (s.assignWorlds tile new).tiles.length = s.tiles.length ∧ (s.assignWorlds tile new).pkg = s.pkg := by
  have hwiped : sameTilesAndPkg s ((changedBanks (s.tile tile) new).foldl (fun s b => s.wipe (sliceKey tile (b * 16384)) 16384) s) :=
    foldl_rel sameTilesAndPkg .refl .trans (fun s b => s.wipe (sliceKey tile (b * 16384)) 16384) (fun _ _ => ⟨rfl, rfl⟩) _ s
  obtain ⟨htiles, hpkg⟩ := hwiped
  unfold State.assignWorlds
  exact ⟨(State.length_tiles_modTile _ _ _).trans (congrArg List.length htiles), hpkg⟩

/-- An image whose stream has finished: the unit is idle, the tile runs under the image's identity, and the image is consumed. -/
theorem State.putImage_tile (s : State) (x : Image) {tile : Nat} (hlt : tile < s.tiles.length) :
    let t := s.putImage tile x
    (t.tile tile).busy = false ∧ (t.tile tile).status = 0 ∧ (t.tile tile).clock = .running ∧ (t.tile tile).freezeId = x.freezeId ∧
      t.pkg.consumed = s.pkg.consumed ++ [x.freezeId] := by
  intro t
  have ht : t = s.putImage tile x := rfl
  unfold State.putImage at ht
  extract_lets teams alive move s1 fabric s2 s3 s4 s5 at ht
  have hs1 : s1.tiles.length = s.tiles.length ∧ s1.pkg = s.pkg := by
    obtain ⟨hlen, hpkg⟩ := s.assignWorlds_parts tile (s.blockFor tile x)
    exact ⟨(State.length_tiles_modTile _ _ _).trans hlen, hpkg⟩
  clear_value s1
  have hs3 : sameTilesAndPkg s2 s3 := foldl_rel sameTilesAndPkg .refl .trans _ (fun s t => by
    split
    · exact .refl s
    · exact s.setScratch_tilesAndPkg _ _) _ s2
  have hs2 : s2.tiles = s1.tiles ∧ s2.pkg = s1.pkg := ⟨rfl, rfl⟩
  clear_value s2
  have hs4 : s4.tiles.length = s.tiles.length ∧ s4.pkg = s.pkg := by
    obtain ⟨htiles, hpkg⟩ := hs3
    refine ⟨?_, hpkg.trans (hs2.2.trans hs1.2)⟩
    rw [← hs1.1, ← hs2.1, ← htiles]
    exact (List.length_map _).trans (State.length_tiles_modTile _ _ _)
  clear_value s3 s4
  have hlt5 : tile < ((s4.release alive).consumeImage x.freezeId).tiles.length := by
    show tile < s4.tiles.length
    rwa [hs4.1]
  have htile := State.tile_modTile ((s4.release alive).consumeImage x.freezeId) tile (fun t =>
    { t with busy := false, status := fzDone, freezeId := x.freezeId, clock := .running }) hlt5
  have hlt5' : tile < s5.tiles.length := (State.length_tiles_modTile _ _ _).symm ▸ hlt5
  have hpkg : t.pkg.consumed = s.pkg.consumed ++ [x.freezeId] := by
    rw [ht]
    refine (congrArg Package.consumed (s5.thaw_pkg x.tile)).trans ?_
    exact congrArg (fun p : Package => p.consumed ++ [x.freezeId]) hs4.2
  have hruns : t.tile tile = (s5.thaw x.tile).tile tile := by
    rw [ht]
    exact State.tile_of_tiles rfl tile
  rw [hruns]
  rcases s5.tile_thaw x.tile hlt5' with hthaw | hthaw
  · rw [hthaw, htile]
    exact ⟨rfl, rfl, rfl, rfl, hpkg⟩
  · rw [hthaw, htile]
    exact ⟨rfl, rfl, rfl, rfl, hpkg⟩

section RestoreDone

variable {s : State} {tile : Nat} {x : Image} (hlt : tile < s.tiles.length) (hbusy : (s.tile tile).busy = true)
  (hop : (s.tile tile).fzOp = 3) (himage : s.image? (s.tile tile).fzImage.toNat (s.headerId (s.tile tile).fzImage.toNat) = some x)
include hbusy hop himage

theorem exec_restoreDone_under : exec (.restoreDone tile) s =
    .next (if s.pkg.consumed.contains x.freezeId then
        (s.modTile tile fun t => { t with busy := false, status := fzConsumed, clock := .running }).wakeArray tile
      else s.putImage tile x) := by
  show execRestoreDone tile s = _
  unfold execRestoreDone
  refine (if_neg (by simp [hbusy, hop])).trans ?_
  rw [himage]
  exact (apply_ite Host.Outcome.next _ _ _).symm

include hlt

theorem exec_restoreDone_puts (h : s.pkg.consumed.contains x.freezeId = false) : ∃ t, exec (.restoreDone tile) s = .next t ∧
    (t.tile tile).busy = false ∧ (t.tile tile).status = 0 ∧ (t.tile tile).clock = .running ∧ (t.tile tile).freezeId = x.freezeId ∧
      t.pkg.consumed = s.pkg.consumed ++ [x.freezeId] := by
  refine ⟨_, (exec_restoreDone_under hbusy hop himage).trans (congrArg _ (if_neg ?_)), s.putImage_tile x hlt⟩
  rw [h]
  exact Bool.false_ne_true

/-- An image that has been restored in the meantime leaves the target idle. -/
theorem exec_restoreDone_consumed (h : s.pkg.consumed.contains x.freezeId = true) : ∃ t, exec (.restoreDone tile) s = .next t ∧
    (t.tile tile).busy = false ∧ (t.tile tile).status = fzConsumed ∧ (t.tile tile).clock = .running ∧ t.pkg.consumed = s.pkg.consumed ∧
      t.mem = s.mem := by
  have htile := s.tile_modTile tile (fun t => { t with busy := false, status := fzConsumed, clock := .running }) hlt
  exact ⟨_, (exec_restoreDone_under hbusy hop himage).trans (congrArg _ (if_pos h)), congrArg Tile.busy htile, congrArg Tile.status htile,
    congrArg Tile.clock htile, rfl, rfl⟩

end RestoreDone

/-! ## The freeze units -/

/-- The end of a FREEZE, with what memory then shows of the image. -/
theorem exec_freezeDone_takes {s : State} {tile : Nat} (hlt : tile < s.tiles.length) (hbusy : (s.tile tile).busy = true)
    (hop : (s.tile tile).fzOp = 1) :
    ∃ t x, exec (.freezeDone tile) s = .next t ∧ t.images = s.images ++ [x] ∧ x.freezeId = s.pkg.nextFreeze ∧
      x.waves = s.tileWaves tile ∧ (∀ w ∈ x.waves, (t.wave w).resident = false) ∧
      (t.tile tile).busy = false ∧ (t.tile tile).status = 0 ∧ (t.tile tile).freezeId = s.pkg.nextFreeze ∧
      t.pkg.nextFreeze = s.pkg.nextFreeze + 1 ∧
      let a := x.addr.toNat
      let n := (imageBytes x ((s.tileReqs tile).flatMap fun r => toBytes (s.ortEntry tile r) 32) (s.tileReqs tile).length s.free.1).length
      let fits := s.isLocal a = true ∧ s.isLocal (a + n - 1) = true ∧ s.granted 0 a n = true
      (Memory.wf s.mem → fits → t.headerId a = x.freezeId) ∧ (¬ fits → t.mem = s.mem) := by
  obtain ⟨himages, hwaves, hidle, hstatus, hid, hnext, hmem⟩ := s.takeImage_parts tile hlt
  refine ⟨s.takeImage tile, s.imageOf tile, exec_freezeDone_under s tile hbusy hop, himages, rfl, rfl, hwaves, hidle, hstatus, hid, hnext,
    ?_⟩
  intro a n fits
  refine ⟨fun _ hfits => ?_, fun hout => hmem.trans (s.mem_imageStored_outside tile fun h => hout ((s.imageFits_iff tile).mp h))⟩
  exact (State.headerId_of_mem hmem a).trans (s.headerId_imageStored tile ((s.imageFits_iff tile).mpr hfits))

/-- Settles O48: one lemma for each command of an idle unit, and one for each end of a stream. -/
theorem freezeUnitsTakeAndPutImages : Obligations.FreezeUnitsTakeAndPutImages := by
  refine ⟨fun s tile hlt hidle => ⟨exec_freeze_idle hlt hidle, exec_stop_idle hlt hidle, exec_start_idle hlt hidle,
    exec_quiesce_idle hlt hidle, fun image x hpage himage => exec_discard_idle hlt hidle hpage himage, fun image hpage hawake => ?restore⟩,
    fun s tile hlt hbusy hop => exec_freezeDone_takes hlt hbusy hop, fun s tile x hlt hbusy hop himage =>
    ⟨exec_restoreDone_puts hlt hbusy hop himage, exec_restoreDone_consumed hlt hbusy hop himage⟩,
    fun s tile part n hlt hruns hn hpart hmatched => exec_fzpcStop_matched hlt hruns hn hpart hmatched⟩
  case restore =>
    cases hcheck : s.restoreCheck tile image.toNat with
    | none => exact exec_restore_begins hlt hidle hpage hawake hcheck
    | some st => exact exec_restore_fails hlt hidle hpage hawake hcheck

end Sys2Proof.Machine
